-- ==== Sys2Proof/Word.lean ====
section
/-! DEFINITION. The words of the part: the byte of the command port and of the belfry line, the bell set
of 31 flags (R203), and the numberings of stations, slots, tunes, dials, zones and scenes (00_scope.md). -/

namespace Sys2Proof

/-- One byte of the command port or of the belfry line. -/
abbrev Byte := BitVec 8

/-- A bell set: bit n of the 32-bit value is station n; bit 0 is unused (R203). -/
abbrev BellSet := BitVec 32

/-- A station 1..31, held as its number less 1 (00_scope.md, Terms). -/
abbrev Station := Fin 31

/-- A slot 0..127 of the observance table (R1). -/
abbrev SlotNo := Fin 128

/-- A tune 1..32, held as its number less 1 (R137). -/
abbrev TuneNo := Fin 32

/-- A dial 1..4, held as its number less 1 (R169). -/
abbrev DialNo := Fin 4

/-- A zone 1..8, held as its number less 1 (R182). -/
abbrev ZoneNo := Fin 8

/-- A scene 1..16, held as its number less 1 (R183). -/
abbrev SceneNo := Fin 16

/-- A set of dials: bit d - 1 is dial d (R203). -/
abbrev DialSet := BitVec 4

end Sys2Proof
end

