-- ==== Sys2Proof/Syntax.lean ====
section
/-! DEFINITION. The commands the part takes, one constructor for each row of spec/opcode_table.json, in the
table's order. A frame of the command port carries the bytes that follow its command byte (R193, R212); an event
carries what the outside supplies with it: a pin's level, a received message, a station's answer, an address byte
(log entries 2, 5 and 28). -/

namespace Sys2Proof

/-- The level the KEY input reads (R25, R27). -/
inductive KeyLevel where
  | opened
  | closed
  deriving DecidableEq, Repr

/-- One of the three performers (R78). -/
inductive Lane where
  | chime
  | toll
  | peal
  deriving DecidableEq, Repr

/-- How a station answered one attempt of an order (R152, R156). The reply byte is the QUERY reply of R210 and is
read for a QUERY alone. -/
inductive StationAnswer where
  | unanswered
  | acknowledged (reply : Byte)
  deriving DecidableEq, Repr

/-- The address byte and the order byte with which a frame of another party begins (R153, R157). -/
structure FrameHead where
  address : Byte
  order : Byte
  deriving DecidableEq, Repr

/-- What a recovery attempt found on the wires (R165). -/
inductive AttemptResult where
  | freed
  | clockStuck
  | dataStuck
  deriving DecidableEq, Repr

/-- The commands. -/
inductive Instr where
  -- the observance table (chapter 1)
  | writeRecord (ops : List Byte)
  | publishRecord (ops : List Byte)
  | withdrawRecord (ops : List Byte)
  | retireRecord (ops : List Byte)
  | readRecord (ops : List Byte)
  | findRecords (ops : List Byte)
  | writeProtection (ops : List Byte) (key : KeyLevel)
  | readProtection (key : KeyLevel)
  | lockSlot (ops : List Byte)
  | unlockSlot (ops : List Byte)
  | lockAll (ops : List Byte)
  | unlockAll (ops : List Byte)
  | lockTune (ops : List Byte)
  | unlockTune (ops : List Byte)
  -- the time base (chapter 2)
  | setTime (ops : List Byte)
  | adjustTime (ops : List Byte)
  | writeTimeSettings (ops : List Byte)
  | readTime
  | readTimeSettings
  -- the day resolver (chapter 3)
  | writeSundayRank (ops : List Byte)
  | readCalendarSettings
  | writeTwilight (ops : List Byte)
  | queryDay (ops : List Byte)
  | readQueryResult
  -- the day sheets (chapter 4)
  | readSheet (ops : List Byte)
  -- the override stack (chapter 5)
  | pushOverride (ops : List Byte)
  | popOverride (ops : List Byte)
  | dropOverride (ops : List Byte)
  | readOverrides
  -- the bell table (chapter 6)
  | writeBell (ops : List Byte)
  | freeBell (ops : List Byte)
  | readBell (ops : List Byte)
  -- the tune store (chapter 7)
  | openTune (ops : List Byte)
  | writeNotes (ops : List Byte)
  | closeTune (ops : List Byte)
  | clearTune (ops : List Byte)
  | readTune (ops : List Byte)
  | readNotes (ops : List Byte)
  -- the belfry line (chapter 8)
  | clearLine (ops : List Byte)
  | writeLineSettings (ops : List Byte)
  | readLine
  -- the dial drives (chapter 9)
  | writeDial (ops : List Byte) (circuitOpen : Bool)
  | setDialHands (ops : List Byte)
  | readDial (ops : List Byte) (contactClosed : Bool)
  -- the lighting unit (chapter 10)
  | writeZone (ops : List Byte)
  | writeScene (ops : List Byte)
  | setAllowance (ops : List Byte)
  | readLighting (ops : List Byte)
  -- attention, status and reset (chapter 11)
  | clearAttention (ops : List Byte)
  | writeAttentionEnables (ops : List Byte)
  | readStatus
  | readIdentity
  | reset (ops : List Byte) (openCircuits : DialSet)
  | unknownCommandFrame (code : Byte) (ops : List Byte)
  -- pins, power and mains (chapter 11)
  | resetPin (openCircuits : DialSet)
  | coldStart (mainsHigh : Bool)
  | powerUpBackupHeld (mainsHigh : Bool) (openCircuits : DialSet)
  | mainsLost
  | mainsReturn (openCircuits : DialSet)
  -- time (chapter 2)
  | newSecond
  | summerChange
  | dayChange
  | endOfRange
  | standbyBuildTime
  | referenceMessage (bytes : List Byte)
  | waitingMessageExpiry
  | referencePulse
  | referenceLost
  | holdoverExpiry
  -- the resolver (chapter 3)
  | resolverRunStart
  | todayRebuildInstall
  | standbyBuildInstall
  | queryRunComplete
  -- the sheets and the lanes (chapter 4)
  | entryFallsDue
  | quietPeriodEnd
  | graceExpiry
  | laneTakesEntry (lane : Lane)
  | tollStrokeRequest
  -- playing and striking (chapters 6 and 7)
  | tuneNote
  | tunePlayEnd
  | hourStrokeRequest
  | deferredStrokeDue (station : Station)
  | tuneCheckComplete (tune : TuneNo)
  -- overrides (chapter 5)
  | overrideExpiry
  -- bells (chapter 6)
  | raiseTimeout (station : Station)
  | lowerTimeout (station : Station)
  | bellPoll (station : Station)
  | ringingLimit (station : Station)
  | pealRaisingTimeout
  | pealRingingEnd
  | owedOrderOffered
  | waitingRequestAdmitted (station : Station)
  -- the belfry line (chapter 8)
  | orderFrameStart (lckHigh ldaHigh : Bool)
  | orderAttemptEnd (answer : StationAnswer)
  | arbitrationLost (winner : FrameHead)
  | foreignStart (address : Byte)
  | observedFrameStop (rest : List Byte) (orderAcknowledged : Bool)
  | claim (set : BellSet)
  | release (set : BellSet)
  | releaseAll
  | busError
  | forcedAccess
  | recoveryPulsesDone (freed : Bool)
  | clockStuck
  | recoveryAttemptEnd (result : AttemptResult)
  -- dials (chapter 9)
  | targetChange
  | impulseStart (dial : DialNo)
  | impulseEnd (dial : DialNo) (circuitOpen : Bool)
  | syncClosure (dial : DialNo)
  -- the rest of the table
  | referenceMessageAbandoned
  | addressedFrameStop
  | resetPinReleased
  | partUnpowered
  | backupRetentionLost
  deriving DecidableEq, Repr

end Sys2Proof
end

