-- ==== Sys2Proof/WellFormed.lean ====
section
/-! DEFINITION. Which commands are well formed: those the outside can bring about. A frame of any length is (R194, R195 say what
the port does with it); an event carries what its frame or message must hold. -/

namespace Sys2Proof

/-- The command codes (R212). -/
def commandCodes : List Nat :=
  [0x10, 0x11, 0x12, 0x13, 0x14, 0x15, 0x16, 0x17, 0x18, 0x19, 0x1A, 0x1B, 0x1C, 0x1D,
    0x20, 0x21, 0x22, 0x23, 0x24, 0x28, 0x29, 0x2A, 0x2B, 0x2C, 0x30, 0x38, 0x39, 0x3A,
    0x3B, 0x40, 0x41, 0x42, 0x48, 0x49, 0x4A, 0x4B, 0x4C, 0x4D, 0x50, 0x51, 0x52, 0x58,
    0x59, 0x5A, 0x60, 0x61, 0x62, 0x63, 0x68, 0x69, 0x70, 0x71, 0x7F]

/-- An address byte: its bit 1 is 0 (R210). -/
def addressByteOk (b : Byte) : Bool := !b.getLsbD 1

/-- Whether a command is well formed. -/
def Instr.wellFormed (i : Instr) : Bool :=
  match i with
  | .unknownCommandFrame code _ => !commandCodes.contains code.toNat
  | .referenceMessage bytes => !bytes.isEmpty
  | .arbitrationLost winner => addressByteOk winner.address
  | .foreignStart address => addressByteOk address
  | .observedFrameStop rest acknowledged => !acknowledged || !rest.isEmpty
  | .writeRecord _ => true
  | .publishRecord _ => true
  | .withdrawRecord _ => true
  | .retireRecord _ => true
  | .readRecord _ => true
  | .findRecords _ => true
  | .writeProtection _ _ => true
  | .readProtection _ => true
  | .lockSlot _ => true
  | .unlockSlot _ => true
  | .lockAll _ => true
  | .unlockAll _ => true
  | .lockTune _ => true
  | .unlockTune _ => true
  | .setTime _ => true
  | .adjustTime _ => true
  | .writeTimeSettings _ => true
  | .readTime => true
  | .readTimeSettings => true
  | .writeSundayRank _ => true
  | .readCalendarSettings => true
  | .writeTwilight _ => true
  | .queryDay _ => true
  | .readQueryResult => true
  | .readSheet _ => true
  | .pushOverride _ => true
  | .popOverride _ => true
  | .dropOverride _ => true
  | .readOverrides => true
  | .writeBell _ => true
  | .freeBell _ => true
  | .readBell _ => true
  | .openTune _ => true
  | .writeNotes _ => true
  | .closeTune _ => true
  | .clearTune _ => true
  | .readTune _ => true
  | .readNotes _ => true
  | .clearLine _ => true
  | .writeLineSettings _ => true
  | .readLine => true
  | .writeDial _ _ => true
  | .setDialHands _ => true
  | .readDial _ _ => true
  | .writeZone _ => true
  | .writeScene _ => true
  | .setAllowance _ => true
  | .readLighting _ => true
  | .clearAttention _ => true
  | .writeAttentionEnables _ => true
  | .readStatus => true
  | .readIdentity => true
  | .reset _ _ => true
  | .resetPin _ => true
  | .coldStart _ => true
  | .powerUpBackupHeld _ _ => true
  | .mainsLost => true
  | .mainsReturn _ => true
  | .newSecond => true
  | .summerChange => true
  | .dayChange => true
  | .endOfRange => true
  | .standbyBuildTime => true
  | .waitingMessageExpiry => true
  | .referencePulse => true
  | .referenceLost => true
  | .holdoverExpiry => true
  | .resolverRunStart => true
  | .todayRebuildInstall => true
  | .standbyBuildInstall => true
  | .queryRunComplete => true
  | .entryFallsDue => true
  | .quietPeriodEnd => true
  | .graceExpiry => true
  | .laneTakesEntry _ => true
  | .tollStrokeRequest => true
  | .tuneNote => true
  | .tunePlayEnd => true
  | .hourStrokeRequest => true
  | .deferredStrokeDue _ => true
  | .tuneCheckComplete _ => true
  | .overrideExpiry => true
  | .raiseTimeout _ => true
  | .lowerTimeout _ => true
  | .bellPoll _ => true
  | .ringingLimit _ => true
  | .pealRaisingTimeout => true
  | .pealRingingEnd => true
  | .owedOrderOffered => true
  | .waitingRequestAdmitted _ => true
  | .orderFrameStart _ _ => true
  | .orderAttemptEnd _ => true
  | .claim _ => true
  | .release _ => true
  | .releaseAll => true
  | .busError => true
  | .forcedAccess => true
  | .recoveryPulsesDone _ => true
  | .clockStuck => true
  | .recoveryAttemptEnd _ => true
  | .targetChange => true
  | .impulseStart _ => true
  | .impulseEnd _ _ => true
  | .syncClosure _ => true
  | .referenceMessageAbandoned => true
  | .addressedFrameStop => true
  | .resetPinReleased => true
  | .partUnpowered => true
  | .backupRetentionLost => true

end Sys2Proof
end

