-- ==== Sys2Proof/Decode.lean ====
section
/-! DEFINITION. Command words and port frames. The opcode table gives no row any bits, so no word spells a command; what the
port decodes is the first byte of a frame, by R212's codes, and the encoder writes the frame of a command. -/

namespace Sys2Proof

/-- The command that a table word spells: none, since no row has bits. -/
def decodeTableWord (_nbits _w : Nat) : Option Instr := none

/-- The input levels that some frames sample: KEY (R25, R27), the output circuit a WRITE DIAL senses (R179), the sync contact a
READ DIAL reports (R181), and the circuits a RESET senses (R200). -/
structure Levels where
  key : KeyLevel
  circuitOpen : Bool
  contactClosed : Bool
  openCircuits : DialSet
  deriving DecidableEq, Repr

/-- The command a command byte names, with the bytes after it (R193, R212); a byte that names none is a frame that the port
refuses (R194). A read without operands ignores what follows its command byte (R195). -/
def decodeCommand (lv : Levels) (code : Byte) (ops : List Byte) : Instr :=
  match code.toNat with
  | 0x10 => .writeRecord ops
  | 0x11 => .publishRecord ops
  | 0x12 => .withdrawRecord ops
  | 0x13 => .retireRecord ops
  | 0x14 => .readRecord ops
  | 0x15 => .findRecords ops
  | 0x16 => .writeProtection ops lv.key
  | 0x17 => .readProtection lv.key
  | 0x18 => .lockSlot ops
  | 0x19 => .unlockSlot ops
  | 0x1A => .lockAll ops
  | 0x1B => .unlockAll ops
  | 0x1C => .lockTune ops
  | 0x1D => .unlockTune ops
  | 0x20 => .setTime ops
  | 0x21 => .adjustTime ops
  | 0x22 => .writeTimeSettings ops
  | 0x23 => .readTime
  | 0x24 => .readTimeSettings
  | 0x28 => .writeSundayRank ops
  | 0x29 => .writeTwilight ops
  | 0x2A => .queryDay ops
  | 0x2B => .readCalendarSettings
  | 0x2C => .readQueryResult
  | 0x30 => .readSheet ops
  | 0x38 => .pushOverride ops
  | 0x39 => .popOverride ops
  | 0x3A => .dropOverride ops
  | 0x3B => .readOverrides
  | 0x40 => .writeBell ops
  | 0x41 => .freeBell ops
  | 0x42 => .readBell ops
  | 0x48 => .openTune ops
  | 0x49 => .writeNotes ops
  | 0x4A => .closeTune ops
  | 0x4B => .clearTune ops
  | 0x4C => .readTune ops
  | 0x4D => .readNotes ops
  | 0x50 => .clearLine ops
  | 0x51 => .writeLineSettings ops
  | 0x52 => .readLine
  | 0x58 => .writeDial ops lv.circuitOpen
  | 0x59 => .setDialHands ops
  | 0x5A => .readDial ops lv.contactClosed
  | 0x60 => .writeZone ops
  | 0x61 => .writeScene ops
  | 0x62 => .setAllowance ops
  | 0x63 => .readLighting ops
  | 0x68 => .clearAttention ops
  | 0x69 => .writeAttentionEnables ops
  | 0x70 => .readStatus
  | 0x71 => .readIdentity
  | 0x7F => .reset ops lv.openCircuits
  | _ => .unknownCommandFrame code ops

/-- The command of a frame; a frame with no whole byte is none (R194). -/
def decodeFrame (lv : Levels) (bytes : List Byte) : Option Instr :=
  match bytes with
  | [] => none
  | code :: ops => some (decodeCommand lv code ops)

/-- The frame of a command of the port: its command byte and the bytes after it (R212); none for an event. -/
def encodeFrame (i : Instr) : Option (List Byte) :=
  match i with
  | .writeRecord ops => some (0x10 :: ops)
  | .publishRecord ops => some (0x11 :: ops)
  | .withdrawRecord ops => some (0x12 :: ops)
  | .retireRecord ops => some (0x13 :: ops)
  | .readRecord ops => some (0x14 :: ops)
  | .findRecords ops => some (0x15 :: ops)
  | .writeProtection ops _ => some (0x16 :: ops)
  | .readProtection _ => some [0x17]
  | .lockSlot ops => some (0x18 :: ops)
  | .unlockSlot ops => some (0x19 :: ops)
  | .lockAll ops => some (0x1A :: ops)
  | .unlockAll ops => some (0x1B :: ops)
  | .lockTune ops => some (0x1C :: ops)
  | .unlockTune ops => some (0x1D :: ops)
  | .setTime ops => some (0x20 :: ops)
  | .adjustTime ops => some (0x21 :: ops)
  | .writeTimeSettings ops => some (0x22 :: ops)
  | .readTime => some [0x23]
  | .readTimeSettings => some [0x24]
  | .writeSundayRank ops => some (0x28 :: ops)
  | .readCalendarSettings => some [0x2B]
  | .writeTwilight ops => some (0x29 :: ops)
  | .queryDay ops => some (0x2A :: ops)
  | .readQueryResult => some [0x2C]
  | .readSheet ops => some (0x30 :: ops)
  | .pushOverride ops => some (0x38 :: ops)
  | .popOverride ops => some (0x39 :: ops)
  | .dropOverride ops => some (0x3A :: ops)
  | .readOverrides => some [0x3B]
  | .writeBell ops => some (0x40 :: ops)
  | .freeBell ops => some (0x41 :: ops)
  | .readBell ops => some (0x42 :: ops)
  | .openTune ops => some (0x48 :: ops)
  | .writeNotes ops => some (0x49 :: ops)
  | .closeTune ops => some (0x4A :: ops)
  | .clearTune ops => some (0x4B :: ops)
  | .readTune ops => some (0x4C :: ops)
  | .readNotes ops => some (0x4D :: ops)
  | .clearLine ops => some (0x50 :: ops)
  | .writeLineSettings ops => some (0x51 :: ops)
  | .readLine => some [0x52]
  | .writeDial ops _ => some (0x58 :: ops)
  | .setDialHands ops => some (0x59 :: ops)
  | .readDial ops _ => some (0x5A :: ops)
  | .writeZone ops => some (0x60 :: ops)
  | .writeScene ops => some (0x61 :: ops)
  | .setAllowance ops => some (0x62 :: ops)
  | .readLighting ops => some (0x63 :: ops)
  | .clearAttention ops => some (0x68 :: ops)
  | .writeAttentionEnables ops => some (0x69 :: ops)
  | .readStatus => some [0x70]
  | .readIdentity => some [0x71]
  | .reset ops _ => some (0x7F :: ops)
  | .unknownCommandFrame code ops => some (code :: ops)
  | .resetPin _ => none
  | .coldStart _ => none
  | .powerUpBackupHeld _ _ => none
  | .mainsLost => none
  | .mainsReturn _ => none
  | .newSecond => none
  | .summerChange => none
  | .dayChange => none
  | .endOfRange => none
  | .standbyBuildTime => none
  | .referenceMessage _ => none
  | .waitingMessageExpiry => none
  | .referencePulse => none
  | .referenceLost => none
  | .holdoverExpiry => none
  | .resolverRunStart => none
  | .todayRebuildInstall => none
  | .standbyBuildInstall => none
  | .queryRunComplete => none
  | .entryFallsDue => none
  | .quietPeriodEnd => none
  | .graceExpiry => none
  | .laneTakesEntry _ => none
  | .tollStrokeRequest => none
  | .tuneNote => none
  | .tunePlayEnd => none
  | .hourStrokeRequest => none
  | .deferredStrokeDue _ => none
  | .tuneCheckComplete _ => none
  | .overrideExpiry => none
  | .raiseTimeout _ => none
  | .lowerTimeout _ => none
  | .bellPoll _ => none
  | .ringingLimit _ => none
  | .pealRaisingTimeout => none
  | .pealRingingEnd => none
  | .owedOrderOffered => none
  | .waitingRequestAdmitted _ => none
  | .orderFrameStart _ _ => none
  | .orderAttemptEnd _ => none
  | .arbitrationLost _ => none
  | .foreignStart _ => none
  | .observedFrameStop _ _ => none
  | .claim _ => none
  | .release _ => none
  | .releaseAll => none
  | .busError => none
  | .forcedAccess => none
  | .recoveryPulsesDone _ => none
  | .clockStuck => none
  | .recoveryAttemptEnd _ => none
  | .targetChange => none
  | .impulseStart _ => none
  | .impulseEnd _ _ => none
  | .syncClosure _ => none
  | .referenceMessageAbandoned => none
  | .addressedFrameStop => none
  | .resetPinReleased => none
  | .partUnpowered => none
  | .backupRetentionLost => none

/-- Whether a command's sampled levels are those given; commands that sample nothing agree with any. -/
def samples (lv : Levels) (i : Instr) : Bool :=
  match i with
  | .writeRecord _ => true
  | .publishRecord _ => true
  | .withdrawRecord _ => true
  | .retireRecord _ => true
  | .readRecord _ => true
  | .findRecords _ => true
  | .writeProtection _ key => key == lv.key
  | .readProtection key => key == lv.key
  | .lockSlot _ => true
  | .unlockSlot _ => true
  | .lockAll _ => true
  | .unlockAll _ => true
  | .lockTune _ => true
  | .unlockTune _ => true
  | .setTime _ => true
  | .adjustTime _ => true
  | .writeTimeSettings _ => true
  | .readTime => true
  | .readTimeSettings => true
  | .writeSundayRank _ => true
  | .readCalendarSettings => true
  | .writeTwilight _ => true
  | .queryDay _ => true
  | .readQueryResult => true
  | .readSheet _ => true
  | .pushOverride _ => true
  | .popOverride _ => true
  | .dropOverride _ => true
  | .readOverrides => true
  | .writeBell _ => true
  | .freeBell _ => true
  | .readBell _ => true
  | .openTune _ => true
  | .writeNotes _ => true
  | .closeTune _ => true
  | .clearTune _ => true
  | .readTune _ => true
  | .readNotes _ => true
  | .clearLine _ => true
  | .writeLineSettings _ => true
  | .readLine => true
  | .writeDial _ circuitOpen => circuitOpen == lv.circuitOpen
  | .setDialHands _ => true
  | .readDial _ contactClosed => contactClosed == lv.contactClosed
  | .writeZone _ => true
  | .writeScene _ => true
  | .setAllowance _ => true
  | .readLighting _ => true
  | .clearAttention _ => true
  | .writeAttentionEnables _ => true
  | .readStatus => true
  | .readIdentity => true
  | .reset _ openCircuits => openCircuits == lv.openCircuits
  | .unknownCommandFrame _ _ => true
  | .resetPin _ => true
  | .coldStart _ => true
  | .powerUpBackupHeld _ _ => true
  | .mainsLost => true
  | .mainsReturn _ => true
  | .newSecond => true
  | .summerChange => true
  | .dayChange => true
  | .endOfRange => true
  | .standbyBuildTime => true
  | .referenceMessage _ => true
  | .waitingMessageExpiry => true
  | .referencePulse => true
  | .referenceLost => true
  | .holdoverExpiry => true
  | .resolverRunStart => true
  | .todayRebuildInstall => true
  | .standbyBuildInstall => true
  | .queryRunComplete => true
  | .entryFallsDue => true
  | .quietPeriodEnd => true
  | .graceExpiry => true
  | .laneTakesEntry _ => true
  | .tollStrokeRequest => true
  | .tuneNote => true
  | .tunePlayEnd => true
  | .hourStrokeRequest => true
  | .deferredStrokeDue _ => true
  | .tuneCheckComplete _ => true
  | .overrideExpiry => true
  | .raiseTimeout _ => true
  | .lowerTimeout _ => true
  | .bellPoll _ => true
  | .ringingLimit _ => true
  | .pealRaisingTimeout => true
  | .pealRingingEnd => true
  | .owedOrderOffered => true
  | .waitingRequestAdmitted _ => true
  | .orderFrameStart _ _ => true
  | .orderAttemptEnd _ => true
  | .arbitrationLost _ => true
  | .foreignStart _ => true
  | .observedFrameStop _ _ => true
  | .claim _ => true
  | .release _ => true
  | .releaseAll => true
  | .busError => true
  | .forcedAccess => true
  | .recoveryPulsesDone _ => true
  | .clockStuck => true
  | .recoveryAttemptEnd _ => true
  | .targetChange => true
  | .impulseStart _ => true
  | .impulseEnd _ _ => true
  | .syncClosure _ => true
  | .referenceMessageAbandoned => true
  | .addressedFrameStop => true
  | .resetPinReleased => true
  | .partUnpowered => true
  | .backupRetentionLost => true

end Sys2Proof
end

