-- ==== Sys2Proof/Config.lean ====
section
/-! DEFINITION. The fixed quantities of the part, each with the rule that states it. Every T416 has the same
ones, and the spec leaves no value of the state open, so there is no free value here (log entry 35). -/

namespace Sys2Proof.Config

/-- Entries a sheet holds at most (R65). -/
def sheetCapacity : Nat := 256
/-- Orders the line queue holds at most (R154). -/
def queueCapacity : Nat := 32
/-- Override entries the stack holds at most (R99). -/
def stackCapacity : Nat := 8
/-- Notes of the note memory (R137). -/
def noteCapacity : Nat := 4096
/-- Day number of 2400-01-01, the first day past the supported range (R45, R47). -/
def endOfRangeDay : Nat := 146097
/-- A stroke's deadline after it became due, ms (R116, R117). -/
def strokeDeadline : Nat := 250
/-- The raising timer of a peal, ms (R127). -/
def raisingTimer : Nat := 120000
/-- The longest a check of a tune takes, ms (R143). -/
def checkTime : Nat := 20
/-- The longest a resolver run takes, ms (R67, section 3.9). -/
def runTime : Nat := 40
/-- Time without a byte after which REF_DATA is idle, and the longest gap within a message, ms (R35). -/
def receiverIdle : Nat := 20
/-- The longest a waiting message waits for its pulse, ms (R36). -/
def messageLife : Nat := 1100
/-- Seconds in LOCKED without an accepted pair that give HOLDOVER (R39). -/
def lockLife : Nat := 120
/-- Seconds in HOLDOVER that give FREE (R39). -/
def holdoverLife : Nat := 86400
/-- The longest LCK may read low, ms (R163). -/
def clockStretch : Nat := 25
/-- Time from a START with no STOP after which the controller forces access, ms (R161). -/
def hangTime : Nat := 100
/-- Attempts without acknowledgement after which an order is reported unanswered (R156). -/
def attemptLimit : Nat := 3
/-- Unanswered orders in a row that make a bell FAULT (R123). -/
def noAnswerLimit : Nat := 3
/-- Half-minute steps of the 12-hour face (R170). -/
def faceSteps : Nat := 1440
/-- Most matches one FIND RECORDS streams (R22). -/
def findLimit : Nat := 16
/-- Most entries one READ SHEET streams (R98). -/
def readSheetLimit : Nat := 8

end Sys2Proof.Config
end

