-- ==== Sys2Proof/Machine/State.lean ====
section
/-! DEFINITION. The state of the T416: every register, table, queue, timer and pin the spec gives the part, block by
block, and the queue of commands that wait (INVENTORY.md lists each with its rule). Plain data throughout.
State.reset is the part right after a cold start. -/

namespace Sys2Proof.Machine

/-- The part stops with no fault: refusals of the part are refusal codes (R196), faults of the tower are states. -/
inductive Fault where
  deriving DecidableEq, Repr

/-- Reasons why the model has no meaning for a command. -/
inductive Refusal where
  /-- Raised by exec alone, for a command that has no meaning yet. Safe: nothing is claimed of it. -/
  | notModelled (mnemonic : String)
  deriving DecidableEq, Repr

/-! ### The time base (chapter 2) -/

/-- Reference state (R28, R39). -/
inductive RefState where
  | free
  | locked
  | holdover
  deriving DecidableEq, Repr

/-- One summer rule: month, nth (1..4, or 5 for LAST), weekday and standard hour (R28, section 2.3). -/
structure SummerRule where
  month : Nat
  nth : Nat
  weekday : Nat
  hour : Nat
  deriving DecidableEq, Repr

/-- A checked message that waits for its pulse: its reference standard moment in seconds from day 0, and the elapsed
moment of its last byte (R35). -/
structure WaitingMessage where
  moment : Nat
  received : Nat
  deriving DecidableEq, Repr

/-- What the time base holds (R28). `lastByte` is the elapsed moment of the last byte on REF_DATA, from which the line's idle
time is told (R35; log entry 39). -/
structure TimeBase where
  stdDay : Nat
  stdSec : Nat
  fraction : Nat
  slew : Int
  ref : RefState
  refTimer : Nat
  candidate : Option Int
  waiting : Option WaitingMessage
  assembling : List Byte
  lastByte : Option Nat
  valid : Bool
  zone : Int
  summerEnable : Bool
  startRule : SummerRule
  endRule : SummerRule
  summer : Bool
  localDate : Nat
  instant : Nat
  dayLength : Nat
  deriving DecidableEq, Repr

/-! ### The observance table (chapter 1) -/

/-- The seven kinds of record (R3). -/
inductive Kind where
  | feast
  | quiet
  | strike
  | tune
  | toll
  | peal
  | light
  deriving DecidableEq, Repr

/-- Slot states (R1). -/
inductive SlotState where
  | empty
  | draft
  | live
  | spent
  deriving DecidableEq, Repr

/-- The last outcome field (R10). -/
inductive LastOutcome where
  | none
  | done
  | cutShort
  | withheld
  | missed
  | skipped
  deriving DecidableEq, Repr

/-- A record image of 32 bytes (R205). -/
abbrev Image := Vector Byte 32

/-- One slot: its state, its image, its outcome fields and its lock flag (R1, R10, R24). -/
structure Slot where
  state : SlotState
  image : Image
  lastDay : Option Nat
  performed : Nat
  missed : Nat
  last : LastOutcome
  locked : Bool
  deriving DecidableEq, Repr

/-- The base ranges of protection (R23). -/
inductive ProtRange where
  | none
  | bottom16
  | bottom32
  | bottom64
  | top16
  | top32
  | top64
  | all
  deriving DecidableEq, Repr

/-- The lock schemes (R23). -/
inductive LockScheme where
  | rangeOnly
  | rangeAndLocks
  deriving DecidableEq, Repr

/-- The observance table: the slots and the protection settings (R1, R25). -/
structure Table where
  slots : Vector Slot 128
  range : ProtRange
  complement : Bool
  scheme : LockScheme
  guard : Bool
  deriving DecidableEq, Repr

/-! ### Sheets and resolver (chapters 3 and 4) -/

/-- Entry states (R76). -/
inductive EntryState where
  | pending
  | due
  | active
  | done
  | cutShort
  | withheld
  | missed
  | skipped
  deriving DecidableEq, Repr

/-- The pair that names an entry on a sheet: slot and sub-index (R65). -/
structure Key where
  slot : SlotNo
  sub : Nat
  deriving DecidableEq, Repr

/-- A sheet entry (R59, R76). -/
structure Entry where
  instant : Nat
  endInstant : Option Nat
  key : Key
  kind : Kind
  rank : Nat
  state : EntryState
  carried : Bool
  deriving DecidableEq, Repr

/-- A sheet: its entries in sheet order and its drop tallies (R65, R66). -/
structure Sheet where
  entries : List Entry
  tallies : Vector Nat 128
  deriving DecidableEq, Repr

/-- Status of the standby sheet (R70). -/
inductive StandbyStatus where
  | missing
  | fresh
  | stale
  deriving DecidableEq, Repr

/-- Both sheets. `relight` and `standbyTime` are the model's own marks of what the present second still calls for
(R83, R70; log entry 36). -/
structure Sheets where
  today : Sheet
  standby : Sheet
  status : StandbyStatus
  relight : List Key
  standbyTime : Bool
  deriving DecidableEq, Repr

/-- Calendar settings: the Sunday rank (R53) and the twilight table of dawn and dusk minutes (R56). -/
structure Calendar where
  sundayRank : Nat
  twilight : Vector (Nat × Nat) 24
  deriving DecidableEq, Repr

/-- The kinds of resolver run (R67). -/
inductive RunKind where
  | today
  | standby
  | query
  deriving DecidableEq, Repr

/-- A run in progress: the date it resolves, the entries it has generated, whether a trigger came after its start, and
the elapsed moment of its start (R67, R69, R70; log entry 11). -/
structure Run where
  kind : RunKind
  date : Nat
  generated : List Entry
  triggered : Bool
  started : Nat
  deriving DecidableEq, Repr

/-- The query result record (R73). -/
structure QueryResult where
  day : Nat
  weekday : Nat
  easterMonth : Nat
  easterDay : Nat
  rank : Nat
  feast : Option SlotNo
  feastName : Nat
  summerNoon : Bool
  dawn : Nat
  dusk : Nat
  dayLength : Nat
  applying : Nat
  deriving DecidableEq, Repr

/-- The resolver: its requests, the date of a pending query, the run in progress and the last result (R67, R73, R74). A
request of a kind that is set while a run of that kind is in progress is the rerun mark. -/
structure Resolver where
  todayReq : Bool
  fromZero : Bool
  standbyReq : Bool
  query : Option Nat
  run : Option Run
  result : Option QueryResult
  deriving DecidableEq, Repr

/-- A toll being performed (R89). -/
structure TollRun where
  serial : Nat
  bell : Station
  interval : Nat
  total : Nat
  requested : Nat
  anyLost : Bool
  nextAt : Option Nat
  deriving DecidableEq, Repr

/-- The lanes, the lit-record set and the toll in progress (R78, R89). `serial` counts the entries taken (log entry 9). -/
structure Lanes where
  chime : Option Key
  toll : Option Key
  peal : Option Key
  lit : Vector Bool 128
  tollRun : Option TollRun
  serial : Nat
  deriving DecidableEq, Repr

/-! ### The override stack (chapter 5) -/

/-- A kind scope: a set of the four sounding kinds (R8, R99). -/
structure KindScope where
  strike : Bool
  tune : Bool
  toll : Bool
  peal : Bool
  deriving DecidableEq, Repr

/-- What an override entry imposes (R99). -/
inductive OverrideBody where
  | silence (kinds : KindScope) (bells : BellSet)
  | muffle (bells : BellSet)
  | lights (scene : SceneNo)
  | dialHold (dials : DialSet)
  deriving DecidableEq, Repr

/-- An override entry; its expiry is a standard moment in seconds from day 0 (R99, R100). -/
structure Override where
  id : Nat
  body : OverrideBody
  expiry : Option Nat
  deriving DecidableEq, Repr

/-- The override stack, oldest entry first (R99). -/
structure Overrides where
  entries : List Override
  lastId : Nat
  deriving DecidableEq, Repr

/-! ### The bell table (chapter 6) -/

/-- Position states (R112). -/
inductive Position where
  | absent
  | down
  | raising
  | up
  | lowering
  | unsure
  | fault
  deriving DecidableEq, Repr

/-- Who controls a bell (R112). -/
inductive Controller where
  | automatic
  | console
  deriving DecidableEq, Repr

/-- The swing orders and the query (R118). -/
inductive SwingOrder where
  | raise
  | lower
  | halt
  | query
  deriving DecidableEq, Repr

/-- Stroke strengths (R116, R138). -/
inductive Strength where
  | soft
  | normal
  | full
  deriving DecidableEq, Repr

/-- Who asked for a stroke, and so who is answered (R116, R117). The number is the serial of the entry performed. -/
inductive Requester where
  | toll (serial : Nat)
  | hour (serial : Nat)
  | note (serial : Nat)
  deriving DecidableEq, Repr

/-- Positions a station's QUERY reply reports (R153, R210). -/
inductive ReplyPosition where
  | down
  | rising
  | up
  | falling
  deriving DecidableEq, Repr

/-- A station's QUERY reply (R153, R210). -/
structure Reply where
  position : ReplyPosition
  motorFault : Bool
  hammerFault : Bool
  deriving DecidableEq, Repr

/-- A deferred stroke (R116). -/
structure Deferred where
  strength : Strength
  requester : Requester
  deriving DecidableEq, Repr

/-- A bell record (R111, R112). Moments are elapsed milliseconds. -/
structure Bell where
  present : Bool
  hammer : Bool
  swing : Bool
  recovery : Nat
  raiseTime : Nat
  lowerTime : Nat
  load : Nat
  limit : Nat
  pos : Position
  ctrl : Controller
  reserving : Bool
  strokes : Nat
  faults : Nat
  noAnswer : Nat
  upSince : Nat
  nextFree : Nat
  owed : Option SwingOrder
  lastReply : Option Reply
  moveStart : Option Nat
  deferred : List Deferred
  waitingRaise : Bool
  nextPoll : Option Nat
  deriving DecidableEq, Repr

/-- Phases of the peal procedure (R127 to R129). -/
inductive PealPhase where
  | raising
  | ringing
  | lowering
  deriving DecidableEq, Repr

/-- The running peal: held bells, whether a bell of its set was excluded or has left, phase, the moments at which its
raising and ringing timers run out, and its ringing minutes (R127 to R129). -/
structure PealRun where
  held : List Station
  shortened : Bool
  phase : PealPhase
  raiseBy : Option Nat
  ringEnd : Option Nat
  minutes : Nat
  deriving DecidableEq, Repr

/-! ### The tune store (chapter 7) -/

/-- Tune states (R137). -/
inductive TuneState where
  | empty
  | loading
  | checking
  | ready
  | bad
  deriving DecidableEq, Repr

/-- A tune entry (R137), its lock flag (R26) and the elapsed moment at which its last CLOSE took effect (R143). -/
structure Tune where
  state : TuneState
  first : Nat
  length : Nat
  tick : Nat
  expected : Nat
  computed : Nat
  plays : Nat
  skipped : Nat
  locked : Bool
  closedAt : Nat
  deriving DecidableEq, Repr

/-- The note memory as bytes: note n is the bytes at 2n and 2n + 1 (R137, R206). Addresses strictly rise and no listed
byte is 0, which is what an unlisted address reads as (log entry 18). -/
abbrev Memory := List Host.Cell

/-- The player and the strike train (section 7.3, R148, R149). `tune` is the tune in play, none once the tune part is
over; `noteAt` is the start of the note at `notePos`, or the end of the play when no note is left. -/
structure Player where
  serial : Nat
  train : Bool
  tune : Option TuneNo
  playsAsked : Nat
  playNo : Nat
  notePos : Nat
  playStart : Nat
  noteAt : Nat
  hourBell : Station
  interval : Nat
  strokes : Nat
  requested : Nat
  answered : Nat
  anyLost : Bool
  strokeAt : Option Nat
  deriving DecidableEq, Repr

/-- The tune store. -/
structure TuneStore where
  tunes : Vector Tune 32
  notes : Memory
  player : Option Player
  deriving DecidableEq, Repr

/-! ### The belfry line (chapter 8) -/

/-- Line states (R151). -/
inductive LineState where
  | idle
  | sending
  | addressed
  | observing
  | recovering
  | faulted
  deriving DecidableEq, Repr

/-- Fault causes (R151). -/
inductive FaultCause where
  | none
  | dataStuck
  | clockStuck
  deriving DecidableEq, Repr

/-- What an order tells its station (R151). -/
inductive OrderBody where
  | strike (strength : Strength) (deadline : Nat) (requester : Requester)
  | swing (order : SwingOrder)
  deriving DecidableEq, Repr

/-- An order of the queue, with its two attempt counts (R151). -/
structure Order where
  station : Station
  body : OrderBody
  unanswered : Nat
  abandoned : Nat
  deriving DecidableEq, Repr

/-- The frame in progress (R151): the part's own order, or a frame of another party with its bytes seen so far and the
set granted to its CLAIM. `started` is the elapsed moment of its START. -/
inductive Frame where
  | none
  | own (order : Order) (started : Nat)
  | foreign (bytes : List Byte) (started : Nat) (granted : Option BellSet)
  deriving DecidableEq, Repr

/-- What asked for the recovery attempt under way: CLEAR LINE (R165), or a panel reset or mains return (R167, R168). -/
inductive AttemptKind where
  | clear
  | restart
  deriving DecidableEq, Repr

/-- What the line controller holds (R151). -/
structure Line where
  state : LineState
  cause : FaultCause
  queue : List Order
  frame : Frame
  answerConsole : Bool
  faults : Nat
  forced : Nat
  arbLosses : Nat
  busErrors : Nat
  recoveryWanted : Bool
  attempt : Option AttemptKind
  deriving DecidableEq, Repr

/-! ### The dial drive unit (chapter 9) -/

/-- Impulse polarities (R170). -/
inductive Polarity where
  | positive
  | negative
  deriving DecidableEq, Repr

/-- Dial states (R170). -/
inductive DialState where
  | absent
  | stopped
  | running
  | catchup
  | waiting
  | held
  deriving DecidableEq, Repr

/-- The impulse being given: its polarity and end moment (R170). -/
structure Impulse where
  polarity : Polarity
  ends : Nat
  deriving DecidableEq, Repr

/-- A dial record (R169, R170). `due` is the moment at which an impulse the dial is due begins (R174); `closure` is a
closure that came during the impulse (R177); `senseAtEnd` is a sensing put off to the impulse's end (R179). -/
structure Dial where
  present : Bool
  width : Nat
  interval : Nat
  waitLimit : Nat
  syncUsed : Bool
  hand : Nat
  polarity : Polarity
  state : DialState
  impulse : Option Impulse
  lastStart : Option Nat
  sensedOpen : Bool
  slips : Nat
  due : Option Nat
  closure : Bool
  senseAtEnd : Bool
  deriving DecidableEq, Repr

/-! ### The lighting unit (chapter 10) -/

/-- A zone record (R182). Levels are 0..3: off, LOW, MID, FULL. -/
structure Zone where
  low : Nat
  mid : Nat
  full : Nat
  priority : Nat
  wanted : Nat
  present : Nat
  deriving DecidableEq, Repr

/-- The lighting unit: zones, scenes and the supply account (R182, R183, R186). -/
structure Lights where
  zones : Vector Zone 8
  scenes : Vector (Vector Nat 8) 16
  allowance : Nat
  reserv : Vector (Option Nat) 31
  waiting : List (Station × Nat)
  deriving DecidableEq, Repr

/-! ### Port, attention, mains and pins (chapter 11) -/

/-- Refusal codes (R196). -/
inductive Code where
  | none
  | unknownCommand
  | shortFrame
  | badSlot
  | badValue
  | protected_
  | wrongState
  | inUse
  | notReady
  | full
  | empty
  | busy
  deriving DecidableEq, Repr

/-- The command port: the last refusal code (R196) and the data bytes the last frame made the part drive; every byte
past them reads 00h (R195). -/
structure Port where
  lastCode : Code
  stream : List Byte
  deriving DecidableEq, Repr

/-- The frame in progress on the port (R193): the command byte, once it is whole, the number of whole bytes received, and the operand
bytes received so far; the bits, in the order received, of a byte of which fewer than eight have been clocked; and the level that data out
took at the last falling edge, of select or of the clock. -/
structure PortFrame where
  command : Option Byte
  count : Nat
  operands : List Byte
  bits : List Bool
  out : Bool
  deriving DecidableEq, Repr

/-- The attention unit: flags and enables, bit k as R212 numbers them (R198, R199). -/
structure Attn where
  flags : BitVec 15
  enables : BitVec 15
  normalEnable : Bool
  abnormalEnable : Bool
  deriving DecidableEq, Repr

/-- Mains state (R201). -/
inductive MainsState where
  | present
  | absent
  deriving DecidableEq, Repr

/-- Whether the part's logic runs (R202). -/
inductive Power where
  | running
  | unpowered
  deriving DecidableEq, Repr

/-- Levels of the input pins as last sampled (section 11.7; log entry 28). `lckHighAt` is the elapsed moment at which LCK was
last read high, and `lckLowSince` that since which it has been read low, none while it reads high (R163). -/
structure Pins where
  key : KeyLevel
  mainsHigh : Bool
  resetHigh : Bool
  lckHighAt : Nat
  lckLowSince : Option Nat
  ldaHigh : Bool
  contactsClosed : Vector Bool 4
  circuitsOpen : Vector Bool 4
  deriving DecidableEq, Repr

/-- Whether LCK was last read high (R155). -/
def Pins.lckHigh (p : Pins) : Bool := p.lckLowSince.isNone

/-- LCK read at elapsed moment `now`: low since then, unless it was low before (R163). -/
def Pins.readClock (high : Bool) (now : Nat) (p : Pins) : Pins :=
  { p with
    lckHighAt := if high then now else p.lckHighAt
    lckLowSince := if high then none else some (p.lckLowSince.getD now) }

/-- The clock rule begins anew at elapsed moment `now`: an LCK held low counts from then (R163, R167; log entry 34). -/
def Pins.restartClock (now : Nat) (p : Pins) : Pins :=
  { p with lckHighAt := now, lckLowSince := p.lckLowSince.map fun _ => now }

/-- The state of the part, and the queue of the commands that wait, first in, first out. -/
structure State where
  power : Power
  latch : Bool
  pins : Pins
  elapsed : Nat
  mains : MainsState
  time : TimeBase
  table : Table
  calendar : Calendar
  resolver : Resolver
  sheets : Sheets
  lanes : Lanes
  overrides : Overrides
  bells : Vector Bell 31
  peal : Option PealRun
  tunes : TuneStore
  line : Line
  dials : Vector Dial 4
  lastTarget : Nat
  lights : Lights
  attn : Attn
  port : Port
  portFrame : Option PortFrame
  pending : List Instr
  deriving DecidableEq, Repr

/-! ### Cold-start values -/

/-- The time base after a cold start (R28). -/
def TimeBase.cold : TimeBase where
  stdDay := 0
  stdSec := 0
  fraction := 0
  slew := 0
  ref := .free
  refTimer := 0
  candidate := none
  waiting := none
  assembling := []
  lastByte := none
  valid := false
  zone := 0
  summerEnable := false
  startRule := ⟨3, 5, 0, 1⟩
  endRule := ⟨10, 5, 0, 1⟩
  summer := false
  localDate := 0
  instant := 0
  dayLength := 86400

/-- The cleared image: FEAST, rank 0, DAILY, window 0..15, AT 00:00:00, NONE, grace 0 (R1, R205). -/
def clearedImage : Image := (Vector.replicate 32 0).set 3 15

/-- An EMPTY slot with cleared outcome fields (R1, R10) and its lock flag set (R24). -/
def Slot.cold : Slot := ⟨.empty, clearedImage, none, 0, 0, .none, true⟩

/-- The observance table after a cold start (R1, R24, R25). -/
def Table.cold : Table := ⟨Vector.replicate 128 Slot.cold, .none, false, .rangeOnly, false⟩

/-- The calendar settings after a cold start (R53, R56). -/
def Calendar.cold : Calendar := ⟨5, Vector.replicate 24 (360, 1080)⟩

/-- The resolver after a cold start (R75). -/
def Resolver.cold : Resolver := ⟨false, false, false, none, none, none⟩

/-- An empty sheet with tallies 0 (R66, R77). -/
def Sheet.cold : Sheet := ⟨[], Vector.replicate 128 0⟩

/-- Both sheets after a cold start (R70, R75, R77). -/
def Sheets.cold : Sheets := ⟨Sheet.cold, Sheet.cold, .missing, [], false⟩

/-- The lanes after a cold start (R78, R97). -/
def Lanes.cold : Lanes := ⟨none, none, none, Vector.replicate 128 false, none, 0⟩

/-- The override stack after a cold start (R99). -/
def Overrides.cold : Overrides := ⟨[], 0⟩

/-- A bell record after a cold start at elapsed moment `now` (R111, R112). -/
def Bell.cold (now : Nat) : Bell where
  present := false
  hammer := false
  swing := false
  recovery := 1000
  raiseTime := 60
  lowerTime := 60
  load := 0
  limit := 60
  pos := .absent
  ctrl := .automatic
  reserving := false
  strokes := 0
  faults := 0
  noAnswer := 0
  upSince := 0
  nextFree := now
  owed := none
  lastReply := none
  moveStart := none
  deferred := []
  waitingRaise := false
  nextPoll := none

/-- A tune entry after a cold start: EMPTY and locked (R26, R137). -/
def Tune.cold : Tune := ⟨.empty, 0, 0, 0, 0, 0, 0, 0, true, 0⟩

/-- The tune store after a cold start (R137, section 7.3). -/
def TuneStore.cold : TuneStore := ⟨Vector.replicate 32 Tune.cold, [], none⟩

/-- The line controller after a cold start (R151). -/
def Line.cold : Line := ⟨.idle, .none, [], .none, true, 0, 0, 0, 0, false, none⟩

/-- A dial record after a cold start (R169, R170). -/
def Dial.cold : Dial where
  present := false
  width := 1000
  interval := 2
  waitLimit := 150
  syncUsed := false
  hand := 0
  polarity := .positive
  state := .stopped
  impulse := none
  lastStart := none
  sensedOpen := false
  slips := 0
  due := none
  closure := false
  senseAtEnd := false

/-- A zone record after a cold start (R182). -/
def Zone.cold : Zone := ⟨0, 0, 0, 1, 0, 0⟩

/-- The lighting unit after a cold start (R182, R183, R186). -/
def Lights.cold : Lights :=
  ⟨Vector.replicate 8 Zone.cold, Vector.replicate 16 (Vector.replicate 8 0), 0, Vector.replicate 31 none, []⟩

/-- The attention unit after a cold start (R198, R199). -/
def Attn.cold : Attn := ⟨0, 0, false, false⟩

/-- The input pins as State.reset has them (DESIGN CHOICE, log entry 1). -/
def Pins.quiet : Pins :=
  ⟨.closed, true, true, 0, none, true, Vector.replicate 4 false, Vector.replicate 4 false⟩

/-- The part after a cold start at elapsed moment `now`, with the mains state read from MAINS_OK (R202). -/
def State.cold (mainsHigh : Bool) (now : Nat) (pins : Pins) (pending : List Instr) : State where
  power := .running
  latch := true
  pins := pins.restartClock now
  elapsed := now
  mains := if mainsHigh then .present else .absent
  time := TimeBase.cold
  table := Table.cold
  calendar := Calendar.cold
  resolver := Resolver.cold
  sheets := Sheets.cold
  lanes := Lanes.cold
  overrides := Overrides.cold
  bells := Vector.replicate 31 (Bell.cold now)
  peal := none
  tunes := TuneStore.cold
  line := Line.cold
  dials := Vector.replicate 4 Dial.cold
  lastTarget := 0
  lights := Lights.cold
  attn := Attn.cold
  port := ⟨.none, []⟩
  portFrame := none
  pending := pending

/-- The machine right after reset: a cold start with MAINS_OK high and the quiet pins (R202; log entry 1). -/
def State.reset : State := State.cold true 0 Pins.quiet []

end Sys2Proof.Machine
end

