-- ==== Sys2Proof/Machine/Tables.lean ====
section
/-! DEFINITION. Reading and writing one row of a table, sets of stations, saturating counts, and sorting by
insertion: the helpers every block uses. -/

namespace Sys2Proof.Machine

/-- The table with row i replaced. -/
def put {α : Type} {n : Nat} (v : Vector α n) (i : Fin n) (x : α) : Vector α n := v.set i.val x i.isLt

/-- The table with row i changed by f. -/
def modify {α : Type} {n : Nat} (v : Vector α n) (i : Fin n) (f : α → α) : Vector α n := put v i (f (v.get i))

/-- A count that has reached its maximum stays there (R10 and every count marked saturating). -/
def satAdd (limit count n : Nat) : Nat := min limit (count + n)

/-- The stations in ascending order. -/
def allStations : List Station := List.finRange 31

/-- The slots in ascending order. -/
def allSlots : List SlotNo := List.finRange 128

/-- The dials in ascending order. -/
def allDials : List DialNo := List.finRange 4

/-- The zones in ascending order. -/
def allZones : List ZoneNo := List.finRange 8

/-- The station number 1..31 of a station. -/
def stationNo (st : Station) : Nat := st.val + 1

/-- The station of a number, where it is 1..31. -/
def stationOf (n : Nat) : Option Station :=
  if h : 1 ≤ n ∧ n ≤ 31 then some ⟨n - 1, by omega⟩ else none

/-- Whether a station is in a bell set (R203). -/
def inSet (set : BellSet) (st : Station) : Bool := set.getLsbD (st.val + 1)

/-- The bell set of one station. -/
def oneBell (st : Station) : BellSet := BitVec.twoPow 32 (st.val + 1)

/-- The stations of a bell set in ascending order. -/
def bellsOf (set : BellSet) : List Station := allStations.filter (inSet set)

/-- The bell set of a list of stations. -/
def setOf (bells : List Station) : BellSet := bells.foldl (fun acc st => acc ||| oneBell st) 0

/-- Every station 1..31. -/
def everyBell : BellSet := 0xFFFFFFFE

/-- A set without the unused bit of station 0 (R203). -/
def realBells (set : BellSet) : BellSet := set &&& everyBell

/-- Whether no station 1..31 is in the set. -/
def noBells (set : BellSet) : Bool := realBells set == 0

/-- Insert into a list ordered by `before`, after the elements that are not to come later. -/
def insertBy {α : Type} (before : α → α → Bool) (x : α) : List α → List α
  | [] => [x]
  | y :: ys => if before x y then x :: y :: ys else y :: insertBy before x ys

/-- Order a list by `before`. -/
def sortBy {α : Type} (before : α → α → Bool) (xs : List α) : List α :=
  xs.foldr (insertBy before) []

end Sys2Proof.Machine
end

