-- ==== Sys2Proof/Machine/Operands.lean ====
section
/-! DEFINITION. The coding of fields on the port (R203, R204): bytes to numbers and back, packed BCD, flags and
sets. -/

namespace Sys2Proof.Machine

/-! ### Numbers, most significant byte first (R203) -/

/-- A two-byte quantity. -/
def u16 (a b : Byte) : Nat := a.toNat * 256 + b.toNat

/-- A two-byte two's complement quantity. -/
def s16 (a b : Byte) : Int := (a ++ b).toInt

/-- A three-byte two's complement quantity. -/
def s24 (a b c : Byte) : Int := (a ++ b ++ c).toInt

/-- A bell set of four bytes (R203). -/
def bellSet (a b c d : Byte) : BellSet := a ++ b ++ c ++ d

/-- The lowest `width` bytes of n, most significant first. -/
def beBytes : Nat → Nat → List Byte
  | 0, _ => []
  | width + 1, n => BitVec.ofNat 8 (n / 256 ^ width) :: beBytes width n

/-- A signed quantity in `width` bytes, two's complement. -/
def signedBytes (width : Nat) (x : Int) : List Byte := beBytes width (x % (256 ^ width : Nat)).toNat

/-- A bell set as its four bytes. -/
def bellSetBytes (s : BellSet) : List Byte := beBytes 4 s.toNat

/-- A flag: 00h or 01h. -/
def flagByte (b : Bool) : Byte := if b then 1 else 0

/-- The flag a byte codes, where no unused bit of it is set (R203). -/
def flagOf (b : Byte) : Option Bool := if b = 0 then some false else if b = 1 then some true else none

/-- A list of flags as a number: bit k is the k-th flag (R203, other sets and flag lists). -/
def flagsNat : List Bool → Nat
  | [] => 0
  | b :: bs => b.toNat + 2 * flagsNat bs

/-- A day number in 3 bytes, FFFFFFh for none (R203). -/
def dayBytes : Option Nat → List Byte
  | none => [0xFF, 0xFF, 0xFF]
  | some n => beBytes 3 n

/-- An elapsed-time moment seen at `now`: the milliseconds between the two, FFFFFFFFh for none (R203). A distance that
does not fit reads FFFFFFFEh (log entry 17). -/
def momentBytes (now : Nat) : Option Nat → List Byte
  | none => [0xFF, 0xFF, 0xFF, 0xFF]
  | some m => beBytes 4 (min ((now - m) + (m - now)) 0xFFFFFFFE)

/-! ### Packed BCD (R203, R204) -/

/-- The two-digit number of a BCD byte, none for a digit above 9. -/
def bcd (b : Byte) : Option Nat :=
  let hi := b.toNat / 16
  let lo := b.toNat % 16
  if hi ≤ 9 ∧ lo ≤ 9 then some (10 * hi + lo) else none

/-- The BCD byte of a number 0..99. -/
def toBcd (n : Nat) : Byte := BitVec.ofNat 8 (n / 10 * 16 + n % 10)

/-- A BCD time hh:mm:ss as seconds after midnight, none when a digit or a field is out of range. -/
def bcdTime (h m s : Byte) : Option Nat := do
  let hh ← bcd h
  let mm ← bcd m
  let ss ← bcd s
  if hh ≤ 23 ∧ mm ≤ 59 ∧ ss ≤ 59 then some (hh * 3600 + mm * 60 + ss) else none

/-- Seconds after midnight as three BCD bytes. -/
def timeBytes (sec : Nat) : List Byte := [toBcd (sec / 3600), toBcd (sec / 60 % 60), toBcd (sec % 60)]

/-! ### Numbers of things -/

/-- The slot of a byte, none above 127 (R12). -/
def slotOf (b : Byte) : Option SlotNo := if h : b.toNat < 128 then some ⟨b.toNat, h⟩ else none

/-- The tune of a number 1..32 (R139). -/
def tuneOf (n : Nat) : Option TuneNo := if h : 1 ≤ n ∧ n ≤ 32 then some ⟨n - 1, by omega⟩ else none

/-- The dial of a number 1..4 (R171). -/
def dialOf (n : Nat) : Option DialNo := if h : 1 ≤ n ∧ n ≤ 4 then some ⟨n - 1, by omega⟩ else none

/-- The zone of a number 1..8 (R184). -/
def zoneOf (n : Nat) : Option ZoneNo := if h : 1 ≤ n ∧ n ≤ 8 then some ⟨n - 1, by omega⟩ else none

/-- The scene of a number 1..16 (R183). -/
def sceneOf (n : Nat) : Option SceneNo := if h : 1 ≤ n ∧ n ≤ 16 then some ⟨n - 1, by omega⟩ else none

/-- A kind scope byte: bit 0 STRIKE, bit 1 TUNE, bit 2 TOLL, bit 3 PEAL; none when an unused bit is set (R203). -/
def kindScopeOf (b : Byte) : Option KindScope :=
  if b.toNat < 16 then some ⟨b.getLsbD 0, b.getLsbD 1, b.getLsbD 2, b.getLsbD 3⟩ else none

/-- The byte of a kind scope. -/
def kindScopeByte (k : KindScope) : Byte := BitVec.ofNat 8 (flagsNat [k.strike, k.tune, k.toll, k.peal])

/-- Whether a kind scope names no kind. -/
def KindScope.isEmpty (k : KindScope) : Bool := !(k.strike || k.tune || k.toll || k.peal)

/-- Whether a sounding kind is in a kind scope (R81). -/
def KindScope.holds (k : KindScope) : Kind → Bool
  | .strike => k.strike
  | .tune => k.tune
  | .toll => k.toll
  | .peal => k.peal
  | .feast => false
  | .quiet => false
  | .light => false

/-! ### Codes, in the order of their defining tables (R203, R205, R207) -/

/-- Kind codes (R205). -/
def kindOf (n : Nat) : Option Kind :=
  match n with
  | 0 => some .feast
  | 1 => some .quiet
  | 2 => some .strike
  | 3 => some .tune
  | 4 => some .toll
  | 5 => some .peal
  | 6 => some .light
  | _ => none

/-- The code of a kind (R205). -/
def Kind.code : Kind → Nat
  | .feast => 0
  | .quiet => 1
  | .strike => 2
  | .tune => 3
  | .toll => 4
  | .peal => 5
  | .light => 6

/-- Slot state codes (R205). -/
def SlotState.code : SlotState → Nat
  | .empty => 0
  | .draft => 1
  | .live => 2
  | .spent => 3

/-- The slot state of a code (R205, R22). -/
def slotStateOf (n : Nat) : Option SlotState :=
  match n with
  | 0 => some .empty
  | 1 => some .draft
  | 2 => some .live
  | 3 => some .spent
  | _ => none

/-- Last outcome codes (R205). -/
def LastOutcome.code : LastOutcome → Nat
  | .none => 0
  | .done => 1
  | .cutShort => 2
  | .withheld => 3
  | .missed => 4
  | .skipped => 5

/-- Entry state codes (R207). -/
def EntryState.code : EntryState → Nat
  | .pending => 0
  | .due => 1
  | .active => 2
  | .done => 3
  | .cutShort => 4
  | .withheld => 5
  | .missed => 6
  | .skipped => 7

/-- Base range codes (R212). -/
def protRangeOf (n : Nat) : Option ProtRange :=
  match n with
  | 0 => some .none
  | 1 => some .bottom16
  | 2 => some .bottom32
  | 3 => some .bottom64
  | 4 => some .top16
  | 5 => some .top32
  | 6 => some .top64
  | 7 => some .all
  | _ => none

/-- The code of a base range (R212). -/
def ProtRange.code : ProtRange → Nat
  | .none => 0
  | .bottom16 => 1
  | .bottom32 => 2
  | .bottom64 => 3
  | .top16 => 4
  | .top32 => 5
  | .top64 => 6
  | .all => 7

/-- Reference state codes (R28). -/
def RefState.code : RefState → Nat
  | .free => 0
  | .locked => 1
  | .holdover => 2

/-- Position state codes (R112). -/
def Position.code : Position → Nat
  | .absent => 0
  | .down => 1
  | .raising => 2
  | .up => 3
  | .lowering => 4
  | .unsure => 5
  | .fault => 6

/-- Owed order codes (R112). -/
def owedCode : Option SwingOrder → Nat
  | none => 0
  | some .raise => 1
  | some .lower => 2
  | some .halt => 3
  | some .query => 4

/-- Tune state codes (R137). -/
def TuneState.code : TuneState → Nat
  | .empty => 0
  | .loading => 1
  | .checking => 2
  | .ready => 3
  | .bad => 4

/-- Line state codes (R151). -/
def LineState.code : LineState → Nat
  | .idle => 0
  | .sending => 1
  | .addressed => 2
  | .observing => 3
  | .recovering => 4
  | .faulted => 5

/-- Fault cause codes (R151). -/
def FaultCause.code : FaultCause → Nat
  | .none => 0
  | .dataStuck => 1
  | .clockStuck => 2

/-- Dial state codes (R170). -/
def DialState.code : DialState → Nat
  | .absent => 0
  | .stopped => 1
  | .running => 2
  | .catchup => 3
  | .waiting => 4
  | .held => 5

/-- Refusal code values (R196). -/
def Code.value : Code → Nat
  | .none => 0
  | .unknownCommand => 1
  | .shortFrame => 2
  | .badSlot => 3
  | .badValue => 4
  | .protected_ => 5
  | .wrongState => 6
  | .inUse => 7
  | .notReady => 8
  | .full => 9
  | .empty => 10
  | .busy => 11

/-- The reply a station's byte carries: bits 1..0 position, bit 2 motor fault, bit 3 hammer fault; the unused bits are
ignored (R203, R210). -/
def replyOf (b : Byte) : Reply where
  position :=
    match b.toNat % 4 with
    | 0 => .down
    | 1 => .rising
    | 2 => .up
    | _ => .falling
  motorFault := b.getLsbD 2
  hammerFault := b.getLsbD 3

/-- The byte of a reply (R210). -/
def replyByte (r : Reply) : Byte :=
  let p := match r.position with
    | .down => 0
    | .rising => 1
    | .up => 2
    | .falling => 3
  BitVec.ofNat 8 (p + 4 * r.motorFault.toNat + 8 * r.hammerFault.toNat)

/-- The address a frame's address byte carries in its high six bits (R152, R210). -/
def addressOf (b : Byte) : Nat := b.toNat / 4

/-- The read flag of an address byte (R210). -/
def readFlag (b : Byte) : Bool := b.getLsbD 0

/-- The address byte of an address and a read flag (R210). -/
def addressByte (address : Nat) (read : Bool) : Byte := BitVec.ofNat 8 (address * 4 + read.toNat)

/-- The order byte of a STRIKE (R210). -/
def Strength.orderByte : Strength → Byte
  | .soft => 0x01
  | .normal => 0x02
  | .full => 0x03

/-- The order byte of a swing order or QUERY (R210). -/
def SwingOrder.orderByte : SwingOrder → Byte
  | .raise => 0x10
  | .lower => 0x11
  | .halt => 0x12
  | .query => 0x20

/-- The order byte of a CLAIM (R210). -/
def claimByte : Byte := 0x40

/-- The order byte of a RELEASE (R210). -/
def releaseByte : Byte := 0x41

/-- The order byte of a RELEASE ALL (R210). -/
def releaseAllByte : Byte := 0x42

/-- The read flag of the part's own frame: set for a QUERY alone (R153, R210). -/
def Order.reads (o : Order) : Bool :=
  match o.body with
  | .strike _ _ _ => false
  | .swing k => k == .query

/-- The address byte of the part's own frame (R210). -/
def Order.addressByte (o : Order) : Byte := Machine.addressByte (stationNo o.station) o.reads

/-- The order byte of the part's own frame (R210). -/
def Order.orderByte (o : Order) : Byte :=
  match o.body with
  | .strike x _ _ => x.orderByte
  | .swing k => k.orderByte

end Sys2Proof.Machine
end

