-- ==== Sys2Proof/Machine/Effective.lean ====
section
/-! DEFINITION. The effective state of the override stack, the fold of its entries from the bottom to the top, and the
coverage of scopes (R81, R102). -/

namespace Sys2Proof.Machine

/-- The effective silence of one kind (R102). -/
inductive Silence where
  | none
  | bells (set : BellSet)
  | all
  deriving DecidableEq, Repr

/-- The effective state (R102). -/
structure Effective where
  strike : Silence
  tune : Silence
  toll : Silence
  peal : Silence
  muffle : BellSet
  scene : Option SceneNo
  dials : DialSet
  deriving DecidableEq, Repr

/-- The effective state of an empty stack (R102). -/
def Effective.clear : Effective := ⟨.none, .none, .none, .none, 0, none, 0⟩

/-- Fold one SILENCE entry into the silence of a kind of its scope (R102). -/
def Silence.gain (bells : BellSet) : Silence → Silence
  | .all => .all
  | .bells set => if bells = 0 then .all else .bells (set ||| bells)
  | .none => if bells = 0 then .all else .bells bells

/-- Fold one entry into an effective state (R102). -/
def foldOverride (e : Effective) (o : Override) : Effective :=
  match o.body with
  | .silence k bells =>
    { e with
      strike := if k.strike then e.strike.gain bells else e.strike
      tune := if k.tune then e.tune.gain bells else e.tune
      toll := if k.toll then e.toll.gain bells else e.toll
      peal := if k.peal then e.peal.gain bells else e.peal }
  | .muffle bells => { e with muffle := e.muffle ||| bells }
  | .lights scene => { e with scene := some scene }
  | .dialHold dials => { e with dials := e.dials ||| dials }

/-- The effective state of a stack, oldest entry first (R102). -/
def effectiveOf (entries : List Override) : Effective := entries.foldl foldOverride Effective.clear

/-- The effective state the part is in. -/
def effective (s : State) : Effective := effectiveOf s.overrides.entries

/-- The silence of a sounding kind (R102). -/
def Effective.silence (e : Effective) : Kind → Silence
  | .strike => e.strike
  | .tune => e.tune
  | .toll => e.toll
  | .peal => e.peal
  | .feast => .none
  | .quiet => .none
  | .light => .none

/-- Whether a non-empty bell scope covers an entry of a kind with a sounding set: one station of it is enough, but a peal
must be held whole (R81, R102). -/
def bellsCover (scope : BellSet) (kind : Kind) (sounding : BellSet) : Bool :=
  if kind = .peal then (sounding &&& ~~~scope) == 0 else (sounding &&& scope) != 0

/-- Whether a silence covers a sounding entry (R102). -/
def Silence.covers (x : Silence) (kind : Kind) (sounding : BellSet) : Bool :=
  match x with
  | .none => false
  | .all => true
  | .bells set => bellsCover set kind sounding

/-- Whether a scope covers a sounding entry (R81). -/
def scopeCovers (kinds : KindScope) (bells : BellSet) (kind : Kind) (sounding : BellSet) : Bool :=
  kinds.holds kind && (noBells bells || bellsCover bells kind sounding)

/-- The bells silenced for peals (R102). -/
def pealSilenced (e : Effective) : BellSet :=
  match e.peal with
  | .none => 0
  | .bells set => set
  | .all => everyBell

/-- Whether a silence has gained over another: ALL where it was not, or a bell it did not hold (R103). -/
def Silence.gained (old new : Silence) : Bool :=
  match old, new with
  | .all, _ => false
  | _, .none => false
  | _, .all => true
  | .none, .bells set => set != 0
  | .bells a, .bells b => (b &&& ~~~a) != 0

/-- Whether an effective silence has gained a kind or a bell for a kind (R103). -/
def silenceGained (old new : Effective) : Bool :=
  old.strike.gained new.strike || old.tune.gained new.tune || old.toll.gained new.toll || old.peal.gained new.peal

end Sys2Proof.Machine
end

