-- ==== Sys2Proof/Machine/Calendar.lean ====
section
/-! DEFINITION. Calendar arithmetic: day numbers, weekdays, Easter, the dates of the summer rules, the summer state,
and what the time base derives from the standard moment (R30 to R32, R47 to R51). -/

namespace Sys2Proof.Machine

/-! ### Day numbers (R47) -/

/-- Leap years (R47). -/
def isLeap (y : Nat) : Bool := (y % 4 == 0 && y % 100 != 0) || y % 400 == 0

/-- Days in the months before month m of a common year (R47). -/
def daysBefore (m : Nat) : Nat :=
  match m with
  | 1 => 0
  | 2 => 31
  | 3 => 59
  | 4 => 90
  | 5 => 120
  | 6 => 151
  | 7 => 181
  | 8 => 212
  | 9 => 243
  | 10 => 273
  | 11 => 304
  | 12 => 334
  | _ => 365

/-- The length of month m in year y. -/
def monthLength (y m : Nat) : Nat :=
  daysBefore (m + 1) - daysBefore m + (if m = 2 ∧ isLeap y then 1 else 0)

/-- The number of leap years in [2000, y), for y at least 2000 (R47). -/
def leapsBefore (y : Nat) : Nat :=
  if y ≤ 2000 then 0 else ((y - 1) / 4 - 499) - ((y - 1) / 100 - 19) + ((y - 1) / 400 - 4)

/-- The day of the year of month m, day d (R47). -/
def dayOfYear (y m d : Nat) : Nat := daysBefore m + d + (if 3 ≤ m ∧ isLeap y then 1 else 0)

/-- The day number of a date (R47). -/
def dayNumber (y m d : Nat) : Nat := 365 * (y - 2000) + leapsBefore y + (dayOfYear y m d - 1)

/-- Whether year, month and day make a date of the supported years (R47). -/
def validDate (y m d : Nat) : Bool :=
  2000 ≤ y && y ≤ 2399 && 1 ≤ m && m ≤ 12 && 1 ≤ d && d ≤ monthLength y m

/-- The greatest year at or above y whose January 1 is at or below day n, within `fuel` years. -/
def yearFrom : Nat → Nat → Nat → Nat
  | 0, y, _ => y
  | fuel + 1, y, n => if dayNumber (y + 1) 1 1 ≤ n then yearFrom fuel (y + 1) n else y

/-- The year of a day number: the greatest Y with N(Y, 1, 1) at or below it (R47). -/
def yearOf (n : Nat) : Nat := yearFrom 400 (2000 + n / 366) n

/-- The greatest month at or above m whose first day is at or below day n, within `fuel` months. -/
def monthFrom : Nat → Nat → Nat → Nat → Nat
  | 0, _, m, _ => m
  | fuel + 1, y, m, n => if dayNumber y (m + 1) 1 ≤ n then monthFrom fuel y (m + 1) n else m

/-- The month of a day number (R47). -/
def monthOf (n : Nat) : Nat := monthFrom 11 (yearOf n) 1 n

/-- The day of the month of a day number (R47). -/
def dayOf (n : Nat) : Nat := n - dayNumber (yearOf n) (monthOf n) 1 + 1

/-- The weekday of a day number, 0 Sunday to 6 Saturday (R48). -/
def weekday (n : Nat) : Nat := (n + 6) % 7

/-! ### BCD dates (R204) -/

/-- A BCD date of four bytes as a day number, none for a bad digit, a year outside 2000..2399 or an impossible date. -/
def bcdDate (c y m d : Byte) : Option Nat := do
  let cc ← bcd c
  let yy ← bcd y
  let mm ← bcd m
  let dd ← bcd d
  if validDate (cc * 100 + yy) mm dd then some (dayNumber (cc * 100 + yy) mm dd) else none

/-- A day number as a BCD date of four bytes (R204). -/
def dateBytes (n : Nat) : List Byte :=
  [toBcd (yearOf n / 100), toBcd (yearOf n % 100), toBcd (monthOf n), toBcd (dayOf n)]

/-- A moment in seconds from day 0 as a BCD date and time of seven bytes (R204). -/
def momentDateBytes (m : Nat) : List Byte := dateBytes (m / 86400) ++ timeBytes (m % 86400)

/-! ### Easter (R49) -/

/-- The month and day of Easter Sunday in year y, by the table of R49. -/
def easterDate (y : Nat) : Nat × Nat :=
  let a := y % 19
  let b := y / 100
  let c := y % 100
  let d := b / 4
  let e := b % 4
  let f := (b + 8) / 25
  let g := (b - f + 1) / 3
  let h := (19 * a + b + 15 - d - g) % 30
  let i := c / 4
  let k := c % 4
  let l := (32 + 2 * e + 2 * i - h - k) % 7
  let m := (a + 11 * h + 22 * l) / 451
  let s := h + l + 114 - 7 * m
  (s / 31, s % 31 + 1)

/-- The day number of Easter Sunday in year y (R49). -/
def easter (y : Nat) : Nat := dayNumber y (easterDate y).1 (easterDate y).2

/-! ### Weekday forms (R51) -/

/-- The first day of weekday w on or after the anchor (R51). -/
def onOrAfter (w anchor : Nat) : Nat := anchor + (w + 7 - weekday anchor) % 7

/-- The last day of weekday w on or before the anchor (R51); the anchor's distance is at most 6. -/
def onOrBefore (w anchor : Nat) : Int := (anchor : Int) - ((weekday anchor + 7 - w) % 7 : Nat)

/-! ### Summer time (section 2.3) -/

/-- The day number of a summer rule's date in year y: the nth weekday, or LAST, of its month (section 2.3, R51). -/
def ruleDay (y : Nat) (r : SummerRule) : Nat :=
  if r.nth ≤ 4 then onOrAfter r.weekday (dayNumber y r.month (1 + 7 * (r.nth - 1)))
  else (onOrBefore r.weekday (dayNumber y r.month (monthLength y r.month))).toNat

/-- The rule moment of year y, in standard seconds from day 0 (R31). -/
def ruleMoment (y : Nat) (r : SummerRule) : Nat := ruleDay y r * 86400 + r.hour * 3600

/-- Whether summer time is in effect at standard moment m, by the latest rule moment of the same standard year at or
before it, else by the year's later rule moment (R31). -/
def summerAt (t : TimeBase) (m : Nat) : Bool :=
  let y := yearOf (m / 86400)
  let a := ruleMoment y t.startRule
  let b := ruleMoment y t.endRule
  t.summerEnable &&
    (if a ≤ m ∧ b ≤ m then decide (b < a)
     else if a ≤ m then true
     else if b ≤ m then false
     else decide (b < a))

/-- Whether summer time is in effect at the wall midnight that begins local date D (R30). For day 0 the moment lies
before the supported range and the year's later rule moment decides, as R31 gives for a year's beginning. -/
def summerAtMidnight (t : TimeBase) (D : Nat) : Bool :=
  if D = 0 then t.summerEnable && decide (ruleMoment 2000 t.endRule < ruleMoment 2000 t.startRule)
  else summerAt t (D * 86400 - 3600)

/-- The day length of local date D (R32). -/
def dayLengthOf (t : TimeBase) (D : Nat) : Nat :=
  if t.summerEnable ∧ D = ruleDay (yearOf D) t.startRule then 82800
  else if t.summerEnable ∧ D = ruleDay (yearOf D) t.endRule then 90000
  else 86400

/-- The standard moment in seconds from day 0 (R28). -/
def stdMoment (t : TimeBase) : Nat := t.stdDay * 86400 + t.stdSec

/-- The wall moment in seconds from day 0 (R30). -/
def wallMoment (t : TimeBase) : Nat := stdMoment t + (if t.summer then 3600 else 0)

/-- Set the summer state, the local date, the instant and the day length to their derived values (R30, R31, R32). -/
def derive (t : TimeBase) : TimeBase :=
  let m := stdMoment t
  let summer := summerAt t m
  let D := (m + (if summer then 3600 else 0)) / 86400
  { t with
    summer := summer
    localDate := D
    instant := m + (if summerAtMidnight t D then 3600 else 0) - D * 86400
    dayLength := dayLengthOf t D }

/-- The dial target: the wall time modulo 12 hours in whole half-minutes (R172). -/
def dialTarget (t : TimeBase) : Nat := wallMoment t % 43200 / 30

end Sys2Proof.Machine
end

