-- ==== Sys2Proof/Machine/Image.lean ====
section
/-! DEFINITION. The record image: what its bytes say (R205), what PUBLISH requires of them (R5 to R8, R15, R16), and
what a stored image refers to (R9). -/

namespace Sys2Proof.Machine

/-- The date rules with their operands (R5). -/
inductive DateRule where
  | daily
  | weekdays (set : Byte)
  | fixed (month day : Nat)
  | easter (offset : Int)
  | onOrAfter (weekday month day : Nat)
  | onOrBefore (weekday month day : Nat)
  | once (day : Nat)
  deriving DecidableEq, Repr

/-- The start of a period (R6). -/
inductive PeriodStart where
  | at (sec : Nat)
  | dawn (offset : Int)
  | dusk (offset : Int)
  deriving DecidableEq, Repr

/-- The end of a period (R6). -/
inductive PeriodEnd where
  | at (sec : Nat)
  | endOfDay
  | dawn (offset : Int)
  | dusk (offset : Int)
  deriving DecidableEq, Repr

/-- The accepted combinations of start rule and end rule (R6). -/
inductive Timing where
  | none
  | single (sec : Nat)
  | quarters (first last : Nat)
  | hours (first last : Nat)
  | period (start : PeriodStart) (stop : PeriodEnd)
  | wholeDay
  deriving DecidableEq, Repr

/-- The action fields by kind (R8). -/
inductive Action where
  | feast (name : Nat)
  | quiet (kinds : KindScope) (bells : BellSet)
  | strike (bell : Station) (interval : Nat) (t15 t30 t45 t00 : Option TuneNo) (hours : Bool)
  | tune (tune : TuneNo) (plays : Nat)
  | toll (bell : Station) (interval strokes : Nat)
  | peal (bells : BellSet) (minutes : Nat)
  | light (scene : SceneNo)
  deriving DecidableEq, Repr

/-- A record whose fields pass R15 and R16. -/
structure Record where
  kind : Kind
  rank : Nat
  lowest : Nat
  highest : Nat
  rule : DateRule
  timing : Timing
  grace : Nat
  action : Action
  deriving DecidableEq, Repr

/-- The byte of an image at a position below 32. -/
def imgByte (img : Image) (i : Nat) : Byte := img.toList.getD i 0

/-- The byte of an image at a position, as a number. -/
def imgNat (img : Image) (i : Nat) : Nat := (imgByte img i).toNat

/-- The bell set in four bytes of an image. -/
def imgBells (img : Image) (i : Nat) : BellSet :=
  bellSet (imgByte img i) (imgByte img (i + 1)) (imgByte img (i + 2)) (imgByte img (i + 3))

/-- The kind of a stored image, none for a code that no record may have (R13, R205). -/
def imgKind (img : Image) : Option Kind := kindOf (imgNat img 0)

/-- Month and day that pass the FIXED check: February counts 29 days (R15). -/
def validMonthDay (m d : Nat) : Bool := 1 ≤ m && m ≤ 12 && 1 ≤ d && d ≤ monthLength 2000 m

/-- An anchor of the weekday forms: the FIXED check, and not February 29 (R15). -/
def anchorOf (w m d : Byte) : Option (Nat × Nat × Nat) := do
  let mm ← bcd m
  let dd ← bcd d
  if w.toNat ≤ 6 ∧ validMonthDay mm dd ∧ ¬(mm = 2 ∧ dd = 29) then some (w.toNat, mm, dd) else none

/-- The date rule of an image, none where R15 refuses it. -/
def imgDateRule (img : Image) : Option DateRule :=
  match imgNat img 4 with
  | 0 => some .daily
  | 1 => if 1 ≤ imgNat img 5 ∧ imgNat img 5 < 128 then some (.weekdays (imgByte img 5)) else none
  | 2 => do
    let m ← bcd (imgByte img 5)
    let d ← bcd (imgByte img 6)
    if validMonthDay m d then some (.fixed m d) else none
  | 3 =>
    let o := (imgByte img 5).toInt
    if -70 ≤ o ∧ o ≤ 70 then some (.easter o) else none
  | 4 => (anchorOf (imgByte img 5) (imgByte img 6) (imgByte img 7)).map fun a => .onOrAfter a.1 a.2.1 a.2.2
  | 5 => (anchorOf (imgByte img 5) (imgByte img 6) (imgByte img 7)).map fun a => .onOrBefore a.1 a.2.1 a.2.2
  | 6 => (bcdDate (imgByte img 5) (imgByte img 6) (imgByte img 7) (imgByte img 8)).map .once
  | _ => none

/-- The start time of an image as seconds, none where R16 refuses it. -/
def imgStartTime (img : Image) : Option Nat := bcdTime (imgByte img 10) (imgByte img 11) (imgByte img 12)

/-- The end time of an image as seconds, none where R16 refuses it. -/
def imgEndTime (img : Image) : Option Nat := bcdTime (imgByte img 16) (imgByte img 17) (imgByte img 18)

/-- A twilight offset, none outside -180..+180 minutes (R16). -/
def twilightOffset (a b : Byte) : Option Int :=
  let o := s16 a b
  if -180 ≤ o ∧ o ≤ 180 then some o else none

/-- The end rules a QUIET or LIGHT period accepts (R6). -/
def imgPeriodEnd (img : Image) : Option PeriodEnd :=
  match imgNat img 15 with
  | 1 => (imgEndTime img).map .at
  | 2 => some .endOfDay
  | 3 => (twilightOffset (imgByte img 19) (imgByte img 20)).map .dawn
  | 4 => (twilightOffset (imgByte img 19) (imgByte img 20)).map .dusk
  | _ => none

/-- A QUARTERS or HOURS window: its end AT time is after its start time (R6, R16). -/
def imgWindow (img : Image) : Option (Nat × Nat) := do
  let a ← imgStartTime img
  let b ← imgEndTime img
  if imgNat img 15 = 1 ∧ a < b then some (a, b) else none

/-- The start rules a LIGHT period accepts: AT, DAWN and DUSK (R6). -/
def imgLightStart (img : Image) : Option PeriodStart :=
  match imgNat img 9 with
  | 0 => (imgStartTime img).map .at
  | 3 => (twilightOffset (imgByte img 13) (imgByte img 14)).map .dawn
  | 4 => (twilightOffset (imgByte img 13) (imgByte img 14)).map .dusk
  | _ => none

/-- A period, where an AT end is after an AT start (R16). -/
def mkPeriod (start : PeriodStart) (stop : PeriodEnd) : Option Timing :=
  match start, stop with
  | .at a, .at b => if a < b then some (.period (.at a) (.at b)) else none
  | s, e => some (.period s e)

/-- The timing of an image of a kind, none where the kind does not accept it (R6, R16). -/
def imgTiming (img : Image) (kind : Kind) : Option Timing :=
  match kind with
  | .feast => some .none
  | .quiet =>
    if imgNat img 9 = 5 then some .wholeDay
    else if imgNat img 9 = 0 then do
      let a ← imgStartTime img
      let e ← imgPeriodEnd img
      mkPeriod (.at a) e
    else none
  | .light =>
    if imgNat img 9 = 5 then some .wholeDay
    else do
      let a ← imgLightStart img
      let e ← imgPeriodEnd img
      mkPeriod a e
  | .strike =>
    match imgNat img 9 with
    | 1 => (imgWindow img).map fun w => .quarters w.1 w.2
    | 2 => (imgWindow img).map fun w => .hours w.1 w.2
    | _ => none
  | .tune => tuneOrToll img
  | .toll => tuneOrToll img
  | .peal => if imgNat img 9 = 0 ∧ imgNat img 15 = 0 then (imgStartTime img).map .single else none
where
  /-- TUNE and TOLL: AT with NONE, or HOURS with AT (R6). -/
  tuneOrToll (img : Image) : Option Timing :=
    match imgNat img 9 with
    | 0 => if imgNat img 15 = 0 then (imgStartTime img).map .single else none
    | 2 => (imgWindow img).map fun w => .hours w.1 w.2
    | _ => none

/-- A quarter-tune reference: 0 for none, else a tune 1..32 (R8, R205). -/
def tuneRef (n : Nat) : Option (Option TuneNo) :=
  if n = 0 then some none else (tuneOf n).map some

/-- The action fields of an image of a kind, none where one is out of its range (R8, R16). -/
def imgAction (img : Image) (kind : Kind) : Option Action :=
  match kind with
  | .feast => some (.feast (imgNat img 22))
  | .quiet => do
    let k ← kindScopeOf (imgByte img 22)
    let bells := imgBells img 23
    if k.isEmpty = false ∧ bells.getLsbD 0 = false then some (.quiet k bells) else none
  | .strike => do
    let bell ← stationOf (imgNat img 22)
    let t15 ← tuneRef (imgNat img 24)
    let t30 ← tuneRef (imgNat img 25)
    let t45 ← tuneRef (imgNat img 26)
    let t00 ← tuneRef (imgNat img 27)
    let hours ← flagOf (imgByte img 28)
    if 2 ≤ imgNat img 23 ∧ imgNat img 23 ≤ 10 then
      some (.strike bell (imgNat img 23) t15 t30 t45 t00 hours)
    else none
  | .tune => do
    let t ← tuneOf (imgNat img 22)
    if 1 ≤ imgNat img 23 ∧ imgNat img 23 ≤ 4 then some (.tune t (imgNat img 23)) else none
  | .toll => do
    let bell ← stationOf (imgNat img 22)
    if 2 ≤ imgNat img 23 ∧ imgNat img 23 ≤ 120 ∧ 1 ≤ imgNat img 24 ∧ imgNat img 24 ≤ 250 then
      some (.toll bell (imgNat img 23) (imgNat img 24))
    else none
  | .peal =>
    let bells := imgBells img 22
    if bells ≠ 0 ∧ bells.getLsbD 0 = false ∧ 1 ≤ imgNat img 26 ∧ imgNat img 26 ≤ 180 then
      some (.peal bells (imgNat img 26))
    else none
  | .light => (sceneOf (imgNat img 22)).map .light

/-- The record an image holds, none where PUBLISH refuses it with BAD_VALUE, but for the check of a ONCE date against
the current date (R15, R16). A FEAST record is checked for its kind, its rank and its date rule alone. -/
def recordOf (img : Image) : Option Record := do
  let kind ← imgKind img
  let rule ← imgDateRule img
  let timing ← imgTiming img kind
  let action ← imgAction img kind
  let rank := imgNat img 1
  let lowest := imgNat img 2
  let highest := imgNat img 3
  let grace := imgNat img 21
  if rank ≤ 15 ∧ (kind = .feast ∨ (lowest ≤ highest ∧ highest ≤ 15 ∧ grace ≤ 60)) then
    some ⟨kind, rank, lowest, highest, rule, timing, grace, action⟩
  else none

/-! ### References of a stored image (R9) -/

/-- The numbers of the tunes a stored image refers to (R9). -/
def tuneRefs (img : Image) : List Nat :=
  match imgKind img with
  | some .strike => [imgNat img 24, imgNat img 25, imgNat img 26, imgNat img 27].filter (· != 0)
  | some .tune => [imgNat img 22]
  | _ => []

/-- Whether a stored image refers to a tune (R9). -/
def refersTune (img : Image) (t : TuneNo) : Bool := (tuneRefs img).contains (t.val + 1)

/-- Whether a stored image refers to a station (R9). -/
def refersStation (img : Image) (st : Station) : Bool :=
  match imgKind img with
  | some .strike => imgNat img 22 == stationNo st
  | some .toll => imgNat img 22 == stationNo st
  | some .peal => inSet (imgBells img 22) st
  | some .quiet => noBells (imgBells img 23) || inSet (imgBells img 23) st
  | _ => false

/-- Whether a record's date rule names one date, and which (R21). -/
def onceDay (img : Image) : Option Nat :=
  match imgDateRule img with
  | some (.once d) => some d
  | _ => none

end Sys2Proof.Machine
end

