-- ==== Sys2Proof/Machine/Expand.lean ====
section
/-! DEFINITION. The arithmetic of day resolution: which records apply on a day, wall times to instants, twilight, the
expansion of records into entries, sheet order and the drop order (R50 to R66). -/

namespace Sys2Proof.Machine

/-! ### Date rules and governing rank (R50 to R52) -/

/-- Whether an anchor year is evaluated (R51). -/
def anchorYear (y : Nat) : Bool := 2000 ≤ y && y ≤ 2399

/-- Whether a date rule applies on day D (R50, R51). -/
def ruleApplies (rule : DateRule) (D : Nat) : Bool :=
  let y := yearOf D
  match rule with
  | .daily => true
  | .weekdays set => set.getLsbD (weekday D)
  | .fixed m d => monthOf D == m && dayOf D == d
  | .easter o => decide ((D : Int) = (easter y : Int) + o)
  | .onOrAfter w m d =>
    (anchorYear y && D == onOrAfter w (dayNumber y m d))
      || (anchorYear (y - 1) && D == onOrAfter w (dayNumber (y - 1) m d))
  | .onOrBefore w m d =>
    (anchorYear y && decide ((D : Int) = onOrBefore w (dayNumber y m d)))
      || (anchorYear (y + 1) && decide ((D : Int) = onOrBefore w (dayNumber (y + 1) m d)))
  | .once day => D == day

/-- The record of a LIVE slot (R52). -/
def liveRecord (slot : Slot) : Option Record := if slot.state = .live then recordOf slot.image else none

/-- The LIVE records with their slots, in ascending slot order. -/
def liveRecords (slots : Vector Slot 128) : List (SlotNo × Record) :=
  allSlots.filterMap fun i => (liveRecord (slots.get i)).map fun r => (i, r)

/-- The LIVE FEAST records that apply on D (R52). -/
def feastsOn (slots : Vector Slot 128) (D : Nat) : List (SlotNo × Record) :=
  (liveRecords slots).filter fun p => p.2.kind == .feast && ruleApplies p.2.rule D

/-- The governing rank of D: the greatest of its feasts' ranks, the Sunday rank on a Sunday, and 0 (R52). -/
def governingRank (slots : Vector Slot 128) (sundayRank D : Nat) : Nat :=
  (feastsOn slots D).foldl (fun acc p => max acc p.2.rank) (if weekday D = 0 then sundayRank else 0)

/-- The governing feast of D: greatest rank, ties to the lowest slot (R52). -/
def governingFeast (slots : Vector Slot 128) (D : Nat) : Option (SlotNo × Record) :=
  (feastsOn slots D).foldl
    (fun best p =>
      match best with
      | none => some p
      | some b => if b.2.rank < p.2.rank then some p else some b)
    none

/-- Whether a LIVE record applies on a day of governing rank g (R4, R52). -/
def recordApplies (r : Record) (D g : Nat) : Bool :=
  ruleApplies r.rule D && (r.kind == .feast || (decide (r.lowest ≤ g) && decide (g ≤ r.highest)))

/-- The LIVE records that apply on D (R52). -/
def applyingRecords (slots : Vector Slot 128) (sundayRank D : Nat) : List (SlotNo × Record) :=
  let g := governingRank slots sundayRank D
  (liveRecords slots).filter fun p => recordApplies p.2 D g

/-! ### Wall times and instants (R54, R55) -/

/-- The summer change of a day: none, or the wall second c of the spring or of the autumn change (R54). -/
inductive DayChange where
  | none
  | spring (c : Nat)
  | autumn (c : Nat)
  deriving DecidableEq, Repr

/-- What the resolver computes of a day before it expands records: its length, its change, and its dawn and dusk in wall
minutes before any offset (R69). -/
structure DayPlan where
  length : Nat
  change : DayChange
  dawn : Nat
  dusk : Nat
  deriving DecidableEq, Repr

/-- The instant of wall second w, none where it does not occur (R54). -/
def instantOf (p : DayPlan) (w : Nat) : Option Nat :=
  match p.change with
  | .none => some w
  | .spring c => if w < c then some w else if w < c + 3600 then none else some (w - 3600)
  | .autumn c => if w < c then some w else some (w + 3600)

/-- Instant c of a spring day, where an occurrence whose start does not occur is keyed and an end that does not occur is
taken (R55). -/
def changeInstant (p : DayPlan) : Nat :=
  match p.change with
  | .spring c => c
  | .none => 0
  | .autumn _ => 0

/-! ### Twilight (R56 to R58) -/

/-- The day number of twilight point k in year y; point 24 is January 1 of the next year (R56, R57). -/
def pointDay (y k : Nat) : Nat :=
  if k < 24 then dayNumber y (k / 2 + 1) (if k % 2 = 0 then 1 else 16) else dayNumber (y + 1) 1 1

/-- The values of a twilight point; point 24 has those of point 0 (R57). -/
def pointValues (twilight : Vector (Nat × Nat) 24) (k : Nat) : Nat × Nat := twilight.toList.getD (k % 24) (0, 0)

/-- The exact value rounded half-up between v0 and v1 at t of s days (R57). -/
def interpolate (v0 v1 s t : Nat) : Nat :=
  let q : Int := ((v1 : Int) - v0) * t
  ((v0 : Int) + (2 * q + s) / (2 * s)).toNat

/-- Dawn and dusk of day D in standard minutes (R57). -/
def twilightOf (twilight : Vector (Nat × Nat) 24) (D : Nat) : Nat × Nat :=
  let y := yearOf D
  let k := 2 * (monthOf D - 1) + (if 16 ≤ dayOf D then 1 else 0)
  let s := pointDay y (k + 1) - pointDay y k
  let t := D - pointDay y k
  let v0 := pointValues twilight k
  let v1 := pointValues twilight (k + 1)
  (interpolate v0.1 v1.1 s t, interpolate v0.2 v1.2 s t)

/-- A standard minute of D as a wall minute: 60 more while summer time is in effect then (R58). -/
def wallMinute (t : TimeBase) (D v : Nat) : Nat := if summerAt t (D * 86400 + v * 60) then v + 60 else v

/-- A twilight moment: the wall minute moved by the offset and clamped to 0..1439, in wall seconds (R58). -/
def twilightSecond (minute : Nat) (offset : Int) : Nat := (min (max ((minute : Int) + offset) 0) 1439).toNat * 60

/-- The summer change of day D (R32, R54). -/
def dayChangeOf (t : TimeBase) (D : Nat) : DayChange :=
  if t.summerEnable ∧ D = ruleDay (yearOf D) t.startRule then .spring (t.startRule.hour * 3600)
  else if t.summerEnable ∧ D = ruleDay (yearOf D) t.endRule then .autumn ((t.endRule.hour + 1) * 3600)
  else .none

/-- The plan of day D (R69). -/
def dayPlan (t : TimeBase) (twilight : Vector (Nat × Nat) 24) (D : Nat) : DayPlan :=
  let tw := twilightOf twilight D
  ⟨dayLengthOf t D, dayChangeOf t D, wallMinute t D tw.1, wallMinute t D tw.2⟩

/-! ### Expansion (R59 to R64) -/

/-- The start of a period as an instant, none where it does not occur (R55, R58). -/
def startInstant (p : DayPlan) : PeriodStart → Option Nat
  | .at w => instantOf p w
  | .dawn o => instantOf p (twilightSecond p.dawn o)
  | .dusk o => instantOf p (twilightSecond p.dusk o)

/-- The end of a period as an instant; an end that does not occur is instant c (R54, R55, R58). -/
def endInstantOf (p : DayPlan) : PeriodEnd → Nat
  | .at w => (instantOf p w).getD (changeInstant p)
  | .endOfDay => p.length
  | .dawn o => (instantOf p (twilightSecond p.dawn o)).getD (changeInstant p)
  | .dusk o => (instantOf p (twilightSecond p.dusk o)).getD (changeInstant p)

/-- A generated entry (R59). -/
def mkEntry (slot : SlotNo) (r : Record) (sub instant : Nat) (stop : Option Nat) (state : EntryState) : Entry :=
  ⟨instant, stop, ⟨slot, sub⟩, r.kind, r.rank, state, false⟩

/-- One occurrence at wall second w, generated when its instant is at or after F (R59, R60, R61). -/
def occurrence (p : DayPlan) (F : Nat) (slot : SlotNo) (r : Record) (sub w : Nat) : List Entry :=
  match instantOf p w with
  | some i => if F ≤ i then [mkEntry slot r sub i none .pending] else []
  | none => if F ≤ changeInstant p then [mkEntry slot r sub (changeInstant p) none .skipped] else []

/-- The instant at which a period that starts at a and ends at e is generated by a build from F, none where it gives no
entry: its start, or F for a period in progress (R59, R64). -/
def joinInstant (F a e : Nat) : Option Nat :=
  if e ≤ a then none else if F ≤ a then some a else if F < e then some F else none

/-- The entry of a QUIET period (R62, R64). DESIGN CHOICE: a start that does not occur gives the SKIPPED entry at instant c wherever the
period ends, at or before c too (log entry 50). -/
def quietEntries (p : DayPlan) (F : Nat) (slot : SlotNo) (r : Record) (start : Option Nat) (stop : Nat) : List Entry :=
  match start with
  | none => if F ≤ changeInstant p then [mkEntry slot r 0 (changeInstant p) (some stop) .skipped] else []
  | some a =>
    match joinInstant F a stop with
    | none => []
    | some i => [mkEntry slot r 0 i (some stop) .pending]

/-- The ON and OFF entries of a LIGHT period; a period that ends with the day has no OFF entry (R63, R64). DESIGN CHOICE: a start that does
not occur gives the SKIPPED ON entry at instant c wherever the period ends, at or before c too (log entry 50). -/
def lightEntries (p : DayPlan) (F : Nat) (slot : SlotNo) (r : Record) (start : Option Nat) (stop : Nat)
    (hasOff : Bool) : List Entry :=
  match start with
  | none => if F ≤ changeInstant p then [mkEntry slot r 0 (changeInstant p) none .skipped] else []
  | some a =>
    match joinInstant F a stop with
    | none => []
    | some i =>
      mkEntry slot r 0 i none .pending :: (if hasOff then [mkEntry slot r 1 stop none .pending] else [])

/-- The entries one applying record gives on a day, built from F (R59 to R64). -/
def expand (p : DayPlan) (F : Nat) (slot : SlotNo) (r : Record) : List Entry :=
  match r.kind, r.timing with
  | .quiet, .wholeDay => quietEntries p F slot r (some 0) p.length
  | .quiet, .period a e => quietEntries p F slot r (startInstant p a) (endInstantOf p e)
  | .light, .wholeDay => lightEntries p F slot r (some 0) p.length false
  | .light, .period a e => lightEntries p F slot r (startInstant p a) (endInstantOf p e) (e != .endOfDay)
  | _, .single w => occurrence p F slot r 0 w
  | _, .quarters a b =>
    (List.range 96).flatMap fun q =>
      if a ≤ q * 900 ∧ q * 900 ≤ b then occurrence p F slot r q (q * 900) else []
  | _, .hours a b =>
    (List.range 24).flatMap fun h =>
      if a ≤ h * 3600 ∧ h * 3600 ≤ b then occurrence p F slot r (4 * h) (h * 3600) else []
  | _, _ => []

/-! ### Sheet order and capacity (R65, R66) -/

/-- Sheet order: instant, then rank descending, then slot, then sub-index (R65). -/
def sheetBefore (a b : Entry) : Bool :=
  if a.instant ≠ b.instant then a.instant < b.instant
  else if a.rank ≠ b.rank then b.rank < a.rank
  else if a.key.slot ≠ b.key.slot then a.key.slot < b.key.slot
  else a.key.sub < b.key.sub

/-- Drop order: lowest rank first, then latest instant, then highest slot, then highest sub-index (R66). -/
def dropBefore (a b : Entry) : Bool :=
  if a.rank ≠ b.rank then a.rank < b.rank
  else if a.instant ≠ b.instant then b.instant < a.instant
  else if a.key.slot ≠ b.key.slot then b.key.slot < a.key.slot
  else b.key.sub < a.key.sub

/-- The entries generated for day D from F, in sheet order (R59, R69, R70). -/
def generate (t : TimeBase) (c : Calendar) (slots : Vector Slot 128) (D F : Nat) : List Entry :=
  let plan := dayPlan t c.twilight D
  sortBy sheetBefore ((applyingRecords slots c.sundayRank D).flatMap fun p => expand plan F p.1 p.2)

/-- Split generated entries into those dropped and those that remain when `room` entries fit (R66). -/
def dropTo (room : Nat) (generated : List Entry) : List Entry × List Entry :=
  let ordered := sortBy dropBefore generated
  (ordered.take (generated.length - room), ordered.drop (generated.length - room))

/-- The drop tallies of an install: per slot the number of its entries dropped, at most 255 (R66). -/
def tallyOf (dropped : List Entry) : Vector Nat 128 :=
  Vector.ofFn fun i => min 255 ((dropped.filter fun e => e.key.slot == i).length)

end Sys2Proof.Machine
end

