-- ==== Sys2Proof/Machine/Flags.lean ====
section
/-! DEFINITION. The attention flags, their enables and the ATTN output (R198, R199, R212). -/

namespace Sys2Proof.Machine

/-- The fifteen attention flags, in the order of R198's table. -/
inductive AttnFlag where
  | sheetInstalled
  | queryDone
  | tuneChecked
  | consoleChange
  | mainsBack
  | entryMissed
  | sheetFull
  | bellFault
  | lineFault
  | tuneBad
  | referenceLost
  | timeStepped
  | mainsLost
  | dialSlip
  | loadLimited
  deriving DecidableEq, Repr

/-- The bit of a flag in the mask: normal flags 0..4, abnormal flags 5..14 (R212). -/
def AttnFlag.bit : AttnFlag → Nat
  | .sheetInstalled => 0
  | .queryDone => 1
  | .tuneChecked => 2
  | .consoleChange => 3
  | .mainsBack => 4
  | .entryMissed => 5
  | .sheetFull => 6
  | .bellFault => 7
  | .lineFault => 8
  | .tuneBad => 9
  | .referenceLost => 10
  | .timeStepped => 11
  | .mainsLost => 12
  | .dialSlip => 13
  | .loadLimited => 14

/-- Whether a flag is set. -/
def flagSet (a : Attn) (f : AttnFlag) : Bool := a.flags.getLsbD f.bit

/-- Set a flag; one already set stays set (R198). -/
def setFlag (f : AttnFlag) (s : State) : State :=
  { s with attn := { s.attn with flags := s.attn.flags ||| BitVec.twoPow 15 f.bit } }

/-- Set a flag where a condition holds. -/
def setFlagIf (c : Bool) (f : AttnFlag) (s : State) : State := if c then setFlag f s else s

/-- Clear the flags whose mask bit is set (R198). -/
def clearFlags (mask : BitVec 15) (s : State) : State :=
  { s with attn := { s.attn with flags := s.attn.flags &&& ~~~mask } }

/-- The bits of the normal flags (R198, R212). -/
def normalMask : BitVec 15 := 0x001F

/-- The bits of the abnormal flags (R198, R212). -/
def abnormalMask : BitVec 15 := 0x7FE0

/-- Whether ATTN is asserted: a set flag with its own enable and its group's enable on (R199). -/
def attnAsserted (a : Attn) : Bool :=
  (a.normalEnable && (a.flags &&& a.enables &&& normalMask) != 0)
    || (a.abnormalEnable && (a.flags &&& a.enables &&& abnormalMask) != 0)

end Sys2Proof.Machine
end

