-- ==== Sys2Proof/Machine/Notes.lean ====
section
/-! DEFINITION. The note memory as cells in one canonical form, notes as their two bytes, and the CRC of a tune's note
bytes (R137, R138, R143, R206). -/

namespace Sys2Proof.Machine

/-- What a byte of note memory that no cell lists reads as (log entry 18). -/
def blankNoteByte : Byte := 0

/-- The canonical form: addresses strictly rise, and no cell holds what an unlisted address reads as. -/
def Memory.wf : Memory → Bool
  | [] => true
  | [c] => c.2 != blankNoteByte
  | c :: d :: rest => c.2 != blankNoteByte && decide (c.1 < d.1) && Memory.wf (d :: rest)

/-- The byte at an address. -/
def Memory.read : Memory → Nat → Byte
  | [], _ => blankNoteByte
  | c :: rest, a => if c.1 = a then c.2 else Memory.read rest a

/-- The memory with the byte at an address replaced, in canonical form. -/
def Memory.write : Memory → Nat → Byte → Memory
  | [], a, b => if b = blankNoteByte then [] else [(a, b)]
  | c :: rest, a, b =>
    if a < c.1 then (if b = blankNoteByte then c :: rest else (a, b) :: c :: rest)
    else if a = c.1 then (if b = blankNoteByte then rest else (a, b) :: rest)
    else c :: Memory.write rest a b

/-- A note as it crosses the port: its two bytes (R206). -/
abbrev Note := Byte × Byte

/-- Note n of the memory. -/
def readNote (m : Memory) (n : Nat) : Note := (m.read (2 * n), m.read (2 * n + 1))

/-- The memory with note n replaced. -/
def writeNote (m : Memory) (n : Nat) (note : Note) : Memory := (m.write (2 * n) note.1).write (2 * n + 1) note.2

/-- The memory with the notes from n on replaced by a list. -/
def writeNotesAt (m : Memory) (n : Nat) : List Note → Memory
  | [] => m
  | x :: xs => writeNotesAt (writeNote m n x) (n + 1) xs

/-- The rest that OPEN TUNE writes: strength 0, duration 1 tick (R140, R206). -/
def restNote : Note := (0, 0)

/-- The station number a note names, 0 for a rest (R206). -/
def noteStation (x : Note) : Nat := x.1.toNat / 8

/-- The strength code of a note (R206). -/
def noteStrength (x : Note) : Nat := x.1.toNat / 2 % 4

/-- The duration of a note in ticks (R206). -/
def noteTicks (x : Note) : Nat := x.2.toNat % 16 + 1

/-- A valid note: no unused bit set, and a station comes with a strength 1..3 (R138, R206). -/
def validNote (x : Note) : Bool :=
  x.1.toNat % 2 == 0 && decide (x.2.toNat < 16) && (noteStation x == 0 || noteStrength x != 0)

/-- The strength a sounded note asks (R138). -/
def strengthOf (code : Nat) : Strength :=
  match code with
  | 1 => .soft
  | 3 => .full
  | _ => .normal

/-- The notes of a run of `length` notes from note `first`. -/
def runNotes (m : Memory) (first length : Nat) : List Note := (List.range length).map fun i => readNote m (first + i)

/-- A list of notes as bytes, most significant first (R143). -/
def noteBytes (notes : List Note) : List Byte := notes.flatMap fun x => [x.1, x.2]

/-- One shift of the CRC register (R143). -/
def crcShift (r : BitVec 16) : BitVec 16 := if r.getLsbD 15 then (r <<< 1) ^^^ 0x1021 else r <<< 1

/-- The CRC register after one byte: exclusive-or into its upper eight bits, then eight shifts (R143). -/
def crcByte (r : BitVec 16) (b : Byte) : BitVec 16 :=
  let r0 := r ^^^ (b.setWidth 16 <<< 8)
  crcShift (crcShift (crcShift (crcShift (crcShift (crcShift (crcShift (crcShift r0)))))))

/-- The CRC of a list of bytes: the register starts at FFFFh and is not inverted (R143). -/
def crc (bytes : List Byte) : BitVec 16 := bytes.foldl crcByte 0xFFFF

end Sys2Proof.Machine
end

