-- ==== Sys2Proof/Machine/Ops.lean ====
section
/-! DEFINITION. The shared operations over rows of the tables, sheet entries and their outcomes, and the answers to
strokes (R11, R21, R76 to R91, R149, R150). -/

namespace Sys2Proof.Machine

/-! ### Rows of the tables -/

/-- The slot of a number. -/
def getSlot (s : State) (i : SlotNo) : Slot := s.table.slots.get i

/-- Change one slot. -/
def updSlot (i : SlotNo) (f : Slot → Slot) (s : State) : State :=
  { s with table := { s.table with slots := modify s.table.slots i f } }

/-- The bell of a station. -/
def getBell (s : State) (st : Station) : Bell := s.bells.get st

/-- Change one bell record. -/
def updBell (st : Station) (f : Bell → Bell) (s : State) : State := { s with bells := modify s.bells st f }

/-- The tune of a number. -/
def getTune (s : State) (t : TuneNo) : Tune := s.tunes.tunes.get t

/-- Change one tune entry. -/
def updTune (t : TuneNo) (f : Tune → Tune) (s : State) : State :=
  { s with tunes := { s.tunes with tunes := modify s.tunes.tunes t f } }

/-- Set or stop the player. -/
def setPlayer (p : Option Player) (s : State) : State := { s with tunes := { s.tunes with player := p } }

/-- Set or stop the toll in progress. -/
def setTollRun (t : Option TollRun) (s : State) : State := { s with lanes := { s.lanes with tollRun := t } }

/-- Change the line controller. -/
def updLine (f : Line → Line) (s : State) : State := { s with line := f s.line }

/-- Change the entries of today's sheet. -/
def updToday (f : List Entry → List Entry) (s : State) : State :=
  { s with sheets := { s.sheets with today := { s.sheets.today with entries := f s.sheets.today.entries } } }

/-- Change the entries of the standby sheet. -/
def updStandby (f : List Entry → List Entry) (s : State) : State :=
  { s with sheets := { s.sheets with standby := { s.sheets.standby with entries := f s.sheets.standby.entries } } }

/-- The record of a slot, where its image passes validation; every LIVE record does. -/
def recordAt (s : State) (i : SlotNo) : Option Record := recordOf (getSlot s i).image

/-! ### Entries (R76) -/

/-- Open entry states (R76). -/
def EntryState.isOpen : EntryState → Bool
  | .pending => true
  | .due => true
  | .active => true
  | .done => false
  | .cutShort => false
  | .withheld => false
  | .missed => false
  | .skipped => false

/-- The entry of a key. -/
def findEntry (k : Key) (es : List Entry) : Option Entry := es.find? fun e => e.key == k

/-- The entries with the state of one changed. -/
def setState (k : Key) (st : EntryState) (es : List Entry) : List Entry :=
  es.map fun e => if e.key = k then { e with state := st } else e

/-- Sounding kinds (R81). -/
def Kind.sounding : Kind → Bool
  | .strike => true
  | .tune => true
  | .toll => true
  | .peal => true
  | .feast => false
  | .quiet => false
  | .light => false

/-- The grace of an entry in seconds, from its record (R7, R86). -/
def graceOf (s : State) (e : Entry) : Nat := ((recordAt s e.key.slot).map Record.grace).getD 0 * 60

/-- Whether the grace of an entry has passed at the present instant (R86). -/
def graceOver (s : State) (e : Entry) : Bool := decide (e.instant + graceOf s e < s.time.instant)

/-! ### Outcomes (R10, R11, R21, R91) -/

/-- The outcome fields of a slot after an entry of `day` ended in state st (R11). -/
def outcomeFields (st : EntryState) (day : Nat) (slot : Slot) : Slot :=
  match st with
  | .done => { slot with performed := satAdd 65535 slot.performed 1, lastDay := some day, last := .done }
  | .cutShort => { slot with performed := satAdd 65535 slot.performed 1, lastDay := some day, last := .cutShort }
  | .withheld => { slot with last := .withheld }
  | .missed => { slot with missed := satAdd 255 slot.missed 1, last := .missed }
  | .skipped => { slot with last := .skipped }
  | .pending => slot
  | .due => slot
  | .active => slot

/-- Write an outcome, as long as the slot holds a record (R11). -/
def writeOutcome (i : SlotNo) (st : EntryState) (day : Nat) (s : State) : State :=
  if (getSlot s i).state = .empty then s else updSlot i (outcomeFields st day) s

/-- The entry's day: the sheet's local date, the previous day for a carried entry (R11, R91). -/
def entryDay (s : State) (e : Entry) : Nat := if e.carried then s.time.localDate - 1 else s.time.localDate

/-- Whether a slot has an open entry on either sheet (R2, R21). -/
def hasOpen (s : State) (i : SlotNo) : Bool :=
  (s.sheets.today.entries ++ s.sheets.standby.entries).any fun e => e.key.slot == i && e.state.isOpen

/-- A LIVE ONCE record whose date has passed and that has no open entry becomes SPENT (R21). -/
def spentCheck (i : SlotNo) (s : State) : State :=
  match onceDay (getSlot s i).image with
  | none => s
  | some d =>
    if (getSlot s i).state = .live ∧ d < s.time.localDate ∧ hasOpen s i = false then
      updSlot i (fun slot => { slot with state := .spent }) s
    else s

/-- The check of R21 on every slot, at each change of the current date. -/
def spentCheckAll (s : State) : State := allSlots.foldl (fun acc i => spentCheck i acc) s

/-- An entry of today's sheet reaches a final state: its outcome is written, and a MISSED one sets its flag (R11, R91). -/
def conclude (k : Key) (st : EntryState) (s : State) : State :=
  match findEntry k s.sheets.today.entries with
  | none => s
  | some e =>
    setFlagIf (st == .missed) .entryMissed (writeOutcome k.slot st (entryDay s e) (updToday (setState k st) s))

/-- An entry of today's sheet reaches a final state, and its record is checked by R21 (R91). -/
def finalise (k : Key) (st : EntryState) (s : State) : State :=
  match findEntry k s.sheets.today.entries with
  | none => s
  | some _ => spentCheck k.slot (conclude k st s)

/-- The keys of the entries of today's sheet that a test selects, in sheet order. -/
def keysWhere (test : Entry → Bool) (s : State) : List Key := (s.sheets.today.entries.filter test).map Entry.key

/-- Bring each of a list of entries to a final state, one at a time, with no check of R21 yet (R11). -/
def concludeAll (ks : List Key) (st : EntryState) (s : State) : State := ks.foldl (fun acc k => conclude k st acc) s

/-- Bring each of a list of entries to a final state, one at a time (R11). -/
def finaliseAll (ks : List Key) (st : EntryState) (s : State) : State := ks.foldl (fun acc k => finalise k st acc) s

/-! ### Lanes (R78) -/

/-- The lane of a sounding kind (R78). -/
def laneOf : Kind → Option Lane
  | .strike => some .chime
  | .tune => some .chime
  | .toll => some .toll
  | .peal => some .peal
  | .feast => none
  | .quiet => none
  | .light => none

/-- The entry a lane holds, none when it is FREE (R78). -/
def laneKey (s : State) : Lane → Option Key
  | .chime => s.lanes.chime
  | .toll => s.lanes.toll
  | .peal => s.lanes.peal

/-- Give a lane an entry, or make it FREE. -/
def setLane (lane : Lane) (k : Option Key) (s : State) : State :=
  match lane with
  | .chime => { s with lanes := { s.lanes with chime := k } }
  | .toll => { s with lanes := { s.lanes with toll := k } }
  | .peal => { s with lanes := { s.lanes with peal := k } }

/-- The entry of a lane ends: the lane is FREE, the entry final and its outcome written (R87). -/
def endLane (lane : Lane) (st : EntryState) (s : State) : State :=
  match laneKey s lane with
  | none => s
  | some k => finalise k st (setLane lane none s)

/-! ### Strength of a list of strokes, and their answers (R89, R116, R149, R150) -/

/-- The effective interval in ms: the greater of an interval in seconds and the bell's hammer recovery (R89, R149). -/
def effectiveInterval (s : State) (st : Station) (seconds : Nat) : Nat := max (seconds * 1000) (getBell s st).recovery

/-- The toll's last request is answered: the next is timed from the answer, or the entry ends, DONE if every stroke was
sent (R89). That the next one's interval takes the bell's hammer recovery as it stands at this answer, so that a WRITE BELL before that
stroke does not move it, is the model's choice (DESIGN CHOICE, log entry 46). -/
def answerToll (sent : Bool) (r : TollRun) (s : State) : State :=
  let lost := r.anyLost || !sent
  if r.requested < r.total then
    setTollRun (some { r with anyLost := lost, nextAt := some (s.elapsed + effectiveInterval s r.bell r.interval) }) s
  else endLane .toll (if lost then .cutShort else .done) (setTollRun none s)

/-- An hour stroke is answered: after the last the entry ends, DONE if every hour stroke was sent (R150). -/
def answerHour (sent : Bool) (p : Player) (s : State) : State :=
  let q := { p with answered := p.answered + 1, anyLost := p.anyLost || !sent }
  if q.answered < q.strokes then setPlayer (some q) s
  else endLane .chime (if q.anyLost then .cutShort else .done) (setPlayer none s)

/-- The bell table answers a stroke, as sent or as lost. An answer to an entry that is no longer performed changes
nothing (R150), and neither does an answer to a note (R146). -/
def answerStroke (who : Requester) (sent : Bool) (s : State) : State :=
  match who with
  | .toll n =>
    match s.lanes.tollRun with
    | some r => if r.serial = n then answerToll sent r s else s
    | none => s
  | .hour n =>
    match s.tunes.player with
    | some p => if p.serial = n then answerHour sent p s else s
    | none => s
  | .note _ => s

/-! ### Sounding sets and coverage (R81) -/

/-- The stations the notes of a tune name, rests excluded (R81). -/
def tuneBells (s : State) (t : TuneNo) : BellSet :=
  (runNotes s.tunes.notes (getTune s t).first (getTune s t).length).foldl
    (fun acc x => acc ||| (if noteStation x = 0 then 0 else BitVec.twoPow 32 (noteStation x))) 0

/-- The quarter-tune reference of a STRIKE record for a sub-index: its quarter is the sub-index modulo 4 (R81, R148). -/
def quarterTune (t15 t30 t45 t00 : Option TuneNo) (sub : Nat) : Option TuneNo :=
  match sub % 4 with
  | 1 => t15
  | 2 => t30
  | 3 => t45
  | _ => t00

/-- The sounding set of an entry, from its record and the tune store as they stand (R81). -/
def soundingSet (s : State) (e : Entry) : BellSet :=
  match (recordAt s e.key.slot).map Record.action with
  | some (.toll bell _ _) => oneBell bell
  | some (.tune t _) => tuneBells s t
  | some (.strike bell _ t15 t30 t45 t00 hours) =>
    (match quarterTune t15 t30 t45 t00 e.key.sub with
      | some t => tuneBells s t
      | none => 0)
      ||| (if e.key.sub % 4 = 0 ∧ hours = true then oneBell bell else 0)
  | some (.peal bells _) => bells
  | some (.feast _) => 0
  | some (.quiet _ _) => 0
  | some (.light _) => 0
  | none => 0

/-- The active quiet set: the ACTIVE QUIET entries of today's sheet (R78). -/
def activeQuiet (s : State) : List Entry :=
  s.sheets.today.entries.filter fun e => e.kind == .quiet && e.state == .active

/-- The scopes of a QUIET entry, from its record (R8, R81). -/
def quietScope (s : State) (q : Entry) : Option (KindScope × BellSet) :=
  match (recordAt s q.key.slot).map Record.action with
  | some (.quiet k b) => some (k, b)
  | _ => none

/-- Whether an ACTIVE QUIET entry covers a sounding entry: scope, and rank at least the entry's (R81). -/
def quietCovers (s : State) (e q : Entry) : Bool :=
  match quietScope s q with
  | some (k, b) => decide (e.rank ≤ q.rank) && scopeCovers k b e.kind (soundingSet s e)
  | none => false

/-- Whether the effective silence covers a sounding entry (R102). -/
def silenceCovers (s : State) (e : Entry) : Bool :=
  ((effective s).silence e.kind).covers e.kind (soundingSet s e)

/-- Whether a sounding entry is covered, and so withheld (R81). -/
def covered (s : State) (e : Entry) : Bool := silenceCovers s e || (activeQuiet s).any (quietCovers s e)

/-- The bells of a PEAL entry that are covered at its taking: silenced for peals, or in the bell scope of an ACTIVE QUIET
entry of PEAL whose rank is at least the peal's (R90). -/
def pealCovered (s : State) (e : Entry) : BellSet :=
  (activeQuiet s).foldl
    (fun acc q =>
      match quietScope s q with
      | some (k, b) => if k.peal ∧ e.rank ≤ q.rank then acc ||| (if noBells b then everyBell else b) else acc
      | none => acc)
    (pealSilenced (effective s))

end Sys2Proof.Machine
end

