-- ==== Sys2Proof/Machine/BellOps.lean ====
section
/-! DEFINITION. The shared operations between the bell table and the order queue: placing and withdrawing orders, owed
orders, strokes, polls and changes of position (R115 to R118, R120 to R123, R154). -/

namespace Sys2Proof.Machine

/-! ### The order queue (R154) -/

/-- Whether the queue takes an order offered: mains present, line not FAULTED, fewer than 32 orders (R154). -/
def lineAccepts (s : State) : Bool :=
  s.mains == .present && s.line.state != .faulted && decide (s.line.queue.length < Config.queueCapacity)

/-- Place an order at the tail of the queue (R154). -/
def placeOrder (o : Order) (s : State) : State := updLine (fun l => { l with queue := l.queue ++ [o] }) s

/-- Whether an order is a STRIKE. -/
def Order.isStrike (o : Order) : Bool :=
  match o.body with
  | .strike _ _ _ => true
  | .swing _ => false

/-- The swing order or QUERY an order carries. -/
def Order.swing? (o : Order) : Option SwingOrder :=
  match o.body with
  | .strike _ _ _ => none
  | .swing k => some k

/-- The part's own order in progress. -/
def ownOrder (l : Line) : Option Order :=
  match l.frame with
  | .own o _ => some o
  | .none => none
  | .foreign _ _ _ => none

/-- The swing order or QUERY of a bell that is outstanding: in the queue or in progress (R118). -/
def outstanding (s : State) (st : Station) : Option SwingOrder :=
  ((ownOrder s.line).toList ++ s.line.queue).findSome? fun o => if o.station = st then o.swing? else none

/-- A STRIKE ends lost: its requester is answered (R116). Other orders are not reported here. -/
def strikeLost (o : Order) (s : State) : State :=
  match o.body with
  | .strike _ _ who => answerStroke who false s
  | .swing _ => s

/-- Report each STRIKE of a list lost. -/
def strikesLost (os : List Order) (s : State) : State := os.foldl (fun acc o => strikeLost o acc) s

/-- Withdraw a bell's STRIKE orders from the queue: each is reported lost (R115, R154). -/
def withdrawStrikes (st : Station) (s : State) : State :=
  let gone := s.line.queue.filter fun o => o.station == st && o.isStrike
  strikesLost gone (updLine (fun l => { l with queue := l.queue.filter fun o => !(o.station == st && o.isStrike) }) s)

/-- Withdraw every order of a bell from the queue: strikes are reported lost, other orders are discarded (R154). -/
def withdrawOrders (st : Station) (s : State) : State :=
  let gone := s.line.queue.filter fun o => o.station == st
  strikesLost gone (updLine (fun l => { l with queue := l.queue.filter fun o => !(o.station == st) }) s)

/-! ### Swing orders and owed orders (R118) -/

/-- What a bell owes after a new order meets its owed order: a QUERY never displaces a swing order, and any other new order
takes the place of the old (the table of R118). -/
def settleOwed (owed : Option SwingOrder) (new : SwingOrder) : Option SwingOrder :=
  match owed, new with
  | some .raise, .query => some .raise
  | some .lower, .query => some .lower
  | some .halt, .query => some .halt
  | _, k => some k

/-- An order comes back to its bell, or is made when it cannot be placed: it becomes, or settles with, the owed order. -/
def owe (st : Station) (k : SwingOrder) (s : State) : State :=
  updBell st (fun b => { b with owed := settleOwed b.owed k }) s

/-- A swing order or QUERY of a station, as an order of the queue. -/
def swingOrder (st : Station) (k : SwingOrder) : Order := ⟨st, .swing k, 0, 0⟩

/-- The bell table makes a RAISE, LOWER, HALT or QUERY for a bell (R118). -/
def makeOrder (st : Station) (k : SwingOrder) (s : State) : State :=
  if k = .query ∧ outstanding s st = some .query then s
  else if lineAccepts s = true ∧ outstanding s st = none ∧ (getBell s st).owed = none then
    placeOrder (swingOrder st k) s
  else owe st k s

/-- Offer one bell's owed order, where it has one and no order outstanding (R118). -/
def offerOwed (st : Station) (s : State) : State :=
  match (getBell s st).owed with
  | none => s
  | some k =>
    if lineAccepts s = true ∧ outstanding s st = none then
      placeOrder (swingOrder st k) (updBell st (fun b => { b with owed := none }) s)
    else s

/-! ### Strokes (R115 to R117) -/

/-- Strikable: present, hammer-fitted, DOWN and AUTOMATIC (R115). -/
def strikable (b : Bell) : Bool := b.present && b.hammer && b.pos == .down && b.ctrl == .automatic

/-- A bell's deferred strokes are lost. -/
def loseDeferred (st : Station) (s : State) : State :=
  let ds := (getBell s st).deferred
  ds.foldl (fun acc d => answerStroke d.requester false acc) (updBell st (fun b => { b with deferred := [] }) s)

/-- When a bell is not strikable, its deferred strokes are lost and its STRIKE orders are withdrawn and lost (R115). -/
def checkStrikable (st : Station) (s : State) : State :=
  if strikable (getBell s st) then s else withdrawStrikes st (loseDeferred st s)

/-- The strength of a stroke that becomes due: SOFT if the bell is in the muffle set (R107, R116). -/
def mufflesTo (s : State) (st : Station) (x : Strength) : Strength :=
  if inSet (effective s).muffle st then .soft else x

/-- A stroke is due: it is offered to the queue as a STRIKE with a deadline, and lost if the queue does not take it
(R116, steps 3 and 4). -/
def strokeDue (st : Station) (x : Strength) (deadline : Nat) (who : Requester) (s : State) : State :=
  if lineAccepts s then
    updBell st (fun b => { b with nextFree := s.elapsed + b.recovery })
      (placeOrder ⟨st, .strike (mufflesTo s st x) deadline who, 0, 0⟩ s)
  else answerStroke who false s

/-- Serve a bell's deferred strokes, in order of arrival, while the hammer is free (R116). -/
def serveDeferred : Nat → Station → State → State
  | 0, _, s => s
  | fuel + 1, st, s =>
    match (getBell s st).deferred with
    | [] => s
    | d :: ds =>
      if (getBell s st).nextFree ≤ s.elapsed then
        serveDeferred fuel st
          (strokeDue st d.strength (s.elapsed + Config.strokeDeadline) d.requester
            (updBell st (fun b => { b with deferred := ds }) s))
      else s

/-- Serve the deferred strokes that are due before a request that arrives at this moment (R116). -/
def serveFirst (st : Station) (s : State) : State := serveDeferred (getBell s st).deferred.length st s

/-- Whether a stroke request is lost at once (R116, step 1). -/
def strokeImpossible (s : State) (st : Station) : Bool := !strikable (getBell s st) || s.line.state == .faulted

/-- A stroke request of the TOLL lane or the strike train (R116). -/
def requestStroke (st : Station) (x : Strength) (who : Requester) (s0 : State) : State :=
  let s := serveFirst st s0
  if strokeImpossible s st then answerStroke who false s
  else if (getBell s st).nextFree ≤ s.elapsed then
    strokeDue st x (s.elapsed + Config.strokeDeadline) who s
  else updBell st (fun b => { b with deferred := b.deferred ++ [⟨x, who⟩] }) s

/-- Whether a tune note for a bell is skipped: not strikable, or within hammer recovery (R117). -/
def noteSkipped (s : State) (st : Station) : Bool :=
  !strikable (getBell s st) || decide (s.elapsed < (getBell s st).nextFree)

/-! ### Faults, the peal's held bells, polls and positions -/

/-- A fault event of a bell: its fault count rises and BELL_FAULT is set (R112, R120). -/
def faultEvent (st : Station) (s : State) : State :=
  setFlag .bellFault (updBell st (fun b => { b with faults := satAdd 255 b.faults 1 }) s)

/-- Whether the running peal holds a bell. -/
def pealHolds (s : State) (st : Station) : Bool :=
  match s.peal with
  | some p => p.held.contains st
  | none => false

/-- A held bell leaves the running peal, excluded, faulted, claimed away or limited: the outcome is no longer DONE
(section 6.5). -/
def pealLeave (st : Station) (s : State) : State :=
  match s.peal with
  | some p =>
    if p.held.contains st then
      { s with peal := some { p with held := p.held.filter fun h => h != st, shortened := true } }
    else s
  | none => s

/-- The poll interval of a bell in ms, none when it is not polled (R122). -/
def pollInterval (b : Bell) : Option Nat :=
  if b.ctrl = .console ∨ b.present = false then none
  else
    match b.pos with
    | .raising => some 2000
    | .lowering => some 2000
    | .up => some 10000
    | .unsure => some 10000
    | .fault => if b.reserving then some 10000 else none
    | .down => none
    | .absent => none

/-- Make a poll, unless the bell has an order outstanding or owed (R122). -/
def pollNow (st : Station) (s : State) : State :=
  if outstanding s st = none ∧ (getBell s st).owed = none then makeOrder st .query s else s

/-- The first query of a polled state: a bell that becomes UNSURE is queried (R124), any other is polled (R122). -/
def firstQuery (st : Station) (s : State) : State :=
  if (getBell s st).pos = .unsure then makeOrder st .query s else pollNow st s

/-- Begin polling a bell in the state it has entered: first now, and again each interval after (R122). While mains is absent
no bell is polled (R135); the query of a bell that becomes UNSURE is then owed (R124, R154). -/
def startPolling (st : Station) (s : State) : State :=
  match pollInterval (getBell s st) with
  | none => updBell st (fun b => { b with nextPoll := none }) s
  | some i =>
    if s.mains = .present then
      firstQuery st (updBell st (fun b => { b with nextPoll := some (s.elapsed + i) }) s)
    else
      let s1 := updBell st (fun b => { b with nextPoll := none }) s
      if (getBell s st).pos = .unsure then makeOrder st .query s1 else s1

/-- The fields of a bell that enters a position state: the movement timer starts for RAISING and LOWERING, and the time
entered UP is set for UP (R112). -/
def positionFields (pos : Position) (now : Nat) (b : Bell) : Bell :=
  { b with
    pos := pos
    moveStart := if (pos = .raising ∨ pos = .lowering) ∧ b.ctrl = .automatic then some now else none
    upSince := if pos = .up then now else b.upSince }

/-- A bell enters a position state: it may stop being strikable (R115), and is polled as its state asks (R122). -/
def enterPosition (st : Station) (pos : Position) (s : State) : State :=
  startPolling st (checkStrikable st (updBell st (positionFields pos s.elapsed) s))

/-- LOWER is ordered and the bell becomes LOWERING (R121). -/
def orderLower (st : Station) (s : State) : State := enterPosition st .lowering (makeOrder st .lower s)

/-- Three unanswered orders, or a lower timeout, make a bell FAULT: a fault event; a bell the peal holds leaves it
(R121, R123). -/
def becomeFault (st : Station) (s : State) : State :=
  enterPosition st .fault (pealLeave st (faultEvent st s))

/-- A failed raise: LOWER is ordered, a fault event, and the bell leaves the peal as faulted (R120). -/
def raiseFailed (st : Station) (s : State) : State := orderLower st (pealLeave st (faultEvent st s))

/-- A bell becomes UNSURE and is queried (R124). -/
def becomeUnsure (st : Station) (s : State) : State := enterPosition st .unsure s

end Sys2Proof.Machine
end

