-- ==== Sys2Proof/Machine/LightOps.lean ====
section
/-! DEFINITION. The supply account and the zones: loads, admission, shedding, the waiting list, restoration and wanted
levels (R182 to R191), and the bell table's part in admissions (R119, R124). -/

namespace Sys2Proof.Machine

/-! ### Loads (R182, R186) -/

/-- The load of a zone at a level (R182). -/
def zoneLoad (z : Zone) (level : Nat) : Nat :=
  match level with
  | 0 => 0
  | 1 => z.low
  | 2 => z.mid
  | _ => z.full

/-- The load of a zone at its present level. -/
def presentLoad (z : Zone) : Nat := zoneLoad z z.present

/-- The zone load: the sum over the zones of each zone's load at its present level (R186). It is also the sheddable load. -/
def zoneTotal (l : Lights) : Nat := (allZones.map fun z => presentLoad (l.zones.get z)).sum

/-- The reservation total (R186). -/
def reservTotal (l : Lights) : Nat := (allStations.map fun st => (l.reserv.get st).getD 0).sum

/-- The committed load (R186). -/
def committed (l : Lights) : Nat := reservTotal l + zoneTotal l

/-- Free: the allowance less the committed load (R186). -/
def freeLoad (l : Lights) : Nat := l.allowance - committed l

/-- The lighting unit with one zone changed. -/
def updZone (z : ZoneNo) (f : Zone → Zone) (l : Lights) : Lights := { l with zones := modify l.zones z f }

/-- Shed: present level below wanted level (R182). -/
def isShed (z : Zone) : Bool := decide (z.present < z.wanted)

/-! ### Shed order, shedding and restoration (R182, R187, R189) -/

/-- Whether zone a comes before zone b in shed order: priority ascending, then zone number descending (R182). -/
def shedBefore (l : Lights) (a b : ZoneNo) : Bool :=
  let pa := (l.zones.get a).priority
  let pb := (l.zones.get b).priority
  if pa ≠ pb then pa < pb else b < a

/-- The zones in shed order (R182). -/
def shedOrder (l : Lights) : List ZoneNo := sortBy (shedBefore l) allZones

/-- The zones in restore order, the shed order reversed (R182). -/
def restoreOrder (l : Lights) : List ZoneNo := (shedOrder l).reverse

/-- One shedding step: the first zone in shed order that is lit goes down one level (R187). -/
def shedStep (l : Lights) : Lights :=
  match (shedOrder l).find? fun z => decide (0 < (l.zones.get z).present) with
  | none => l
  | some z => updZone z (fun x => { x with present := x.present - 1 }) l

/-- Shedding steps, one after another, until enough is met (R187). Eight zones of at most three levels make at most 24. -/
def shedUntil (enough : Lights → Bool) : Nat → Lights → Lights
  | 0, l => l
  | fuel + 1, l => if enough l then l else shedUntil enough fuel (shedStep l)

/-- The most shedding or restoring steps there can be: eight zones, three levels. -/
def stepLimit : Nat := 24

/-- One restoration step: the first shed zone in restore order is raised one level if the cost fits, else none (R189). -/
def restoreStep (l : Lights) : Option Lights :=
  match (restoreOrder l).find? fun z => isShed (l.zones.get z) with
  | none => none
  | some z =>
    let x := l.zones.get z
    if zoneLoad x (x.present + 1) - zoneLoad x x.present ≤ freeLoad l then
      some (updZone z (fun y => { y with present := y.present + 1 }) l)
    else none

/-- Restoration steps until none is taken (R189). -/
def restoreSteps : Nat → Lights → Lights
  | 0, l => l
  | fuel + 1, l =>
    match restoreStep l with
    | none => l
    | some l' => restoreSteps fuel l'

/-! ### Admission (R187) -/

/-- Record the reservation of a station (R186, R187). -/
def reserve (st : Station) (m : Nat) (l : Lights) : Lights := { l with reserv := put l.reserv st (some m) }

/-- Decide a request of load m: the account after it is admitted, and whether zones were shed for it; none when it is not
admitted (R187). While mains is absent every present level is 0 and nothing is shed. -/
def admitLoad (mains : MainsState) (st : Station) (m : Nat) (l : Lights) : Option (Lights × Bool) :=
  if m ≤ freeLoad l then some (reserve st m l, false)
  else if mains = .present ∧ m ≤ freeLoad l + zoneTotal l then
    some (reserve st m (shedUntil (fun x => decide (m ≤ freeLoad x)) stepLimit l), true)
  else none

/-- Change the lighting unit. -/
def setLights (l : Lights) (s : State) : State := { s with lights := l }

/-- A request for admission of a bell's moving load, with waiting allowed or at once only: the state after it, and whether
it was admitted (R187). Reserving is set when it is (R119). -/
def askAdmission (st : Station) (mayWait : Bool) (s : State) : State × Bool :=
  match admitLoad s.mains st (getBell s st).load s.lights with
  | some (l, shed) =>
    (updBell st (fun b => { b with reserving := true }) (setFlagIf shed .loadLimited (setLights l s)), true)
  | none =>
    (if mayWait then
      setLights { s.lights with waiting := s.lights.waiting ++ [(st, (getBell s st).load)] } s
    else s, false)

/-- Whether a request of a station waits. -/
def isWaiting (s : State) (st : Station) : Bool := s.lights.waiting.any fun p => p.1 == st

/-- Withdraw a station's waiting request (R188); a waiting raise ends with it. -/
def withdrawRequest (st : Station) (s : State) : State :=
  updBell st (fun b => { b with waitingRaise := false })
    (setLights { s.lights with waiting := s.lights.waiting.filter fun p => p.1 != st } s)

/-- An admitted RAISE: the order is made and the bell becomes RAISING (R119). -/
def raiseNow (st : Station) (s : State) : State := enterPosition st .raising (makeOrder st .raise s)

/-- The reservation of a request that did not wait for a raise is set; a FAULT bell is polled from then on (R122, R188). -/
def setReserving (st : Station) (s : State) : State :=
  let s1 := updBell st (fun b => { b with reserving := true }) s
  if (getBell s st).pos = .fault then startPolling st s1 else s1

/-- The bell table is told of an admission out of the waiting list: its raise goes on, or its reservation is set (R188). -/
def tellAdmitted (st : Station) (s : State) : State :=
  if (getBell s st).waitingRaise then
    raiseNow st (updBell st (fun b => { b with reserving := true, waitingRaise := false }) s)
  else setReserving st s

/-- Decide one waiting request at a retry; an admitted one leaves the list (R188). -/
def retryOne (st : Station) (m : Nat) (s : State) : State :=
  match admitLoad s.mains st m s.lights with
  | none => s
  | some (l, shed) =>
    tellAdmitted st
      (setFlagIf shed .loadLimited (setLights { l with waiting := l.waiting.filter fun p => p.1 != st } s))

/-- Retry the waiting requests from the head of the list, while mains is present (R188). -/
def retryWaiting (s : State) : State :=
  if s.mains = .present then s.lights.waiting.foldl (fun acc p => retryOne p.1 p.2 acc) s else s

/-- Restoration, while mains is present (R189). -/
def restoration (s : State) : State :=
  if s.mains = .present then setLights (restoreSteps stepLimit s.lights) s else s

/-- Load has been freed, or the allowance has risen: the waiting requests are retried and restoration runs (R188, R189). -/
def loadFreed (s : State) : State := restoration (retryWaiting s)

/-- A bell's reservation, if it holds one, is handed back (R119, R188). -/
def releaseLoad (st : Station) (s : State) : State :=
  if (getBell s st).reserving then
    loadFreed
      (setLights { s.lights with reserv := put s.lights.reserv st none }
        (updBell st (fun b => { b with reserving := false }) s))
  else s

/-! ### Wanted levels (R185) -/

/-- The rank of a slot's record, from its image. -/
def slotRank (s : State) (i : SlotNo) : Nat := imgNat (getSlot s i).image 1

/-- The governing lit record: highest rank in the lit-record set, ties to the lowest slot (R185). -/
def governingLit (s : State) : Option SlotNo :=
  (allSlots.filter fun i => s.lanes.lit.get i).foldl
    (fun best i =>
      match best with
      | none => some i
      | some b => if slotRank s b < slotRank s i then some i else some b)
    none

/-- The governing scene: the forced scene, else the governing lit record's, else none (R185). -/
def governingScene (s : State) : Option SceneNo :=
  match (effective s).scene with
  | some sc => some sc
  | none =>
    match governingLit s with
    | some i => sceneOf (imgNat (getSlot s i).image 22)
    | none => none

/-- The wanted level of a zone under a governing scene (R185). -/
def wantedLevel (l : Lights) (scene : Option SceneNo) (z : ZoneNo) : Nat :=
  match scene with
  | some sc => (l.scenes.get sc).get z
  | none => 0

/-- The zones with new wanted levels, each present level above its wanted level lowered to it (R185, part 1). -/
def applyWanted (scene : Option SceneNo) (l : Lights) : Lights :=
  { l with
    zones := Vector.ofFn fun z =>
      { l.zones.get z with
        wanted := wantedLevel l scene z
        present := min (l.zones.get z).present (wantedLevel l scene z) } }

/-- Whether the wanted levels under a governing scene are those held. -/
def wantedSame (scene : Option SceneNo) (l : Lights) : Bool :=
  allZones.all fun z => (l.zones.get z).wanted == wantedLevel l scene z

/-- Whether some zone stands above its wanted level under a governing scene. -/
def lowersAny (scene : Option SceneNo) (l : Lights) : Bool :=
  allZones.any fun z => decide (wantedLevel l scene z < (l.zones.get z).present)

/-- Find the wanted levels anew: zones are lowered, the waiting list is retried if any was, and restoration runs (R185).
Wanted levels that do not change change nothing. While mains is absent only the wanted levels are found. -/
def findWanted (s : State) : State :=
  let scene := governingScene s
  if wantedSame scene s.lights then s
  else
    let lowered := lowersAny scene s.lights
    let s1 := setLights (applyWanted scene s.lights) s
    restoration (if lowered then retryWaiting s1 else s1)

/-- Hand the lit-record set to the lighting unit; an unchanged set hands nothing (R84). -/
def setLit (lit : Vector Bool 128) (s : State) : State :=
  if lit = s.lanes.lit then s else findWanted { s with lanes := { s.lanes with lit := lit } }

/-! ### Loads of bells found down or moving (R119, R122, R124, R133) -/

/-- A bell is known DOWN: a request of it that waits for a bell found moving is withdrawn, and its reservation is released
(R119, R124). A waiting raise goes on waiting. -/
def knownDown (st : Station) (s : State) : State :=
  releaseLoad st
    (if isWaiting s st = true ∧ (getBell s st).waitingRaise = false then withdrawRequest st s else s)

/-- A bell becomes DOWN on a reply (R122, R124). -/
def becomeDown (st : Station) (s : State) : State := knownDown st (enterPosition st .down s)

/-- A bell that moves without a reservation asks for admission with waiting allowed, unless a request of it already waits
(R124, R133). -/
def askMoving (st : Station) (s : State) : State :=
  if (getBell s st).reserving ∨ isWaiting s st then s else (askAdmission st true s).1

/-- A bell found moved by hand: a fault event, admission asked, LOWER ordered at once; a bell the peal holds leaves it
(R124; log entry 21). A raise it waited for is a raise no more. -/
def movedByHand (st : Station) (s : State) : State :=
  orderLower st
    (askMoving st (updBell st (fun b => { b with waitingRaise := false }) (pealLeave st (faultEvent st s))))

end Sys2Proof.Machine
end

