-- ==== Sys2Proof/Machine/LaneOps.lean ====
section
/-! DEFINITION. The peal procedure (section 6.5), the taking of entries by the lanes (R85, R89, R90, R147, R148), the cut
(R88, R130), and the lit-record set (R83, R84). -/

namespace Sys2Proof.Machine

/-! ### The peal procedure (R127 to R130) -/

/-- A RAISE asked for a held bell: the load is admitted and the bell raised, or it has a waiting raise (R119). -/
def askRaise (st : Station) (s : State) : State :=
  if (getBell s st).reserving then raiseNow st s
  else
    match askAdmission st true s with
    | (s1, true) => raiseNow st s1
    | (s1, false) => updBell st (fun b => { b with waitingRaise := true }) s1

/-- Eligible for a peal at its taking: present, swing-fitted, DOWN, AUTOMATIC and not covered (R127). -/
def eligible (s : State) (uncovered : BellSet) (st : Station) : Bool :=
  let b := getBell s st
  b.present && b.swing && b.pos == .down && b.ctrl == .automatic && !inSet uncovered st

/-- The peal ends and its outcome goes to the PEAL lane (R129). -/
def finishPeal (st : EntryState) (s : State) : State := endLane .peal st { s with peal := none }

/-- A held bell that is DOWN or FAULT no longer keeps its peal from ending (R129). -/
def atRest (b : Bell) : Bool := b.pos == .down || b.pos == .fault

/-- The lowering phase ends when every held bell is DOWN or FAULT (R129). -/
def endIfLowered (p : PealRun) (s : State) : State :=
  if p.held.all fun st => atRest (getBell s st) then finishPeal (if p.shortened then .cutShort else .done) s else s

/-- The peal passes to its lowering phase: LOWER is ordered for every held bell that is UP (R129), in ascending station order (DESIGN
CHOICE, log entry 52). -/
def beginLowering (p : PealRun) (s : State) : State :=
  let q := { p with phase := .lowering, raiseBy := none, ringEnd := none }
  endIfLowered q
    (p.held.foldl (fun acc st => if (getBell acc st).pos = .up then orderLower st acc else acc) { s with peal := some q })

/-- The running peal goes on from the bells as they stand: raising ends when every held bell is UP and none waits, ringing
when no held bell remains UP, lowering when all are at rest (R128, R129). -/
def settlePeal (s : State) : State :=
  match s.peal with
  | none => s
  | some p =>
    match p.phase with
    | .raising =>
      if p.held = [] then beginLowering p s
      else if p.held.all fun st => (getBell s st).pos == .up && !(getBell s st).waitingRaise then
        { s with
          peal := some { p with phase := .ringing, raiseBy := none, ringEnd := some (s.elapsed + p.minutes * 60000) } }
      else s
    | .ringing => if p.held.any fun st => (getBell s st).pos == .up then s else beginLowering p s
    | .lowering => endIfLowered p s

/-- The PEAL lane hands the bell table an entry: bells are tested, the eligible ones are held and their raises asked for in
ascending station order; with none the entry ends WITHHELD (R90, R127). -/
def takePeal (bells uncovered : BellSet) (minutes : Nat) (s : State) : State :=
  let set := bellsOf bells
  let held := set.filter (eligible s uncovered)
  if held = [] then endLane .peal .withheld s
  else
    settlePeal
      (held.foldl (fun acc st => askRaise st acc)
        { s with
          peal := some ⟨held, decide (held ≠ set), .raising, some (s.elapsed + Config.raisingTimer), none, minutes⟩ })

/-- A bell taken out of a peal: RAISING or UP it is lowered, waiting its request is withdrawn, else it goes on (R130). -/
def putDown (st : Station) (s : State) : State :=
  let b := getBell s st
  if b.pos = .raising ∨ b.pos = .up then orderLower st s
  else if b.waitingRaise then withdrawRequest st s
  else s

/-- The bells of a cut peal: every held bell leaves and is handed to the bell table (R88, R130), in ascending station order (DESIGN CHOICE,
log entry 52). -/
def cutPeal (s : State) : State :=
  match s.peal with
  | none => s
  | some p => p.held.foldl (fun acc st => putDown st acc) { s with peal := none }

/-- A silence takes bells from the running peal; when none remains the entry is cut short at once (R105, R130). R105 and R130 give no order
among the bells taken: they are handled, and their LOWER orders made and queued, in ascending station order (DESIGN CHOICE, log
entry 52). -/
def silencePeal (bells : BellSet) (s : State) : State :=
  match s.peal with
  | none => s
  | some p =>
    let taken := p.held.filter (inSet bells)
    if taken = [] then s
    else
      let s1 := taken.foldl (fun acc st => putDown st (pealLeave st acc)) s
      match s1.peal with
      | none => s1
      | some q => if q.held = [] then finishPeal .cutShort s1 else settlePeal s1

/-! ### The cut (R87, R88) -/

/-- A lane's work stops in the tower and the lane is released; what becomes of the entry is the caller's (R88). -/
def stopLane (lane : Lane) (s : State) : State :=
  match lane with
  | .chime => setLane .chime none (setPlayer none s)
  | .toll => setLane .toll none (setTollRun none s)
  | .peal => setLane .peal none (cutPeal s)

/-- A lane's ACTIVE entry is cut short: the work stops, the entry becomes CUT_SHORT and its outcome is written (R87, R88). -/
def cutLane (lane : Lane) (s : State) : State :=
  match laneKey s lane with
  | none => s
  | some k => finalise k .cutShort (stopLane lane s)

/-- A lane's work stops where the lane holds an entry; the entry is the caller's (R88). -/
def releaseLane (lane : Lane) (s : State) : State := if (laneKey s lane).isSome then stopLane lane s else s

/-- The three lanes. -/
def allLanes : List Lane := [.chime, .toll, .peal]

/-- Every lane is released (R72). -/
def releaseLanes (s : State) : State := allLanes.foldl (fun acc lane => releaseLane lane acc) s

/-- Every lane's ACTIVE entry is cut short (R94, R97). -/
def cutAllLanes (s : State) : State := allLanes.foldl (fun acc lane => cutLane lane acc) s

/-! ### Taking an entry (R85, R89, R90) -/

/-- Hour strokes a train strikes for a sub-index: the hour modulo 12, with 0 as 12, on the hour and when hours are struck
(R148). -/
def hourStrokes (sub : Nat) (hours : Bool) : Nat :=
  if sub % 4 = 0 ∧ hours = true then (if sub / 4 % 12 = 0 then 12 else sub / 4 % 12) else 0

/-- A play of a tune starts: its notes skipped at last play is set to 0 (R146). -/
def startPlay (t : TuneNo) (s : State) : State := updTune t (fun x => { x with skipped := 0 }) s

/-- The CHIME lane hands over a TUNE entry: the first play starts at the handing (R147). -/
def takeTune (t : TuneNo) (plays : Nat) (s : State) : State :=
  startPlay t
    (setPlayer
      (some ⟨s.lanes.serial, false, some t, plays, 1, 0, s.elapsed, s.elapsed, 0, 0, 0, 0, 0, false, none⟩) s)

/-- The CHIME lane hands over a STRIKE entry to the strike train: quarter tune, then hour count; with neither it ends DONE
at the handing (R148, R150). -/
def takeStrike (tune : Option TuneNo) (bell : Station) (interval strokes : Nat) (s : State) : State :=
  match tune with
  | some t =>
    startPlay t
      (setPlayer
        (some ⟨s.lanes.serial, true, some t, 1, 1, 0, s.elapsed, s.elapsed, bell, interval, strokes, 0, 0, false, none⟩) s)
  | none =>
    if strokes = 0 then endLane .chime .done s
    else
      setPlayer
        (some ⟨s.lanes.serial, true, none, 1, 1, 0, s.elapsed, s.elapsed, bell, interval, strokes, 0, 0, false,
          some s.elapsed⟩) s

/-- The TOLL lane hands over a TOLL entry: the first stroke is requested at once, NORMAL (R89). -/
def takeToll (bell : Station) (interval strokes : Nat) (s : State) : State :=
  requestStroke bell .normal (.toll s.lanes.serial)
    (setTollRun (some ⟨s.lanes.serial, bell, interval, strokes, 1, false, none⟩) s)

/-- A lane performs the entry it has taken, by its record (R89, R90). -/
def perform (e : Entry) (s : State) : State :=
  match (recordAt s e.key.slot).map Record.action with
  | some (.tune t plays) => takeTune t plays s
  | some (.strike bell interval t15 t30 t45 t00 hours) =>
    takeStrike (quarterTune t15 t30 t45 t00 e.key.sub) bell interval (hourStrokes e.key.sub hours) s
  | some (.toll bell interval strokes) => takeToll bell interval strokes s
  | some (.peal bells minutes) => takePeal bells (pealCovered s e) minutes s
  | some (.feast _) => s
  | some (.quiet _ _) => s
  | some (.light _) => s
  | none => s

/-- The entry becomes ACTIVE and is the lane's (R85). -/
def activate (lane : Lane) (e : Entry) (s : State) : State :=
  let s1 := setLane lane (some e.key) (updToday (setState e.key .active) s)
  perform e { s1 with lanes := { s1.lanes with serial := s1.lanes.serial + 1 } }

/-- A lane examines entries in turn: a covered one becomes WITHHELD, the first not covered is taken (R85). An
entry that an earlier one's examination brought to another state is passed over. -/
def examine (lane : Lane) : List Key → State → State
  | [], s => s
  | k :: ks, s =>
    match findEntry k s.sheets.today.entries with
    | none => examine lane ks s
    | some e =>
      if e.state ≠ .due then examine lane ks s
      else if covered s e then examine lane ks (finalise k .withheld s)
      else activate lane e s

/-- Whether a lane may take an entry: DUE, of its kinds, and within its grace (R85, R86, R95). -/
def takeable (s : State) (lane : Lane) (e : Entry) : Bool :=
  e.state == .due && decide (laneOf e.kind = some lane) && !graceOver s e

/-- A lane looks for an entry to take (R85). -/
def lookFor (lane : Lane) (s : State) : State := examine lane (keysWhere (takeable s lane) s) s

/-! ### The lit-record set (R83, R84) -/

/-- Whether a slot holds a LIVE LIGHT record (R83, R84). -/
def liveLight (s : State) (i : SlotNo) : Bool :=
  (getSlot s i).state == .live && imgKind (getSlot s i).image == some .light

/-- The effect of a LIGHT entry on the lit-record set: ON adds its slot if it holds a LIVE LIGHT record, OFF removes it (R83). -/
def lightEffect (k : Key) (s : State) : State :=
  if k.sub = 0 then
    if liveLight s k.slot then setLit (put s.lanes.lit k.slot true) s else s
  else if k.sub = 1 then setLit (put s.lanes.lit k.slot false) s
  else s

/-- The LIGHT entry of a key on today's sheet; an entry that an earlier record of the slot left there under the key is none (R64,
R84). -/
def lightEntry (s : State) (k : Key) : Option Entry :=
  (findEntry k s.sheets.today.entries).filter fun e => e.kind == .light

/-- Whether a slot is in the recomputed lit-record set (R84). -/
def litNow (s : State) (i : SlotNo) : Bool :=
  liveLight s i
    && (match lightEntry s ⟨i, 0⟩ with
        | some on => on.state != .skipped && decide (on.instant ≤ s.time.instant)
        | none => false)
    && (match lightEntry s ⟨i, 1⟩ with
        | some off => decide (s.time.instant < off.instant)
        | none => true)

/-- Recompute the lit-record set from today's sheet (R84). -/
def recomputeLit (s : State) : State := setLit (Vector.ofFn fun i => litNow s i) s

/-! ### Falling due (R79 to R83) -/

/-- A sounding entry becomes DUE: MISSED while mains is absent, WITHHELD when covered, MISSED when its grace is already
over at an install, else it waits for its lane (R80, R81, R86). -/
def soundingDue (e : Entry) (s : State) : State :=
  if s.mains = .absent then finalise e.key .missed s
  else if covered s e then finalise e.key .withheld s
  else if graceOver s e then finalise e.key .missed s
  else s

/-- An entry becomes DUE and is handled by its kind and the mains state (R79 to R83). -/
def becomeDue (e : Entry) (s0 : State) : State :=
  let s := updToday (setState e.key .due) s0
  match e.kind with
  | .light => lightEffect e.key (finalise e.key .done s)
  | .quiet => if s.mains = .absent then finalise e.key .missed s else updToday (setState e.key .active) s
  | .strike => soundingDue e s
  | .tune => soundingDue e s
  | .toll => soundingDue e s
  | .peal => soundingDue e s
  | .feast => s

/-- Whether an entry is PENDING with its instant reached (R79). -/
def fallsDue (s : State) (e : Entry) : Bool := e.state == .pending && decide (e.instant ≤ s.time.instant)

/-- Bring a list of entries to DUE in order, each finding the sheet as the earlier ones left it (R79). -/
def becomeDueAll : List Key → State → State
  | [], s => s
  | k :: ks, s =>
    match findEntry k s.sheets.today.entries with
    | none => becomeDueAll ks s
    | some e => becomeDueAll ks (if fallsDue s e then becomeDue e s else s)

/-- Every PENDING entry whose instant is reached becomes DUE, in sheet order: at an install, at a forward step and at the day
change (R69, R92, R96). -/
def fallDueNow (s : State) : State := becomeDueAll (keysWhere (fallsDue s) s) s

end Sys2Proof.Machine
end

