-- ==== Sys2Proof/Machine/Port.lean ====
section
/-! DEFINITION. The command port's handling of a frame (R193 to R196): when frames are served, and how a change command
or a read command is carried out or refused. -/

namespace Sys2Proof.Machine

/-- The outcome type of every meaning. -/
abbrev Result := Host.Outcome State Fault Refusal

/-- Whether the part's logic runs (R202). -/
def running (s : State) : Bool := s.power == .running

/-- Whether the port answers frames: the logic runs and the RESET pin is high (R200, R202). -/
def portServed (s : State) : Bool := running s && s.pins.resetHigh

/-- The port after a command that was carried out and made it drive these data bytes (R195, R196). -/
def carriedOut (bytes : List Byte) (s : State) : State := { s with port := ⟨.none, bytes⟩ }

/-- A refused command records its code, leaves all other state unchanged and drives 00h (R195, R196). -/
def refusedWith (c : Code) (s : State) : State := { s with port := ⟨c, []⟩ }

/-- A change command's frame: the owner carries the command out whole or refuses it; a frame that the port does not serve is
discarded without effect (R194, R196, R200). -/
def change (r : Except Code State) (s : State) : Result :=
  if portServed s then
    match r with
    | .ok s' => .next (carriedOut [] s')
    | .error c => .next (refusedWith c s)
  else .next s

/-- A read command's frame: it streams data and changes nothing but the last refusal code (R195, R196). -/
def answer (r : Except Code (List Byte)) (s : State) : Result :=
  if portServed s then
    match r with
    | .ok bytes => .next (carriedOut bytes s)
    | .error c => .next (refusedWith c s)
  else .next s

/-- An event on the part's other inputs, or of its own: nothing happens while the logic does not run (R202). -/
def event (f : State → State) (s : State) : Result := if running s then .next (f s) else .next s

/-- The KEY input, as a frame samples it (R25, R27). -/
def sampleKey (k : KeyLevel) (s : State) : State :=
  if portServed s then { s with pins := { s.pins with key := k } } else s

/-- A dial's sync contact, as a frame samples it (R181). -/
def sampleContact (d : DialNo) (closed : Bool) (s : State) : State :=
  { s with pins := { s.pins with contactsClosed := put s.pins.contactsClosed d closed } }

/-- A dial's output circuit, as a sensing finds it (R179). -/
def sampleCircuit (d : DialNo) (isOpen : Bool) (s : State) : State :=
  { s with pins := { s.pins with circuitsOpen := put s.pins.circuitsOpen d isOpen } }

/-- Every dial's output circuit, as a sensing of all dials finds them (R179). -/
def sampleCircuits (opens : DialSet) (s : State) : State :=
  { s with pins := { s.pins with circuitsOpen := Vector.ofFn fun d => opens.getLsbD d.val } }

end Sys2Proof.Machine
end

