-- ==== Sys2Proof/Machine/Bells.lean ====
section
/-! DEFINITION. The bell table: its commands, replies and reports, timeouts, the peal's timers, claims and observed console
orders (chapter 6). -/

namespace Sys2Proof.Machine

/-! ### WRITE BELL, FREE BELL, READ BELL (R113, R114, R125) -/

/-- The configuration fields WRITE BELL carries (R111). -/
structure BellConfig where
  present : Bool
  hammer : Bool
  swing : Bool
  recovery : Nat
  raiseTime : Nat
  lowerTime : Nat
  load : Nat
  limit : Nat
  deriving DecidableEq, Repr

/-- The fitted flags of a byte: bit 0 present, bit 1 hammer, bit 2 swing; none when an unused bit is set (R212). -/
def fittedOf (b : Byte) : Option (Bool × Bool × Bool) :=
  if b.toNat < 8 then some (b.getLsbD 0, b.getLsbD 1, b.getLsbD 2) else none

/-- Fields in the ranges of R111. -/
def bellConfigOk (c : BellConfig) : Bool :=
  decide (100 ≤ c.recovery) && decide (c.recovery ≤ 3000) && decide (10 ≤ c.raiseTime) && decide (c.raiseTime ≤ 300)
    && decide (10 ≤ c.lowerTime) && decide (c.lowerTime ≤ 300) && decide (c.load ≤ 255) && decide (5 ≤ c.limit)
    && decide (c.limit ≤ 240)

/-- The configuration fields replaced (R113). -/
def configureBell (c : BellConfig) (b : Bell) : Bell :=
  { b with
    present := c.present
    hammer := c.hammer
    swing := c.swing
    recovery := c.recovery
    raiseTime := c.raiseTime
    lowerTime := c.lowerTime
    load := c.load
    limit := c.limit }

/-- Whether WRITE BELL is refused for the state a bell is in (R113). -/
def bellBusy (b : Bell) : Bool :=
  b.pos == .raising || b.pos == .up || b.pos == .lowering || b.ctrl == .console || b.reserving

/-- A bell made not present: ABSENT, its owed order discarded, its strokes lost, its queued orders withdrawn, its no-answer
count cleared (R113). A raise it waited for is withdrawn, and it leaves a peal that holds it (log entry 38). -/
def makeAbsent (st : Station) (s : State) : State :=
  let s1 := pealLeave st (if isWaiting s st then withdrawRequest st s else s)
  let s2 := updBell st (fun b => { b with owed := none, noAnswer := 0 }) (enterPosition st .absent s1)
  withdrawOrders st s2

/-- An accepted WRITE BELL (R113). -/
def acceptBell (st : Station) (c : BellConfig) (s : State) : State :=
  let before := (getBell s st).present
  let s1 := updBell st (configureBell c) s
  settlePeal
    (if c.present = false then
      if before then makeAbsent st s1 else updBell st (fun b => { b with pos := .absent }) s1
    else if before then checkStrikable st s1
    else becomeUnsure st (updBell st (fun b => { b with noAnswer := 0, lastReply := none }) s1))

/-- WRITE BELL (R113). -/
def writeBell (ops : List Byte) (s : State) : Except Code State :=
  match ops with
  | [n, f, r1, r0, u1, u0, d1, d0, load, limit] =>
    match stationOf n.toNat, fittedOf f with
    | some st, some (p, h, w) =>
      let c : BellConfig := ⟨p, h, w, u16 r1 r0, u16 u1 u0, u16 d1 d0, load.toNat, limit.toNat⟩
      if bellConfigOk c = false then .error .badValue
      else if bellBusy (getBell s st) then .error .wrongState
      else .ok (acceptBell st c s)
    | _, _ => .error .badValue
  | _ => .error .shortFrame

/-- FREE BELL (R125). -/
def freeBell (ops : List Byte) (s : State) : Except Code State :=
  match ops with
  | [n] =>
    match stationOf n.toNat with
    | none => .error .badValue
    | some st =>
      if (getBell s st).pos = .fault then
        .ok (settlePeal (becomeUnsure st (updBell st (fun b => { b with noAnswer := 0 }) s)))
      else .error .wrongState
  | _ => .error .shortFrame

/-- The code of a controller (R112). -/
def Controller.code : Controller → Nat
  | .automatic => 0
  | .console => 1

/-- The seconds a bell has been UP, 0 if it is not UP (R114). -/
def secondsUp (now : Nat) (b : Bell) : Nat := if b.pos = .up then min ((now - b.upSince) / 1000) 0xFFFFFFFF else 0

/-- The fitted flags as their byte (R203, R212). -/
def fittedByte (b : Bell) : Byte := BitVec.ofNat 8 (flagsNat [b.present, b.hammer, b.swing])

/-- The stream of READ BELL (R114; log entry 17). -/
def bellStream (s : State) (st : Station) : List Byte :=
  let b := getBell s st
  [fittedByte b] ++ beBytes 2 b.recovery ++ beBytes 2 b.raiseTime
    ++ beBytes 2 b.lowerTime ++ beBytes 1 b.load ++ beBytes 1 b.limit
    ++ [BitVec.ofNat 8 b.pos.code, BitVec.ofNat 8 b.ctrl.code, flagByte b.reserving] ++ beBytes 2 b.strokes
    ++ beBytes 1 b.faults ++ beBytes 1 b.noAnswer ++ beBytes 4 (secondsUp s.elapsed b)
    ++ momentBytes s.elapsed (some b.nextFree) ++ [BitVec.ofNat 8 (owedCode b.owed)]
    ++ [(match b.lastReply with
        | some r => replyByte r
        | none => 0xFF)]
    ++ momentBytes s.elapsed b.moveStart ++ [flagByte (pealHolds s st), flagByte b.waitingRaise]

/-- READ BELL, from its first operand byte (R114). -/
def readBell (ops : List Byte) (s : State) : Except Code (List Byte) :=
  match ops with
  | n :: _ =>
    match stationOf n.toNat with
    | some st => .ok (bellStream s st)
    | none => .error .badValue
  | [] => .error .shortFrame

/-! ### Replies (R122, R124) -/

/-- Whether a reply sets a flag that was clear in the previous one; with no previous one both count as clear (R122; log entry
20). -/
def newFlag (old : Option Reply) (r : Reply) : Bool :=
  match old with
  | some o => (r.motorFault && !o.motorFault) || (r.hammerFault && !o.hammerFault)
  | none => r.motorFault || r.hammerFault

/-- A reply applied to a RAISING bell (R120, R122). -/
def replyRaising (st : Station) (r : Reply) (s : State) : State :=
  if r.motorFault then raiseFailed st s
  else
    match r.position with
    | .down => s
    | .rising => s
    | .up => enterPosition st .up s
    | .falling => raiseFailed st s

/-- A reply applied to an UP bell: one that falls or comes down on its own leaves the peal as faulted (R122). -/
def replyUp (st : Station) (r : Reply) (s : State) : State :=
  match r.position with
  | .down => becomeDown st (pealLeave st (faultEvent st s))
  | .rising => s
  | .up => s
  | .falling => enterPosition st .lowering (pealLeave st (faultEvent st s))

/-- An UP or RISING reply of a reserving DOWN or UNSURE bell: it is UP where the peal holds it, else it becomes UP and is sent
LOWER at once, with no poll between (R124). -/
def foundUp (st : Station) (s : State) : State :=
  if pealHolds s st then enterPosition st .up s
  else orderLower st (checkStrikable st (updBell st (positionFields .up s.elapsed) s))

/-- A moving reply of a bell believed DOWN or UNSURE (R124). -/
def foundMoving (st : Station) (r : Reply) (s : State) : State :=
  if (getBell s st).reserving = false then movedByHand st s
  else
    match r.position with
    | .falling => enterPosition st .lowering s
    | .rising => foundUp st s
    | .up => foundUp st s
    | .down => s

/-- A reply applied by state (the tables of R122 and R124). -/
def replyByState (st : Station) (r : Reply) (s : State) : State :=
  match (getBell s st).pos with
  | .raising => replyRaising st r s
  | .up => replyUp st r s
  | .lowering => if r.position = .down then becomeDown st s else s
  | .unsure => if r.position = .down then becomeDown st s else foundMoving st r s
  | .down => if r.position = .down then knownDown st s else foundMoving st r s
  | .fault => if r.position = .down then knownDown st s else s
  | .absent => s

/-- A QUERY reply reaches the bell table (R122): not applied to an ABSENT or a CONSOLE-held bell (R118, R154). A new flag is a
fault event of its own beside the one a failed raise or a bell found come down is (log entry 20). -/
def applyReply (st : Station) (r : Reply) (s : State) : State :=
  let b := getBell s st
  if b.pos = .absent ∨ b.ctrl = .console then s
  else
    let s1 := updBell st (fun x => { x with lastReply := some r }) s
    replyByState st r (if newFlag b.lastReply r then faultEvent st s1 else s1)

/-! ### Reports of orders (R116, R118, R123) -/

/-- An order was acknowledged: the no-answer count is cleared (R118). -/
def reportAcknowledged (st : Station) (s : State) : State :=
  if (getBell s st).pos = .absent then s else updBell st (fun b => { b with noAnswer := 0 }) s

/-- An order was unanswered: the third in a row makes the bell FAULT, its owed order discarded and a raise it waits for
withdrawn (R118, R123; log entry 38). -/
def reportUnanswered (st : Station) (s : State) : State :=
  if (getBell s st).pos = .absent then s
  else
    let s1 := updBell st (fun b => { b with noAnswer := min Config.noAnswerLimit (b.noAnswer + 1) }) s
    if (getBell s1 st).noAnswer = Config.noAnswerLimit ∧ (getBell s1 st).pos ≠ .fault then
      let s2 := if (getBell s1 st).waitingRaise then withdrawRequest st s1 else s1
      becomeFault st (updBell st (fun b => { b with owed := none }) s2)
    else s1

/-- A STRIKE was sent: the stroke count rises, and the requester is answered (R116). -/
def strikeSent (st : Station) (who : Requester) (s : State) : State :=
  answerStroke who true
    (if (getBell s st).pos = .absent then s else updBell st (fun b => { b with strokes := satAdd 65535 b.strokes 1 }) s)

/-! ### Timeouts, polls and limits (R120 to R122, R126, R128, R129) -/

/-- Whether a moving bell has run past 1.5 times a time in seconds (R120, R121). While mains is absent no timer runs (R135). -/
def movedTooLong (s : State) (b : Bell) (pos : Position) (seconds : Nat) : Bool :=
  match b.moveStart with
  | some m =>
    b.pos == pos && b.ctrl == .automatic && s.mains == .present && decide (m + seconds * 1500 ≤ s.elapsed)
  | none => false

/-- Whether a raise has timed out (R120). -/
def raiseOver (s : State) (st : Station) : Bool := movedTooLong s (getBell s st) .raising (getBell s st).raiseTime

/-- Whether a lowering has timed out (R121). -/
def lowerOver (s : State) (st : Station) : Bool := movedTooLong s (getBell s st) .lowering (getBell s st).lowerTime

/-- A lower timeout: HALT is ordered, and the bell becomes FAULT (R121). -/
def lowerFailed (st : Station) (s : State) : State := becomeFault st (makeOrder st .halt s)

/-- Whether a bell's poll is due (R122). -/
def pollDue (s : State) (st : Station) : Bool :=
  match (getBell s st).nextPoll with
  | some m => decide (m ≤ s.elapsed) && s.mains == .present && (pollInterval (getBell s st)).isSome
  | none => false

/-- A poll, and the time of the next (R122). -/
def takePoll (st : Station) (s : State) : State :=
  pollNow st
    (updBell st
      (fun b =>
        { b with
          nextPoll :=
            match pollInterval b, b.nextPoll with
            | some i, some m => some (m + i)
            | _, _ => none })
      s)

/-- Whether an AUTOMATIC bell has been UP for its ringing limit (R126). -/
def limitReached (s : State) (st : Station) : Bool :=
  let b := getBell s st
  b.pos == .up && b.ctrl == .automatic && s.mains == .present && decide (b.upSince + b.limit * 60000 ≤ s.elapsed)

/-- Whether the raising timer of the peal has run out (R128). -/
def raisingOver (s : State) : Bool :=
  match s.peal with
  | some p =>
    (match p.raiseBy with
      | some m => decide (m ≤ s.elapsed)
      | none => false)
    && p.phase == .raising
  | none => false

/-- The raising timer runs out: held bells that still wait are excluded, their requests withdrawn (R128), in ascending station order (DESIGN
CHOICE, log entry 52). -/
def excludeWaiting (s : State) : State :=
  match s.peal with
  | none => s
  | some p =>
    settlePeal
      ((p.held.filter fun st => (getBell s st).waitingRaise).foldl (fun acc st => pealLeave st (withdrawRequest st acc))
        { s with peal := some { p with raiseBy := none } })

/-- Whether the ringing timer of the peal has run out (R129). -/
def ringingOver (s : State) : Bool :=
  match s.peal with
  | some p =>
    (match p.ringEnd with
      | some m => decide (m ≤ s.elapsed)
      | none => false)
    && p.phase == .ringing
  | none => false

/-- The ringing timer runs out: the lowering phase begins (R129). -/
def endRinging (s : State) : State :=
  match s.peal with
  | some p => beginLowering p s
  | none => s

/-- The first bell, in ascending station order, that owes an order and has none outstanding (R118). -/
def firstOwing (s : State) : Option Station :=
  allStations.find? fun st => (getBell s st).owed.isSome && (outstanding s st).isNone

/-- Owed orders are offered: the first in station order (R118). -/
def offerFirst (s : State) : State :=
  match firstOwing s with
  | some st => offerOwed st s
  | none => s

/-- A waiting request of a bell is admitted, where the account has room for it now (R188; log entry 30). -/
def admitWaiting (st : Station) (s : State) : State :=
  if s.mains = .absent then s
  else
    match s.lights.waiting.find? fun p => p.1 == st with
    | some p => settlePeal (retryOne st p.2 s)
    | none => s

/-! ### Claims and observed console orders (R131 to R133) -/

/-- A granted bell becomes CONSOLE-held (R131). -/
def takeBell (st : Station) (s : State) : State :=
  let s1 := pealLeave st (updBell st (fun b => { b with ctrl := .console, owed := none, moveStart := none, nextPoll := none }) s)
  withdrawOrders st (loseDeferred st (if isWaiting s1 st then withdrawRequest st s1 else s1))

/-- Decide one bell of a claimed set: the state after it, and whether it is granted (R131). A bell in FAULT is not granted, though the
console holds it already (DESIGN CHOICE, log entry 56). -/
def grantBell (st : Station) (s : State) : State × Bool :=
  let b := getBell s st
  if b.present = false ∨ b.pos = .fault then (s, false)
  else if b.ctrl = .console then (s, true)
  else if b.reserving then (takeBell st s, true)
  else
    match askAdmission st false s with
    | (s1, true) => (takeBell st s1, true)
    | (s1, false) => (s1, false)

/-- The bells of a claim in ascending station order, each with the account as the earlier ones left it; the state and the
granted set (R131). -/
def grantAll : List Station → State → BellSet → State × BellSet
  | [], s, granted => (s, granted)
  | st :: rest, s, granted =>
    match grantBell st s with
    | (s1, true) => grantAll rest s1 (granted ||| oneBell st)
    | (s1, false) => grantAll rest s1 granted

/-- The CONSOLE-held bells. -/
def consoleBells (s : State) : List Station := allStations.filter fun st => (getBell s st).ctrl == .console

/-- A claim handed to the bell table: the state after it, with CONSOLE_CHANGE set where a bell changed controller, and the
granted set (R131). -/
def claimBells (set : BellSet) (s : State) : State × BellSet :=
  let r := grantAll (bellsOf set) s 0
  let changed := consoleBells s != consoleBells r.1
  (settlePeal (setFlagIf changed .consoleChange r.1), r.2)

/-- A CONSOLE-held bell is given back: AUTOMATIC, UNSURE and queried (R132), one in FAULT too, where R123 would keep it FAULT (DESIGN
CHOICE, log entry 57). -/
def giveBack (st : Station) (s : State) : State := becomeUnsure st (updBell st (fun b => { b with ctrl := .automatic }) s)

/-- CONSOLE-held bells of a set are given back (R132), in ascending station order (DESIGN CHOICE, log entry 52). -/
def releaseBells (set : BellSet) (s : State) : State :=
  let named := (consoleBells s).filter (inSet set)
  settlePeal (setFlagIf (!named.isEmpty) .consoleChange (named.foldl (fun acc st => giveBack st acc) s))

/-- An observed RAISE, or a reply that shows a CONSOLE-held bell moving: it becomes so, unless it is so already, and asks for
admission where it has no reservation (R133). -/
def consoleMoves (st : Station) (pos : Position) (s : State) : State :=
  askMoving st (if (getBell s st).pos = pos then s else enterPosition st pos s)

/-- An observed QUERY reply of a CONSOLE-held bell: it settles the position alone, and becomes no last reply (R133; log entry
43). -/
def consoleReply (st : Station) (r : Reply) (s : State) : State :=
  match r.position with
  | .down => becomeDown st s
  | .rising => consoleMoves st .raising s
  | .up => consoleMoves st .up s
  | .falling => consoleMoves st .lowering s

/-- What an observed console frame orders (R133, R210). -/
inductive ConsoleOrder where
  | raise
  | lower
  | halt
  | reply (r : Reply)
  deriving DecidableEq, Repr

/-- A CONSOLE-held bell follows an observed console order (R133). -/
def observeOrder (st : Station) (o : ConsoleOrder) (s : State) : State :=
  match o with
  | .raise => consoleMoves st .raising s
  | .lower => enterPosition st .lowering s
  | .halt => enterPosition st .unsure s
  | .reply r => consoleReply st r s

/-- The order of an observed frame's order byte and the bytes after it, for a read flag (R210). -/
def consoleOrderOf (read : Bool) (bytes : List Byte) : Option ConsoleOrder :=
  match bytes with
  | [] => none
  | o :: rest =>
    if read then
      match rest with
      | r :: _ => if o = SwingOrder.query.orderByte then some (.reply (replyOf r)) else none
      | [] => none
    else if o = SwingOrder.raise.orderByte then some .raise
    else if o = SwingOrder.lower.orderByte then some .lower
    else if o = SwingOrder.halt.orderByte then some .halt
    else none

/-- An observed frame handed to the bell table: HALT to address 0 for every CONSOLE-held bell, else the station's bell if it
is CONSOLE-held (R133, R158). -/
def handObserved (address : Byte) (bytes : List Byte) (s : State) : State :=
  match consoleOrderOf (readFlag address) bytes with
  | none => s
  | some o =>
    if addressOf address = 0 then
      (if o = .halt then (consoleBells s).foldl (fun acc st => observeOrder st .halt acc) s else s)
    else
      match stationOf (addressOf address) with
      | some st => if (getBell s st).ctrl = .console then observeOrder st o s else s
      | none => s

/-! ### Line faults, mains and resets (R134 to R136) -/

/-- Whether a bell is RAISING, UP or LOWERING. -/
def isMoving (b : Bell) : Bool := b.pos == .raising || b.pos == .up || b.pos == .lowering

/-- The present bells, in ascending station order. -/
def presentBells (s : State) : List Station := allStations.filter fun st => (getBell s st).present

/-- A query of one station, settled with the order its bell owes, and offered; none goes to a CONSOLE-held bell (R118, R133,
R165; log entry 22). -/
def queryStation (st : Station) (s : State) : State :=
  if (getBell s st).ctrl = .automatic then offerOwed st (makeOrder st .query s) else s

/-- A query of every present station (R136, R165, R168). After CLEAR LINE the owed and the new orders go out in ascending station order, as
chapter 8's second worked example says; that they do so at a mains return and after a reset's attempt is a DESIGN CHOICE (log
entry 52). -/
def queryAll (s : State) : State := (presentBells s).foldl (fun acc st => queryStation st acc) s

/-- The bells when the line becomes FAULTED: moving ones become UNSURE and leave the peal as faulted (R134). Deferred strokes, which are in
no queue, are kept until they fall due (DESIGN CHOICE, log entry 55). -/
def bellsLineFault (s : State) : State :=
  ((presentBells s).filter fun st => isMoving (getBell s st)).foldl (fun acc st => becomeUnsure st (pealLeave st acc)) s

/-- A bell's fields after mains loss (R135): what the console holds becomes UNSURE whatever its state was (DESIGN CHOICE, log entry 57). -/
def mainsLossFields (b : Bell) : Bell :=
  { b with
    pos := if b.ctrl = .console ∨ isMoving b = true then .unsure else b.pos
    ctrl := .automatic
    moveStart := none
    owed := none
    waitingRaise := false
    nextPoll := none }

/-- Waiting raises are withdrawn from the waiting list (R135, R136). -/
def withdrawRaises (s : State) : State :=
  setLights { s.lights with waiting := s.lights.waiting.filter fun p => !(getBell s p.1).waitingRaise } s

/-- Every bell's deferred strokes are lost (R135, R136), in ascending station order (DESIGN CHOICE, log entry 52). -/
def loseAllDeferred (s : State) : State := allStations.foldl (fun acc st => loseDeferred st acc) s

/-- Change every bell record. -/
def mapBells (f : Bell → Bell) (s : State) : State := { s with bells := s.bells.map f }

/-- The bells at mains loss (R135). -/
def bellsMainsLoss (s : State) : State :=
  let lost := !(consoleBells s).isEmpty
  setFlagIf lost .consoleChange
    { mapBells mainsLossFields (withdrawRaises (loseAllDeferred s)) with peal := none }

/-- A bell's polls begin again at mains return (R122, R136), the first one interval after it (DESIGN CHOICE, log entry 58). -/
def resumePoll (now : Nat) (b : Bell) : Bell := { b with nextPoll := (pollInterval b).map fun i => now + i }

/-- The bells at warm start: every present bell is queried once, and polling resumes (R136). -/
def bellsWarmStart (s : State) : State := queryAll (mapBells (resumePoll s.elapsed) s)

/-- A bell's fields when a panel reset clears its claim and its working state (R136, steps 1 and 2). -/
def resetFields (now : Nat) (b : Bell) : Bell :=
  { b with
    ctrl := .automatic
    moveStart := if b.ctrl = .console ∧ b.pos = .lowering then some now else b.moveStart
    owed := none
    waitingRaise := false
    noAnswer := 0 }

/-- Steps 1 and 2 of a panel reset: claims cleared, strokes lost, raises withdrawn, owed orders and no-answer counts cleared;
bells that were CONSOLE-held, but for those that step 3 lowers, are polled again as their states ask (R122, R136), first at once (DESIGN
CHOICE, log entry 58). -/
def bellsResetFirst (s : State) : State :=
  ((consoleBells s).filter fun st => !((getBell s st).pos == .raising || (getBell s st).pos == .up)).foldl
    (fun acc st => startPolling st acc)
    (mapBells (resetFields s.elapsed) (withdrawRaises (loseAllDeferred s)))

/-- Step 3 of a panel reset: RAISING and UP bells are ordered LOWER (R136), in ascending station order (DESIGN CHOICE, log entry 52). -/
def bellsResetLower (s : State) : State :=
  allStations.foldl
    (fun acc st =>
      if (getBell acc st).pos = .raising ∨ (getBell acc st).pos = .up then orderLower st acc else acc) s

/-- Once the reset has been handled, LOWERING bells without a reservation ask again for admission (R136), in ascending station order (DESIGN
CHOICE, log entry 52). -/
def bellsResetAsk (s : State) : State :=
  allStations.foldl (fun acc st => if (getBell acc st).pos = .lowering then askMoving st acc else acc) s

/-! ### Meanings -/

/-- WRITE_BELL (R113). -/
def execWriteBell (ops : List Byte) (s : State) : Result := change (writeBell ops s) s

/-- FREE_BELL (R125). -/
def execFreeBell (ops : List Byte) (s : State) : Result := change (freeBell ops s) s

/-- READ_BELL (R114). -/
def execReadBell (ops : List Byte) (s : State) : Result := answer (readBell ops s) s

/-- RAISE_TIMEOUT (R120): nothing for a bell whose raise has not run over. -/
def execRaiseTimeout (st : Station) (s : State) : Result :=
  event (fun t => if raiseOver t st then settlePeal (raiseFailed st t) else t) s

/-- LOWER_TIMEOUT (R121): nothing for a bell whose lowering has not run over. -/
def execLowerTimeout (st : Station) (s : State) : Result :=
  event (fun t => if lowerOver t st then settlePeal (lowerFailed st t) else t) s

/-- BELL_POLL (R122): nothing for a bell whose poll is not due. -/
def execBellPoll (st : Station) (s : State) : Result := event (fun t => if pollDue t st then takePoll st t else t) s

/-- RINGING_LIMIT (R126): nothing for a bell that has not been UP so long. -/
def execRingingLimit (st : Station) (s : State) : Result :=
  event (fun t => if limitReached t st then settlePeal (orderLower st (pealLeave st t)) else t) s

/-- PEAL_RAISING_TIMEOUT (R128): nothing while the raising timer has not run out. -/
def execPealRaisingTimeout (s : State) : Result := event (fun t => if raisingOver t then excludeWaiting t else t) s

/-- PEAL_RINGING_END (R129): nothing while the ringing timer has not run out. -/
def execPealRingingEnd (s : State) : Result := event (fun t => if ringingOver t then endRinging t else t) s

/-- OWED_ORDER_OFFERED (R118): nothing while no owed order can be placed. -/
def execOwedOrderOffered (s : State) : Result := event offerFirst s

/-- WAITING_REQUEST_ADMITTED (R188): nothing for a bell with no waiting request, or one that does not fit. -/
def execWaitingRequestAdmitted (st : Station) (s : State) : Result := event (admitWaiting st) s

end Sys2Proof.Machine
end

