-- ==== Sys2Proof/Machine/DialOps.lean ====
section
/-! DEFINITION. The evaluation of a dial, its sensing, and sync closures (R172 to R180). -/

namespace Sys2Proof.Machine

/-- The dial of a number. -/
def getDial (s : State) (d : DialNo) : Dial := s.dials.get d

/-- Change one dial record. -/
def updDial (d : DialNo) (f : Dial → Dial) (s : State) : State := { s with dials := modify s.dials d f }

/-- The lag of a hand position behind a target (R172). -/
def lagOf (target hand : Nat) : Nat := (target + Config.faceSteps - hand) % Config.faceSteps

/-- Whether the override stack holds a dial (R102, R173). -/
def dialHeld (s : State) (d : DialNo) : Bool := (effective s).dials.getLsbD d.val

/-- The state a dial evaluates to: the first condition of R173's table that holds. DESIGN CHOICE: so a dial that sensed open stays ABSENT
while mains is absent (R173, R179), where R180 has each dial STOPPED then (log entry 48). -/
def dialStateOf (x : Dial) (mains : MainsState) (valid held : Bool) (lag : Nat) : DialState :=
  if x.present = false then .stopped
  else if x.sensedOpen then .absent
  else if mains = .absent then .stopped
  else if valid = false then .stopped
  else if held then .held
  else if lag ≤ 1 then .running
  else if Config.faceSteps - x.waitLimit ≤ lag then .waiting
  else .catchup

/-- Whether a state and lag call for an impulse (R174). -/
def needsImpulse (st : DialState) (lag : Nat) : Bool := st == .catchup || (st == .running && lag == 1)

/-- The moment at which an impulse begins: now, or one catch-up interval after the last start if later (R174). -/
def impulseMoment (now : Nat) (x : Dial) : Nat :=
  match x.lastStart with
  | some m => max now (m + x.interval * 1000)
  | none => now

/-- The dial's fields after an evaluation (R173, R174). -/
def evaluatedFields (now lag : Nat) (st : DialState) (x : Dial) : Dial :=
  { x with state := st, due := if needsImpulse st lag then some (impulseMoment now x) else none }

/-- Evaluate a dial; during an impulse the evaluation waits for its end (R173). -/
def evaluate (d : DialNo) (s : State) : State :=
  let x := getDial s d
  let lag := lagOf (dialTarget s.time) x.hand
  if x.impulse.isSome then s
  else updDial d (evaluatedFields s.elapsed lag (dialStateOf x s.mains s.time.valid (dialHeld s d) lag)) s

/-- Evaluate every dial, for the target as it is now (R172). -/
def evaluateAll (s : State) : State :=
  allDials.foldl (fun acc d => evaluate d acc) { s with lastTarget := dialTarget s.time }

/-- Evaluate the dials of a set (R103, R107). -/
def evaluateSet (ds : DialSet) (s : State) : State :=
  (allDials.filter fun d => ds.getLsbD d.val).foldl (fun acc d => evaluate d acc) s

/-- Sense a dial: its sensed-open mark follows its output circuit, at once or at the end of its impulse (R179). -/
def senseDial (d : DialNo) (s : State) : State :=
  let x := getDial s d
  if x.present = false then s
  else if x.impulse.isSome then updDial d (fun y => { y with senseAtEnd := true }) s
  else updDial d (fun y => { y with sensedOpen := s.pins.circuitsOpen.get d }) s

/-- Sense every present dial (R179). -/
def senseAll (s : State) : State := allDials.foldl (fun acc d => senseDial d acc) s

/-- Take a closure: at hand position 0 it is the expected one, elsewhere the hands have slipped (R177). -/
def takeClosure (d : DialNo) (s : State) : State :=
  if (getDial s d).hand = 0 then s
  else setFlag .dialSlip (updDial d (fun x => { x with hand := 0, slips := satAdd 255 x.slips 1 }) s)

/-- Whether a dial's sync contact is watched (R176). -/
def watched (s : State) (d : DialNo) : Bool :=
  let x := getDial s d
  x.syncUsed && x.present && !x.sensedOpen && s.mains == .present

/-- An impulse cut off by mains loss: output released, hands and polarity as they were (R180). -/
def cutImpulse (x : Dial) : Dial := { x with impulse := none, closure := false, senseAtEnd := false, due := none }

/-- Every dial's impulse, if it gives one, is cut off (R180). -/
def cutImpulses (s : State) : State := allDials.foldl (fun acc d => updDial d cutImpulse acc) s

/-- The dials at mains loss (R180). -/
def dialsMainsLoss (s : State) : State := evaluateAll (cutImpulses s)

/-- The dials at warm start: none gives an impulse, so that present dials are sensed at once, and each dial is evaluated (R179,
R180). -/
def dialsWarmStart (s : State) : State := evaluateAll (senseAll (cutImpulses s))

/-- The dials at a panel reset: sensed if mains is present, then evaluated (R179, R180). -/
def dialsPanelReset (s : State) : State := evaluateAll (if s.mains = .present then senseAll s else s)

/-- Whether the held dials add or remove a dial between two effective states, for each dial (R172). -/
def heldChange (old new : Effective) : DialSet := old.dials ^^^ new.dials

end Sys2Proof.Machine
end

