-- ==== Sys2Proof/Machine/Dials.lean ====
section
/-! DEFINITION. The commands and events of the dial drive unit (chapter 9). -/

namespace Sys2Proof.Machine

/-- The values WRITE DIAL accepts: width, interval and wait limit (R171). -/
def dialValuesOk (width interval waitLimit : Nat) : Bool :=
  decide (100 ≤ width) && decide (width ≤ 3000) && width % 100 == 0 && decide (1 ≤ interval)
    && decide (interval ≤ 20) && decide (width + 500 ≤ interval * 1000) && decide (waitLimit ≤ 720)

/-- A dial's configuration replaced; the sensed-open mark is cleared when present changes (R171). -/
def configureDial (present : Bool) (width interval waitLimit : Nat) (sync : Bool) (x : Dial) : Dial :=
  { x with
    present := present
    width := width
    interval := interval
    waitLimit := waitLimit
    syncUsed := sync
    sensedOpen := if x.present = present then x.sensedOpen else false }

/-- An accepted WRITE DIAL: a dial that becomes present is sensed if mains is present, and the dial is evaluated (R171,
R179). DESIGN CHOICE: one that is present already is not sensed again by a write, though a procedure of 09_dial_drives.md has the host
"write again" to a dial that reads ABSENT (log entry 49). -/
def acceptDial (d : DialNo) (present : Bool) (width interval waitLimit : Nat) (sync circuitOpen : Bool) (s : State) :
    State :=
  let s1 := updDial d (configureDial present width interval waitLimit sync) s
  evaluate d
    (if (getDial s d).present = false ∧ present = true ∧ s.mains = .present then senseDial d (sampleCircuit d circuitOpen s1)
    else s1)

/-- WRITE DIAL (R171). -/
def writeDial (ops : List Byte) (circuitOpen : Bool) (s : State) : Except Code State :=
  match ops with
  | [n, p, w1, w0, c, l1, l0, y] =>
    match dialOf n.toNat, flagOf p, flagOf y with
    | some d, some present, some sync =>
      if dialValuesOk (u16 w1 w0) c.toNat (u16 l1 l0) = false then .error .badValue
      else if (getDial s d).impulse.isSome then .error .busy
      else .ok (acceptDial d present (u16 w1 w0) c.toNat (u16 l1 l0) sync circuitOpen s)
    | _, _, _ => .error .badValue
  | _ => .error .shortFrame

/-- SET DIAL HANDS's polarity choice: KEEP 0, POSITIVE 1, NEGATIVE 2 (R178, R212). -/
def polarityChoice (b : Byte) : Option (Option Polarity) :=
  match b.toNat with
  | 0 => some none
  | 1 => some (some .positive)
  | 2 => some (some .negative)
  | _ => none

/-- SET DIAL HANDS (R178). -/
def setDialHands (ops : List Byte) (s : State) : Except Code State :=
  match ops with
  | [n, h1, h0, p] =>
    match dialOf n.toNat, polarityChoice p with
    | some d, some choice =>
      if Config.faceSteps ≤ u16 h1 h0 then .error .badValue
      else if (getDial s d).state = .absent then .error .wrongState
      else if (getDial s d).impulse.isSome then .error .busy
      else .ok (evaluate d (updDial d (fun x => { x with hand := u16 h1 h0, polarity := choice.getD x.polarity }) s))
    | _, _ => .error .badValue
  | _ => .error .shortFrame

/-- The code of a polarity (R170). -/
def Polarity.code : Polarity → Nat
  | .positive => 0
  | .negative => 1

/-- The stream of READ DIAL (R181). -/
def dialStream (s : State) (d : DialNo) (contactClosed : Bool) : List Byte :=
  let x := getDial s d
  let target := dialTarget s.time
  [flagByte x.present] ++ beBytes 2 x.width ++ beBytes 1 x.interval ++ beBytes 2 x.waitLimit ++ [flagByte x.syncUsed]
    ++ beBytes 2 x.hand
    ++ [BitVec.ofNat 8 x.polarity.code, BitVec.ofNat 8 x.state.code, BitVec.ofNat 8 x.slips, flagByte x.sensedOpen,
      flagByte x.impulse.isSome,
      (match x.impulse with
        | some p => BitVec.ofNat 8 p.polarity.code
        | none => 0xFF)]
    ++ beBytes 2 target ++ beBytes 2 (lagOf target x.hand) ++ [flagByte contactClosed]

/-- READ DIAL, from its first operand byte (R181, R195). -/
def readDial (ops : List Byte) (contactClosed : Bool) (s : State) : Except Code (List Byte) :=
  match ops with
  | b :: _ =>
    match dialOf b.toNat with
    | some d => .ok (dialStream s d contactClosed)
    | none => .error .badValue
  | [] => .error .shortFrame

/-- The contact level that a READ DIAL frame samples, where the frame names a dial. -/
def sampleReadContact (ops : List Byte) (contactClosed : Bool) (s : State) : State :=
  match ops with
  | b :: _ =>
    match dialOf b.toNat with
    | some d => if portServed s then sampleContact d contactClosed s else s
    | none => s
  | [] => s

/-! ### Events -/

/-- The target has changed: every dial is evaluated (R172). -/
def targetChange (s : State) : State := if dialTarget s.time = s.lastTarget then s else evaluateAll s

/-- The fields of a dial whose impulse begins (R174). -/
def impulseBegins (now : Nat) (x : Dial) : Dial :=
  { x with impulse := some ⟨x.polarity, now + x.width⟩, lastStart := some now, due := none, closure := false }

/-- Whether a dial is due an impulse now (R174). -/
def impulseDue (s : State) (d : DialNo) : Bool :=
  match (getDial s d).due with
  | some m => decide (m ≤ s.elapsed) && (getDial s d).impulse.isNone
  | none => false

/-- The other polarity. -/
def Polarity.other : Polarity → Polarity
  | .positive => .negative
  | .negative => .positive

/-- The fields of a dial whose impulse ends: hands advanced, polarity reversed (R174). -/
def impulseEnds (x : Dial) : Dial :=
  { x with
    impulse := none
    hand := (x.hand + 1) % Config.faceSteps
    polarity := x.polarity.other
    closure := false
    senseAtEnd := false }

/-- Whether a dial's impulse has run its width (R174). -/
def impulseOver (s : State) (d : DialNo) : Bool :=
  match (getDial s d).impulse with
  | some p => decide (p.ends ≤ s.elapsed)
  | none => false

/-- The end of an impulse: a closure that came during it is taken, a sensing put off to it is made, and the dial is
evaluated (R174, R177, R179). -/
def endImpulse (d : DialNo) (circuitOpen : Bool) (s : State) : State :=
  let x := getDial s d
  let s1 := updDial d impulseEnds s
  let s2 := if x.closure then takeClosure d s1 else s1
  evaluate d (if x.senseAtEnd then senseDial d (sampleCircuit d circuitOpen s2) else s2)

/-- A closure of a watched contact: kept to the end of an impulse in progress, else taken at once; the expected one, at hand
position 0, changes nothing (R176, R177). -/
def closureOf (d : DialNo) (s : State) : State :=
  if watched s d = false then s
  else if (getDial s d).impulse.isSome then updDial d (fun x => { x with closure := true }) s
  else if (getDial s d).hand = 0 then s
  else evaluate d (takeClosure d s)

/-! ### Meanings -/

/-- WRITE_DIAL (R171). -/
def execWriteDial (ops : List Byte) (circuitOpen : Bool) (s : State) : Result :=
  change (writeDial ops circuitOpen s) s

/-- SET_DIAL_HANDS (R178). -/
def execSetDialHands (ops : List Byte) (s : State) : Result := change (setDialHands ops s) s

/-- READ_DIAL (R181): the contact is sampled when the frame is served. -/
def execReadDial (ops : List Byte) (contactClosed : Bool) (s : State) : Result :=
  answer (readDial ops contactClosed s) (sampleReadContact ops contactClosed s)

/-- TARGET_CHANGE (R172). -/
def execTargetChange (s : State) : Result := event targetChange s

/-- IMPULSE_START (R174): nothing for a dial that is due no impulse. -/
def execImpulseStart (d : DialNo) (s : State) : Result :=
  event (fun t => if impulseDue t d then updDial d (impulseBegins t.elapsed) t else t) s

/-- IMPULSE_END (R174): nothing for a dial whose impulse has not run its width. -/
def execImpulseEnd (d : DialNo) (circuitOpen : Bool) (s : State) : Result :=
  event (fun t => if impulseOver t d then endImpulse d circuitOpen t else t) s

/-- SYNC_CLOSURE (R176, R177). -/
def execSyncClosure (d : DialNo) (s : State) : Result := event (fun t => closureOf d (sampleContact d true t)) s

end Sys2Proof.Machine
end

