-- ==== Sys2Proof/Machine/Lanes.lean ====
section
/-! DEFINITION. What the sheet and the lanes do at an instant: grace expiry, the end of quiet periods, entries that fall
due, taking, and the toll's strokes (R79 to R89). -/

namespace Sys2Proof.Machine

/-- The first entry of today's sheet, in sheet order, that a test selects. -/
def firstWhere (test : Entry → Bool) (s : State) : Option Entry := s.sheets.today.entries.find? test

/-- A DUE entry whose grace has passed (R86). -/
def lateEntry (s : State) (e : Entry) : Bool := e.state == .due && graceOver s e

/-- An ACTIVE QUIET entry whose end instant is reached (R79). -/
def endedQuiet (s : State) (e : Entry) : Bool :=
  e.kind == .quiet && e.state == .active && decide (e.endInstant.getD 0 ≤ s.time.instant)

/-- A LIGHT entry that is DONE or MISSED and whose instant the second has reached again (R83; log entry 36). -/
def relights (s : State) (e : Entry) : Bool :=
  s.sheets.relight.contains e.key && e.kind == .light && (e.state == .done || e.state == .missed)
    && decide (e.instant ≤ s.time.instant)

/-- An entry that falls due now, or a final LIGHT entry whose instant is reached again (R79, R83). -/
def actsNow (s : State) (e : Entry) : Bool := fallsDue s e || relights s e

/-- The first entry whose grace has passed becomes MISSED (R86). -/
def expireGrace (s : State) : State :=
  match firstWhere (lateEntry s) s with
  | some e => finalise e.key .missed s
  | none => s

/-- The first ACTIVE QUIET entry whose end is reached becomes DONE, once no grace is left to expire (R79). DESIGN CHOICE: an entry that an
install makes ACTIVE with its end instant reached already ends so too, in the second of the install, where R79 ends quiet periods only as
it hands a new instant (log entry 47). -/
def endQuiet (s : State) : State :=
  if (firstWhere (lateEntry s) s).isSome then s
  else
    match firstWhere (endedQuiet s) s with
    | some e => finalise e.key .done s
    | none => s

/-- Whether the sheet has handled the graces and the quiet periods of the present instant (R79), those of an install among them (log
entry 47). -/
def readyToFall (s : State) : Bool :=
  (firstWhere (lateEntry s) s).isNone && (firstWhere (endedQuiet s) s).isNone

/-- A LIGHT entry reached again is no longer called for. -/
def relit (k : Key) (s : State) : State :=
  { s with sheets := { s.sheets with relight := s.sheets.relight.filter fun x => x != k } }

/-- The first entry that acts at the present instant, in sheet order: a PENDING one becomes DUE, and a final LIGHT entry's
effect is applied again (R79, R83). -/
def fallOne (s : State) : State :=
  if readyToFall s = false then s
  else
    match firstWhere (actsNow s) s with
    | some e => if fallsDue s e then becomeDue e s else lightEffect e.key (relit e.key s)
    | none => s

/-- Whether a lane may look for an entry: mains present, the lane FREE, and the sheet done with the present instant (R79,
R85, R94). -/
def mayLook (lane : Lane) (s : State) : Bool :=
  s.mains == .present && (laneKey s lane).isNone && readyToFall s && (firstWhere (actsNow s) s).isNone

/-- A lane takes an entry, where it may look (R85). -/
def laneTakes (lane : Lane) (s : State) : State := if mayLook lane s then settlePeal (lookFor lane s) else s

/-- The toll requests its next stroke, one effective interval after the answer to the one before (R89). -/
def tollNext (s : State) : State :=
  match s.lanes.tollRun with
  | none => s
  | some r =>
    match r.nextAt with
    | none => s
    | some m =>
      if m ≤ s.elapsed then
        requestStroke r.bell .normal (.toll r.serial)
          (setTollRun (some { r with requested := r.requested + 1, nextAt := none }) s)
      else s

/-! ### Meanings -/

/-- ENTRY_FALLS_DUE (R79 to R83): the first entry of the present instant in sheet order; nothing where none is left. -/
def execEntryFallsDue (s : State) : Result := event (fun t => settlePeal (fallOne t)) s

/-- QUIET_PERIOD_END (R79, R82): the first quiet period that has ended; nothing where none has. -/
def execQuietPeriodEnd (s : State) : Result := event endQuiet s

/-- GRACE_EXPIRY (R86): the first DUE entry whose grace has passed; nothing where none has. -/
def execGraceExpiry (s : State) : Result := event expireGrace s

/-- LANE_TAKES_ENTRY (R85): nothing for a lane that is busy, has no entry to take, or may not look now. -/
def execLaneTakesEntry (lane : Lane) (s : State) : Result := event (laneTakes lane) s

/-- TOLL_STROKE_REQUEST (R89): nothing while no stroke of a toll is called for. -/
def execTollStrokeRequest (s : State) : Result := event tollNext s

end Sys2Proof.Machine
end

