-- ==== Sys2Proof/Machine/Lighting.lean ====
section
/-! DEFINITION. The commands of the lighting unit (chapter 10). -/

namespace Sys2Proof.Machine

/-- The configuration of a zone replaced; its levels are kept (R184). -/
def configureZone (low mid full priority : Nat) (z : Zone) : Zone :=
  { z with low := low, mid := mid, full := full, priority := priority }

/-- Zones are shed until the committed load is at most the allowance; LOAD_LIMITED is set if any step was taken (R184,
R190). -/
def shedToFit (s : State) : State :=
  if committed s.lights ≤ s.lights.allowance then s
  else
    setFlag .loadLimited
      (setLights (shedUntil (fun l => decide (committed l ≤ l.allowance)) stepLimit s.lights) s)

/-- Whether new loads lower a load of a zone, at whatever level (R188). -/
def lowersLoad (z : Zone) (low mid full : Nat) : Bool :=
  decide (low < z.low) || decide (mid < z.mid) || decide (full < z.full)

/-- An accepted WRITE ZONE: the account is brought back to its law, and load is freed where it lowers one (R184, R188). -/
def acceptZone (z : ZoneNo) (low mid full priority : Nat) (s : State) : State :=
  let s1 := shedToFit (setLights (updZone z (configureZone low mid full priority) s.lights) s)
  settlePeal (if lowersLoad (s.lights.zones.get z) low mid full then loadFreed s1 else s1)

/-- WRITE ZONE (R184). -/
def writeZone (ops : List Byte) (s : State) : Except Code State :=
  match ops with
  | [n, a, b, c, p] =>
    match zoneOf n.toNat with
    | some z =>
      if 1 ≤ p.toNat ∧ p.toNat ≤ 8 ∧ a.toNat ≤ b.toNat ∧ b.toNat ≤ c.toNat then
        .ok (acceptZone z a.toNat b.toNat c.toNat p.toNat s)
      else .error .badValue
    | none => .error .badValue
  | _ => .error .shortFrame

/-- Eight scene levels, none where one is above 3 (R183). -/
def levelsOf (bytes : List Byte) : Option (Vector Nat 8) :=
  if h : bytes.length = 8 then
    if bytes.all fun b => decide (b.toNat ≤ 3) then some ⟨(bytes.map BitVec.toNat).toArray, by simp [h]⟩ else none
  else none

/-- WRITE SCENE (R183): the wanted levels are found anew, and change only where the scene governs. -/
def writeScene (ops : List Byte) (s : State) : Except Code State :=
  match ops with
  | [n, a, b, c, d, e, f, g, h] =>
    match sceneOf n.toNat, levelsOf [a, b, c, d, e, f, g, h] with
    | some sc, some levels =>
      .ok (settlePeal (findWanted (setLights { s.lights with scenes := put s.lights.scenes sc levels } s)))
    | _, _ => .error .badValue
  | _ => .error .shortFrame

/-- An accepted SET ALLOWANCE (R190). -/
def acceptAllowance (v : Nat) (s : State) : State :=
  let s1 := shedToFit (setLights { s.lights with allowance := v } s)
  settlePeal (if s.lights.allowance < v then loadFreed s1 else s1)

/-- SET ALLOWANCE (R190). -/
def setAllowance (ops : List Byte) (s : State) : Except Code State :=
  match ops with
  | [a, b] =>
    if 1000 < u16 a b then .error .badValue
    else if u16 a b < reservTotal s.lights then .error .wrongState
    else .ok (acceptAllowance (u16 a b) s)
  | _ => .error .shortFrame

/-- The code of a mains state (R201). -/
def MainsState.code : MainsState → Nat
  | .present => 0
  | .absent => 1

/-- A scene number, 0 for none (R192). -/
def sceneByte (sc : Option SceneNo) : Byte :=
  match sc with
  | some n => BitVec.ofNat 8 (n.val + 1)
  | none => 0

/-- The bytes of a zone as read (R192). -/
def zoneBytes (z : Zone) : List Byte :=
  [BitVec.ofNat 8 z.low, BitVec.ofNat 8 z.mid, BitVec.ofNat 8 z.full, BitVec.ofNat 8 z.priority, BitVec.ofNat 8 z.wanted,
    BitVec.ofNat 8 z.present, flagByte (isShed z)]

/-- The stream of READ LIGHTING (R192). -/
def lightingStream (s : State) (sc : SceneNo) : List Byte :=
  let l := s.lights
  beBytes 2 l.allowance ++ beBytes 2 (reservTotal l) ++ beBytes 2 (zoneTotal l) ++ beBytes 2 (committed l)
    ++ beBytes 2 (freeLoad l)
    ++ [BitVec.ofNat 8 s.mains.code, sceneByte (effective s).scene,
      (match governingLit s with
        | some i => BitVec.ofNat 8 i.val
        | none => 0xFF),
      sceneByte (governingScene s)]
    ++ l.zones.toList.flatMap zoneBytes
    ++ [BitVec.ofNat 8 l.waiting.length]
    ++ l.waiting.flatMap (fun p => [BitVec.ofNat 8 (stationNo p.1), BitVec.ofNat 8 p.2])
    ++ (l.scenes.get sc).toList.map (BitVec.ofNat 8)

/-- READ LIGHTING, from its first operand byte (R192). -/
def readLighting (ops : List Byte) (s : State) : Except Code (List Byte) :=
  match ops with
  | n :: _ =>
    match sceneOf n.toNat with
    | some sc => .ok (lightingStream s sc)
    | none => .error .badValue
  | [] => .error .shortFrame

/-! ### Meanings -/

/-- WRITE_ZONE (R184). -/
def execWriteZone (ops : List Byte) (s : State) : Result := change (writeZone ops s) s

/-- WRITE_SCENE (R183). -/
def execWriteScene (ops : List Byte) (s : State) : Result := change (writeScene ops s) s

/-- SET_ALLOWANCE (R190). -/
def execSetAllowance (ops : List Byte) (s : State) : Result := change (setAllowance ops s) s

/-- READ_LIGHTING (R192). -/
def execReadLighting (ops : List Byte) (s : State) : Result := answer (readLighting ops s) s

end Sys2Proof.Machine
end

