-- ==== Sys2Proof/Machine/LineOps.lean ====
section
/-! DEFINITION. The line controller's shared operations: heads of the queue, flushes, line faults and recovery attempts
(R154 to R168). -/

namespace Sys2Proof.Machine

/-- The levels of both wires, as the controller reads them. -/
def sampleWires (lck lda : Bool) (s : State) : State :=
  { s with pins := { s.pins.readClock lck s.elapsed with ldaHigh := lda } }

/-- LCK is read high, as it is at every bit, START and STOP (R152). -/
def clockSeen (s : State) : State := sampleWires true s.pins.ldaHigh s

/-- A STOP leaves both wires high (R152). -/
def stopSeen (s : State) : State := sampleWires true true s

/-- The line free, with no frame in progress. -/
def lineIdle (s : State) : State := updLine (fun l => { l with state := .idle, frame := .none }) s

/-- A frame ends at its STOP, and the line is free (R156, R158, R159). -/
def frameStopped (s : State) : State := lineIdle (stopSeen s)

/-- A frame ends with LCK high and LDA as it may be: at a START or STOP out of place, or where access is forced (R160, R161). -/
def frameBroken (s : State) : State := lineIdle (clockSeen s)

/-- An order comes back to the head of the queue (R156, R157). -/
def putBack (o : Order) (s : State) : State := updLine (fun l => { l with queue := o :: l.queue }) s

/-- Whether an order may still go out: a STRIKE's deadline has not passed (R155). -/
def inTime (s : State) (o : Order) : Bool :=
  match o.body with
  | .strike _ deadline _ => decide (s.elapsed ≤ deadline)
  | .swing _ => true

/-- A STRIKE discarded at the deadline test: reported lost, and unanswered too if an attempt went unanswered (R156). -/
def discardStrike (o : Order) (s : State) : State :=
  let s1 := strikeLost o s
  if 0 < o.unanswered then reportUnanswered o.station s1 else s1

/-- Orders at the head whose deadline has passed are discarded, one after another (R155). -/
def discardLate : Nat → State → State
  | 0, s => s
  | fuel + 1, s =>
    match s.line.queue with
    | [] => s
    | o :: rest =>
      if inTime s o then s else discardLate fuel (discardStrike o (updLine (fun l => { l with queue := rest }) s))

/-- An order that comes back unsent: a STRIKE is lost, any other order is owed by its bell, and a report on an ABSENT bell changes
nothing (R118, R160, R164). -/
def orderReturned (o : Order) (s : State) : State :=
  match o.body with
  | .strike _ _ who => answerStroke who false s
  | .swing k => if (getBell s o.station).pos = .absent then s else owe o.station k s

/-- The orders the controller holds: that of its own frame, then the queue. -/
def heldOrders (l : Line) : List Order := (ownOrder l).toList ++ l.queue

/-- The queue and the frame in progress emptied, the line in a state; a console frame abandoned so raises no bus-error count (R164,
R167, R168; log entry 39). -/
def clearLine (st : LineState) (s : State) : State :=
  updLine (fun l => { l with state := st, frame := .none, queue := [], attempt := none }) s

/-- The line becomes FAULTED: wires released, frame abandoned, queue flushed with swing orders owed, cause recorded, count and
flag, and moving bells UNSURE (R134, R164). -/
def lineFault (cause : FaultCause) (s : State) : State :=
  let orders := heldOrders s.line
  let s1 := updLine (fun l => { l with cause := cause, faults := satAdd 255 l.faults 1 }) (clearLine .faulted s)
  let s2 := orders.foldl (fun acc o => orderReturned o acc) s1
  settlePeal (bellsLineFault (setFlag .lineFault s2))

/-- A flush that discards: STRIKEs are lost, other orders discarded, any frame abandoned (R167, R168). -/
def flushLine (st : LineState) (s : State) : State := strikesLost (heldOrders s.line) (clearLine st s)

/-- The state a line shows when its frame is abandoned outside a fault: FAULTED stays FAULTED, else IDLE (R167). -/
def restState (l : Line) : LineState := if l.state = .faulted then .faulted else .idle

/-- The state a line reads during an attempt that a reset or mains return makes (R168). -/
def attemptState (l : Line) : LineState := if l.state = .faulted then .faulted else .recovering

/-- A recovery attempt is begun by a reset or by mains return, in place of one under way (R167, R168; log entry 53). -/
def beginRestart (s : State) : State :=
  updLine (fun l => { l with state := attemptState l, attempt := some .restart }) s

/-- The line at mains loss (R167). -/
def lineMainsLoss (s : State) : State := flushLine (restState s.line) s

/-- The line at a panel reset (R168). A recovery attempt under way then, CLEAR LINE's or a restart's, is dropped, and the reset's own begins
in its place, so that its failure takes every step of R164: R168 does not say what becomes of an attempt under way (DESIGN CHOICE, log
entry 53). -/
def linePanelReset (s : State) : State :=
  let s1 := flushLine (restState s.line) s
  if s.mains = .present then beginRestart s1 else updLine (fun l => { l with recoveryWanted := true }) s1

/-- The clock rule runs again: an LCK last read low counts from now (R163, R167; log entry 34). -/
def restartClock (s : State) : State := { s with pins := s.pins.restartClock s.elapsed }

/-- The line at mains return (R167). -/
def lineWarmStart (s0 : State) : State :=
  let s := restartClock s0
  if s.line.recoveryWanted then beginRestart (updLine (fun l => { l with recoveryWanted := false }) s) else s

/-- A recovery attempt succeeds: both wires read high, the line is IDLE, and every present station is queried (R165, R168). -/
def attemptFreed (s : State) : State :=
  queryAll (sampleWires true true (updLine (fun l => { l with attempt := none, state := .idle, frame := .none }) s))

/-- A recovery attempt fails with a cause: CLEAR LINE's leaves the line FAULTED, a restart's makes it so with every step of R164
(R165, R168). -/
def attemptFailed (kind : AttemptKind) (cause : FaultCause) (s : State) : State :=
  match kind with
  | .clear =>
    setFlag .lineFault
      (updLine (fun l => { l with attempt := none, cause := cause, faults := satAdd 255 l.faults 1 }) s)
  | .restart => lineFault cause s

end Sys2Proof.Machine
end

