-- ==== Sys2Proof/Machine/Line.lean ====
section
/-! DEFINITION. The commands and events of the belfry line controller (chapter 8). -/

namespace Sys2Proof.Machine

/-! ### Commands (R165, R166) -/

/-- CLEAR LINE: a recovery attempt, unless one is under way (R165). -/
def clearLineCmd (ops : List Byte) (s : State) : Except Code State :=
  match ops with
  | [] =>
    if s.line.state ≠ .faulted ∨ s.mains = .absent then .error .wrongState
    else if s.line.attempt.isSome then .ok s
    else .ok (updLine (fun l => { l with attempt := some .clear }) s)
  | _ => .error .shortFrame

/-- WRITE LINE SETTINGS (R166). -/
def writeLineSettings (ops : List Byte) (s : State) : Except Code State :=
  match ops with
  | [b] =>
    match flagOf b with
    | some on => .ok (updLine (fun l => { l with answerConsole := on }) s)
    | none => .error .badValue
  | _ => .error .shortFrame

/-- The stream of READ LINE (R166). -/
def lineStream (l : Line) : List Byte :=
  [BitVec.ofNat 8 l.state.code, BitVec.ofNat 8 l.cause.code, flagByte l.answerConsole, BitVec.ofNat 8 l.queue.length,
    BitVec.ofNat 8 l.faults, BitVec.ofNat 8 l.forced]
  ++ beBytes 2 l.arbLosses ++ [BitVec.ofNat 8 l.busErrors, flagByte l.recoveryWanted]

/-! ### Frames of the part's own (R155 to R157) -/

/-- Whether the controller may begin a frame (R155). -/
def maySend (s : State) : Bool := s.line.state == .idle && s.mains == .present && !s.line.queue.isEmpty

/-- The head order's frame begins (R155). -/
def sendHead (s : State) : State :=
  match s.line.queue with
  | [] => s
  | o :: rest => updLine (fun l => { l with state := .sending, frame := .own o s.elapsed, queue := rest }) s

/-- What the wires allow: LDA low enters RECOVERING, LCK low waits, both high send (R155; log entry 39). -/
def tryWires (lck lda : Bool) (s : State) : State :=
  if s.line.queue = [] then s
  else if lda = false then updLine (fun l => { l with state := .recovering }) s
  else if lck = false then s
  else sendHead s

/-- The controller reads the line: not while mains is absent, nor while the line is FAULTED (R164, R167). -/
def readsLine (s : State) : Bool := s.mains == .present && s.line.state != .faulted

/-- The wires are read where the controller reads the line, and it begins a frame where it may: late STRIKEs at the head are discarded
first (R155, R163, R167). -/
def frameStart (lck lda : Bool) (s : State) : State :=
  if readsLine s then
    let s1 := sampleWires lck lda s
    if maySend s then settlePeal (tryWires lck lda (discardLate s.line.queue.length s1)) else s1
  else s

/-- An answered order is reported acknowledged; a QUERY's reply is applied, a STRIKE is sent (R156). -/
def orderAnswered (o : Order) (reply : Byte) (s : State) : State :=
  let s1 := reportAcknowledged o.station s
  match o.body with
  | .strike _ _ who => strikeSent o.station who s1
  | .swing .query => applyReply o.station (replyOf reply) s1
  | .swing .raise => s1
  | .swing .lower => s1
  | .swing .halt => s1

/-- An unanswered attempt: the order stays at the head, or is reported unanswered at the third (R156). -/
def orderUnanswered (o : Order) (s : State) : State :=
  if o.unanswered + 1 < Config.attemptLimit then putBack { o with unanswered := o.unanswered + 1 } s
  else reportUnanswered o.station (strikeLost o s)

/-- The STOP of an attempt (R156). -/
def attemptEnd (answer : StationAnswer) (s : State) : State :=
  match ownOrder s.line with
  | none => s
  | some o =>
    settlePeal
      (match answer with
      | .acknowledged reply => orderAnswered o reply (frameStopped s)
      | .unanswered => orderUnanswered o (frameStopped s))

/-- The state of a frame that another party began, by its address byte (R157, R158). -/
def foreignState (address : Byte) (l : Line) : LineState :=
  if addressOf address = 40 ∧ l.answerConsole = true then .addressed else .observing

/-- Whether a frame of another party, by its address and order bytes, wins over an order of the part: of two bytes sent bit by
bit, most significant first, the lower overrides (R157, section 8.5). -/
def winsOver (f : FrameHead) (o : Order) : Bool :=
  decide (f.address.toNat < o.addressByte.toNat)
    || (f.address == o.addressByte && decide (f.order.toNat < o.orderByte.toNat))

/-- The order returns to the head, and the winner's frame is followed (R157). -/
def yieldLine (address : Byte) (o : Order) (started : Nat) (l : Line) : Line :=
  { l with
    queue := o :: l.queue
    arbLosses := satAdd 65535 l.arbLosses 1
    state := foreignState address l
    frame := .foreign [address] started none }

/-- Another party's frame runs together with the part's: arbitration is lost to one that wins, and the part goes on against any
other (R157). -/
def loseArbitration (f : FrameHead) (s : State) : State :=
  match s.line.frame with
  | .own o started => if winsOver f o then updLine (yieldLine f.address o started) (clockSeen s) else s
  | .foreign _ _ _ => s
  | .none => s

/-! ### Frames of other parties (R158, R159) -/

/-- Another party's frame begins on a line that is IDLE, while mains is present; its START is read with LCK high (R152, R158,
R167). -/
def foreignBegins (address : Byte) (s : State) : State :=
  if s.line.state = .idle ∧ s.mains = .present then
    updLine (fun l => { l with state := foreignState address l, frame := .foreign [address] s.elapsed none }) (clockSeen s)
  else s

/-- The bytes of the other party's frame seen so far, and the set granted in it, in a line state. -/
def foreignIn (st : LineState) (l : Line) : Option (List Byte × Option BellSet) :=
  match l.frame with
  | .foreign bytes _ granted => if l.state = st then some (bytes, granted) else none
  | .own _ _ => none
  | .none => none

/-- An observed frame reaches STOP: handed to the bell table if its order byte was acknowledged (R158). -/
def observedStop (rest : List Byte) (acknowledged : Bool) (s : State) : State :=
  match foreignIn .observing s.line with
  | none => s
  | some (bytes, _) =>
    match bytes ++ rest with
    | [] => frameStopped s
    | address :: body => settlePeal (if acknowledged then handObserved address body (frameStopped s) else frameStopped s)

/-- The order bytes the part acknowledges in a frame to it: CLAIM with the read flag set, RELEASE and RELEASE ALL with it clear
(R159). -/
def acknowledges (read : Bool) (order : Byte) : Bool :=
  if read then order == claimByte else order == releaseByte || order == releaseAllByte

/-- Whether the frame being answered is at its order byte, and an order byte that comes now is acknowledged (R159). -/
def addressedWith (order : Byte) (s : State) : Bool :=
  match foreignIn .addressed s.line with
  | some ([address], none) => acknowledges (readFlag address) order
  | _ => false

/-- The frame with more bytes seen and a set granted. -/
def extendFrame (more : List Byte) (granted : BellSet) (f : Frame) : Frame :=
  match f with
  | .foreign bytes started _ => .foreign (bytes ++ more) started (some granted)
  | .own o n => .own o n
  | .none => .none

/-- The bytes of a CLAIM after its address byte: its order and the claimed set from the console, and the granted set that the
part sends (R153, R159, R210). -/
def claimBytes (set granted : BellSet) : List Byte := claimByte :: (bellSetBytes set ++ bellSetBytes granted)

/-- A CLAIM is handed at its fourth set byte, and the part sends the granted set (R131, R159). -/
def claimFrame (set : BellSet) (s : State) : State :=
  if addressedWith claimByte s then
    let r := claimBells (realBells set) (clockSeen s)
    updLine (fun l => { l with frame := extendFrame (claimBytes set r.2) r.2 l.frame }) r.1
  else s

/-- A RELEASE or a RELEASE ALL, by its order byte, is handed at its STOP (R132, R159). -/
def releaseFrame (order : Byte) (set : BellSet) (s : State) : State :=
  if addressedWith order s then releaseBells set (frameStopped s) else s

/-- The STOP of a frame to the part; nothing more is handed (R159). -/
def addressedStop (s : State) : State :=
  match foreignIn .addressed s.line with
  | some _ => frameStopped s
  | none => s

/-! ### Line errors (R160 to R163) -/

/-- Count a bus error (R160). -/
def countBusError (l : Line) : Line := { l with busErrors := satAdd 255 l.busErrors 1 }

/-- The part's own order after a bus error: one retry where it is the first and the deadline allows, else it is reported
(R160). -/
def orderBroken (o : Order) (s : State) : State :=
  let p := { o with abandoned := o.abandoned + 1 }
  if p.abandoned = 1 ∧ inTime s o = true then putBack p s else orderReturned p s

/-- A bus error, by the frame it interrupts (R160). -/
def busErrorIn (s : State) : State :=
  match s.line.state with
  | .sending =>
    (match ownOrder s.line with
      | some o => settlePeal (orderBroken o (updLine countBusError (frameBroken s)))
      | none => s)
  | .addressed => updLine countBusError (frameBroken s)
  | .observing => frameBroken s
  | .idle => s
  | .recovering => s
  | .faulted => s

/-- The START of a frame that hangs: another party's, with no STOP for 100 ms (R161). -/
def hung (s : State) : Bool :=
  match s.line.frame with
  | .foreign _ started _ =>
    (s.line.state == .observing || s.line.state == .addressed) && decide (started + Config.hangTime ≤ s.elapsed)
  | .own _ _ => false
  | .none => false

/-- Access is forced: STOP is sent and the frame abandoned (R161; log entry 39). -/
def forceAccess (s : State) : State := updLine (fun l => { l with forced := satAdd 255 l.forced 1 }) (frameBroken s)

/-- The nine pulses are over, with LCK high (R162). -/
def pulsesDone (freed : Bool) (s : State) : State :=
  if s.line.state = .recovering ∧ s.line.attempt = none then
    let s1 := sampleWires true freed s
    if freed then lineIdle s1 else lineFault .dataStuck s1
  else s

/-- Whether the clock rule runs: in every state but FAULTED, while mains is present (R163). -/
def clockRuns (s : State) : Bool := s.line.state != .faulted && s.mains == .present

/-- Whether LCK, as last sampled, has been low for more than 25 ms (R163). -/
def clockLow (s : State) : Bool := s.pins.lckLowSince.any fun m => decide (m + Config.clockStretch < s.elapsed)

/-- Whether an LCK that reads low now can have done so for more than 25 ms: it was not read high within them (R163; log entry
34). -/
def clockHeld (s : State) : Bool := clockLow s || decide (s.pins.lckHighAt + Config.clockStretch < s.elapsed)

/-- LCK reads low, and has for more than 25 ms: the line becomes FAULTED (R163). -/
def clockFault (s : State) : State :=
  if clockRuns s = true ∧ clockHeld s = true then
    lineFault .clockStuck (sampleWires false s.pins.ldaHigh s)
  else s

/-- A recovery attempt ends, with the wires as it found them (R165, R168). -/
def attemptOver (r : AttemptResult) (s : State) : State :=
  match s.line.attempt with
  | none => s
  | some kind =>
    match r with
    | .freed => attemptFreed s
    | .clockStuck => attemptFailed kind .clockStuck (sampleWires false s.pins.ldaHigh s)
    | .dataStuck => attemptFailed kind .dataStuck (sampleWires true false s)

/-! ### Meanings -/

/-- CLEAR_LINE (R165). -/
def execClearLine (ops : List Byte) (s : State) : Result := change (clearLineCmd ops s) s

/-- WRITE_LINE_SETTINGS (R166). -/
def execWriteLineSettings (ops : List Byte) (s : State) : Result := change (writeLineSettings ops s) s

/-- READ_LINE (R166). -/
def execReadLine (s : State) : Result := answer (.ok (lineStream s.line)) s

/-- ORDER_FRAME_START (R155): the wires are read, and no more unless the line is IDLE and an order waits; nothing while mains is absent or
the line is FAULTED (R164, R167). -/
def execOrderFrameStart (lck lda : Bool) (s : State) : Result := event (frameStart lck lda) s

/-- ORDER_ATTEMPT_END (R156): nothing while the part sends no order. -/
def execOrderAttemptEnd (answer : StationAnswer) (s : State) : Result := event (attemptEnd answer) s

/-- ARBITRATION_LOST (R157): nothing while the part sends no order, or against a frame that does not win. -/
def execArbitrationLost (winner : FrameHead) (s : State) : Result := event (loseArbitration winner) s

/-- FOREIGN_START (R158): nothing unless the line is IDLE and mains present. -/
def execForeignStart (address : Byte) (s : State) : Result := event (foreignBegins address) s

/-- OBSERVED_FRAME_STOP (R158): nothing while no frame is observed. -/
def execObservedFrameStop (rest : List Byte) (acknowledged : Bool) (s : State) : Result :=
  event (observedStop rest acknowledged) s

/-- CLAIM (R131, R159): nothing unless a frame to address 40 with the read flag set awaits its order. -/
def execClaim (set : BellSet) (s : State) : Result := event (claimFrame set) s

/-- RELEASE (R132, R159): nothing unless a frame to address 40 with the read flag clear awaits its order. -/
def execRelease (set : BellSet) (s : State) : Result := event (releaseFrame releaseByte set) s

/-- RELEASE_ALL (R132, R159): every CONSOLE-held bell is named. -/
def execReleaseAll (s : State) : Result := event (releaseFrame releaseAllByte everyBell) s

/-- ADDRESSED_FRAME_STOP (R159): nothing while no frame to the part is in progress. -/
def execAddressedFrameStop (s : State) : Result := event addressedStop s

/-- BUS_ERROR (R160): nothing while no frame is in progress. -/
def execBusError (s : State) : Result := event busErrorIn s

/-- FORCED_ACCESS (R161): nothing unless another party's frame has hung the line. -/
def execForcedAccess (s : State) : Result := event (fun t => if hung t then forceAccess t else t) s

/-- RECOVERY_PULSES_DONE (R162): nothing unless the line is being freed. -/
def execRecoveryPulsesDone (freed : Bool) (s : State) : Result := event (pulsesDone freed) s

/-- CLOCK_STUCK (R163): nothing while the line is FAULTED or mains absent, or where LCK read high within the last 25 ms. -/
def execClockStuck (s : State) : Result := event clockFault s

/-- RECOVERY_ATTEMPT_END (R165, R168): nothing while no attempt is under way. -/
def execRecoveryAttemptEnd (r : AttemptResult) (s : State) : Result := event (attemptOver r) s

end Sys2Proof.Machine
end

