-- ==== Sys2Proof/Machine/Overrides.lean ====
section
/-! DEFINITION. The override stack: pushing, removing, expiry, and what a changed effective state does (chapter 5). -/

namespace Sys2Proof.Machine

/-! ### Handing on the effective state (R103 to R107) -/

/-- The DUE sounding entries that the effective silence covers become WITHHELD (R104, part 1). -/
def withholdSilenced (s : State) : State :=
  finaliseAll (keysWhere (fun e => e.state == .due && e.kind.sounding && silenceCovers s e) s) .withheld s

/-- A lane's ACTIVE entry is cut short if the effective silence covers it (R104, part 2). -/
def cutSilenced (lane : Lane) (s : State) : State :=
  match laneKey s lane with
  | none => s
  | some k =>
    match findEntry k s.sheets.today.entries with
    | none => s
    | some e => if silenceCovers s e then cutLane lane s else s

/-- What a gain of the effective silence does to the sheet, the lanes and the running peal (R104, R105). -/
def handSilence (old : Effective) (s : State) : State :=
  let new := effective s
  let s1 := if silenceGained old new then cutSilenced .toll (cutSilenced .chime (withholdSilenced s)) else s
  if old.peal.gained new.peal then silencePeal (pealSilenced new) s1 else s1

/-- The changes of the effective state are handed to the blocks that act on them (R103, R107). -/
def handOn (old : Effective) (s : State) : State :=
  let new := effective s
  let s1 := handSilence old s
  let s2 := if old.scene = new.scene then s1 else findWanted s1
  settlePeal (evaluateSet (heldChange old new) s2)

/-- The stack's entries replaced, and the change of effective state handed on once (R103, R109). -/
def setStack (entries : List Override) (s : State) : State :=
  handOn (effective s) { s with overrides := { s.overrides with entries := entries } }

/-! ### PUSH, POP, DROP (R100, R101, R108) -/

/-- The id that follows an id: 255 is followed by 1 (R101). -/
def succId (n : Nat) : Nat := if n = 255 then 1 else n + 1

/-- The first id from n on that is not in use, within a number of tries (R101). -/
def freshId : Nat → List Nat → Nat → Nat
  | 0, _, n => n
  | fuel + 1, used, n => if used.contains n then freshId fuel used (succId n) else n

/-- The id that the next push assigns (R101). -/
def nextId (o : Overrides) : Nat := freshId Config.stackCapacity (o.entries.map Override.id) (succId o.lastId)

/-- The body of an entry of a kind code, from the operand fields the kind uses; none where R100 refuses it. -/
def overrideBody (kind : Nat) (kinds : KindScope) (bells muffle : BellSet) (scene : Nat) (dials : DialSet) :
    Option OverrideBody :=
  match kind with
  | 0 => if kinds.isEmpty then none else some (.silence kinds bells)
  | 1 => if muffle = 0 then none else some (.muffle muffle)
  | 2 => (sceneOf scene).map .lights
  | 3 => if dials = 0 then none else some (.dialHold dials)
  | _ => none

/-- The operand fields of PUSH OVERRIDE with no unused bit set, and the body they give (R100, R203; log entry 25). -/
def pushBody (k kinds : Byte) (bells muffle : BellSet) (scene dials : Byte) : Option OverrideBody :=
  match kindScopeOf kinds with
  | some ks =>
    if bells.getLsbD 0 = false ∧ muffle.getLsbD 0 = false ∧ dials.toNat < 16 then
      overrideBody k.toNat ks bells muffle scene.toNat (dials.setWidth 4)
    else none
  | none => none

/-- The expiry a duration in minutes gives at a moment: none for 0 (R100). -/
def expiryOf (moment minutes : Nat) : Option Nat := if minutes = 0 then none else some (moment + minutes * 60)

/-- An accepted push (R100, R101). -/
def push (body : OverrideBody) (minutes : Nat) (s : State) : State :=
  let id := nextId s.overrides
  let entries := s.overrides.entries ++ [⟨id, body, expiryOf (stdMoment s.time) minutes⟩]
  setStack entries { s with overrides := { s.overrides with lastId := id } }

/-- PUSH OVERRIDE (R100). -/
def pushOverride (ops : List Byte) (s : State) : Except Code State :=
  match ops with
  | [k, ks, b3, b2, b1, b0, m3, m2, m1, m0, sc, ds, d1, d0] =>
    match pushBody k ks (bellSet b3 b2 b1 b0) (bellSet m3 m2 m1 m0) sc ds with
    | none => .error .badValue
    | some body =>
      if 1440 < u16 d1 d0 then .error .badValue
      else if Config.stackCapacity ≤ s.overrides.entries.length then .error .full
      else .ok (push body (u16 d1 d0) s)
  | _ => .error .shortFrame

/-- POP OVERRIDE (R108). -/
def popOverride (ops : List Byte) (s : State) : Except Code State :=
  match ops with
  | [] => if s.overrides.entries = [] then .error .empty else .ok (setStack s.overrides.entries.dropLast s)
  | _ => .error .shortFrame

/-- DROP OVERRIDE (R108). -/
def dropOverride (ops : List Byte) (s : State) : Except Code State :=
  match ops with
  | [n] =>
    if s.overrides.entries.any fun o => o.id == n.toNat then
      .ok (setStack (s.overrides.entries.filter fun o => o.id != n.toNat) s)
    else .error .badValue
  | _ => .error .shortFrame

/-! ### Expiry (R109) -/

/-- Whether an entry's expiry has come at a standard moment (R109). -/
def expired (moment : Nat) (o : Override) : Bool :=
  match o.expiry with
  | some e => decide (e ≤ moment)
  | none => false

/-- Every entry whose expiry is at or before the standard moment is removed together (R109). -/
def expireOverrides (s : State) : State :=
  if s.overrides.entries.any (expired (stdMoment s.time)) then
    setStack (s.overrides.entries.filter fun o => !expired (stdMoment s.time) o) s
  else s

/-- Every entry that has an expiry is removed, at the end of the range (R109). -/
def expireEvery (s : State) : State :=
  if s.overrides.entries.any fun o => o.expiry.isSome then
    setStack (s.overrides.entries.filter fun o => o.expiry.isNone) s
  else s

/-! ### READ OVERRIDES (R110, R208) -/

/-- The five bytes of a silence (R208). -/
def silenceBytes (x : Silence) : List Byte :=
  match x with
  | .none => 0 :: bellSetBytes 0
  | .bells set => 1 :: bellSetBytes set
  | .all => 2 :: bellSetBytes 0

/-- The 26 bytes of an effective state (R208). -/
def effectiveBytes (e : Effective) : List Byte :=
  silenceBytes e.strike ++ silenceBytes e.tune ++ silenceBytes e.toll ++ silenceBytes e.peal ++ bellSetBytes e.muffle
    ++ [BitVec.ofNat 8 (match e.scene with
        | some sc => sc.val + 1
        | none => 0), e.dials.setWidth 8]

/-- The kind, scopes, set, scene and dials of an entry; the fields that a kind does not use are 0 (R99, R208). -/
def bodyBytes (b : OverrideBody) : List Byte :=
  match b with
  | .silence k bells => [0, kindScopeByte k] ++ bellSetBytes bells ++ bellSetBytes 0 ++ [0, 0]
  | .muffle set => [1, 0] ++ bellSetBytes 0 ++ bellSetBytes set ++ [0, 0]
  | .lights sc => [2, 0] ++ bellSetBytes 0 ++ bellSetBytes 0 ++ [BitVec.ofNat 8 (sc.val + 1), 0]
  | .dialHold ds => [3, 0] ++ bellSetBytes 0 ++ bellSetBytes 0 ++ [0, ds.setWidth 8]

/-- An expiry as a BCD date and time, seven bytes of 00h for none (R204). -/
def expiryBytes (e : Option Nat) : List Byte :=
  match e with
  | some m => momentDateBytes m
  | none => List.replicate 7 0

/-- The 46 bytes of each entry, bottom first, with the summary of those below it (R102, R208). -/
def entriesBytes : Effective → List Override → List Byte
  | _, [] => []
  | below, o :: rest =>
    BitVec.ofNat 8 o.id :: (bodyBytes o.body ++ expiryBytes o.expiry ++ effectiveBytes below)
      ++ entriesBytes (foldOverride below o) rest

/-- The 396 bytes of READ OVERRIDES (R110, R208). -/
def overridesStream (s : State) : List Byte :=
  let es := s.overrides.entries
  [BitVec.ofNat 8 es.length, BitVec.ofNat 8 s.overrides.lastId] ++ effectiveBytes (effective s)
    ++ entriesBytes Effective.clear es ++ List.replicate (46 * (Config.stackCapacity - es.length)) 0

/-! ### Meanings -/

/-- PUSH_OVERRIDE (R100). -/
def execPushOverride (ops : List Byte) (s : State) : Result := change (pushOverride ops s) s

/-- POP_OVERRIDE (R108). -/
def execPopOverride (ops : List Byte) (s : State) : Result := change (popOverride ops s) s

/-- DROP_OVERRIDE (R108). -/
def execDropOverride (ops : List Byte) (s : State) : Result := change (dropOverride ops s) s

/-- READ_OVERRIDES (R110). -/
def execReadOverrides (s : State) : Result := answer (.ok (overridesStream s)) s

/-- OVERRIDE_EXPIRY (R109): nothing when no expiry has come. It is a step of its own after the new second (DESIGN CHOICE, log entry 54). -/
def execOverrideExpiry (s : State) : Result := event expireOverrides s

end Sys2Proof.Machine
end

