-- ==== Sys2Proof/Machine/ResolverOps.lean ====
section
/-! DEFINITION. The resolver's requests, the triggers of both rebuilds, and the installs' shared parts (R66 to R72). -/

namespace Sys2Proof.Machine

/-- The last local date whose tomorrow lies outside the supported range (R70). -/
def lastDay : Nat := Config.endOfRangeDay - 1

/-- Change the resolver. -/
def updResolver (f : Resolver → Resolver) (s : State) : State := { s with resolver := f s.resolver }

/-- Request a today rebuild; discarded while time-valid is clear, and added to nothing when already pending (R67). -/
def requestToday (fromZero : Bool) (s : State) : State :=
  if s.time.valid ∧ s.resolver.todayReq = false then
    updResolver (fun r => { r with todayReq := true, fromZero := fromZero }) s
  else s

/-- Request a standby build; discarded while time-valid is clear or when tomorrow lies outside the range (R67, R70). -/
def requestStandby (s : State) : State :=
  if s.time.valid ∧ s.time.localDate ≠ lastDay then updResolver (fun r => { r with standbyReq := true }) s else s

/-- A FRESH standby becomes STALE; a run that is building it will leave it STALE (R68, R70). -/
def markStale (s : State) : State :=
  { s with
    sheets := { s.sheets with status := if s.sheets.status = .fresh then .stale else s.sheets.status }
    resolver := { s.resolver with run := s.resolver.run.map fun r => { r with triggered := true } } }

/-- A trigger of both rebuilds (R68). -/
def trigger (s : State) : State := requestStandby (requestToday false (markStale s))

/-- Runs of the today rebuild or the standby build are abandoned, and those requests discarded (R71, R72). -/
def abandonBuilds (s : State) : State :=
  updResolver
    (fun r =>
      { r with
        todayReq := false
        fromZero := false
        standbyReq := false
        run :=
          match r.run with
          | some x => if x.kind = .query then some x else none
          | none => none })
    s

/-- Everything the resolver has under way is discarded; the last result is kept (R75). -/
def discardAll (s : State) : State :=
  updResolver (fun r => { r with todayReq := false, fromZero := false, standbyReq := false, query := none, run := none }) s

/-- A record taken back during a run gains no entry from it, whatever the slot holds at the install (R2, R69). -/
def forgetGenerated (i : SlotNo) (s : State) : State :=
  updResolver
    (fun r => { r with run := r.run.map fun x => { x with generated := x.generated.filter fun e => e.key.slot != i } }) s

/-- The missed counts and last outcomes that an install's tallies write: each slot's rise over its old tally (R66, R11). -/
def writeTally (old new : Vector Nat 128) (i : SlotNo) (s : State) : State :=
  if old.get i < new.get i then
    if (getSlot s i).state = .empty then s
    else
      updSlot i
        (fun x => { x with missed := satAdd 255 x.missed (new.get i - old.get i), last := .missed }) s
  else s

/-- The tallies of today's sheet are replaced, and every rise is written into its record (R66). -/
def replaceTallies (new : Vector Nat 128) (s : State) : State :=
  let old := s.sheets.today.tallies
  allSlots.foldl (fun acc i => writeTally old new i acc)
    { s with sheets := { s.sheets with today := { s.sheets.today with tallies := new } } }

/-- The outcomes of SKIPPED entries that join today's sheet are written (R59). -/
def writeSkipped (joined : List Entry) (s : State) : State :=
  (joined.filter fun e => e.state == .skipped).foldl (fun acc e => writeOutcome e.key.slot .skipped (entryDay acc e) acc) s

/-- The generated entries that an install may keep: those whose record is LIVE now, and whose key the sheet does not hold
(R2, R69); those of a record taken back during the run are gone already. -/
def installable (s : State) (kept : List Entry) (generated : List Entry) : List Entry :=
  generated.filter fun e => (getSlot s e.key.slot).state == .live && (findEntry e.key kept).isNone

/-- The entries of a merged sheet in sheet order (R65). -/
def mergeSheet (kept joined : List Entry) : List Entry := sortBy sheetBefore (kept ++ joined)

/-- The standby sheet emptied and MISSING, its tallies 0 (R66, R71, R72). -/
def dropStandby (s : State) : State :=
  { s with sheets := { s.sheets with standby := Sheet.cold, status := .missing } }

/-- Tomorrow's date, which the standby sheet is for (R70, R98). -/
def tomorrow (s : State) : Nat := s.time.localDate + 1

end Sys2Proof.Machine
end

