-- ==== Sys2Proof/Machine/Records.lean ====
section
/-! DEFINITION. The commands of the observance table and the tune locks (chapter 1). -/

namespace Sys2Proof.Machine

/-! ### Protection (R23 to R26) -/

/-- Whether a base range holds a slot (R23). -/
def ProtRange.has (r : ProtRange) (i : SlotNo) : Bool :=
  match r with
  | .none => false
  | .bottom16 => i.val < 16
  | .bottom32 => i.val < 32
  | .bottom64 => i.val < 64
  | .top16 => 112 ≤ i.val
  | .top32 => 96 ≤ i.val
  | .top64 => 64 ≤ i.val
  | .all => true

/-- Whether a slot is protected: in the protected range, or locked under RANGE_AND_LOCKS (R23). -/
def slotProtected (t : Table) (i : SlotNo) : Bool :=
  (t.range.has i != t.complement) || (t.scheme == .rangeAndLocks && (t.slots.get i).locked)

/-- The lock scheme of a code (R25). R203 numbers codes by a defining table and no table lists the schemes: RANGE_ONLY 0 and
RANGE_AND_LOCKS 1, the order in which R25's text names them, is the model's choice (DESIGN CHOICE, log entry 17). -/
def schemeOf (b : Byte) : Option LockScheme :=
  if b = 0 then some .rangeOnly else if b = 1 then some .rangeAndLocks else none

/-- The code of a lock scheme, as `schemeOf` reads it (DESIGN CHOICE, log entry 17). -/
def LockScheme.code : LockScheme → Nat
  | .rangeOnly => 0
  | .rangeAndLocks => 1

/-- The code of a KEY level: OPEN 0, CLOSED 1 (log entry 17). -/
def keyCode : KeyLevel → Byte
  | .opened => 0
  | .closed => 1

/-- A record command's slot operand, with the refusals that come before its own checks (R12). -/
def withSlot {α : Type} (ops : List Byte) (f : SlotNo → Except Code α) : Except Code α :=
  match ops with
  | [b] =>
    match slotOf b with
    | some i => f i
    | none => .error .badSlot
  | _ => .error .shortFrame

/-! ### WRITE, PUBLISH, WITHDRAW, RETIRE (R13, R15 to R20) -/

/-- The image of 32 bytes. -/
def imageOf (bytes : List Byte) : Option Image := if h : bytes.length = 32 then some ⟨bytes.toArray, by simp [h]⟩ else none

/-- An image replaces an EMPTY or DRAFT slot's image, and the slot becomes DRAFT (R13). -/
def writeImage (i : SlotNo) (img : Image) (s : State) : Except Code State :=
  if slotProtected s.table i then .error .protected_
  else
    match (getSlot s i).state with
    | .empty => .ok (updSlot i (fun x => { x with state := .draft, image := img }) s)
    | .draft => .ok (updSlot i (fun x => { x with state := .draft, image := img }) s)
    | .live => .error .wrongState
    | .spent => .error .wrongState

/-- WRITE RECORD (R12, R13). -/
def writeRecord (ops : List Byte) (s : State) : Except Code State :=
  match ops with
  | b :: bytes =>
    match imageOf bytes with
    | none => .error .shortFrame
    | some img =>
      match slotOf b with
      | some i => writeImage i img s
      | none => .error .badSlot
  | [] => .error .shortFrame

/-- Whether every tune a stored image refers to is READY (R17). -/
def tunesReady (s : State) (img : Image) : Bool :=
  (tuneRefs img).all fun n =>
    match tuneOf n with
    | some t => (getTune s t).state == .ready
    | none => false

/-- Whether a ONCE record names a date before the current standard date (R15). -/
def onceBefore (s : State) (img : Image) : Bool :=
  match onceDay img with
  | some d => decide (d < s.time.stdDay)
  | none => false

/-- PUBLISH RECORD's checks on a DRAFT image, and the slot LIVE with both rebuilds triggered (R15 to R17). -/
def publish (i : SlotNo) (s : State) : Except Code State :=
  let img := (getSlot s i).image
  if (recordOf img).isNone ∨ onceBefore s img = true then .error .badValue
  else if tunesReady s img = false then .error .notReady
  else .ok (trigger (updSlot i (fun x => { x with state := .live }) s))

/-- PUBLISH RECORD (R12). -/
def publishRecord (ops : List Byte) (s : State) : Except Code State :=
  withSlot ops fun i =>
    if slotProtected s.table i then .error .protected_
    else
      match (getSlot s i).state with
      | .empty => .error .empty
      | .draft => publish i s
      | .live => .error .wrongState
      | .spent => .error .wrongState

/-- Entries of a slot that are PENDING or DUE leave both sheets (R18, part 1). A standby entry is never ACTIVE; one that were
so would leave too. -/
def removeWaiting (i : SlotNo) (s : State) : State :=
  let stays := fun (e : Entry) => !(e.key.slot == i && (e.state == .pending || e.state == .due))
  updStandby (fun es => es.filter fun e => !(e.key.slot == i && e.state.isOpen)) (updToday (fun es => es.filter stays) s)

/-- The keys of a slot's ACTIVE entries on today's sheet. -/
def activeOf (i : SlotNo) (s : State) : List Key := keysWhere (fun e => e.key.slot == i && e.state == .active) s

/-- The lanes whose entry is of a slot. -/
def lanesOf (i : SlotNo) (s : State) : List Lane :=
  allLanes.filter fun lane =>
    match laneKey s lane with
    | some k => k.slot == i
    | none => false

/-- A slot's ACTIVE entries are cut short in the tower, and the lanes that held them released (R18, R20). -/
def stopSlot (i : SlotNo) (s : State) : State := (lanesOf i s).foldl (fun acc lane => stopLane lane acc) s

/-- A record leaves the lit-record set, and the lighting unit finds its wanted levels anew (R18, R20). -/
def unlight (i : SlotNo) (s : State) : State := setLit (put s.lanes.lit i false) s

/-- WITHDRAW of a LIVE or SPENT slot (R18, R19): waiting entries leave, an ACTIVE one ends CUT_SHORT, and the slot is DRAFT. -/
def withdraw (i : SlotNo) (s : State) : State :=
  let s1 := removeWaiting i s
  let s2 := finaliseAll (activeOf i s1) .cutShort (stopSlot i s1)
  trigger (forgetGenerated i (updSlot i (fun x => { x with state := .draft }) (unlight i s2)))

/-- WITHDRAW RECORD (R12, R18, R19). -/
def withdrawRecord (ops : List Byte) (s : State) : Except Code State :=
  withSlot ops fun i =>
    if slotProtected s.table i then .error .protected_
    else
      match (getSlot s i).state with
      | .empty => .error .empty
      | .draft => .error .wrongState
      | .live => .ok (withdraw i s)
      | .spent => .ok (withdraw i s)

/-- Every entry of a slot leaves both sheets, with what the second still called for of it, and its tallies are 0 (R20, R66, R83). -/
def removeAll (i : SlotNo) (s : State) : State :=
  let clean := fun (sh : Sheet) =>
    ({ sh with entries := sh.entries.filter fun e => e.key.slot != i, tallies := put sh.tallies i 0 } : Sheet)
  { s with
    sheets :=
      { s.sheets with
        today := clean s.sheets.today
        standby := clean s.sheets.standby
        relight := s.sheets.relight.filter fun k => k.slot != i } }

/-- RETIRE of a slot that holds a record: no outcome is written, every entry leaves, and the slot is EMPTY with its lock flag
as it was (R20). -/
def retire (i : SlotNo) (s : State) : State :=
  let s1 := unlight i (removeAll i (stopSlot i s))
  trigger (forgetGenerated i (updSlot i (fun x => { Slot.cold with locked := x.locked }) s1))

/-- RETIRE RECORD (R12, R20). -/
def retireRecord (ops : List Byte) (s : State) : Except Code State :=
  withSlot ops fun i =>
    if slotProtected s.table i then .error .protected_
    else
      match (getSlot s i).state with
      | .empty => .error .empty
      | .draft => .ok (retire i s)
      | .live => .ok (retire i s)
      | .spent => .ok (retire i s)

/-! ### READ and FIND RECORDS (R14, R22) -/

/-- The 41 bytes of READ RECORD (R14, R205). -/
def recordStream (s : State) (i : SlotNo) : List Byte :=
  let x := getSlot s i
  [BitVec.ofNat 8 x.state.code, flagByte (slotProtected s.table i)] ++ x.image.toList ++ dayBytes x.lastDay
    ++ beBytes 2 x.performed ++ beBytes 1 x.missed ++ [BitVec.ofNat 8 x.last.code]

/-- READ RECORD, from its first operand byte (R14, R195). -/
def readRecord (ops : List Byte) (s : State) : Except Code (List Byte) :=
  match ops with
  | b :: _ =>
    match slotOf b with
    | some i => .ok (recordStream s i)
    | none => .error .badSlot
  | [] => .error .shortFrame

/-- One criterion of FIND RECORDS: absent, or given and in range; an error when out of range (R22, R212). -/
def criterion {α : Type} (b : Byte) (parse : Nat → Option α) : Except Code (Option α) :=
  if b = 0xFF then .ok none
  else
    match parse b.toNat with
    | some x => .ok (some x)
    | none => .error .badValue

/-- Whether a slot matches the criteria given (R22). -/
def slotMatches (s : State) (kind : Option Kind) (state : Option SlotState) (tune : Option TuneNo)
    (station : Option Station) (i : SlotNo) : Bool :=
  let x := getSlot s i
  let full := x.state != .empty
  (match kind with
    | some k => full && imgKind x.image == some k
    | none => true)
  && (match state with
    | some st => x.state == st
    | none => full)
  && (match tune with
    | some t => full && refersTune x.image t
    | none => true)
  && (match station with
    | some st => full && refersStation x.image st
    | none => true)

/-- The matches and the continuation of FIND RECORDS: up to 16 slots, then the next start slot, FFh for none (R22). -/
def findStream (found : List SlotNo) : List Byte :=
  let shown := found.take Config.findLimit
  let more :=
    match shown.getLast? with
    | some i => if shown.length = Config.findLimit ∧ i.val < 127 then BitVec.ofNat 8 (i.val + 1) else 0xFF
    | none => 0xFF
  shown.map (fun i => BitVec.ofNat 8 i.val) ++ [more]

/-- FIND RECORDS, from its first five operand bytes (R12, R22). -/
def findRecords (ops : List Byte) (s : State) : Except Code (List Byte) :=
  match ops with
  | b :: k :: st :: t :: bell :: _ => do
    match slotOf b with
    | none => .error .badSlot
    | some start =>
      let kind ← criterion k kindOf
      let state ← criterion st slotStateOf
      let tune ← criterion t tuneOf
      let station ← criterion bell stationOf
      .ok (findStream (allSlots.filter fun i => decide (start ≤ i) && slotMatches s kind state tune station i))
  | _ => .error .shortFrame

/-! ### Protection commands (R24 to R27) -/

/-- Change the protection settings. -/
def updTable (f : Table → Table) (s : State) : State := { s with table := f s.table }

/-- WRITE PROTECTION: the guard held is checked against the key first, then the values (R25). -/
def writeProtection (ops : List Byte) (key : KeyLevel) (s : State) : Except Code State :=
  match ops with
  | [r, c, sch, g] =>
    if s.table.guard = true ∧ key = .closed then .error .protected_
    else
      match protRangeOf r.toNat, flagOf c, schemeOf sch, flagOf g with
      | some range, some compl, some scheme, some guard =>
        .ok (updTable (fun t => { t with range := range, complement := compl, scheme := scheme, guard := guard }) s)
      | _, _, _, _ => .error .badValue
  | _ => .error .shortFrame

/-- The stream of READ PROTECTION (R27): settings, KEY level, slot lock flags, tune lock flags. -/
def protectionStream (s : State) (key : KeyLevel) : List Byte :=
  [BitVec.ofNat 8 s.table.range.code, flagByte s.table.complement, BitVec.ofNat 8 s.table.scheme.code,
    flagByte s.table.guard, keyCode key]
  ++ beBytes 16 (flagsNat (s.table.slots.toList.map Slot.locked))
  ++ beBytes 4 (flagsNat (s.tunes.tunes.toList.map Tune.locked))

/-- Set or clear one slot's lock flag (R24). -/
def lockOne (b : Bool) (ops : List Byte) (s : State) : Except Code State :=
  withSlot ops fun i => .ok (updSlot i (fun x => { x with locked := b }) s)

/-- All slot lock flags set or clear (R24). -/
def lockSlots (b : Bool) (s : State) : State :=
  updTable (fun t => { t with slots := t.slots.map fun x => { x with locked := b } }) s

/-- A change command without operands: its frame is the command byte alone (R194). -/
def noOperands (ops : List Byte) (s : State) : Except Code State :=
  match ops with
  | [] => .ok s
  | _ => .error .shortFrame

/-- All tune lock flags set or clear (R26). -/
def lockTunes (b : Bool) (s : State) : State :=
  { s with tunes := { s.tunes with tunes := s.tunes.tunes.map fun x => { x with locked := b } } }

/-- LOCK TUNE and UNLOCK TUNE: a tune 1..32, or 0 for all (R26). -/
def lockTuneCmd (b : Bool) (ops : List Byte) (s : State) : Except Code State :=
  match ops with
  | [n] =>
    if n = 0 then .ok (lockTunes b s)
    else
      match tuneOf n.toNat with
      | some t => .ok (updTune t (fun x => { x with locked := b }) s)
      | none => .error .badValue
  | _ => .error .shortFrame

/-! ### Meanings -/

/-- WRITE_RECORD (R13). -/
def execWriteRecord (ops : List Byte) (s : State) : Result := change (writeRecord ops s) s

/-- PUBLISH_RECORD (R15 to R17). -/
def execPublishRecord (ops : List Byte) (s : State) : Result := change (publishRecord ops s) s

/-- WITHDRAW_RECORD (R18, R19). -/
def execWithdrawRecord (ops : List Byte) (s : State) : Result := change (withdrawRecord ops s) s

/-- RETIRE_RECORD (R20). -/
def execRetireRecord (ops : List Byte) (s : State) : Result := change (retireRecord ops s) s

/-- READ_RECORD (R14). -/
def execReadRecord (ops : List Byte) (s : State) : Result := answer (readRecord ops s) s

/-- FIND_RECORDS (R22). -/
def execFindRecords (ops : List Byte) (s : State) : Result := answer (findRecords ops s) s

/-- WRITE_PROTECTION (R25): the KEY input is sampled when the frame ends. -/
def execWriteProtection (ops : List Byte) (key : KeyLevel) (s : State) : Result :=
  change (writeProtection ops key (sampleKey key s)) (sampleKey key s)

/-- READ_PROTECTION (R27). -/
def execReadProtection (key : KeyLevel) (s : State) : Result :=
  answer (.ok (protectionStream s key)) (sampleKey key s)

/-- LOCK_SLOT (R24). -/
def execLockSlot (ops : List Byte) (s : State) : Result := change (lockOne true ops s) s

/-- UNLOCK_SLOT (R24). -/
def execUnlockSlot (ops : List Byte) (s : State) : Result := change (lockOne false ops s) s

/-- LOCK_ALL (R24). -/
def execLockAll (ops : List Byte) (s : State) : Result := change (noOperands ops (lockSlots true s)) s

/-- UNLOCK_ALL (R24). -/
def execUnlockAll (ops : List Byte) (s : State) : Result := change (noOperands ops (lockSlots false s)) s

/-- LOCK_TUNE (R26). -/
def execLockTune (ops : List Byte) (s : State) : Result := change (lockTuneCmd true ops s) s

/-- UNLOCK_TUNE (R26). -/
def execUnlockTune (ops : List Byte) (s : State) : Result := change (lockTuneCmd false ops s) s

end Sys2Proof.Machine
end

