-- ==== Sys2Proof/Machine/TimeOps.lean ====
section
/-! DEFINITION. How time passes and how it steps: the end of a second, the summer change, the day change, the end of the
range, and the announcement of a step (R29 to R34, R40, R45, R71, R72, R92, R93, R96). -/

namespace Sys2Proof.Machine

/-- Change the time base. -/
def updTime (f : TimeBase → TimeBase) (s : State) : State := { s with time := f s.time }

/-! ### Steps (R40) -/

/-- The keys of the ACTIVE QUIET entries. -/
def quietKeys (s : State) : List Key := (activeQuiet s).map Entry.key

/-- Both sheets emptied, their tallies 0, and the standby MISSING (R72). -/
def emptySheets (s : State) : State :=
  { s with sheets := { today := Sheet.cold, standby := Sheet.cold, status := .missing, relight := [], standbyTime := false } }

/-- What a step into another date does to the old today's sheet: the lanes are released and the outcomes written with the old date,
which is still held. The check of R21 takes the new date, and so comes after it (R72, R40). -/
def endOldSheet (forward : Bool) (s : State) : State :=
  let s1 := concludeAll (allLanes.filterMap (laneKey s) ++ quietKeys s) .cutShort (releaseLanes s)
  if forward then concludeAll (keysWhere (fun e => e.state.isOpen) s1) .missed s1 else s1

/-- What the blocks other than the sheets do at every step: expiries are compared, dials evaluated, TIME_STEPPED set (R40,
R109, R172). -/
def stepTail (s : State) : State := setFlag .timeStepped (evaluateAll (expireOverrides s))

/-- A step into another date: the old sheet ends, both sheets are emptied, ONCE records are checked against the new date, and rebuilds
are requested if time-valid is set (R72, R21). -/
def stepToDate (forward : Bool) (new : TimeBase) (s : State) : State :=
  let s1 := abandonBuilds (emptySheets { endOldSheet forward s with time := new })
  stepTail (recomputeLit (requestStandby (requestToday false (spentCheckAll s1))))

/-- What a forward step within the day does to the entries it jumps over, from instant a (R92). -/
def jumpForward (a : Nat) (s : State) : State :=
  let ended := fun (e : Entry) => e.kind == .quiet && e.state == .active && decide (e.endInstant.getD 0 ≤ s.time.instant)
  let s1 := finaliseAll (keysWhere ended s) .done s
  let jumped := fun (e : Entry) => e.state == .pending && decide (a < e.instant) && decide (e.instant < s.time.instant)
  let s2 := finaliseAll (keysWhere jumped s1) .missed s1
  let late := fun (e : Entry) => e.state == .due && graceOver s2 e
  fallDueNow (finaliseAll (keysWhere late s2) .missed s2)

/-- A step within the day, from instant a: forward it misses what it jumps over, else no entry changes; the lit-record set
is recomputed and both rebuilds are triggered (R68, R92, R93). -/
def stepWithin (a : Nat) (new : TimeBase) (s : State) : State :=
  let s1 := { s with time := new, sheets := { s.sheets with relight := [], standbyTime := false } }
  stepTail (trigger (recomputeLit (if a < new.instant then jumpForward a s1 else s1)))

/-- The time base as the end of the range leaves it (R45). -/
def rangeEndTime (t : TimeBase) : TimeBase :=
  derive { t with stdDay := 0, stdSec := 0, fraction := 0, slew := 0, candidate := none, valid := false, ref := .free }

/-- The end of the supported range: a step back to 2000-01-01 with time-valid clear, and every override that has an expiry
removed (R45, R109). -/
def endRange (s : State) : State := expireEvery (stepToDate false (rangeEndTime s.time) s)

/-- A time base with the zone offset, the summer settings and the waiting message of another. -/
def keepSettings (t old : TimeBase) : TimeBase :=
  { old with
    zone := t.zone
    summerEnable := t.summerEnable
    startRule := t.startRule
    endRule := t.endRule
    waiting := t.waiting }

/-- The time base takes a step to a standard moment and settings: everything derived is derived anew, and the step is
announced (R40). A step that would carry the local date past the range ends the range (R45; log entry 32). -/
def takeStep (new : TimeBase) (s : State) : State :=
  let t := derive new
  if Config.endOfRangeDay ≤ t.localDate then endRange (updTime (keepSettings t) s)
  else if t.localDate = s.time.localDate then stepWithin s.time.instant t s
  else stepToDate (decide (s.time.localDate < t.localDate)) t s

/-! ### The end of a second (R29, R33) -/

/-- The length of a second in ms under a slew remainder (R29). -/
def secondLength (slew : Int) : Nat := (1000 - max (-10) (min slew 10)).toNat

/-- The slew remainder after a second has ended (R29). -/
def slewAfter (slew : Int) : Int := slew - max (-10) (min slew 10)

/-- The summer state at a new second: changed at the rule moments of the year only (R33). -/
def summerNext (t : TimeBase) : Bool :=
  if t.summerEnable = false then t.summer
  else if stdMoment t = ruleMoment (yearOf t.stdDay) t.startRule then true
  else if stdMoment t = ruleMoment (yearOf t.stdDay) t.endRule then false
  else t.summer

/-- The counters of the time base one second on, before the day change is looked at (R29, R33, R39). -/
def advance (t : TimeBase) : TimeBase :=
  let midnight := decide (86399 ≤ t.stdSec)
  let u :=
    { t with
      stdDay := if midnight then t.stdDay + 1 else t.stdDay
      stdSec := if midnight then 0 else t.stdSec + 1
      fraction := 0
      slew := slewAfter t.slew
      refTimer := if t.ref = RefState.free then t.refTimer else t.refTimer + 1
      instant := t.instant + 1 }
  { u with summer := summerNext u }

/-- Whether the second that is running ends the supported range (R45). -/
def rangeEnds (t : TimeBase) : Bool :=
  decide (Config.endOfRangeDay ≤ (advance t).stdDay)
    || (decide (t.dayLength ≤ t.instant + 1) && decide (lastDay ≤ t.localDate))

/-- Whether the second that is running ends the local day (R34). -/
def dayEnds (t : TimeBase) : Bool := decide (t.dayLength ≤ t.instant + 1) && !rangeEnds t

/-- Whether the second that is running ends at a moment that changes the summer state (R33). -/
def summerTurns (t : TimeBase) : Bool := (advance t).summer != t.summer

/-! ### The day change (R34, R71, R96) -/

/-- The ACTIVE entries of the lanes, which the day change carries (R96). -/
def carriedEntries (s : State) : List Entry :=
  s.sheets.today.entries.filter fun e => e.state == .active && e.kind.sounding

/-- A carried entry as it joins the new sheet: instant 0, carried, its sub-index increased by 128 (R71; log entry 13). -/
def asCarried (e : Entry) : Entry :=
  { e with instant := 0, carried := true, key := ⟨e.key.slot, if e.carried then e.key.sub else e.key.sub + 128⟩ }

/-- The lane of an entry holds it under the key it has as a carried entry. -/
def rekeyLane (e : Entry) (s : State) : State :=
  match laneOf e.kind with
  | some lane => if laneKey s lane = some e.key then setLane lane (some (asCarried e).key) s else s
  | none => s

/-- Room for a carried entry on a full sheet: the first PENDING entry in drop order leaves, and counts in its slot's tally
(R71; log entry 14); SHEET_FULL is not set. -/
def makeRoom (sh : Sheet) : Sheet :=
  if sh.entries.length < Config.sheetCapacity then sh
  else
    match sortBy dropBefore (sh.entries.filter fun e => e.state == .pending) with
    | [] => sh
    | e :: _ =>
      { entries := sh.entries.filter fun x => x.key != e.key
        tallies := modify sh.tallies e.key.slot fun n => satAdd 255 n 1 }

/-- A carried entry joins today's sheet at instant 0 (R71). -/
def joinCarried (e : Entry) (s : State) : State :=
  let room := makeRoom s.sheets.today
  rekeyLane e
    { s with
      sheets := { s.sheets with today := { room with entries := mergeSheet room.entries [asCarried e] } } }

/-- The ending day's sheet is finished (R96, parts 1, 2 and 4). An entry whose instant is the day length falls due here, in the day
change (R55; log entry 42). -/
def finishDay (s : State) : State :=
  let s0 := fallDueNow s
  let s1 := finaliseAll (quietKeys s0) .done s0
  let s2 := finaliseAll (keysWhere (fun e => e.state == .due) s1) .missed s1
  setLit (Vector.replicate 128 false) s2

/-- The new day's counters (R34). -/
def newDay (t : TimeBase) : TimeBase :=
  { t with localDate := t.localDate + 1, instant := 0, dayLength := dayLengthOf t (t.localDate + 1) }

/-- Today's sheet for the new date: the FRESH standby with its SKIPPED outcomes and then its tallies' rises written, or an empty
sheet and a rebuild from 0 (R71; log entry 41). -/
def installDay (s : State) : State :=
  if s.sheets.status = .fresh then
    let sh := s.sheets.standby
    let s1 := { s with sheets := { s.sheets with today := ⟨sh.entries, Vector.replicate 128 0⟩ } }
    replaceTallies sh.tallies (writeSkipped sh.entries s1)
  else requestToday true { s with sheets := { s.sheets with today := Sheet.cold } }

/-- The day change (R34, R71, R96, R21). -/
def dayChange (s : State) : State :=
  let s1 := finishDay s
  let carried := carriedEntries s1
  let s2 := abandonBuilds { s1 with time := newDay s1.time, sheets := { s1.sheets with relight := [], standbyTime := false } }
  let s3 := carried.foldl (fun acc e => joinCarried e acc) (installDay s2)
  let s4 := recomputeLit (fallDueNow s3)
  spentCheckAll (requestStandby (dropStandby s4))

/-! ### One second (R29) -/

/-- The final LIGHT entries whose instant is the present one: their effect is applied again (R83; log entry 36). -/
def reached (s : State) : List Key :=
  keysWhere
    (fun e => e.kind == .light && (e.state == .done || e.state == .missed) && decide (e.instant = s.time.instant)) s

/-- What the sheets and the resolver note of a new instant (R70, R83; log entry 36). -/
def noteInstant (s : State) : State :=
  { s with
    sheets :=
      { s.sheets with
        relight := s.sheets.relight ++ reached s
        standbyTime := s.sheets.standbyTime || decide (s.time.instant + 60 = s.time.dayLength) } }

/-- The rest of the second passes, and it ends: the counters go on, and the summer change, the day change or the end of the
range comes with it where it is due (R29, R33, R34, R45). But for the day change and the end of the range, overrides whose expiry the new
second reaches are left to OVERRIDE_EXPIRY, a step of its own, so that a frame taken between the two finds them still on the stack (DESIGN
CHOICE, log entry 54). -/
def endSecond (s : State) : State :=
  let s0 := { s with elapsed := s.elapsed + (secondLength s.time.slew - s.time.fraction) }
  if rangeEnds s.time then endRange s0
  else
    let s1 := { s0 with time := advance s.time }
    let s2 := if dayEnds s.time then dayChange (expireOverrides s1) else noteInstant s1
    if summerTurns s.time then evaluateAll s2 else s2

end Sys2Proof.Machine
end

