-- ==== Sys2Proof/Machine/Power.lean ====
section
/-! DEFINITION. Attention and status commands, the panel reset, mains loss and return, and power (chapter 11). -/

namespace Sys2Proof.Machine

/-! ### Attention and status (R197 to R199) -/

/-- CLEAR ATTENTION (R198). -/
def clearAttention (ops : List Byte) (s : State) : Except Code State :=
  match ops with
  | [a, b] => if a.getLsbD 7 then .error .badValue else .ok (clearFlags ((a ++ b).setWidth 15) s)
  | _ => .error .shortFrame

/-- The attention unit with new enables (R199). -/
def withEnables (flags : BitVec 15) (normal abnormal : Bool) (a : Attn) : Attn :=
  { a with enables := flags, normalEnable := normal, abnormalEnable := abnormal }

/-- WRITE ATTENTION ENABLES (R199, R212). -/
def writeAttentionEnables (ops : List Byte) (s : State) : Except Code State :=
  match ops with
  | [g, a, b] =>
    if 4 ≤ g.toNat ∨ a.getLsbD 7 = true then .error .badValue
    else .ok { s with attn := withEnables ((a ++ b).setWidth 15) (g.getLsbD 0) (g.getLsbD 1) s.attn }
  | _ => .error .shortFrame

/-- Whether the resolver is busy: a run in progress or a request pending (R67). -/
def resolverBusy (r : Resolver) : Bool := r.run.isSome || r.todayReq || r.standbyReq || r.query.isSome

/-- The enables as their three bytes (R212). -/
def enableBytes (a : Attn) : List Byte :=
  beBytes 3 (a.enables.toNat + 65536 * a.normalEnable.toNat + 131072 * a.abnormalEnable.toNat)

/-- The stream of READ STATUS; ATTN is driven low while asserted (R197, R199; log entry 17). -/
def statusStream (s : State) : List Byte :=
  [BitVec.ofNat 8 s.port.lastCode.value, flagByte (resolverBusy s.resolver), flagByte s.time.valid,
    BitVec.ofNat 8 s.time.ref.code, BitVec.ofNat 8 s.mains.code, BitVec.ofNat 8 s.line.state.code]
  ++ beBytes 2 s.attn.flags.toNat ++ enableBytes s.attn ++ [flagByte (!attnAsserted s.attn)]

/-- The stream of READ IDENTITY: vendor 5543h, part 0416h, revision 02h (R197). -/
def identityStream : List Byte := [0x55, 0x43, 0x04, 0x16, 0x02]

/-! ### Panel reset (R200) -/

/-- Every attention flag cleared (R200). -/
def clearAllFlags (s : State) : State := { s with attn := { s.attn with flags := 0 } }

/-- The time base at a panel reset: the message being assembled, the waiting message and the candidate are discarded (R46). -/
def timePanelReset (s : State) : State :=
  updTime (fun t => { t with assembling := [], waiting := none, candidate := none }) s

/-- The waiting list is emptied (R191). -/
def emptyWaiting (s : State) : State := setLights { s.lights with waiting := [] } s

/-- The port at a panel reset: any frame in progress is discarded, and the last refusal code is NONE (R193, R200). -/
def portReset (s : State) : State := { s with port := ⟨.none, []⟩, portFrame := none }

/-- A panel reset: port and flags first, then each block by its own rule (R200; log entry 27). -/
def panelReset (openCircuits : DialSet) (s : State) : State :=
  let s1 := timePanelReset (lockTunes true (lockSlots true (clearAllFlags (portReset s))))
  let s2 := bellsResetFirst (linePanelReset (sampleCircuits openCircuits s1))
  let s3 := emptyWaiting (bellsResetLower (cutAllLanes s2))
  bellsResetAsk (trigger (discardAll (dialsPanelReset s3)))

/-! ### Mains (R201) -/

/-- The zones at mains loss: every present level becomes 0 (R191). -/
def lightsOut (s : State) : State :=
  setLights { s.lights with zones := s.lights.zones.map fun z => { z with present := 0 } } s

/-- The MAINS_OK level and the mains state the monitor holds (R201). -/
def setMains (high : Bool) (m : MainsState) (s : State) : State :=
  { s with mains := m, pins := { s.pins with mainsHigh := high } }

/-- Mains loss is announced (R201: R94, R135, R167, R180, R191; log entry 27). -/
def mainsLoss (s : State) : State :=
  lightsOut (dialsMainsLoss (lineMainsLoss (bellsMainsLoss (cutAllLanes (setFlag .mainsLost (setMains false .absent s))))))

/-- The lights at warm start: wanted levels, waiting list, restoration (R191), from the present levels held, which after a loss
announced are 0 (log entry 45). -/
def lightsWarmStart (s : State) : State := loadFreed (findWanted s)

/-- Mains return is announced (R201: R95, R136, R167, R180, R191; log entry 27). DESIGN CHOICE: the lanes' look for an entry, which R95 has
come with the return, is the next step, LANE_TAKES_ENTRY (R85; log entry 51). -/
def mainsBack (openCircuits : DialSet) (s : State) : State :=
  let s1 := sampleCircuits openCircuits (setFlag .mainsBack (setMains true .present s))
  settlePeal (lightsWarmStart (dialsWarmStart (bellsWarmStart (lineWarmStart s1))))

/-! ### Power (R202) -/

/-- The time base at a power-up with the latch set, before the step is announced (R202). -/
def powerUpTime (t : TimeBase) : TimeBase := derive { t with valid := false, ref := .free, slew := 0 }

/-- What the monitor announces at a power-up with the latch set (R202). -/
def powerUpMains (mainsHigh : Bool) (openCircuits : DialSet) (s : State) : State :=
  if mainsHigh then mainsBack openCircuits s
  else if s.mains = .present then mainsLoss s
  else setMains false .absent s

/-- A power-up with the latch set: panel reset, time-valid cleared with a forward step into another date, then the mains state
(R202). -/
def powerUpHeld (mainsHigh : Bool) (openCircuits : DialSet) (s : State) : State :=
  let s1 := panelReset openCircuits { s with power := .running }
  powerUpMains mainsHigh openCircuits (stepToDate true (powerUpTime s1.time) s1)

/-- A cold start: every block at its cold-start values, the mains state from MAINS_OK (R202). -/
def coldStarted (mainsHigh : Bool) (s : State) : State :=
  State.cold mainsHigh s.elapsed { s.pins with mainsHigh := mainsHigh } s.pending

/-- The RESET pin's level. -/
def setResetPin (high : Bool) (s : State) : State := { s with pins := { s.pins with resetHigh := high } }

/-! ### Meanings -/

/-- CLEAR_ATTENTION (R198). -/
def execClearAttention (ops : List Byte) (s : State) : Result := change (clearAttention ops s) s

/-- WRITE_ATTENTION_ENABLES (R199). -/
def execWriteAttentionEnables (ops : List Byte) (s : State) : Result := change (writeAttentionEnables ops s) s

/-- READ_STATUS (R197): it reports the last refusal code and leaves it as it was (R196). -/
def execReadStatus (s : State) : Result :=
  if portServed s then .next { s with port := ⟨s.port.lastCode, statusStream s⟩ } else .next s

/-- READ_IDENTITY (R197). -/
def execReadIdentity (s : State) : Result := answer (.ok identityStream) s

/-- RESET (R200). -/
def execReset (ops : List Byte) (openCircuits : DialSet) (s : State) : Result :=
  change (noOperands ops (panelReset openCircuits s)) s

/-- UNKNOWN_COMMAND_FRAME (R194): refused with UNKNOWN_COMMAND; the rest of the frame is ignored. -/
def execUnknownCommandFrame (_code : Byte) (_ops : List Byte) (s : State) : Result := change (.error .unknownCommand) s

/-- RESET_PIN (R200): a panel reset when the pin goes low; a pin already low takes no further one. -/
def execResetPin (openCircuits : DialSet) (s : State) : Result :=
  if running s && s.pins.resetHigh then .next (panelReset openCircuits (setResetPin false s))
  else .next (setResetPin false s)

/-- RESET_PIN_RELEASED (R200): the pin is high again. -/
def execResetPinReleased (s : State) : Result := .next (setResetPin true s)

/-- COLD_START (R202): on a part that is unpowered with its latch clear. -/
def execColdStart (mainsHigh : Bool) (s : State) : Result :=
  if !running s && !s.latch then .next (coldStarted mainsHigh s) else .next s

/-- POWER_UP_BACKUP_HELD (R202): on a part that is unpowered with its latch set. -/
def execPowerUpBackupHeld (mainsHigh : Bool) (openCircuits : DialSet) (s : State) : Result :=
  if !running s && s.latch then .next (powerUpHeld mainsHigh openCircuits s) else .next s

/-- PART_UNPOWERED (R202): the logic stops; the backup domain stands. -/
def execPartUnpowered (s : State) : Result := .next { s with power := .unpowered }

/-- BACKUP_RETENTION_LOST (R202): the latch is cleared. -/
def execBackupRetentionLost (s : State) : Result := .next { s with latch := false }

/-- MAINS_LOST (R201): nothing where the state is ABSENT already. -/
def execMainsLost (s : State) : Result := event (fun t => if t.mains = .present then mainsLoss t else t) s

/-- MAINS_RETURN (R201): nothing where the state is PRESENT already. -/
def execMainsReturn (openCircuits : DialSet) (s : State) : Result :=
  event (fun t => if t.mains = .absent then mainsBack openCircuits t else t) s

end Sys2Proof.Machine
end

