-- ==== Sys2Proof/Machine/Resolver.lean ====
section
/-! DEFINITION. The commands and runs of the day resolver, and READ SHEET (chapter 3, R98). -/

namespace Sys2Proof.Machine

/-! ### Calendar settings and queries (R53, R56, R73, R74) -/

/-- Change the calendar settings. -/
def updCalendar (f : Calendar → Calendar) (s : State) : State := { s with calendar := f s.calendar }

/-- WRITE SUNDAY RANK (R53). -/
def writeSundayRank (ops : List Byte) (s : State) : Except Code State :=
  match ops with
  | [r] =>
    if 15 < r.toNat then .error .badValue
    else if r.toNat = s.calendar.sundayRank then .ok s
    else .ok (trigger (updCalendar (fun c => { c with sundayRank := r.toNat }) s))
  | _ => .error .shortFrame

/-- WRITE TWILIGHT (R56). -/
def writeTwilight (ops : List Byte) (s : State) : Except Code State :=
  match ops with
  | [p, a1, a0, b1, b0] =>
    if h : p.toNat < 24 then
      if u16 a1 a0 ≤ 1439 ∧ u16 b1 b0 ≤ 1439 then
        .ok (trigger (updCalendar (fun c => { c with twilight := put c.twilight ⟨p.toNat, h⟩ (u16 a1 a0, u16 b1 b0) }) s))
      else .error .badValue
    else .error .badValue
  | _ => .error .shortFrame

/-- The stream of READ CALENDAR SETTINGS (R53). -/
def calendarStream (c : Calendar) : List Byte :=
  BitVec.ofNat 8 c.sundayRank :: c.twilight.toList.flatMap fun p => beBytes 2 p.1 ++ beBytes 2 p.2

/-- QUERY DAY (R73). -/
def queryDay (ops : List Byte) (s : State) : Except Code State :=
  match ops with
  | [c, y, m, d] =>
    match bcdDate c y m d with
    | none => .error .badValue
    | some day =>
      if s.resolver.query.isSome then .error .busy else .ok (updResolver (fun r => { r with query := some day }) s)
  | _ => .error .shortFrame

/-- The fields of a result, as READ QUERY RESULT streams them (R209). -/
def resultBytes (r : QueryResult) : List Byte :=
  beBytes 3 r.day
    ++ [BitVec.ofNat 8 r.weekday, toBcd r.easterMonth, toBcd r.easterDay, BitVec.ofNat 8 r.rank,
      (match r.feast with
        | some i => BitVec.ofNat 8 i.val
        | none => 0xFF),
      BitVec.ofNat 8 r.feastName, flagByte r.summerNoon]
    ++ beBytes 2 r.dawn ++ beBytes 2 r.dusk ++ beBytes 3 r.dayLength ++ beBytes 1 r.applying

/-- The 19 bytes of READ QUERY RESULT; every field is 0 before the first result (R74, R209). -/
def queryStream (s : State) : List Byte :=
  BitVec.ofNat 8 (s.resolver.query.isSome.toNat + 2 * s.resolver.result.isSome.toNat)
    :: (match s.resolver.result with
        | some r => resultBytes r
        | none => List.replicate 18 0)

/-- The result record of a date, from the settings and the table as they stand (R73). -/
def queryResult (s : State) (D : Nat) : QueryResult :=
  let plan := dayPlan s.time s.calendar.twilight D
  let feast := governingFeast s.table.slots D
  { day := D
    weekday := weekday D
    easterMonth := (easterDate (yearOf D)).1
    easterDay := (easterDate (yearOf D)).2
    rank := governingRank s.table.slots s.calendar.sundayRank D
    feast := feast.map Prod.fst
    feastName :=
      match feast with
      | some p => imgNat (getSlot s p.1).image 22
      | none => 0
    summerNoon := summerAt s.time (D * 86400 + 43200)
    dawn := twilightSecond plan.dawn 0 / 60
    dusk := twilightSecond plan.dusk 0 / 60
    dayLength := plan.length
    applying := (applyingRecords s.table.slots s.calendar.sundayRank D).length }

/-! ### READ SHEET (R98, R207) -/

/-- The code of the lane that holds an entry: none 0, CHIME 1, TOLL 2, PEAL 3 (R207). -/
def laneCode (s : State) (k : Key) : Nat :=
  if s.lanes.chime = some k then 1 else if s.lanes.toll = some k then 2 else if s.lanes.peal = some k then 3 else 0

/-- The 12 bytes of an entry, with the lane that holds it (R207). -/
def entryBytes (e : Entry) (lane : Nat) : List Byte :=
  beBytes 3 e.instant ++ beBytes 3 (e.endInstant.getD 0)
    ++ [BitVec.ofNat 8 e.key.slot.val, BitVec.ofNat 8 e.key.sub, BitVec.ofNat 8 e.kind.code, BitVec.ofNat 8 e.rank,
      BitVec.ofNat 8 e.state.code, BitVec.ofNat 8 (e.carried.toNat + 2 * lane)]

/-- The head and entries of a sheet as read (R98, R207). -/
def sheetBytes (date status : Nat) (entries : List Entry) (index : Nat) (lane : Entry → Nat) : List Byte :=
  let shown := (entries.drop index).take Config.readSheetLimit
  beBytes 3 date ++ [BitVec.ofNat 8 status] ++ beBytes 2 entries.length
    ++ shown.flatMap (fun e => entryBytes e (lane e))
    ++ List.replicate (12 * (Config.readSheetLimit - shown.length)) 0

/-- The status codes of the standby sheet: MISSING 1, FRESH 2, STALE 3 (R207). -/
def StandbyStatus.code : StandbyStatus → Nat
  | .missing => 1
  | .fresh => 2
  | .stale => 3

/-- READ SHEET, from its first two operand bytes (R98). -/
def readSheet (ops : List Byte) (s : State) : Except Code (List Byte) :=
  match ops with
  | sel :: i :: _ =>
    if sel = 0 then
      .ok (sheetBytes s.time.localDate 0 s.sheets.today.entries i.toNat
        fun e => if e.state = .active then laneCode s e.key else 0)
    else if sel = 1 then
      .ok (sheetBytes (tomorrow s) s.sheets.status.code s.sheets.standby.entries i.toNat fun _ => 0)
    else .error .badValue
  | _ => .error .shortFrame

/-! ### Runs (R67, R69, R70, R73) -/

/-- The kind of run that the engine starts when it is free: today rebuild, standby build, day query (R67). -/
def nextRun (r : Resolver) : Option RunKind :=
  if r.run.isSome then none
  else if r.todayReq then some .today
  else if r.standbyReq then some .standby
  else if r.query.isSome then some .query
  else none

/-- The first instant a today rebuild resolves from: the present one, or 0 where the day change asked for it (R69, R71). -/
def firstInstant (s : State) : Nat := if s.resolver.fromZero then 0 else s.time.instant

/-- A run of a kind starts: its request is taken, and a build generates its entries from the table and settings as they
stand (R67; log entry 11). -/
def startRun (kind : RunKind) (s : State) : State :=
  let gen := fun D F => generate s.time s.calendar s.table.slots D F
  match kind with
  | .today =>
    updResolver
      (fun r =>
        { r with
          todayReq := false
          fromZero := false
          run := some ⟨.today, s.time.localDate, gen s.time.localDate (firstInstant s), false, s.elapsed⟩ })
      s
  | .standby =>
    updResolver
      (fun r =>
        { r with standbyReq := false, run := some ⟨.standby, tomorrow s, gen (tomorrow s) 0, false, s.elapsed⟩ })
      s
  | .query =>
    updResolver (fun r => { r with run := some ⟨.query, r.query.getD 0, [], false, s.elapsed⟩ }) s

/-- The engine is free again. -/
def endRun (s : State) : State := updResolver (fun r => { r with run := none }) s

/-- The run in progress, where it is of a kind. -/
def runOf (kind : RunKind) (s : State) : Option Run :=
  match s.resolver.run with
  | some r => if r.kind = kind then some r else none
  | none => none

/-- The install of a today rebuild (R66, R69, R84): SKIPPED outcomes are written first, then the tallies' rises, then what falls
due (log entry 41). -/
def installToday (generated : List Entry) (s : State) : State :=
  let kept := s.sheets.today.entries.filter fun e => e.state != .pending
  let split := dropTo (Config.sheetCapacity - kept.length) (installable s kept generated)
  let s1 := updToday (fun _ => mergeSheet kept split.2) s
  let s2 := replaceTallies (tallyOf split.1) (writeSkipped split.2 s1)
  let s3 := setFlagIf (!split.1.isEmpty) .sheetFull (setFlag .sheetInstalled s2)
  recomputeLit (fallDueNow s3)

/-- The install of a standby build (R66, R70). -/
def installStandby (generated : List Entry) (triggered : Bool) (s : State) : State :=
  let split := dropTo Config.sheetCapacity (installable s [] generated)
  let sheet : Sheet := ⟨mergeSheet [] split.2, tallyOf split.1⟩
  setFlagIf (!split.1.isEmpty) .sheetFull
    (setFlag .sheetInstalled
      { s with sheets := { s.sheets with standby := sheet, status := if triggered then .stale else .fresh } })

/-- The completion of a query run: its result is written, and QUERY_DONE is set (R73). -/
def completeQuery (D : Nat) (s : State) : State :=
  setFlag .queryDone (updResolver (fun r => { r with query := none, result := some (queryResult s D) }) s)

/-! ### Meanings -/

/-- WRITE_SUNDAY_RANK (R53). -/
def execWriteSundayRank (ops : List Byte) (s : State) : Result := change (writeSundayRank ops s) s

/-- READ_CALENDAR_SETTINGS (R53). -/
def execReadCalendarSettings (s : State) : Result := answer (.ok (calendarStream s.calendar)) s

/-- WRITE_TWILIGHT (R56). -/
def execWriteTwilight (ops : List Byte) (s : State) : Result := change (writeTwilight ops s) s

/-- QUERY_DAY (R73). -/
def execQueryDay (ops : List Byte) (s : State) : Result := change (queryDay ops s) s

/-- READ_QUERY_RESULT (R74). -/
def execReadQueryResult (s : State) : Result := answer (.ok (queryStream s)) s

/-- READ_SHEET (R98). -/
def execReadSheet (ops : List Byte) (s : State) : Result := answer (readSheet ops s) s

/-- STANDBY_BUILD_TIME (R70): the instant reached day length - 60; nothing at another time (log entry 36). -/
def execStandbyBuildTime (s : State) : Result :=
  event
    (fun t =>
      if t.sheets.standbyTime then requestStandby { t with sheets := { t.sheets with standbyTime := false } } else t)
    s

/-- RESOLVER_RUN_START (R67): nothing while a run is in progress or no request is pending. -/
def execResolverRunStart (s : State) : Result :=
  event
    (fun t =>
      match nextRun t.resolver with
      | some kind => startRun kind t
      | none => t)
    s

/-- TODAY_REBUILD_INSTALL (R69): nothing unless a today rebuild is in progress. -/
def execTodayRebuildInstall (s : State) : Result :=
  event
    (fun t =>
      match runOf .today t with
      | some r => installToday r.generated (endRun t)
      | none => t)
    s

/-- STANDBY_BUILD_INSTALL (R70): nothing unless a standby build is in progress. -/
def execStandbyBuildInstall (s : State) : Result :=
  event
    (fun t =>
      match runOf .standby t with
      | some r => installStandby r.generated r.triggered (endRun t)
      | none => t)
    s

/-- QUERY_RUN_COMPLETE (R73): nothing unless a query run is in progress. -/
def execQueryRunComplete (s : State) : Result :=
  event
    (fun t =>
      match runOf .query t with
      | some r => completeQuery r.date (endRun t)
      | none => t)
    s

end Sys2Proof.Machine
end

