-- ==== Sys2Proof/Machine/Time.lean ====
section
/-! DEFINITION. The commands and events of the time base (chapter 2), and the day change and summer change it announces. -/

namespace Sys2Proof.Machine

/-! ### SET TIME and ADJUST TIME (R41, R42) -/

/-- The time base set to a standard moment by the host (R41). -/
def hostSet (day sec : Nat) (t : TimeBase) : TimeBase :=
  { t with stdDay := day, stdSec := sec, fraction := 0, slew := 0, candidate := none, valid := true }

/-- SET TIME (R41). -/
def setTime (ops : List Byte) (s : State) : Except Code State :=
  match ops with
  | [c, y, mo, d, h, mi, se] =>
    if s.time.ref = .locked then .error .wrongState
    else
      match bcdDate c y mo d, bcdTime h mi se with
      | some day, some sec => .ok (takeStep (hostSet day sec s.time) s)
      | _, _ => .error .badValue
  | _ => .error .shortFrame

/-- Whether ADJUST TIME accepts an amount (R42). -/
def adjustOk (slew amount : Int) : Bool :=
  decide (amount ≠ 0) && decide (-60000 ≤ amount) && decide (amount ≤ 60000) && decide (-600000 ≤ slew + amount)
    && decide (slew + amount ≤ 600000)

/-- ADJUST TIME (R42). -/
def adjustTime (ops : List Byte) (s : State) : Except Code State :=
  match ops with
  | [a, b, c] =>
    if s.time.ref = .locked then .error .wrongState
    else if adjustOk s.time.slew (s24 a b c) then
      .ok (updTime (fun t => { t with slew := t.slew + s24 a b c }) s)
    else .error .badValue
  | _ => .error .shortFrame

/-! ### WRITE TIME SETTINGS (R43) -/

/-- A summer rule of four bytes, none where R43 refuses it; the month and the hour are binary (log entry 15). -/
def ruleOf (month nth wd hour : Byte) (hourLimit : Nat) : Option SummerRule :=
  if 1 ≤ month.toNat ∧ month.toNat ≤ 12 ∧ 1 ≤ nth.toNat ∧ nth.toNat ≤ 5 ∧ wd.toNat ≤ 6 ∧ hour.toNat ≤ hourLimit then
    some ⟨month.toNat, nth.toNat, wd.toNat, hour.toNat⟩
  else none

/-- Whether a zone offset is in its range (R43). -/
def zoneOk (zone : Int) : Bool := decide (-720 ≤ zone) && decide (zone ≤ 840) && zone % 15 == 0

/-- The standard moment moved by the new offset less the old, so that UTC is kept (R43). -/
def movedMoment (t : TimeBase) (zone : Int) : Int := (stdMoment t : Int) + (zone - t.zone) * 60

/-- The seconds of the supported range (R28). -/
def rangeSeconds : Int := (Config.endOfRangeDay * 86400 : Nat)

/-- A waiting message under a new zone offset: its reference standard moment moves with the local one, so that its pair finds
no error from the change; one that leaves the supported range is no more (R35, R43; log entry 40). -/
def movedMessage (change : Int) (w : WaitingMessage) : Option WaitingMessage :=
  let m := (w.moment : Int) + change * 60
  if 0 ≤ m ∧ m < rangeSeconds then some { w with moment := m.toNat } else none

/-- The settings replaced, with the standard moment and the waiting message moved by the offset change (R43). -/
def withSettings (zone : Int) (enable : Bool) (r1 r2 : SummerRule) (t : TimeBase) : TimeBase :=
  let m := (movedMoment t zone).toNat
  { t with
    stdDay := m / 86400
    stdSec := m % 86400
    waiting := t.waiting.bind (movedMessage (zone - t.zone))
    zone := zone
    summerEnable := enable
    startRule := r1
    endRule := r2 }

/-- Whether four settings are those held (R43). -/
def sameSettings (t : TimeBase) (zone : Int) (enable : Bool) (r1 r2 : SummerRule) : Bool :=
  t.zone == zone && t.summerEnable == enable && t.startRule == r1 && t.endRule == r2

/-- The settings pass the checks of R43. -/
def settingsOk (t : TimeBase) (zone : Int) (r1 r2 : SummerRule) : Bool :=
  zoneOk zone && r1.month != r2.month && decide (0 ≤ movedMoment t zone) && decide (movedMoment t zone < rangeSeconds)

/-- WRITE TIME SETTINGS (R43). -/
def writeTimeSettings (ops : List Byte) (s : State) : Except Code State :=
  match ops with
  | [z1, z0, en, m1, n1, w1, h1, m2, n2, w2, h2] =>
    let zone := s16 z1 z0
    match flagOf en, ruleOf m1 n1 w1 h1 23, ruleOf m2 n2 w2 h2 22 with
    | some enable, some r1, some r2 =>
      if settingsOk s.time zone r1 r2 = false then .error .badValue
      else if sameSettings s.time zone enable r1 r2 then .ok s
      else .ok (takeStep (withSettings zone enable r1 r2 s.time) s)
    | _, _, _ => .error .badValue
  | _ => .error .shortFrame

/-! ### READ TIME and READ TIME SETTINGS (R44) -/

/-- The stream of READ TIME (R44). -/
def timeStream (t : TimeBase) : List Byte :=
  momentDateBytes (stdMoment t) ++ momentDateBytes (wallMoment t) ++ [flagByte t.summer] ++ beBytes 3 t.instant
    ++ beBytes 3 t.dayLength ++ [BitVec.ofNat 8 t.ref.code, flagByte t.valid] ++ signedBytes 3 t.slew

/-- The four bytes of a summer rule. -/
def ruleBytes (r : SummerRule) : List Byte :=
  [BitVec.ofNat 8 r.month, BitVec.ofNat 8 r.nth, BitVec.ofNat 8 r.weekday, BitVec.ofNat 8 r.hour]

/-- The stream of READ TIME SETTINGS (R44). -/
def settingsStream (t : TimeBase) : List Byte :=
  signedBytes 2 t.zone ++ [flagByte t.summerEnable] ++ ruleBytes t.startRule ++ ruleBytes t.endRule

/-! ### The time receiver (R35 to R38) -/

/-- The day number of a UTC date that passes R35's check; the offset can bring dates of 1999 and 2400 into the range, and
no others. -/
def utcDay (y m d : Nat) : Option Int :=
  if 1 ≤ m ∧ m ≤ 12 ∧ 1 ≤ d ∧ d ≤ monthLength y m then
    if y = 1999 then some ((dayOfYear 1999 m d : Int) - 366)
    else if 2000 ≤ y ∧ y ≤ 2400 then some (dayNumber y m d : Int)
    else none
  else none

/-- The reference standard moment of a UTC date and time, where it lies in the range (R35). -/
def referenceMoment (zone : Int) (day : Int) (sec : Nat) : Option Nat :=
  let m := day * 86400 + sec + zone * 60
  if 0 ≤ m ∧ m < rangeSeconds then some m.toNat else none

/-- The reference standard moment of a completed message, none where R35 ignores it. -/
def messageMoment (zone : Int) (bytes : List Byte) : Option Nat :=
  match bytes with
  | [b0, y1, y0, mo, d, h, mi, se, st, sum] => do
    let c ← bcd y1
    let yy ← bcd y0
    let m ← bcd mo
    let dd ← bcd d
    let sec ← bcdTime h mi se
    let day ← utcDay (c * 100 + yy) m dd
    if b0 + y1 + y0 + mo + d + h + mi + se + st + sum = 0 ∧ st.getLsbD 0 = true then referenceMoment zone day sec else none
  | _ => none

/-- A completed message is checked; one that passes becomes the waiting message (R35). -/
def completeMessage (bytes : List Byte) (s : State) : State :=
  match messageMoment s.time.zone bytes with
  | some m => updTime (fun t => { t with waiting := some ⟨m, s.elapsed⟩ }) s
  | none => s

/-- Whether REF_DATA has been idle for at least 20 ms; before its first byte it is (R35; log entry 39). -/
def receiverIdle (s : State) : Bool :=
  match s.time.lastByte with
  | some m => decide (m + Config.receiverIdle ≤ s.elapsed)
  | none => true

/-- Whether a message in progress has had a gap of more than 20 ms before its tenth byte (R35). -/
def messageGap (s : State) : Bool :=
  match s.time.lastByte with
  | some m => !s.time.assembling.isEmpty && decide (m + Config.receiverIdle < s.elapsed)
  | none => false

/-- The message that arriving bytes belong to, as assembled before them: the one in progress, or a new one on an idle line; none
where they follow a message without an idle gap (R35). -/
def messageBefore (s : State) : Option (List Byte) :=
  if s.time.assembling ≠ [] ∧ messageGap s = false then some s.time.assembling
  else if receiverIdle s then some [] else none

/-- A message in progress holds these bytes, the last of which has just come (R35). -/
def assemble (got : List Byte) (s : State) : State :=
  updTime (fun t => { t with assembling := got, lastByte := some s.elapsed }) s

/-- Bytes arrive on REF_DATA with no gap between them: those that begin no message are discarded, a first byte other than 7Eh
abandons, the tenth completes, and what follows it is discarded (R35). -/
def receiveBytes (bytes : List Byte) (s : State) : State :=
  if bytes = [] then s
  else
    match messageBefore s with
    | none => assemble [] s
    | some before =>
      let got := before ++ bytes
      if got.head? ≠ some 0x7E then assemble [] s
      else if got.length < 10 then assemble got s
      else completeMessage (got.take 10) (assemble [] s)

/-- The message in progress is abandoned: by a gap, or else by a byte that comes now with a framing error or as a first byte other
than 7Eh (R35; log entry 39). -/
def abandonMessage (s : State) : State :=
  if messageGap s then updTime (fun t => { t with assembling := [] }) s else assemble [] s

/-- The error of a pair in ms: the reference standard moment less the local standard moment at the edge (R36). -/
def pairError (t : TimeBase) (m : Nat) : Int := (m : Int) * 1000 - ((stdMoment t : Int) * 1000 + t.fraction)

/-- An accepted pair (R37). -/
def acceptPair (e : Int) (t : TimeBase) : TimeBase :=
  { t with
    slew := e
    candidate := none
    refTimer := 0
    ref := if -50 ≤ e ∧ e ≤ 50 then .locked else t.ref }

/-- The time base set to the reference at a reference step (R38). -/
def referenceSet (m : Nat) (t : TimeBase) : TimeBase :=
  { t with
    stdDay := m / 86400
    stdSec := m % 86400
    fraction := 0
    slew := 0
    candidate := none
    valid := true
    ref := .locked
    refTimer := 0 }

/-- Whether an error is within 50 ms of the outlier candidate (R38). -/
def agrees (e : Int) (candidate : Option Int) : Bool :=
  match candidate with
  | some c => decide (-50 ≤ e - c) && decide (e - c ≤ 50)
  | none => false

/-- An outlying pair: a reference step where it agrees with the candidate, else the new candidate (R38). -/
def outlyingPair (m : Nat) (e : Int) (s : State) : State :=
  if agrees e s.time.candidate then takeStep (referenceSet m s.time) s
  else updTime (fun t => { t with candidate := some e }) s

/-- A valid pair (R37, R38). -/
def takePair (m : Nat) (s : State) : State :=
  let e := pairError s.time m
  if s.time.valid = true ∧ -2000 ≤ e ∧ e ≤ 2000 then updTime (acceptPair e) s else outlyingPair m e s

/-- The waiting message is no more. -/
def dropWaiting (s : State) : State := updTime (fun t => { t with waiting := none }) s

/-- A rising edge on REF_PULSE (R36). -/
def pulse (s : State) : State :=
  match s.time.waiting with
  | none => s
  | some w => if s.elapsed ≤ w.received + Config.messageLife then takePair w.moment (dropWaiting s) else dropWaiting s

/-- Whether 1,100 ms have passed since the waiting message's last byte (R36). -/
def messageOld (s : State) : Bool :=
  match s.time.waiting with
  | some w => decide (w.received + Config.messageLife ≤ s.elapsed)
  | none => false

/-- Whether 120 s have passed in LOCKED without an accepted pair (R39). -/
def lockLost (t : TimeBase) : Bool := t.ref == .locked && decide (Config.lockLife ≤ t.refTimer)

/-- Whether 24 hours have passed in HOLDOVER (R39). -/
def holdoverOver (t : TimeBase) : Bool := t.ref == .holdover && decide (Config.holdoverLife ≤ t.refTimer)

/-! ### Meanings -/

/-- SET_TIME (R41). -/
def execSetTime (ops : List Byte) (s : State) : Result := change (setTime ops s) s

/-- ADJUST_TIME (R42). -/
def execAdjustTime (ops : List Byte) (s : State) : Result := change (adjustTime ops s) s

/-- WRITE_TIME_SETTINGS (R43). -/
def execWriteTimeSettings (ops : List Byte) (s : State) : Result := change (writeTimeSettings ops s) s

/-- READ_TIME (R44). -/
def execReadTime (s : State) : Result := answer (.ok (timeStream s.time)) s

/-- READ_TIME_SETTINGS (R44). -/
def execReadTimeSettings (s : State) : Result := answer (.ok (settingsStream s.time)) s

/-- NEW_SECOND (R29): the second that is running ends (log entry 6). -/
def execNewSecond (s : State) : Result := event endSecond s

/-- SUMMER_CHANGE (R33): the second ends at a rule moment; nothing where it does not (log entry 6). -/
def execSummerChange (s : State) : Result := event (fun t => if summerTurns t.time then endSecond t else t) s

/-- DAY_CHANGE (R34): the second ends the local day; nothing where it does not (log entry 6). -/
def execDayChange (s : State) : Result := event (fun t => if dayEnds t.time then endSecond t else t) s

/-- END_OF_RANGE (R45): the second ends the supported range; nothing where it does not (log entry 6). -/
def execEndOfRange (s : State) : Result := event (fun t => if rangeEnds t.time then endSecond t else t) s

/-- REFERENCE_MESSAGE (R35). -/
def execReferenceMessage (bytes : List Byte) (s : State) : Result := event (receiveBytes bytes) s

/-- REFERENCE_MESSAGE_ABANDONED (R35): the message in progress is abandoned. -/
def execReferenceMessageAbandoned (s : State) : Result := event abandonMessage s

/-- WAITING_MESSAGE_EXPIRY (R36). -/
def execWaitingMessageExpiry (s : State) : Result := event (fun t => if messageOld t then dropWaiting t else t) s

/-- REFERENCE_PULSE (R36 to R38). -/
def execReferencePulse (s : State) : Result := event pulse s

/-- REFERENCE_LOST (R39): LOCKED gives way to HOLDOVER, the timer restarts, and REFERENCE_LOST is set. -/
def execReferenceLost (s : State) : Result :=
  event
    (fun t =>
      if lockLost t.time then setFlag .referenceLost (updTime (fun x => { x with ref := .holdover, refTimer := 0 }) t) else t)
    s

/-- HOLDOVER_EXPIRY (R39): HOLDOVER gives way to FREE. -/
def execHoldoverExpiry (s : State) : Result :=
  event (fun t => if holdoverOver t.time then updTime (fun x => { x with ref := .free }) t else t) s

end Sys2Proof.Machine
end

