-- ==== Sys2Proof/Machine/Tunes.lean ====
section
/-! DEFINITION. The tune store: its commands, its check, the player and the strike train (chapter 7). -/

namespace Sys2Proof.Machine

/-! ### Commands on tunes (R139 to R145) -/

/-- Whether a LIVE record refers to a tune (R9). -/
def tuneInUse (s : State) (t : TuneNo) : Bool :=
  allSlots.any fun i => (getSlot s i).state == .live && refersTune (getSlot s i).image t

/-- Checks 1 to 3 of R139 for a command that changes a tune, then the command's own. -/
def withTune (n : Nat) (s : State) (f : TuneNo → Except Code State) : Except Code State :=
  match tuneOf n with
  | none => .error .badValue
  | some t =>
    if (getTune s t).locked then .error .protected_
    else if (getTune s t).state = .checking then .error .wrongState
    else f t

/-- Whether a run of notes is free of a tune's run (R137). -/
def runClear (start length : Nat) (x : Tune) : Bool :=
  x.state == .empty || decide (start + length ≤ x.first) || decide (x.first + x.length ≤ start)

/-- Whether a run fits at a note, with the run of tune t counted as free (R140). -/
def runFits (s : State) (t : TuneNo) (length start : Nat) : Bool :=
  decide (start + length ≤ Config.noteCapacity)
    && (List.finRange 32).all fun u => u == t || runClear start length (getTune s u)

/-- The lowest note at which a run fits: note 0, or the end of another tune's run (R140). -/
def firstFit (s : State) (t : TuneNo) (length : Nat) : Option Nat :=
  (0 :: (List.finRange 32).map fun u => (getTune s u).first + (getTune s u).length).foldl
    (fun best n =>
      if runFits s t length n then
        match best with
        | none => some n
        | some b => some (min b n)
      else best)
    none

/-- A tick that OPEN TUNE accepts (R140). -/
def tickOk (tick : Nat) : Bool := decide (40 ≤ tick) && decide (tick ≤ 1000) && tick % 10 == 0

/-- The notes of a run replaced from a note on. -/
def setNotes (first : Nat) (notes : List Note) (s : State) : State :=
  { s with tunes := { s.tunes with notes := writeNotesAt s.tunes.notes first notes } }

/-- A tune prepared to receive notes (R140). -/
def openedTune (first length tick : Nat) (x : Tune) : Tune :=
  { x with
    state := .loading
    first := first
    length := length
    tick := tick
    expected := 0
    computed := 0
    plays := 0
    skipped := 0 }

/-- OPEN TUNE (R139, R140). -/
def openTune (ops : List Byte) (s : State) : Except Code State :=
  match ops with
  | [n, l1, l0, k1, k0] =>
    withTune n.toNat s fun t =>
      let length := u16 l1 l0
      if tuneInUse s t then .error .inUse
      else if length < 1 ∨ 512 < length ∨ tickOk (u16 k1 k0) = false then .error .badValue
      else
        match firstFit s t length with
        | none => .error .full
        | some first =>
          .ok (setNotes first (List.replicate length restNote) (updTune t (openedTune first length (u16 k1 k0)) s))
  | _ => .error .shortFrame

/-- The notes of a list of bytes, two each (R206). -/
def notesOf : List Byte → List Note
  | a :: b :: rest => (a, b) :: notesOf rest
  | _ => []

/-- The framing check of WRITE NOTES: 4 + 2 × count bytes; a count outside 1..32 passes (R194). -/
def notesFramed (count : Nat) (data : List Byte) : Bool :=
  decide (count < 1) || decide (32 < count) || data.length == 2 * count

/-- The operands of WRITE NOTES pass check 6 (R141). -/
def notesOk (x : Tune) (offset count : Nat) (notes : List Note) : Bool :=
  decide (1 ≤ count) && decide (count ≤ 32) && decide (offset + count ≤ x.length) && notes.all validNote

/-- A tune in LOADING takes notes or a CLOSE; in another state it refuses them (R141, R142). -/
def whileLoading (s : State) (t : TuneNo) (r : Except Code State) : Except Code State :=
  match (getTune s t).state with
  | .loading => r
  | .empty => .error .empty
  | .checking => .error .wrongState
  | .ready => .error .wrongState
  | .bad => .error .wrongState

/-- WRITE NOTES (R139, R141; log entry 26). -/
def writeNotes (ops : List Byte) (s : State) : Except Code State :=
  match ops with
  | b :: o :: c :: data =>
    if notesFramed c.toNat data = false then .error .shortFrame
    else if b.getLsbD 6 then .error .badValue
    else
      withTune (b.toNat % 64) s fun t =>
        let offset := b.toNat / 128 * 256 + o.toNat
        whileLoading s t
          (if notesOk (getTune s t) offset c.toNat (notesOf data) then
            .ok (setNotes ((getTune s t).first + offset) (notesOf data) s)
          else .error .badValue)
  | _ => .error .shortFrame

/-- CLOSE TUNE (R142). -/
def closeTune (ops : List Byte) (s : State) : Except Code State :=
  match ops with
  | [n, c1, c0] =>
    withTune n.toNat s fun t =>
      whileLoading s t
        (.ok (updTune t (fun x => { x with state := .checking, expected := u16 c1 c0, closedAt := s.elapsed }) s))
  | _ => .error .shortFrame

/-- CLEAR TUNE (R144). -/
def clearTune (ops : List Byte) (s : State) : Except Code State :=
  match ops with
  | [n] =>
    withTune n.toNat s fun t =>
      if (getTune s t).state = .empty then .error .empty
      else if tuneInUse s t then .error .inUse
      else .ok (updTune t (fun x => { Tune.cold with locked := x.locked }) s)
  | _ => .error .shortFrame

/-- Whether a tune is being played for the CHIME lane (R145, R146). -/
def tunePlaying (s : State) (t : TuneNo) : Bool :=
  match s.tunes.player with
  | some p => p.tune == some t
  | none => false

/-- The stream of READ TUNE (R145). -/
def tuneStream (s : State) (t : TuneNo) : List Byte :=
  let x := getTune s t
  [BitVec.ofNat 8 x.state.code] ++ beBytes 2 x.first ++ beBytes 2 x.length ++ beBytes 2 x.tick ++ beBytes 2 x.expected
    ++ beBytes 2 x.computed ++ beBytes 2 x.plays ++ beBytes 2 x.skipped
    ++ [flagByte x.locked, flagByte (tuneInUse s t), flagByte (tunePlaying s t)]

/-- A tune that a read names: in range, and not CHECKING (R139, R145). -/
def readableTune (n : Nat) (s : State) : Except Code TuneNo :=
  match tuneOf n with
  | none => .error .badValue
  | some t => if (getTune s t).state = .checking then .error .wrongState else .ok t

/-- READ TUNE, from its first operand byte (R145). -/
def readTune (ops : List Byte) (s : State) : Except Code (List Byte) :=
  match ops with
  | n :: _ =>
    match readableTune n.toNat s with
    | .ok t => .ok (tuneStream s t)
    | .error c => .error c
  | [] => .error .shortFrame

/-- READ NOTES, from its first three operand bytes (R145). -/
def readNotes (ops : List Byte) (s : State) : Except Code (List Byte) :=
  match ops with
  | n :: o1 :: o0 :: _ =>
    match readableTune n.toNat s with
    | .error c => .error c
    | .ok t =>
      let x := getTune s t
      if x.state = .empty then .error .empty
      else if x.length ≤ u16 o1 o0 then .error .badValue
      else .ok (noteBytes (runNotes s.tunes.notes (x.first + u16 o1 o0) (x.length - u16 o1 o0)))
  | _ => .error .shortFrame

/-! ### The check (R143) -/

/-- The check value of a tune's run (R143). -/
def checkOf (s : State) (t : TuneNo) : Nat :=
  (crc (noteBytes (runNotes s.tunes.notes (getTune s t).first (getTune s t).length))).toNat

/-- A check completes: the tune is READY where the check is the expected one, else BAD (R143). -/
def completeCheck (t : TuneNo) (s : State) : State :=
  let c := checkOf s t
  if c = (getTune s t).expected then
    setFlag .tuneChecked (updTune t (fun x => { x with state := .ready, computed := c }) s)
  else setFlag .tuneBad (updTune t (fun x => { x with state := .bad, computed := c }) s)

/-! ### Playing (R146, R147) -/

/-- The note the player is at, while its tune has one (R146). -/
def presentNote (s : State) (p : Player) : Option (TuneNo × Note) :=
  match p.tune with
  | none => none
  | some t =>
    if p.notePos < (getTune s t).length then some (t, readNote s.tunes.notes ((getTune s t).first + p.notePos)) else none

/-- A sounded note is a stroke request with its own deadline: skipped, or due at once (R117, R146). -/
def soundNote (t : TuneNo) (st : Station) (x : Strength) (deadline serial : Nat) (s0 : State) : State :=
  let s := serveFirst st s0
  if noteSkipped s st then updTune t (fun y => { y with skipped := min 512 (y.skipped + 1) }) s
  else strokeDue st x deadline (.note serial) s

/-- The player acts on the note it is at, and its next note starts when this one's duration ends (R146). -/
def playNote (t : TuneNo) (x : Note) (p : Player) (s : State) : State :=
  let q := { p with notePos := p.notePos + 1, noteAt := p.noteAt + noteTicks x * (getTune s t).tick }
  let s1 := setPlayer (some q) s
  match stationOf (noteStation x) with
  | none => s1
  | some st => soundNote t st (strengthOf (noteStrength x)) (p.noteAt + Config.strokeDeadline) p.serial s1

/-- A note starts (R146). -/
def noteStarts (s : State) : State :=
  match s.tunes.player with
  | none => s
  | some p =>
    match presentNote s p with
    | none => s
    | some (t, x) => if p.noteAt ≤ s.elapsed then playNote t x p s else s

/-- What follows a play's end: the next play, the pause and the hour count of a train, or the end of the entry (R147, R148,
R150). The pause is an effective interval as it stands at the end of the tune's play (R149; log entry 44). -/
def afterPlay (t : TuneNo) (p : Player) (s : State) : State :=
  if p.playNo < p.playsAsked then
    startPlay t (setPlayer (some { p with playNo := p.playNo + 1, notePos := 0, playStart := p.noteAt }) s)
  else if p.train = true ∧ 0 < p.strokes then
    setPlayer (some { p with tune := none, strokeAt := some (p.noteAt + effectiveInterval s p.hourBell p.interval) }) s
  else endLane .chime .done (setPlayer none s)

/-- A play ends: the tune's plays count rises (R146). -/
def playEnds (s : State) : State :=
  match s.tunes.player with
  | none => s
  | some p =>
    match p.tune with
    | none => s
    | some t =>
      if (getTune s t).length ≤ p.notePos ∧ p.noteAt ≤ s.elapsed then
        afterPlay t p (updTune t (fun x => { x with plays := satAdd 65535 x.plays 1 }) s)
      else s

/-- The train requests its next hour stroke, FULL, and times the one after it from this request (R149). -/
def hourStroke (s : State) : State :=
  match s.tunes.player with
  | none => s
  | some p =>
    match p.strokeAt with
    | none => s
    | some m =>
      if m ≤ s.elapsed then
        let next :=
          if p.requested + 1 < p.strokes then some (s.elapsed + effectiveInterval s p.hourBell p.interval) else none
        requestStroke p.hourBell .full (.hour p.serial)
          (setPlayer (some { p with requested := p.requested + 1, strokeAt := next }) s)
      else s

/-- Whether a bell's first deferred stroke is due (R116). -/
def deferredDue (s : State) (st : Station) : Bool :=
  !(getBell s st).deferred.isEmpty && decide ((getBell s st).nextFree ≤ s.elapsed)

/-! ### Meanings -/

/-- OPEN_TUNE (R140). -/
def execOpenTune (ops : List Byte) (s : State) : Result := change (openTune ops s) s

/-- WRITE_NOTES (R141). -/
def execWriteNotes (ops : List Byte) (s : State) : Result := change (writeNotes ops s) s

/-- CLOSE_TUNE (R142). -/
def execCloseTune (ops : List Byte) (s : State) : Result := change (closeTune ops s) s

/-- CLEAR_TUNE (R144). -/
def execClearTune (ops : List Byte) (s : State) : Result := change (clearTune ops s) s

/-- READ_TUNE (R145). -/
def execReadTune (ops : List Byte) (s : State) : Result := answer (readTune ops s) s

/-- READ_NOTES (R145). -/
def execReadNotes (ops : List Byte) (s : State) : Result := answer (readNotes ops s) s

/-- TUNE_CHECK_COMPLETE (R143): nothing for a tune that is not CHECKING (log entry 10). -/
def execTuneCheckComplete (t : TuneNo) (s : State) : Result :=
  event (fun u => if (getTune u t).state = .checking then completeCheck t u else u) s

/-- TUNE_NOTE (R146): nothing while no note's start is reached. -/
def execTuneNote (s : State) : Result := event noteStarts s

/-- TUNE_PLAY_END (R146, R147): nothing while no play has reached its end. -/
def execTunePlayEnd (s : State) : Result := event playEnds s

/-- HOUR_STROKE_REQUEST (R149): nothing while no hour stroke is called for. -/
def execHourStrokeRequest (s : State) : Result := event hourStroke s

/-- DEFERRED_STROKE_DUE (R116): the bell's first deferred stroke becomes due; nothing before its next free moment. -/
def execDeferredStrokeDue (st : Station) (s : State) : Result :=
  event (fun t => if deferredDue t st then serveDeferred 1 st t else t) s

end Sys2Proof.Machine
end

