-- ==== Sys2Proof/Machine/Dispatch.lean ====
section
/-! DEFINITION. One arm per command: the meaning of the row it stands for. -/

namespace Sys2Proof.Machine

def exec (i : Instr) (s : State) : Host.Outcome State Fault Refusal :=
  match i with
  | .writeRecord ops => Sys2Proof.Machine.execWriteRecord ops s
  | .publishRecord ops => Sys2Proof.Machine.execPublishRecord ops s
  | .withdrawRecord ops => Sys2Proof.Machine.execWithdrawRecord ops s
  | .retireRecord ops => Sys2Proof.Machine.execRetireRecord ops s
  | .readRecord ops => Sys2Proof.Machine.execReadRecord ops s
  | .findRecords ops => Sys2Proof.Machine.execFindRecords ops s
  | .writeProtection ops key => Sys2Proof.Machine.execWriteProtection ops key s
  | .readProtection key => Sys2Proof.Machine.execReadProtection key s
  | .lockSlot ops => Sys2Proof.Machine.execLockSlot ops s
  | .unlockSlot ops => Sys2Proof.Machine.execUnlockSlot ops s
  | .lockAll ops => Sys2Proof.Machine.execLockAll ops s
  | .unlockAll ops => Sys2Proof.Machine.execUnlockAll ops s
  | .lockTune ops => Sys2Proof.Machine.execLockTune ops s
  | .unlockTune ops => Sys2Proof.Machine.execUnlockTune ops s
  | .setTime ops => Sys2Proof.Machine.execSetTime ops s
  | .adjustTime ops => Sys2Proof.Machine.execAdjustTime ops s
  | .writeTimeSettings ops => Sys2Proof.Machine.execWriteTimeSettings ops s
  | .readTime => Sys2Proof.Machine.execReadTime s
  | .readTimeSettings => Sys2Proof.Machine.execReadTimeSettings s
  | .writeSundayRank ops => Sys2Proof.Machine.execWriteSundayRank ops s
  | .readCalendarSettings => Sys2Proof.Machine.execReadCalendarSettings s
  | .writeTwilight ops => Sys2Proof.Machine.execWriteTwilight ops s
  | .queryDay ops => Sys2Proof.Machine.execQueryDay ops s
  | .readQueryResult => Sys2Proof.Machine.execReadQueryResult s
  | .readSheet ops => Sys2Proof.Machine.execReadSheet ops s
  | .pushOverride ops => Sys2Proof.Machine.execPushOverride ops s
  | .popOverride ops => Sys2Proof.Machine.execPopOverride ops s
  | .dropOverride ops => Sys2Proof.Machine.execDropOverride ops s
  | .readOverrides => Sys2Proof.Machine.execReadOverrides s
  | .writeBell ops => Sys2Proof.Machine.execWriteBell ops s
  | .freeBell ops => Sys2Proof.Machine.execFreeBell ops s
  | .readBell ops => Sys2Proof.Machine.execReadBell ops s
  | .openTune ops => Sys2Proof.Machine.execOpenTune ops s
  | .writeNotes ops => Sys2Proof.Machine.execWriteNotes ops s
  | .closeTune ops => Sys2Proof.Machine.execCloseTune ops s
  | .clearTune ops => Sys2Proof.Machine.execClearTune ops s
  | .readTune ops => Sys2Proof.Machine.execReadTune ops s
  | .readNotes ops => Sys2Proof.Machine.execReadNotes ops s
  | .clearLine ops => Sys2Proof.Machine.execClearLine ops s
  | .writeLineSettings ops => Sys2Proof.Machine.execWriteLineSettings ops s
  | .readLine => Sys2Proof.Machine.execReadLine s
  | .writeDial ops circuitOpen => Sys2Proof.Machine.execWriteDial ops circuitOpen s
  | .setDialHands ops => Sys2Proof.Machine.execSetDialHands ops s
  | .readDial ops contactClosed => Sys2Proof.Machine.execReadDial ops contactClosed s
  | .writeZone ops => Sys2Proof.Machine.execWriteZone ops s
  | .writeScene ops => Sys2Proof.Machine.execWriteScene ops s
  | .setAllowance ops => Sys2Proof.Machine.execSetAllowance ops s
  | .readLighting ops => Sys2Proof.Machine.execReadLighting ops s
  | .clearAttention ops => Sys2Proof.Machine.execClearAttention ops s
  | .writeAttentionEnables ops => Sys2Proof.Machine.execWriteAttentionEnables ops s
  | .readStatus => Sys2Proof.Machine.execReadStatus s
  | .readIdentity => Sys2Proof.Machine.execReadIdentity s
  | .reset ops openCircuits => Sys2Proof.Machine.execReset ops openCircuits s
  | .unknownCommandFrame code ops => Sys2Proof.Machine.execUnknownCommandFrame code ops s
  | .resetPin openCircuits => Sys2Proof.Machine.execResetPin openCircuits s
  | .coldStart mainsHigh => Sys2Proof.Machine.execColdStart mainsHigh s
  | .powerUpBackupHeld mainsHigh openCircuits => Sys2Proof.Machine.execPowerUpBackupHeld mainsHigh openCircuits s
  | .mainsLost => Sys2Proof.Machine.execMainsLost s
  | .mainsReturn openCircuits => Sys2Proof.Machine.execMainsReturn openCircuits s
  | .newSecond => Sys2Proof.Machine.execNewSecond s
  | .summerChange => Sys2Proof.Machine.execSummerChange s
  | .dayChange => Sys2Proof.Machine.execDayChange s
  | .endOfRange => Sys2Proof.Machine.execEndOfRange s
  | .standbyBuildTime => Sys2Proof.Machine.execStandbyBuildTime s
  | .referenceMessage bytes => Sys2Proof.Machine.execReferenceMessage bytes s
  | .waitingMessageExpiry => Sys2Proof.Machine.execWaitingMessageExpiry s
  | .referencePulse => Sys2Proof.Machine.execReferencePulse s
  | .referenceLost => Sys2Proof.Machine.execReferenceLost s
  | .holdoverExpiry => Sys2Proof.Machine.execHoldoverExpiry s
  | .resolverRunStart => Sys2Proof.Machine.execResolverRunStart s
  | .todayRebuildInstall => Sys2Proof.Machine.execTodayRebuildInstall s
  | .standbyBuildInstall => Sys2Proof.Machine.execStandbyBuildInstall s
  | .queryRunComplete => Sys2Proof.Machine.execQueryRunComplete s
  | .entryFallsDue => Sys2Proof.Machine.execEntryFallsDue s
  | .quietPeriodEnd => Sys2Proof.Machine.execQuietPeriodEnd s
  | .graceExpiry => Sys2Proof.Machine.execGraceExpiry s
  | .laneTakesEntry lane => Sys2Proof.Machine.execLaneTakesEntry lane s
  | .tollStrokeRequest => Sys2Proof.Machine.execTollStrokeRequest s
  | .tuneNote => Sys2Proof.Machine.execTuneNote s
  | .tunePlayEnd => Sys2Proof.Machine.execTunePlayEnd s
  | .hourStrokeRequest => Sys2Proof.Machine.execHourStrokeRequest s
  | .deferredStrokeDue station => Sys2Proof.Machine.execDeferredStrokeDue station s
  | .tuneCheckComplete tune => Sys2Proof.Machine.execTuneCheckComplete tune s
  | .overrideExpiry => Sys2Proof.Machine.execOverrideExpiry s
  | .raiseTimeout station => Sys2Proof.Machine.execRaiseTimeout station s
  | .lowerTimeout station => Sys2Proof.Machine.execLowerTimeout station s
  | .bellPoll station => Sys2Proof.Machine.execBellPoll station s
  | .ringingLimit station => Sys2Proof.Machine.execRingingLimit station s
  | .pealRaisingTimeout => Sys2Proof.Machine.execPealRaisingTimeout s
  | .pealRingingEnd => Sys2Proof.Machine.execPealRingingEnd s
  | .owedOrderOffered => Sys2Proof.Machine.execOwedOrderOffered s
  | .waitingRequestAdmitted station => Sys2Proof.Machine.execWaitingRequestAdmitted station s
  | .orderFrameStart lckHigh ldaHigh => Sys2Proof.Machine.execOrderFrameStart lckHigh ldaHigh s
  | .orderAttemptEnd answer => Sys2Proof.Machine.execOrderAttemptEnd answer s
  | .arbitrationLost winner => Sys2Proof.Machine.execArbitrationLost winner s
  | .foreignStart address => Sys2Proof.Machine.execForeignStart address s
  | .observedFrameStop rest orderAcknowledged => Sys2Proof.Machine.execObservedFrameStop rest orderAcknowledged s
  | .claim set => Sys2Proof.Machine.execClaim set s
  | .release set => Sys2Proof.Machine.execRelease set s
  | .releaseAll => Sys2Proof.Machine.execReleaseAll s
  | .busError => Sys2Proof.Machine.execBusError s
  | .forcedAccess => Sys2Proof.Machine.execForcedAccess s
  | .recoveryPulsesDone freed => Sys2Proof.Machine.execRecoveryPulsesDone freed s
  | .clockStuck => Sys2Proof.Machine.execClockStuck s
  | .recoveryAttemptEnd result => Sys2Proof.Machine.execRecoveryAttemptEnd result s
  | .targetChange => Sys2Proof.Machine.execTargetChange s
  | .impulseStart dial => Sys2Proof.Machine.execImpulseStart dial s
  | .impulseEnd dial circuitOpen => Sys2Proof.Machine.execImpulseEnd dial circuitOpen s
  | .syncClosure dial => Sys2Proof.Machine.execSyncClosure dial s
  | .referenceMessageAbandoned => Sys2Proof.Machine.execReferenceMessageAbandoned s
  | .addressedFrameStop => Sys2Proof.Machine.execAddressedFrameStop s
  | .resetPinReleased => Sys2Proof.Machine.execResetPinReleased s
  | .partUnpowered => Sys2Proof.Machine.execPartUnpowered s
  | .backupRetentionLost => Sys2Proof.Machine.execBackupRetentionLost s

end Sys2Proof.Machine
end

