-- ==== Sys2Proof/Machine/Schedule.lean ====
section
/-! DEFINITION. What the part does on its own while no command waits: the first event that is due, else one millisecond passes
(log entry 3). -/

namespace Sys2Proof.Machine

/-- What the sheet still has to do at the present instant, in the order of R79. -/
def dueSheet (s : State) : Option Instr :=
  if (firstWhere (lateEntry s) s).isSome then some .graceExpiry
  else if (firstWhere (endedQuiet s) s).isSome then some .quietPeriodEnd
  else if (firstWhere (actsNow s) s).isSome then some .entryFallsDue
  else none

/-- What a new second calls for besides the sheet (R39, R70, R109, R172). -/
def dueSecond (s : State) : Option Instr :=
  if s.overrides.entries.any (expired (stdMoment s.time)) then some .overrideExpiry
  else if s.sheets.standbyTime then some .standbyBuildTime
  else if lockLost s.time then some .referenceLost
  else if holdoverOver s.time then some .holdoverExpiry
  else if dialTarget s.time ≠ s.lastTarget then some .targetChange
  else none

/-- The resolver's next step: a run's completion 40 ms after its start, or the start of a run (R67; log entry 10). -/
def dueResolver (s : State) : Option Instr :=
  match s.resolver.run with
  | some r =>
    if r.started + Config.runTime ≤ s.elapsed then
      match r.kind with
      | .today => some .todayRebuildInstall
      | .standby => some .standbyBuildInstall
      | .query => some .queryRunComplete
    else none
  | none => if (nextRun s.resolver).isSome then some .resolverRunStart else none

/-- A lane that may look and has an entry to take (R85). -/
def dueLane (s : State) : Option Instr :=
  (allLanes.find? fun lane => mayLook lane s && (firstWhere (takeable s lane) s).isSome).map .laneTakesEntry

/-- What the player and the strike train have due (R146, R149). -/
def duePlayer (s : State) : Option Instr :=
  match s.tunes.player with
  | none => none
  | some p =>
    match p.tune with
    | some t =>
      if s.elapsed < p.noteAt then none
      else if p.notePos < (getTune s t).length then some .tuneNote
      else some .tunePlayEnd
    | none =>
      match p.strokeAt with
      | some m => if m ≤ s.elapsed then some .hourStrokeRequest else none
      | none => none

/-- A toll's next stroke (R89). -/
def dueToll (s : State) : Option Instr :=
  match s.lanes.tollRun with
  | some r =>
    (match r.nextAt with
    | some m => if m ≤ s.elapsed then some .tollStrokeRequest else none
    | none => none)
  | none => none

/-- A tune whose check has run its time (R143; log entry 10). -/
def dueCheck (s : State) : Option Instr :=
  ((List.finRange 32).find? fun t =>
    (getTune s t).state == .checking && decide ((getTune s t).closedAt + Config.checkTime ≤ s.elapsed)).map .tuneCheckComplete

/-- The first station, in ascending order, for which a test holds. -/
def firstStation (test : Station → Bool) : Option Station := allStations.find? test

/-- The bells' timers, limits, deferred strokes and polls, and the owed orders (R116, R118, R120 to R122, R126). -/
def dueBell (s : State) : Option Instr :=
  ((firstStation (deferredDue s)).map .deferredStrokeDue).or <|
  ((firstStation (raiseOver s)).map .raiseTimeout).or <|
  ((firstStation (lowerOver s)).map .lowerTimeout).or <|
  ((firstStation (limitReached s)).map .ringingLimit).or <|
  (if raisingOver s then some .pealRaisingTimeout else none).or <|
  (if ringingOver s then some .pealRingingEnd else none).or <|
  ((firstStation (pollDue s)).map .bellPoll).or <|
  (if lineAccepts s && (firstOwing s).isSome then some .owedOrderOffered else none)

/-- Whether the head of the queue is a STRIKE past its deadline (R155). -/
def lateHead (s : State) : Bool :=
  match s.line.queue with
  | o :: _ => !inTime s o
  | [] => false

/-- The line's own doings: the clock rule, a frame it may begin on the wires as last sampled, and forced access (R155, R161,
R163). -/
def dueLine (s : State) : Option Instr :=
  if clockRuns s && clockLow s then some .clockStuck
  else if maySend s && (lateHead s || s.pins.lckHigh || !s.pins.ldaHigh) then
    some (.orderFrameStart s.pins.lckHigh s.pins.ldaHigh)
  else if hung s then some .forcedAccess
  else none

/-- The dials' impulses (R174). -/
def dueDial (s : State) : Option Instr :=
  ((allDials.find? (impulseOver s)).map fun d => .impulseEnd d (s.pins.circuitsOpen.get d)).or
    ((allDials.find? (impulseDue s)).map .impulseStart)

/-- A message in progress with too long a gap, and a waiting message whose time has passed (R35, R36). -/
def dueMessage (s : State) : Option Instr :=
  if messageGap s then some .referenceMessageAbandoned
  else
    match s.time.waiting with
    | some w => if w.received + Config.messageLife < s.elapsed then some .waitingMessageExpiry else none
    | none => none

/-- The end of the second, as the row it is (R29, R33, R34, R45). -/
def dueClock (s : State) : Option Instr :=
  if secondLength s.time.slew ≤ s.time.fraction then
    if rangeEnds s.time then some .endOfRange
    else if dayEnds s.time then some .dayChange
    else if summerTurns s.time then some .summerChange
    else some .newSecond
  else none

/-- The first internal event that is due; none while the logic does not run (log entry 3). -/
def dueEvent (s : State) : Option Instr :=
  if running s then
    (dueSheet s).or <| (dueSecond s).or <| (dueResolver s).or <| (dueLane s).or <| (duePlayer s).or <| (dueToll s).or <|
    (dueCheck s).or <| (dueBell s).or <| (dueLine s).or <| (dueDial s).or <| (dueMessage s).or <| dueClock s
  else none

/-- One millisecond passes; the logic counts it while it runs (R29, R202). -/
def tick (s : State) : State :=
  if running s then { s with elapsed := s.elapsed + 1, time := { s.time with fraction := s.time.fraction + 1 } } else s

end Sys2Proof.Machine
end

