-- ==== Sys2Proof/Safety.lean ====
section
/-! DEFINITION. What counts as a safe state, in the spec's own terms: the laws that its chapters state of the whole part; and the
terms in which the statements say what builds generate, what the override stack hands on, and what the reads stream. -/

namespace Sys2Proof.Machine

/-- The supply law: the committed load never exceeds the allowance (R186). -/
def supplyLaw (s : State) : Prop := committed s.lights ≤ s.lights.allowance

/-- A zone's present level is never above its wanted level, and its loads rise with the level (R182). -/
def zoneLaw (z : Zone) : Prop := z.present ≤ z.wanted ∧ z.wanted ≤ 3 ∧ z.low ≤ z.mid ∧ z.mid ≤ z.full

/-- Every zone keeps its law, every scene level is 0..3, and the committed load is within the allowance (R182, R183, R186). -/
def lightLaw (s : State) : Prop :=
  (∀ z, zoneLaw (s.lights.zones.get z)) ∧ (∀ sc z, (s.lights.scenes.get sc).get z ≤ 3) ∧ supplyLaw s

/-- Every dial's hand position lies between 0 and 1,439 (R170). -/
def handLaw (s : State) : Prop := ∀ d, (s.dials.get d).hand < Config.faceSteps

/-- The stack holds at most eight entries (R99). -/
def stackLaw (s : State) : Prop := s.overrides.entries.length ≤ Config.stackCapacity

/-- The note memory keeps its canonical form. -/
def noteLaw (s : State) : Prop := s.tunes.notes.wf = true

/-- Slots that are not LIVE have no open entry on either sheet (R2). -/
def openLaw (s : State) : Prop := ∀ i, (s.table.slots.get i).state ≠ .live → hasOpen s i = false

/-- The account law: a bell is marked reserving just where the account records a reservation for it (R119, R186). -/
def reservLaw (s : State) : Prop := ∀ st, (getBell s st).reserving = (s.lights.reserv.get st).isSome

/-! ### What stays the same -/

/-- The configuration fields a bell record holds (R111). -/
def bellConfigOf (b : Bell) : BellConfig :=
  ⟨b.present, b.hammer, b.swing, b.recovery, b.raiseTime, b.lowerTime, b.load, b.limit⟩

/-- All that the host has configured: settings, record images, bell, tune, zone and dial configurations, scenes, notes, enables;
and the queue of commands, which belongs to the sender. -/
structure SettingsView where
  calendar : Calendar
  protection : ProtRange × Bool × LockScheme × Bool
  images : Vector Image 128
  bells : Vector BellConfig 31
  runs : Vector (Nat × Nat × Nat × Nat) 32
  notes : Memory
  zones : Vector (Nat × Nat × Nat × Nat) 8
  scenes : Vector (Vector Nat 8) 16
  allowance : Nat
  answerConsole : Bool
  dials : Vector (Bool × Nat × Nat × Nat × Bool) 4
  enables : BitVec 15 × Bool × Bool
  time : Int × Bool × SummerRule × SummerRule
  pending : List Instr

/-- The settings of a state. -/
def settingsView (s : State) : SettingsView where
  calendar := s.calendar
  protection := (s.table.range, s.table.complement, s.table.scheme, s.table.guard)
  images := s.table.slots.map Slot.image
  bells := s.bells.map bellConfigOf
  runs := s.tunes.tunes.map fun x => (x.first, x.length, x.tick, x.expected)
  notes := s.tunes.notes
  zones := s.lights.zones.map fun z => (z.low, z.mid, z.full, z.priority)
  scenes := s.lights.scenes
  allowance := s.lights.allowance
  answerConsole := s.line.answerConsole
  dials := s.dials.map fun x => (x.present, x.width, x.interval, x.waitLimit, x.syncUsed)
  enables := (s.attn.enables, s.attn.normalEnable, s.attn.abnormalEnable)
  time := (s.time.zone, s.time.summerEnable, s.time.startRule, s.time.endRule)
  pending := s.pending

/-- All that work in the tower leaves alone: the settings, the clock, power, mains and pins, the resolver, the overrides, the
dials, the port, the lock flags, the tunes but for their play counts, the standby sheet, who controls each bell, and the line
controller but for its queue. -/
structure TowerView where
  settings : SettingsView
  power : Power
  latch : Bool
  pins : Pins
  elapsed : Nat
  mains : MainsState
  time : TimeBase
  resolver : Resolver
  overrides : Overrides
  dials : Vector Dial 4
  lastTarget : Nat
  port : Port
  portFrame : Option PortFrame
  locks : Vector Bool 128
  tunes : Vector Tune 32
  status : StandbyStatus
  standby : Sheet
  relight : List Key
  standbyTime : Bool
  tallies : Vector Nat 128
  ctrl : Vector Controller 31
  line : Line

/-- What work in the tower leaves alone, of a state. -/
def towerView (s : State) : TowerView where
  settings := settingsView s
  power := s.power
  latch := s.latch
  pins := s.pins
  elapsed := s.elapsed
  mains := s.mains
  time := s.time
  resolver := s.resolver
  overrides := s.overrides
  dials := s.dials
  lastTarget := s.lastTarget
  port := s.port
  portFrame := s.portFrame
  locks := s.table.slots.map Slot.locked
  tunes := s.tunes.tunes.map fun x => { x with plays := 0, skipped := 0 }
  status := s.sheets.status
  standby := s.sheets.standby
  relight := s.sheets.relight
  standbyTime := s.sheets.standbyTime
  tallies := s.sheets.today.tallies
  ctrl := s.bells.map Bell.ctrl
  line := { s.line with queue := [] }

/-! ### What a step of the time base does to the sheets, in the rules' own terms -/

/-- A slot's outcome fields after one entry of a day has ended in a state (R11). -/
def OutcomeShown (old new : Slot) (st : EntryState) (day : Nat) : Prop :=
  match st with
  | .done => new.last = .done ∧ new.performed = min 65535 (old.performed + 1) ∧ new.lastDay = some day
  | .cutShort => new.last = .cutShort ∧ new.performed = min 65535 (old.performed + 1) ∧ new.lastDay = some day
  | .missed => new.last = .missed ∧ new.missed = min 255 (old.missed + 1)
  | .withheld => new.last = .withheld
  | .skipped => new.last = .skipped
  | .pending => True
  | .due => True
  | .active => True

/-- Today's sheet has no other open entry of an entry's slot, and the slot holds a record: the outcome that the record shows afterwards is
that entry's. -/
def OnlyOpen (s : State) (e : Entry) : Prop :=
  (getSlot s e.key.slot).state ≠ .empty ∧
  ∀ x ∈ s.sheets.today.entries, x.key.slot = e.key.slot → x.state.isOpen = true → x = e

/-- The record of an entry's slot shows that it ended in a state: its day is the sheet's date, or the one before for a carried entry (R11,
R91). -/
def RecordShows (s t : State) (e : Entry) (st : EntryState) : Prop :=
  OnlyOpen s e →
    OutcomeShown (getSlot s e.key.slot) (getSlot t e.key.slot) st (if e.carried then s.time.localDate - 1 else s.time.localDate)

/-- An entry of today's sheet is on it in a final state, with its outcome written, ENTRY_MISSED set for a MISSED one (R91). -/
def EndsAs (s t : State) (e : Entry) (st : EntryState) : Prop :=
  { e with state := st } ∈ t.sheets.today.entries ∧ RecordShows s t e st ∧ (st = .missed → flagSet t.attn .entryMissed = true)

/-- An entry at the instant that a step reaches falls due by its kind and the mains state (R80 to R83). -/
def FallsAt (s t : State) (e : Entry) : Prop :=
  (e.kind = .light → EndsAs s t e .done) ∧
  (e.kind = .quiet → s.mains = .present → { e with state := .active } ∈ t.sheets.today.entries) ∧
  (e.kind = .quiet ∨ e.kind.sounding = true → s.mains = .absent → EndsAs s t e .missed) ∧
  (e.kind.sounding = true → s.mains = .present →
    ({ e with state := .due } ∈ t.sheets.today.entries ∨ { e with state := .withheld } ∈ t.sheets.today.entries) ∧
    (silenceCovers s e = true → { e with state := .withheld } ∈ t.sheets.today.entries) ∧
    (silenceCovers s e = false →
      (∀ q ∈ s.sheets.today.entries, q.kind = .quiet → q.state ≠ .active ∧ q.state ≠ .pending) →
      { e with state := .due } ∈ t.sheets.today.entries))

/-- What a forward step within the day makes of an entry of today's sheet (R92). -/
def Jumped (s t : State) (e : Entry) : Prop :=
  (e.kind = .quiet → e.state = .active → (∃ z, e.endInstant = some z ∧ z ≤ t.time.instant) → EndsAs s t e .done) ∧
  (e.state = .pending → s.time.instant < e.instant → e.instant < t.time.instant → EndsAs s t e .missed) ∧
  (e.state = .due → e.instant + graceOf s e < t.time.instant → EndsAs s t e .missed) ∧
  (e.state = .pending → s.time.instant < e.instant → e.instant = t.time.instant → FallsAt s t e) ∧
  (e.state.isOpen = false ∨ e.state = .pending ∧ t.time.instant < e.instant ∨
      e.state = .due ∧ t.time.instant ≤ e.instant + graceOf s e ∨
      e.state = .active ∧ (e.kind = .quiet → ∃ z, e.endInstant = some z ∧ t.time.instant < z) →
    e ∈ t.sheets.today.entries)

/-- The lit-record set holds just the slots that a recomputation from today's sheet gives (R84). -/
def LitAsOnSheet (t : State) : Prop :=
  ∀ i, t.lanes.lit.get i = true ↔
    (getSlot t i).state = .live ∧ imgKind (getSlot t i).image = some .light ∧
      (∃ x ∈ t.sheets.today.entries, x.key = ⟨i, 0⟩ ∧ x.kind = .light ∧ x.state ≠ .skipped ∧
        x.instant ≤ t.time.instant) ∧
      ∀ x ∈ t.sheets.today.entries, x.key = ⟨i, 1⟩ → x.kind = .light → t.time.instant < x.instant

/-- A step within the day, from s to t: forward it makes of each entry what R92 says, backward or in place it changes none; the lit-record
set is that of the sheet, and both rebuilds are requested where time-valid is set (R68, R84, R92, R93). -/
def SteppedWithin (s t : State) : Prop :=
  (t.time.instant ≤ s.time.instant → t.sheets.today = s.sheets.today) ∧
  (s.time.instant < t.time.instant → t.sheets.today.tallies = s.sheets.today.tallies ∧
    t.sheets.today.entries.map (fun e => { e with state := .pending })
      = s.sheets.today.entries.map (fun e => { e with state := .pending }) ∧
    ∀ e ∈ s.sheets.today.entries, Jumped s t e) ∧
  LitAsOnSheet t ∧ t.sheets.standby = s.sheets.standby ∧
  t.sheets.status = (if s.sheets.status = .fresh then .stale else s.sheets.status) ∧
  (t.time.valid = true →
    t.resolver.todayReq = true ∧ (t.time.localDate ≠ lastDay → t.resolver.standbyReq = true)) ∧
  (t.time.valid = false →
    t.resolver.todayReq = s.resolver.todayReq ∧ t.resolver.standbyReq = s.resolver.standbyReq) ∧
  t.resolver.run = s.resolver.run.map (fun r => { r with triggered := true }) ∧ t.resolver.query = s.resolver.query ∧
  t.resolver.result = s.resolver.result

/-- Each lane's key names an ACTIVE entry of today's sheet of that lane's own kinds (R78). -/
def LanesHoldTheirOwn (s : State) : Prop :=
  ∀ lane key, laneKey s lane = some key →
    ∃ e ∈ s.sheets.today.entries, e.key = key ∧ e.state = .active ∧ laneOf e.kind = some lane

/-- What a step into another date makes of an entry of the old sheet that was its slot's only open one: an ACTIVE one is CUT_SHORT, and
one that was DUE or PENDING is MISSED where the step is forward, and leaves no outcome where it is backward (R72). -/
def LeftBehind (s t : State) (e : Entry) : Prop :=
  (e.state = .active → (e.kind = .quiet ∨ ∃ lane, laneKey s lane = some e.key) → RecordShows s t e .cutShort) ∧
  (e.state = .pending ∨ e.state = .due →
    (s.time.localDate < t.time.localDate → RecordShows s t e .missed ∧ flagSet t.attn .entryMissed = true) ∧
    (t.time.localDate < s.time.localDate → OnlyOpen s e →
      (getSlot t e.key.slot).last = (getSlot s e.key.slot).last ∧
      (getSlot t e.key.slot).missed = (getSlot s e.key.slot).missed ∧
      (getSlot t e.key.slot).performed = (getSlot s e.key.slot).performed ∧
      (getSlot t e.key.slot).lastDay = (getSlot s e.key.slot).lastDay))

/-- A step into another date, from s to t: both sheets are empty with the standby MISSING, the lanes FREE and the lit-record set empty; the
runs of both builds are abandoned, and both are requested anew where time-valid is set (R70, R72, R84). -/
def SteppedToDate (s t : State) : Prop :=
  t.sheets.today = Sheet.cold ∧ t.sheets.standby = Sheet.cold ∧ t.sheets.status = .missing ∧
  (∀ lane, laneKey t lane = none) ∧ (∀ i, t.lanes.lit.get i = false) ∧
  t.resolver.todayReq = t.time.valid ∧ t.resolver.fromZero = false ∧
  t.resolver.standbyReq = (t.time.valid && t.time.localDate != lastDay) ∧
  t.resolver.run = s.resolver.run.filter (fun r => r.kind == .query) ∧ t.resolver.query = s.resolver.query ∧
  t.resolver.result = s.resolver.result ∧
  (LanesHoldTheirOwn s → ∀ e ∈ s.sheets.today.entries, LeftBehind s t e)

/-- What a step does to the sheets, the lit-record set and the resolver's requests; a changed set is handed to the lighting unit, which
finds the wanted levels anew (R84). -/
def StepActs (s t : State) : Prop :=
  (t.time.localDate = s.time.localDate → SteppedWithin s t) ∧
  (t.time.localDate ≠ s.time.localDate → SteppedToDate s t) ∧
  (t.lanes.lit ≠ s.lanes.lit → ∀ z, (t.lights.zones.get z).wanted = wantedLevel t.lights (governingScene t) z)

/-! ### The calendar in the rules' own terms -/

/-- Whether a date rule names day D: the weekday forms name the one day of their weekday within a week from an anchor of D's year,
or of the year before or after it (R50, R51). -/
def NamesDay (rule : DateRule) (D : Nat) : Prop :=
  match rule with
  | .daily => True
  | .weekdays set => set.getLsbD (weekday D) = true
  | .fixed m d => monthOf D = m ∧ dayOf D = d
  | .easter o => (D : Int) = easter (yearOf D) + o
  | .onOrAfter w m d =>
    weekday D = w ∧ ∃ y, 2000 ≤ y ∧ y ≤ 2399 ∧ (y = yearOf D ∨ y + 1 = yearOf D) ∧
      dayNumber y m d ≤ D ∧ D < dayNumber y m d + 7
  | .onOrBefore w m d =>
    weekday D = w ∧ ∃ y, 2000 ≤ y ∧ y ≤ 2399 ∧ (y = yearOf D ∨ y = yearOf D + 1) ∧
      D ≤ dayNumber y m d ∧ dayNumber y m d < D + 7
  | .once day => D = day

/-- A summer rule that WRITE TIME SETTINGS can have stored (R43). -/
def RuleInRange (r : SummerRule) : Prop :=
  1 ≤ r.month ∧ r.month ≤ 12 ∧ 1 ≤ r.nth ∧ r.nth ≤ 5 ∧ r.weekday ≤ 6 ∧ r.hour ≤ 23

/-- Whether standard second S of day D is a summer rule's moment: its month, its weekday, the nth of that month or the last (nth 5),
and its hour (section 2.3). -/
def IsRuleMoment (r : SummerRule) (D S : Nat) : Prop :=
  monthOf D = r.month ∧ weekday D = r.weekday ∧
    (if r.nth = 5 then monthLength (yearOf D) r.month < dayOf D + 7 else (dayOf D + 6) / 7 = r.nth) ∧
    S = r.hour * 3600

/-- The instant of wall second w of day D by the table of R54, none where the wall time does not occur. -/
def tableInstant (t : TimeBase) (D w : Nat) : Option Nat :=
  if dayLengthOf t D = 82800 then
    if w < t.startRule.hour * 3600 then some w
    else if w < t.startRule.hour * 3600 + 3600 then none
    else some (w - 3600)
  else if dayLengthOf t D = 90000 then if w < (t.endRule.hour + 1) * 3600 then some w else some (w + 3600)
  else some w

/-- A value of day D, dawn or dusk, in wall minutes (R58). -/
def wallValue (t : TimeBase) (D v : Nat) : Nat := v + (if summerAt t (D * 86400 + v * 60) then 60 else 0)

/-- The wall second of a twilight moment with its offset, clamped to the day (R58). -/
def offsetSecond (minute : Nat) (offset : Int) : Nat := (max 0 (min 1439 ((minute : Int) + offset))).toNat * 60

/-- The wall second at which a period starts (R6, R58). -/
def startSecond (t : TimeBase) (tw : Vector (Nat × Nat) 24) (D : Nat) : PeriodStart → Nat
  | .at w => w
  | .dawn o => offsetSecond (wallValue t D (twilightOf tw D).1) o
  | .dusk o => offsetSecond (wallValue t D (twilightOf tw D).2) o

/-- The instant at which a period ends: the day length, or that of its wall second, or instant c where that does not occur (R54,
R55, R58). -/
def stopInstant (t : TimeBase) (tw : Vector (Nat × Nat) 24) (D : Nat) : PeriodEnd → Nat
  | .endOfDay => dayLengthOf t D
  | .at w => (tableInstant t D w).getD (t.startRule.hour * 3600)
  | .dawn o => (tableInstant t D (offsetSecond (wallValue t D (twilightOf tw D).1) o)).getD (t.startRule.hour * 3600)
  | .dusk o => (tableInstant t D (offsetSecond (wallValue t D (twilightOf tw D).2) o)).getD (t.startRule.hour * 3600)

/-- An entry for the wall second w of day D, from instant F on: PENDING at its instant, or SKIPPED at instant c where it does not
occur (R54, R55, R59). -/
def OccursAt (t : TimeBase) (D F w : Nat) (e : Entry) : Prop :=
  F ≤ e.instant ∧ e.endInstant = none ∧
    (tableInstant t D w = some e.instant ∧ e.state = .pending ∨
      tableInstant t D w = none ∧ e.instant = t.startRule.hour * 3600 ∧ e.state = .skipped)

/-- An entry of a QUIET or LIGHT period from instant a to instant z, by a build from F: its start, joined at F where it has begun, and a
LIGHT period's OFF entry (R59, R62 to R64). -/
def OfPeriod (kind : Kind) (hasOff : Bool) (F a z : Nat) (e : Entry) : Prop :=
  a < z ∧ F < z ∧ e.state = .pending ∧
    (e.key.sub = 0 ∧ e.instant = max a F ∧ e.endInstant = (if kind = .quiet then some z else none) ∨
      e.key.sub = 1 ∧ e.instant = z ∧ e.endInstant = none ∧ kind = .light ∧ hasOff = true)

/-- Whether a record gives an entry for day D by a build from F (R59 to R64). -/
def Gives (t : TimeBase) (tw : Vector (Nat × Nat) 24) (D F : Nat) (r : Record) (e : Entry) : Prop :=
  match r.timing with
  | .none => False
  | .single w => e.key.sub = 0 ∧ OccursAt t D F w e
  | .quarters a b => e.key.sub < 96 ∧ a ≤ e.key.sub * 900 ∧ e.key.sub * 900 ≤ b ∧ OccursAt t D F (e.key.sub * 900) e
  | .hours a b =>
    e.key.sub < 96 ∧ e.key.sub % 4 = 0 ∧ a ≤ e.key.sub * 900 ∧ e.key.sub * 900 ≤ b ∧ OccursAt t D F (e.key.sub * 900) e
  | .wholeDay => OfPeriod r.kind false F 0 (dayLengthOf t D) e
  | .period a z =>
    match tableInstant t D (startSecond t tw D a) with
    | some i => OfPeriod r.kind (z != .endOfDay) F i (stopInstant t tw D z) e
    | none =>
      F ≤ e.instant ∧ e.instant = t.startRule.hour * 3600 ∧ e.key.sub = 0 ∧ e.state = .skipped ∧
        e.endInstant = (if r.kind = .quiet then some (stopInstant t tw D z) else none)

/-- What a build generates for day D from instant F: in sheet order, no key twice, just the entries that the LIVE records other than
FEASTs give whose date rule names the day and whose window holds the governing rank, with the record's kind and rank (R52, R59, R65). -/
def GeneratedFor (s : State) (D F : Nat) (es : List Entry) : Prop :=
  es.Pairwise (fun a b => sheetBefore a b = true) ∧ (es.map Entry.key).Nodup ∧
  ∀ e, e ∈ es ↔ e.carried = false ∧ ∃ r, liveRecord (getSlot s e.key.slot) = some r ∧ r.kind ≠ .feast ∧
    NamesDay r.rule D ∧
    r.lowest ≤ governingRank s.table.slots s.calendar.sundayRank D ∧
    governingRank s.table.slots s.calendar.sundayRank D ≤ r.highest ∧ e.kind = r.kind ∧ e.rank = r.rank ∧
    Gives s.time s.calendar.twilight D F r e

/-! ### The record image in the rules' own terms -/

/-- A byte holds a number as two BCD digits (R203). -/
def Coded (b : Byte) (n : Nat) : Prop := n ≤ 99 ∧ b.toNat = 16 * (n / 10) + n % 10

/-- Four bytes are a possible date of the years 2000 to 2399 (R15, R41, R204). -/
def PossibleDate (c y m d : Byte) : Prop :=
  ∃ cc yy mm dd, Coded c cc ∧ Coded y yy ∧ Coded m mm ∧ Coded d dd ∧ 2000 ≤ cc * 100 + yy ∧ cc * 100 + yy ≤ 2399 ∧
    1 ≤ mm ∧ mm ≤ 12 ∧ 1 ≤ dd ∧ dd ≤ monthLength (cc * 100 + yy) mm

/-- Three bytes are the time of day of a second: hours to 23, minutes and seconds to 59 (R16, R41, R204). -/
def TimeIs (h m s : Byte) (second : Nat) : Prop :=
  ∃ hh mm ss, Coded h hh ∧ Coded m mm ∧ Coded s ss ∧ hh ≤ 23 ∧ mm ≤ 59 ∧ ss ≤ 59 ∧ second = hh * 3600 + mm * 60 + ss

/-- Two bytes pass the FIXED check: February counts 29 days, as in 2000 (R15). -/
def MonthDay (m d : Byte) : Prop :=
  ∃ mm dd, Coded m mm ∧ Coded d dd ∧ 1 ≤ mm ∧ mm ≤ 12 ∧ 1 ≤ dd ∧ dd ≤ monthLength 2000 mm

/-- The anchor of a weekday form: its weekday, and a month and day but for February 29 (R15). -/
def AnchorInRange (img : Image) : Prop :=
  imgNat img 5 ≤ 6 ∧ MonthDay (imgByte img 6) (imgByte img 7) ∧ ¬(imgNat img 6 = 0x02 ∧ imgNat img 7 = 0x29)

/-- The date rule of an image passes R15, but for the check of a ONCE date against the current date; no unused bit of it is set. -/
def DateInRange (img : Image) : Prop :=
  match imgNat img 4 with
  | 0 => True
  | 1 => 1 ≤ imgNat img 5 ∧ imgNat img 5 < 128
  | 2 => MonthDay (imgByte img 5) (imgByte img 6)
  | 3 => -70 ≤ (imgByte img 5).toInt ∧ (imgByte img 5).toInt ≤ 70
  | 4 => AnchorInRange img
  | 5 => AnchorInRange img
  | 6 => PossibleDate (imgByte img 5) (imgByte img 6) (imgByte img 7) (imgByte img 8)
  | _ => False

/-- The start time, and the end time, of an image are a second of the day (R205). -/
def StartsAt (img : Image) (second : Nat) : Prop := TimeIs (imgByte img 10) (imgByte img 11) (imgByte img 12) second
def EndsAt (img : Image) (second : Nat) : Prop := TimeIs (imgByte img 16) (imgByte img 17) (imgByte img 18) second

/-- A twilight offset is within -180..+180 minutes (R16). -/
def OffsetOk (a b : Byte) : Prop := -180 ≤ s16 a b ∧ s16 a b ≤ 180

/-- A QUARTERS or HOURS window: an AT end after the start (R6, R16). -/
def WindowInRange (img : Image) : Prop := imgNat img 15 = 1 ∧ ∃ a b, StartsAt img a ∧ EndsAt img b ∧ a < b

/-- The end of a QUIET or LIGHT period: AT, END_OF_DAY, DAWN or DUSK (R6, R16). -/
def EndInRange (img : Image) : Prop :=
  imgNat img 15 = 1 ∧ (∃ b, EndsAt img b) ∨ imgNat img 15 = 2 ∨
    (imgNat img 15 = 3 ∨ imgNat img 15 = 4) ∧ OffsetOk (imgByte img 19) (imgByte img 20)

/-- A period that starts AT a time; an AT end is after it (R6, R16). -/
def PeriodInRange (img : Image) : Prop :=
  ∃ a, StartsAt img a ∧ EndInRange img ∧ (imgNat img 15 = 1 → ∀ b, EndsAt img b → a < b)

/-- The start rule and the end rule of an image are ones that its kind accepts (R6, R16): start AT 0, QUARTERS 1, HOURS 2, DAWN 3, DUSK 4,
WHOLE_DAY 5; end NONE 0, AT 1. -/
def TimingInRange (img : Image) : Kind → Prop
  | .feast => True
  | .quiet => imgNat img 9 = 5 ∨ imgNat img 9 = 0 ∧ PeriodInRange img
  | .light =>
    imgNat img 9 = 5 ∨ imgNat img 9 = 0 ∧ PeriodInRange img ∨
      (imgNat img 9 = 3 ∨ imgNat img 9 = 4) ∧ OffsetOk (imgByte img 13) (imgByte img 14) ∧ EndInRange img
  | .strike => (imgNat img 9 = 1 ∨ imgNat img 9 = 2) ∧ WindowInRange img
  | .tune => imgNat img 9 = 0 ∧ imgNat img 15 = 0 ∧ (∃ a, StartsAt img a) ∨ imgNat img 9 = 2 ∧ WindowInRange img
  | .toll => imgNat img 9 = 0 ∧ imgNat img 15 = 0 ∧ (∃ a, StartsAt img a) ∨ imgNat img 9 = 2 ∧ WindowInRange img
  | .peal => imgNat img 9 = 0 ∧ imgNat img 15 = 0 ∧ ∃ a, StartsAt img a

/-- A byte of an image lies in a range, both ends included. -/
def ByteIn (img : Image) (i low high : Nat) : Prop := low ≤ imgNat img i ∧ imgNat img i ≤ high

/-- The action fields of an image lie in the ranges of R8, and no unused bit of them is set (R8, R203, R205). -/
def ActionInRange (img : Image) : Kind → Prop
  | .feast => True
  | .quiet => ByteIn img 22 1 15 ∧ imgNat img 26 % 2 = 0
  | .strike =>
    ByteIn img 22 1 31 ∧ ByteIn img 23 2 10 ∧ ByteIn img 24 0 32 ∧ ByteIn img 25 0 32 ∧ ByteIn img 26 0 32 ∧
      ByteIn img 27 0 32 ∧ ByteIn img 28 0 1
  | .tune => ByteIn img 22 1 32 ∧ ByteIn img 23 1 4
  | .toll => ByteIn img 22 1 31 ∧ ByteIn img 23 2 120 ∧ ByteIn img 24 1 250
  | .peal =>
    (imgNat img 22 ≠ 0 ∨ imgNat img 23 ≠ 0 ∨ imgNat img 24 ≠ 0 ∨ imgNat img 25 ≠ 0) ∧ imgNat img 25 % 2 = 0 ∧
      ByteIn img 26 1 180
  | .light => ByteIn img 22 1 16

/-- The fields of an image pass R15 and R16: its kind, rank and date rule, and for other kinds than FEAST its window, grace, start, end
and action fields. -/
def FieldsInRange (img : Image) (kind : Kind) : Prop :=
  imgNat img 0 = kind.code ∧ imgNat img 1 ≤ 15 ∧ DateInRange img ∧
    (kind ≠ .feast → imgNat img 2 ≤ imgNat img 3 ∧ imgNat img 3 ≤ 15 ∧ imgNat img 21 ≤ 60 ∧ TimingInRange img kind ∧
      ActionInRange img kind)

/-! ### What a change of the override stack hands on -/

/-- From s to t the wanted levels are found anew where the forced scene changed (the scene forced, else the governing lit record's, else
all off), and the dials whose hold changed are evaluated, but for one that gives an impulse; the others are as they were (R103, R107,
R173, R185). -/
def HandsOn (s t : State) : Prop :=
  ((effective t).scene = (effective s).scene → ∀ z, (t.lights.zones.get z).wanted = (s.lights.zones.get z).wanted) ∧
  (∀ sc, (effective t).scene = some sc → (effective s).scene ≠ some sc →
    ∀ z, (t.lights.zones.get z).wanted = (s.lights.scenes.get sc).get z) ∧
  ((effective t).scene = none → (effective s).scene ≠ none →
    ((∀ i, s.lanes.lit.get i = false) → ∀ z, (t.lights.zones.get z).wanted = 0) ∧
    ∀ i sc, s.lanes.lit.get i = true → sceneOf (imgNat (getSlot s i).image 22) = some sc →
      (∀ j, s.lanes.lit.get j = true → slotRank s j < slotRank s i ∨ slotRank s j = slotRank s i ∧ i ≤ j) →
      ∀ z, (t.lights.zones.get z).wanted = (s.lights.scenes.get sc).get z) ∧
  (∀ d, dialHeld t d = dialHeld s d ∨ (getDial s d).impulse.isSome = true → getDial t d = getDial s d) ∧
  (∀ d, dialHeld t d ≠ dialHeld s d → (getDial s d).impulse = none →
    getDial t d
      = evaluatedFields s.elapsed (lagOf (dialTarget s.time) (getDial s d).hand)
          (dialStateOf (getDial s d) s.mains s.time.valid (dialHeld t d) (lagOf (dialTarget s.time) (getDial s d).hand))
          (getDial s d))

/-! ### What the reads stream -/

/-- The byte at a place of a stream, 00h past its end (R195). -/
def byteAt (bytes : List Byte) (i : Nat) : Byte := bytes.getD i 0

/-- The number in `n` bytes from a place on, most significant byte first (R203). -/
def numAt (bytes : List Byte) (i n : Nat) : Nat := ((bytes.drop i).take n).foldl (fun acc b => acc * 256 + b.toNat) 0

/-- The bell set in four bytes from a place on (R203). -/
def setAt (bytes : List Byte) (i : Nat) : BellSet :=
  bellSet (byteAt bytes i) (byteAt bytes (i + 1)) (byteAt bytes (i + 2)) (byteAt bytes (i + 3))

/-- A moment in seconds from day 0 as a BCD date and time, seven bytes from a place on (R204). -/
def MomentAt (bytes : List Byte) (i m : Nat) : Prop :=
  bcdDate (byteAt bytes i) (byteAt bytes (i + 1)) (byteAt bytes (i + 2)) (byteAt bytes (i + 3)) = some (m / 86400) ∧
    bcdTime (byteAt bytes (i + 4)) (byteAt bytes (i + 5)) (byteAt bytes (i + 6)) = some (m % 86400)

/-- An elapsed-time moment in four bytes from a place on: the distance from now, where it fits (R203). -/
def DistanceAt (bytes : List Byte) (i now : Nat) (m : Option Nat) : Prop :=
  (m = none → numAt bytes i 4 = 0xFFFFFFFF) ∧
  ∀ x, m = some x → (now - x) + (x - now) < 0xFFFFFFFE → numAt bytes i 4 = (now - x) + (x - now)

/-- READ RECORD's 41 bytes (R14, R205). -/
def ShowsRecord (s : State) (i : SlotNo) (bytes : List Byte) : Prop :=
  let x := getSlot s i
  numAt bytes 0 1 = x.state.code ∧ numAt bytes 1 1 = (slotProtected s.table i).toNat ∧
  (bytes.drop 2).take 32 = x.image.toList ∧
  (x.lastDay = none → numAt bytes 34 3 = 0xFFFFFF) ∧ (∀ d, x.lastDay = some d → numAt bytes 34 3 = d % 2 ^ 24) ∧
  numAt bytes 37 2 = x.performed % 65536 ∧ numAt bytes 39 1 = x.missed % 256 ∧ numAt bytes 40 1 = x.last.code

/-- READ BELL's 32 bytes: the configuration fields, the living fields in R112's order, whether a peal holds the bell and whether a raise
waits (R111, R112, R114). -/
def ShowsBell (s : State) (st : Station) (bytes : List Byte) : Prop :=
  let b := getBell s st
  numAt bytes 0 1 = b.present.toNat + 2 * b.hammer.toNat + 4 * b.swing.toNat ∧ numAt bytes 1 2 = b.recovery % 65536 ∧
  numAt bytes 3 2 = b.raiseTime % 65536 ∧ numAt bytes 5 2 = b.lowerTime % 65536 ∧ numAt bytes 7 1 = b.load % 256 ∧
  numAt bytes 8 1 = b.limit % 256 ∧ numAt bytes 9 1 = b.pos.code ∧ numAt bytes 10 1 = b.ctrl.code ∧
  numAt bytes 11 1 = b.reserving.toNat ∧ numAt bytes 12 2 = b.strokes % 65536 ∧ numAt bytes 14 1 = b.faults % 256 ∧
  numAt bytes 15 1 = b.noAnswer % 256 ∧ (b.pos ≠ .up → numAt bytes 16 4 = 0) ∧
  (b.pos = .up → (s.elapsed - b.upSince) / 1000 < 2 ^ 32 → numAt bytes 16 4 = (s.elapsed - b.upSince) / 1000) ∧
  DistanceAt bytes 20 s.elapsed (some b.nextFree) ∧ numAt bytes 24 1 = owedCode b.owed ∧
  (b.lastReply = none → byteAt bytes 25 = 0xFF) ∧ (∀ r, b.lastReply = some r → byteAt bytes 25 = replyByte r) ∧
  DistanceAt bytes 26 s.elapsed b.moveStart ∧ numAt bytes 30 1 = (pealHolds s st).toNat ∧
  numAt bytes 31 1 = b.waitingRaise.toNat

/-- READ STATUS's 12 bytes; the resolver is busy while a run is in progress, a request pending or a query pending (R67, R197, R212). -/
def ShowsStatus (s : State) (bytes : List Byte) : Prop :=
  numAt bytes 0 1 = s.port.lastCode.value ∧
  numAt bytes 1 1
    = (s.resolver.run.isSome || s.resolver.todayReq || s.resolver.standbyReq || s.resolver.query.isSome).toNat ∧
  numAt bytes 2 1 = s.time.valid.toNat ∧ numAt bytes 3 1 = s.time.ref.code ∧ numAt bytes 4 1 = s.mains.code ∧
  numAt bytes 5 1 = s.line.state.code ∧ numAt bytes 6 2 = s.attn.flags.toNat ∧
  numAt bytes 8 1 = s.attn.normalEnable.toNat + 2 * s.attn.abnormalEnable.toNat ∧
  numAt bytes 9 2 = s.attn.enables.toNat ∧ numAt bytes 11 1 = (!attnAsserted s.attn).toNat

/-- READ TIME's 26 bytes (R44). -/
def ShowsTime (t : TimeBase) (bytes : List Byte) : Prop :=
  (stdMoment t < Config.endOfRangeDay * 86400 → MomentAt bytes 0 (stdMoment t)) ∧
  (wallMoment t < Config.endOfRangeDay * 86400 → MomentAt bytes 7 (wallMoment t)) ∧
  numAt bytes 14 1 = t.summer.toNat ∧ numAt bytes 15 3 = t.instant % 2 ^ 24 ∧ numAt bytes 18 3 = t.dayLength % 2 ^ 24 ∧
  numAt bytes 21 1 = t.ref.code ∧ numAt bytes 22 1 = t.valid.toNat ∧
  (-600000 ≤ t.slew → t.slew ≤ 600000 → s24 (byteAt bytes 23) (byteAt bytes 24) (byteAt bytes 25) = t.slew)

/-- A summer rule in four bytes from a place on (R44). -/
def RuleAt (bytes : List Byte) (i : Nat) (r : SummerRule) : Prop :=
  numAt bytes i 1 = r.month % 256 ∧ numAt bytes (i + 1) 1 = r.nth % 256 ∧ numAt bytes (i + 2) 1 = r.weekday % 256 ∧
    numAt bytes (i + 3) 1 = r.hour % 256

/-- READ TIME SETTINGS's 11 bytes (R44). -/
def ShowsTimeSettings (t : TimeBase) (bytes : List Byte) : Prop :=
  (-720 ≤ t.zone → t.zone ≤ 840 → s16 (byteAt bytes 0) (byteAt bytes 1) = t.zone) ∧
  numAt bytes 2 1 = t.summerEnable.toNat ∧ RuleAt bytes 3 t.startRule ∧ RuleAt bytes 7 t.endRule

/-- READ CALENDAR SETTINGS's 97 bytes: the Sunday rank and the 24 points (R53). -/
def ShowsCalendar (c : Calendar) (bytes : List Byte) : Prop :=
  numAt bytes 0 1 = c.sundayRank % 256 ∧
  ∀ k : Fin 24, numAt bytes (1 + 4 * k.val) 2 = (c.twilight.get k).1 % 65536 ∧
    numAt bytes (3 + 4 * k.val) 2 = (c.twilight.get k).2 % 65536

/-- READ QUERY RESULT's 19 bytes (R74, R209). -/
def ShowsResult (r : Resolver) (bytes : List Byte) : Prop :=
  numAt bytes 0 1 = r.query.isSome.toNat + 2 * r.result.isSome.toNat ∧
  (r.result = none → numAt bytes 1 18 = 0) ∧
  ∀ q, r.result = some q →
    numAt bytes 1 3 = q.day % 2 ^ 24 ∧ numAt bytes 4 1 = q.weekday % 256 ∧ byteAt bytes 5 = toBcd q.easterMonth ∧
    byteAt bytes 6 = toBcd q.easterDay ∧ numAt bytes 7 1 = q.rank % 256 ∧
    (q.feast = none → byteAt bytes 8 = 0xFF) ∧ (∀ i, q.feast = some i → numAt bytes 8 1 = i.val) ∧
    numAt bytes 9 1 = q.feastName % 256 ∧ numAt bytes 10 1 = q.summerNoon.toNat ∧ numAt bytes 11 2 = q.dawn % 65536 ∧
    numAt bytes 13 2 = q.dusk % 65536 ∧ numAt bytes 15 3 = q.dayLength % 2 ^ 24 ∧ numAt bytes 18 1 = q.applying % 256

/-- An entry's twelve bytes from a place on, with the code of the lane that holds it (R207). -/
def EntryAt (bytes : List Byte) (i : Nat) (e : Entry) (lane : Nat) : Prop :=
  numAt bytes i 3 = e.instant % 2 ^ 24 ∧ numAt bytes (i + 3) 3 = e.endInstant.getD 0 % 2 ^ 24 ∧
  numAt bytes (i + 6) 1 = e.key.slot.val ∧ numAt bytes (i + 7) 1 = e.key.sub % 256 ∧ numAt bytes (i + 8) 1 = e.kind.code ∧
  numAt bytes (i + 9) 1 = e.rank % 256 ∧ numAt bytes (i + 10) 1 = e.state.code ∧
  numAt bytes (i + 11) 1 = e.carried.toNat + 2 * lane

/-- READ SHEET's 102 bytes: the head, and the eight entries from an index on, 00h where there is none (R98, R207). -/
def ShowsSheet (date status : Nat) (es : List Entry) (index : Nat) (lane : Entry → Nat) (bytes : List Byte) : Prop :=
  numAt bytes 0 3 = date % 2 ^ 24 ∧ numAt bytes 3 1 = status ∧ numAt bytes 4 2 = es.length % 65536 ∧
  ∀ k, k < 8 →
    (∀ e, es[index + k]? = some e → EntryAt bytes (6 + 12 * k) e (lane e)) ∧
    (es[index + k]? = none → numAt bytes (6 + 12 * k) 12 = 0)

/-- The code of the lane that an ACTIVE entry has: none 0, CHIME 1, TOLL 2, PEAL 3 (R207). -/
def heldBy (s : State) (e : Entry) : Nat :=
  if e.state ≠ .active then 0
  else if s.lanes.chime = some e.key then 1
  else if s.lanes.toll = some e.key then 2
  else if s.lanes.peal = some e.key then 3
  else 0

/-- A silence in five bytes from a place on (R208). -/
def SilenceAt (bytes : List Byte) (i : Nat) (x : Silence) : Prop :=
  match x with
  | .none => numAt bytes i 1 = 0
  | .bells set => numAt bytes i 1 = 1 ∧ setAt bytes (i + 1) = set
  | .all => numAt bytes i 1 = 2

/-- An effective state in 26 bytes from a place on (R208). -/
def EffectiveAt (bytes : List Byte) (i : Nat) (e : Effective) : Prop :=
  SilenceAt bytes i e.strike ∧ SilenceAt bytes (i + 5) e.tune ∧ SilenceAt bytes (i + 10) e.toll ∧
  SilenceAt bytes (i + 15) e.peal ∧ setAt bytes (i + 20) = e.muffle ∧
  numAt bytes (i + 24) 1 = (match e.scene with
    | some sc => sc.val + 1
    | none => 0) ∧
  numAt bytes (i + 25) 1 = e.dials.toNat

/-- What an entry imposes, in 12 bytes from a place on (R208). -/
def BodyAt (bytes : List Byte) (i : Nat) (b : OverrideBody) : Prop :=
  match b with
  | .silence k bells => numAt bytes i 1 = 0 ∧ byteAt bytes (i + 1) = kindScopeByte k ∧ setAt bytes (i + 2) = bells
  | .muffle set => numAt bytes i 1 = 1 ∧ setAt bytes (i + 6) = set
  | .lights sc => numAt bytes i 1 = 2 ∧ numAt bytes (i + 10) 1 = sc.val + 1
  | .dialHold ds => numAt bytes i 1 = 3 ∧ numAt bytes (i + 11) 1 = ds.toNat

/-- READ OVERRIDES's 396 bytes: the count, the last id, the effective state, and each entry, bottom first, with the summary of those
below it; 00h in the positions that hold none (R110, R208). -/
def ShowsOverrides (o : Overrides) (bytes : List Byte) : Prop :=
  numAt bytes 0 1 = o.entries.length % 256 ∧ numAt bytes 1 1 = o.lastId % 256 ∧
  EffectiveAt bytes 2 (effectiveOf o.entries) ∧
  (∀ k, o.entries.length ≤ k → k < 8 → numAt bytes (28 + 46 * k) 46 = 0) ∧
  ∀ k x, o.entries[k]? = some x →
    numAt bytes (28 + 46 * k) 1 = x.id % 256 ∧ BodyAt bytes (29 + 46 * k) x.body ∧
    (x.expiry = none → numAt bytes (41 + 46 * k) 7 = 0) ∧
    (∀ m, x.expiry = some m → m < Config.endOfRangeDay * 86400 → MomentAt bytes (41 + 46 * k) m) ∧
    EffectiveAt bytes (48 + 46 * k) (effectiveOf (o.entries.take k))

/-- READ TUNE's 18 bytes (R145). -/
def ShowsTune (s : State) (n : TuneNo) (bytes : List Byte) : Prop :=
  let x := getTune s n
  numAt bytes 0 1 = x.state.code ∧ numAt bytes 1 2 = x.first % 65536 ∧ numAt bytes 3 2 = x.length % 65536 ∧
  numAt bytes 5 2 = x.tick % 65536 ∧ numAt bytes 7 2 = x.expected % 65536 ∧ numAt bytes 9 2 = x.computed % 65536 ∧
  numAt bytes 11 2 = x.plays % 65536 ∧ numAt bytes 13 2 = x.skipped % 65536 ∧ numAt bytes 15 1 = x.locked.toNat ∧
  (numAt bytes 16 1 = 1 ↔ ∃ i, (getSlot s i).state = .live ∧ refersTune (getSlot s i).image n = true) ∧
  (numAt bytes 17 1 = 1 ↔ ∃ p, s.tunes.player = some p ∧ p.tune = some n)

/-- READ LINE's 10 bytes (R166). -/
def ShowsLine (l : Line) (bytes : List Byte) : Prop :=
  numAt bytes 0 1 = l.state.code ∧ numAt bytes 1 1 = l.cause.code ∧ numAt bytes 2 1 = l.answerConsole.toNat ∧
  numAt bytes 3 1 = l.queue.length % 256 ∧ numAt bytes 4 1 = l.faults % 256 ∧ numAt bytes 5 1 = l.forced % 256 ∧
  numAt bytes 6 2 = l.arbLosses % 65536 ∧ numAt bytes 8 1 = l.busErrors % 256 ∧ numAt bytes 9 1 = l.recoveryWanted.toNat

/-- READ DIAL's 20 bytes: the configuration, the living fields, the impulse in progress, the target and the lag of the present wall time,
and the contact's level (R172, R181). -/
def ShowsDial (s : State) (d : DialNo) (closed : Bool) (bytes : List Byte) : Prop :=
  let x := getDial s d
  numAt bytes 0 1 = x.present.toNat ∧ numAt bytes 1 2 = x.width % 65536 ∧ numAt bytes 3 1 = x.interval % 256 ∧
  numAt bytes 4 2 = x.waitLimit % 65536 ∧ numAt bytes 6 1 = x.syncUsed.toNat ∧ numAt bytes 7 2 = x.hand % 65536 ∧
  numAt bytes 9 1 = x.polarity.code ∧ numAt bytes 10 1 = x.state.code ∧ numAt bytes 11 1 = x.slips % 256 ∧
  numAt bytes 12 1 = x.sensedOpen.toNat ∧ numAt bytes 13 1 = x.impulse.isSome.toNat ∧
  (∀ p, x.impulse = some p → numAt bytes 14 1 = p.polarity.code) ∧
  numAt bytes 15 2 = wallMoment s.time % 43200 / 30 ∧
  (x.hand < 1440 → numAt bytes 17 2 = (wallMoment s.time % 43200 / 30 + 1440 - x.hand) % 1440) ∧
  numAt bytes 19 1 = closed.toNat

/-- A zone's seven bytes from a place on (R192). -/
def ZoneAt (bytes : List Byte) (i : Nat) (z : Zone) : Prop :=
  numAt bytes i 1 = z.low % 256 ∧ numAt bytes (i + 1) 1 = z.mid % 256 ∧ numAt bytes (i + 2) 1 = z.full % 256 ∧
  numAt bytes (i + 3) 1 = z.priority % 256 ∧ numAt bytes (i + 4) 1 = z.wanted % 256 ∧ numAt bytes (i + 5) 1 = z.present % 256 ∧
  numAt bytes (i + 6) 1 = (decide (z.present < z.wanted)).toNat

/-- READ LIGHTING's bytes: the account, the mains state, the scenes and the governing slot, the zones, the waiting requests, and the
levels of the scene named (R192). -/
def ShowsLighting (s : State) (sc : SceneNo) (bytes : List Byte) : Prop :=
  let l := s.lights
  let w := l.waiting.length
  numAt bytes 0 2 = l.allowance % 65536 ∧ numAt bytes 2 2 = reservTotal l % 65536 ∧ numAt bytes 4 2 = zoneTotal l % 65536 ∧
  numAt bytes 6 2 = committed l % 65536 ∧ numAt bytes 8 2 = freeLoad l % 65536 ∧ numAt bytes 10 1 = s.mains.code ∧
  numAt bytes 11 1 = (match (effective s).scene with
    | some g => g.val + 1
    | none => 0) ∧
  (governingLit s = none → byteAt bytes 12 = 0xFF) ∧ (∀ i, governingLit s = some i → numAt bytes 12 1 = i.val) ∧
  numAt bytes 13 1 = (match governingScene s with
    | some g => g.val + 1
    | none => 0) ∧
  (∀ z, ZoneAt bytes (14 + 7 * z.val) (l.zones.get z)) ∧ numAt bytes 70 1 = w % 256 ∧
  (∀ k p, l.waiting[k]? = some p →
    numAt bytes (71 + 2 * k) 1 = stationNo p.1 ∧ numAt bytes (72 + 2 * k) 1 = p.2 % 256) ∧
  ∀ z : ZoneNo, numAt bytes (71 + 2 * w + z.val) 1 = ((l.scenes.get sc).get z) % 256

end Sys2Proof.Machine
end

