-- ==== Sys2Proof/Certificates/Slice0/Obligations.lean ====
section
/-! DEFINITION. The statements about the model, chapter by chapter of the spec. Where a statement says that a command answers a
next state, its hypotheses are on the state and the operands alone. The frames are said by whole record updates, or by the two
views of Sys2Proof/Safety.lean: the settings, and all that work in the tower leaves alone. -/

open Sys2Proof Sys2Proof.Machine

/-! ### The block as a machine -/

/-- A step runs the command at the front of the queue on the state with the queue's rest; on an empty queue it runs the first event
that is due, and lets a millisecond pass where none is (the model's choice: log entries 2 and 3). -/
def Obligations.StepRunsQueue : Prop :=
  (∀ (c : Instr) (rest : List Instr) (s : State), s.pending = c :: rest →
    Machine.step s = Machine.exec c { s with pending := rest }) ∧
  (∀ (s : State) (c : Instr), s.pending = [] → dueEvent s = some c → Machine.step s = Machine.exec c s) ∧
  (∀ s : State, s.pending = [] → dueEvent s = none → running s = true →
    Machine.step s
      = .next { s with elapsed := s.elapsed + 1, time := { s.time with fraction := s.time.fraction + 1 } }) ∧
  (∀ s : State, s.pending = [] → running s = false → Machine.step s = .next s)

/-- No command touches the queue of the commands that wait (the model's choice: log entry 2). -/
def Obligations.CommandsLeaveQueue : Prop :=
  ∀ (c : Instr) (s t : State), Machine.exec c s = .next t → t.pending = s.pending

/-- No event, but for a cold start, writes a setting: what the host configured changes by its frames alone. -/
def Obligations.EventsKeepSettings : Prop :=
  ∀ (c : Instr) (s t : State), encodeFrame c = none → (∀ high, c ≠ .coldStart high) → Machine.exec c s = .next t →
    settingsView t = settingsView s

/-- Frames that the port does not serve, with the logic stopped or the RESET pin low, have no effect; and while the logic does not
run no event but those of power and of the RESET pin has any (R200, R202). -/
def Obligations.SilentPartStandsStill : Prop :=
  (∀ (c : Instr) (f : List Byte) (s : State), encodeFrame c = some f → portServed s = false → Machine.exec c s = .next s) ∧
  (∀ (c : Instr) (s : State), running s = false → (∀ o, c ≠ .resetPin o) → c ≠ .resetPinReleased →
    (∀ high, c ≠ .coldStart high) → (∀ high o, c ≠ .powerUpBackupHeld high o) → c ≠ .partUnpowered →
    c ≠ .backupRetentionLost → Machine.exec c s = .next s)

/-- A refused frame changes the port alone, and the levels that the frame sampled; a frame that is carried out sets the code to NONE,
but for READ STATUS, which leaves it as it was (R196). -/
def Obligations.RefusalsChangeNothingElse : Prop :=
  ∀ (c : Instr) (f : List Byte) (s t : State), encodeFrame c = some f → portServed s = true → Machine.exec c s = .next t →
    (c = .readStatus → t.port.lastCode = s.port.lastCode) ∧
    (t.port.lastCode ≠ .none → { t with port := s.port, pins := s.pins } = s) ∧
    (t.port.lastCode ≠ .none → c ≠ .readStatus → t.port.stream = [])

/-- The port reads back the frame of every command it has, with every operand byte, and every level that the frame samples. -/
def Obligations.FramesDecodeBack : Prop :=
  ∀ (lv : Levels) (c : Instr) (f : List Byte), c.wellFormed = true → samples lv c = true → encodeFrame c = some f →
    decodeFrame lv f = some c

/-! ### Reset and the laws of the whole part -/

/-- What a cold start leaves in every block, each field that a rule names at the value that the rule states: the time base (R28) and its
receiver (R35), the observance table and its protection (R1, R10, R24, R25), the calendar (R53, R56), the resolver, both sheets and the
lanes (R75, R77, R78), the override stack (R99, R101), the bells (R111, R112), the tunes (R26, R137), the line (R151), the dials (R169,
R170), the lighting unit (R182, R183, R186), the attention unit (R198, R199), the refusal code (R196), and the latch set (R202). What no
table of a cold start lists is none: the receiver's last byte (log entry 39, DEDUCED), and deferred strokes, polls, due impulses, kept
closures and put-off sensings. Left out: the pins' levels and that mains is present (log entry 1, DESIGN CHOICE), and the model's own
counts, note memory and marks (entries 9, 18 and 36, DESIGN CHOICE). -/
def Obligations.ResetValues : Prop :=
  State.reset.time
    = { stdDay := 0, stdSec := 0, fraction := 0, slew := 0, ref := .free, refTimer := 0, candidate := none, waiting := none
        assembling := [], lastByte := none, valid := false, zone := 0, summerEnable := false, startRule := ⟨3, 5, 0, 1⟩
        endRule := ⟨10, 5, 0, 1⟩, summer := false, localDate := 0, instant := 0, dayLength := 86400 } ∧
  (∀ i, getSlot State.reset i
    = { state := .empty, image := clearedImage, lastDay := none, performed := 0, missed := 0, last := .none, locked := true }) ∧
  (∀ k, k < 32 → imgNat clearedImage k = if k = 3 then 15 else 0) ∧
  (State.reset.table.range = .none ∧ State.reset.table.complement = false ∧ State.reset.table.scheme = .rangeOnly ∧
    State.reset.table.guard = false) ∧
  (State.reset.calendar.sundayRank = 5 ∧ ∀ p, State.reset.calendar.twilight.get p = (360, 1080)) ∧
  (State.reset.resolver.todayReq = false ∧ State.reset.resolver.standbyReq = false ∧ State.reset.resolver.query = none ∧
    State.reset.resolver.run = none ∧ State.reset.resolver.result = none) ∧
  (State.reset.sheets.today.entries = [] ∧ State.reset.sheets.standby.entries = [] ∧ State.reset.sheets.status = .missing ∧
    ∀ i, State.reset.sheets.today.tallies.get i = 0 ∧ State.reset.sheets.standby.tallies.get i = 0) ∧
  ((∀ lane, laneKey State.reset lane = none) ∧ State.reset.lanes.tollRun = none ∧ activeQuiet State.reset = [] ∧
    ∀ i, State.reset.lanes.lit.get i = false) ∧
  (State.reset.overrides = ⟨[], 0⟩ ∧ nextId State.reset.overrides = 1) ∧
  ((∀ st, getBell State.reset st
    = { present := false, hammer := false, swing := false, recovery := 1000, raiseTime := 60, lowerTime := 60, load := 0
        limit := 60, pos := .absent, ctrl := .automatic, reserving := false, strokes := 0, faults := 0, noAnswer := 0
        upSince := 0, nextFree := State.reset.elapsed, owed := none, lastReply := none, moveStart := none, deferred := []
        waitingRaise := false, nextPoll := none }) ∧
    State.reset.peal = none) ∧
  ((∀ n, (getTune State.reset n).state = .empty ∧ (getTune State.reset n).first = 0 ∧ (getTune State.reset n).length = 0 ∧
    (getTune State.reset n).tick = 0 ∧ (getTune State.reset n).expected = 0 ∧ (getTune State.reset n).computed = 0 ∧
    (getTune State.reset n).plays = 0 ∧ (getTune State.reset n).skipped = 0 ∧ (getTune State.reset n).locked = true) ∧
    State.reset.tunes.player = none) ∧
  State.reset.line
    = { state := .idle, cause := .none, queue := [], frame := .none, answerConsole := true, faults := 0, forced := 0
        arbLosses := 0, busErrors := 0, recoveryWanted := false, attempt := none } ∧
  (∀ d, getDial State.reset d
    = { present := false, width := 1000, interval := 2, waitLimit := 150, syncUsed := false, hand := 0, polarity := .positive
        state := .stopped, impulse := none, lastStart := none, sensedOpen := false, slips := 0, due := none, closure := false
        senseAtEnd := false }) ∧
  (State.reset.lights.allowance = 0 ∧ committed State.reset.lights = 0 ∧ State.reset.lights.waiting = [] ∧
    (∀ st, State.reset.lights.reserv.get st = none) ∧ (∀ z, State.reset.lights.zones.get z = ⟨0, 0, 0, 1, 0, 0⟩) ∧
    (∀ sc z, (State.reset.lights.scenes.get sc).get z = 0)) ∧
  (State.reset.attn.flags = 0 ∧ State.reset.attn.enables = 0 ∧ State.reset.attn.normalEnable = false ∧
    State.reset.attn.abnormalEnable = false ∧ attnAsserted State.reset.attn = false) ∧
  State.reset.port.lastCode = .none ∧ State.reset.power = .running ∧ State.reset.latch = true

/-- The laws that the next statements say every step keeps hold after a cold start. -/
def Obligations.ResetKeepsLaws : Prop :=
  lightLaw State.reset ∧ reservLaw State.reset ∧ openLaw State.reset ∧ stackLaw State.reset ∧ handLaw State.reset ∧
    noteLaw State.reset

/-- Every step keeps the law of the lighting unit: the committed load never exceeds the allowance, no zone stands above its wanted
level, and the loads of a zone rise with its level (R182, R183, R186). -/
def Obligations.StepKeepsSupplyLaw : Prop :=
  ∀ s t : State, lightLaw s → Machine.step s = .next t → lightLaw t

/-- Every step keeps the account true to the bells: a bell is marked reserving just where the account records its reservation. -/
def Obligations.StepKeepsReservations : Prop :=
  ∀ s t : State, reservLaw s → Machine.step s = .next t → reservLaw t

/-- Every step keeps the law of open entries: a slot that is not LIVE has no PENDING, DUE or ACTIVE entry on either sheet (R2). -/
def Obligations.StepKeepsOpenEntryLaw : Prop :=
  ∀ s t : State, openLaw s → Machine.step s = .next t → openLaw t

/-- Every step keeps the bounds: at most eight overrides (R99), every hand position on the face (R170), and the note memory in its
canonical form. -/
def Obligations.StepKeepsBounds : Prop :=
  ∀ s t : State, Machine.step s = .next t →
    (stackLaw s → stackLaw t) ∧ (handLaw s → handLaw t) ∧ (noteLaw s → noteLaw t)

/-! ### The observance table (chapter 1) -/

/-- WRITE RECORD: an unprotected EMPTY or DRAFT slot takes the image as written and is DRAFT, and nothing else changes but the port; a
LIVE or SPENT slot refuses it with WRONG_STATE (R13). -/
def Obligations.WriteRecordMakesDraft : Prop :=
  ∀ (s : State) (b : Byte) (bytes : List Byte) (i : SlotNo) (img : Image), portServed s = true → slotOf b = some i →
    imageOf bytes = some img → slotProtected s.table i = false →
    ((getSlot s i).state = .empty ∨ (getSlot s i).state = .draft →
      Machine.exec (.writeRecord (b :: bytes)) s
        = .next
          { s with
            table := { s.table with slots := put s.table.slots i { getSlot s i with state := .draft, image := img } }
            port := ⟨.none, []⟩ }) ∧
    ((getSlot s i).state = .live ∨ (getSlot s i).state = .spent →
      Machine.exec (.writeRecord (b :: bytes)) s = .next { s with port := ⟨.wrongState, []⟩ })

/-- An accepted WRITE RECORD reads back: the slot's READ RECORD streams 41 bytes, the image bytes as written among them, and changes the
port alone (R13, R14). -/
def Obligations.RecordReadsBack : Prop :=
  ∀ (s t : State) (b : Byte) (bytes rest : List Byte), portServed s = true →
    Machine.exec (.writeRecord (b :: bytes)) s = .next t → t.port.lastCode = .none →
    ∃ stream, Machine.exec (.readRecord (b :: rest)) t = .next { t with port := ⟨.none, stream⟩ } ∧ stream.length = 41 ∧
      stream.head? = some 0x01 ∧ (stream.drop 2).take 32 = bytes

/-- PUBLISH RECORD on an unprotected DRAFT slot that passes every check: the slot is LIVE with its image and history as they were, both
rebuilds are requested where time-valid is set, a new today request being one from the present instant, a FRESH standby is STALE, a run
in progress goes on with the mark that a trigger came after its start, and nothing else changes (R15 to R17, R67, R68, R70). -/
def Obligations.PublishMakesLive : Prop :=
  ∀ (s : State) (b : Byte) (i : SlotNo), portServed s = true → slotOf b = some i → slotProtected s.table i = false →
    (getSlot s i).state = .draft → (recordOf (getSlot s i).image).isSome = true →
    onceBefore s (getSlot s i).image = false → tunesReady s (getSlot s i).image = true →
    ∃ t, Machine.exec (.publishRecord [b]) s = .next t ∧
      t.table = { s.table with slots := put s.table.slots i { getSlot s i with state := .live } } ∧
      t.sheets = { s.sheets with status := if s.sheets.status = .fresh then .stale else s.sheets.status } ∧
      (t.resolver.todayReq = (s.time.valid || s.resolver.todayReq)) ∧
      (t.resolver.standbyReq = ((s.time.valid && decide (s.time.localDate ≠ lastDay)) || s.resolver.standbyReq)) ∧
      t.resolver.fromZero
        = (if s.time.valid = true ∧ s.resolver.todayReq = false then false else s.resolver.fromZero) ∧
      t.resolver.run = (s.resolver.run.map fun r => { r with triggered := true }) ∧
      t.resolver.query = s.resolver.query ∧ t.resolver.result = s.resolver.result ∧ t.port = ⟨.none, []⟩ ∧
      { t with table := s.table, sheets := s.sheets, resolver := s.resolver, port := s.port } = s

/-- WITHDRAW RECORD on an unprotected LIVE or SPENT slot: the slot is DRAFT with its image, its lock and no open entry on either sheet, it
is not in the lit-record set, a run in progress has no entry of it left to install, and settings, clock, overrides, dials and pins are
as they were (R2, R18, R19, R69). -/
def Obligations.WithdrawTakesRecordBack : Prop :=
  ∀ (s : State) (b : Byte) (i : SlotNo), portServed s = true → slotOf b = some i → slotProtected s.table i = false →
    ((getSlot s i).state = .live ∨ (getSlot s i).state = .spent) →
    ∃ t, Machine.exec (.withdrawRecord [b]) s = .next t ∧ (getSlot t i).state = .draft ∧ hasOpen t i = false ∧
      t.lanes.lit.get i = false ∧ (∀ r, t.resolver.run = some r → ∀ e ∈ r.generated, e.key.slot ≠ i) ∧
      (getSlot t i).locked = (getSlot s i).locked ∧ settingsView t = settingsView s ∧
      t.time = s.time ∧ t.overrides = s.overrides ∧ t.dials = s.dials ∧ t.pins = s.pins ∧ t.elapsed = s.elapsed ∧
      t.port = ⟨.none, []⟩

/-- RETIRE RECORD on an unprotected slot that holds a record: the slot is EMPTY with the cleared image, cleared outcome fields and its
lock flag as it was; no entry of it is on either sheet, nor among those a run in progress has generated, its tallies are 0, and it is
not in the lit-record set; other slots' images and locks, the notes, the clock, the overrides and the dials are as they were (R2, R20,
R66, R69). -/
def Obligations.RetireEmptiesSlot : Prop :=
  ∀ (s : State) (b : Byte) (i : SlotNo), portServed s = true → slotOf b = some i → slotProtected s.table i = false →
    (getSlot s i).state ≠ .empty →
    ∃ t, Machine.exec (.retireRecord [b]) s = .next t ∧
      getSlot t i = ⟨.empty, clearedImage, none, 0, 0, .none, (getSlot s i).locked⟩ ∧
      (∀ e, e ∈ t.sheets.today.entries ∨ e ∈ t.sheets.standby.entries → e.key.slot ≠ i) ∧
      t.sheets.today.tallies.get i = 0 ∧ t.sheets.standby.tallies.get i = 0 ∧ t.lanes.lit.get i = false ∧
      (∀ r, t.resolver.run = some r → ∀ e ∈ r.generated, e.key.slot ≠ i) ∧
      (∀ j, j ≠ i → (getSlot t j).image = (getSlot s j).image ∧ (getSlot t j).locked = (getSlot s j).locked) ∧
      t.tunes.notes = s.tunes.notes ∧ t.time = s.time ∧ t.overrides = s.overrides ∧ t.dials = s.dials ∧
      t.port = ⟨.none, []⟩

/-- The refusals of the record commands, in the order of R12: slot number, protection, state, then PUBLISH's own checks. Those are met
just by an image whose fields lie in the ranges of R4 to R8 and R15 and R16, whose ONCE date, if it has one, is not before the current
standard date, and whose tunes are READY; and the record read from it has the kind, rank, window and grace of its bytes (R12, R15 to R17,
R23, in the layout of R205). -/
def Obligations.RecordCommandsRefuse : Prop :=
  (∀ img : Image, (recordOf img).isSome = true ↔ ∃ kind, FieldsInRange img kind) ∧
  (∀ (img : Image) (r : Record), recordOf img = some r →
    r.kind.code = imgNat img 0 ∧ r.rank = imgNat img 1 ∧ r.lowest = imgNat img 2 ∧ r.highest = imgNat img 3 ∧
      r.grace = imgNat img 21) ∧
  (∀ (s : State) (img : Image), (recordOf img).isSome = true →
    (onceBefore s img = true ↔
      ∃ day, imgNat img 4 = 6 ∧ bcdDate (imgByte img 5) (imgByte img 6) (imgByte img 7) (imgByte img 8) = some day ∧
        day < s.time.stdDay) ∧
    (tunesReady s img = true ↔ ∀ n, refersTune img n = true → (getTune s n).state = .ready)) ∧
  ∀ (s : State) (b : Byte), portServed s = true →
    (slotOf b = none →
      Machine.exec (.publishRecord [b]) s = .next { s with port := ⟨.badSlot, []⟩ } ∧
      Machine.exec (.withdrawRecord [b]) s = .next { s with port := ⟨.badSlot, []⟩ } ∧
      Machine.exec (.retireRecord [b]) s = .next { s with port := ⟨.badSlot, []⟩ }) ∧
    (∀ i, slotOf b = some i → slotProtected s.table i = true →
      Machine.exec (.publishRecord [b]) s = .next { s with port := ⟨.protected_, []⟩ } ∧
      Machine.exec (.withdrawRecord [b]) s = .next { s with port := ⟨.protected_, []⟩ } ∧
      Machine.exec (.retireRecord [b]) s = .next { s with port := ⟨.protected_, []⟩ }) ∧
    (∀ i, slotOf b = some i → slotProtected s.table i = false →
      ((getSlot s i).state = .empty →
        Machine.exec (.publishRecord [b]) s = .next { s with port := ⟨.empty, []⟩ } ∧
        Machine.exec (.withdrawRecord [b]) s = .next { s with port := ⟨.empty, []⟩ } ∧
        Machine.exec (.retireRecord [b]) s = .next { s with port := ⟨.empty, []⟩ }) ∧
      ((getSlot s i).state = .draft →
        Machine.exec (.withdrawRecord [b]) s = .next { s with port := ⟨.wrongState, []⟩ }) ∧
      ((getSlot s i).state = .live ∨ (getSlot s i).state = .spent →
        Machine.exec (.publishRecord [b]) s = .next { s with port := ⟨.wrongState, []⟩ }) ∧
      ((getSlot s i).state = .draft → recordOf (getSlot s i).image = none ∨ onceBefore s (getSlot s i).image = true →
        Machine.exec (.publishRecord [b]) s = .next { s with port := ⟨.badValue, []⟩ }) ∧
      ((getSlot s i).state = .draft → (recordOf (getSlot s i).image).isSome = true →
        onceBefore s (getSlot s i).image = false → tunesReady s (getSlot s i).image = false →
        Machine.exec (.publishRecord [b]) s = .next { s with port := ⟨.notReady, []⟩ }))

/-- FIND RECORDS streams the slots from the starting slot upward that match every criterion given, at most 16 of them and none left out
below the last, then the slot to go on from, FFh for none; it changes the port alone (R22; the order of the two is log entry 16). -/
def Obligations.FindRecordsStreamsMatches : Prop :=
  ∀ (s : State) (b k st t bell : Byte) (rest : List Byte) (start : SlotNo) (kind : Option Kind) (state : Option SlotState)
    (tune : Option TuneNo) (station : Option Station), portServed s = true → slotOf b = some start →
    criterion k kindOf = .ok kind → criterion st slotStateOf = .ok state → criterion t tuneOf = .ok tune →
    criterion bell stationOf = .ok station →
    ∃ (found : List SlotNo) (more : Byte),
      Machine.exec (.findRecords (b :: k :: st :: t :: bell :: rest)) s
        = .next { s with port := ⟨.none, found.map (fun i => BitVec.ofNat 8 i.val) ++ [more]⟩ } ∧
      found.length ≤ 16 ∧ found.Pairwise (· < ·) ∧
      (∀ i ∈ found, start ≤ i ∧ slotMatches s kind state tune station i = true) ∧
      (∀ i, start ≤ i → slotMatches s kind state tune station i = true → i ∉ found →
        found.length = 16 ∧ ∀ j ∈ found, j < i) ∧
      (more = match found.getLast? with
        | some i => if found.length = 16 ∧ i.val < 127 then BitVec.ofNat 8 (i.val + 1) else 0xFF
        | none => 0xFF)

/-- The lock commands set and clear the flags they name, of slots and of tunes, one or all, and change nothing else but the port; a number
out of range is refused (R24, R26). -/
def Obligations.LockCommandsSetFlags : Prop :=
  ∀ s : State, portServed s = true →
    (∀ (b : Byte) (i : SlotNo), slotOf b = some i →
      Machine.exec (.lockSlot [b]) s
        = .next
          { s with
            table := { s.table with slots := put s.table.slots i { getSlot s i with locked := true } }
            port := ⟨.none, []⟩ } ∧
      Machine.exec (.unlockSlot [b]) s
        = .next
          { s with
            table := { s.table with slots := put s.table.slots i { getSlot s i with locked := false } }
            port := ⟨.none, []⟩ }) ∧
    Machine.exec (.lockAll []) s
      = .next
        { s with
          table := { s.table with slots := s.table.slots.map fun x => { x with locked := true } }
          port := ⟨.none, []⟩ } ∧
    Machine.exec (.unlockAll []) s
      = .next
        { s with
          table := { s.table with slots := s.table.slots.map fun x => { x with locked := false } }
          port := ⟨.none, []⟩ } ∧
    (∀ (b : Byte) (n : TuneNo), tuneOf b.toNat = some n →
      Machine.exec (.lockTune [b]) s
        = .next
          { s with
            tunes := { s.tunes with tunes := put s.tunes.tunes n { getTune s n with locked := true } }
            port := ⟨.none, []⟩ } ∧
      Machine.exec (.unlockTune [b]) s
        = .next
          { s with
            tunes := { s.tunes with tunes := put s.tunes.tunes n { getTune s n with locked := false } }
            port := ⟨.none, []⟩ }) ∧
    Machine.exec (.lockTune [0]) s
      = .next
        { s with
          tunes := { s.tunes with tunes := s.tunes.tunes.map fun x => { x with locked := true } }
          port := ⟨.none, []⟩ } ∧
    Machine.exec (.unlockTune [0]) s
      = .next
        { s with
          tunes := { s.tunes with tunes := s.tunes.tunes.map fun x => { x with locked := false } }
          port := ⟨.none, []⟩ } ∧
    (∀ b : Byte, slotOf b = none →
      Machine.exec (.lockSlot [b]) s = .next { s with port := ⟨.badSlot, []⟩ } ∧
      Machine.exec (.unlockSlot [b]) s = .next { s with port := ⟨.badSlot, []⟩ }) ∧
    (∀ b : Byte, b ≠ 0 → tuneOf b.toNat = none →
      Machine.exec (.lockTune [b]) s = .next { s with port := ⟨.badValue, []⟩ } ∧
      Machine.exec (.unlockTune [b]) s = .next { s with port := ⟨.badValue, []⟩ })

/-- WRITE PROTECTION with in-range values replaces the four settings where the guard held is off or the key is OPEN, and is refused with
PROTECTED where the guard held is on and the key CLOSED; READ PROTECTION streams 25 bytes, the settings and the key first (R25, R27). The
codes of the lock scheme and of the key's level, which no table gives, are the model's (log entry 17, DESIGN CHOICE). -/
def Obligations.ProtectionIsGuarded : Prop :=
  ∀ (s : State) (key : KeyLevel) (r c sch g : Byte) (range : ProtRange) (compl : Bool) (scheme : LockScheme) (guard : Bool),
    portServed s = true → protRangeOf r.toNat = some range → flagOf c = some compl → schemeOf sch = some scheme →
    flagOf g = some guard →
    (s.table.guard = false ∨ key = .opened →
      Machine.exec (.writeProtection [r, c, sch, g] key) s
        = .next
          { s with
            pins := { s.pins with key := key }
            table := { s.table with range := range, complement := compl, scheme := scheme, guard := guard }
            port := ⟨.none, []⟩ }) ∧
    (s.table.guard = true → key = .closed →
      Machine.exec (.writeProtection [r, c, sch, g] key) s
        = .next { s with pins := { s.pins with key := key }, port := ⟨.protected_, []⟩ }) ∧
    ∃ stream,
      Machine.exec (.readProtection key) s
        = .next { s with pins := { s.pins with key := key }, port := ⟨.none, stream⟩ } ∧
      stream.length = 25 ∧
      stream.take 5 = [BitVec.ofNat 8 s.table.range.code, flagByte s.table.complement, BitVec.ofNat 8 s.table.scheme.code,
        flagByte s.table.guard, keyCode key]

/-! ### The time base (chapter 2) -/

/-- SET TIME, where the reference is not LOCKED and the date and time are possible, steps to the moment given, and WRITE TIME SETTINGS,
where its checks pass and something changes, steps to the moment that keeps UTC: everything derived is derived anew, expired overrides go,
TIME_STEPPED is set, and no other setting changes (R40, R41, R43, R109). Within the day a forward step makes of each entry of today's sheet
what R92 says, and another changes none; the lit-record set is the sheet's, and both rebuilds are requested. Into another date the ACTIVE
entries are CUT_SHORT, a forward step makes the DUE and PENDING ones MISSED, both sheets are empty and the builds are requested anew (R68,
R72, R84, R92, R93). This is said where no request waits for load, the peal has nothing to go on to and keys are distinct; what a record
shows, of a slot with one open entry, and, at a step into another date, of lanes that hold an ACTIVE entry of their own kinds. That an
override whose expiry comes with the step still counts for the sheet is the model's choice (log entry 27, DESIGN CHOICE). A message that
waits at the change of offset moves with it (log entry 40, DEDUCED). A step that would leave the range is not meant here. SET TIME is
refused with WRONG_STATE while LOCKED, then with BAD_VALUE for a date or time that is none; WRITE TIME SETTINGS with BAD_VALUE for an
offset, a rule or a moment out of its range, equal months, or an enable that is no flag (R203); and four settings that all equal those held
change nothing. The months and hours of the rules are read as binary numbers, which is the model's choice (log entry 15, DESIGN CHOICE). -/
def Obligations.StepsSetTheTime : Prop :=
  (∀ (s : State) (c y mo d h mi se : Byte) (day sec : Nat), portServed s = true → s.time.ref ≠ .locked →
    bcdDate c y mo d = some day → bcdTime h mi se = some sec →
    (derive (hostSet day sec s.time)).localDate < Config.endOfRangeDay →
    ∃ t, Machine.exec (.setTime [c, y, mo, d, h, mi, se]) s = .next t ∧
      t.time = derive
        { s.time with stdDay := day, stdSec := sec, fraction := 0, slew := 0, candidate := none, valid := true } ∧
      flagSet t.attn .timeStepped = true ∧
      t.overrides.entries = s.overrides.entries.filter (fun o => !expired (stdMoment t.time) o) ∧
      settingsView t = settingsView s ∧ t.mains = s.mains ∧ t.elapsed = s.elapsed ∧ t.pins = s.pins ∧
      t.port = ⟨.none, []⟩ ∧
      (s.lights.waiting = [] → settlePeal s = s → (s.sheets.today.entries.map Entry.key).Nodup → StepActs s t)) ∧
  (∀ (s : State) (z1 z0 en m1 n1 w1 h1 m2 n2 w2 h2 : Byte) (enable : Bool) (r1 r2 : SummerRule), portServed s = true →
    flagOf en = some enable → ruleOf m1 n1 w1 h1 23 = some r1 → ruleOf m2 n2 w2 h2 22 = some r2 →
    settingsOk s.time (s16 z1 z0) r1 r2 = true → sameSettings s.time (s16 z1 z0) enable r1 r2 = false →
    (derive (withSettings (s16 z1 z0) enable r1 r2 s.time)).localDate < Config.endOfRangeDay →
    ∃ t, Machine.exec (.writeTimeSettings [z1, z0, en, m1, n1, w1, h1, m2, n2, w2, h2]) s = .next t ∧
      t.time.zone = s16 z1 z0 ∧ t.time.summerEnable = enable ∧ t.time.startRule = r1 ∧ t.time.endRule = r2 ∧
      (stdMoment t.time : Int) - t.time.zone * 60 = (stdMoment s.time : Int) - s.time.zone * 60 ∧
      t.time = derive t.time ∧ t.time.fraction = s.time.fraction ∧ t.time.slew = s.time.slew ∧
      (∀ (w : WaitingMessage) (n : Nat), s.time.waiting = some w →
        (n : Int) = (w.moment : Int) + (s16 z1 z0 - s.time.zone) * 60 → n < Config.endOfRangeDay * 86400 →
        t.time.waiting = some ⟨n, w.received⟩) ∧
      (s.time.waiting = none → t.time.waiting = none) ∧
      t.time.valid = s.time.valid ∧ t.time.ref = s.time.ref ∧ flagSet t.attn .timeStepped = true ∧
      t.overrides.entries = s.overrides.entries.filter (fun o => !expired (stdMoment t.time) o) ∧
      settingsView t = { settingsView s with time := (s16 z1 z0, enable, r1, r2) } ∧ t.mains = s.mains ∧
      t.elapsed = s.elapsed ∧ t.pins = s.pins ∧ t.port = ⟨.none, []⟩ ∧
      (s.lights.waiting = [] → settlePeal s = s → (s.sheets.today.entries.map Entry.key).Nodup → StepActs s t)) ∧
  (∀ (s : State) (c y mo d h mi se : Byte), portServed s = true →
    (s.time.ref = .locked →
      Machine.exec (.setTime [c, y, mo, d, h, mi, se]) s = .next { s with port := ⟨.wrongState, []⟩ }) ∧
    (s.time.ref ≠ .locked → ¬PossibleDate c y mo d ∨ (∀ sec, ¬TimeIs h mi se sec) →
      Machine.exec (.setTime [c, y, mo, d, h, mi, se]) s = .next { s with port := ⟨.badValue, []⟩ })) ∧
  (∀ (s : State) (z1 z0 en m1 n1 w1 h1 m2 n2 w2 h2 : Byte) (moved : Int), portServed s = true →
    moved = (stdMoment s.time : Int) + (s16 z1 z0 - s.time.zone) * 60 →
    (s16 z1 z0 < -720 ∨ 840 < s16 z1 z0 ∨ s16 z1 z0 % 15 ≠ 0 ∨ 1 < en.toNat ∨ m1.toNat < 1 ∨ 12 < m1.toNat ∨ n1.toNat < 1 ∨
        5 < n1.toNat ∨ 6 < w1.toNat ∨ 23 < h1.toNat ∨ m2.toNat < 1 ∨ 12 < m2.toNat ∨ n2.toNat < 1 ∨ 5 < n2.toNat ∨
        6 < w2.toNat ∨ 22 < h2.toNat ∨ m1 = m2 ∨ moved < 0 ∨ 146097 * 86400 ≤ moved →
      Machine.exec (.writeTimeSettings [z1, z0, en, m1, n1, w1, h1, m2, n2, w2, h2]) s
        = .next { s with port := ⟨.badValue, []⟩ }) ∧
    (RuleInRange s.time.startRule → RuleInRange s.time.endRule → s.time.endRule.hour ≤ 22 →
      s.time.startRule.month ≠ s.time.endRule.month → -720 ≤ s.time.zone → s.time.zone ≤ 840 → s.time.zone % 15 = 0 →
      stdMoment s.time < 146097 * 86400 → s16 z1 z0 = s.time.zone → en.toNat = s.time.summerEnable.toNat →
      s.time.startRule = ⟨m1.toNat, n1.toNat, w1.toNat, h1.toNat⟩ →
      s.time.endRule = ⟨m2.toNat, n2.toNat, w2.toNat, h2.toNat⟩ →
      Machine.exec (.writeTimeSettings [z1, z0, en, m1, n1, w1, h1, m2, n2, w2, h2]) s
        = .next { s with port := ⟨.none, []⟩ }))

/-- ADJUST TIME adds a signed amount of milliseconds to the slew remainder: LOCKED refuses it with WRONG_STATE, then an amount of 0, one
above 60,000 either way, or a sum outside 600,000 either way with BAD_VALUE; else only the remainder and the port change, so nothing
steps, nothing is announced and time-valid is as it was (R42). -/
def Obligations.AdjustTimeAddsToSlew : Prop :=
  ∀ (s : State) (a b c : Byte), portServed s = true →
    (s.time.ref = .locked → Machine.exec (.adjustTime [a, b, c]) s = .next { s with port := ⟨.wrongState, []⟩ }) ∧
    (s.time.ref ≠ .locked →
      (s24 a b c = 0 ∨ s24 a b c < -60000 ∨ 60000 < s24 a b c ∨ s.time.slew + s24 a b c < -600000 ∨
        600000 < s.time.slew + s24 a b c) →
      Machine.exec (.adjustTime [a, b, c]) s = .next { s with port := ⟨.badValue, []⟩ }) ∧
    (s.time.ref ≠ .locked → s24 a b c ≠ 0 → -60000 ≤ s24 a b c → s24 a b c ≤ 60000 →
      -600000 ≤ s.time.slew + s24 a b c → s.time.slew + s24 a b c ≤ 600000 →
      Machine.exec (.adjustTime [a, b, c]) s
        = .next { s with time := { s.time with slew := s.time.slew + s24 a b c }, port := ⟨.none, []⟩ })

/-- A second that ends neither the day nor the range: its length is 1,000 ms less a slew of at most 10, the counters go on by one, and the
summer state turns on at the start rule's moment and off at the end rule's, the nth or last weekday of their months at their hours, and
there alone, and the dial target with it (R29, R33, R172). That NEW_SECOND from any fraction lets the rest of the second pass, and that
SUMMER_CHANGE itself ends the second, is the model's reading (log entry 6, DEDUCED); that an override whose expiry the new second reaches
stays until OVERRIDE_EXPIRY, a step of its own, is its choice (log entry 54, DESIGN CHOICE); elapsed and lastTarget are its own fields (log
entries 9 and 36, DESIGN CHOICE). -/
def Obligations.SecondsCount : Prop :=
  ∀ s : State, running s = true → rangeEnds s.time = false → dayEnds s.time = false →
    (∃ t, Machine.exec .newSecond s = .next t ∧
      t.elapsed = s.elapsed + ((1000 - max (-10) (min s.time.slew 10)).toNat - s.time.fraction) ∧
      t.time.fraction = 0 ∧ t.time.slew = s.time.slew - max (-10) (min s.time.slew 10) ∧
      t.time.instant = s.time.instant + 1 ∧
      (t.time.stdDay, t.time.stdSec)
        = (if 86399 ≤ s.time.stdSec then (s.time.stdDay + 1, 0) else (s.time.stdDay, s.time.stdSec + 1)) ∧
      t.time.refTimer = (if s.time.ref = .free then s.time.refTimer else s.time.refTimer + 1) ∧
      t.time.localDate = s.time.localDate ∧ t.time.dayLength = s.time.dayLength ∧ t.time.valid = s.time.valid ∧
      t.sheets.today = s.sheets.today ∧ t.sheets.standby = s.sheets.standby ∧ t.sheets.status = s.sheets.status ∧
      (summerTurns s.time = false → t.time.summer = s.time.summer ∧
        { t with elapsed := s.elapsed, time := s.time, sheets := s.sheets } = s)) ∧
    (summerTurns s.time = true →
      ∃ t, Machine.exec .summerChange s = .next t ∧ t.time.summer = !s.time.summer ∧
        t.time.instant = s.time.instant + 1 ∧ t.lastTarget = dialTarget t.time ∧
        { t with
          elapsed := s.elapsed, time := s.time, sheets := s.sheets, dials := s.dials, lastTarget := s.lastTarget } = s ∧
        settingsView t = settingsView s) ∧
    (∀ D S : Nat, (D, S) = (if 86399 ≤ s.time.stdSec then (s.time.stdDay + 1, 0) else (s.time.stdDay, s.time.stdSec + 1)) →
      RuleInRange s.time.startRule → RuleInRange s.time.endRule → s.time.startRule.month ≠ s.time.endRule.month →
      (summerTurns s.time = true ↔ s.time.summerEnable = true ∧
        (IsRuleMoment s.time.startRule D S ∧ s.time.summer = false ∨
          IsRuleMoment s.time.endRule D S ∧ s.time.summer = true)))

/-- The second that ends the local day starts the next date at instant 0 with its own length, empties the standby sheet and requests its
build. Today's sheet is then the FRESH standby, with its tallies and its entries, those at instant 0 fallen due, or an empty one with a
rebuild from instant 0 requested; and the ACTIVE entries of the lanes are carried onto it at instant 0, their sub-indexes up by 128, held by
their lanes (an entry that is carried already keeps its sub-index: log entry 13). Said where no expiry comes, no request waits for load,
keys are distinct and there is room; for the lanes' keys, where the sub-index of an entry of today's sheet that is not carried is below 128,
as builds give, and that of a carried one is not. The second that ends the range steps to 2000-01-01 with time-valid clear, both sheets
empty, no build requested, and every override that has an expiry removed. No setting changes (R34, R45, R71, R96, R109). That DAY_CHANGE and
END_OF_RANGE, at any fraction, themselves end the second that is running is the model's reading (log entry 6, DEDUCED). -/
def Obligations.DaysAndRangeEnd : Prop :=
  ∀ s : State, running s = true →
    (dayEnds s.time = true →
      ∃ t, Machine.exec .dayChange s = .next t ∧ t.time.localDate = s.time.localDate + 1 ∧ t.time.instant = 0 ∧
        t.time.dayLength = dayLengthOf s.time (s.time.localDate + 1) ∧ t.sheets.standby = Sheet.cold ∧
        t.sheets.status = .missing ∧
        (s.time.valid = true → s.time.localDate + 1 ≠ lastDay → t.resolver.standbyReq = true) ∧
        t.resolver.run.all (fun r => r.kind == .query) = true ∧ settingsView t = settingsView s ∧ t.port = s.port ∧
        ((∀ o ∈ s.overrides.entries, ∀ m, o.expiry = some m → stdMoment (advance s.time) < m) → s.lights.waiting = [] →
          (s.sheets.today.entries.map Entry.key).Nodup →
          ∀ carried : List Entry,
            carried = (s.sheets.today.entries.filter fun e => e.state == .active && e.kind.sounding).map (fun e =>
              { e with
                instant := 0, carried := true
                key := ⟨e.key.slot, if e.carried then e.key.sub else e.key.sub + 128⟩ }) →
            (s.sheets.status ≠ .fresh →
              (∀ x, x ∈ t.sheets.today.entries ↔ x ∈ carried) ∧ (∀ i, t.sheets.today.tallies.get i = 0) ∧
              (s.time.valid = true → t.resolver.todayReq = true ∧ t.resolver.fromZero = true)) ∧
            (s.sheets.status = .fresh → s.sheets.standby.entries.length + carried.length ≤ 256 →
              (s.sheets.standby.entries.map Entry.key).Nodup → (∀ e ∈ s.sheets.standby.entries, e.key.sub < 128) →
              (∀ e ∈ carried, 128 ≤ e.key.sub) →
              (∀ e ∈ s.sheets.standby.entries, ∃ x ∈ t.sheets.today.entries, { x with state := e.state } = e ∧
                (0 < e.instant ∨ e.state ≠ .pending → x = e) ∧
                (e.instant = 0 → e.state = .pending → x.state ≠ .pending)) ∧
              (∀ e ∈ carried, e ∈ t.sheets.today.entries) ∧
              t.sheets.today.entries.length = s.sheets.standby.entries.length + carried.length ∧
              t.sheets.today.tallies = s.sheets.standby.tallies ∧ t.resolver.todayReq = false) ∧
            ((∀ e ∈ carried, 128 ≤ e.key.sub) → (∀ x ∈ s.sheets.today.entries, x.carried = false → x.key.sub < 128) →
              ∀ lane e, laneKey s lane = some e.key → laneOf e.kind = some lane → e ∈ s.sheets.today.entries →
                e.state = .active →
                laneKey t lane = some ⟨e.key.slot, if e.carried then e.key.sub else e.key.sub + 128⟩))) ∧
    (rangeEnds s.time = true →
      ∃ t, Machine.exec .endOfRange s = .next t ∧ t.time.stdDay = 0 ∧ t.time.stdSec = 0 ∧ t.time.fraction = 0 ∧
        t.time.slew = 0 ∧ t.time.candidate = none ∧ t.time.valid = false ∧ t.time.ref = .free ∧
        t.sheets.today = Sheet.cold ∧ t.sheets.standby = Sheet.cold ∧ t.resolver.todayReq = false ∧
        t.resolver.standbyReq = false ∧ (∀ o ∈ t.overrides.entries, o.expiry = none ∧ o ∈ s.overrides.entries) ∧
        flagSet t.attn .timeStepped = true ∧ settingsView t = settingsView s)

/-- On REF_DATA idle for 20 ms, a message that passes R35's checks waits from its last byte, one whose sum or valid bit fails does not,
and bytes whose first is not 7Eh begin none; bytes within 20 ms go on a message in progress, and are discarded where there is none; a
gap of more than 20 ms abandons, and a bad byte does; a waiting message is gone 1,100 ms after its last byte; nothing else changes (R35,
R36). What the last byte's moment, the model's own field, is, and a gap of just 20 ms, are its choice (log entry 39). -/
def Obligations.ReferenceMessagesWait : Prop :=
  ∀ s : State, running s = true →
    (∀ bytes : List Byte, s.time.assembling = [] → (∀ m, s.time.lastByte = some m → m + 20 ≤ s.elapsed) →
      (∀ m, bytes.length = 10 → bytes.head? = some 0x7E → messageMoment s.time.zone bytes = some m →
        Machine.exec (.referenceMessage bytes) s
          = .next { s with time := { s.time with waiting := some ⟨m, s.elapsed⟩, lastByte := some s.elapsed } }) ∧
      (bytes.length = 10 → bytes.head? = some 0x7E →
        (bytes.foldl (· + ·) 0 ≠ 0 ∨ (bytes.getD 8 0).getLsbD 0 = false) →
        Machine.exec (.referenceMessage bytes) s = .next { s with time := { s.time with lastByte := some s.elapsed } }) ∧
      (bytes ≠ [] → bytes.head? ≠ some 0x7E →
        Machine.exec (.referenceMessage bytes) s
          = .next { s with time := { s.time with lastByte := some s.elapsed } })) ∧
    (∀ (bytes : List Byte) (m : Nat), bytes ≠ [] → s.time.lastByte = some m →
      (s.time.assembling = [] → s.elapsed < m + 20 →
        Machine.exec (.referenceMessage bytes) s
          = .next { s with time := { s.time with lastByte := some s.elapsed } }) ∧
      (s.time.assembling.head? = some 0x7E → s.elapsed ≤ m + 20 → s.time.assembling.length + bytes.length < 10 →
        Machine.exec (.referenceMessage bytes) s
          = .next
            { s with
              time := { s.time with assembling := s.time.assembling ++ bytes, lastByte := some s.elapsed } })) ∧
    (∀ m, s.time.lastByte = some m → s.time.assembling ≠ [] →
      Machine.exec .referenceMessageAbandoned s
        = .next
          { s with
            time :=
              { s.time with assembling := [], lastByte := some (if m + 20 < s.elapsed then m else s.elapsed) } }) ∧
    (∀ w, s.time.waiting = some w → w.received + 1100 ≤ s.elapsed →
      Machine.exec .waitingMessageExpiry s = .next { s with time := { s.time with waiting := none } })

/-- A pulse with a waiting message at most 1,100 ms old: within 2,000 ms of a valid time the remainder becomes the error and the timer
restarts, and within 50 ms the reference is LOCKED; otherwise the error becomes the candidate, or, within 50 ms of the candidate, the
time is set to the reference with time-valid set and the reference LOCKED (R36 to R38). -/
def Obligations.PulsesSteerTheTime : Prop :=
  ∀ (s : State) (w : WaitingMessage) (e : Int), running s = true → s.time.waiting = some w →
    s.elapsed ≤ w.received + 1100 → e = (w.moment : Int) * 1000 - ((stdMoment s.time : Int) * 1000 + s.time.fraction) →
    (s.time.valid = true → -2000 ≤ e → e ≤ 2000 →
      Machine.exec .referencePulse s
        = .next
          { s with
            time :=
              { s.time with
                waiting := none
                slew := e
                candidate := none
                refTimer := 0
                ref := if -50 ≤ e ∧ e ≤ 50 then .locked else s.time.ref } }) ∧
    ((s.time.valid = false ∨ e < -2000 ∨ 2000 < e) →
      (s.time.candidate = none ∨ ∃ c, s.time.candidate = some c ∧ (e - c < -50 ∨ 50 < e - c)) →
      Machine.exec .referencePulse s = .next { s with time := { s.time with waiting := none, candidate := some e } }) ∧
    (∀ c, (s.time.valid = false ∨ e < -2000 ∨ 2000 < e) → s.time.candidate = some c → -50 ≤ e - c → e - c ≤ 50 →
      (derive (referenceSet w.moment s.time)).localDate < Config.endOfRangeDay →
      ∃ t, Machine.exec .referencePulse s = .next t ∧ stdMoment t.time = w.moment ∧ t.time.fraction = 0 ∧
        t.time.slew = 0 ∧ t.time.candidate = none ∧ t.time.waiting = none ∧ t.time.valid = true ∧ t.time.ref = .locked ∧
        t.time.refTimer = 0 ∧ t.time = derive t.time ∧ flagSet t.attn .timeStepped = true ∧
        settingsView t = settingsView s)

/-- 120 s in LOCKED without an accepted pair give HOLDOVER with the timer restarted and REFERENCE_LOST set, and 86,400 s in HOLDOVER
give FREE; nothing else changes (R39). -/
def Obligations.ReferenceTimersRunOut : Prop :=
  ∀ s : State, running s = true →
    (s.time.ref = .locked → 120 ≤ s.time.refTimer →
      Machine.exec .referenceLost s
        = .next
          { s with
            time := { s.time with ref := .holdover, refTimer := 0 }
            attn := { s.attn with flags := s.attn.flags ||| BitVec.twoPow 15 10 } }) ∧
    (s.time.ref = .holdover → 86400 ≤ s.time.refTimer →
      Machine.exec .holdoverExpiry s = .next { s with time := { s.time with ref := .free } })

/-! ### Calendar settings and the resolver (chapter 3) -/

/-- WRITE SUNDAY RANK and WRITE TWILIGHT replace what they name and trigger both rebuilds, but for a Sunday rank already held, which
changes nothing; values out of range are refused (R53, R56, R68). -/
def Obligations.CalendarWritesTrigger : Prop :=
  ∀ s : State, portServed s = true →
    (∀ r : Byte, r.toNat ≤ 15 → r.toNat ≠ s.calendar.sundayRank →
      ∃ t, Machine.exec (.writeSundayRank [r]) s = .next t ∧ t.calendar = { s.calendar with sundayRank := r.toNat } ∧
        t.resolver.todayReq = (s.time.valid || s.resolver.todayReq) ∧
        t.resolver.standbyReq = ((s.time.valid && decide (s.time.localDate ≠ lastDay)) || s.resolver.standbyReq) ∧
        t.sheets = { s.sheets with status := if s.sheets.status = .fresh then .stale else s.sheets.status } ∧
        t.port = ⟨.none, []⟩ ∧
        { t with calendar := s.calendar, sheets := s.sheets, resolver := s.resolver, port := s.port } = s) ∧
    (∀ r : Byte, r.toNat = s.calendar.sundayRank → r.toNat ≤ 15 →
      Machine.exec (.writeSundayRank [r]) s = .next { s with port := ⟨.none, []⟩ }) ∧
    (∀ r : Byte, 15 < r.toNat → Machine.exec (.writeSundayRank [r]) s = .next { s with port := ⟨.badValue, []⟩ }) ∧
    (∀ (p a1 a0 b1 b0 : Byte) (n : Fin 24), p.toNat = n.val → u16 a1 a0 ≤ 1439 → u16 b1 b0 ≤ 1439 →
      ∃ t, Machine.exec (.writeTwilight [p, a1, a0, b1, b0]) s = .next t ∧
        t.calendar = { s.calendar with twilight := put s.calendar.twilight n (u16 a1 a0, u16 b1 b0) } ∧
        t.resolver.todayReq = (s.time.valid || s.resolver.todayReq) ∧
        t.resolver.standbyReq = ((s.time.valid && decide (s.time.localDate ≠ lastDay)) || s.resolver.standbyReq) ∧
        t.sheets = { s.sheets with status := if s.sheets.status = .fresh then .stale else s.sheets.status } ∧
        t.port = ⟨.none, []⟩ ∧
        { t with calendar := s.calendar, sheets := s.sheets, resolver := s.resolver, port := s.port } = s) ∧
    (∀ p a1 a0 b1 b0 : Byte, 24 ≤ p.toNat ∨ 1439 < u16 a1 a0 ∨ 1439 < u16 b1 b0 →
      Machine.exec (.writeTwilight [p, a1, a0, b1, b0]) s = .next { s with port := ⟨.badValue, []⟩ })

/-- QUERY DAY makes a query of a possible date pending, and is refused with BUSY while one is; a query run that completes writes the
result of its date, no query is then pending, QUERY_DONE is set, and nothing else changes: the governing rank and feast of the LIVE
records as the calendar names them, Easter, the weekday, the day length, dawn and dusk in wall minutes, and how many records apply (R50 to
R52, R58, R73; the result is taken at the completion: log entry 11). -/
def Obligations.DayQueriesAreServed : Prop :=
  ∀ s : State,
    (∀ (c y m d : Byte) (day : Nat), portServed s = true → bcdDate c y m d = some day →
      (s.resolver.query = none →
        Machine.exec (.queryDay [c, y, m, d]) s
          = .next { s with resolver := { s.resolver with query := some day }, port := ⟨.none, []⟩ }) ∧
      (s.resolver.query ≠ none →
        Machine.exec (.queryDay [c, y, m, d]) s = .next { s with port := ⟨.busy, []⟩ })) ∧
    (∀ r : Run, running s = true → s.resolver.run = some r → r.kind = .query →
      ∃ (t : State) (q : QueryResult), Machine.exec .queryRunComplete s = .next t ∧
        t.resolver = { s.resolver with run := none, query := none, result := some q } ∧ q.day = r.date ∧
        q.weekday = weekday r.date ∧ (q.easterMonth, q.easterDay) = easterDate (yearOf r.date) ∧
        q.rank = governingRank s.table.slots s.calendar.sundayRank r.date ∧ q.dayLength = dayLengthOf s.time r.date ∧
        q.summerNoon = summerAt s.time (r.date * 86400 + 43200) ∧
        q.dawn = min 1439 (wallValue s.time r.date (twilightOf s.calendar.twilight r.date).1) ∧
        q.dusk = min 1439 (wallValue s.time r.date (twilightOf s.calendar.twilight r.date).2) ∧
        (∀ feastOn : SlotNo → Record → Prop,
          (∀ i x, feastOn i x ↔ liveRecord (getSlot s i) = some x ∧ x.kind = .feast ∧ NamesDay x.rule r.date) →
          (∀ i x, feastOn i x → x.rank ≤ q.rank) ∧ (weekday r.date = 0 → s.calendar.sundayRank ≤ q.rank) ∧
          (q.rank = 0 ∨ weekday r.date = 0 ∧ q.rank = s.calendar.sundayRank ∨ ∃ i x, feastOn i x ∧ q.rank = x.rank) ∧
          (q.feast = none → q.feastName = 0 ∧ ∀ i x, ¬feastOn i x) ∧
          (∀ i, q.feast = some i → q.feastName = imgNat (getSlot s i).image 22 ∧
            ∃ x, feastOn i x ∧ ∀ j y, feastOn j y → y.rank < x.rank ∨ y.rank = x.rank ∧ i ≤ j)) ∧
        (∃ slots : List SlotNo, slots.Nodup ∧ slots.length = q.applying ∧
          ∀ i, i ∈ slots ↔ ∃ x, liveRecord (getSlot s i) = some x ∧ NamesDay x.rule r.date ∧
            (x.kind = .feast ∨ x.lowest ≤ q.rank ∧ q.rank ≤ x.highest)) ∧
        t.attn = { s.attn with flags := s.attn.flags ||| BitVec.twoPow 15 1 } ∧
        { t with resolver := s.resolver, attn := s.attn } = s)

/-- A free engine starts a run of the first pending kind: today rebuild, standby build, day query; a build's request is taken, its date
is today's or tomorrow's, and nothing but the resolver changes. What a build generates, from the present instant or from 0, is just what
the LIVE records whose date rule names the day, and whose window holds the governing rank, give by their times: each wall time at its
instant, SKIPPED where a spring change passes over it, and periods in progress joined, in sheet order (R50 to R55, R58 to R65, R67, R69,
R70). That the entries are generated as the run starts is the model's reading (log entry 11, DEDUCED), and that a QUIET or LIGHT start that
does not occur gives its SKIPPED entry wherever the period ends is its choice (log entry 50, DESIGN CHOICE). -/
def Obligations.RunsStartInOrder : Prop :=
  ∀ s : State, running s = true → s.resolver.run = none →
    (s.resolver.todayReq = true →
      ∃ r : Run, Machine.exec .resolverRunStart s
          = .next { s with resolver := { s.resolver with todayReq := false, fromZero := false, run := some r } } ∧
        r.kind = .today ∧ r.date = s.time.localDate ∧ r.started = s.elapsed ∧ r.triggered = false ∧
        GeneratedFor s s.time.localDate (if s.resolver.fromZero then 0 else s.time.instant) r.generated) ∧
    (s.resolver.todayReq = false → s.resolver.standbyReq = true →
      ∃ r : Run, Machine.exec .resolverRunStart s
          = .next { s with resolver := { s.resolver with standbyReq := false, run := some r } } ∧
        r.kind = .standby ∧ r.date = s.time.localDate + 1 ∧ r.started = s.elapsed ∧ r.triggered = false ∧
        GeneratedFor s (s.time.localDate + 1) 0 r.generated) ∧
    (∀ D, s.resolver.todayReq = false → s.resolver.standbyReq = false → s.resolver.query = some D →
      ∃ r : Run, Machine.exec .resolverRunStart s = .next { s with resolver := { s.resolver with run := some r } } ∧
        r.kind = .query ∧ r.date = D ∧ r.started = s.elapsed)

/-- The installs. Today's sheet keeps every entry that was not PENDING, with its state unless a lost stroke ends it (where no request waits
for load, none does), and gains the generated entries of LIVE records with no key kept, those whose instant is reached fallen due; the
standby sheet is replaced whole by those of LIVE records, and is FRESH, or STALE after a trigger. Above 256 entries the first generated ones
in drop order are dropped, and tallied. Each sets SHEET_INSTALLED and frees the engine; and at a minute before the day's end a standby build
is requested (R66, R69, R70). That minute is marked by the second that reaches it. The entries are those generated as the run started, the
model's reading (log entry 11, DEDUCED), and standbyTime, which calls for that build, is the model's own mark (log entry 36, DESIGN
CHOICE). -/
def Obligations.BuildsInstall : Prop :=
  ∀ s : State, running s = true →
    (∀ (r : Run) (kept gained : List Entry), s.resolver.run = some r → r.kind = .today →
      kept = s.sheets.today.entries.filter (fun e => e.state != .pending) → kept.length ≤ 256 →
      gained = r.generated.filter (fun g =>
        (getSlot s g.key.slot).state == .live && kept.all fun e => e.key != g.key) →
      ∃ t, Machine.exec .todayRebuildInstall s = .next t ∧ t.resolver = { s.resolver with run := none } ∧
        t.sheets.today.entries.length = min 256 (kept.length + gained.length) ∧
        (∀ e ∈ kept, ∃ x ∈ t.sheets.today.entries, { x with state := e.state } = e ∧ (s.lights.waiting = [] → x = e)) ∧
        ((r.generated.map Entry.key).Nodup →
          ∀ dropped : List Entry,
            dropped = gained.filter (fun g => t.sheets.today.entries.all fun x => x.key != g.key) →
            dropped.length = kept.length + gained.length - 256 ∧
            (∀ d ∈ dropped, ∀ g ∈ gained, g ∉ dropped → dropBefore d g = true) ∧
            (∀ i, t.sheets.today.tallies.get i = min 255 (dropped.countP fun d => d.key.slot == i)) ∧
            (dropped ≠ [] → flagSet t.attn .sheetFull = true) ∧
            (∀ g ∈ gained, g ∉ dropped → ∃ x ∈ t.sheets.today.entries, { x with state := g.state } = g ∧
              (g.state = .pending → g.instant ≤ s.time.instant → x.state ≠ .pending) ∧
              (s.lights.waiting = [] → g.state ≠ .pending ∨ s.time.instant < g.instant → x = g))) ∧
        flagSet t.attn .sheetInstalled = true ∧ t.sheets.standby = s.sheets.standby ∧
        settingsView t = settingsView s ∧ t.time = s.time ∧ t.port = s.port) ∧
    (∀ (r : Run) (gained : List Entry), s.resolver.run = some r → r.kind = .standby →
      gained = r.generated.filter (fun g => (getSlot s g.key.slot).state == .live) →
      ∃ t, Machine.exec .standbyBuildInstall s = .next t ∧ t.resolver = { s.resolver with run := none } ∧
        t.sheets.standby.entries.length = min 256 gained.length ∧ (∀ e ∈ t.sheets.standby.entries, e ∈ gained) ∧
        ((r.generated.map Entry.key).Nodup →
          ∀ dropped : List Entry, dropped = gained.filter (fun g => decide (g ∉ t.sheets.standby.entries)) →
            dropped.length = gained.length - 256 ∧
            (∀ d ∈ dropped, ∀ e ∈ t.sheets.standby.entries, dropBefore d e = true) ∧
            (∀ i, t.sheets.standby.tallies.get i = min 255 (dropped.countP fun d => d.key.slot == i)) ∧
            (dropped ≠ [] → flagSet t.attn .sheetFull = true)) ∧
        t.sheets.status = (if r.triggered then .stale else .fresh) ∧ t.sheets.today = s.sheets.today ∧
        flagSet t.attn .sheetInstalled = true ∧
        { t with resolver := s.resolver, sheets := s.sheets, attn := s.attn } = s) ∧
    (rangeEnds s.time = false → dayEnds s.time = false →
      ∃ t, Machine.exec .newSecond s = .next t ∧
        (t.sheets.standbyTime = true ↔ s.sheets.standbyTime = true ∨ s.time.instant + 1 + 60 = s.time.dayLength)) ∧
    (s.sheets.standbyTime = true → s.time.valid = true → s.time.localDate ≠ lastDay →
      Machine.exec .standbyBuildTime s
        = .next
          { s with
            sheets := { s.sheets with standbyTime := false }
            resolver := { s.resolver with standbyReq := true } })

/-! ### Sheets and lanes (chapter 4) -/

/-- With no grace to expire and no quiet period to end, the first entry whose instant is reached falls due: a QUIET one is ACTIVE while
mains is present and MISSED while it is absent; a sounding one is MISSED while mains is absent, WITHHELD where it is covered, and where it
is not, DUE, or MISSED if its grace is over already; a LIGHT one is DONE with its outcome, an ON entry of a slot that holds a LIVE LIGHT
record puts it into the lit-record set, an OFF entry takes its slot out, and where the set changes the wanted levels are the governing
scene's anew. A LIGHT entry already final, whose instant the second reaches again, has its effect on the set alone (which one that is: log
entry 36, DESIGN CHOICE). A peal may be running that has nothing to go on to of itself (for a LIGHT entry, with no request waiting for load,
and where a bell that waits for a raise is held by the running peal), and nothing that tower work leaves alone changes (R79 to R83, R86).
That a covered entry whose grace is over already is WITHHELD and not MISSED is the model's reading (log entry 12, DEDUCED). -/
def Obligations.EntriesFallDue : Prop :=
  ∀ (s : State) (e : Entry), running s = true → readyToFall s = true → firstWhere (actsNow s) s = some e →
    settlePeal s = s →
    (fallsDue s e = false → s.peal = none ∨ s.lights.waiting = [] →
      (∀ st, (getBell s st).waitingRaise = true → pealHolds s st = true) →
      ∃ t, Machine.exec .entryFallsDue s = .next t ∧ e.kind = .light ∧ t.sheets.today = s.sheets.today ∧
        t.table = s.table ∧ e.key ∉ t.sheets.relight ∧
        t.lanes.lit.get e.key.slot
          = (if e.key.sub = 0 then
              s.lanes.lit.get e.key.slot || ((getSlot s e.key.slot).state == .live
                && imgKind (getSlot s e.key.slot).image == some .light)
            else if e.key.sub = 1 then false
            else s.lanes.lit.get e.key.slot) ∧
        (∀ j, j ≠ e.key.slot → t.lanes.lit.get j = s.lanes.lit.get j) ∧
        (t.lanes.lit = s.lanes.lit → t.lights = s.lights ∧ t.bells = s.bells) ∧
        (t.lanes.lit ≠ s.lanes.lit →
          ∀ z, (t.lights.zones.get z).wanted = wantedLevel t.lights (governingScene t) z) ∧ t.attn.enables = s.attn.enables) ∧
    (fallsDue s e = true →
    (e.kind = .quiet → s.mains = .present →
      ∃ t, Machine.exec .entryFallsDue s = .next t ∧
        (findEntry e.key t.sheets.today.entries).map Entry.state = some .active ∧ towerView t = towerView s ∧
        { t with sheets := s.sheets } = s) ∧
    (e.kind = .quiet → s.mains = .absent →
      ∃ t, Machine.exec .entryFallsDue s = .next t ∧
        (findEntry e.key t.sheets.today.entries).map Entry.state = some .missed ∧
        flagSet t.attn .entryMissed = true ∧ t.lights = s.lights ∧ t.bells = s.bells ∧ towerView t = towerView s) ∧
    (e.kind = .light → s.peal = none ∨ s.lights.waiting = [] →
      (∀ st, (getBell s st).waitingRaise = true → pealHolds s st = true) →
      ∃ t, Machine.exec .entryFallsDue s = .next t ∧
        (findEntry e.key t.sheets.today.entries).map Entry.state = some .done ∧
        ((getSlot s e.key.slot).state ≠ .empty →
          (getSlot t e.key.slot).last = .done ∧
          (getSlot t e.key.slot).performed = min 65535 ((getSlot s e.key.slot).performed + 1)) ∧
        (e.key.sub = 0 → (getSlot t e.key.slot).state = .live → imgKind (getSlot t e.key.slot).image = some .light →
          t.lanes.lit.get e.key.slot = true) ∧
        (e.key.sub = 0 → (getSlot t e.key.slot).state ≠ .live ∨ imgKind (getSlot t e.key.slot).image ≠ some .light →
          t.lanes.lit.get e.key.slot = s.lanes.lit.get e.key.slot) ∧
        (e.key.sub = 1 → t.lanes.lit.get e.key.slot = false) ∧
        (∀ j, j ≠ e.key.slot → t.lanes.lit.get j = s.lanes.lit.get j) ∧
        (t.lanes.lit ≠ s.lanes.lit →
          ∀ z, (t.lights.zones.get z).wanted = wantedLevel t.lights (governingScene t) z) ∧
        (t.lanes.lit = s.lanes.lit → t.lights = s.lights ∧ t.bells = s.bells) ∧ t.attn.enables = s.attn.enables ∧
        towerView t = towerView s) ∧
    (e.kind.sounding = true → s.mains = .absent →
      ∃ t, Machine.exec .entryFallsDue s = .next t ∧
        (findEntry e.key t.sheets.today.entries).map Entry.state = some .missed ∧
        flagSet t.attn .entryMissed = true ∧ towerView t = towerView s) ∧
    (e.kind.sounding = true → s.mains = .present → covered (updToday (setState e.key .due) s) e = true →
      ∃ t, Machine.exec .entryFallsDue s = .next t ∧
        (findEntry e.key t.sheets.today.entries).map Entry.state = some .withheld ∧ t.attn = s.attn ∧
        towerView t = towerView s) ∧
    (e.kind.sounding = true → s.mains = .present → covered (updToday (setState e.key .due) s) e = false →
      graceOver s e = false →
      ∃ t, Machine.exec .entryFallsDue s = .next t ∧
        (findEntry e.key t.sheets.today.entries).map Entry.state = some .due ∧ { t with sheets := s.sheets } = s) ∧
    (e.kind.sounding = true → s.mains = .present → covered (updToday (setState e.key .due) s) e = false →
      graceOver s e = true →
      ∃ t, Machine.exec .entryFallsDue s = .next t ∧
        (findEntry e.key t.sheets.today.entries).map Entry.state = some .missed ∧
        ((getSlot s e.key.slot).state ≠ .empty →
          (getSlot t e.key.slot).last = .missed ∧
          (getSlot t e.key.slot).missed = min 255 ((getSlot s e.key.slot).missed + 1)) ∧
        flagSet t.attn .entryMissed = true ∧ towerView t = towerView s))

/-- The first DUE entry whose grace has passed becomes MISSED with ENTRY_MISSED set, and, where there is none, the first ACTIVE QUIET
entry whose end is reached becomes DONE; the record's outcome is written, and bells, lanes, line and lights are as they were (R11, R79,
R82, R86). That a quiet period which is over at its install ends so too is the model's choice (log entry 47, DESIGN CHOICE). -/
def Obligations.GraceAndQuietEnd : Prop :=
  ∀ (s : State) (e : Entry), running s = true → (getSlot s e.key.slot).state ≠ .empty →
    (firstWhere (lateEntry s) s = some e →
      ∃ t, Machine.exec .graceExpiry s = .next t ∧
        (findEntry e.key t.sheets.today.entries).map Entry.state = some .missed ∧
        (getSlot t e.key.slot).missed = min 255 ((getSlot s e.key.slot).missed + 1) ∧
        (getSlot t e.key.slot).last = .missed ∧ flagSet t.attn .entryMissed = true ∧ towerView t = towerView s ∧
        { t with table := s.table, sheets := s.sheets, attn := s.attn } = s) ∧
    (firstWhere (lateEntry s) s = none → firstWhere (endedQuiet s) s = some e →
      ∃ t, Machine.exec .quietPeriodEnd s = .next t ∧
        (findEntry e.key t.sheets.today.entries).map Entry.state = some .done ∧
        (getSlot t e.key.slot).performed = min 65535 ((getSlot s e.key.slot).performed + 1) ∧
        (getSlot t e.key.slot).last = .done ∧ towerView t = towerView s ∧
        { t with table := s.table, sheets := s.sheets } = s)

/-- A lane, free to look, takes the first DUE entry of its kinds where it is not covered, and the entry is ACTIVE and the lane's: a TUNE's
first play starts; a STRIKE with a quarter tune has it played once, with its hour strokes to come, one with none has its first hour stroke
called for, and one with neither tune nor hour strokes ends DONE at once; a TOLL's first stroke is placed on a bell that can take it; a PEAL
holds the bells that are eligible, each RAISING or waiting for its load (said where no other lane holds the entry taken), and with none it
is WITHHELD and the lane FREE. But for the PEAL lane, a peal may be running that has nothing to go on to of itself (R85, R89, R90, R127,
R147, R148, R150). -/
def Obligations.LanesTakeEntries : Prop :=
  ∀ (s : State) (lane : Lane) (k : Key) (ks : List Key) (e : Entry), running s = true → settlePeal s = s →
    mayLook lane s = true → keysWhere (takeable s lane) s = k :: ks → findEntry k s.sheets.today.entries = some e →
    e.state = .due → covered s e = false →
    (∀ (n : TuneNo) (plays : Nat), lane = .chime → (recordAt s k.slot).map Record.action = some (.tune n plays) →
      ∃ t, Machine.exec (.laneTakesEntry .chime) s = .next t ∧ laneKey t .chime = some k ∧
        (findEntry k t.sheets.today.entries).map Entry.state = some .active ∧
        (∃ p, t.tunes.player = some p ∧ p.tune = some n ∧ p.playsAsked = plays ∧ p.playNo = 1 ∧ p.notePos = 0 ∧
          p.noteAt = s.elapsed ∧ p.train = false) ∧
        (getTune t n).skipped = 0 ∧ towerView t = towerView s ∧ t.bells = s.bells ∧ t.line = s.line ∧
        t.table = s.table ∧ t.lights = s.lights ∧ t.attn = s.attn) ∧
    (∀ (bell : Station) (interval : Nat) (t15 t30 t45 t00 : Option TuneNo) (hours : Bool), lane = .chime →
      (recordAt s k.slot).map Record.action = some (.strike bell interval t15 t30 t45 t00 hours) →
      quarterTune t15 t30 t45 t00 k.sub = none → 0 < hourStrokes k.sub hours →
      ∃ t, Machine.exec (.laneTakesEntry .chime) s = .next t ∧ laneKey t .chime = some k ∧
        (findEntry k t.sheets.today.entries).map Entry.state = some .active ∧
        (∃ p, t.tunes.player = some p ∧ p.tune = none ∧ p.train = true ∧ p.hourBell = bell ∧ p.interval = interval ∧
          p.strokes = hourStrokes k.sub hours ∧ p.requested = 0 ∧ p.strokeAt = some s.elapsed) ∧
        towerView t = towerView s ∧ t.bells = s.bells ∧ t.line = s.line ∧ t.table = s.table ∧ t.lights = s.lights) ∧
    (∀ (bell : Station) (interval : Nat) (t15 t30 t45 t00 : Option TuneNo) (hours : Bool), lane = .chime →
      (recordAt s k.slot).map Record.action = some (.strike bell interval t15 t30 t45 t00 hours) →
      (∀ n, quarterTune t15 t30 t45 t00 k.sub = some n →
        ∃ t, Machine.exec (.laneTakesEntry .chime) s = .next t ∧ laneKey t .chime = some k ∧
          (findEntry k t.sheets.today.entries).map Entry.state = some .active ∧
          (∃ p, t.tunes.player = some p ∧ p.tune = some n ∧ p.train = true ∧ p.playsAsked = 1 ∧ p.playNo = 1 ∧
            p.notePos = 0 ∧ p.noteAt = s.elapsed ∧ p.hourBell = bell ∧ p.interval = interval ∧
            p.strokes = hourStrokes k.sub hours ∧ p.requested = 0 ∧ p.strokeAt = none) ∧
          (getTune t n).skipped = 0 ∧ towerView t = towerView s ∧ t.bells = s.bells ∧ t.line = s.line ∧
          t.table = s.table ∧ t.lights = s.lights) ∧
      (quarterTune t15 t30 t45 t00 k.sub = none → hourStrokes k.sub hours = 0 →
        ∃ t, Machine.exec (.laneTakesEntry .chime) s = .next t ∧ laneKey t .chime = none ∧
          (findEntry k t.sheets.today.entries).map Entry.state = some .done ∧
          ((getSlot s k.slot).state ≠ .empty → (getSlot t k.slot).last = .done ∧
            (getSlot t k.slot).performed = min 65535 ((getSlot s k.slot).performed + 1)) ∧
          t.tunes = s.tunes ∧ towerView t = towerView s ∧ t.bells = s.bells ∧ t.line = s.line ∧ t.lights = s.lights ∧
          t.attn = s.attn)) ∧
    (∀ (bell : Station) (interval strokes : Nat), lane = .toll →
      (recordAt s k.slot).map Record.action = some (.toll bell interval strokes) → strikable (getBell s bell) = true →
      (getBell s bell).nextFree ≤ s.elapsed → (getBell s bell).deferred = [] → lineAccepts s = true →
      ∃ t, Machine.exec (.laneTakesEntry .toll) s = .next t ∧ laneKey t .toll = some k ∧
        (findEntry k t.sheets.today.entries).map Entry.state = some .active ∧
        (∃ r, t.lanes.tollRun = some r ∧ r.bell = bell ∧ r.interval = interval ∧ r.total = strokes ∧ r.requested = 1 ∧
          t.line.queue
            = s.line.queue ++ [⟨bell, .strike (mufflesTo s bell .normal) (s.elapsed + 250) (.toll r.serial), 0, 0⟩]) ∧
        getBell t bell = { getBell s bell with nextFree := s.elapsed + (getBell s bell).recovery } ∧
        towerView t = towerView s ∧ t.table = s.table ∧ t.lights = s.lights) ∧
    (∀ (bells : BellSet) (minutes : Nat) (held : List Station), lane = .peal → s.peal = none →
      (recordAt s k.slot).map Record.action = some (.peal bells minutes) →
      held = (bellsOf bells).filter (eligible s (pealCovered (updToday (setState k .active) s) e)) →
      (held = [] →
        ∃ t, Machine.exec (.laneTakesEntry .peal) s = .next t ∧ laneKey t .peal = none ∧ t.peal = none ∧
          (findEntry k t.sheets.today.entries).map Entry.state = some .withheld ∧ t.bells = s.bells ∧
          t.line = s.line ∧ t.lights = s.lights ∧ towerView t = towerView s) ∧
      (held ≠ [] → laneKey s .chime ≠ some k → laneKey s .toll ≠ some k →
        ∃ t, Machine.exec (.laneTakesEntry .peal) s = .next t ∧ laneKey t .peal = some k ∧
          (findEntry k t.sheets.today.entries).map Entry.state = some .active ∧
          t.peal = some ⟨held, decide (held ≠ bellsOf bells), .raising, some (s.elapsed + 120000), none, minutes⟩ ∧
          (∀ st ∈ held, (getBell t st).reserving = true ∧ (getBell t st).pos = .raising ∨
            (getBell t st).waitingRaise = true ∧ (getBell t st).pos = .down ∧ isWaiting t st = true) ∧
          (∀ st, st ∉ held → getBell t st = getBell s st) ∧ towerView t = towerView s))

/-- The requests of strokes that come due: the toll's next (NORMAL), the train's next hour stroke (FULL) and a bell's first deferred
stroke. On a bell that is strikable, whose hammer is free and which has no stroke deferred (but the one served), and on a line that
accepts an order, each is at the queue's tail as a STRIKE of 250 ms, SOFT on a muffled bell, and the bell's next free moment is one
recovery on (R89, R107, R116, R149). That the 250 ms of a deferred stroke count from the event that serves it, and not from the bell's
next free moment, is the model's reading (log entry 29, DEDUCED). -/
def Obligations.StrokesArePlaced : Prop :=
  ∀ s : State, running s = true → lineAccepts s = true →
    (∀ (r : TollRun) (m : Nat), s.lanes.tollRun = some r → r.nextAt = some m → m ≤ s.elapsed →
      strikable (getBell s r.bell) = true → (getBell s r.bell).nextFree ≤ s.elapsed → (getBell s r.bell).deferred = [] →
      ∃ t, Machine.exec .tollStrokeRequest s = .next t ∧
        t.line.queue = s.line.queue ++ [⟨r.bell, .strike (mufflesTo s r.bell .normal) (s.elapsed + 250) (.toll r.serial), 0, 0⟩] ∧
        t.lanes.tollRun = some { r with requested := r.requested + 1, nextAt := none } ∧
        getBell t r.bell = { getBell s r.bell with nextFree := s.elapsed + (getBell s r.bell).recovery } ∧
        towerView t = towerView s ∧ t.sheets = s.sheets ∧ t.lights = s.lights) ∧
    (∀ (p : Player) (m : Nat), s.tunes.player = some p → p.strokeAt = some m → m ≤ s.elapsed →
      strikable (getBell s p.hourBell) = true → (getBell s p.hourBell).nextFree ≤ s.elapsed →
      (getBell s p.hourBell).deferred = [] →
      ∃ t, Machine.exec .hourStrokeRequest s = .next t ∧
        t.line.queue
          = s.line.queue ++ [⟨p.hourBell, .strike (mufflesTo s p.hourBell .full) (s.elapsed + 250) (.hour p.serial), 0, 0⟩] ∧
        (∃ q, t.tunes.player = some q ∧ q.requested = p.requested + 1 ∧
          q.strokeAt = if p.requested + 1 < p.strokes then some (s.elapsed + effectiveInterval s p.hourBell p.interval)
            else none) ∧
        getBell t p.hourBell = { getBell s p.hourBell with nextFree := s.elapsed + (getBell s p.hourBell).recovery } ∧
        towerView t = towerView s ∧ t.sheets = s.sheets ∧ t.lights = s.lights) ∧
    (∀ (st : Station) (d : Deferred) (ds : List Deferred), (getBell s st).deferred = d :: ds →
      (getBell s st).nextFree ≤ s.elapsed →
      ∃ t, Machine.exec (.deferredStrokeDue st) s = .next t ∧
        t.line.queue = s.line.queue ++ [⟨st, .strike (mufflesTo s st d.strength) (s.elapsed + 250) d.requester, 0, 0⟩] ∧
        getBell t st = { getBell s st with deferred := ds, nextFree := s.elapsed + (getBell s st).recovery } ∧
        towerView t = towerView s ∧ t.sheets = s.sheets ∧ t.lights = s.lights)

/-! ### The override stack (chapter 5) -/

/-- An accepted PUSH OVERRIDE gives its entry the first id that is not on the stack of the last assigned id + 1, + 2, and so on, 255
followed by 1; it is found within 8 tries, becomes the last assigned id, and is 1 after a cold start. The entry goes on top with its
expiry, what it changes of the forced scene and the held dials is handed on, and settings, clock and mains are as they were (R101; the
rest of a push from R100, R103 and R107). -/
def Obligations.PushAssignsFreshId : Prop :=
  nextId State.reset.overrides = 1 ∧
  ∀ (s : State) (k ks b3 b2 b1 b0 m3 m2 m1 m0 sc ds d1 d0 : Byte) (body : OverrideBody), portServed s = true →
    pushBody k ks (bellSet b3 b2 b1 b0) (bellSet m3 m2 m1 m0) sc ds = some body → u16 d1 d0 ≤ 1440 →
    s.overrides.entries.length < 8 →
    ∃ (t : State) (tries id : Nat),
      Machine.exec (.pushOverride [k, ks, b3, b2, b1, b0, m3, m2, m1, m0, sc, ds, d1, d0]) s = .next t ∧
      tries < 8 ∧ id = Nat.repeat (fun n => if n = 255 then 1 else n + 1) (tries + 1) s.overrides.lastId ∧
      (∀ o ∈ s.overrides.entries, o.id ≠ id) ∧
      (∀ j, j < tries → ∃ o ∈ s.overrides.entries,
        o.id = Nat.repeat (fun n => if n = 255 then 1 else n + 1) (j + 1) s.overrides.lastId) ∧
      (s.overrides.lastId ≤ 255 → 1 ≤ id ∧ id ≤ 255) ∧
      t.overrides
        = ⟨s.overrides.entries
            ++ [⟨id, body, if u16 d1 d0 = 0 then none else some (stdMoment s.time + u16 d1 d0 * 60)⟩], id⟩ ∧
      HandsOn s t ∧
      settingsView t = settingsView s ∧ t.time = s.time ∧ t.mains = s.mains ∧ t.elapsed = s.elapsed ∧
      t.pins = s.pins ∧ t.port = ⟨.none, []⟩

/-- A push by which the effective silence gains: the DUE sounding entries that it covers become WITHHELD, an ACTIVE entry of the CHIME or
the TOLL lane that it covers is CUT_SHORT, its outcome written and the lane FREE, no entry is dropped, and one that is neither covered so
nor a lane's is as it was; none that it covers is DUE or of those lanes afterwards. Where it gains for peals, the bells it silences leave
the running peal: a RAISING or UP one is ordered LOWER, one that waits waits no more, another goes on; with none left the entry is CUT_SHORT
at once and the lane FREE, else the peal goes on with the rest, no longer whole (R105, R130). Outcomes are said of slots of which no other
lane has an entry. A full stack refuses a push with FULL, and operands out of range are refused with BAD_VALUE; that an unused bit is
refused also in a field that the kind ignores is the model's reading (log entry 25, DEDUCED) (R100, R104). -/
def Obligations.SilenceWithholds : Prop :=
  ∀ (s : State) (k ks b3 b2 b1 b0 m3 m2 m1 m0 sc ds d1 d0 : Byte), portServed s = true →
    (∀ t, Machine.exec (.pushOverride [k, ks, b3, b2, b1, b0, m3, m2, m1, m0, sc, ds, d1, d0]) s = .next t →
      silenceGained (effective s) (effective t) = true →
      (∀ e ∈ t.sheets.today.entries, e.state = .due → e.kind.sounding = true → silenceCovers t e = false) ∧
      (∀ (lane : Lane) (key : Key) (e : Entry), lane ≠ .peal → laneKey t lane = some key →
        findEntry key t.sheets.today.entries = some e → silenceCovers t e = false) ∧
      t.sheets.today.entries.map (fun e => { e with state := .pending })
        = s.sheets.today.entries.map (fun e => { e with state := .pending }) ∧
      ((s.sheets.today.entries.map Entry.key).Nodup → ∀ e ∈ s.sheets.today.entries,
        (e.state = .due → e.kind.sounding = true → silenceCovers t e = true →
          (∀ lane key, laneKey s lane = some key → key.slot ≠ e.key.slot) →
          { e with state := .withheld } ∈ t.sheets.today.entries ∧
            ((getSlot s e.key.slot).state ≠ .empty → (getSlot t e.key.slot).last = .withheld)) ∧
        (∀ lane, lane ≠ .peal → laneKey s lane = some e.key → e.state = .active → silenceCovers t e = true →
          (∀ other key, other ≠ lane → laneKey s other = some key → key.slot ≠ e.key.slot) →
          { e with state := .cutShort } ∈ t.sheets.today.entries ∧ laneKey t lane = none ∧
            (lane = .chime → t.tunes.player = none) ∧ (lane = .toll → t.lanes.tollRun = none) ∧
            ((getSlot s e.key.slot).state ≠ .empty → (getSlot t e.key.slot).last = .cutShort ∧
              (getSlot t e.key.slot).performed = min 65535 ((getSlot s e.key.slot).performed + 1) ∧
              (getSlot t e.key.slot).lastDay
                = some (if e.carried then s.time.localDate - 1 else s.time.localDate))) ∧
        (e.state ≠ .due ∨ e.kind.sounding = false ∨ silenceCovers t e = false →
          (∀ lane, laneKey s lane ≠ some e.key) → e ∈ t.sheets.today.entries))) ∧
    (∀ (t : State) (p : PealRun) (rest : List Station),
      Machine.exec (.pushOverride [k, ks, b3, b2, b1, b0, m3, m2, m1, m0, sc, ds, d1, d0]) s = .next t →
      (effective s).peal.gained (effective t).peal = true → s.peal = some p →
      rest = p.held.filter (fun st => !inSet (pealSilenced (effective t)) st) →
      (∀ st ∈ p.held, inSet (pealSilenced (effective t)) st = true →
        ((getBell s st).pos = .raising ∨ (getBell s st).pos = .up →
          (getBell t st).pos = .lowering ∧ (outstanding t st = some .lower ∨ (getBell t st).owed = some .lower)) ∧
        ((getBell s st).pos ≠ .raising → (getBell s st).pos ≠ .up →
          ((getBell s st).waitingRaise = true →
            (getBell t st).waitingRaise = false ∧ isWaiting t st = false ∧ (getBell t st).pos = (getBell s st).pos) ∧
          ((getBell s st).waitingRaise = false → getBell t st = getBell s st))) ∧
      (∀ st, st ∉ p.held → getBell t st = getBell s st) ∧ t.lights.reserv = s.lights.reserv ∧
      (rest ≠ p.held →
        (rest = [] →
          t.peal = none ∧ laneKey t .peal = none ∧
          ∀ key e, laneKey s .peal = some key → findEntry key s.sheets.today.entries = some e →
            (findEntry key t.sheets.today.entries).map Entry.state = some .cutShort ∧
            ((getSlot s key.slot).state ≠ .empty → (getSlot t key.slot).last = .cutShort ∧
              ((∀ lane other, lane ≠ .peal → laneKey s lane = some other → other.slot ≠ key.slot) →
                (getSlot t key.slot).performed = min 65535 ((getSlot s key.slot).performed + 1)))) ∧
        (rest ≠ [] →
          (t.peal = none ∨ ∃ q, t.peal = some q ∧ q.held = rest ∧ q.shortened = true) ∧
          (∀ u : State, u = { s with peal := some { p with held := rest, shortened := true } } → settlePeal u = u →
            t.peal = u.peal ∧ laneKey t .peal = laneKey s .peal ∧ ∀ st ∈ rest, getBell t st = getBell s st)))) ∧
    (∀ body, pushBody k ks (bellSet b3 b2 b1 b0) (bellSet m3 m2 m1 m0) sc ds = some body → u16 d1 d0 ≤ 1440 →
      8 ≤ s.overrides.entries.length →
      Machine.exec (.pushOverride [k, ks, b3, b2, b1, b0, m3, m2, m1, m0, sc, ds, d1, d0]) s
        = .next { s with port := ⟨.full, []⟩ }) ∧
    (pushBody k ks (bellSet b3 b2 b1 b0) (bellSet m3 m2 m1 m0) sc ds = none ∨ 1440 < u16 d1 d0 →
      Machine.exec (.pushOverride [k, ks, b3, b2, b1, b0, m3, m2, m1, m0, sc, ds, d1, d0]) s
        = .next { s with port := ⟨.badValue, []⟩ })

/-- POP takes the top entry, DROP the entry of an id, and an expiry every entry whose moment has come, together; the last assigned id, the
settings and the clock stay. A removal hands on what it changes of the effective state: the wanted levels are those of the forced scene,
else of the governing lit record, else off, and the dials whose hold changed are evaluated; with no peal running, one that leaves the
effective state as it was changes nothing else. An empty stack refuses POP with EMPTY, and an id that is not on it refuses DROP with
BAD_VALUE (R103, R107 to R109, R173, R185). That a POP or DROP taken between the new second and OVERRIDE_EXPIRY still finds an entry whose
moment has come is the model's choice (log entry 54, DESIGN CHOICE). -/
def Obligations.OverridesLeave : Prop :=
  ∀ s : State,
    (portServed s = true → s.overrides.entries ≠ [] →
      ∃ t, Machine.exec (.popOverride []) s = .next t ∧
        t.overrides = ⟨s.overrides.entries.dropLast, s.overrides.lastId⟩ ∧ HandsOn s t ∧ settingsView t = settingsView s ∧
        t.time = s.time ∧ t.port = ⟨.none, []⟩ ∧
        (s.peal = none → effective t = effective s → { t with overrides := s.overrides, port := s.port } = s)) ∧
    (∀ (n : Byte) (o : Override), portServed s = true → o ∈ s.overrides.entries → o.id = n.toNat →
      ∃ t, Machine.exec (.dropOverride [n]) s = .next t ∧
        t.overrides = ⟨s.overrides.entries.filter (fun x => x.id != n.toNat), s.overrides.lastId⟩ ∧ HandsOn s t ∧
        settingsView t = settingsView s ∧ t.time = s.time ∧ t.port = ⟨.none, []⟩ ∧
        (s.peal = none → effective t = effective s → { t with overrides := s.overrides, port := s.port } = s)) ∧
    (running s = true →
      ∃ t, Machine.exec .overrideExpiry s = .next t ∧
        t.overrides
          = ⟨s.overrides.entries.filter (fun o => !(o.expiry.any fun m => decide (m ≤ stdMoment s.time))),
            s.overrides.lastId⟩ ∧
        HandsOn s t ∧ settingsView t = settingsView s ∧ t.time = s.time ∧ t.port = s.port ∧
        (s.peal = none → effective t = effective s → { t with overrides := s.overrides } = s)) ∧
    (portServed s = true → s.overrides.entries = [] →
      Machine.exec (.popOverride []) s = .next { s with port := ⟨.empty, []⟩ }) ∧
    (∀ n : Byte, portServed s = true → (∀ o ∈ s.overrides.entries, o.id ≠ n.toNat) →
      Machine.exec (.dropOverride [n]) s = .next { s with port := ⟨.badValue, []⟩ })

/-! ### The bell table (chapter 6) -/

/-- FREE BELL: a station outside 1..31 is refused with BAD_VALUE, a bell that is not in FAULT with WRONG_STATE; otherwise the bell is
UNSURE, its no-answer count is 0 and, but for one that the console holds (R133), it is queried: its QUERY is in the queue, or it owes
an order. Its reservation and fault count are kept, as is every other bell (R118, R125). -/
def Obligations.FreeBellQueries : Prop :=
  ∀ (s : State) (n : Byte), portServed s = true →
    (stationOf n.toNat = none → Machine.exec (.freeBell [n]) s = .next { s with port := ⟨.badValue, []⟩ }) ∧
    (∀ st, stationOf n.toNat = some st → (getBell s st).pos ≠ .fault →
      Machine.exec (.freeBell [n]) s = .next { s with port := ⟨.wrongState, []⟩ }) ∧
    (∀ st, stationOf n.toNat = some st → (getBell s st).pos = .fault →
      ∃ t, Machine.exec (.freeBell [n]) s = .next t ∧ (getBell t st).pos = .unsure ∧ (getBell t st).noAnswer = 0 ∧
        ((getBell s st).present = true → (getBell s st).ctrl = .automatic →
          (outstanding t st = some .query ∨ (getBell t st).owed.isSome = true) ∧
          (lineAccepts s = true → outstanding s st = none → (getBell s st).owed = none →
            outstanding t st = some .query)) ∧
        (getBell t st).reserving = (getBell s st).reserving ∧ t.lights = s.lights ∧
        (getBell t st).faults = (getBell s st).faults ∧ (∀ u, u ≠ st → getBell t u = getBell s u) ∧
        settingsView t = settingsView s ∧ t.time = s.time ∧ t.overrides = s.overrides ∧ t.dials = s.dials ∧
        t.port = ⟨.none, []⟩)

/-- WRITE BELL: a station or a field out of range is refused with BAD_VALUE, then a bell that moves, is UP, is held by the console or
reserves with WRONG_STATE; otherwise the bell's configuration alone is replaced, and its position follows from the change of presence,
with what each row of R113 clears, withdraws and queries; its stroke and fault counts and its next free moment are kept (R113). -/
def Obligations.WriteBellReplaces : Prop :=
  ∀ (s : State) (n f r1 r0 u1 u0 d1 d0 load limit : Byte), portServed s = true →
    ((stationOf n.toNat = none ∨ fittedOf f = none ∨
        ∃ p h w, fittedOf f = some (p, h, w) ∧
          bellConfigOk ⟨p, h, w, u16 r1 r0, u16 u1 u0, u16 d1 d0, load.toNat, limit.toNat⟩ = false) →
      Machine.exec (.writeBell [n, f, r1, r0, u1, u0, d1, d0, load, limit]) s
        = .next { s with port := ⟨.badValue, []⟩ }) ∧
    (∀ (st : Station) (p h w : Bool), stationOf n.toNat = some st → fittedOf f = some (p, h, w) →
      bellConfigOk ⟨p, h, w, u16 r1 r0, u16 u1 u0, u16 d1 d0, load.toNat, limit.toNat⟩ = true →
      (bellBusy (getBell s st) = true →
        Machine.exec (.writeBell [n, f, r1, r0, u1, u0, d1, d0, load, limit]) s
          = .next { s with port := ⟨.wrongState, []⟩ }) ∧
      (bellBusy (getBell s st) = false →
        ∃ t, Machine.exec (.writeBell [n, f, r1, r0, u1, u0, d1, d0, load, limit]) s = .next t ∧
          settingsView t
            = { settingsView s with
                bells := put (settingsView s).bells st
                  ⟨p, h, w, u16 r1 r0, u16 u1 u0, u16 d1 d0, load.toNat, limit.toNat⟩ } ∧
          (getBell t st).pos
            = (if p = false then .absent else if (getBell s st).present then (getBell s st).pos else .unsure) ∧
          (getBell t st).strokes = (getBell s st).strokes ∧ (getBell t st).faults = (getBell s st).faults ∧
          (getBell t st).nextFree = (getBell s st).nextFree ∧
          ((getBell s st).present = false → p = true →
            (getBell t st).noAnswer = 0 ∧ (getBell t st).lastReply = none ∧
            (outstanding t st = some .query ∨ (getBell t st).owed.isSome = true)) ∧
          ((getBell s st).present = true → p = false →
            (getBell t st).noAnswer = 0 ∧ (getBell t st).owed = none ∧ (getBell t st).deferred = [] ∧
            ∀ o ∈ t.line.queue, o.station ≠ st) ∧
          t.time = s.time ∧ t.overrides = s.overrides ∧ t.dials = s.dials ∧ t.port = ⟨.none, []⟩))

/-- A raise that runs over is lowered with a fault event, a lowering that runs over is a FAULT with a fault event and a HALT ordered, and
a bell at its ringing limit is lowered with none; each leaves the peal, keeps its reservation, and what tower work leaves alone
stays (R120, R121, R126). -/
def Obligations.BellTimersRunOut : Prop :=
  ∀ (s : State) (st : Station), running s = true →
    (raiseOver s st = true →
      ∃ t, Machine.exec (.raiseTimeout st) s = .next t ∧ (getBell t st).pos = .lowering ∧
        (getBell t st).moveStart = some s.elapsed ∧ (getBell t st).faults = min 255 ((getBell s st).faults + 1) ∧
        (outstanding t st = some .lower ∨ (getBell t st).owed = some .lower) ∧ flagSet t.attn .bellFault = true ∧
        (getBell t st).reserving = (getBell s st).reserving ∧ t.lights = s.lights ∧ pealHolds t st = false ∧
        (∀ u, u ≠ st → getBell t u = getBell s u) ∧ towerView t = towerView s) ∧
    (lowerOver s st = true →
      ∃ t, Machine.exec (.lowerTimeout st) s = .next t ∧ (getBell t st).pos = .fault ∧
        (getBell t st).faults = min 255 ((getBell s st).faults + 1) ∧
        (outstanding t st = some .halt ∨ (getBell t st).owed = some .halt) ∧ flagSet t.attn .bellFault = true ∧
        (getBell t st).reserving = (getBell s st).reserving ∧ t.lights = s.lights ∧ pealHolds t st = false ∧
        (∀ u, u ≠ st → getBell t u = getBell s u) ∧ towerView t = towerView s) ∧
    (limitReached s st = true →
      ∃ t, Machine.exec (.ringingLimit st) s = .next t ∧ (getBell t st).pos = .lowering ∧
        (getBell t st).moveStart = some s.elapsed ∧ (getBell t st).faults = (getBell s st).faults ∧
        (outstanding t st = some .lower ∨ (getBell t st).owed = some .lower) ∧ t.attn = s.attn ∧
        (getBell t st).reserving = (getBell s st).reserving ∧ t.lights = s.lights ∧ pealHolds t st = false ∧
        (∀ u, u ≠ st → getBell t u = getBell s u) ∧ towerView t = towerView s)

/-- A poll that is due places a QUERY, and none where the bell has an order outstanding or owed; that the next poll then falls one interval
after the moment at which this one was due, whenever the event came, is the model's reading (log entry 37, DEDUCED). The first bell in
station order that owes an order and has none outstanding has it placed; a waiting request that fits now is admitted: its reservation is
recorded, its raise goes on, and a FAULT bell is polled from then on (R118, R122, R188; the last as an event of its own is log entry
30). -/
def Obligations.PollsAndOffers : Prop :=
  ∀ s : State, running s = true →
    (∀ (st : Station) (m i : Nat), pollDue s st = true → (getBell s st).nextPoll = some m →
      pollInterval (getBell s st) = some i →
      (outstanding s st = none → (getBell s st).owed = none → lineAccepts s = true →
        Machine.exec (.bellPoll st) s
          = .next
            { s with
              bells := put s.bells st { getBell s st with nextPoll := some (m + i) }
              line := { s.line with queue := s.line.queue ++ [⟨st, .swing .query, 0, 0⟩] } }) ∧
      ((outstanding s st).isSome = true ∨ (getBell s st).owed.isSome = true →
        Machine.exec (.bellPoll st) s
          = .next { s with bells := put s.bells st { getBell s st with nextPoll := some (m + i) } })) ∧
    (∀ (st : Station) (k : SwingOrder), lineAccepts s = true → (getBell s st).owed = some k → outstanding s st = none →
      (∀ u, u < st → (getBell s u).owed = none ∨ (outstanding s u).isSome = true) →
      Machine.exec .owedOrderOffered s
        = .next
          { s with
            bells := put s.bells st { getBell s st with owed := none }
            line := { s.line with queue := s.line.queue ++ [⟨st, .swing k, 0, 0⟩] } }) ∧
    (∀ (st : Station) (m : Nat), s.mains = .present →
      s.lights.waiting.find? (fun p => p.1 == st) = some (st, m) → m ≤ freeLoad s.lights →
      ∃ t, Machine.exec (.waitingRequestAdmitted st) s = .next t ∧ (getBell t st).reserving = true ∧
        (getBell t st).waitingRaise = false ∧
        (getBell t st).pos = (if (getBell s st).waitingRaise then .raising else (getBell s st).pos) ∧
        ((getBell s st).pos = .fault → (getBell s st).waitingRaise = false → (getBell s st).present = true →
          (getBell s st).ctrl = .automatic → (getBell t st).nextPoll = some (s.elapsed + 10000)) ∧
        t.lights
          = { s.lights with
              reserv := put s.lights.reserv st (some m)
              waiting := s.lights.waiting.filter fun p => p.1 != st } ∧
        (∀ u, u ≠ st → getBell t u = getBell s u) ∧ towerView t = towerView s)

/-- When the peal's raising timer runs out, held bells that wait leave it, their requests withdrawn, and no bell moves; when its ringing
timer runs out, every held bell that is UP is lowered and the peal is in its lowering phase (R128, R129). -/
def Obligations.PealTimersRunOut : Prop :=
  ∀ (s : State) (p : PealRun), running s = true → s.peal = some p →
    (p.phase = .raising → (∃ m, p.raiseBy = some m ∧ m ≤ s.elapsed) →
      ∃ t, Machine.exec .pealRaisingTimeout s = .next t ∧
        (∀ st ∈ p.held, (getBell s st).waitingRaise = true →
          (getBell t st).waitingRaise = false ∧ isWaiting t st = false ∧ pealHolds t st = false) ∧
        (∀ st, (getBell t st).pos = (getBell s st).pos ∧ (getBell t st).reserving = (getBell s st).reserving) ∧
        (∀ st, st ∉ p.held → getBell t st = getBell s st) ∧ t.line = s.line ∧ towerView t = towerView s) ∧
    (p.phase = .ringing → (∃ m, p.ringEnd = some m ∧ m ≤ s.elapsed) →
      ∃ t, Machine.exec .pealRingingEnd s = .next t ∧
        (∀ st ∈ p.held, (getBell s st).pos = .up → (getBell t st).pos = .lowering ∧
          (outstanding t st = some .lower ∨ (getBell t st).owed = some .lower)) ∧
        (∀ st, st ∉ p.held ∨ (getBell s st).pos ≠ .up → getBell t st = getBell s st) ∧
        ((∃ st ∈ p.held, (getBell s st).pos = .up) →
          t.peal = some { p with phase := .lowering, raiseBy := none, ringEnd := none }) ∧
        t.lights = s.lights ∧ towerView t = towerView s)

/-! ### The tune store (chapter 7) -/

/-- OPEN TUNE on an unlocked tune that is not CHECKING and not in use takes the lowest run that is free when its own counts as free,
fills it with rests, and prepares the tune; no other note and no other tune changes. With no such run it is refused with FULL, and with
a length or tick out of range with BAD_VALUE (R140). -/
def Obligations.OpenTuneFindsRoom : Prop :=
  ∀ (s : State) (n l1 l0 k1 k0 : Byte) (t : TuneNo), portServed s = true → noteLaw s → tuneOf n.toNat = some t →
    (getTune s t).locked = false → (getTune s t).state ≠ .checking → tuneInUse s t = false →
    (1 ≤ u16 l1 l0 → u16 l1 l0 ≤ 512 → tickOk (u16 k1 k0) = true →
      (∀ first, runFits s t (u16 l1 l0) first = true → (∀ m, m < first → runFits s t (u16 l1 l0) m = false) →
        ∃ notes : Memory,
          Machine.exec (.openTune [n, l1, l0, k1, k0]) s
            = .next
              { s with
                tunes :=
                  { s.tunes with
                    tunes := put s.tunes.tunes t
                      { getTune s t with
                        state := .loading, first := first, length := u16 l1 l0, tick := u16 k1 k0, expected := 0,
                        computed := 0, plays := 0, skipped := 0 }
                    notes := notes }
                port := ⟨.none, []⟩ } ∧
          (∀ m, readNote notes m
            = if first ≤ m ∧ m < first + u16 l1 l0 then (0, 0) else readNote s.tunes.notes m) ∧
          notes.wf = true) ∧
      ((∀ m, runFits s t (u16 l1 l0) m = false) →
        Machine.exec (.openTune [n, l1, l0, k1, k0]) s = .next { s with port := ⟨.full, []⟩ })) ∧
    ((u16 l1 l0 < 1 ∨ 512 < u16 l1 l0 ∨ tickOk (u16 k1 k0) = false) →
      Machine.exec (.openTune [n, l1, l0, k1, k0]) s = .next { s with port := ⟨.badValue, []⟩ })

/-- Notes written to a LOADING tune read back at their places and no other note changes; CLOSE stores the expected check and the tune is
CHECKING; its check finds it READY or BAD by the CRC of its note bytes, which is 29B1h for the nine bytes 31h to 39h; CLEAR empties a tune
that is not in use, its lock flag kept. closedAt, the moment of the last CLOSE, is the model's own field (log entry 9, DESIGN CHOICE), and
so is its choice that the check may complete at any moment after it (log entry 10, DESIGN CHOICE). CLOSE of an EMPTY tune is refused with
EMPTY and of one in any other state but LOADING with WRONG_STATE (R141 to R144). -/
def Obligations.TunesLoadAndCheck : Prop :=
  crc [0x31, 0x32, 0x33, 0x34, 0x35, 0x36, 0x37, 0x38, 0x39] = 0x29B1 ∧
  ∀ (s : State) (t : TuneNo),
    (∀ (b o c : Byte) (data : List Byte), portServed s = true → noteLaw s → (getTune s t).locked = false →
      (getTune s t).state = .loading → b.getLsbD 6 = false → tuneOf (b.toNat % 64) = some t → 1 ≤ c.toNat →
      c.toNat ≤ 32 → data.length = 2 * c.toNat →
      b.toNat / 128 * 256 + o.toNat + c.toNat ≤ (getTune s t).length → (notesOf data).all validNote = true →
      ∃ notes : Memory,
        Machine.exec (.writeNotes (b :: o :: c :: data)) s
          = .next { s with tunes := { s.tunes with notes := notes }, port := ⟨.none, []⟩ } ∧
        (∀ i, i < c.toNat →
          readNote notes ((getTune s t).first + (b.toNat / 128 * 256 + o.toNat) + i)
            = (data.getD (2 * i) 0, data.getD (2 * i + 1) 0)) ∧
        (∀ m, m < (getTune s t).first + (b.toNat / 128 * 256 + o.toNat) ∨
          (getTune s t).first + (b.toNat / 128 * 256 + o.toNat) + c.toNat ≤ m →
          readNote notes m = readNote s.tunes.notes m)) ∧
    (∀ n c1 c0 : Byte, portServed s = true → tuneOf n.toNat = some t → (getTune s t).locked = false →
      (getTune s t).state = .loading →
      Machine.exec (.closeTune [n, c1, c0]) s
        = .next
          { s with
            tunes :=
              { s.tunes with
                tunes := put s.tunes.tunes t
                  { getTune s t with state := .checking, expected := u16 c1 c0, closedAt := s.elapsed } }
            port := ⟨.none, []⟩ }) ∧
    (∀ n c1 c0 : Byte, portServed s = true → tuneOf n.toNat = some t → (getTune s t).locked = false →
      ((getTune s t).state = .empty →
        Machine.exec (.closeTune [n, c1, c0]) s = .next { s with port := ⟨.empty, []⟩ }) ∧
      ((getTune s t).state = .checking ∨ (getTune s t).state = .ready ∨ (getTune s t).state = .bad →
        Machine.exec (.closeTune [n, c1, c0]) s = .next { s with port := ⟨.wrongState, []⟩ })) ∧
    (running s = true → (getTune s t).state = .checking →
      ∃ c : Nat, c = (crc (noteBytes (runNotes s.tunes.notes (getTune s t).first (getTune s t).length))).toNat ∧
        Machine.exec (.tuneCheckComplete t) s
          = .next
            { s with
              tunes :=
                { s.tunes with
                  tunes := put s.tunes.tunes t
                    { getTune s t with
                      state := if c = (getTune s t).expected then .ready else .bad, computed := c } }
              attn :=
                { s.attn with
                  flags := s.attn.flags ||| BitVec.twoPow 15 (if c = (getTune s t).expected then 2 else 9) } }) ∧
    (∀ n : Byte, portServed s = true → tuneOf n.toNat = some t → (getTune s t).locked = false →
      (getTune s t).state ≠ .checking → (getTune s t).state ≠ .empty → tuneInUse s t = false →
      Machine.exec (.clearTune [n]) s
        = .next
          { s with
            tunes := { s.tunes with tunes := put s.tunes.tunes t ⟨.empty, 0, 0, 0, 0, 0, 0, 0, false, 0⟩ }
            port := ⟨.none, []⟩ })

/-- A note whose moment has come moves the player on by its duration: a rest requests nothing, a sounded note of a bell with a free
hammer is a STRIKE with a deadline 250 ms after the note's start, on a line that accepts no order it is lost and nothing else changes, and
one that is skipped is counted. At a play's end the plays count rises, and the next play starts, or the pause before the hour count, or
the entry is DONE (R117, R146 to R148, R150). That the pause is the effective interval as it stands at the end of the play is the model's
choice (log entry 44, DESIGN CHOICE). -/
def Obligations.TuneNotesPlay : Prop :=
  ∀ (s : State) (p : Player) (n : TuneNo), running s = true → s.tunes.player = some p → p.tune = some n →
    p.noteAt ≤ s.elapsed →
    (∀ x : Note, p.notePos < (getTune s n).length →
      readNote s.tunes.notes ((getTune s n).first + p.notePos) = x →
      (noteStation x = 0 →
        Machine.exec .tuneNote s
          = .next
            { s with
              tunes :=
                { s.tunes with
                  player := some
                    { p with
                      notePos := p.notePos + 1, noteAt := p.noteAt + noteTicks x * (getTune s n).tick } } }) ∧
      (∀ st, stationOf (noteStation x) = some st → (getBell s st).deferred = [] →
        (strikable (getBell s st) = true → (getBell s st).nextFree ≤ s.elapsed → lineAccepts s = true →
          Machine.exec .tuneNote s
            = .next
              { s with
                tunes :=
                  { s.tunes with
                    player := some
                      { p with
                        notePos := p.notePos + 1, noteAt := p.noteAt + noteTicks x * (getTune s n).tick } }
                bells := put s.bells st { getBell s st with nextFree := s.elapsed + (getBell s st).recovery }
                line :=
                  { s.line with
                    queue := s.line.queue
                      ++ [⟨st, .strike (mufflesTo s st (strengthOf (noteStrength x))) (p.noteAt + 250) (.note p.serial), 0, 0⟩] } }) ∧
        (strikable (getBell s st) = true → (getBell s st).nextFree ≤ s.elapsed → lineAccepts s = false →
          Machine.exec .tuneNote s
            = .next
              { s with
                tunes :=
                  { s.tunes with
                    player := some
                      { p with
                        notePos := p.notePos + 1, noteAt := p.noteAt + noteTicks x * (getTune s n).tick } } }) ∧
        (strikable (getBell s st) = false ∨ s.elapsed < (getBell s st).nextFree →
          Machine.exec .tuneNote s
            = .next
              { s with
                tunes :=
                  { s.tunes with
                    tunes := put s.tunes.tunes n
                      { getTune s n with skipped := min 512 ((getTune s n).skipped + 1) }
                    player := some
                      { p with
                        notePos := p.notePos + 1, noteAt := p.noteAt + noteTicks x * (getTune s n).tick } } }))) ∧
    ((getTune s n).length ≤ p.notePos →
      ∃ t, Machine.exec .tunePlayEnd s = .next t ∧ (getTune t n).plays = min 65535 ((getTune s n).plays + 1) ∧
        (p.playNo < p.playsAsked →
          t.tunes.player = some { p with playNo := p.playNo + 1, notePos := 0, playStart := p.noteAt } ∧
          (getTune t n).skipped = 0 ∧ { t with tunes := s.tunes } = s) ∧
        (p.playsAsked ≤ p.playNo → p.train = true → 0 < p.strokes →
          t.tunes.player = some
            { p with tune := none, strokeAt := some (p.noteAt + effectiveInterval s p.hourBell p.interval) } ∧
          { t with tunes := s.tunes } = s) ∧
        (p.playsAsked ≤ p.playNo → p.train = false ∨ p.strokes = 0 →
          t.tunes.player = none ∧ laneKey t .chime = none ∧
          (∀ k e, laneKey s .chime = some k → findEntry k s.sheets.today.entries = some e →
            (findEntry k t.sheets.today.entries).map Entry.state = some .done) ∧
          t.bells = s.bells ∧ t.line = s.line ∧ t.lights = s.lights) ∧
        towerView t = towerView s)

/-! ### The belfry line (chapter 8) -/

/-- A frame of the part's own: with both wires high the head order's frame begins, with LDA low the line is RECOVERING, with LCK low nothing
begins; an order unanswered for the first or second time is back at the head, and a third time counts against its station; a stroke that is
acknowledged counts, and a QUERY's DOWN reply brings a LOWERING bell DOWN; against a frame with a lower address byte, or with the same one
and a lower order byte, arbitration is lost and the order is back at the head with its counts, and against any other the part goes on (R116,
R122, R155 to R157). With both wires low the line is RECOVERING: the model's reading (log entry 39, DEDUCED). An order put back goes to the
head of a full queue too, which is then 33 long (log entry 19, DESIGN CHOICE). The levels last sampled, and the moments at which LCK was
last read high, and since which it reads low, are the model's own fields, set whenever the wires are read: at a frame's start and at its
STOP, and where no frame may begin (log entries 4, 28 and 34). While mains is absent, and while the line is FAULTED, the controller does
not read the line, and no frame begins (R164, R167). -/
def Obligations.OwnFramesRun : Prop :=
  ∀ (s : State) (o : Order), running s = true →
    (∀ lck lda : Bool, s.mains = .absent ∨ s.line.state = .faulted → Machine.exec (.orderFrameStart lck lda) s = .next s) ∧
    (∀ lck lda : Bool, s.mains = .present → s.line.state ≠ .faulted → s.line.state ≠ .idle ∨ s.line.queue = [] →
      Machine.exec (.orderFrameStart lck lda) s
        = .next
          { s with
            pins :=
              { s.pins with
                lckHighAt := if lck then s.elapsed else s.pins.lckHighAt
                lckLowSince := if lck then none else some (s.pins.lckLowSince.getD s.elapsed), ldaHigh := lda } }) ∧
    (∀ (rest : List Order) (lck lda : Bool), s.line.state = .idle → s.mains = .present → s.line.queue = o :: rest →
      inTime s o = true →
      ∃ t, Machine.exec (.orderFrameStart lck lda) s = .next t ∧
        t.line
          = (if lda = false then { s.line with state := .recovering }
            else if lck = false then s.line
            else { s.line with state := .sending, frame := .own o s.elapsed, queue := rest }) ∧
        t.pins
          = { s.pins with
              lckHighAt := if lck then s.elapsed else s.pins.lckHighAt
              lckLowSince := if lck then none else some (s.pins.lckLowSince.getD s.elapsed), ldaHigh := lda } ∧
        t.bells = s.bells ∧ t.lights = s.lights ∧
        t.time = s.time ∧ settingsView t = settingsView s) ∧
    (∀ started, s.line.frame = .own o started →
      (o.unanswered < 2 →
        ∃ t, Machine.exec (.orderAttemptEnd .unanswered) s = .next t ∧
          t.line
            = { s.line with
                state := .idle, frame := .none, queue := { o with unanswered := o.unanswered + 1 } :: s.line.queue } ∧
          t.pins = { s.pins with lckHighAt := s.elapsed, lckLowSince := none, ldaHigh := true } ∧ t.bells = s.bells ∧
          t.lights = s.lights ∧ settingsView t = settingsView s) ∧
      (2 ≤ o.unanswered → (getBell s o.station).pos ≠ .absent →
        ∃ t, Machine.exec (.orderAttemptEnd .unanswered) s = .next t ∧ t.line.state = .idle ∧ t.line.frame = .none ∧
          (getBell t o.station).noAnswer = min 3 ((getBell s o.station).noAnswer + 1) ∧
          (getBell t o.station).pos
            = (if 2 ≤ (getBell s o.station).noAnswer then .fault else (getBell s o.station).pos) ∧
          (∀ u, u ≠ o.station → getBell t u = getBell s u) ∧ settingsView t = settingsView s) ∧
      (∀ (x : Strength) (d : Nat) (who : Requester) (reply : Byte), o.body = .strike x d who →
        (getBell s o.station).pos ≠ .absent →
        ∃ t, Machine.exec (.orderAttemptEnd (.acknowledged reply)) s = .next t ∧
          t.line = { s.line with state := .idle, frame := .none } ∧
          t.bells = put s.bells o.station
            { getBell s o.station with noAnswer := 0, strokes := min 65535 ((getBell s o.station).strokes + 1) } ∧
          t.lights = s.lights ∧ settingsView t = settingsView s) ∧
      (∀ reply : Byte, o.body = .swing .query → reply.toNat % 4 = 0 → (getBell s o.station).pos = .lowering →
        (getBell s o.station).ctrl = .automatic → (getBell s o.station).waitingRaise = false →
        ∃ t, Machine.exec (.orderAttemptEnd (.acknowledged reply)) s = .next t ∧ t.line.state = .idle ∧
          t.line.frame = .none ∧ (getBell t o.station).pos = .down ∧ (getBell t o.station).reserving = false ∧
          (getBell t o.station).lastReply = some (replyOf reply) ∧ settingsView t = settingsView s) ∧
      (∀ (winner : FrameHead) (own : Nat), own = 4 * stationNo o.station + (if o.body = .swing .query then 1 else 0) →
        (winner.address.toNat < own ∨ winner.address.toNat = own ∧ winner.order.toNat < o.orderByte.toNat →
          Machine.exec (.arbitrationLost winner) s
            = .next
              { s with
                line :=
                  { s.line with
                    queue := o :: s.line.queue
                    arbLosses := min 65535 (s.line.arbLosses + 1)
                    state :=
                      if winner.address.toNat / 4 = 40 ∧ s.line.answerConsole = true then .addressed else .observing
                    frame := .foreign [winner.address] started none }
                pins := { s.pins with lckHighAt := s.elapsed, lckLowSince := none } }) ∧
        (own < winner.address.toNat ∨ winner.address.toNat = own ∧ o.orderByte.toNat ≤ winner.order.toNat →
          Machine.exec (.arbitrationLost winner) s = .next s)))

/-- A frame of another party begins on an IDLE line; an observed RAISE, LOWER or HALT that its station acknowledged, or a QUERY with its
reply, is followed by a bell that the console holds: one found moving reserves its load or waits for it, and one found DOWN hands its
load back. A HALT to address 0 makes every such bell UNSURE. A frame not acknowledged changes no bell, and neither does any to a
station whose bell the console does not hold, or to no station; and a frame to the part ends (R133, R158, R159). That the pins hold the
levels last read, LCK high at every START and both wires high after a STOP, is the model's reading of R152 (log entries 28 and 34). -/
def Obligations.ForeignFramesAreFollowed : Prop :=
  ∀ s : State, running s = true →
    (∀ address : Byte, s.line.state = .idle → s.mains = .present →
      Machine.exec (.foreignStart address) s
        = .next
          { s with
            line :=
              { s.line with
                state := if address.toNat / 4 = 40 ∧ s.line.answerConsole = true then .addressed else .observing
                frame := .foreign [address] s.elapsed none }
            pins := { s.pins with lckHighAt := s.elapsed, lckLowSince := none } }) ∧
    (∀ (address : Byte) (started : Nat) (g : Option BellSet), s.line.state = .observing →
      s.line.frame = .foreign [address] started g →
      (∀ rest : List Byte,
        ∃ t, Machine.exec (.observedFrameStop rest false) s = .next t ∧
          t.line = { s.line with state := .idle, frame := .none } ∧ t.bells = s.bells ∧ t.lights = s.lights ∧
          settingsView t = settingsView s) ∧
      (∀ rest : List Byte,
        (∀ st, stationOf (address.toNat / 4) = some st → (getBell s st).ctrl = .automatic) →
        (address.toNat / 4 = 0 → rest.head? ≠ some 0x12 ∨ readFlag address = true) →
        ∃ t, Machine.exec (.observedFrameStop rest true) s = .next t ∧
          t.line = { s.line with state := .idle, frame := .none } ∧ t.bells = s.bells ∧ t.lights = s.lights ∧
          settingsView t = settingsView s) ∧
      (∀ (reply : Byte) (rest : List Byte) (st : Station), stationOf (address.toNat / 4) = some st →
        readFlag address = true → (getBell s st).ctrl = .console →
        ∃ t, Machine.exec (.observedFrameStop (0x20 :: reply :: rest) true) s = .next t ∧ t.line.state = .idle ∧
          t.line.frame = .none ∧ (getBell t st).ctrl = .console ∧ settingsView t = settingsView s ∧
          (reply.toNat % 4 ≠ 0 →
            (getBell t st).pos
              = (if reply.toNat % 4 = 1 then .raising else if reply.toNat % 4 = 2 then .up else .lowering) ∧
            ((getBell t st).reserving = true ∨ isWaiting t st = true) ∧
            (getBell t st).upSince
              = (if reply.toNat % 4 = 2 ∧ (getBell s st).pos ≠ .up then s.elapsed else (getBell s st).upSince) ∧
            ∀ u, u ≠ st → getBell t u = getBell s u) ∧
          (reply.toNat % 4 = 0 → (getBell s st).waitingRaise = false →
            (getBell t st).pos = .down ∧ (getBell t st).reserving = false ∧ isWaiting t st = false)) ∧
      (∀ (order : Byte) (rest : List Byte) (st : Station), stationOf (address.toNat / 4) = some st →
        readFlag address = false → (getBell s st).ctrl = .console →
        order = 0x10 ∨ order = 0x11 ∨ order = 0x12 →
        ∃ t, Machine.exec (.observedFrameStop (order :: rest) true) s = .next t ∧ t.line.state = .idle ∧
          t.line.frame = .none ∧
          (getBell t st).pos
            = (if order = 0x10 then .raising else if order = 0x11 then .lowering else .unsure) ∧
          (getBell t st).ctrl = .console ∧ (∀ u, u ≠ st → getBell t u = getBell s u) ∧
          settingsView t = settingsView s) ∧
      (∀ rest : List Byte, address = 0 →
        ∃ t, Machine.exec (.observedFrameStop (0x12 :: rest) true) s = .next t ∧ t.line.state = .idle ∧
          t.line.frame = .none ∧
          (∀ st, (getBell s st).ctrl = .console → (getBell t st).pos = .unsure ∧ (getBell t st).ctrl = .console) ∧
          (∀ st, (getBell s st).ctrl = .automatic → getBell t st = getBell s st) ∧
          settingsView t = settingsView s)) ∧
    (∀ (bytes : List Byte) (started : Nat) (g : Option BellSet), s.line.state = .addressed →
      s.line.frame = .foreign bytes started g →
      Machine.exec .addressedFrameStop s
        = .next
          { s with
            line := { s.line with state := .idle, frame := .none }
            pins := { s.pins with lckHighAt := s.elapsed, lckLowSince := none, ldaHigh := true } })

/-- A CLAIM grants, of the bells named that are present and not in FAULT, those that the console then holds, and answers with them: every
one that it held or that reserves, and of the others just those whose load fits the free load, or with mains present the free and the
sheddable load, of the account as a claim of the lower stations of the set alone leaves it; what it takes reserves. A RELEASE gives back the
bells of its set that the console holds, and RELEASE ALL every one: AUTOMATIC, UNSURE and queried, reservation kept. Bells that are not
named do not change, and CONSOLE_CHANGE is set where a controller changed (R131, R132, R159). That a bell in FAULT that the console holds
already is not granted again, and that such a bell given back is UNSURE, are the model's choices (log entries 56 and 57, DESIGN CHOICE). -/
def Obligations.ClaimsAndReleases : Prop :=
  ∀ (s : State) (address : Byte) (started : Nat), running s = true → s.line.state = .addressed →
    s.line.frame = .foreign [address] started none →
    (∀ set : BellSet, readFlag address = true →
      ∃ (t : State) (granted : BellSet), Machine.exec (.claim set) s = .next t ∧ t.line.state = .addressed ∧
        t.line.frame
          = .foreign (address :: 0x40 :: (bellSetBytes set ++ bellSetBytes granted)) started (some granted) ∧
        (∀ st, inSet granted st
          = (inSet set st && (getBell s st).present && (getBell s st).pos != .fault && (getBell t st).ctrl == .console)) ∧
        (∀ st, inSet set st = true → (getBell s st).present = true → (getBell s st).pos ≠ .fault →
          (getBell s st).reserving = true ∨ (getBell s st).ctrl = .console → (getBell t st).ctrl = .console) ∧
        (∀ st, inSet set st = true → (getBell s st).present = true → (getBell s st).pos ≠ .fault →
          (getBell s st).reserving = false → (getBell s st).ctrl = .automatic →
          ∃ u, Machine.exec (.claim (set &&& BitVec.ofNat 32 (2 ^ stationNo st - 1))) s = .next u ∧
            (inSet granted st = true ↔
              (getBell s st).load ≤ freeLoad u.lights ∨
                s.mains = .present ∧ (getBell s st).load ≤ freeLoad u.lights + zoneTotal u.lights)) ∧
        (∀ st, inSet granted st = true → (getBell s st).ctrl = .automatic → (getBell t st).reserving = true) ∧
        (∀ st, (getBell t st).pos = (getBell s st).pos) ∧
        (∀ st, inSet set st = false → getBell t st = getBell s st) ∧
        ((∃ st, (getBell t st).ctrl ≠ (getBell s st).ctrl) → flagSet t.attn .consoleChange = true) ∧
        settingsView t = settingsView s) ∧
    (readFlag address = false →
      (∀ set : BellSet,
        ∃ t, Machine.exec (.release set) s = .next t ∧ t.line.state = .idle ∧ t.line.frame = .none ∧
          (∀ st, inSet set st = true → (getBell s st).ctrl = .console →
            (getBell t st).ctrl = .automatic ∧ (getBell t st).pos = .unsure ∧
            (getBell t st).reserving = (getBell s st).reserving ∧
            ((getBell s st).present = true →
              outstanding t st = some .query ∨ (getBell t st).owed.isSome = true) ∧
            flagSet t.attn .consoleChange = true) ∧
          (∀ st, inSet set st = false ∨ (getBell s st).ctrl = .automatic → getBell t st = getBell s st) ∧
          t.lights = s.lights ∧ settingsView t = settingsView s) ∧
      ∃ t, Machine.exec .releaseAll s = .next t ∧ t.line.state = .idle ∧ t.line.frame = .none ∧
        (∀ st, (getBell s st).ctrl = .console →
          (getBell t st).ctrl = .automatic ∧ (getBell t st).pos = .unsure ∧
          (getBell t st).reserving = (getBell s st).reserving ∧
          ((getBell s st).present = true →
            outstanding t st = some .query ∨ (getBell t st).owed.isSome = true) ∧
          flagSet t.attn .consoleChange = true) ∧
        (∀ st, (getBell s st).ctrl = .automatic → getBell t st = getBell s st) ∧ t.lights = s.lights ∧
        settingsView t = settingsView s)

/-- Errors of the line and what recovers it: a bus error frees the line and counts, an own order goes back for its one retry; a hung frame
is forced off; the nine pulses free the line or make it FAULTED with DATA_STUCK, a stuck clock with CLOCK_STUCK, the queue empty, LINE_FAULT
set, moving bells UNSURE with their reservations, the swing orders of bells that are not ABSENT owed; CLEAR LINE begins an attempt on a
FAULTED line with mains present, and its end frees the line and queries every present bell that the console does not hold, in ascending
station order (for a restart's attempt the model's choice: log entry 52, DESIGN CHOICE), or records the cause; an attempt of a restart that
fails makes the line FAULTED with every one of those steps (R168); and the console setting is written (R118, R134, R160 to R166). The
model's readings: a forced access to an ADDRESSED frame leaves the bus-error count (log entry 39, DEDUCED), CLOCK_STUCK ends an attempt
under way on a line not FAULTED (log entry 24, DEDUCED), a CLOCK_STUCK that no held clock calls for does nothing (log entry 4, DESIGN
CHOICE), an order put back on a full queue makes it 33 long (log entry 19, DESIGN CHOICE), the wires as last sampled, and when LCK last read
high and since when it reads low, are pins of the model (log entries 28 and 34). -/
def Obligations.LineErrorsAndRecovery : Prop :=
  ∀ s : State,
    (running s = true →
      (∀ (o : Order) (started : Nat), s.line.state = .sending → s.line.frame = .own o started → o.abandoned = 0 →
        inTime s o = true →
        ∃ t, Machine.exec .busError s = .next t ∧
          t.line
            = { s.line with
                state := .idle, frame := .none, busErrors := min 255 (s.line.busErrors + 1)
                queue := { o with abandoned := 1 } :: s.line.queue } ∧
          t.bells = s.bells ∧ settingsView t = settingsView s) ∧
      (s.line.state = .addressed →
        Machine.exec .busError s
          = .next
            { s with
              line := { s.line with state := .idle, frame := .none, busErrors := min 255 (s.line.busErrors + 1) }
              pins := { s.pins with lckHighAt := s.elapsed, lckLowSince := none } }) ∧
      (s.line.state = .observing →
        Machine.exec .busError s
          = .next
            { s with
              line := { s.line with state := .idle, frame := .none }
              pins := { s.pins with lckHighAt := s.elapsed, lckLowSince := none } }) ∧
      (∀ (bytes : List Byte) (started : Nat) (g : Option BellSet), s.line.frame = .foreign bytes started g →
        s.line.state = .observing ∨ s.line.state = .addressed → started + 100 ≤ s.elapsed →
        Machine.exec .forcedAccess s
          = .next
            { s with
              line := { s.line with state := .idle, frame := .none, forced := min 255 (s.line.forced + 1) }
              pins := { s.pins with lckHighAt := s.elapsed, lckLowSince := none } }) ∧
      (s.line.state = .recovering → s.line.attempt = none →
        Machine.exec (.recoveryPulsesDone true) s
          = .next
            { s with
              line := { s.line with state := .idle, frame := .none }
              pins := { s.pins with lckHighAt := s.elapsed, lckLowSince := none, ldaHigh := true } }) ∧
      (s.line.state = .faulted ∨ s.mains = .absent ∨
          s.elapsed ≤ s.pins.lckHighAt + 25 ∧ (∀ m, s.pins.lckLowSince = some m → s.elapsed ≤ m + 25) →
        Machine.exec .clockStuck s = .next s) ∧
      (∀ (c : Instr) (cause : FaultCause),
        (c = .recoveryPulsesDone false ∧ cause = .dataStuck ∧ s.line.state = .recovering ∧ s.line.attempt = none) ∨
          c = .clockStuck ∧ cause = .clockStuck ∧ s.line.state ≠ .faulted ∧ s.mains = .present ∧
            (s.pins.lckHighAt + 25 < s.elapsed ∨ ∃ m, s.pins.lckLowSince = some m ∧ m + 25 < s.elapsed) ∨
          s.line.attempt = some .restart ∧
            (c = .recoveryAttemptEnd .clockStuck ∧ cause = .clockStuck ∨
              c = .recoveryAttemptEnd .dataStuck ∧ cause = .dataStuck) →
        ∃ t, Machine.exec c s = .next t ∧
          t.line
            = { s.line with
                state := .faulted, cause := cause, faults := min 255 (s.line.faults + 1), queue := [], frame := .none
                attempt := none } ∧
          flagSet t.attn .lineFault = true ∧
          (∀ st, (getBell s st).present = true → isMoving (getBell s st) = true → (getBell t st).pos = .unsure) ∧
          (∀ st, (getBell t st).reserving = (getBell s st).reserving) ∧
          (∀ (o : Order) (k : SwingOrder), o ∈ s.line.queue → o.body = .swing k →
            (getBell s o.station).pos ≠ .absent → (getBell t o.station).owed.isSome = true) ∧
          t.lights = s.lights ∧ settingsView t = settingsView s) ∧
      (∀ kind, s.line.attempt = some kind →
        ∃ t, Machine.exec (.recoveryAttemptEnd .freed) s = .next t ∧ t.line.state = .idle ∧ t.line.attempt = none ∧
          t.line.cause = s.line.cause ∧
          (∀ st, (getBell s st).present = true → (getBell s st).ctrl = .automatic →
            (outstanding t st).isSome = true ∨ (getBell t st).owed.isSome = true) ∧
          (∃ added, t.line.queue = s.line.queue ++ added ∧ (added.map Order.station).Pairwise (· < ·)) ∧
          t.lights = s.lights ∧
          towerView t
            = { towerView s with
                line := (towerView t).line
                pins := { s.pins with lckHighAt := s.elapsed, lckLowSince := none, ldaHigh := true } }) ∧
      (∀ (cause : FaultCause) (r : AttemptResult), s.line.attempt = some .clear →
        (r = .clockStuck ∧ cause = .clockStuck) ∨ (r = .dataStuck ∧ cause = .dataStuck) →
        Machine.exec (.recoveryAttemptEnd r) s
          = .next
            { s with
              line := { s.line with attempt := none, cause := cause, faults := min 255 (s.line.faults + 1) }
              pins :=
                (if r = .clockStuck then
                  { s.pins with lckLowSince := some (s.pins.lckLowSince.getD s.elapsed) }
                else { s.pins with lckHighAt := s.elapsed, lckLowSince := none, ldaHigh := false })
              attn := { s.attn with flags := s.attn.flags ||| BitVec.twoPow 15 8 } })) ∧
    (portServed s = true →
      (s.line.state = .faulted → s.mains = .present →
        Machine.exec (.clearLine []) s
          = .next
            { s with
              line := { s.line with attempt := if s.line.attempt.isSome then s.line.attempt else some .clear }
              port := ⟨.none, []⟩ }) ∧
      (s.line.state ≠ .faulted ∨ s.mains = .absent →
        Machine.exec (.clearLine []) s = .next { s with port := ⟨.wrongState, []⟩ }) ∧
      Machine.exec (.writeLineSettings [1]) s
        = .next { s with line := { s.line with answerConsole := true }, port := ⟨.none, []⟩ } ∧
      Machine.exec (.writeLineSettings [0]) s
        = .next { s with line := { s.line with answerConsole := false }, port := ⟨.none, []⟩ } ∧
      (∀ b : Byte, 1 < b.toNat → Machine.exec (.writeLineSettings [b]) s = .next { s with port := ⟨.badValue, []⟩ }))

/-! ### The dial drive unit (chapter 9) -/

/-- SET DIAL HANDS: a dial number, hand position or polarity choice out of range is refused with BAD_VALUE, then an ABSENT dial with
WRONG_STATE, then one giving an impulse with BUSY; otherwise H and the next polarity are set, the dial is evaluated, and nothing else
changes; the other five states accept it, and a dial that is not present is then STOPPED (R178). -/
def Obligations.SetDialHandsSets : Prop :=
  ∀ (s : State) (n h1 h0 p : Byte), portServed s = true →
    (dialOf n.toNat = none ∨ 1439 < u16 h1 h0 ∨ 2 < p.toNat →
      Machine.exec (.setDialHands [n, h1, h0, p]) s = .next { s with port := ⟨.badValue, []⟩ }) ∧
    (∀ d, dialOf n.toNat = some d → u16 h1 h0 ≤ 1439 → p.toNat ≤ 2 →
      ((getDial s d).state = .absent →
        Machine.exec (.setDialHands [n, h1, h0, p]) s = .next { s with port := ⟨.wrongState, []⟩ }) ∧
      ((getDial s d).state ≠ .absent → (getDial s d).impulse.isSome = true →
        Machine.exec (.setDialHands [n, h1, h0, p]) s = .next { s with port := ⟨.busy, []⟩ }) ∧
      ((getDial s d).state ≠ .absent → (getDial s d).impulse = none →
        ∃ x : Dial,
          Machine.exec (.setDialHands [n, h1, h0, p]) s
            = .next { s with dials := put s.dials d x, port := ⟨.none, []⟩ } ∧
          x.hand = u16 h1 h0 ∧
          x.polarity
            = (if p.toNat = 0 then (getDial s d).polarity else if p.toNat = 1 then .positive else .negative) ∧
          x.state
            = dialStateOf (getDial s d) s.mains s.time.valid (dialHeld s d) (lagOf (dialTarget s.time) (u16 h1 h0)) ∧
          x.due
            = (if x.state = .catchup ∨ x.state = .running ∧ lagOf (dialTarget s.time) (u16 h1 h0) = 1 then
                some (impulseMoment s.elapsed (getDial s d))
              else none) ∧
          { x with hand := 0, polarity := .positive, state := .stopped, due := none }
            = { getDial s d with hand := 0, polarity := .positive, state := .stopped, due := none } ∧
          ((getDial s d).present = false → x.state = .stopped)))

/-- The dials: WRITE DIAL replaces the five fields of a dial with no impulse in progress and evaluates it, sensing one that becomes present
while mains is; a changed target evaluates every dial that gives no impulse; a due impulse begins at the next polarity, and its end moves
the hands one step on with the polarity reversed, then takes a closure that came during it and makes a sensing put off to it; a closure away
from 0 corrects the hands and counts a slip (R171 to R174, R177, R179). WRITE DIAL refuses a dial number, a width, an interval, a wait limit
or a flag out of range with BAD_VALUE, then a dial that gives an impulse with BUSY. That the target change is told from lastTarget, the
target last acted on, is the model's own mark (log entry 36, DESIGN CHOICE). That a dial which sensed open is ABSENT while mains is absent
too is the model's choice (log entry 48, DESIGN CHOICE), and so is that WRITE DIAL senses no dial that was present already (log entry 49,
DESIGN CHOICE). -/
def Obligations.DialsFollowTheTarget : Prop :=
  ∀ s : State,
    (∀ (n p w1 w0 c l1 l0 y : Byte) (d : DialNo) (present sync circuitOpen : Bool), portServed s = true →
      dialOf n.toNat = some d → flagOf p = some present → flagOf y = some sync →
      dialValuesOk (u16 w1 w0) c.toNat (u16 l1 l0) = true → (getDial s d).impulse = none →
      ∃ (t : State) (x : Dial), Machine.exec (.writeDial [n, p, w1, w0, c, l1, l0, y] circuitOpen) s = .next t ∧
        t.dials = put s.dials d x ∧ x.present = present ∧ x.width = u16 w1 w0 ∧ x.interval = c.toNat ∧
        x.waitLimit = u16 l1 l0 ∧ x.syncUsed = sync ∧ x.hand = (getDial s d).hand ∧
        x.polarity = (getDial s d).polarity ∧ x.slips = (getDial s d).slips ∧
        x.sensedOpen
          = (if (getDial s d).present = present then (getDial s d).sensedOpen
            else present && s.mains == .present && circuitOpen) ∧
        x.state = dialStateOf x s.mains s.time.valid (dialHeld s d) (lagOf (dialTarget s.time) x.hand) ∧
        { t with dials := s.dials, port := s.port, pins := s.pins } = s) ∧
    (running s = true → dialTarget s.time ≠ s.lastTarget →
      ∃ t, Machine.exec .targetChange s = .next t ∧ t.lastTarget = dialTarget s.time ∧
        (∀ d, (getDial s d).impulse = none →
          getDial t d
            = evaluatedFields s.elapsed (lagOf (dialTarget s.time) (getDial s d).hand)
                (dialStateOf (getDial s d) s.mains s.time.valid (dialHeld s d)
                  (lagOf (dialTarget s.time) (getDial s d).hand)) (getDial s d)) ∧
        (∀ d, (getDial s d).impulse.isSome = true → getDial t d = getDial s d) ∧
        { t with dials := s.dials, lastTarget := s.lastTarget } = s) ∧
    (∀ (d : DialNo) (m : Nat), running s = true → (getDial s d).due = some m → m ≤ s.elapsed →
      (getDial s d).impulse = none →
      Machine.exec (.impulseStart d) s
        = .next
          { s with
            dials := put s.dials d
              { getDial s d with
                impulse := some ⟨(getDial s d).polarity, s.elapsed + (getDial s d).width⟩
                lastStart := some s.elapsed
                due := none
                closure := false } }) ∧
    (∀ (d : DialNo) (i : Impulse) (circuitOpen : Bool), running s = true → (getDial s d).impulse = some i →
      i.ends ≤ s.elapsed → (getDial s d).closure = false → (getDial s d).senseAtEnd = false →
      ∃ x : Dial, Machine.exec (.impulseEnd d circuitOpen) s = .next { s with dials := put s.dials d x } ∧
        x.impulse = none ∧ x.hand = ((getDial s d).hand + 1) % 1440 ∧ x.polarity ≠ (getDial s d).polarity ∧
        x.slips = (getDial s d).slips ∧
        x.state
          = dialStateOf (getDial s d) s.mains s.time.valid (dialHeld s d) (lagOf (dialTarget s.time) x.hand)) ∧
    (∀ (d : DialNo) (i : Impulse) (circuitOpen : Bool) (advanced : Nat) (slipped : Bool), running s = true →
      (getDial s d).impulse = some i → i.ends ≤ s.elapsed → advanced = ((getDial s d).hand + 1) % 1440 →
      (slipped = true ↔ (getDial s d).closure = true ∧ advanced ≠ 0) →
      ∃ (t : State) (x : Dial), Machine.exec (.impulseEnd d circuitOpen) s = .next t ∧ t.dials = put s.dials d x ∧
        x.impulse = none ∧ x.closure = false ∧ x.senseAtEnd = false ∧ x.polarity ≠ (getDial s d).polarity ∧
        x.hand = (if slipped then 0 else advanced) ∧
        x.slips = (if slipped then min 255 ((getDial s d).slips + 1) else (getDial s d).slips) ∧
        (slipped = true → flagSet t.attn .dialSlip = true) ∧ (slipped = false → t.attn = s.attn) ∧
        x.sensedOpen
          = (if (getDial s d).senseAtEnd = true ∧ (getDial s d).present = true then circuitOpen
            else (getDial s d).sensedOpen) ∧
        x.state = dialStateOf x s.mains s.time.valid (dialHeld s d) (lagOf (dialTarget s.time) x.hand) ∧
        { t with dials := s.dials, attn := s.attn, pins := s.pins } = s) ∧
    (∀ (n p w1 w0 c l1 l0 y : Byte) (circuitOpen : Bool), portServed s = true →
      ((dialOf n.toNat = none ∨ 1 < p.toNat ∨ 1 < y.toNat ∨ u16 w1 w0 < 100 ∨ 3000 < u16 w1 w0 ∨ u16 w1 w0 % 100 ≠ 0 ∨
          c.toNat < 1 ∨ 20 < c.toNat ∨ c.toNat * 1000 < u16 w1 w0 + 500 ∨ 720 < u16 l1 l0) →
        Machine.exec (.writeDial [n, p, w1, w0, c, l1, l0, y] circuitOpen) s
          = .next { s with port := ⟨.badValue, []⟩ }) ∧
      (∀ d, dialOf n.toNat = some d → p.toNat ≤ 1 → y.toNat ≤ 1 → 100 ≤ u16 w1 w0 → u16 w1 w0 ≤ 3000 →
        u16 w1 w0 % 100 = 0 → 1 ≤ c.toNat → c.toNat ≤ 20 → u16 w1 w0 + 500 ≤ c.toNat * 1000 → u16 l1 l0 ≤ 720 →
        (getDial s d).impulse.isSome = true →
        Machine.exec (.writeDial [n, p, w1, w0, c, l1, l0, y] circuitOpen) s = .next { s with port := ⟨.busy, []⟩ })) ∧
    (∀ d : DialNo, running s = true → watched s d = true →
      ((getDial s d).impulse = none → (getDial s d).hand ≠ 0 →
        ∃ t, Machine.exec (.syncClosure d) s = .next t ∧ (getDial t d).hand = 0 ∧
          (getDial t d).slips = min 255 ((getDial s d).slips + 1) ∧ flagSet t.attn .dialSlip = true ∧
          (∀ u, u ≠ d → getDial t u = getDial s u) ∧
          { t with dials := s.dials, attn := s.attn, pins := s.pins } = s) ∧
      ((getDial s d).impulse.isSome = true →
        ∃ t, Machine.exec (.syncClosure d) s = .next t ∧
          t.dials = put s.dials d { getDial s d with closure := true } ∧
          { t with dials := s.dials, pins := s.pins } = s))

/-! ### The lighting unit (chapter 10) -/

/-- WRITE ZONE replaces the four fields of its zone and WRITE SCENE the eight levels of its scene, and no other setting; under the law
of the lighting unit both keep it, and after WRITE SCENE every wanted level is the governing scene's. WRITE ZONE sheds, with LOAD_LIMITED
set, where the committed load exceeds the allowance; where it does not, one that lowers any of the three loads, while mains is present, has
the waiting requests retried and restoration run, and any other changes no level, no reservation and no bell (R183 to R185, R188,
R189). -/
def Obligations.LightingWritesKeepTheLaw : Prop :=
  ∀ s : State, portServed s = true → lightLaw s →
    (∀ (n a b c p : Byte) (z : ZoneNo), zoneOf n.toNat = some z → 1 ≤ p.toNat → p.toNat ≤ 8 → a.toNat ≤ b.toNat →
      b.toNat ≤ c.toNat →
      ∃ t, Machine.exec (.writeZone [n, a, b, c, p]) s = .next t ∧ lightLaw t ∧
        settingsView t
          = { settingsView s with
              zones := put (settingsView s).zones z (a.toNat, b.toNat, c.toNat, p.toNat) } ∧
        (∀ y, (t.lights.zones.get y).wanted = (s.lights.zones.get y).wanted) ∧
        (∀ l : Lights,
          l = { s.lights with
            zones := put s.lights.zones z
              { s.lights.zones.get z with low := a.toNat, mid := b.toNat, full := c.toNat, priority := p.toNat } } →
          (l.allowance < committed l → flagSet t.attn .loadLimited = true) ∧
          (committed l ≤ l.allowance → s.mains = .present →
            a.toNat < (s.lights.zones.get z).low ∨ b.toNat < (s.lights.zones.get z).mid ∨
              c.toNat < (s.lights.zones.get z).full →
            ∀ r : State, r = restoration (retryWaiting { s with lights := l }) →
              t.lights = r.lights ∧ t.bells = r.bells ∧ t.line = r.line) ∧
          (committed l ≤ l.allowance →
            s.mains = .absent ∨ (s.lights.zones.get z).low ≤ a.toNat ∧ (s.lights.zones.get z).mid ≤ b.toNat ∧
              (s.lights.zones.get z).full ≤ c.toNat →
            t.lights = l ∧ t.bells = s.bells ∧ t.line = s.line)) ∧
        t.time = s.time ∧ t.overrides = s.overrides ∧ t.dials = s.dials ∧ t.port = ⟨.none, []⟩) ∧
    (∀ (n : Byte) (bytes : List Byte) (sc : SceneNo) (levels : Vector Nat 8), sceneOf n.toNat = some sc →
      levelsOf bytes = some levels →
      ∃ t, Machine.exec (.writeScene (n :: bytes)) s = .next t ∧ lightLaw t ∧
        settingsView t = { settingsView s with scenes := put (settingsView s).scenes sc levels } ∧
        (∀ y, (t.lights.zones.get y).wanted
          = match governingScene s with
            | some g => ((put s.lights.scenes sc levels).get g).get y
            | none => 0) ∧
        t.time = s.time ∧ t.overrides = s.overrides ∧ t.dials = s.dials ∧ t.port = ⟨.none, []⟩)

/-- SET ALLOWANCE: above 1,000 it is refused with BAD_VALUE, below the reservation total with WRONG_STATE; otherwise the allowance alone of
the settings is replaced. Where the committed load does not fit, zones are shed step by step until it does, no level raised and no wanted
level changed, with LOAD_LIMITED set; a raised allowance has the waiting requests retried and restoration run, while mains is present;
an equal one, a lowered one that fits, and any one while mains is absent change no level, no reservation and no bell (R190; what a
running peal makes of an admission is R128's). -/
def Obligations.SetAllowanceBoundsTheLoad : Prop :=
  ∀ (s : State) (a b : Byte), portServed s = true →
    (1000 < u16 a b → Machine.exec (.setAllowance [a, b]) s = .next { s with port := ⟨.badValue, []⟩ }) ∧
    (u16 a b ≤ 1000 → u16 a b < reservTotal s.lights →
      Machine.exec (.setAllowance [a, b]) s = .next { s with port := ⟨.wrongState, []⟩ }) ∧
    (u16 a b ≤ 1000 → reservTotal s.lights ≤ u16 a b → lightLaw s →
      ∃ t, Machine.exec (.setAllowance [a, b]) s = .next t ∧ t.lights.allowance = u16 a b ∧
        committed t.lights ≤ u16 a b ∧ settingsView t = { settingsView s with allowance := u16 a b } ∧
        (u16 a b < committed s.lights → flagSet t.attn .loadLimited = true ∧
          (∀ z, (t.lights.zones.get z).present ≤ (s.lights.zones.get z).present ∧
            (t.lights.zones.get z).wanted = (s.lights.zones.get z).wanted) ∧
          t.lights
            = shedUntil (fun l => decide (committed l ≤ l.allowance)) 24 { s.lights with allowance := u16 a b } ∧
          t.bells = s.bells) ∧
        (∀ r : State, r = restoration (retryWaiting { s with lights := { s.lights with allowance := u16 a b } }) →
          s.lights.allowance < u16 a b → s.mains = .present →
          t.lights = r.lights ∧ t.bells = r.bells ∧ t.line = r.line ∧
            (s.peal = none → t = { r with port := ⟨.none, []⟩ })) ∧
        (committed s.lights ≤ u16 a b → u16 a b ≤ s.lights.allowance ∨ s.mains = .absent →
          t.lights = { s.lights with allowance := u16 a b } ∧ t.bells = s.bells ∧ t.line = s.line ∧
            (s.peal = none → t = { s with lights := { s.lights with allowance := u16 a b }, port := ⟨.none, []⟩ })) ∧
        t.time = s.time ∧ t.overrides = s.overrides ∧ t.dials = s.dials ∧ t.port = ⟨.none, []⟩)

/-! ### Port, attention, mains and power (chapter 11) -/

/-- CLEAR ATTENTION clears the flags of its mask alone, WRITE ATTENTION ENABLES replaces the seventeen enables alone, masks with unused
bits are refused with BAD_VALUE, and a command byte that names no command with UNKNOWN_COMMAND; ATTN is asserted just where a set flag
has its own enable and its group's on. A change command whose frame holds fewer or more bytes than it calls for, and a read command whose
frame ends before its last operand byte, are refused with SHORT_FRAME, and nothing changes but the port and the level that the frame
sampled (R194, R195, R198, R199, R212). -/
def Obligations.AttentionCommands : Prop :=
  (∀ a : Attn, attnAsserted a = true ↔
    ∃ i, i < 15 ∧ a.flags.getLsbD i = true ∧ a.enables.getLsbD i = true ∧
      (if i < 5 then a.normalEnable else a.abnormalEnable) = true) ∧
  ∀ s : State, portServed s = true →
    (∀ a b : Byte, a.toNat < 128 →
      ∃ flags, Machine.exec (.clearAttention [a, b]) s
          = .next { s with attn := { s.attn with flags := flags }, port := ⟨.none, []⟩ } ∧
        ∀ i, i < 15 → flags.getLsbD i = (s.attn.flags.getLsbD i && !(a ++ b).getLsbD i)) ∧
    (∀ g a b : Byte, g.toNat < 4 → a.toNat < 128 →
      ∃ enables, Machine.exec (.writeAttentionEnables [g, a, b]) s
          = .next
            { s with attn := ⟨s.attn.flags, enables, g.getLsbD 0, g.getLsbD 1⟩, port := ⟨.none, []⟩ } ∧
        ∀ i, i < 15 → enables.getLsbD i = (a ++ b).getLsbD i) ∧
    (∀ a b : Byte, 128 ≤ a.toNat →
      Machine.exec (.clearAttention [a, b]) s = .next { s with port := ⟨.badValue, []⟩ }) ∧
    (∀ g a b : Byte, 4 ≤ g.toNat ∨ 128 ≤ a.toNat →
      Machine.exec (.writeAttentionEnables [g, a, b]) s = .next { s with port := ⟨.badValue, []⟩ }) ∧
    (∀ (code : Byte) (ops : List Byte),
      Machine.exec (.unknownCommandFrame code ops) s = .next { s with port := ⟨.unknownCommand, []⟩ }) ∧
    (∀ (command : List Byte → Instr) (n : Nat) (ops : List Byte),
      (command, n) ∈
        [(Instr.writeRecord, 33), (.publishRecord, 1), (.withdrawRecord, 1), (.retireRecord, 1), (.lockSlot, 1),
          (.unlockSlot, 1), (.lockAll, 0), (.unlockAll, 0), (.lockTune, 1), (.unlockTune, 1), (.setTime, 7),
          (.adjustTime, 3), (.writeTimeSettings, 11), (.writeSundayRank, 1), (.writeTwilight, 5), (.queryDay, 4),
          (.pushOverride, 14), (.popOverride, 0), (.dropOverride, 1), (.writeBell, 10), (.freeBell, 1), (.openTune, 5),
          (.closeTune, 3), (.clearTune, 1), (.clearLine, 0), (.writeLineSettings, 1), (.setDialHands, 4), (.writeZone, 5),
          (.writeScene, 9), (.setAllowance, 2), (.clearAttention, 2), (.writeAttentionEnables, 3)] →
      ops.length ≠ n → Machine.exec (command ops) s = .next { s with port := ⟨.shortFrame, []⟩ }) ∧
    (∀ (command : List Byte → Instr) (n : Nat) (ops : List Byte),
      (command, n) ∈
        [(Instr.readRecord, 1), (.findRecords, 5), (.readSheet, 2), (.readBell, 1), (.readTune, 1), (.readNotes, 3),
          (.readLighting, 1)] →
      ops.length < n → Machine.exec (command ops) s = .next { s with port := ⟨.shortFrame, []⟩ }) ∧
    (∀ (ops : List Byte) (opens : DialSet), ops ≠ [] →
      Machine.exec (.reset ops opens) s = .next { s with port := ⟨.shortFrame, []⟩ }) ∧
    (∀ (ops : List Byte) (key : KeyLevel), ops.length ≠ 4 →
      Machine.exec (.writeProtection ops key) s
        = .next { s with pins := { s.pins with key := key }, port := ⟨.shortFrame, []⟩ }) ∧
    (∀ (ops : List Byte) (circuitOpen : Bool), ops.length ≠ 8 →
      Machine.exec (.writeDial ops circuitOpen) s = .next { s with port := ⟨.shortFrame, []⟩ }) ∧
    (∀ closed : Bool, Machine.exec (.readDial [] closed) s = .next { s with port := ⟨.shortFrame, []⟩ }) ∧
    (∀ ops : List Byte, ops.length < 3 →
      Machine.exec (.writeNotes ops) s = .next { s with port := ⟨.shortFrame, []⟩ }) ∧
    (∀ (b o c : Byte) (data : List Byte), 1 ≤ c.toNat → c.toNat ≤ 32 → data.length ≠ 2 * c.toNat →
      Machine.exec (.writeNotes (b :: o :: c :: data)) s = .next { s with port := ⟨.shortFrame, []⟩ })

/-- A read that is carried out streams the fields of its layout from the state, each at its place and as many bytes as the layout has,
and changes the port alone, and the levels it samples: a record, the clock and its settings, the calendar settings, the query result, both
sheets, the override stack, a bell, a tune and its notes, the line, a dial, the lighting unit, the status and the identity (R14, R44, R53,
R74, R98, R110, R114, R145, R166, R181, R192, R197, in the layouts of R203 to R209). Numbers stand modulo what their bytes hold, and
moments where they fit. That READ BELL has 32 bytes, with the seconds UP in four of them, is the model's choice, and so are the codes that
chapter 12 does not list, among them those of a polarity, of the ATTN and contact levels and of no last reply (log entry 17, DESIGN
CHOICE); contactsClosed, the level last sampled, is its own field (log entry 28). -/
def Obligations.ReadsStreamTheirLayouts : Prop :=
  ∀ s : State, portServed s = true →
    (∀ (b : Byte) (rest : List Byte) (i : SlotNo), slotOf b = some i →
      ∃ stream, Machine.exec (.readRecord (b :: rest)) s = .next { s with port := ⟨.none, stream⟩ } ∧
        stream.length = 41 ∧ ShowsRecord s i stream) ∧
    (∀ (i : Byte) (rest : List Byte),
      (∃ stream, Machine.exec (.readSheet (0 :: i :: rest)) s = .next { s with port := ⟨.none, stream⟩ } ∧
        stream.length = 102 ∧ ShowsSheet s.time.localDate 0 s.sheets.today.entries i.toNat (heldBy s) stream) ∧
      ∃ stream, Machine.exec (.readSheet (1 :: i :: rest)) s = .next { s with port := ⟨.none, stream⟩ } ∧
        stream.length = 102 ∧
        ShowsSheet (s.time.localDate + 1) (match s.sheets.status with
          | .missing => 1
          | .fresh => 2
          | .stale => 3) s.sheets.standby.entries i.toNat (fun _ => 0) stream) ∧
    (∃ stream, Machine.exec .readTime s = .next { s with port := ⟨.none, stream⟩ } ∧ stream.length = 26 ∧
      ShowsTime s.time stream) ∧
    (∃ stream, Machine.exec .readTimeSettings s = .next { s with port := ⟨.none, stream⟩ } ∧ stream.length = 11 ∧
      ShowsTimeSettings s.time stream) ∧
    (∃ stream, Machine.exec .readCalendarSettings s = .next { s with port := ⟨.none, stream⟩ } ∧ stream.length = 97 ∧
      ShowsCalendar s.calendar stream) ∧
    (∃ stream, Machine.exec .readQueryResult s = .next { s with port := ⟨.none, stream⟩ } ∧ stream.length = 19 ∧
      ShowsResult s.resolver stream) ∧
    (∃ stream, Machine.exec .readOverrides s = .next { s with port := ⟨.none, stream⟩ } ∧
      (stackLaw s → stream.length = 396) ∧ ShowsOverrides s.overrides stream) ∧
    (∀ (n : Byte) (rest : List Byte) (st : Station), stationOf n.toNat = some st →
      ∃ stream, Machine.exec (.readBell (n :: rest)) s = .next { s with port := ⟨.none, stream⟩ } ∧
        stream.length = 32 ∧ ShowsBell s st stream) ∧
    (∀ (n : Byte) (rest : List Byte) (t : TuneNo), tuneOf n.toNat = some t → (getTune s t).state ≠ .checking →
      (∃ stream, Machine.exec (.readTune (n :: rest)) s = .next { s with port := ⟨.none, stream⟩ } ∧
        stream.length = 18 ∧ ShowsTune s t stream) ∧
      (∀ o1 o0 : Byte, (getTune s t).state ≠ .empty → u16 o1 o0 < (getTune s t).length →
        ∃ stream, Machine.exec (.readNotes (n :: o1 :: o0 :: rest)) s = .next { s with port := ⟨.none, stream⟩ } ∧
          stream.length = 2 * ((getTune s t).length - u16 o1 o0) ∧
          ∀ k, u16 o1 o0 + k < (getTune s t).length →
            (byteAt stream (2 * k), byteAt stream (2 * k + 1))
              = readNote s.tunes.notes ((getTune s t).first + u16 o1 o0 + k))) ∧
    (∃ stream, Machine.exec .readLine s = .next { s with port := ⟨.none, stream⟩ } ∧ stream.length = 10 ∧
      ShowsLine s.line stream) ∧
    (∀ (n : Byte) (rest : List Byte) (closed : Bool) (d : DialNo), dialOf n.toNat = some d →
      ∃ stream, Machine.exec (.readDial (n :: rest) closed) s
          = .next
            { s with
              pins := { s.pins with contactsClosed := put s.pins.contactsClosed d closed }
              port := ⟨.none, stream⟩ } ∧ stream.length = 20 ∧ ShowsDial s d closed stream) ∧
    (∀ (n : Byte) (rest : List Byte) (sc : SceneNo), sceneOf n.toNat = some sc →
      ∃ stream, Machine.exec (.readLighting (n :: rest)) s = .next { s with port := ⟨.none, stream⟩ } ∧
        stream.length = 79 + 2 * s.lights.waiting.length ∧ ShowsLighting s sc stream) ∧
    (∃ stream, Machine.exec .readStatus s = .next { s with port := ⟨s.port.lastCode, stream⟩ } ∧
      stream.length = 12 ∧ ShowsStatus s stream) ∧
    Machine.exec .readIdentity s = .next { s with port := ⟨.none, [0x55, 0x43, 0x04, 0x16, 0x02]⟩ }

/-- A panel reset, by RESET or by the pin going low: every slot and tune is locked, no lane holds an entry, no bell is held by the console
or by a peal, no run is in progress, the message, the waiting message and the candidate are gone, the refusal code is NONE; the
overrides, the clock, mains and every setting stand. A pin already low takes no further one, and going high only ends it (R24, R26, R46,
R75, R97, R136, R200). -/
def Obligations.PanelResetKeepsSettings : Prop :=
  ∀ (s : State) (opens : DialSet),
    (∀ (c : Instr) (pin : Bool),
      (c = .reset [] opens ∧ pin = true ∧ portServed s = true) ∨ (c = .resetPin opens ∧ pin = false ∧ portServed s = true) →
      ∃ t, Machine.exec c s = .next t ∧ (∀ i, (getSlot t i).locked = true) ∧ (∀ n, (getTune t n).locked = true) ∧
        (∀ lane, laneKey t lane = none) ∧
        (s.peal = none ∨ laneKey s .peal ≠ none → t.peal = none) ∧
        (∀ st, (getBell t st).ctrl = .automatic ∧ (getBell t st).noAnswer = 0 ∧
          (getBell t st).pos ≠ .raising ∧ (getBell t st).pos ≠ .up) ∧
        t.resolver.run = none ∧ t.resolver.query = none ∧ t.resolver.result = s.resolver.result ∧
        t.time = { s.time with assembling := [], waiting := none, candidate := none } ∧
        t.overrides = s.overrides ∧ t.mains = s.mains ∧ t.elapsed = s.elapsed ∧ t.latch = s.latch ∧
        t.pins.resetHigh = pin ∧ t.port = ⟨.none, []⟩ ∧ flagSet t.attn .mainsLost = false ∧
        flagSet t.attn .mainsBack = false ∧ settingsView t = settingsView s) ∧
    (s.pins.resetHigh = false → Machine.exec (.resetPin opens) s = .next s) ∧
    Machine.exec .resetPinReleased s = .next { s with pins := { s.pins with resetHigh := true } }

/-- Mains loss frees every lane, gives every bell back and leaves none moving, ends the peal, empties the line queue, cuts every impulse off
and turns every zone off; mains return is announced, with no impulse going and the circuit of every present dial as it is found; both keep
settings, clock and overrides (R94, R135, R167, R179, R180, R191, R201). At the return every present AUTOMATIC bell has an order on the line
or owed; where none was, each is queried, and owes its query while the line is FAULTED (R136, R167); that the queries stand in the queue in
ascending station order is the model's choice, since neither rule gives an order (log entry 52, DESIGN CHOICE). The wanted levels are the
governing scene's, and the zones are restored in restore order until none is shed or the first that is does not fit (R189, R191); where
every zone keeps its law before, no zone ends above its wanted level. That the lanes' look for an entry is a step of its own after the
return (log entry 51), and that zones go on from the present levels held (log entry 45), are the model's choices (DESIGN CHOICE). -/
def Obligations.MainsChanges : Prop :=
  ∀ s : State, running s = true →
    (s.mains = .present →
      ∃ t, Machine.exec .mainsLost s = .next t ∧ t.mains = .absent ∧ flagSet t.attn .mainsLost = true ∧
        (∀ lane, laneKey t lane = none) ∧ t.peal = none ∧
        (∀ st, (getBell t st).ctrl = .automatic ∧ isMoving (getBell t st) = false ∧ (getBell t st).owed = none ∧
          (getBell t st).reserving = (getBell s st).reserving) ∧
        t.line.queue = [] ∧ (∀ d, (getDial t d).impulse = none ∧ (getDial t d).due = none ∧
          (getDial t d).hand = (getDial s d).hand ∧ (getDial t d).polarity = (getDial s d).polarity) ∧
        (∀ z, (t.lights.zones.get z).present = 0 ∧ (t.lights.zones.get z).wanted = (s.lights.zones.get z).wanted) ∧
        t.lights.reserv = s.lights.reserv ∧ t.time = s.time ∧ t.overrides = s.overrides ∧ t.port = s.port ∧
        settingsView t = settingsView s) ∧
    (∀ opens : DialSet, s.mains = .absent →
      ∃ t, Machine.exec (.mainsReturn opens) s = .next t ∧ t.mains = .present ∧ flagSet t.attn .mainsBack = true ∧
        (∀ d, (getDial t d).impulse = none ∧
          ((getDial s d).present = true → (getDial t d).sensedOpen = opens.getLsbD d.val)) ∧
        t.pins.mainsHigh = true ∧ t.time = s.time ∧ t.overrides = s.overrides ∧ t.port = s.port ∧
        t.line.recoveryWanted = false ∧ settingsView t = settingsView s ∧
        (∀ st, (getBell s st).present = true → (getBell s st).ctrl = .automatic →
          outstanding t st ≠ none ∨ (getBell t st).owed ≠ none) ∧
        (s.peal = none → s.lights.waiting = [] → s.line.queue = [] → ownOrder s.line = none →
          (∀ st, (getBell s st).ctrl = .automatic ∧ (getBell s st).owed = none) →
          (s.line.state ≠ .faulted →
            t.line.queue
              = ((List.finRange 31).filter fun st => (getBell s st).present).map fun st => ⟨st, .swing .query, 0, 0⟩) ∧
          (s.line.state = .faulted →
            t.line.queue = [] ∧ ∀ st, (getBell s st).present = true → (getBell t st).owed = some .query)) ∧
        (∀ z, (t.lights.zones.get z).wanted = wantedLevel s.lights (governingScene s) z) ∧
        ((∀ z, zoneLaw (s.lights.zones.get z)) → ∀ z, (t.lights.zones.get z).present ≤ (t.lights.zones.get z).wanted) ∧
        ((∀ sc z, (s.lights.scenes.get sc).get z ≤ 3) → ∀ z, isShed (t.lights.zones.get z) = true →
          (∀ y, y ≠ z → isShed (t.lights.zones.get y) = true → shedBefore t.lights y z = true) →
          freeLoad t.lights
            < zoneLoad (t.lights.zones.get z) ((t.lights.zones.get z).present + 1)
              - zoneLoad (t.lights.zones.get z) (t.lights.zones.get z).present) ∧
        ((∀ z, zoneLaw (s.lights.zones.get z)) → s.lights.waiting = [] → ∀ z,
          min (s.lights.zones.get z).present (t.lights.zones.get z).wanted ≤ (t.lights.zones.get z).present ∧
          ∀ y, isShed (t.lights.zones.get y) = true → shedBefore t.lights z y = true →
            (t.lights.zones.get z).present = min (s.lights.zones.get z).present (t.lights.zones.get z).wanted))

/-- Power: a cold start on an unpowered part with its latch clear leaves every block as after reset and sets the latch; a power-up with
the latch set keeps the settings and the standard moment, clears time-valid with a step, empties both sheets and requests no rebuild;
losing power stops the logic alone, and losing retention clears the latch alone (R202; the elapsed time that goes on counting is the
model's own: log entries 9 and 33). -/
def Obligations.PowerTransitions : Prop :=
  ∀ s : State,
    (∀ high : Bool, s.power = .unpowered → s.latch = false →
      ∃ t, Machine.exec (.coldStart high) s = .next t ∧
        { t with elapsed := 0, pins := Pins.quiet, mains := .present, bells := State.reset.bells, pending := [] }
          = State.reset ∧
        (∀ st, getBell t st = { getBell State.reset st with nextFree := s.elapsed }) ∧
        t.mains = (if high then .present else .absent) ∧ t.elapsed = s.elapsed ∧ t.pending = s.pending) ∧
    (∀ (high : Bool) (opens : DialSet), s.power = .unpowered → s.latch = true →
      ∃ t, Machine.exec (.powerUpBackupHeld high opens) s = .next t ∧ t.power = .running ∧ t.latch = true ∧
        t.time.valid = false ∧ t.time.ref = .free ∧ t.time.slew = 0 ∧ t.time.stdDay = s.time.stdDay ∧
        t.time.stdSec = s.time.stdSec ∧ t.sheets.today = Sheet.cold ∧ t.sheets.standby = Sheet.cold ∧
        t.sheets.status = .missing ∧ t.resolver.todayReq = false ∧ t.resolver.standbyReq = false ∧
        flagSet t.attn .timeStepped = true ∧ t.mains = (if high then .present else .absent) ∧
        flagSet t.attn .mainsBack = high ∧ flagSet t.attn .mainsLost = (!high && s.mains == .present) ∧
        t.overrides.lastId = s.overrides.lastId ∧ t.elapsed = s.elapsed ∧ settingsView t = settingsView s) ∧
    Machine.exec .partUnpowered s = .next { s with power := .unpowered } ∧
    Machine.exec .backupRetentionLost s = .next { s with latch := false }
end

