-- ==== Sys2Proof/Laws/Tables.lean ====
section
/-! SUPPORT. The laws of rows of tables, saturating counts and sorting. -/

namespace Sys2Proof.Machine

variable {α β : Type} {n : Nat}

theorem get_eq_elem (v : Vector α n) (i : Fin n) : v.get i = v[i.val] := rfl

@[simp] theorem get_put (v : Vector α n) (i j : Fin n) (x : α) :
    (put v i x).get j = if i = j then x else v.get j := by
  simp [put, get_eq_elem, Vector.getElem_set, Fin.ext_iff]

@[simp] theorem get_modify (v : Vector α n) (i j : Fin n) (f : α → α) :
    (modify v i f).get j = if i = j then f (v.get j) else v.get j := by
  unfold modify
  rw [get_put]
  split
  · next h => rw [h]
  · rfl

theorem vector_ext_get {v w : Vector α n} (h : ∀ i, v.get i = w.get i) : v = w := by
  apply Vector.ext
  intro i hi
  simpa [get_eq_elem] using h ⟨i, hi⟩

@[simp] theorem get_map (f : α → β) (v : Vector α n) (i : Fin n) : (v.map f).get i = f (v.get i) := by
  simp [get_eq_elem]

@[simp] theorem get_ofFn (f : Fin n → α) (i : Fin n) : (Vector.ofFn f).get i = f i := by
  simp [get_eq_elem]

@[simp] theorem get_replicate (x : α) (i : Fin n) : (Vector.replicate n x).get i = x := by
  simp [get_eq_elem]

/-- A row changed in a way that a view does not show leaves the view as it was. -/
theorem map_modify (g : α → β) (v : Vector α n) (i : Fin n) (f : α → α) (h : ∀ x, g (f x) = g x) :
    (modify v i f).map g = v.map g := by
  apply vector_ext_get
  intro j
  simp only [get_map, get_modify]
  split
  · exact h _
  · rfl

/-- A saturating count never passes its limit. -/
theorem satAdd_le (limit count m : Nat) : satAdd limit count m ≤ limit := Nat.min_le_left _ _

/-- What a fold keeps at every step it keeps as a whole. -/
theorem foldl_keeps {σ : Type} (p : σ → Prop) (f : σ → α → σ) (h : ∀ s x, p s → p (f s x)) (xs : List α) :
    ∀ s, p s → p (xs.foldl f s) := by
  induction xs with
  | nil => intro s hs; exact hs
  | cons x xs ih => intro s hs; exact ih _ (h s x hs)

/-- A view that every step of a fold leaves as it was, the whole fold leaves as it was. -/
theorem foldl_view {σ γ : Type} (view : σ → γ) (f : σ → α → σ) (h : ∀ s x, view (f s x) = view s) (xs : List α) (s : σ) :
    view (xs.foldl f s) = view s := by
  induction xs generalizing s with
  | nil => rfl
  | cons x xs ih => exact (ih _).trans (h s x)

/-- Inserting keeps the elements. -/
theorem mem_insertBy (before : α → α → Bool) (x y : α) (xs : List α) : y ∈ insertBy before x xs ↔ y = x ∨ y ∈ xs := by
  induction xs with
  | nil => simp [insertBy]
  | cons z zs ih =>
    simp only [insertBy]
    split
    · simp
    · simp only [List.mem_cons, ih]
      exact or_left_comm

/-- Sorting keeps the elements. -/
@[simp] theorem mem_sortBy (before : α → α → Bool) (y : α) (xs : List α) : y ∈ sortBy before xs ↔ y ∈ xs := by
  induction xs with
  | nil => simp [sortBy]
  | cons x xs ih =>
    have : sortBy before (x :: xs) = insertBy before x (sortBy before xs) := rfl
    rw [this, mem_insertBy, ih, List.mem_cons]

theorem length_insertBy (before : α → α → Bool) (x : α) (xs : List α) : (insertBy before x xs).length = xs.length + 1 := by
  induction xs with
  | nil => rfl
  | cons z zs ih =>
    simp only [insertBy]
    split
    · rfl
    · simp [ih]

/-- Sorting keeps the length. -/
@[simp] theorem length_sortBy (before : α → α → Bool) (xs : List α) : (sortBy before xs).length = xs.length := by
  induction xs with
  | nil => rfl
  | cons x xs ih =>
    have : sortBy before (x :: xs) = insertBy before x (sortBy before xs) := rfl
    rw [this, length_insertBy, ih, List.length_cons]

/-- A quantity of `width` bytes is that many bytes. -/
@[simp] theorem length_beBytes (width m : Nat) : (beBytes width m).length = width := by
  induction width with
  | zero => rfl
  | succ k ih => simp [beBytes, ih]

end Sys2Proof.Machine
end

