-- ==== Sys2Proof/Laws/Account.lean ====
section
/-! SUPPORT. The supply account: what shedding, restoration, admission and new wanted levels do to the loads and to the law of the
lighting unit (R182, R185 to R189). -/

namespace Sys2Proof.Machine

/-- The law of the lighting unit, over its record: zones, scenes, and the committed load within the allowance. -/
def lightsOk (l : Lights) : Prop :=
  (∀ z, zoneLaw (l.zones.get z)) ∧ (∀ sc z, (l.scenes.get sc).get z ≤ 3) ∧ committed l ≤ l.allowance

theorem lightLaw_iff (s : State) : lightLaw s ↔ lightsOk s.lights := Iff.rfl

/-! ### Sums over the rows of a table -/

/-- A sum in which one row's term changes. -/
theorem sum_change {α : Type} (xs : List α) (z : α) (g g' : α → Nat) (hn : xs.Nodup) (hz : z ∈ xs)
    (h : ∀ y, y ≠ z → g' y = g y) : (xs.map g').sum + g z = (xs.map g).sum + g' z := by
  induction xs with
  | nil => cases hz
  | cons x xs ih =>
    simp only [List.map_cons, List.sum_cons]
    obtain ⟨hx, hn⟩ := List.nodup_cons.mp hn
    by_cases hxz : x = z
    · subst hxz
      have : xs.map g' = xs.map g := by
        apply List.map_congr_left
        intro y hy
        exact h y fun e => hx (e ▸ hy)
      rw [this]; omega
    · have := ih hn ((List.mem_cons.mp hz).resolve_left fun e => hxz e.symm)
      rw [h x hxz]; omega

/-- A sum of terms that are all no greater. -/
theorem sum_le {α : Type} (xs : List α) (g g' : α → Nat) (h : ∀ y, g' y ≤ g y) : (xs.map g').sum ≤ (xs.map g).sum := by
  induction xs with
  | nil => simp
  | cons x xs ih =>
    simp only [List.map_cons, List.sum_cons]
    have := h x
    omega

theorem zones_nodup : allZones.Nodup := by decide
theorem stations_nodup : allStations.Nodup := by decide
theorem mem_allZones (z : ZoneNo) : z ∈ allZones := List.mem_finRange z
theorem mem_allStations (st : Station) : st ∈ allStations := List.mem_finRange st

/-- The zone load after one zone is changed. -/
theorem zoneTotal_updZone (z : ZoneNo) (f : Zone → Zone) (l : Lights) :
    zoneTotal (updZone z f l) + presentLoad (l.zones.get z) = zoneTotal l + presentLoad (f (l.zones.get z)) := by
  have := sum_change allZones z (fun y => presentLoad (l.zones.get y)) (fun y => presentLoad ((updZone z f l).zones.get y))
    zones_nodup (mem_allZones z) (by
      intro y hy
      simp only [updZone, get_modify]
      rw [if_neg fun e => hy e.symm])
  simpa [zoneTotal, updZone] using this

/-- The reservation total after one reservation is recorded anew. -/
theorem reservTotal_put (st : Station) (x : Option Nat) (l : Lights) :
    reservTotal { l with reserv := put l.reserv st x } + (l.reserv.get st).getD 0 = reservTotal l + x.getD 0 := by
  have := sum_change allStations st (fun y => (l.reserv.get y).getD 0) (fun y => ((put l.reserv st x).get y).getD 0)
    stations_nodup (mem_allStations st) (by
      intro y hy
      simp only [get_put]
      rw [if_neg fun e => hy e.symm])
  simpa [reservTotal] using this

@[simp] theorem reservTotal_updZone (z : ZoneNo) (f : Zone → Zone) (l : Lights) :
    reservTotal (updZone z f l) = reservTotal l := rfl

@[simp] theorem zoneTotal_reserv (l : Lights) (v : Vector (Option Nat) 31) :
    zoneTotal { l with reserv := v } = zoneTotal l := rfl

/-! ### Shedding -/

/-- The levels lit, summed over the zones. -/
def litLevels (l : Lights) : Nat := (allZones.map fun z => (l.zones.get z).present).sum

theorem litLevels_updZone (z : ZoneNo) (f : Zone → Zone) (l : Lights) :
    litLevels (updZone z f l) + (l.zones.get z).present = litLevels l + (f (l.zones.get z)).present := by
  have := sum_change allZones z (fun y => (l.zones.get y).present) (fun y => ((updZone z f l).zones.get y).present)
    zones_nodup (mem_allZones z) (by
      intro y hy
      simp only [updZone, get_modify]
      rw [if_neg fun e => hy e.symm])
  simpa [litLevels, updZone] using this

/-- The zones alone obey their law, and so do the scenes. -/
def zonesOk (l : Lights) : Prop := (∀ z, zoneLaw (l.zones.get z)) ∧ ∀ sc z, (l.scenes.get sc).get z ≤ 3

/-- A zone's load does not fall as its level rises, where its loads are in order. -/
theorem zoneLoad_mono (z : Zone) (h : zoneLaw z) (a b : Nat) (hab : a ≤ b) : zoneLoad z a ≤ zoneLoad z b := by
  obtain ⟨_, _, h1, h2⟩ := h
  rcases a with _ | _ | _ | a <;> rcases b with _ | _ | _ | b <;> simp only [zoneLoad] <;> omega

theorem litLevels_le (l : Lights) (h : zonesOk l) : litLevels l ≤ stepLimit := by
  have h3 : ∀ z, (l.zones.get z).present ≤ 3 := fun z => by
    obtain ⟨a, b, _⟩ := h.1 z
    omega
  have : litLevels l ≤ (allZones.map fun _ => 3).sum := sum_le _ _ _ h3
  exact this

theorem zonesOk_updZone (z : ZoneNo) (f : Zone → Zone) (l : Lights) (h : zonesOk l) (hf : zoneLaw (f (l.zones.get z))) :
    zonesOk (updZone z f l) := by
  refine ⟨fun y => ?_, h.2⟩
  simp only [updZone, get_modify]
  split
  · next e => subst e; exact hf
  · exact h.1 y

/-- A shedding step keeps the zones' law, reserves nothing and keeps the allowance; it lowers the lit levels by one and the zone
load not at all or by something, as long as some zone is lit. -/
theorem shedStep_spec (l : Lights) (h : zonesOk l) :
    zonesOk (shedStep l) ∧ (shedStep l).reserv = l.reserv ∧ (shedStep l).allowance = l.allowance
      ∧ zoneTotal (shedStep l) ≤ zoneTotal l ∧ (litLevels (shedStep l) + 1 = litLevels l ∨ zoneTotal l = 0) := by
  unfold shedStep
  split
  · next hn =>
    refine ⟨h, rfl, rfl, Nat.le_refl _, Or.inr ?_⟩
    have hz : ∀ z, (l.zones.get z).present = 0 := by
      intro z
      have hmem : z ∈ shedOrder l := (mem_sortBy _ _ _).mpr (mem_allZones z)
      have := List.find?_eq_none.mp hn z hmem
      simpa using this
    have : zoneTotal l ≤ (allZones.map fun _ => 0).sum := sum_le _ _ _ fun z => by simp [presentLoad, hz z, zoneLoad]
    have h0 : (allZones.map fun _ => 0).sum = 0 := by decide
    omega
  · next z hz =>
    have hlit : 0 < (l.zones.get z).present := by simpa using List.find?_some hz
    have hlaw := h.1 z
    have hlaw' : zoneLaw { l.zones.get z with present := (l.zones.get z).present - 1 } := by
      obtain ⟨a, b, c, d⟩ := hlaw
      exact ⟨by simp only; omega, b, c, d⟩
    refine ⟨zonesOk_updZone _ _ _ h hlaw', rfl, rfl, ?_, Or.inl ?_⟩
    · have h1 := zoneTotal_updZone z (fun x => { x with present := x.present - 1 }) l
      have h2 : presentLoad { l.zones.get z with present := (l.zones.get z).present - 1 } ≤ presentLoad (l.zones.get z) :=
        zoneLoad_mono _ hlaw _ _ (Nat.sub_le _ _)
      dsimp only at h2
      omega
    · have h1 := litLevels_updZone z (fun x => { x with present := x.present - 1 }) l
      simp only at h1
      omega

/-- Shedding keeps the zones' law, the reservations and the allowance, and never raises the zone load; with steps enough it ends
where enough is met, or where no zone has a load left. -/
theorem shedUntil_spec (enough : Lights → Bool) (fuel : Nat) (l : Lights) (h : zonesOk l) :
    zonesOk (shedUntil enough fuel l) ∧ (shedUntil enough fuel l).reserv = l.reserv
      ∧ (shedUntil enough fuel l).allowance = l.allowance ∧ zoneTotal (shedUntil enough fuel l) ≤ zoneTotal l
      ∧ (litLevels l ≤ fuel → enough (shedUntil enough fuel l) = true ∨ zoneTotal (shedUntil enough fuel l) = 0) := by
  induction fuel generalizing l with
  | zero =>
    refine ⟨h, rfl, rfl, Nat.le_refl _, fun h0 => Or.inr ?_⟩
    have hz : ∀ z, (l.zones.get z).present = 0 := by
      intro z
      have := litLevels_updZone z (fun x => { x with present := 0 }) l
      dsimp only at this
      omega
    have : zoneTotal l ≤ (allZones.map fun _ => 0).sum := sum_le _ _ _ fun z => by simp [presentLoad, hz z, zoneLoad]
    have h0 : (allZones.map fun _ => 0).sum = 0 := by decide
    simp only [shedUntil]
    omega
  | succ n ih =>
    unfold shedUntil
    split
    · next he => exact ⟨h, rfl, rfl, Nat.le_refl _, fun _ => Or.inl he⟩
    · obtain ⟨a, b, c, d, e⟩ := shedStep_spec l h
      obtain ⟨a', b', c', d', e'⟩ := ih (shedStep l) a
      refine ⟨a', b'.trans b, c'.trans c, Nat.le_trans d' d, fun hf => ?_⟩
      rcases e with e | e
      · exact e' (by omega)
      · exact Or.inr (by omega)

/-! ### Admission, restoration, wanted levels -/

theorem reservTotal_congr {l l' : Lights} (h : l'.reserv = l.reserv) : reservTotal l' = reservTotal l := by
  simp [reservTotal, h]

theorem reservTotal_reserve (st : Station) (m : Nat) (l : Lights) : reservTotal (reserve st m l) ≤ reservTotal l + m := by
  have := reservTotal_put st (some m) l
  simp only [Option.getD_some] at this
  simp only [reserve]
  omega

theorem zoneTotal_reserve (st : Station) (m : Nat) (l : Lights) : zoneTotal (reserve st m l) = zoneTotal l := rfl

/-- An admission keeps the law of the lighting unit, and records the reservation and no other. -/
theorem admit_spec (mains : MainsState) (st : Station) (m : Nat) (l l' : Lights) (shed : Bool) (h : lightsOk l)
    (ha : admitLoad mains st m l = some (l', shed)) :
    lightsOk l' ∧ l'.reserv = put l.reserv st (some m) ∧ l'.allowance = l.allowance := by
  obtain ⟨hz, hs, hc⟩ := h
  unfold admitLoad at ha
  split at ha
  · next hm =>
    cases ha
    refine ⟨⟨hz, hs, ?_⟩, rfl, rfl⟩
    have h1 := reservTotal_reserve st m l
    have h2 := zoneTotal_reserve st m l
    simp only [freeLoad] at hm
    simp only [committed] at hc hm ⊢
    simp only [reserve] at h1 h2 ⊢
    omega
  · split at ha
    · next hm hp =>
      cases ha
      obtain ⟨a, b, c, d, e⟩ := shedUntil_spec (fun x => decide (m ≤ freeLoad x)) stepLimit l ⟨hz, hs⟩
      generalize shedUntil (fun x => decide (m ≤ freeLoad x)) stepLimit l = x at a b c d e
      refine ⟨⟨a.1, a.2, ?_⟩, by simp [reserve, b], by simp [reserve, c]⟩
      have h1 := reservTotal_reserve st m x
      have h2 := zoneTotal_reserve st m x
      have h3 := reservTotal_congr b
      have he := e (litLevels_le l ⟨hz, hs⟩)
      simp only [decide_eq_true_eq] at he
      simp only [freeLoad, committed] at hc hp he ⊢
      have h4 : (reserve st m x).allowance = x.allowance := rfl
      rw [h4, c] at *
      omega
    · cases ha

/-- A restoration step keeps the law of the lighting unit and the reservations. -/
theorem restoreStep_spec (l l' : Lights) (h : lightsOk l) (hr : restoreStep l = some l') :
    lightsOk l' ∧ l'.reserv = l.reserv := by
  obtain ⟨hz, hs, hc⟩ := h
  unfold restoreStep at hr
  split at hr
  · cases hr
  · next z hf =>
    have hsh : (l.zones.get z).present < (l.zones.get z).wanted := by
      have := List.find?_some hf
      simpa [isShed] using this
    dsimp only at hr
    split at hr
    · next hm =>
      cases hr
      obtain ⟨a, b, c, d⟩ := hz z
      have hlaw' : zoneLaw { l.zones.get z with present := (l.zones.get z).present + 1 } := ⟨by simp only; omega, b, c, d⟩
      have hz' := zonesOk_updZone z (fun y => { y with present := y.present + 1 }) l ⟨hz, hs⟩ hlaw'
      refine ⟨⟨hz'.1, hz'.2, ?_⟩, rfl⟩
      have h1 := zoneTotal_updZone z (fun y => { y with present := y.present + 1 }) l
      have h2 := zoneLoad_mono (l.zones.get z) ⟨a, b, c, d⟩ _ _ (Nat.le_succ (l.zones.get z).present)
      have h3 : presentLoad { l.zones.get z with present := (l.zones.get z).present + 1 }
          = zoneLoad (l.zones.get z) ((l.zones.get z).present + 1) := by
        simp only [presentLoad, zoneLoad]
      simp only [presentLoad] at h1 h3
      rw [h3] at h1
      have h4 : (updZone z (fun y => { y with present := y.present + 1 }) l).allowance = l.allowance := rfl
      simp only [freeLoad, committed, reservTotal_updZone] at hc hm ⊢
      rw [h4]
      simp only [Nat.succ_eq_add_one] at h2
      omega
    · cases hr

/-- Restoration keeps the law of the lighting unit and the reservations. -/
theorem restoreSteps_spec (fuel : Nat) (l : Lights) (h : lightsOk l) :
    lightsOk (restoreSteps fuel l) ∧ (restoreSteps fuel l).reserv = l.reserv := by
  induction fuel generalizing l with
  | zero => exact ⟨h, rfl⟩
  | succ n ih =>
    unfold restoreSteps
    split
    · exact ⟨h, rfl⟩
    · next hr =>
      obtain ⟨a, b⟩ := restoreStep_spec _ _ h hr
      obtain ⟨c, d⟩ := ih _ a
      exact ⟨c, d.trans b⟩

theorem committed_le_of_zones {l l' : Lights} (hr : l'.reserv = l.reserv)
    (hz : ∀ z, presentLoad (l'.zones.get z) ≤ presentLoad (l.zones.get z)) : committed l' ≤ committed l := by
  have h1 := reservTotal_congr hr
  have h2 : zoneTotal l' ≤ zoneTotal l := sum_le _ _ _ hz
  simp only [committed]
  omega

/-- New wanted levels keep the law of the lighting unit. -/
theorem applyWanted_spec (scene : Option SceneNo) (l : Lights) (h : lightsOk l) : lightsOk (applyWanted scene l) := by
  obtain ⟨hz, hs, hc⟩ := h
  have hw : ∀ z, wantedLevel l scene z ≤ 3 := by
    intro z
    unfold wantedLevel
    split
    · exact hs _ _
    · omega
  refine ⟨fun z => ?_, hs, ?_⟩
  · obtain ⟨a, b, c, d⟩ := hz z
    simp only [applyWanted, get_ofFn]
    exact ⟨Nat.min_le_right _ _, hw z, c, d⟩
  · refine Nat.le_trans (committed_le_of_zones (l := l) rfl fun z => ?_) hc
    simp only [applyWanted, get_ofFn]
    exact zoneLoad_mono (l.zones.get z) (hz z) _ _ (Nat.min_le_left _ _)

/-- Zones shed until the committed load fits bring the account back to its law, where the reservations alone fit. -/
theorem shedToFit_spec (l : Lights) (h : zonesOk l) (hr : reservTotal l ≤ l.allowance) :
    lightsOk (shedUntil (fun l => decide (committed l ≤ l.allowance)) stepLimit l)
      ∧ (shedUntil (fun l => decide (committed l ≤ l.allowance)) stepLimit l).reserv = l.reserv := by
  obtain ⟨a, b, c, _, e⟩ := shedUntil_spec (fun l => decide (committed l ≤ l.allowance)) stepLimit l h
  refine ⟨⟨a.1, a.2, ?_⟩, b⟩
  rcases e (litLevels_le l h) with e | e
  · simpa using e
  · have := reservTotal_congr b
    generalize shedUntil (fun l => decide (committed l ≤ l.allowance)) stepLimit l = x at b c e this ⊢
    simp only [committed]
    omega

end Sys2Proof.Machine
end

