-- ==== Sys2Proof/Laws/State.lean ====
section
/-! SUPPORT. What each named update of the state does to each of its fields: one lemma per field and update, all true by
unfolding, so that no later proof unfolds a record update. -/

namespace Sys2Proof.Machine

variable (s : State)

/-! ### updSlot -/

@[simp] theorem updSlot_power (i : SlotNo) (f : Slot → Slot) : (updSlot i f s).power = s.power := rfl
@[simp] theorem updSlot_latch (i : SlotNo) (f : Slot → Slot) : (updSlot i f s).latch = s.latch := rfl
@[simp] theorem updSlot_pins (i : SlotNo) (f : Slot → Slot) : (updSlot i f s).pins = s.pins := rfl
@[simp] theorem updSlot_elapsed (i : SlotNo) (f : Slot → Slot) : (updSlot i f s).elapsed = s.elapsed := rfl
@[simp] theorem updSlot_mains (i : SlotNo) (f : Slot → Slot) : (updSlot i f s).mains = s.mains := rfl
@[simp] theorem updSlot_time (i : SlotNo) (f : Slot → Slot) : (updSlot i f s).time = s.time := rfl
@[simp] theorem updSlot_table (i : SlotNo) (f : Slot → Slot) :
    (updSlot i f s).table = { s.table with slots := modify s.table.slots i f } := rfl
@[simp] theorem updSlot_calendar (i : SlotNo) (f : Slot → Slot) : (updSlot i f s).calendar = s.calendar := rfl
@[simp] theorem updSlot_resolver (i : SlotNo) (f : Slot → Slot) : (updSlot i f s).resolver = s.resolver := rfl
@[simp] theorem updSlot_sheets (i : SlotNo) (f : Slot → Slot) : (updSlot i f s).sheets = s.sheets := rfl
@[simp] theorem updSlot_lanes (i : SlotNo) (f : Slot → Slot) : (updSlot i f s).lanes = s.lanes := rfl
@[simp] theorem updSlot_overrides (i : SlotNo) (f : Slot → Slot) : (updSlot i f s).overrides = s.overrides := rfl
@[simp] theorem updSlot_bells (i : SlotNo) (f : Slot → Slot) : (updSlot i f s).bells = s.bells := rfl
@[simp] theorem updSlot_peal (i : SlotNo) (f : Slot → Slot) : (updSlot i f s).peal = s.peal := rfl
@[simp] theorem updSlot_tunes (i : SlotNo) (f : Slot → Slot) : (updSlot i f s).tunes = s.tunes := rfl
@[simp] theorem updSlot_line (i : SlotNo) (f : Slot → Slot) : (updSlot i f s).line = s.line := rfl
@[simp] theorem updSlot_dials (i : SlotNo) (f : Slot → Slot) : (updSlot i f s).dials = s.dials := rfl
@[simp] theorem updSlot_lastTarget (i : SlotNo) (f : Slot → Slot) : (updSlot i f s).lastTarget = s.lastTarget := rfl
@[simp] theorem updSlot_lights (i : SlotNo) (f : Slot → Slot) : (updSlot i f s).lights = s.lights := rfl
@[simp] theorem updSlot_attn (i : SlotNo) (f : Slot → Slot) : (updSlot i f s).attn = s.attn := rfl
@[simp] theorem updSlot_port (i : SlotNo) (f : Slot → Slot) : (updSlot i f s).port = s.port := rfl
@[simp] theorem updSlot_portFrame (i : SlotNo) (f : Slot → Slot) : (updSlot i f s).portFrame = s.portFrame := rfl
@[simp] theorem updSlot_pending (i : SlotNo) (f : Slot → Slot) : (updSlot i f s).pending = s.pending := rfl

/-! ### updBell -/

@[simp] theorem updBell_power (st : Station) (f : Bell → Bell) : (updBell st f s).power = s.power := rfl
@[simp] theorem updBell_latch (st : Station) (f : Bell → Bell) : (updBell st f s).latch = s.latch := rfl
@[simp] theorem updBell_pins (st : Station) (f : Bell → Bell) : (updBell st f s).pins = s.pins := rfl
@[simp] theorem updBell_elapsed (st : Station) (f : Bell → Bell) : (updBell st f s).elapsed = s.elapsed := rfl
@[simp] theorem updBell_mains (st : Station) (f : Bell → Bell) : (updBell st f s).mains = s.mains := rfl
@[simp] theorem updBell_time (st : Station) (f : Bell → Bell) : (updBell st f s).time = s.time := rfl
@[simp] theorem updBell_table (st : Station) (f : Bell → Bell) : (updBell st f s).table = s.table := rfl
@[simp] theorem updBell_calendar (st : Station) (f : Bell → Bell) : (updBell st f s).calendar = s.calendar := rfl
@[simp] theorem updBell_resolver (st : Station) (f : Bell → Bell) : (updBell st f s).resolver = s.resolver := rfl
@[simp] theorem updBell_sheets (st : Station) (f : Bell → Bell) : (updBell st f s).sheets = s.sheets := rfl
@[simp] theorem updBell_lanes (st : Station) (f : Bell → Bell) : (updBell st f s).lanes = s.lanes := rfl
@[simp] theorem updBell_overrides (st : Station) (f : Bell → Bell) : (updBell st f s).overrides = s.overrides := rfl
@[simp] theorem updBell_bells (st : Station) (f : Bell → Bell) :
    (updBell st f s).bells = modify s.bells st f := rfl
@[simp] theorem updBell_peal (st : Station) (f : Bell → Bell) : (updBell st f s).peal = s.peal := rfl
@[simp] theorem updBell_tunes (st : Station) (f : Bell → Bell) : (updBell st f s).tunes = s.tunes := rfl
@[simp] theorem updBell_line (st : Station) (f : Bell → Bell) : (updBell st f s).line = s.line := rfl
@[simp] theorem updBell_dials (st : Station) (f : Bell → Bell) : (updBell st f s).dials = s.dials := rfl
@[simp] theorem updBell_lastTarget (st : Station) (f : Bell → Bell) : (updBell st f s).lastTarget = s.lastTarget := rfl
@[simp] theorem updBell_lights (st : Station) (f : Bell → Bell) : (updBell st f s).lights = s.lights := rfl
@[simp] theorem updBell_attn (st : Station) (f : Bell → Bell) : (updBell st f s).attn = s.attn := rfl
@[simp] theorem updBell_port (st : Station) (f : Bell → Bell) : (updBell st f s).port = s.port := rfl
@[simp] theorem updBell_portFrame (st : Station) (f : Bell → Bell) : (updBell st f s).portFrame = s.portFrame := rfl
@[simp] theorem updBell_pending (st : Station) (f : Bell → Bell) : (updBell st f s).pending = s.pending := rfl

/-! ### updTune -/

@[simp] theorem updTune_power (n : TuneNo) (f : Tune → Tune) : (updTune n f s).power = s.power := rfl
@[simp] theorem updTune_latch (n : TuneNo) (f : Tune → Tune) : (updTune n f s).latch = s.latch := rfl
@[simp] theorem updTune_pins (n : TuneNo) (f : Tune → Tune) : (updTune n f s).pins = s.pins := rfl
@[simp] theorem updTune_elapsed (n : TuneNo) (f : Tune → Tune) : (updTune n f s).elapsed = s.elapsed := rfl
@[simp] theorem updTune_mains (n : TuneNo) (f : Tune → Tune) : (updTune n f s).mains = s.mains := rfl
@[simp] theorem updTune_time (n : TuneNo) (f : Tune → Tune) : (updTune n f s).time = s.time := rfl
@[simp] theorem updTune_table (n : TuneNo) (f : Tune → Tune) : (updTune n f s).table = s.table := rfl
@[simp] theorem updTune_calendar (n : TuneNo) (f : Tune → Tune) : (updTune n f s).calendar = s.calendar := rfl
@[simp] theorem updTune_resolver (n : TuneNo) (f : Tune → Tune) : (updTune n f s).resolver = s.resolver := rfl
@[simp] theorem updTune_sheets (n : TuneNo) (f : Tune → Tune) : (updTune n f s).sheets = s.sheets := rfl
@[simp] theorem updTune_lanes (n : TuneNo) (f : Tune → Tune) : (updTune n f s).lanes = s.lanes := rfl
@[simp] theorem updTune_overrides (n : TuneNo) (f : Tune → Tune) : (updTune n f s).overrides = s.overrides := rfl
@[simp] theorem updTune_bells (n : TuneNo) (f : Tune → Tune) : (updTune n f s).bells = s.bells := rfl
@[simp] theorem updTune_peal (n : TuneNo) (f : Tune → Tune) : (updTune n f s).peal = s.peal := rfl
@[simp] theorem updTune_tunes (n : TuneNo) (f : Tune → Tune) :
    (updTune n f s).tunes = { s.tunes with tunes := modify s.tunes.tunes n f } := rfl
@[simp] theorem updTune_line (n : TuneNo) (f : Tune → Tune) : (updTune n f s).line = s.line := rfl
@[simp] theorem updTune_dials (n : TuneNo) (f : Tune → Tune) : (updTune n f s).dials = s.dials := rfl
@[simp] theorem updTune_lastTarget (n : TuneNo) (f : Tune → Tune) : (updTune n f s).lastTarget = s.lastTarget := rfl
@[simp] theorem updTune_lights (n : TuneNo) (f : Tune → Tune) : (updTune n f s).lights = s.lights := rfl
@[simp] theorem updTune_attn (n : TuneNo) (f : Tune → Tune) : (updTune n f s).attn = s.attn := rfl
@[simp] theorem updTune_port (n : TuneNo) (f : Tune → Tune) : (updTune n f s).port = s.port := rfl
@[simp] theorem updTune_portFrame (n : TuneNo) (f : Tune → Tune) : (updTune n f s).portFrame = s.portFrame := rfl
@[simp] theorem updTune_pending (n : TuneNo) (f : Tune → Tune) : (updTune n f s).pending = s.pending := rfl

/-! ### setPlayer -/

@[simp] theorem setPlayer_power (p : Option Player) : (setPlayer p s).power = s.power := rfl
@[simp] theorem setPlayer_latch (p : Option Player) : (setPlayer p s).latch = s.latch := rfl
@[simp] theorem setPlayer_pins (p : Option Player) : (setPlayer p s).pins = s.pins := rfl
@[simp] theorem setPlayer_elapsed (p : Option Player) : (setPlayer p s).elapsed = s.elapsed := rfl
@[simp] theorem setPlayer_mains (p : Option Player) : (setPlayer p s).mains = s.mains := rfl
@[simp] theorem setPlayer_time (p : Option Player) : (setPlayer p s).time = s.time := rfl
@[simp] theorem setPlayer_table (p : Option Player) : (setPlayer p s).table = s.table := rfl
@[simp] theorem setPlayer_calendar (p : Option Player) : (setPlayer p s).calendar = s.calendar := rfl
@[simp] theorem setPlayer_resolver (p : Option Player) : (setPlayer p s).resolver = s.resolver := rfl
@[simp] theorem setPlayer_sheets (p : Option Player) : (setPlayer p s).sheets = s.sheets := rfl
@[simp] theorem setPlayer_lanes (p : Option Player) : (setPlayer p s).lanes = s.lanes := rfl
@[simp] theorem setPlayer_overrides (p : Option Player) : (setPlayer p s).overrides = s.overrides := rfl
@[simp] theorem setPlayer_bells (p : Option Player) : (setPlayer p s).bells = s.bells := rfl
@[simp] theorem setPlayer_peal (p : Option Player) : (setPlayer p s).peal = s.peal := rfl
@[simp] theorem setPlayer_tunes (p : Option Player) :
    (setPlayer p s).tunes = { s.tunes with player := p } := rfl
@[simp] theorem setPlayer_line (p : Option Player) : (setPlayer p s).line = s.line := rfl
@[simp] theorem setPlayer_dials (p : Option Player) : (setPlayer p s).dials = s.dials := rfl
@[simp] theorem setPlayer_lastTarget (p : Option Player) : (setPlayer p s).lastTarget = s.lastTarget := rfl
@[simp] theorem setPlayer_lights (p : Option Player) : (setPlayer p s).lights = s.lights := rfl
@[simp] theorem setPlayer_attn (p : Option Player) : (setPlayer p s).attn = s.attn := rfl
@[simp] theorem setPlayer_port (p : Option Player) : (setPlayer p s).port = s.port := rfl
@[simp] theorem setPlayer_portFrame (p : Option Player) : (setPlayer p s).portFrame = s.portFrame := rfl
@[simp] theorem setPlayer_pending (p : Option Player) : (setPlayer p s).pending = s.pending := rfl

/-! ### setTollRun -/

@[simp] theorem setTollRun_power (r : Option TollRun) : (setTollRun r s).power = s.power := rfl
@[simp] theorem setTollRun_latch (r : Option TollRun) : (setTollRun r s).latch = s.latch := rfl
@[simp] theorem setTollRun_pins (r : Option TollRun) : (setTollRun r s).pins = s.pins := rfl
@[simp] theorem setTollRun_elapsed (r : Option TollRun) : (setTollRun r s).elapsed = s.elapsed := rfl
@[simp] theorem setTollRun_mains (r : Option TollRun) : (setTollRun r s).mains = s.mains := rfl
@[simp] theorem setTollRun_time (r : Option TollRun) : (setTollRun r s).time = s.time := rfl
@[simp] theorem setTollRun_table (r : Option TollRun) : (setTollRun r s).table = s.table := rfl
@[simp] theorem setTollRun_calendar (r : Option TollRun) : (setTollRun r s).calendar = s.calendar := rfl
@[simp] theorem setTollRun_resolver (r : Option TollRun) : (setTollRun r s).resolver = s.resolver := rfl
@[simp] theorem setTollRun_sheets (r : Option TollRun) : (setTollRun r s).sheets = s.sheets := rfl
@[simp] theorem setTollRun_lanes (r : Option TollRun) :
    (setTollRun r s).lanes = { s.lanes with tollRun := r } := rfl
@[simp] theorem setTollRun_overrides (r : Option TollRun) : (setTollRun r s).overrides = s.overrides := rfl
@[simp] theorem setTollRun_bells (r : Option TollRun) : (setTollRun r s).bells = s.bells := rfl
@[simp] theorem setTollRun_peal (r : Option TollRun) : (setTollRun r s).peal = s.peal := rfl
@[simp] theorem setTollRun_tunes (r : Option TollRun) : (setTollRun r s).tunes = s.tunes := rfl
@[simp] theorem setTollRun_line (r : Option TollRun) : (setTollRun r s).line = s.line := rfl
@[simp] theorem setTollRun_dials (r : Option TollRun) : (setTollRun r s).dials = s.dials := rfl
@[simp] theorem setTollRun_lastTarget (r : Option TollRun) : (setTollRun r s).lastTarget = s.lastTarget := rfl
@[simp] theorem setTollRun_lights (r : Option TollRun) : (setTollRun r s).lights = s.lights := rfl
@[simp] theorem setTollRun_attn (r : Option TollRun) : (setTollRun r s).attn = s.attn := rfl
@[simp] theorem setTollRun_port (r : Option TollRun) : (setTollRun r s).port = s.port := rfl
@[simp] theorem setTollRun_portFrame (r : Option TollRun) : (setTollRun r s).portFrame = s.portFrame := rfl
@[simp] theorem setTollRun_pending (r : Option TollRun) : (setTollRun r s).pending = s.pending := rfl

/-! ### updLine -/

@[simp] theorem updLine_power (f : Line → Line) : (updLine f s).power = s.power := rfl
@[simp] theorem updLine_latch (f : Line → Line) : (updLine f s).latch = s.latch := rfl
@[simp] theorem updLine_pins (f : Line → Line) : (updLine f s).pins = s.pins := rfl
@[simp] theorem updLine_elapsed (f : Line → Line) : (updLine f s).elapsed = s.elapsed := rfl
@[simp] theorem updLine_mains (f : Line → Line) : (updLine f s).mains = s.mains := rfl
@[simp] theorem updLine_time (f : Line → Line) : (updLine f s).time = s.time := rfl
@[simp] theorem updLine_table (f : Line → Line) : (updLine f s).table = s.table := rfl
@[simp] theorem updLine_calendar (f : Line → Line) : (updLine f s).calendar = s.calendar := rfl
@[simp] theorem updLine_resolver (f : Line → Line) : (updLine f s).resolver = s.resolver := rfl
@[simp] theorem updLine_sheets (f : Line → Line) : (updLine f s).sheets = s.sheets := rfl
@[simp] theorem updLine_lanes (f : Line → Line) : (updLine f s).lanes = s.lanes := rfl
@[simp] theorem updLine_overrides (f : Line → Line) : (updLine f s).overrides = s.overrides := rfl
@[simp] theorem updLine_bells (f : Line → Line) : (updLine f s).bells = s.bells := rfl
@[simp] theorem updLine_peal (f : Line → Line) : (updLine f s).peal = s.peal := rfl
@[simp] theorem updLine_tunes (f : Line → Line) : (updLine f s).tunes = s.tunes := rfl
@[simp] theorem updLine_line (f : Line → Line) :
    (updLine f s).line = f s.line := rfl
@[simp] theorem updLine_dials (f : Line → Line) : (updLine f s).dials = s.dials := rfl
@[simp] theorem updLine_lastTarget (f : Line → Line) : (updLine f s).lastTarget = s.lastTarget := rfl
@[simp] theorem updLine_lights (f : Line → Line) : (updLine f s).lights = s.lights := rfl
@[simp] theorem updLine_attn (f : Line → Line) : (updLine f s).attn = s.attn := rfl
@[simp] theorem updLine_port (f : Line → Line) : (updLine f s).port = s.port := rfl
@[simp] theorem updLine_portFrame (f : Line → Line) : (updLine f s).portFrame = s.portFrame := rfl
@[simp] theorem updLine_pending (f : Line → Line) : (updLine f s).pending = s.pending := rfl

/-! ### updToday -/

@[simp] theorem updToday_power (f : List Entry → List Entry) : (updToday f s).power = s.power := rfl
@[simp] theorem updToday_latch (f : List Entry → List Entry) : (updToday f s).latch = s.latch := rfl
@[simp] theorem updToday_pins (f : List Entry → List Entry) : (updToday f s).pins = s.pins := rfl
@[simp] theorem updToday_elapsed (f : List Entry → List Entry) : (updToday f s).elapsed = s.elapsed := rfl
@[simp] theorem updToday_mains (f : List Entry → List Entry) : (updToday f s).mains = s.mains := rfl
@[simp] theorem updToday_time (f : List Entry → List Entry) : (updToday f s).time = s.time := rfl
@[simp] theorem updToday_table (f : List Entry → List Entry) : (updToday f s).table = s.table := rfl
@[simp] theorem updToday_calendar (f : List Entry → List Entry) : (updToday f s).calendar = s.calendar := rfl
@[simp] theorem updToday_resolver (f : List Entry → List Entry) : (updToday f s).resolver = s.resolver := rfl
@[simp] theorem updToday_sheets (f : List Entry → List Entry) :
    (updToday f s).sheets = { s.sheets with today := { s.sheets.today with entries := f s.sheets.today.entries } } := rfl
@[simp] theorem updToday_lanes (f : List Entry → List Entry) : (updToday f s).lanes = s.lanes := rfl
@[simp] theorem updToday_overrides (f : List Entry → List Entry) : (updToday f s).overrides = s.overrides := rfl
@[simp] theorem updToday_bells (f : List Entry → List Entry) : (updToday f s).bells = s.bells := rfl
@[simp] theorem updToday_peal (f : List Entry → List Entry) : (updToday f s).peal = s.peal := rfl
@[simp] theorem updToday_tunes (f : List Entry → List Entry) : (updToday f s).tunes = s.tunes := rfl
@[simp] theorem updToday_line (f : List Entry → List Entry) : (updToday f s).line = s.line := rfl
@[simp] theorem updToday_dials (f : List Entry → List Entry) : (updToday f s).dials = s.dials := rfl
@[simp] theorem updToday_lastTarget (f : List Entry → List Entry) : (updToday f s).lastTarget = s.lastTarget := rfl
@[simp] theorem updToday_lights (f : List Entry → List Entry) : (updToday f s).lights = s.lights := rfl
@[simp] theorem updToday_attn (f : List Entry → List Entry) : (updToday f s).attn = s.attn := rfl
@[simp] theorem updToday_port (f : List Entry → List Entry) : (updToday f s).port = s.port := rfl
@[simp] theorem updToday_portFrame (f : List Entry → List Entry) : (updToday f s).portFrame = s.portFrame := rfl
@[simp] theorem updToday_pending (f : List Entry → List Entry) : (updToday f s).pending = s.pending := rfl

/-! ### updStandby -/

@[simp] theorem updStandby_power (f : List Entry → List Entry) : (updStandby f s).power = s.power := rfl
@[simp] theorem updStandby_latch (f : List Entry → List Entry) : (updStandby f s).latch = s.latch := rfl
@[simp] theorem updStandby_pins (f : List Entry → List Entry) : (updStandby f s).pins = s.pins := rfl
@[simp] theorem updStandby_elapsed (f : List Entry → List Entry) : (updStandby f s).elapsed = s.elapsed := rfl
@[simp] theorem updStandby_mains (f : List Entry → List Entry) : (updStandby f s).mains = s.mains := rfl
@[simp] theorem updStandby_time (f : List Entry → List Entry) : (updStandby f s).time = s.time := rfl
@[simp] theorem updStandby_table (f : List Entry → List Entry) : (updStandby f s).table = s.table := rfl
@[simp] theorem updStandby_calendar (f : List Entry → List Entry) : (updStandby f s).calendar = s.calendar := rfl
@[simp] theorem updStandby_resolver (f : List Entry → List Entry) : (updStandby f s).resolver = s.resolver := rfl
@[simp] theorem updStandby_sheets (f : List Entry → List Entry) :
    (updStandby f s).sheets = { s.sheets with standby := { s.sheets.standby with entries := f s.sheets.standby.entries } } := rfl
@[simp] theorem updStandby_lanes (f : List Entry → List Entry) : (updStandby f s).lanes = s.lanes := rfl
@[simp] theorem updStandby_overrides (f : List Entry → List Entry) : (updStandby f s).overrides = s.overrides := rfl
@[simp] theorem updStandby_bells (f : List Entry → List Entry) : (updStandby f s).bells = s.bells := rfl
@[simp] theorem updStandby_peal (f : List Entry → List Entry) : (updStandby f s).peal = s.peal := rfl
@[simp] theorem updStandby_tunes (f : List Entry → List Entry) : (updStandby f s).tunes = s.tunes := rfl
@[simp] theorem updStandby_line (f : List Entry → List Entry) : (updStandby f s).line = s.line := rfl
@[simp] theorem updStandby_dials (f : List Entry → List Entry) : (updStandby f s).dials = s.dials := rfl
@[simp] theorem updStandby_lastTarget (f : List Entry → List Entry) : (updStandby f s).lastTarget = s.lastTarget := rfl
@[simp] theorem updStandby_lights (f : List Entry → List Entry) : (updStandby f s).lights = s.lights := rfl
@[simp] theorem updStandby_attn (f : List Entry → List Entry) : (updStandby f s).attn = s.attn := rfl
@[simp] theorem updStandby_port (f : List Entry → List Entry) : (updStandby f s).port = s.port := rfl
@[simp] theorem updStandby_portFrame (f : List Entry → List Entry) : (updStandby f s).portFrame = s.portFrame := rfl
@[simp] theorem updStandby_pending (f : List Entry → List Entry) : (updStandby f s).pending = s.pending := rfl

/-! ### setLane -/

@[simp] theorem setLane_power (lane : Lane) (k : Option Key) : (setLane lane k s).power = s.power := by cases lane <;> rfl
@[simp] theorem setLane_latch (lane : Lane) (k : Option Key) : (setLane lane k s).latch = s.latch := by cases lane <;> rfl
@[simp] theorem setLane_pins (lane : Lane) (k : Option Key) : (setLane lane k s).pins = s.pins := by cases lane <;> rfl
@[simp] theorem setLane_elapsed (lane : Lane) (k : Option Key) : (setLane lane k s).elapsed = s.elapsed := by cases lane <;> rfl
@[simp] theorem setLane_mains (lane : Lane) (k : Option Key) : (setLane lane k s).mains = s.mains := by cases lane <;> rfl
@[simp] theorem setLane_time (lane : Lane) (k : Option Key) : (setLane lane k s).time = s.time := by cases lane <;> rfl
@[simp] theorem setLane_table (lane : Lane) (k : Option Key) : (setLane lane k s).table = s.table := by cases lane <;> rfl
@[simp] theorem setLane_calendar (lane : Lane) (k : Option Key) : (setLane lane k s).calendar = s.calendar := by cases lane <;> rfl
@[simp] theorem setLane_resolver (lane : Lane) (k : Option Key) : (setLane lane k s).resolver = s.resolver := by cases lane <;> rfl
@[simp] theorem setLane_sheets (lane : Lane) (k : Option Key) : (setLane lane k s).sheets = s.sheets := by cases lane <;> rfl
@[simp] theorem setLane_overrides (lane : Lane) (k : Option Key) : (setLane lane k s).overrides = s.overrides := by cases lane <;> rfl
@[simp] theorem setLane_bells (lane : Lane) (k : Option Key) : (setLane lane k s).bells = s.bells := by cases lane <;> rfl
@[simp] theorem setLane_peal (lane : Lane) (k : Option Key) : (setLane lane k s).peal = s.peal := by cases lane <;> rfl
@[simp] theorem setLane_tunes (lane : Lane) (k : Option Key) : (setLane lane k s).tunes = s.tunes := by cases lane <;> rfl
@[simp] theorem setLane_line (lane : Lane) (k : Option Key) : (setLane lane k s).line = s.line := by cases lane <;> rfl
@[simp] theorem setLane_dials (lane : Lane) (k : Option Key) : (setLane lane k s).dials = s.dials := by cases lane <;> rfl
@[simp] theorem setLane_lastTarget (lane : Lane) (k : Option Key) : (setLane lane k s).lastTarget = s.lastTarget := by cases lane <;> rfl
@[simp] theorem setLane_lights (lane : Lane) (k : Option Key) : (setLane lane k s).lights = s.lights := by cases lane <;> rfl
@[simp] theorem setLane_attn (lane : Lane) (k : Option Key) : (setLane lane k s).attn = s.attn := by cases lane <;> rfl
@[simp] theorem setLane_port (lane : Lane) (k : Option Key) : (setLane lane k s).port = s.port := by cases lane <;> rfl
@[simp] theorem setLane_portFrame (lane : Lane) (k : Option Key) : (setLane lane k s).portFrame = s.portFrame := by cases lane <;> rfl
@[simp] theorem setLane_pending (lane : Lane) (k : Option Key) : (setLane lane k s).pending = s.pending := by cases lane <;> rfl
theorem setLane_lanes (lane : Lane) (k : Option Key) :
    (setLane lane k s).lanes =
      match lane with
      | .chime => { s.lanes with chime := k }
      | .toll => { s.lanes with toll := k }
      | .peal => { s.lanes with peal := k } := by cases lane <;> rfl

/-! ### setLights -/

@[simp] theorem setLights_power (l : Lights) : (setLights l s).power = s.power := rfl
@[simp] theorem setLights_latch (l : Lights) : (setLights l s).latch = s.latch := rfl
@[simp] theorem setLights_pins (l : Lights) : (setLights l s).pins = s.pins := rfl
@[simp] theorem setLights_elapsed (l : Lights) : (setLights l s).elapsed = s.elapsed := rfl
@[simp] theorem setLights_mains (l : Lights) : (setLights l s).mains = s.mains := rfl
@[simp] theorem setLights_time (l : Lights) : (setLights l s).time = s.time := rfl
@[simp] theorem setLights_table (l : Lights) : (setLights l s).table = s.table := rfl
@[simp] theorem setLights_calendar (l : Lights) : (setLights l s).calendar = s.calendar := rfl
@[simp] theorem setLights_resolver (l : Lights) : (setLights l s).resolver = s.resolver := rfl
@[simp] theorem setLights_sheets (l : Lights) : (setLights l s).sheets = s.sheets := rfl
@[simp] theorem setLights_lanes (l : Lights) : (setLights l s).lanes = s.lanes := rfl
@[simp] theorem setLights_overrides (l : Lights) : (setLights l s).overrides = s.overrides := rfl
@[simp] theorem setLights_bells (l : Lights) : (setLights l s).bells = s.bells := rfl
@[simp] theorem setLights_peal (l : Lights) : (setLights l s).peal = s.peal := rfl
@[simp] theorem setLights_tunes (l : Lights) : (setLights l s).tunes = s.tunes := rfl
@[simp] theorem setLights_line (l : Lights) : (setLights l s).line = s.line := rfl
@[simp] theorem setLights_dials (l : Lights) : (setLights l s).dials = s.dials := rfl
@[simp] theorem setLights_lastTarget (l : Lights) : (setLights l s).lastTarget = s.lastTarget := rfl
@[simp] theorem setLights_lights (l : Lights) :
    (setLights l s).lights = l := rfl
@[simp] theorem setLights_attn (l : Lights) : (setLights l s).attn = s.attn := rfl
@[simp] theorem setLights_port (l : Lights) : (setLights l s).port = s.port := rfl
@[simp] theorem setLights_portFrame (l : Lights) : (setLights l s).portFrame = s.portFrame := rfl
@[simp] theorem setLights_pending (l : Lights) : (setLights l s).pending = s.pending := rfl

/-! ### setFlag -/

@[simp] theorem setFlag_power (g : AttnFlag) : (setFlag g s).power = s.power := rfl
@[simp] theorem setFlag_latch (g : AttnFlag) : (setFlag g s).latch = s.latch := rfl
@[simp] theorem setFlag_pins (g : AttnFlag) : (setFlag g s).pins = s.pins := rfl
@[simp] theorem setFlag_elapsed (g : AttnFlag) : (setFlag g s).elapsed = s.elapsed := rfl
@[simp] theorem setFlag_mains (g : AttnFlag) : (setFlag g s).mains = s.mains := rfl
@[simp] theorem setFlag_time (g : AttnFlag) : (setFlag g s).time = s.time := rfl
@[simp] theorem setFlag_table (g : AttnFlag) : (setFlag g s).table = s.table := rfl
@[simp] theorem setFlag_calendar (g : AttnFlag) : (setFlag g s).calendar = s.calendar := rfl
@[simp] theorem setFlag_resolver (g : AttnFlag) : (setFlag g s).resolver = s.resolver := rfl
@[simp] theorem setFlag_sheets (g : AttnFlag) : (setFlag g s).sheets = s.sheets := rfl
@[simp] theorem setFlag_lanes (g : AttnFlag) : (setFlag g s).lanes = s.lanes := rfl
@[simp] theorem setFlag_overrides (g : AttnFlag) : (setFlag g s).overrides = s.overrides := rfl
@[simp] theorem setFlag_bells (g : AttnFlag) : (setFlag g s).bells = s.bells := rfl
@[simp] theorem setFlag_peal (g : AttnFlag) : (setFlag g s).peal = s.peal := rfl
@[simp] theorem setFlag_tunes (g : AttnFlag) : (setFlag g s).tunes = s.tunes := rfl
@[simp] theorem setFlag_line (g : AttnFlag) : (setFlag g s).line = s.line := rfl
@[simp] theorem setFlag_dials (g : AttnFlag) : (setFlag g s).dials = s.dials := rfl
@[simp] theorem setFlag_lastTarget (g : AttnFlag) : (setFlag g s).lastTarget = s.lastTarget := rfl
@[simp] theorem setFlag_lights (g : AttnFlag) : (setFlag g s).lights = s.lights := rfl
@[simp] theorem setFlag_attn (g : AttnFlag) :
    (setFlag g s).attn = { s.attn with flags := s.attn.flags ||| BitVec.twoPow 15 g.bit } := rfl
@[simp] theorem setFlag_port (g : AttnFlag) : (setFlag g s).port = s.port := rfl
@[simp] theorem setFlag_portFrame (g : AttnFlag) : (setFlag g s).portFrame = s.portFrame := rfl
@[simp] theorem setFlag_pending (g : AttnFlag) : (setFlag g s).pending = s.pending := rfl

/-! ### setFlagIf -/

@[simp] theorem setFlagIf_power (c : Bool) (g : AttnFlag) : (setFlagIf c g s).power = s.power := by cases c <;> rfl
@[simp] theorem setFlagIf_latch (c : Bool) (g : AttnFlag) : (setFlagIf c g s).latch = s.latch := by cases c <;> rfl
@[simp] theorem setFlagIf_pins (c : Bool) (g : AttnFlag) : (setFlagIf c g s).pins = s.pins := by cases c <;> rfl
@[simp] theorem setFlagIf_elapsed (c : Bool) (g : AttnFlag) : (setFlagIf c g s).elapsed = s.elapsed := by cases c <;> rfl
@[simp] theorem setFlagIf_mains (c : Bool) (g : AttnFlag) : (setFlagIf c g s).mains = s.mains := by cases c <;> rfl
@[simp] theorem setFlagIf_time (c : Bool) (g : AttnFlag) : (setFlagIf c g s).time = s.time := by cases c <;> rfl
@[simp] theorem setFlagIf_table (c : Bool) (g : AttnFlag) : (setFlagIf c g s).table = s.table := by cases c <;> rfl
@[simp] theorem setFlagIf_calendar (c : Bool) (g : AttnFlag) : (setFlagIf c g s).calendar = s.calendar := by cases c <;> rfl
@[simp] theorem setFlagIf_resolver (c : Bool) (g : AttnFlag) : (setFlagIf c g s).resolver = s.resolver := by cases c <;> rfl
@[simp] theorem setFlagIf_sheets (c : Bool) (g : AttnFlag) : (setFlagIf c g s).sheets = s.sheets := by cases c <;> rfl
@[simp] theorem setFlagIf_lanes (c : Bool) (g : AttnFlag) : (setFlagIf c g s).lanes = s.lanes := by cases c <;> rfl
@[simp] theorem setFlagIf_overrides (c : Bool) (g : AttnFlag) : (setFlagIf c g s).overrides = s.overrides := by cases c <;> rfl
@[simp] theorem setFlagIf_bells (c : Bool) (g : AttnFlag) : (setFlagIf c g s).bells = s.bells := by cases c <;> rfl
@[simp] theorem setFlagIf_peal (c : Bool) (g : AttnFlag) : (setFlagIf c g s).peal = s.peal := by cases c <;> rfl
@[simp] theorem setFlagIf_tunes (c : Bool) (g : AttnFlag) : (setFlagIf c g s).tunes = s.tunes := by cases c <;> rfl
@[simp] theorem setFlagIf_line (c : Bool) (g : AttnFlag) : (setFlagIf c g s).line = s.line := by cases c <;> rfl
@[simp] theorem setFlagIf_dials (c : Bool) (g : AttnFlag) : (setFlagIf c g s).dials = s.dials := by cases c <;> rfl
@[simp] theorem setFlagIf_lastTarget (c : Bool) (g : AttnFlag) : (setFlagIf c g s).lastTarget = s.lastTarget := by cases c <;> rfl
@[simp] theorem setFlagIf_lights (c : Bool) (g : AttnFlag) : (setFlagIf c g s).lights = s.lights := by cases c <;> rfl
@[simp] theorem setFlagIf_port (c : Bool) (g : AttnFlag) : (setFlagIf c g s).port = s.port := by cases c <;> rfl
@[simp] theorem setFlagIf_portFrame (c : Bool) (g : AttnFlag) : (setFlagIf c g s).portFrame = s.portFrame := by cases c <;> rfl
@[simp] theorem setFlagIf_pending (c : Bool) (g : AttnFlag) : (setFlagIf c g s).pending = s.pending := by cases c <;> rfl
theorem setFlagIf_attn (c : Bool) (g : AttnFlag) :
    (setFlagIf c g s).attn = if c then (setFlag g s).attn else s.attn := by cases c <;> rfl

/-! ### clearFlags -/

@[simp] theorem clearFlags_power (m : BitVec 15) : (clearFlags m s).power = s.power := rfl
@[simp] theorem clearFlags_latch (m : BitVec 15) : (clearFlags m s).latch = s.latch := rfl
@[simp] theorem clearFlags_pins (m : BitVec 15) : (clearFlags m s).pins = s.pins := rfl
@[simp] theorem clearFlags_elapsed (m : BitVec 15) : (clearFlags m s).elapsed = s.elapsed := rfl
@[simp] theorem clearFlags_mains (m : BitVec 15) : (clearFlags m s).mains = s.mains := rfl
@[simp] theorem clearFlags_time (m : BitVec 15) : (clearFlags m s).time = s.time := rfl
@[simp] theorem clearFlags_table (m : BitVec 15) : (clearFlags m s).table = s.table := rfl
@[simp] theorem clearFlags_calendar (m : BitVec 15) : (clearFlags m s).calendar = s.calendar := rfl
@[simp] theorem clearFlags_resolver (m : BitVec 15) : (clearFlags m s).resolver = s.resolver := rfl
@[simp] theorem clearFlags_sheets (m : BitVec 15) : (clearFlags m s).sheets = s.sheets := rfl
@[simp] theorem clearFlags_lanes (m : BitVec 15) : (clearFlags m s).lanes = s.lanes := rfl
@[simp] theorem clearFlags_overrides (m : BitVec 15) : (clearFlags m s).overrides = s.overrides := rfl
@[simp] theorem clearFlags_bells (m : BitVec 15) : (clearFlags m s).bells = s.bells := rfl
@[simp] theorem clearFlags_peal (m : BitVec 15) : (clearFlags m s).peal = s.peal := rfl
@[simp] theorem clearFlags_tunes (m : BitVec 15) : (clearFlags m s).tunes = s.tunes := rfl
@[simp] theorem clearFlags_line (m : BitVec 15) : (clearFlags m s).line = s.line := rfl
@[simp] theorem clearFlags_dials (m : BitVec 15) : (clearFlags m s).dials = s.dials := rfl
@[simp] theorem clearFlags_lastTarget (m : BitVec 15) : (clearFlags m s).lastTarget = s.lastTarget := rfl
@[simp] theorem clearFlags_lights (m : BitVec 15) : (clearFlags m s).lights = s.lights := rfl
@[simp] theorem clearFlags_attn (m : BitVec 15) :
    (clearFlags m s).attn = { s.attn with flags := s.attn.flags &&& ~~~m } := rfl
@[simp] theorem clearFlags_port (m : BitVec 15) : (clearFlags m s).port = s.port := rfl
@[simp] theorem clearFlags_portFrame (m : BitVec 15) : (clearFlags m s).portFrame = s.portFrame := rfl
@[simp] theorem clearFlags_pending (m : BitVec 15) : (clearFlags m s).pending = s.pending := rfl

/-! ### updTable -/

@[simp] theorem updTable_power (f : Table → Table) : (updTable f s).power = s.power := rfl
@[simp] theorem updTable_latch (f : Table → Table) : (updTable f s).latch = s.latch := rfl
@[simp] theorem updTable_pins (f : Table → Table) : (updTable f s).pins = s.pins := rfl
@[simp] theorem updTable_elapsed (f : Table → Table) : (updTable f s).elapsed = s.elapsed := rfl
@[simp] theorem updTable_mains (f : Table → Table) : (updTable f s).mains = s.mains := rfl
@[simp] theorem updTable_time (f : Table → Table) : (updTable f s).time = s.time := rfl
@[simp] theorem updTable_table (f : Table → Table) :
    (updTable f s).table = f s.table := rfl
@[simp] theorem updTable_calendar (f : Table → Table) : (updTable f s).calendar = s.calendar := rfl
@[simp] theorem updTable_resolver (f : Table → Table) : (updTable f s).resolver = s.resolver := rfl
@[simp] theorem updTable_sheets (f : Table → Table) : (updTable f s).sheets = s.sheets := rfl
@[simp] theorem updTable_lanes (f : Table → Table) : (updTable f s).lanes = s.lanes := rfl
@[simp] theorem updTable_overrides (f : Table → Table) : (updTable f s).overrides = s.overrides := rfl
@[simp] theorem updTable_bells (f : Table → Table) : (updTable f s).bells = s.bells := rfl
@[simp] theorem updTable_peal (f : Table → Table) : (updTable f s).peal = s.peal := rfl
@[simp] theorem updTable_tunes (f : Table → Table) : (updTable f s).tunes = s.tunes := rfl
@[simp] theorem updTable_line (f : Table → Table) : (updTable f s).line = s.line := rfl
@[simp] theorem updTable_dials (f : Table → Table) : (updTable f s).dials = s.dials := rfl
@[simp] theorem updTable_lastTarget (f : Table → Table) : (updTable f s).lastTarget = s.lastTarget := rfl
@[simp] theorem updTable_lights (f : Table → Table) : (updTable f s).lights = s.lights := rfl
@[simp] theorem updTable_attn (f : Table → Table) : (updTable f s).attn = s.attn := rfl
@[simp] theorem updTable_port (f : Table → Table) : (updTable f s).port = s.port := rfl
@[simp] theorem updTable_portFrame (f : Table → Table) : (updTable f s).portFrame = s.portFrame := rfl
@[simp] theorem updTable_pending (f : Table → Table) : (updTable f s).pending = s.pending := rfl

/-! ### updTime -/

@[simp] theorem updTime_power (f : TimeBase → TimeBase) : (updTime f s).power = s.power := rfl
@[simp] theorem updTime_latch (f : TimeBase → TimeBase) : (updTime f s).latch = s.latch := rfl
@[simp] theorem updTime_pins (f : TimeBase → TimeBase) : (updTime f s).pins = s.pins := rfl
@[simp] theorem updTime_elapsed (f : TimeBase → TimeBase) : (updTime f s).elapsed = s.elapsed := rfl
@[simp] theorem updTime_mains (f : TimeBase → TimeBase) : (updTime f s).mains = s.mains := rfl
@[simp] theorem updTime_time (f : TimeBase → TimeBase) :
    (updTime f s).time = f s.time := rfl
@[simp] theorem updTime_table (f : TimeBase → TimeBase) : (updTime f s).table = s.table := rfl
@[simp] theorem updTime_calendar (f : TimeBase → TimeBase) : (updTime f s).calendar = s.calendar := rfl
@[simp] theorem updTime_resolver (f : TimeBase → TimeBase) : (updTime f s).resolver = s.resolver := rfl
@[simp] theorem updTime_sheets (f : TimeBase → TimeBase) : (updTime f s).sheets = s.sheets := rfl
@[simp] theorem updTime_lanes (f : TimeBase → TimeBase) : (updTime f s).lanes = s.lanes := rfl
@[simp] theorem updTime_overrides (f : TimeBase → TimeBase) : (updTime f s).overrides = s.overrides := rfl
@[simp] theorem updTime_bells (f : TimeBase → TimeBase) : (updTime f s).bells = s.bells := rfl
@[simp] theorem updTime_peal (f : TimeBase → TimeBase) : (updTime f s).peal = s.peal := rfl
@[simp] theorem updTime_tunes (f : TimeBase → TimeBase) : (updTime f s).tunes = s.tunes := rfl
@[simp] theorem updTime_line (f : TimeBase → TimeBase) : (updTime f s).line = s.line := rfl
@[simp] theorem updTime_dials (f : TimeBase → TimeBase) : (updTime f s).dials = s.dials := rfl
@[simp] theorem updTime_lastTarget (f : TimeBase → TimeBase) : (updTime f s).lastTarget = s.lastTarget := rfl
@[simp] theorem updTime_lights (f : TimeBase → TimeBase) : (updTime f s).lights = s.lights := rfl
@[simp] theorem updTime_attn (f : TimeBase → TimeBase) : (updTime f s).attn = s.attn := rfl
@[simp] theorem updTime_port (f : TimeBase → TimeBase) : (updTime f s).port = s.port := rfl
@[simp] theorem updTime_portFrame (f : TimeBase → TimeBase) : (updTime f s).portFrame = s.portFrame := rfl
@[simp] theorem updTime_pending (f : TimeBase → TimeBase) : (updTime f s).pending = s.pending := rfl

/-! ### updResolver -/

@[simp] theorem updResolver_power (f : Resolver → Resolver) : (updResolver f s).power = s.power := rfl
@[simp] theorem updResolver_latch (f : Resolver → Resolver) : (updResolver f s).latch = s.latch := rfl
@[simp] theorem updResolver_pins (f : Resolver → Resolver) : (updResolver f s).pins = s.pins := rfl
@[simp] theorem updResolver_elapsed (f : Resolver → Resolver) : (updResolver f s).elapsed = s.elapsed := rfl
@[simp] theorem updResolver_mains (f : Resolver → Resolver) : (updResolver f s).mains = s.mains := rfl
@[simp] theorem updResolver_time (f : Resolver → Resolver) : (updResolver f s).time = s.time := rfl
@[simp] theorem updResolver_table (f : Resolver → Resolver) : (updResolver f s).table = s.table := rfl
@[simp] theorem updResolver_calendar (f : Resolver → Resolver) : (updResolver f s).calendar = s.calendar := rfl
@[simp] theorem updResolver_resolver (f : Resolver → Resolver) :
    (updResolver f s).resolver = f s.resolver := rfl
@[simp] theorem updResolver_sheets (f : Resolver → Resolver) : (updResolver f s).sheets = s.sheets := rfl
@[simp] theorem updResolver_lanes (f : Resolver → Resolver) : (updResolver f s).lanes = s.lanes := rfl
@[simp] theorem updResolver_overrides (f : Resolver → Resolver) : (updResolver f s).overrides = s.overrides := rfl
@[simp] theorem updResolver_bells (f : Resolver → Resolver) : (updResolver f s).bells = s.bells := rfl
@[simp] theorem updResolver_peal (f : Resolver → Resolver) : (updResolver f s).peal = s.peal := rfl
@[simp] theorem updResolver_tunes (f : Resolver → Resolver) : (updResolver f s).tunes = s.tunes := rfl
@[simp] theorem updResolver_line (f : Resolver → Resolver) : (updResolver f s).line = s.line := rfl
@[simp] theorem updResolver_dials (f : Resolver → Resolver) : (updResolver f s).dials = s.dials := rfl
@[simp] theorem updResolver_lastTarget (f : Resolver → Resolver) : (updResolver f s).lastTarget = s.lastTarget := rfl
@[simp] theorem updResolver_lights (f : Resolver → Resolver) : (updResolver f s).lights = s.lights := rfl
@[simp] theorem updResolver_attn (f : Resolver → Resolver) : (updResolver f s).attn = s.attn := rfl
@[simp] theorem updResolver_port (f : Resolver → Resolver) : (updResolver f s).port = s.port := rfl
@[simp] theorem updResolver_portFrame (f : Resolver → Resolver) : (updResolver f s).portFrame = s.portFrame := rfl
@[simp] theorem updResolver_pending (f : Resolver → Resolver) : (updResolver f s).pending = s.pending := rfl

/-! ### updCalendar -/

@[simp] theorem updCalendar_power (f : Calendar → Calendar) : (updCalendar f s).power = s.power := rfl
@[simp] theorem updCalendar_latch (f : Calendar → Calendar) : (updCalendar f s).latch = s.latch := rfl
@[simp] theorem updCalendar_pins (f : Calendar → Calendar) : (updCalendar f s).pins = s.pins := rfl
@[simp] theorem updCalendar_elapsed (f : Calendar → Calendar) : (updCalendar f s).elapsed = s.elapsed := rfl
@[simp] theorem updCalendar_mains (f : Calendar → Calendar) : (updCalendar f s).mains = s.mains := rfl
@[simp] theorem updCalendar_time (f : Calendar → Calendar) : (updCalendar f s).time = s.time := rfl
@[simp] theorem updCalendar_table (f : Calendar → Calendar) : (updCalendar f s).table = s.table := rfl
@[simp] theorem updCalendar_calendar (f : Calendar → Calendar) :
    (updCalendar f s).calendar = f s.calendar := rfl
@[simp] theorem updCalendar_resolver (f : Calendar → Calendar) : (updCalendar f s).resolver = s.resolver := rfl
@[simp] theorem updCalendar_sheets (f : Calendar → Calendar) : (updCalendar f s).sheets = s.sheets := rfl
@[simp] theorem updCalendar_lanes (f : Calendar → Calendar) : (updCalendar f s).lanes = s.lanes := rfl
@[simp] theorem updCalendar_overrides (f : Calendar → Calendar) : (updCalendar f s).overrides = s.overrides := rfl
@[simp] theorem updCalendar_bells (f : Calendar → Calendar) : (updCalendar f s).bells = s.bells := rfl
@[simp] theorem updCalendar_peal (f : Calendar → Calendar) : (updCalendar f s).peal = s.peal := rfl
@[simp] theorem updCalendar_tunes (f : Calendar → Calendar) : (updCalendar f s).tunes = s.tunes := rfl
@[simp] theorem updCalendar_line (f : Calendar → Calendar) : (updCalendar f s).line = s.line := rfl
@[simp] theorem updCalendar_dials (f : Calendar → Calendar) : (updCalendar f s).dials = s.dials := rfl
@[simp] theorem updCalendar_lastTarget (f : Calendar → Calendar) : (updCalendar f s).lastTarget = s.lastTarget := rfl
@[simp] theorem updCalendar_lights (f : Calendar → Calendar) : (updCalendar f s).lights = s.lights := rfl
@[simp] theorem updCalendar_attn (f : Calendar → Calendar) : (updCalendar f s).attn = s.attn := rfl
@[simp] theorem updCalendar_port (f : Calendar → Calendar) : (updCalendar f s).port = s.port := rfl
@[simp] theorem updCalendar_portFrame (f : Calendar → Calendar) : (updCalendar f s).portFrame = s.portFrame := rfl
@[simp] theorem updCalendar_pending (f : Calendar → Calendar) : (updCalendar f s).pending = s.pending := rfl

/-! ### updDial -/

@[simp] theorem updDial_power (d : DialNo) (f : Dial → Dial) : (updDial d f s).power = s.power := rfl
@[simp] theorem updDial_latch (d : DialNo) (f : Dial → Dial) : (updDial d f s).latch = s.latch := rfl
@[simp] theorem updDial_pins (d : DialNo) (f : Dial → Dial) : (updDial d f s).pins = s.pins := rfl
@[simp] theorem updDial_elapsed (d : DialNo) (f : Dial → Dial) : (updDial d f s).elapsed = s.elapsed := rfl
@[simp] theorem updDial_mains (d : DialNo) (f : Dial → Dial) : (updDial d f s).mains = s.mains := rfl
@[simp] theorem updDial_time (d : DialNo) (f : Dial → Dial) : (updDial d f s).time = s.time := rfl
@[simp] theorem updDial_table (d : DialNo) (f : Dial → Dial) : (updDial d f s).table = s.table := rfl
@[simp] theorem updDial_calendar (d : DialNo) (f : Dial → Dial) : (updDial d f s).calendar = s.calendar := rfl
@[simp] theorem updDial_resolver (d : DialNo) (f : Dial → Dial) : (updDial d f s).resolver = s.resolver := rfl
@[simp] theorem updDial_sheets (d : DialNo) (f : Dial → Dial) : (updDial d f s).sheets = s.sheets := rfl
@[simp] theorem updDial_lanes (d : DialNo) (f : Dial → Dial) : (updDial d f s).lanes = s.lanes := rfl
@[simp] theorem updDial_overrides (d : DialNo) (f : Dial → Dial) : (updDial d f s).overrides = s.overrides := rfl
@[simp] theorem updDial_bells (d : DialNo) (f : Dial → Dial) : (updDial d f s).bells = s.bells := rfl
@[simp] theorem updDial_peal (d : DialNo) (f : Dial → Dial) : (updDial d f s).peal = s.peal := rfl
@[simp] theorem updDial_tunes (d : DialNo) (f : Dial → Dial) : (updDial d f s).tunes = s.tunes := rfl
@[simp] theorem updDial_line (d : DialNo) (f : Dial → Dial) : (updDial d f s).line = s.line := rfl
@[simp] theorem updDial_dials (d : DialNo) (f : Dial → Dial) :
    (updDial d f s).dials = modify s.dials d f := rfl
@[simp] theorem updDial_lastTarget (d : DialNo) (f : Dial → Dial) : (updDial d f s).lastTarget = s.lastTarget := rfl
@[simp] theorem updDial_lights (d : DialNo) (f : Dial → Dial) : (updDial d f s).lights = s.lights := rfl
@[simp] theorem updDial_attn (d : DialNo) (f : Dial → Dial) : (updDial d f s).attn = s.attn := rfl
@[simp] theorem updDial_port (d : DialNo) (f : Dial → Dial) : (updDial d f s).port = s.port := rfl
@[simp] theorem updDial_portFrame (d : DialNo) (f : Dial → Dial) : (updDial d f s).portFrame = s.portFrame := rfl
@[simp] theorem updDial_pending (d : DialNo) (f : Dial → Dial) : (updDial d f s).pending = s.pending := rfl

/-! ### setNotes -/

@[simp] theorem setNotes_power (n : Nat) (xs : List Note) : (setNotes n xs s).power = s.power := rfl
@[simp] theorem setNotes_latch (n : Nat) (xs : List Note) : (setNotes n xs s).latch = s.latch := rfl
@[simp] theorem setNotes_pins (n : Nat) (xs : List Note) : (setNotes n xs s).pins = s.pins := rfl
@[simp] theorem setNotes_elapsed (n : Nat) (xs : List Note) : (setNotes n xs s).elapsed = s.elapsed := rfl
@[simp] theorem setNotes_mains (n : Nat) (xs : List Note) : (setNotes n xs s).mains = s.mains := rfl
@[simp] theorem setNotes_time (n : Nat) (xs : List Note) : (setNotes n xs s).time = s.time := rfl
@[simp] theorem setNotes_table (n : Nat) (xs : List Note) : (setNotes n xs s).table = s.table := rfl
@[simp] theorem setNotes_calendar (n : Nat) (xs : List Note) : (setNotes n xs s).calendar = s.calendar := rfl
@[simp] theorem setNotes_resolver (n : Nat) (xs : List Note) : (setNotes n xs s).resolver = s.resolver := rfl
@[simp] theorem setNotes_sheets (n : Nat) (xs : List Note) : (setNotes n xs s).sheets = s.sheets := rfl
@[simp] theorem setNotes_lanes (n : Nat) (xs : List Note) : (setNotes n xs s).lanes = s.lanes := rfl
@[simp] theorem setNotes_overrides (n : Nat) (xs : List Note) : (setNotes n xs s).overrides = s.overrides := rfl
@[simp] theorem setNotes_bells (n : Nat) (xs : List Note) : (setNotes n xs s).bells = s.bells := rfl
@[simp] theorem setNotes_peal (n : Nat) (xs : List Note) : (setNotes n xs s).peal = s.peal := rfl
@[simp] theorem setNotes_tunes (n : Nat) (xs : List Note) :
    (setNotes n xs s).tunes = { s.tunes with notes := writeNotesAt s.tunes.notes n xs } := rfl
@[simp] theorem setNotes_line (n : Nat) (xs : List Note) : (setNotes n xs s).line = s.line := rfl
@[simp] theorem setNotes_dials (n : Nat) (xs : List Note) : (setNotes n xs s).dials = s.dials := rfl
@[simp] theorem setNotes_lastTarget (n : Nat) (xs : List Note) : (setNotes n xs s).lastTarget = s.lastTarget := rfl
@[simp] theorem setNotes_lights (n : Nat) (xs : List Note) : (setNotes n xs s).lights = s.lights := rfl
@[simp] theorem setNotes_attn (n : Nat) (xs : List Note) : (setNotes n xs s).attn = s.attn := rfl
@[simp] theorem setNotes_port (n : Nat) (xs : List Note) : (setNotes n xs s).port = s.port := rfl
@[simp] theorem setNotes_portFrame (n : Nat) (xs : List Note) : (setNotes n xs s).portFrame = s.portFrame := rfl
@[simp] theorem setNotes_pending (n : Nat) (xs : List Note) : (setNotes n xs s).pending = s.pending := rfl

/-! ### mapBells -/

@[simp] theorem mapBells_power (f : Bell → Bell) : (mapBells f s).power = s.power := rfl
@[simp] theorem mapBells_latch (f : Bell → Bell) : (mapBells f s).latch = s.latch := rfl
@[simp] theorem mapBells_pins (f : Bell → Bell) : (mapBells f s).pins = s.pins := rfl
@[simp] theorem mapBells_elapsed (f : Bell → Bell) : (mapBells f s).elapsed = s.elapsed := rfl
@[simp] theorem mapBells_mains (f : Bell → Bell) : (mapBells f s).mains = s.mains := rfl
@[simp] theorem mapBells_time (f : Bell → Bell) : (mapBells f s).time = s.time := rfl
@[simp] theorem mapBells_table (f : Bell → Bell) : (mapBells f s).table = s.table := rfl
@[simp] theorem mapBells_calendar (f : Bell → Bell) : (mapBells f s).calendar = s.calendar := rfl
@[simp] theorem mapBells_resolver (f : Bell → Bell) : (mapBells f s).resolver = s.resolver := rfl
@[simp] theorem mapBells_sheets (f : Bell → Bell) : (mapBells f s).sheets = s.sheets := rfl
@[simp] theorem mapBells_lanes (f : Bell → Bell) : (mapBells f s).lanes = s.lanes := rfl
@[simp] theorem mapBells_overrides (f : Bell → Bell) : (mapBells f s).overrides = s.overrides := rfl
@[simp] theorem mapBells_bells (f : Bell → Bell) :
    (mapBells f s).bells = s.bells.map f := rfl
@[simp] theorem mapBells_peal (f : Bell → Bell) : (mapBells f s).peal = s.peal := rfl
@[simp] theorem mapBells_tunes (f : Bell → Bell) : (mapBells f s).tunes = s.tunes := rfl
@[simp] theorem mapBells_line (f : Bell → Bell) : (mapBells f s).line = s.line := rfl
@[simp] theorem mapBells_dials (f : Bell → Bell) : (mapBells f s).dials = s.dials := rfl
@[simp] theorem mapBells_lastTarget (f : Bell → Bell) : (mapBells f s).lastTarget = s.lastTarget := rfl
@[simp] theorem mapBells_lights (f : Bell → Bell) : (mapBells f s).lights = s.lights := rfl
@[simp] theorem mapBells_attn (f : Bell → Bell) : (mapBells f s).attn = s.attn := rfl
@[simp] theorem mapBells_port (f : Bell → Bell) : (mapBells f s).port = s.port := rfl
@[simp] theorem mapBells_portFrame (f : Bell → Bell) : (mapBells f s).portFrame = s.portFrame := rfl
@[simp] theorem mapBells_pending (f : Bell → Bell) : (mapBells f s).pending = s.pending := rfl

/-! ### carriedOut -/

@[simp] theorem carriedOut_power (bytes : List Byte) : (carriedOut bytes s).power = s.power := rfl
@[simp] theorem carriedOut_latch (bytes : List Byte) : (carriedOut bytes s).latch = s.latch := rfl
@[simp] theorem carriedOut_pins (bytes : List Byte) : (carriedOut bytes s).pins = s.pins := rfl
@[simp] theorem carriedOut_elapsed (bytes : List Byte) : (carriedOut bytes s).elapsed = s.elapsed := rfl
@[simp] theorem carriedOut_mains (bytes : List Byte) : (carriedOut bytes s).mains = s.mains := rfl
@[simp] theorem carriedOut_time (bytes : List Byte) : (carriedOut bytes s).time = s.time := rfl
@[simp] theorem carriedOut_table (bytes : List Byte) : (carriedOut bytes s).table = s.table := rfl
@[simp] theorem carriedOut_calendar (bytes : List Byte) : (carriedOut bytes s).calendar = s.calendar := rfl
@[simp] theorem carriedOut_resolver (bytes : List Byte) : (carriedOut bytes s).resolver = s.resolver := rfl
@[simp] theorem carriedOut_sheets (bytes : List Byte) : (carriedOut bytes s).sheets = s.sheets := rfl
@[simp] theorem carriedOut_lanes (bytes : List Byte) : (carriedOut bytes s).lanes = s.lanes := rfl
@[simp] theorem carriedOut_overrides (bytes : List Byte) : (carriedOut bytes s).overrides = s.overrides := rfl
@[simp] theorem carriedOut_bells (bytes : List Byte) : (carriedOut bytes s).bells = s.bells := rfl
@[simp] theorem carriedOut_peal (bytes : List Byte) : (carriedOut bytes s).peal = s.peal := rfl
@[simp] theorem carriedOut_tunes (bytes : List Byte) : (carriedOut bytes s).tunes = s.tunes := rfl
@[simp] theorem carriedOut_line (bytes : List Byte) : (carriedOut bytes s).line = s.line := rfl
@[simp] theorem carriedOut_dials (bytes : List Byte) : (carriedOut bytes s).dials = s.dials := rfl
@[simp] theorem carriedOut_lastTarget (bytes : List Byte) : (carriedOut bytes s).lastTarget = s.lastTarget := rfl
@[simp] theorem carriedOut_lights (bytes : List Byte) : (carriedOut bytes s).lights = s.lights := rfl
@[simp] theorem carriedOut_attn (bytes : List Byte) : (carriedOut bytes s).attn = s.attn := rfl
@[simp] theorem carriedOut_port (bytes : List Byte) :
    (carriedOut bytes s).port = ⟨.none, bytes⟩ := rfl
@[simp] theorem carriedOut_portFrame (bytes : List Byte) : (carriedOut bytes s).portFrame = s.portFrame := rfl
@[simp] theorem carriedOut_pending (bytes : List Byte) : (carriedOut bytes s).pending = s.pending := rfl

/-! ### refusedWith -/

@[simp] theorem refusedWith_power (c : Code) : (refusedWith c s).power = s.power := rfl
@[simp] theorem refusedWith_latch (c : Code) : (refusedWith c s).latch = s.latch := rfl
@[simp] theorem refusedWith_pins (c : Code) : (refusedWith c s).pins = s.pins := rfl
@[simp] theorem refusedWith_elapsed (c : Code) : (refusedWith c s).elapsed = s.elapsed := rfl
@[simp] theorem refusedWith_mains (c : Code) : (refusedWith c s).mains = s.mains := rfl
@[simp] theorem refusedWith_time (c : Code) : (refusedWith c s).time = s.time := rfl
@[simp] theorem refusedWith_table (c : Code) : (refusedWith c s).table = s.table := rfl
@[simp] theorem refusedWith_calendar (c : Code) : (refusedWith c s).calendar = s.calendar := rfl
@[simp] theorem refusedWith_resolver (c : Code) : (refusedWith c s).resolver = s.resolver := rfl
@[simp] theorem refusedWith_sheets (c : Code) : (refusedWith c s).sheets = s.sheets := rfl
@[simp] theorem refusedWith_lanes (c : Code) : (refusedWith c s).lanes = s.lanes := rfl
@[simp] theorem refusedWith_overrides (c : Code) : (refusedWith c s).overrides = s.overrides := rfl
@[simp] theorem refusedWith_bells (c : Code) : (refusedWith c s).bells = s.bells := rfl
@[simp] theorem refusedWith_peal (c : Code) : (refusedWith c s).peal = s.peal := rfl
@[simp] theorem refusedWith_tunes (c : Code) : (refusedWith c s).tunes = s.tunes := rfl
@[simp] theorem refusedWith_line (c : Code) : (refusedWith c s).line = s.line := rfl
@[simp] theorem refusedWith_dials (c : Code) : (refusedWith c s).dials = s.dials := rfl
@[simp] theorem refusedWith_lastTarget (c : Code) : (refusedWith c s).lastTarget = s.lastTarget := rfl
@[simp] theorem refusedWith_lights (c : Code) : (refusedWith c s).lights = s.lights := rfl
@[simp] theorem refusedWith_attn (c : Code) : (refusedWith c s).attn = s.attn := rfl
@[simp] theorem refusedWith_port (c : Code) :
    (refusedWith c s).port = ⟨c, []⟩ := rfl
@[simp] theorem refusedWith_portFrame (c : Code) : (refusedWith c s).portFrame = s.portFrame := rfl
@[simp] theorem refusedWith_pending (c : Code) : (refusedWith c s).pending = s.pending := rfl

/-! ### sampleWires and restartClock -/

@[simp] theorem sampleWires_power (lck lda : Bool) : (sampleWires lck lda s).power = s.power := rfl
@[simp] theorem sampleWires_latch (lck lda : Bool) : (sampleWires lck lda s).latch = s.latch := rfl
@[simp] theorem sampleWires_pins (lck lda : Bool) :
    (sampleWires lck lda s).pins = { s.pins.readClock lck s.elapsed with ldaHigh := lda } := rfl
@[simp] theorem sampleWires_elapsed (lck lda : Bool) : (sampleWires lck lda s).elapsed = s.elapsed := rfl
@[simp] theorem sampleWires_mains (lck lda : Bool) : (sampleWires lck lda s).mains = s.mains := rfl
@[simp] theorem sampleWires_time (lck lda : Bool) : (sampleWires lck lda s).time = s.time := rfl
@[simp] theorem sampleWires_table (lck lda : Bool) : (sampleWires lck lda s).table = s.table := rfl
@[simp] theorem sampleWires_calendar (lck lda : Bool) : (sampleWires lck lda s).calendar = s.calendar := rfl
@[simp] theorem sampleWires_resolver (lck lda : Bool) : (sampleWires lck lda s).resolver = s.resolver := rfl
@[simp] theorem sampleWires_sheets (lck lda : Bool) : (sampleWires lck lda s).sheets = s.sheets := rfl
@[simp] theorem sampleWires_lanes (lck lda : Bool) : (sampleWires lck lda s).lanes = s.lanes := rfl
@[simp] theorem sampleWires_overrides (lck lda : Bool) : (sampleWires lck lda s).overrides = s.overrides := rfl
@[simp] theorem sampleWires_bells (lck lda : Bool) : (sampleWires lck lda s).bells = s.bells := rfl
@[simp] theorem sampleWires_peal (lck lda : Bool) : (sampleWires lck lda s).peal = s.peal := rfl
@[simp] theorem sampleWires_tunes (lck lda : Bool) : (sampleWires lck lda s).tunes = s.tunes := rfl
@[simp] theorem sampleWires_line (lck lda : Bool) : (sampleWires lck lda s).line = s.line := rfl
@[simp] theorem sampleWires_dials (lck lda : Bool) : (sampleWires lck lda s).dials = s.dials := rfl
@[simp] theorem sampleWires_lastTarget (lck lda : Bool) : (sampleWires lck lda s).lastTarget = s.lastTarget := rfl
@[simp] theorem sampleWires_lights (lck lda : Bool) : (sampleWires lck lda s).lights = s.lights := rfl
@[simp] theorem sampleWires_attn (lck lda : Bool) : (sampleWires lck lda s).attn = s.attn := rfl
@[simp] theorem sampleWires_port (lck lda : Bool) : (sampleWires lck lda s).port = s.port := rfl
@[simp] theorem sampleWires_portFrame (lck lda : Bool) : (sampleWires lck lda s).portFrame = s.portFrame := rfl
@[simp] theorem sampleWires_pending (lck lda : Bool) : (sampleWires lck lda s).pending = s.pending := rfl
@[simp] theorem restartClock_power : (restartClock s).power = s.power := rfl
@[simp] theorem restartClock_latch : (restartClock s).latch = s.latch := rfl
@[simp] theorem restartClock_pins : (restartClock s).pins = s.pins.restartClock s.elapsed := rfl
@[simp] theorem restartClock_elapsed : (restartClock s).elapsed = s.elapsed := rfl
@[simp] theorem restartClock_mains : (restartClock s).mains = s.mains := rfl
@[simp] theorem restartClock_time : (restartClock s).time = s.time := rfl
@[simp] theorem restartClock_table : (restartClock s).table = s.table := rfl
@[simp] theorem restartClock_calendar : (restartClock s).calendar = s.calendar := rfl
@[simp] theorem restartClock_resolver : (restartClock s).resolver = s.resolver := rfl
@[simp] theorem restartClock_sheets : (restartClock s).sheets = s.sheets := rfl
@[simp] theorem restartClock_lanes : (restartClock s).lanes = s.lanes := rfl
@[simp] theorem restartClock_overrides : (restartClock s).overrides = s.overrides := rfl
@[simp] theorem restartClock_bells : (restartClock s).bells = s.bells := rfl
@[simp] theorem restartClock_peal : (restartClock s).peal = s.peal := rfl
@[simp] theorem restartClock_tunes : (restartClock s).tunes = s.tunes := rfl
@[simp] theorem restartClock_line : (restartClock s).line = s.line := rfl
@[simp] theorem restartClock_dials : (restartClock s).dials = s.dials := rfl
@[simp] theorem restartClock_lastTarget : (restartClock s).lastTarget = s.lastTarget := rfl
@[simp] theorem restartClock_lights : (restartClock s).lights = s.lights := rfl
@[simp] theorem restartClock_attn : (restartClock s).attn = s.attn := rfl
@[simp] theorem restartClock_port : (restartClock s).port = s.port := rfl
@[simp] theorem restartClock_portFrame : (restartClock s).portFrame = s.portFrame := rfl
@[simp] theorem restartClock_pending : (restartClock s).pending = s.pending := rfl

/-! ### The wires at the ends of frames, and what a run forgets -/

@[simp] theorem clockSeen_power : (clockSeen s).power = s.power := rfl
@[simp] theorem clockSeen_latch : (clockSeen s).latch = s.latch := rfl
@[simp] theorem clockSeen_pins :
    (clockSeen s).pins = { s.pins.readClock true s.elapsed with ldaHigh := s.pins.ldaHigh } := rfl
@[simp] theorem clockSeen_elapsed : (clockSeen s).elapsed = s.elapsed := rfl
@[simp] theorem clockSeen_mains : (clockSeen s).mains = s.mains := rfl
@[simp] theorem clockSeen_time : (clockSeen s).time = s.time := rfl
@[simp] theorem clockSeen_table : (clockSeen s).table = s.table := rfl
@[simp] theorem clockSeen_calendar : (clockSeen s).calendar = s.calendar := rfl
@[simp] theorem clockSeen_resolver : (clockSeen s).resolver = s.resolver := rfl
@[simp] theorem clockSeen_sheets : (clockSeen s).sheets = s.sheets := rfl
@[simp] theorem clockSeen_lanes : (clockSeen s).lanes = s.lanes := rfl
@[simp] theorem clockSeen_overrides : (clockSeen s).overrides = s.overrides := rfl
@[simp] theorem clockSeen_bells : (clockSeen s).bells = s.bells := rfl
@[simp] theorem clockSeen_peal : (clockSeen s).peal = s.peal := rfl
@[simp] theorem clockSeen_tunes : (clockSeen s).tunes = s.tunes := rfl
@[simp] theorem clockSeen_line : (clockSeen s).line = s.line := rfl
@[simp] theorem clockSeen_dials : (clockSeen s).dials = s.dials := rfl
@[simp] theorem clockSeen_lastTarget : (clockSeen s).lastTarget = s.lastTarget := rfl
@[simp] theorem clockSeen_lights : (clockSeen s).lights = s.lights := rfl
@[simp] theorem clockSeen_attn : (clockSeen s).attn = s.attn := rfl
@[simp] theorem clockSeen_port : (clockSeen s).port = s.port := rfl
@[simp] theorem clockSeen_portFrame : (clockSeen s).portFrame = s.portFrame := rfl
@[simp] theorem clockSeen_pending : (clockSeen s).pending = s.pending := rfl
@[simp] theorem frameStopped_power : (frameStopped s).power = s.power := rfl
@[simp] theorem frameStopped_latch : (frameStopped s).latch = s.latch := rfl
@[simp] theorem frameStopped_pins :
    (frameStopped s).pins = { s.pins.readClock true s.elapsed with ldaHigh := true } := rfl
@[simp] theorem frameStopped_elapsed : (frameStopped s).elapsed = s.elapsed := rfl
@[simp] theorem frameStopped_mains : (frameStopped s).mains = s.mains := rfl
@[simp] theorem frameStopped_time : (frameStopped s).time = s.time := rfl
@[simp] theorem frameStopped_table : (frameStopped s).table = s.table := rfl
@[simp] theorem frameStopped_calendar : (frameStopped s).calendar = s.calendar := rfl
@[simp] theorem frameStopped_resolver : (frameStopped s).resolver = s.resolver := rfl
@[simp] theorem frameStopped_sheets : (frameStopped s).sheets = s.sheets := rfl
@[simp] theorem frameStopped_lanes : (frameStopped s).lanes = s.lanes := rfl
@[simp] theorem frameStopped_overrides : (frameStopped s).overrides = s.overrides := rfl
@[simp] theorem frameStopped_bells : (frameStopped s).bells = s.bells := rfl
@[simp] theorem frameStopped_peal : (frameStopped s).peal = s.peal := rfl
@[simp] theorem frameStopped_tunes : (frameStopped s).tunes = s.tunes := rfl
@[simp] theorem frameStopped_line :
    (frameStopped s).line = { s.line with state := .idle, frame := .none } := rfl
@[simp] theorem frameStopped_dials : (frameStopped s).dials = s.dials := rfl
@[simp] theorem frameStopped_lastTarget : (frameStopped s).lastTarget = s.lastTarget := rfl
@[simp] theorem frameStopped_lights : (frameStopped s).lights = s.lights := rfl
@[simp] theorem frameStopped_attn : (frameStopped s).attn = s.attn := rfl
@[simp] theorem frameStopped_port : (frameStopped s).port = s.port := rfl
@[simp] theorem frameStopped_portFrame : (frameStopped s).portFrame = s.portFrame := rfl
@[simp] theorem frameStopped_pending : (frameStopped s).pending = s.pending := rfl
@[simp] theorem frameBroken_power : (frameBroken s).power = s.power := rfl
@[simp] theorem frameBroken_latch : (frameBroken s).latch = s.latch := rfl
@[simp] theorem frameBroken_pins :
    (frameBroken s).pins = { s.pins.readClock true s.elapsed with ldaHigh := s.pins.ldaHigh } := rfl
@[simp] theorem frameBroken_elapsed : (frameBroken s).elapsed = s.elapsed := rfl
@[simp] theorem frameBroken_mains : (frameBroken s).mains = s.mains := rfl
@[simp] theorem frameBroken_time : (frameBroken s).time = s.time := rfl
@[simp] theorem frameBroken_table : (frameBroken s).table = s.table := rfl
@[simp] theorem frameBroken_calendar : (frameBroken s).calendar = s.calendar := rfl
@[simp] theorem frameBroken_resolver : (frameBroken s).resolver = s.resolver := rfl
@[simp] theorem frameBroken_sheets : (frameBroken s).sheets = s.sheets := rfl
@[simp] theorem frameBroken_lanes : (frameBroken s).lanes = s.lanes := rfl
@[simp] theorem frameBroken_overrides : (frameBroken s).overrides = s.overrides := rfl
@[simp] theorem frameBroken_bells : (frameBroken s).bells = s.bells := rfl
@[simp] theorem frameBroken_peal : (frameBroken s).peal = s.peal := rfl
@[simp] theorem frameBroken_tunes : (frameBroken s).tunes = s.tunes := rfl
@[simp] theorem frameBroken_line :
    (frameBroken s).line = { s.line with state := .idle, frame := .none } := rfl
@[simp] theorem frameBroken_dials : (frameBroken s).dials = s.dials := rfl
@[simp] theorem frameBroken_lastTarget : (frameBroken s).lastTarget = s.lastTarget := rfl
@[simp] theorem frameBroken_lights : (frameBroken s).lights = s.lights := rfl
@[simp] theorem frameBroken_attn : (frameBroken s).attn = s.attn := rfl
@[simp] theorem frameBroken_port : (frameBroken s).port = s.port := rfl
@[simp] theorem frameBroken_portFrame : (frameBroken s).portFrame = s.portFrame := rfl
@[simp] theorem frameBroken_pending : (frameBroken s).pending = s.pending := rfl
@[simp] theorem forgetGenerated_power (i : SlotNo) : (forgetGenerated i s).power = s.power := rfl
@[simp] theorem forgetGenerated_latch (i : SlotNo) : (forgetGenerated i s).latch = s.latch := rfl
@[simp] theorem forgetGenerated_pins (i : SlotNo) : (forgetGenerated i s).pins = s.pins := rfl
@[simp] theorem forgetGenerated_elapsed (i : SlotNo) : (forgetGenerated i s).elapsed = s.elapsed := rfl
@[simp] theorem forgetGenerated_mains (i : SlotNo) : (forgetGenerated i s).mains = s.mains := rfl
@[simp] theorem forgetGenerated_time (i : SlotNo) : (forgetGenerated i s).time = s.time := rfl
@[simp] theorem forgetGenerated_table (i : SlotNo) : (forgetGenerated i s).table = s.table := rfl
@[simp] theorem forgetGenerated_calendar (i : SlotNo) : (forgetGenerated i s).calendar = s.calendar := rfl
@[simp] theorem forgetGenerated_resolver (i : SlotNo) :
    (forgetGenerated i s).resolver =
      { s.resolver with
        run := s.resolver.run.map fun x => { x with generated := x.generated.filter fun e => e.key.slot != i } } := rfl
@[simp] theorem forgetGenerated_sheets (i : SlotNo) : (forgetGenerated i s).sheets = s.sheets := rfl
@[simp] theorem forgetGenerated_lanes (i : SlotNo) : (forgetGenerated i s).lanes = s.lanes := rfl
@[simp] theorem forgetGenerated_overrides (i : SlotNo) : (forgetGenerated i s).overrides = s.overrides := rfl
@[simp] theorem forgetGenerated_bells (i : SlotNo) : (forgetGenerated i s).bells = s.bells := rfl
@[simp] theorem forgetGenerated_peal (i : SlotNo) : (forgetGenerated i s).peal = s.peal := rfl
@[simp] theorem forgetGenerated_tunes (i : SlotNo) : (forgetGenerated i s).tunes = s.tunes := rfl
@[simp] theorem forgetGenerated_line (i : SlotNo) : (forgetGenerated i s).line = s.line := rfl
@[simp] theorem forgetGenerated_dials (i : SlotNo) : (forgetGenerated i s).dials = s.dials := rfl
@[simp] theorem forgetGenerated_lastTarget (i : SlotNo) : (forgetGenerated i s).lastTarget = s.lastTarget := rfl
@[simp] theorem forgetGenerated_lights (i : SlotNo) : (forgetGenerated i s).lights = s.lights := rfl
@[simp] theorem forgetGenerated_attn (i : SlotNo) : (forgetGenerated i s).attn = s.attn := rfl
@[simp] theorem forgetGenerated_port (i : SlotNo) : (forgetGenerated i s).port = s.port := rfl
@[simp] theorem forgetGenerated_portFrame (i : SlotNo) : (forgetGenerated i s).portFrame = s.portFrame := rfl
@[simp] theorem forgetGenerated_pending (i : SlotNo) : (forgetGenerated i s).pending = s.pending := rfl

/-! ### The clock wire -/

@[simp] theorem readClock_high (now : Nat) (p : Pins) : (p.readClock true now).lckLowSince = none := rfl
@[simp] theorem readClock_highAt (now : Nat) (p : Pins) : (p.readClock true now).lckHighAt = now := rfl
@[simp] theorem readClock_low (now : Nat) (p : Pins) :
    (p.readClock false now).lckLowSince = some (p.lckLowSince.getD now) := rfl
@[simp] theorem readClock_lckHigh (high : Bool) (now : Nat) (p : Pins) : (p.readClock high now).lckHigh = high := by
  cases high <;> rfl
@[simp] theorem restartClock_lckHigh (now : Nat) (p : Pins) : (p.restartClock now).lckHigh = p.lckHigh := by
  simp [Pins.restartClock, Pins.lckHigh]

end Sys2Proof.Machine
end

