-- ==== Sys2Proof/Laws/Tower.lean ====
section
/-! SUPPORT. What work in the tower leaves alone: one lemma per operation over sheets, lanes, bells, lights and the player, which
says that the operation keeps the tower view. -/

namespace Sys2Proof.Machine

variable (s : State)

/-! ### The named updates -/

@[simp] theorem tower_updBell (st : Station) (f : Bell → Bell) (h : ∀ b, bellConfigOf (f b) = bellConfigOf b)
    (h2 : ∀ b, (f b).ctrl = b.ctrl) : towerView (updBell st f s) = towerView s := by
  simp [towerView, settingsView, map_modify, h, h2]

@[simp] theorem tower_updSlot (i : SlotNo) (f : Slot → Slot) (h : ∀ x, (f x).image = x.image)
    (h2 : ∀ x, (f x).locked = x.locked) : towerView (updSlot i f s) = towerView s := by
  simp [towerView, settingsView, map_modify, h, h2]

@[simp] theorem tower_updTune (n : TuneNo) (f : Tune → Tune)
    (h : ∀ x, ({ f x with plays := 0, skipped := 0 } : Tune) = { x with plays := 0, skipped := 0 }) :
    towerView (updTune n f s) = towerView s := by
  have h2 : ∀ x, ((f x).first, (f x).length, (f x).tick, (f x).expected) = (x.first, x.length, x.tick, x.expected) := by
    intro x
    have := h x
    simp only [Tune.mk.injEq] at this
    simp [this]
  simp only [towerView, settingsView, updTune_tunes]
  rw [map_modify (fun x : Tune => ({ x with plays := 0, skipped := 0 } : Tune)) _ _ _ h,
    map_modify (fun x : Tune => (x.first, x.length, x.tick, x.expected)) _ _ _ h2]
  rfl

@[simp] theorem tower_updLine (f : Line → Line) (h : ∀ l, ({ f l with queue := [] } : Line) = { l with queue := [] }) :
    towerView (updLine f s) = towerView s := by
  have h3 := h s.line
  simp only [Line.mk.injEq] at h3
  simp [towerView, settingsView, h3]

@[simp] theorem tower_setPlayer (p : Option Player) : towerView (setPlayer p s) = towerView s := rfl
@[simp] theorem tower_setTollRun (r : Option TollRun) : towerView (setTollRun r s) = towerView s := rfl
@[simp] theorem tower_updToday (f : List Entry → List Entry) : towerView (updToday f s) = towerView s := rfl
@[simp] theorem tower_setFlag (g : AttnFlag) : towerView (setFlag g s) = towerView s := rfl
@[simp] theorem tower_setFlagIf (c : Bool) (g : AttnFlag) : towerView (setFlagIf c g s) = towerView s := by cases c <;> rfl
@[simp] theorem tower_setLane (lane : Lane) (k : Option Key) : towerView (setLane lane k s) = towerView s := by
  cases lane <;> rfl
@[simp] theorem tower_peal (p : Option PealRun) : towerView { s with peal := p } = towerView s := rfl
@[simp] theorem tower_lanes (l : Lanes) : towerView { s with lanes := l } = towerView s := rfl

theorem tower_setLights (l : Lights)
    (h : l.zones.map (fun z => (z.low, z.mid, z.full, z.priority))
      = s.lights.zones.map fun z => (z.low, z.mid, z.full, z.priority))
    (h2 : l.scenes = s.lights.scenes) (h3 : l.allowance = s.lights.allowance) :
    towerView (setLights l s) = towerView s := by
  simp [towerView, settingsView, h, h2, h3]

/-! ### Entries, outcomes and answers -/

@[simp] theorem tower_writeOutcome (i : SlotNo) (st : EntryState) (day : Nat) :
    towerView (writeOutcome i st day s) = towerView s := by
  unfold writeOutcome
  split
  · rfl
  · apply tower_updSlot <;> intro x <;> cases st <;> rfl

@[simp] theorem tower_spentCheck (i : SlotNo) : towerView (spentCheck i s) = towerView s := by
  unfold spentCheck
  split
  · rfl
  · split
    · exact tower_updSlot _ _ _ (fun _ => rfl) (fun _ => rfl)
    · rfl

@[simp] theorem tower_spentCheckAll : towerView (spentCheckAll s) = towerView s :=
  foldl_view towerView _ (fun s i => tower_spentCheck s i) _ _

@[simp] theorem tower_conclude (k : Key) (st : EntryState) : towerView (conclude k st s) = towerView s := by
  unfold conclude
  split <;> simp

@[simp] theorem tower_concludeAll (ks : List Key) (st : EntryState) : towerView (concludeAll ks st s) = towerView s :=
  foldl_view towerView _ (fun s k => tower_conclude s k st) _ _

@[simp] theorem tower_finalise (k : Key) (st : EntryState) : towerView (finalise k st s) = towerView s := by
  unfold finalise
  split <;> simp

@[simp] theorem tower_finaliseAll (ks : List Key) (st : EntryState) : towerView (finaliseAll ks st s) = towerView s :=
  foldl_view towerView _ (fun s k => tower_finalise s k st) _ _

@[simp] theorem tower_endLane (lane : Lane) (st : EntryState) : towerView (endLane lane st s) = towerView s := by
  unfold endLane
  split <;> simp

@[simp] theorem tower_answerToll (sent : Bool) (r : TollRun) : towerView (answerToll sent r s) = towerView s := by
  unfold answerToll
  dsimp only
  split <;> simp

@[simp] theorem tower_answerHour (sent : Bool) (p : Player) : towerView (answerHour sent p s) = towerView s := by
  unfold answerHour
  dsimp only
  split <;> simp

@[simp] theorem tower_answerStroke (who : Requester) (sent : Bool) : towerView (answerStroke who sent s) = towerView s := by
  unfold answerStroke
  repeat' split
  all_goals simp

/-! ### Bells and the order queue -/

@[simp] theorem tower_placeOrder (o : Order) : towerView (placeOrder o s) = towerView s :=
  tower_updLine _ _ fun _ => rfl

@[simp] theorem tower_strikeLost (o : Order) : towerView (strikeLost o s) = towerView s := by
  unfold strikeLost
  split <;> simp

@[simp] theorem tower_strikesLost (os : List Order) : towerView (strikesLost os s) = towerView s :=
  foldl_view towerView _ (fun s o => tower_strikeLost s o) _ _

@[simp] theorem tower_withdrawStrikes (st : Station) : towerView (withdrawStrikes st s) = towerView s := by
  unfold withdrawStrikes
  rw [tower_strikesLost]
  exact tower_updLine _ _ fun _ => rfl

@[simp] theorem tower_withdrawOrders (st : Station) : towerView (withdrawOrders st s) = towerView s := by
  unfold withdrawOrders
  rw [tower_strikesLost]
  exact tower_updLine _ _ fun _ => rfl

@[simp] theorem tower_owe (st : Station) (k : SwingOrder) : towerView (owe st k s) = towerView s :=
  tower_updBell _ _ _ (fun _ => rfl) fun _ => rfl

@[simp] theorem tower_makeOrder (st : Station) (k : SwingOrder) : towerView (makeOrder st k s) = towerView s := by
  unfold makeOrder
  repeat' split
  all_goals simp

@[simp] theorem tower_offerOwed (st : Station) : towerView (offerOwed st s) = towerView s := by
  unfold offerOwed
  split
  · rfl
  · split
    · rw [tower_placeOrder]; exact tower_updBell _ _ _ (fun _ => rfl) fun _ => rfl
    · rfl

@[simp] theorem tower_loseDeferred (st : Station) : towerView (loseDeferred st s) = towerView s := by
  unfold loseDeferred
  dsimp only
  rw [foldl_view towerView _ (fun s d => tower_answerStroke s _ _)]
  exact tower_updBell _ _ _ (fun _ => rfl) fun _ => rfl

@[simp] theorem tower_checkStrikable (st : Station) : towerView (checkStrikable st s) = towerView s := by
  unfold checkStrikable
  split <;> simp

@[simp] theorem tower_strokeDue (st : Station) (x : Strength) (deadline : Nat) (who : Requester) :
    towerView (strokeDue st x deadline who s) = towerView s := by
  unfold strokeDue
  split
  · rw [tower_updBell, tower_placeOrder] <;> intro _ <;> rfl
  · simp

@[simp] theorem tower_serveDeferred (fuel : Nat) (st : Station) : towerView (serveDeferred fuel st s) = towerView s := by
  induction fuel generalizing s with
  | zero => rfl
  | succ n ih =>
    unfold serveDeferred
    split
    · rfl
    · split
      · rw [ih, tower_strokeDue]; exact tower_updBell _ _ _ (fun _ => rfl) fun _ => rfl
      · rfl

@[simp] theorem tower_serveFirst (st : Station) : towerView (serveFirst st s) = towerView s := tower_serveDeferred _ _ _

@[simp] theorem tower_requestStroke (st : Station) (x : Strength) (who : Requester) :
    towerView (requestStroke st x who s) = towerView s := by
  unfold requestStroke
  dsimp only
  split
  · simp
  · split
    · simp
    · rw [tower_updBell, tower_serveFirst] <;> intro _ <;> rfl

@[simp] theorem tower_faultEvent (st : Station) : towerView (faultEvent st s) = towerView s := by
  unfold faultEvent
  rw [tower_setFlag]
  exact tower_updBell _ _ _ (fun _ => rfl) fun _ => rfl

@[simp] theorem tower_pealLeave (st : Station) : towerView (pealLeave st s) = towerView s := by
  unfold pealLeave
  repeat' split
  all_goals rfl

@[simp] theorem tower_pollNow (st : Station) : towerView (pollNow st s) = towerView s := by
  unfold pollNow
  split <;> simp

@[simp] theorem tower_firstQuery (st : Station) : towerView (firstQuery st s) = towerView s := by
  unfold firstQuery
  split <;> simp

@[simp] theorem tower_startPolling (st : Station) : towerView (startPolling st s) = towerView s := by
  unfold startPolling
  split
  · exact tower_updBell _ _ _ (fun _ => rfl) fun _ => rfl
  · split
    · rw [tower_firstQuery]; exact tower_updBell _ _ _ (fun _ => rfl) fun _ => rfl
    · dsimp only
      split
      · rw [tower_makeOrder]; exact tower_updBell _ _ _ (fun _ => rfl) fun _ => rfl
      · exact tower_updBell _ _ _ (fun _ => rfl) fun _ => rfl

@[simp] theorem tower_enterPosition (st : Station) (pos : Position) : towerView (enterPosition st pos s) = towerView s := by
  unfold enterPosition
  rw [tower_startPolling, tower_checkStrikable]
  exact tower_updBell _ _ _ (fun _ => rfl) fun _ => rfl

@[simp] theorem tower_orderLower (st : Station) : towerView (orderLower st s) = towerView s := by simp [orderLower]
@[simp] theorem tower_becomeFault (st : Station) : towerView (becomeFault st s) = towerView s := by simp [becomeFault]
@[simp] theorem tower_raiseFailed (st : Station) : towerView (raiseFailed st s) = towerView s := by simp [raiseFailed]
@[simp] theorem tower_becomeUnsure (st : Station) : towerView (becomeUnsure st s) = towerView s := by simp [becomeUnsure]

/-! ### The supply account -/

/-- The configured part of the lighting unit, which no admission and no shedding changes. -/
def lightsConfig (l : Lights) : Vector (Nat × Nat × Nat × Nat) 8 × Vector (Vector Nat 8) 16 × Nat :=
  (l.zones.map (fun z => (z.low, z.mid, z.full, z.priority)), l.scenes, l.allowance)

theorem tower_setLights_of (l : Lights) (h : lightsConfig l = lightsConfig s.lights) :
    towerView (setLights l s) = towerView s := by
  simp only [lightsConfig, Prod.mk.injEq] at h
  exact tower_setLights s l h.1 h.2.1 h.2.2

@[simp] theorem lightsConfig_reserve (st : Station) (m : Nat) (l : Lights) : lightsConfig (reserve st m l) = lightsConfig l :=
  rfl

theorem lightsConfig_updZone (z : ZoneNo) (f : Zone → Zone) (l : Lights)
    (h : ∀ x, ((f x).low, (f x).mid, (f x).full, (f x).priority) = (x.low, x.mid, x.full, x.priority)) :
    lightsConfig (updZone z f l) = lightsConfig l := by
  simp only [lightsConfig, updZone]
  rw [map_modify (fun z : Zone => (z.low, z.mid, z.full, z.priority)) _ _ _ h]

@[simp] theorem lightsConfig_shedStep (l : Lights) : lightsConfig (shedStep l) = lightsConfig l := by
  unfold shedStep
  split
  · rfl
  · exact lightsConfig_updZone _ _ _ fun _ => rfl

@[simp] theorem lightsConfig_shedUntil (enough : Lights → Bool) (fuel : Nat) (l : Lights) :
    lightsConfig (shedUntil enough fuel l) = lightsConfig l := by
  induction fuel generalizing l with
  | zero => rfl
  | succ n ih =>
    unfold shedUntil
    split
    · rfl
    · rw [ih, lightsConfig_shedStep]

theorem lightsConfig_restoreStep (l l' : Lights) (h : restoreStep l = some l') : lightsConfig l' = lightsConfig l := by
  unfold restoreStep at h
  split at h
  · cases h
  · dsimp only at h
    split at h
    · cases h
      exact lightsConfig_updZone _ _ _ fun _ => rfl
    · cases h

@[simp] theorem lightsConfig_restoreSteps (fuel : Nat) (l : Lights) : lightsConfig (restoreSteps fuel l) = lightsConfig l := by
  induction fuel generalizing l with
  | zero => rfl
  | succ n ih =>
    unfold restoreSteps
    split
    · rfl
    · next h => rw [ih, lightsConfig_restoreStep _ _ h]

@[simp] theorem lightsConfig_waiting (l : Lights) (w : List (Station × Nat)) :
    lightsConfig { l with waiting := w } = lightsConfig l := rfl

theorem lightsConfig_admit (mains : MainsState) (st : Station) (m : Nat) (l l' : Lights) (shed : Bool)
    (h : admitLoad mains st m l = some (l', shed)) : lightsConfig l' = lightsConfig l := by
  unfold admitLoad at h
  split at h
  · cases h; rfl
  · split at h
    · cases h; simp
    · cases h

@[simp] theorem lightsConfig_applyWanted (scene : Option SceneNo) (l : Lights) :
    lightsConfig (applyWanted scene l) = lightsConfig l := by
  simp only [lightsConfig, applyWanted, Prod.mk.injEq, and_true]
  apply vector_ext_get
  intro i
  simp

@[simp] theorem tower_askAdmission (st : Station) (w : Bool) : towerView (askAdmission st w s).1 = towerView s := by
  unfold askAdmission
  split
  · next l shed h =>
    simp only
    rw [tower_updBell, tower_setFlagIf, tower_setLights_of s l (lightsConfig_admit _ _ _ _ _ _ h)] <;> intro _ <;> rfl
  · simp only
    split
    · exact tower_setLights_of _ _ rfl
    · rfl

@[simp] theorem tower_withdrawRequest (st : Station) : towerView (withdrawRequest st s) = towerView s := by
  unfold withdrawRequest
  rw [tower_updBell, tower_setLights_of] <;> first | rfl | (intro _; rfl)

@[simp] theorem tower_raiseNow (st : Station) : towerView (raiseNow st s) = towerView s := by simp [raiseNow]

@[simp] theorem tower_setReserving (st : Station) : towerView (setReserving st s) = towerView s := by
  unfold setReserving
  dsimp only
  split
  · rw [tower_startPolling]; exact tower_updBell _ _ _ (fun _ => rfl) fun _ => rfl
  · exact tower_updBell _ _ _ (fun _ => rfl) fun _ => rfl

@[simp] theorem tower_tellAdmitted (st : Station) : towerView (tellAdmitted st s) = towerView s := by
  unfold tellAdmitted
  split
  · rw [tower_raiseNow]; exact tower_updBell _ _ _ (fun _ => rfl) fun _ => rfl
  · exact tower_setReserving _ _

@[simp] theorem tower_retryOne (st : Station) (m : Nat) : towerView (retryOne st m s) = towerView s := by
  unfold retryOne
  split
  · rfl
  · next l shed h =>
    rw [tower_tellAdmitted, tower_setFlagIf]
    exact tower_setLights_of _ _ ((lightsConfig_waiting _ _).trans (lightsConfig_admit _ _ _ _ _ _ h))

@[simp] theorem tower_retryWaiting : towerView (retryWaiting s) = towerView s := by
  unfold retryWaiting
  split
  · exact foldl_view towerView _ (fun s (p : Station × Nat) => tower_retryOne s p.1 p.2) _ _
  · rfl

@[simp] theorem tower_restoration : towerView (restoration s) = towerView s := by
  unfold restoration
  split
  · exact tower_setLights_of _ _ (lightsConfig_restoreSteps _ _)
  · rfl

@[simp] theorem tower_loadFreed : towerView (loadFreed s) = towerView s := by simp [loadFreed]

@[simp] theorem tower_releaseLoad (st : Station) : towerView (releaseLoad st s) = towerView s := by
  unfold releaseLoad
  split
  · rw [tower_loadFreed, tower_setLights_of, tower_updBell] <;> first | rfl | (intro _; rfl)
  · rfl

@[simp] theorem tower_findWanted : towerView (findWanted s) = towerView s := by
  unfold findWanted
  dsimp only
  split
  · rfl
  · rw [tower_restoration]
    split
    · rw [tower_retryWaiting]; exact tower_setLights_of _ _ (lightsConfig_applyWanted _ _)
    · exact tower_setLights_of _ _ (lightsConfig_applyWanted _ _)

@[simp] theorem tower_setLit (lit : Vector Bool 128) : towerView (setLit lit s) = towerView s := by
  unfold setLit
  split
  · rfl
  · rw [tower_findWanted]; rfl

@[simp] theorem tower_knownDown (st : Station) : towerView (knownDown st s) = towerView s := by
  unfold knownDown
  rw [tower_releaseLoad]
  split <;> simp

@[simp] theorem tower_becomeDown (st : Station) : towerView (becomeDown st s) = towerView s := by simp [becomeDown]

@[simp] theorem tower_askMoving (st : Station) : towerView (askMoving st s) = towerView s := by
  unfold askMoving
  split <;> simp

@[simp] theorem tower_movedByHand (st : Station) : towerView (movedByHand st s) = towerView s := by
  unfold movedByHand
  rw [tower_orderLower, tower_askMoving, tower_updBell, tower_pealLeave, tower_faultEvent] <;> intro _ <;> rfl

/-! ### Peals, lanes and entries -/

@[simp] theorem tower_askRaise (st : Station) : towerView (askRaise st s) = towerView s := by
  unfold askRaise
  split
  · simp
  · have h := tower_askAdmission s st true
    generalize askAdmission st true s = r at h
    obtain ⟨s1, b⟩ := r
    cases b
    · refine Eq.trans ?_ h
      exact tower_updBell s1 _ _ (fun _ => rfl) fun _ => rfl
    · exact (tower_raiseNow _ _).trans h

@[simp] theorem tower_finishPeal (st : EntryState) : towerView (finishPeal st s) = towerView s := by
  unfold finishPeal
  rw [tower_endLane]; rfl

@[simp] theorem tower_endIfLowered (p : PealRun) : towerView (endIfLowered p s) = towerView s := by
  unfold endIfLowered
  split <;> simp

@[simp] theorem tower_beginLowering (p : PealRun) : towerView (beginLowering p s) = towerView s := by
  unfold beginLowering
  dsimp only
  rw [tower_endIfLowered, foldl_view towerView]
  · rfl
  · intro s st; split <;> simp

@[simp] theorem tower_settlePeal : towerView (settlePeal s) = towerView s := by
  unfold settlePeal
  split
  · rfl
  · split
    · split
      · simp
      · split <;> rfl
    · split <;> simp
    · simp

@[simp] theorem tower_takePeal (bells uncovered : BellSet) (minutes : Nat) :
    towerView (takePeal bells uncovered minutes s) = towerView s := by
  unfold takePeal
  dsimp only
  split
  · simp
  · rw [tower_settlePeal, foldl_view towerView _ (fun s st => tower_askRaise s st)]; rfl

@[simp] theorem tower_putDown (st : Station) : towerView (putDown st s) = towerView s := by
  unfold putDown
  dsimp only
  repeat' split
  all_goals simp

@[simp] theorem tower_cutPeal : towerView (cutPeal s) = towerView s := by
  unfold cutPeal
  split
  · rfl
  · rw [foldl_view towerView _ (fun s st => tower_putDown s st)]; rfl

@[simp] theorem tower_silencePeal (bells : BellSet) : towerView (silencePeal bells s) = towerView s := by
  unfold silencePeal
  split
  · rfl
  · dsimp only
    split
    · rfl
    · have h : ∀ xs, towerView (List.foldl (fun acc st => putDown st (pealLeave st acc)) s xs) = towerView s :=
        fun xs => foldl_view towerView _ (fun s st => by simp) xs s
      split
      · exact h _
      · split
        · rw [tower_finishPeal]; exact h _
        · rw [tower_settlePeal]; exact h _

@[simp] theorem tower_stopLane (lane : Lane) : towerView (stopLane lane s) = towerView s := by
  unfold stopLane
  split <;> simp

@[simp] theorem tower_releaseLane (lane : Lane) : towerView (releaseLane lane s) = towerView s := by
  unfold releaseLane
  split <;> simp

@[simp] theorem tower_releaseLanes : towerView (releaseLanes s) = towerView s :=
  foldl_view towerView _ (fun s lane => tower_releaseLane s lane) _ _

@[simp] theorem tower_cutLane (lane : Lane) : towerView (cutLane lane s) = towerView s := by
  unfold cutLane
  split <;> simp

@[simp] theorem tower_cutAllLanes : towerView (cutAllLanes s) = towerView s :=
  foldl_view towerView _ (fun s lane => tower_cutLane s lane) _ _

@[simp] theorem tower_startPlay (t : TuneNo) : towerView (startPlay t s) = towerView s :=
  tower_updTune _ _ _ fun _ => rfl

@[simp] theorem tower_takeTune (t : TuneNo) (plays : Nat) : towerView (takeTune t plays s) = towerView s := by
  simp [takeTune]

@[simp] theorem tower_takeStrike (tune : Option TuneNo) (bell : Station) (interval strokes : Nat) :
    towerView (takeStrike tune bell interval strokes s) = towerView s := by
  unfold takeStrike
  split
  · simp
  · split <;> simp

@[simp] theorem tower_takeToll (bell : Station) (interval strokes : Nat) :
    towerView (takeToll bell interval strokes s) = towerView s := by
  simp [takeToll]

@[simp] theorem tower_perform (e : Entry) : towerView (perform e s) = towerView s := by
  unfold perform
  split <;> simp

@[simp] theorem tower_activate (lane : Lane) (e : Entry) : towerView (activate lane e s) = towerView s := by
  unfold activate
  dsimp only
  rw [tower_perform, tower_lanes, tower_setLane, tower_updToday]

@[simp] theorem tower_examine (lane : Lane) (ks : List Key) : towerView (examine lane ks s) = towerView s := by
  induction ks generalizing s with
  | nil => rfl
  | cons k ks ih =>
    unfold examine
    split
    · exact ih s
    · split
      · exact ih s
      · split
        · rw [ih, tower_finalise]
        · simp

@[simp] theorem tower_lookFor (lane : Lane) : towerView (lookFor lane s) = towerView s := tower_examine _ _ _

@[simp] theorem tower_lightEffect (k : Key) : towerView (lightEffect k s) = towerView s := by
  unfold lightEffect
  repeat' split
  all_goals simp

@[simp] theorem tower_recomputeLit : towerView (recomputeLit s) = towerView s := tower_setLit _ _

@[simp] theorem tower_soundingDue (e : Entry) : towerView (soundingDue e s) = towerView s := by
  unfold soundingDue
  repeat' split
  all_goals simp

@[simp] theorem tower_becomeDue (e : Entry) : towerView (becomeDue e s) = towerView s := by
  unfold becomeDue
  dsimp only
  split
  · simp
  · split <;> simp
  all_goals simp

@[simp] theorem tower_becomeDueAll (ks : List Key) : towerView (becomeDueAll ks s) = towerView s := by
  induction ks generalizing s with
  | nil => rfl
  | cons k ks ih =>
    unfold becomeDueAll
    split
    · exact ih s
    · rw [ih]; split <;> simp

@[simp] theorem tower_fallDueNow : towerView (fallDueNow s) = towerView s := tower_becomeDueAll _ _

end Sys2Proof.Machine
end

