-- ==== Sys2Proof/Laws/Bells.lean ====
section
/-! SUPPORT. The bell table and the order queue: what each operation on one bell leaves of the others, of the line and of the supply
account, and what becomes of the bell itself (R115 to R124, R154). -/

namespace Sys2Proof.Machine

/-! ### What the end of an entry and the answer to a stroke leave alone -/

/-- What the end of an entry and the answer to a stroke leave alone, beside the tower view. -/
def workView (s : State) : Vector Bell 31 × Line × Lights × Option PealRun × Nat × MainsState × Overrides :=
  (s.bells, s.line, s.lights, s.peal, s.elapsed, s.mains, s.overrides)

@[simp] theorem work_finalise (k : Key) (st : EntryState) (s : State) : workView (finalise k st s) = workView s := by
  unfold finalise
  split
  · rfl
  · simp only [spentCheck, conclude, writeOutcome, setFlagIf]
    repeat' split
    all_goals rfl

@[simp] theorem work_finaliseAll (ks : List Key) (st : EntryState) (s : State) :
    workView (finaliseAll ks st s) = workView s := foldl_view workView _ (fun s k => work_finalise k st s) _ _

@[simp] theorem work_setLane (lane : Lane) (k : Option Key) (s : State) : workView (setLane lane k s) = workView s := by
  cases lane <;> rfl

@[simp] theorem work_endLane (lane : Lane) (st : EntryState) (s : State) : workView (endLane lane st s) = workView s := by
  unfold endLane
  split <;> simp

@[simp] theorem work_answerStroke (who : Requester) (sent : Bool) (s : State) :
    workView (answerStroke who sent s) = workView s := by
  unfold answerStroke
  repeat' split
  all_goals first
    | rfl
    | (simp only [answerToll, answerHour]; split <;> first | rfl | (rw [work_endLane]; rfl))

@[simp] theorem work_strikeLost (o : Order) (s : State) : workView (strikeLost o s) = workView s := by
  unfold strikeLost
  split <;> simp

@[simp] theorem work_strikesLost (os : List Order) (s : State) : workView (strikesLost os s) = workView s :=
  foldl_view workView _ (fun s o => work_strikeLost o s) _ _

/-- The parts of the work view. -/
theorem work_parts {s t : State} (h : workView t = workView s) :
    t.bells = s.bells ∧ t.line = s.line ∧ t.lights = s.lights ∧ t.peal = s.peal ∧ t.elapsed = s.elapsed ∧
      t.mains = s.mains ∧ t.overrides = s.overrides := by
  simpa [workView] using h

/-! ### Orders -/

theorem outstanding_line {s t : State} (h : t.line = s.line) (st : Station) : outstanding t st = outstanding s st := by
  simp [outstanding, h]

/-- An order placed at the tail is outstanding where none was, and leaves every other bell's orders. -/
theorem outstanding_placeOrder (o : Order) (s : State) (st : Station) :
    outstanding (placeOrder o s) st
      = (outstanding s st).or (if o.station = st then o.swing? else none) := by
  have h : ownOrder (placeOrder o s).line = ownOrder s.line := rfl
  simp only [outstanding, h]
  have h2 : (placeOrder o s).line.queue = s.line.queue ++ [o] := rfl
  rw [h2, ← List.append_assoc, List.findSome?_append]
  congr 1
  simp only [List.findSome?_cons, List.findSome?_nil]
  generalize (if o.station = st then o.swing? else none) = x
  cases x <;> rfl

theorem findSome_filter {α β : Type} (xs : List α) (f : α → Option β) (p : α → Bool)
    (h : ∀ x ∈ xs, p x = false → f x = none) : (xs.filter p).findSome? f = xs.findSome? f := by
  induction xs with
  | nil => rfl
  | cons x xs ih =>
    have ih := ih fun y hy => h y (List.mem_cons_of_mem _ hy)
    by_cases hp : p x = true
    · rw [List.filter_cons, if_pos hp, List.findSome?_cons, List.findSome?_cons, ih]
    · have hp : p x = false := by simpa using hp
      rw [List.filter_cons, if_neg (by simp [hp]), List.findSome?_cons, h x (List.mem_cons_self ..) hp, ih]

theorem swing_strike {o : Order} (h : o.isStrike = true) : o.swing? = none := by
  cases o with
  | mk a b c d => cases b <;> simp_all [Order.isStrike, Order.swing?]

/-- Withdrawing strikes leaves every swing order. -/
theorem outstanding_withdrawStrikes (u st : Station) (s : State) :
    outstanding (withdrawStrikes u s) st = outstanding s st := by
  unfold withdrawStrikes
  dsimp only
  rw [outstanding_line (work_parts (work_strikesLost _ _)).2.1]
  have h : ∀ q, ownOrder ({ s.line with queue := q } : Line) = ownOrder s.line := fun _ => rfl
  simp only [outstanding, updLine_line, h, List.findSome?_append]
  congr 1
  apply findSome_filter
  intro o _ ho
  have : o.isStrike = true := by simp at ho; exact ho.2
  simp [swing_strike this]

/-! ### One bell and the rest -/

/-- What work on the bell st leaves of the rest: every other bell and its orders, the supply account, the line but for its queue,
the moment, the mains state and the overrides. -/
structure OnlyBell (st : Station) (s t : State) : Prop where
  others : ∀ u, u ≠ st → getBell t u = getBell s u
  orders : ∀ u, u ≠ st → outstanding t u = outstanding s u
  lights : t.lights = s.lights
  line : ({ t.line with queue := [] } : Line) = { s.line with queue := [] }
  elapsed : t.elapsed = s.elapsed
  mains : t.mains = s.mains
  overrides : t.overrides = s.overrides

theorem OnlyBell.refl (st : Station) (s : State) : OnlyBell st s s :=
  ⟨fun _ _ => rfl, fun _ _ => rfl, rfl, rfl, rfl, rfl, rfl⟩

theorem OnlyBell.trans {st : Station} {r s t : State} (h : OnlyBell st r s) (g : OnlyBell st s t) : OnlyBell st r t :=
  ⟨fun u hu => (g.others u hu).trans (h.others u hu), fun u hu => (g.orders u hu).trans (h.orders u hu),
    g.lights.trans h.lights, g.line.trans h.line, g.elapsed.trans h.elapsed, g.mains.trans h.mains,
    g.overrides.trans h.overrides⟩

variable {st : Station} {r s : State}

theorem only_work {t : State} (h : OnlyBell st r s) (hw : workView t = workView s) : OnlyBell st r t := by
  obtain ⟨h1, h2, h3, _, h5, h6, h7⟩ := work_parts hw
  exact h.trans ⟨fun u _ => by simp [getBell, h1], fun u _ => outstanding_line h2 u, h3, by rw [h2], h5, h6, h7⟩

theorem only_updBell (h : OnlyBell st r s) (f : Bell → Bell) : OnlyBell st r (updBell st f s) :=
  h.trans ⟨fun u hu => by simp [getBell, Ne.symm hu], fun _ _ => rfl, rfl, rfl, rfl, rfl, rfl⟩

theorem only_placeOrder (h : OnlyBell st r s) (o : Order) (ho : o.station = st) : OnlyBell st r (placeOrder o s) :=
  h.trans
    ⟨fun _ _ => rfl, fun u hu => by
      rw [outstanding_placeOrder, if_neg (by rw [ho]; exact Ne.symm hu)]; cases outstanding s u <;> rfl,
      rfl, rfl, rfl, rfl, rfl⟩

theorem only_withdrawStrikes (h : OnlyBell st r s) : OnlyBell st r (withdrawStrikes st s) := by
  have hw := work_strikesLost (s.line.queue.filter fun o => o.station == st && o.isStrike)
    (updLine (fun l => { l with queue := l.queue.filter fun o => !(o.station == st && o.isStrike) }) s)
  obtain ⟨h1, h2, h3, _, h5, h6, h7⟩ := work_parts hw
  refine h.trans ⟨fun u _ => ?_, fun u _ => outstanding_withdrawStrikes st u s, h3, ?_, h5, h6, h7⟩
  · unfold withdrawStrikes; dsimp only; simp only [getBell, h1]; rfl
  · unfold withdrawStrikes; dsimp only; rw [h2]; rfl

theorem only_loseDeferred (h : OnlyBell st r s) : OnlyBell st r (loseDeferred st s) := by
  unfold loseDeferred
  exact only_work (only_updBell h _) (foldl_view workView _ (fun s d => work_answerStroke _ _ s) _ _)

theorem only_checkStrikable (h : OnlyBell st r s) : OnlyBell st r (checkStrikable st s) := by
  unfold checkStrikable
  split
  · exact h
  · exact only_withdrawStrikes (only_loseDeferred h)

theorem only_makeOrder (h : OnlyBell st r s) (k : SwingOrder) : OnlyBell st r (makeOrder st k s) := by
  unfold makeOrder
  repeat' split
  · exact h
  · exact only_placeOrder h _ rfl
  · exact only_updBell h _

theorem only_pollNow (h : OnlyBell st r s) : OnlyBell st r (pollNow st s) := by
  unfold pollNow
  split
  · exact only_makeOrder h _
  · exact h

theorem only_startPolling (h : OnlyBell st r s) : OnlyBell st r (startPolling st s) := by
  unfold startPolling
  split
  · exact only_updBell h _
  · split
    · unfold firstQuery
      split
      · exact only_makeOrder (only_updBell h _) _
      · exact only_pollNow (only_updBell h _)
    · dsimp only
      split
      · exact only_makeOrder (only_updBell h _) _
      · exact only_updBell h _

theorem only_enterPosition (h : OnlyBell st r s) (pos : Position) : OnlyBell st r (enterPosition st pos s) :=
  only_startPolling (only_checkStrikable (only_updBell h _))

theorem only_orderLower (h : OnlyBell st r s) : OnlyBell st r (orderLower st s) := only_enterPosition (only_makeOrder h _) _

theorem only_faultEvent (h : OnlyBell st r s) : OnlyBell st r (faultEvent st s) :=
  (only_updBell h _).trans ⟨fun _ _ => rfl, fun _ _ => rfl, rfl, rfl, rfl, rfl, rfl⟩

theorem only_pealLeave (h : OnlyBell st r s) (u : Station) : OnlyBell st r (pealLeave u s) := by
  unfold pealLeave
  repeat' split
  all_goals first | exact h | exact h.trans ⟨fun _ _ => rfl, fun _ _ => rfl, rfl, rfl, rfl, rfl, rfl⟩

theorem only_becomeFault (h : OnlyBell st r s) : OnlyBell st r (becomeFault st s) :=
  only_enterPosition (only_pealLeave (only_faultEvent h) _) _

theorem only_raiseFailed (h : OnlyBell st r s) : OnlyBell st r (raiseFailed st s) :=
  only_orderLower (only_pealLeave (only_faultEvent h) _)

theorem only_becomeUnsure (h : OnlyBell st r s) : OnlyBell st r (becomeUnsure st s) := only_enterPosition h _

/-! ### The bell itself -/

/-- A bell but for its owed order, its deferred strokes and the time of its next poll. -/
def bellCore (b : Bell) : Bell := { b with owed := none, deferred := [], nextPoll := none }

theorem getBell_updBell_self (f : Bell → Bell) : getBell (updBell st f s) st = f (getBell s st) := by simp [getBell]

theorem bellCore_makeOrder (k : SwingOrder) : bellCore (getBell (makeOrder st k s) st) = bellCore (getBell s st) := by
  unfold makeOrder
  repeat' split
  · rfl
  · rfl
  · simp [owe, getBell_updBell_self, bellCore]

theorem bellCore_pollNow : bellCore (getBell (pollNow st s) st) = bellCore (getBell s st) := by
  unfold pollNow
  split
  · exact bellCore_makeOrder _
  · rfl

theorem bellCore_startPolling : bellCore (getBell (startPolling st s) st) = bellCore (getBell s st) := by
  unfold startPolling
  split
  · simp [getBell_updBell_self, bellCore]
  · split
    · unfold firstQuery
      split
      · rw [bellCore_makeOrder]; simp [getBell_updBell_self, bellCore]
      · rw [bellCore_pollNow]; simp [getBell_updBell_self, bellCore]
    · dsimp only
      split
      · rw [bellCore_makeOrder]; simp [getBell_updBell_self, bellCore]
      · simp [getBell_updBell_self, bellCore]

theorem getBell_withdrawStrikes (u st : Station) : getBell (withdrawStrikes u s) st = getBell s st := by
  unfold withdrawStrikes
  dsimp only
  simp only [getBell, (work_parts (work_strikesLost _ _)).1]
  rfl

theorem getBell_loseDeferred : getBell (loseDeferred st s) st = { getBell s st with deferred := [] } := by
  have h : ∀ (ds : List Deferred) (t : State),
      getBell (ds.foldl (fun acc d => answerStroke d.requester false acc) t) st = getBell t st := by
    intro ds t
    simp only [getBell, (work_parts (foldl_view workView (fun acc (d : Deferred) => answerStroke d.requester false acc)
      (fun s d => work_answerStroke _ _ s) ds t)).1]
  unfold loseDeferred
  dsimp only
  rw [h, getBell_updBell_self]

theorem bellCore_checkStrikable : bellCore (getBell (checkStrikable st s) st) = bellCore (getBell s st) := by
  unfold checkStrikable
  split
  · rfl
  · rw [getBell_withdrawStrikes, getBell_loseDeferred]; rfl

/-- A bell that enters a position state, but for its orders, its deferred strokes and its next poll. -/
theorem bellCore_enterPosition (pos : Position) :
    bellCore (getBell (enterPosition st pos s) st) = bellCore (positionFields pos s.elapsed (getBell s st)) := by
  unfold enterPosition
  rw [bellCore_startPolling, bellCore_checkStrikable, getBell_updBell_self]

theorem bellCore_orderLower :
    bellCore (getBell (orderLower st s) st) = bellCore (positionFields .lowering s.elapsed (getBell s st)) := by
  unfold orderLower
  rw [bellCore_enterPosition]
  have h := bellCore_makeOrder (st := st) (s := s) .lower
  have he : (makeOrder st .lower s).elapsed = s.elapsed := (only_makeOrder (OnlyBell.refl st s) _).elapsed
  rw [he]
  simp only [bellCore, Bell.mk.injEq] at h
  simp [bellCore, positionFields, h]

/-! ### The order a bell has -/

/-- A bell's order: outstanding, or owed. -/
def hasOrder (s : State) (st : Station) (k : SwingOrder) : Prop :=
  outstanding s st = some k ∨ (getBell s st).owed = some k

/-- A RAISE, LOWER or HALT that is made is outstanding or owed. -/
theorem hasOrder_makeOrder (k : SwingOrder) (hk : k ≠ .query) : hasOrder (makeOrder st k s) st k := by
  unfold makeOrder
  rw [if_neg (by simp [hk])]
  split
  · next h =>
    left
    rw [outstanding_placeOrder, h.2.1]
    simp [swingOrder, Order.swing?]
  · right
    simp only [owe, getBell_updBell_self]
    cases (getBell s st).owed <;> cases k <;> simp_all [settleOwed]

/-- A QUERY that is made is outstanding, or the bell owes an order. -/
theorem query_makeOrder :
    outstanding (makeOrder st .query s) st = some .query ∨ (getBell (makeOrder st .query s) st).owed.isSome = true := by
  unfold makeOrder
  split
  · next h => exact .inl h.2
  · split
    · next h =>
      left
      rw [outstanding_placeOrder, h.2.1]
      simp [swingOrder, Order.swing?]
    · right
      simp only [owe, getBell_updBell_self]
      cases (getBell s st).owed <;> first | rfl | (rename_i x; cases x <;> rfl)

theorem owed_checkStrikable : (getBell (checkStrikable st s) st).owed = (getBell s st).owed := by
  unfold checkStrikable
  split
  · rfl
  · rw [getBell_withdrawStrikes, getBell_loseDeferred]

theorem outstanding_checkStrikable (u : Station) : outstanding (checkStrikable st s) u = outstanding s u := by
  unfold checkStrikable
  split
  · rfl
  · rw [outstanding_withdrawStrikes]
    unfold loseDeferred
    exact outstanding_line
      (work_parts (foldl_view workView _ (fun s d => work_answerStroke _ _ s) _ _)).2.1 u

/-- A bell that has an order is not polled on entering a state, unless it becomes UNSURE: the order stays as it is. -/
theorem hasOrder_enterPosition (pos : Position) (hp : pos ≠ .unsure) (k : SwingOrder) (h : hasOrder s st k) :
    hasOrder (enterPosition st pos s) st k := by
  have h1 : hasOrder (checkStrikable st (updBell st (positionFields pos s.elapsed) s)) st k := by
    unfold hasOrder
    rw [outstanding_checkStrikable, owed_checkStrikable, getBell_updBell_self]
    exact h
  have h2 : ∀ t, bellCore (getBell t st) = bellCore (positionFields pos s.elapsed (getBell s st)) → (getBell t st).pos = pos := by
    intro t ht
    simp only [bellCore, positionFields, Bell.mk.injEq] at ht
    simp [ht]
  have h3 := h2 (checkStrikable st (updBell st (positionFields pos s.elapsed) s)) (by rw [bellCore_checkStrikable, getBell_updBell_self])
  unfold enterPosition
  revert h1 h3
  generalize checkStrikable st (updBell st (positionFields pos s.elapsed) s) = t
  intro h1 h3
  unfold startPolling
  have hu : ∀ x, hasOrder (updBell st (fun b => { b with nextPoll := x }) t) st k := by
    intro x
    unfold hasOrder
    rw [getBell_updBell_self]
    exact h1
  split
  · exact hu _
  · next i _ =>
    have hpos : ∀ x, (getBell (updBell st (fun b => { b with nextPoll := x }) t) st).pos ≠ .unsure := by
      intro x; rw [getBell_updBell_self]; simp [h3, hp]
    split
    · unfold firstQuery
      rw [if_neg (hpos _)]
      unfold pollNow
      rw [if_neg]
      · exact hu _
      · intro hh
        rcases hu (some (t.elapsed + i)) with h | h
        · rw [hh.1] at h; cases h
        · rw [hh.2] at h; cases h
    · dsimp only
      rw [if_neg (by rw [h3]; exact hp)]
      exact hu _

theorem hasOrder_orderLower : hasOrder (orderLower st s) st .lower :=
  hasOrder_enterPosition _ (by simp) _ (hasOrder_makeOrder _ (by simp))

/-- A present AUTOMATIC bell that becomes UNSURE is queried. -/
theorem query_becomeUnsure (hp : (getBell s st).present = true) (hc : (getBell s st).ctrl = .automatic) :
    outstanding (becomeUnsure st s) st = some .query ∨ (getBell (becomeUnsure st s) st).owed.isSome = true := by
  have h1 := bellCore_checkStrikable (st := st) (s := updBell st (positionFields .unsure s.elapsed) s)
  rw [getBell_updBell_self] at h1
  simp only [becomeUnsure, enterPosition]
  revert h1
  generalize checkStrikable st (updBell st (positionFields .unsure s.elapsed) s) = t
  intro h1
  simp only [bellCore, positionFields, Bell.mk.injEq] at h1
  have hpoll : pollInterval (getBell t st) = some 10000 := by
    simp [pollInterval, h1, hp, hc]
  unfold startPolling
  rw [hpoll]
  dsimp only
  split
  · unfold firstQuery
    rw [if_pos (by rw [getBell_updBell_self]; simp [h1])]
    exact query_makeOrder
  · rw [if_pos h1.2.2.2.2.2.2.2.2.1]
    exact query_makeOrder

/-! ### The running peal goes on -/

/-- Going on with the peal leaves every bell, the line and the account as they were: the peal passes to its lowering phase from here
only where no held bell is UP. -/
theorem rest_settlePeal (s : State) :
    (settlePeal s).bells = s.bells ∧ (settlePeal s).line = s.line ∧ (settlePeal s).lights = s.lights ∧
      (settlePeal s).overrides = s.overrides := by
  have hfin : ∀ st (t : State), (finishPeal st t).bells = t.bells ∧ (finishPeal st t).line = t.line ∧
      (finishPeal st t).lights = t.lights ∧ (finishPeal st t).overrides = t.overrides := by
    intro st t
    obtain ⟨h1, h2, h3, _, _, _, h7⟩ := work_parts (work_endLane .peal st { t with peal := none })
    exact ⟨h1, h2, h3, h7⟩
  have hend : ∀ p (t : State), (endIfLowered p t).bells = t.bells ∧ (endIfLowered p t).line = t.line ∧
      (endIfLowered p t).lights = t.lights ∧ (endIfLowered p t).overrides = t.overrides := by
    intro p t
    unfold endIfLowered
    split
    · exact hfin _ _
    · exact ⟨rfl, rfl, rfl, rfl⟩
  have hfold : ∀ (xs : List Station) (t : State), (∀ x ∈ xs, (getBell t x).pos ≠ .up) →
      xs.foldl (fun acc st => if (getBell acc st).pos = .up then orderLower st acc else acc) t = t := by
    intro xs
    induction xs with
    | nil => intro t _; rfl
    | cons x xs ih =>
      intro t h
      simp only [List.foldl_cons]
      rw [if_neg (h x (List.mem_cons_self ..))]
      exact ih t fun y hy => h y (List.mem_cons_of_mem _ hy)
  have hlow : ∀ (p : PealRun), (∀ x ∈ p.held, (getBell s x).pos ≠ .up) → (beginLowering p s).bells = s.bells ∧
      (beginLowering p s).line = s.line ∧ (beginLowering p s).lights = s.lights ∧
      (beginLowering p s).overrides = s.overrides := by
    intro p h
    unfold beginLowering
    dsimp only
    rw [hfold]
    · exact hend _ _
    · exact h
  unfold settlePeal
  split
  · exact ⟨rfl, rfl, rfl, rfl⟩
  · next p _ =>
    split
    · split
      · next h => exact hlow p (by simp [h])
      · split
        · exact ⟨rfl, rfl, rfl, rfl⟩
        · exact ⟨rfl, rfl, rfl, rfl⟩
    · split
      · exact ⟨rfl, rfl, rfl, rfl⟩
      · next h => exact hlow p (by simpa using h)
    · exact hend _ _

end Sys2Proof.Machine
end

