-- ==== Sys2Proof/Laws/Calendar.lean ====
section
/-! SUPPORT. The calendar arithmetic (R47, R48): day numbers rise with dates, a day number converts back to its date, and a date to its
day number. -/

namespace Sys2Proof.Machine

/-! ### Years -/

theorem dayNumber_first (y : Nat) : dayNumber y 1 1 = 365 * (y - 2000) + leapsBefore y := by
  simp [dayNumber, dayOfYear, daysBefore]

theorem leapsBefore_le (y : Nat) : leapsBefore y ≤ y - 2000 := by unfold leapsBefore; split <;> omega

theorem leapsBefore_mono {a b : Nat} (h : a ≤ b) : leapsBefore a ≤ leapsBefore b := by
  unfold leapsBefore; split <;> split <;> omega

theorem dayNumber_first_mono {a b : Nat} (h : a ≤ b) : dayNumber a 1 1 ≤ dayNumber b 1 1 := by
  have := leapsBefore_mono h
  rw [dayNumber_first, dayNumber_first]; omega

theorem dayNumber_2400 : dayNumber 2400 1 1 = 146097 := by decide

theorem isLeap_iff (y : Nat) : isLeap y = true ↔ (y % 4 = 0 ∧ y % 100 ≠ 0) ∨ y % 400 = 0 := by simp [isLeap]

/-- A year has 365 days, and one more in a leap year (R47). -/
theorem dayNumber_next_year {y : Nat} (h : 2000 ≤ y) :
    dayNumber (y + 1) 1 1 = dayNumber y 1 1 + 365 + (if isLeap y then 1 else 0) := by
  have hl : leapsBefore (y + 1) = leapsBefore y + (if isLeap y then 1 else 0) := by
    have hz := isLeap_iff y
    unfold leapsBefore
    rw [if_neg (show ¬ y + 1 ≤ 2000 by omega), Nat.add_sub_cancel]
    obtain rfl | hy := Nat.eq_or_lt_of_le h
    · decide
    · rw [if_neg (show ¬ y ≤ 2000 by omega)]
      by_cases hc : isLeap y = true
      · rw [if_pos hc]; rw [hc] at hz; replace hz := hz.1 rfl; omega
      · rw [if_neg hc]; replace hz := mt hz.2 hc; omega
  rw [dayNumber_first, dayNumber_first, hl]; omega

theorem yearFrom_le {n : Nat} (f y : Nat) (h : dayNumber y 1 1 ≤ n) : dayNumber (yearFrom f y n) 1 1 ≤ n := by
  induction f generalizing y with
  | zero => exact h
  | succ f ih =>
    rw [yearFrom]
    split
    · exact ih _ (by assumption)
    · exact h

theorem lt_yearFrom {n : Nat} (f y : Nat) (h : n < dayNumber (y + f + 1) 1 1) : n < dayNumber (yearFrom f y n + 1) 1 1 := by
  induction f generalizing y with
  | zero => exact h
  | succ f ih =>
    rw [yearFrom]
    split
    · exact ih _ (by rwa [show y + 1 + f + 1 = y + (f + 1) + 1 by omega])
    · omega

theorem le_yearFrom {n : Nat} (f y : Nat) : y ≤ yearFrom f y n := by
  induction f generalizing y with
  | zero => exact Nat.le_refl y
  | succ f ih =>
    rw [yearFrom]
    split
    · exact Nat.le_trans (Nat.le_succ y) (ih _)
    · exact Nat.le_refl y

/-- The year of a day number is the one whose days hold it (R47). -/
theorem yearOf_spec {n : Nat} (h : n < 146097) :
    2000 ≤ yearOf n ∧ yearOf n ≤ 2399 ∧ dayNumber (yearOf n) 1 1 ≤ n ∧ n < dayNumber (yearOf n + 1) 1 1 := by
  have h1 : dayNumber (2000 + n / 366) 1 1 ≤ n := by
    have := leapsBefore_le (2000 + n / 366)
    rw [dayNumber_first]; omega
  have h2 : n < dayNumber (2000 + n / 366 + 400 + 1) 1 1 := by rw [dayNumber_first]; omega
  have h3 : dayNumber (yearOf n) 1 1 ≤ n := yearFrom_le 400 _ h1
  refine ⟨Nat.le_trans (Nat.le_add_right _ _) (le_yearFrom 400 _), ?_, h3, lt_yearFrom 400 _ h2⟩
  by_contra hc
  have := dayNumber_first_mono (show 2400 ≤ yearOf n by omega)
  rw [dayNumber_2400] at this; omega

/-- Just one year's days hold a day number. -/
theorem yearOf_unique {n y : Nat} (h : n < 146097) (h1 : dayNumber y 1 1 ≤ n) (h2 : n < dayNumber (y + 1) 1 1) :
    yearOf n = y := by
  obtain ⟨-, -, h3, h4⟩ := yearOf_spec h
  rcases Nat.lt_trichotomy (yearOf n) y with hc | hc | hc
  · have := dayNumber_first_mono (show yearOf n + 1 ≤ y from hc); omega
  · exact hc
  · have := dayNumber_first_mono (show y + 1 ≤ yearOf n from hc); omega

/-! ### Months and days -/

/-- The first day of a month, from the first of its year (R47); month 13 is the next year's first. -/
theorem dayNumber_month (y m : Nat) (h : 1 ≤ m) :
    dayNumber y m 1 = dayNumber y 1 1 + daysBefore m + (if 3 ≤ m ∧ isLeap y then 1 else 0) := by
  simp only [dayNumber, dayOfYear, daysBefore]; split <;> simp <;> omega

theorem dayNumber_day (y m d : Nat) (h : 1 ≤ d) : dayNumber y m d = dayNumber y m 1 + (d - 1) := by
  simp only [dayNumber, dayOfYear]; omega

theorem dayNumber_thirteen {y : Nat} (h : 2000 ≤ y) : dayNumber y 13 1 = dayNumber (y + 1) 1 1 := by
  rw [dayNumber_month y 13 (by decide), dayNumber_next_year h]; simp [daysBefore]

/-- A month's first day and its length give the next month's first day. -/
theorem dayNumber_next_month (y m : Nat) (h : 1 ≤ m) (h' : m ≤ 12) :
    dayNumber y (m + 1) 1 = dayNumber y m 1 + monthLength y m := by
  rw [dayNumber_month y (m + 1) (by omega), dayNumber_month y m h]
  interval_cases m <;> simp [monthLength, daysBefore] <;> split <;> simp_all

theorem dayNumber_month_mono {y a b : Nat} (ha : 1 ≤ a) (h : a ≤ b) (hb : b ≤ 13) : dayNumber y a 1 ≤ dayNumber y b 1 := by
  induction b, h using Nat.le_induction with
  | base => exact Nat.le_refl _
  | succ n hn ih =>
    have := dayNumber_next_month y n (by omega) (by omega)
    have := ih (by omega)
    omega

theorem monthFrom_spec {y n : Nat} (f m : Nat) (h : dayNumber y m 1 ≤ n) (h' : n < dayNumber y (m + f + 1) 1) :
    m ≤ monthFrom f y m n ∧ monthFrom f y m n ≤ m + f ∧ dayNumber y (monthFrom f y m n) 1 ≤ n ∧
      n < dayNumber y (monthFrom f y m n + 1) 1 := by
  induction f generalizing m with
  | zero => exact ⟨Nat.le_refl _, Nat.le_refl _, h, h'⟩
  | succ f ih =>
    rw [monthFrom]
    split
    · obtain ⟨a, b, c, d⟩ := ih (m + 1) (by assumption) (by rwa [show m + 1 + f + 1 = m + (f + 1) + 1 by omega])
      exact ⟨by omega, by omega, c, d⟩
    · exact ⟨by omega, by omega, h, by omega⟩

/-- A day number converts back to a date of the supported range, and that date has this day number (R47). -/
theorem date_of_dayNumber {n : Nat} (h : n < 146097) :
    validDate (yearOf n) (monthOf n) (dayOf n) = true ∧ dayNumber (yearOf n) (monthOf n) (dayOf n) = n := by
  obtain ⟨h1, h2, h3, h4⟩ := yearOf_spec h
  obtain ⟨a, b, c, d⟩ := monthFrom_spec (y := yearOf n) 11 1 h3 (by rwa [dayNumber_thirteen h1])
  change 1 ≤ monthOf n at a
  change monthOf n ≤ 12 at b
  change dayNumber (yearOf n) (monthOf n) 1 ≤ n at c
  change n < dayNumber (yearOf n) (monthOf n + 1) 1 at d
  have hm := dayNumber_next_month (yearOf n) (monthOf n) a b
  have hd : dayOf n = n - dayNumber (yearOf n) (monthOf n) 1 + 1 := rfl
  refine ⟨?_, ?_⟩
  · simp only [validDate, Bool.and_eq_true, decide_eq_true_eq]; omega
  · rw [dayNumber_day _ _ _ (by omega)]; omega

/-- The day number of a date of the supported range is in the range, and converts back to that date (R47). -/
theorem dayNumber_of_date {y m d : Nat} (h : validDate y m d = true) :
    dayNumber y m d < 146097 ∧ yearOf (dayNumber y m d) = y ∧ monthOf (dayNumber y m d) = m ∧ dayOf (dayNumber y m d) = d := by
  simp only [validDate, Bool.and_eq_true, decide_eq_true_eq] at h
  obtain ⟨⟨⟨⟨⟨hy, hy'⟩, hm⟩, hm'⟩, hd⟩, hd'⟩ := h
  have hn := dayNumber_day y m d hd
  have hnext := dayNumber_next_month y m hm hm'
  have hlo := dayNumber_month_mono (y := y) (Nat.le_refl 1) hm (by omega)
  have hhi := dayNumber_month_mono (y := y) (show 1 ≤ m + 1 by omega) (show m + 1 ≤ 13 by omega) (Nat.le_refl _)
  rw [dayNumber_thirteen hy] at hhi
  have htop := dayNumber_first_mono (show y + 1 ≤ 2400 by omega)
  rw [dayNumber_2400] at htop
  have hlt : dayNumber y m d < 146097 := by omega
  have hyear := yearOf_unique hlt (show dayNumber y 1 1 ≤ _ by omega) (by omega)
  obtain ⟨a, b, c, e⟩ := monthFrom_spec (y := y) (n := dayNumber y m d) 11 1 (by omega) (by rw [dayNumber_thirteen hy]; omega)
  have hmonth : monthOf (dayNumber y m d) = m := by
    unfold monthOf
    rw [hyear]
    generalize monthFrom 11 y 1 (dayNumber y m d) = k at *
    rcases Nat.lt_trichotomy k m with hc | hc | hc
    · have := dayNumber_month_mono (y := y) (show 1 ≤ k + 1 by omega) (show k + 1 ≤ m from hc) (by omega); omega
    · exact hc
    · have := dayNumber_month_mono (y := y) (show 1 ≤ m + 1 by omega) (show m + 1 ≤ k from hc) (by omega); omega
  refine ⟨hlt, hyear, hmonth, ?_⟩
  unfold dayOf
  rw [hyear, hmonth]; omega

/-! ### Weekdays -/

/-- The on-or-after day is the one of its weekday within a week from the anchor (R51). -/
theorem onOrAfter_iff {w anchor D : Nat} (h : w ≤ 6) :
    D = onOrAfter w anchor ↔ weekday D = w ∧ anchor ≤ D ∧ D < anchor + 7 := by
  unfold onOrAfter weekday; omega

/-- The on-or-before day is the one of its weekday within a week up to the anchor (R51). -/
theorem onOrBefore_iff {w anchor D : Nat} (h : w ≤ 6) :
    (D : Int) = onOrBefore w anchor ↔ weekday D = w ∧ D ≤ anchor ∧ anchor < D + 7 := by
  unfold onOrBefore weekday; omega

end Sys2Proof.Machine
end

