-- ==== Sys2Proof/Laws/Keeps.lean ====
section
/-! SUPPORT. The laws of the account and of the sheets through every piece of work in the tower: one lemma per operation, each
saying that a state reached by it keeps the law of the lighting unit, the law of the reservations and the law of open entries. -/

namespace Sys2Proof.Machine

/-- From r on, the three laws have been kept. -/
structure Keeps (r t : State) : Prop where
  light : lightLaw r → lightLaw t
  reserv : reservLaw r → reservLaw t
  opens : openLaw r → openLaw t

theorem Keeps.refl (r : State) : Keeps r r := ⟨id, id, id⟩

theorem Keeps.trans {r s t : State} (h : Keeps r s) (h2 : Keeps s t) : Keeps r t :=
  ⟨fun x => h2.light (h.light x), fun x => h2.reserv (h.reserv x), fun x => h2.opens (h.opens x)⟩

/-- What the three laws read of a state. -/
def lawView (s : State) : Lights × Vector Bool 31 × Vector SlotState 128 × List Entry × List Entry :=
  (s.lights, s.bells.map Bell.reserving, s.table.slots.map Slot.state, s.sheets.today.entries, s.sheets.standby.entries)

theorem get_of_map_eq {α β : Type} {n : Nat} {v w : Vector α n} {g : α → β} (h : v.map g = w.map g) (i : Fin n) :
    g (v.get i) = g (w.get i) := by
  have := congrArg (fun x => x.get i) h
  simpa using this

/-- A state that reads the same to the three laws. -/
theorem keeps_view {r s t : State} (h : Keeps r s) (hv : lawView t = lawView s) : Keeps r t := by
  simp only [lawView, Prod.mk.injEq] at hv
  obtain ⟨hl, hb, hs, ht, hst⟩ := hv
  refine h.trans ⟨fun x => ?_, fun x st => ?_, fun x i hi => ?_⟩
  · rw [lightLaw_iff, hl]; exact x
  · have := get_of_map_eq hb st
    rw [hl]
    exact this.trans (x st)
  · have h1 := get_of_map_eq hs i
    have h2 := x i (by rw [← h1]; exact hi)
    simp only [hasOpen, ht, hst] at h2 ⊢
    exact h2

theorem map_reserving_modify (v : Vector Bell 31) (st : Station) (f : Bell → Bell)
    (hf : ∀ b, (f b).reserving = b.reserving) : (modify v st f).map Bell.reserving = v.map Bell.reserving :=
  map_modify _ _ _ _ hf

theorem keeps_updBell {r s : State} (h : Keeps r s) (st : Station) (f : Bell → Bell)
    (hf : ∀ b, (f b).reserving = b.reserving) : Keeps r (updBell st f s) :=
  keeps_view h (by simp [lawView, map_reserving_modify _ _ _ hf])

theorem keeps_mapBells {r s : State} (h : Keeps r s) (f : Bell → Bell) (hf : ∀ b, (f b).reserving = b.reserving) :
    Keeps r (mapBells f s) := by
  refine keeps_view h ?_
  have : (s.bells.map f).map Bell.reserving = s.bells.map Bell.reserving := by
    apply vector_ext_get; intro i; simp [hf]
  simp [lawView, this]

theorem keeps_updSlot {r s : State} (h : Keeps r s) (i : SlotNo) (f : Slot → Slot) (hf : ∀ x, (f x).state = x.state) :
    Keeps r (updSlot i f s) :=
  keeps_view h (by simp only [lawView, updSlot_table, updSlot_lights, updSlot_bells, updSlot_sheets, map_modify _ _ _ _ hf])

theorem keeps_updLine {r s : State} (h : Keeps r s) (f : Line → Line) : Keeps r (updLine f s) := keeps_view h rfl
theorem keeps_updTune {r s : State} (h : Keeps r s) (n : TuneNo) (f : Tune → Tune) : Keeps r (updTune n f s) :=
  keeps_view h rfl
theorem keeps_setPlayer {r s : State} (h : Keeps r s) (p : Option Player) : Keeps r (setPlayer p s) := keeps_view h rfl
theorem keeps_setTollRun {r s : State} (h : Keeps r s) (p : Option TollRun) : Keeps r (setTollRun p s) := keeps_view h rfl
theorem keeps_setFlag {r s : State} (h : Keeps r s) (g : AttnFlag) : Keeps r (setFlag g s) := keeps_view h rfl
theorem keeps_setFlagIf {r s : State} (h : Keeps r s) (c : Bool) (g : AttnFlag) : Keeps r (setFlagIf c g s) := by
  cases c
  · exact h
  · exact keeps_setFlag h g
theorem keeps_setLane {r s : State} (h : Keeps r s) (lane : Lane) (k : Option Key) : Keeps r (setLane lane k s) := by
  cases lane <;> exact keeps_view h rfl
theorem keeps_peal {r s : State} (h : Keeps r s) (p : Option PealRun) : Keeps r { s with peal := p } := keeps_view h rfl
theorem keeps_lanes {r s : State} (h : Keeps r s) (l : Lanes) : Keeps r { s with lanes := l } := keeps_view h rfl

theorem keeps_foldl {α : Type} {r : State} (f : State → α → State) (hf : ∀ s x, Keeps r s → Keeps r (f s x)) (xs : List α)
    {s : State} (h : Keeps r s) : Keeps r (xs.foldl f s) := foldl_keeps (Keeps r) f hf xs s h

/-! ### Open entries -/

theorem hasOpen_iff (s : State) (i : SlotNo) :
    hasOpen s i = true ↔ ∃ e, (e ∈ s.sheets.today.entries ∨ e ∈ s.sheets.standby.entries) ∧ e.key.slot = i
      ∧ e.state.isOpen = true := by
  simp only [hasOpen, List.any_append, Bool.or_eq_true, List.any_eq_true, Bool.and_eq_true, beq_iff_eq]
  constructor
  · rintro (⟨e, h1, h2⟩ | ⟨e, h1, h2⟩)
    · exact ⟨e, Or.inl h1, h2⟩
    · exact ⟨e, Or.inr h1, h2⟩
  · rintro ⟨e, h1 | h1, h2⟩
    · exact Or.inl ⟨e, h1, h2⟩
    · exact Or.inr ⟨e, h1, h2⟩

/-- The law of open entries over new sheets: every open entry's slot is LIVE, or had an open entry before. -/
theorem keeps_sheets {r s : State} (h : Keeps r s) (x : Sheets)
    (hx : openLaw r → openLaw s → ∀ e, (e ∈ x.today.entries ∨ e ∈ x.standby.entries) → e.state.isOpen = true →
      (getSlot s e.key.slot).state = .live ∨ hasOpen s e.key.slot = true) : Keeps r { s with sheets := x } := by
  refine ⟨h.light, h.reserv, fun hr i hi => ?_⟩
  have hl := h.opens hr
  cases hc : hasOpen { s with sheets := x } i with
  | false => rfl
  | true =>
    exfalso
    obtain ⟨e, he, hk, ho⟩ := (hasOpen_iff _ i).mp hc
    subst hk
    rcases hx hr hl e he ho with h1 | h1
    · exact hi h1
    · rw [hl _ hi] at h1; cases h1

/-- An entry of today's sheet goes to a state: one that is not open, or open where the slot has an open entry already. -/
theorem keeps_setState {r s : State} (h : Keeps r s) (k : Key) (st : EntryState)
    (hst : st.isOpen = false ∨ hasOpen s k.slot = true) : Keeps r (updToday (setState k st) s) := by
  refine keeps_sheets h _ fun _ _ e he ho => Or.inr ?_
  rcases he with he | he
  · simp only [setState, List.mem_map] at he
    obtain ⟨a, ha, hae⟩ := he
    by_cases hk : a.key = k
    · rw [if_pos hk] at hae
      subst hae
      rcases hst with hst | hst
      · rw [hst] at ho; cases ho
      · simpa [hk] using hst
    · rw [if_neg hk] at hae
      subst hae
      exact (hasOpen_iff _ _).mpr ⟨a, Or.inl ha, rfl, ho⟩
  · exact (hasOpen_iff _ _).mpr ⟨e, Or.inr he, rfl, ho⟩

theorem keeps_filterToday {r s : State} (h : Keeps r s) (test : Entry → Bool) :
    Keeps r (updToday (fun es => es.filter test) s) := by
  refine keeps_sheets h _ fun _ _ e he ho => Or.inr ((hasOpen_iff _ _).mpr ⟨e, ?_, rfl, ho⟩)
  rcases he with he | he
  · exact Or.inl (List.mem_filter.mp he).1
  · exact Or.inr he

theorem find_mem {k : Key} {es : List Entry} {e : Entry} (h : findEntry k es = some e) : e ∈ es ∧ e.key = k := by
  refine ⟨List.mem_of_find?_eq_some h, ?_⟩
  have := List.find?_some h
  simpa using this

theorem hasOpen_of_find {s : State} {k : Key} {e : Entry} (h : findEntry k s.sheets.today.entries = some e)
    (ho : e.state.isOpen = true) : hasOpen s k.slot = true := by
  obtain ⟨hm, hk⟩ := find_mem h
  exact (hasOpen_iff _ _).mpr ⟨e, Or.inl hm, by rw [hk], ho⟩

/-! ### Entries, outcomes, answers -/

theorem keeps_writeOutcome {r s : State} (h : Keeps r s) (i : SlotNo) (st : EntryState) (day : Nat) :
    Keeps r (writeOutcome i st day s) := by
  unfold writeOutcome
  split
  · exact h
  · exact keeps_updSlot h _ _ fun x => by cases st <;> rfl

theorem keeps_spentCheck {r s : State} (h : Keeps r s) (i : SlotNo) : Keeps r (spentCheck i s) := by
  unfold spentCheck
  split
  · exact h
  · split
    · next hc =>
      refine h.trans ⟨id, id, fun hl j hj => ?_⟩
      have hsame : hasOpen (updSlot i (fun slot => { slot with state := SlotState.spent }) s) j = hasOpen s j := rfl
      rw [hsame]
      by_cases hij : i = j
      · subst hij; exact hc.2.2
      · refine hl j ?_
        simpa [hij] using hj
    · exact h

theorem keeps_conclude {r s : State} (h : Keeps r s) (k : Key) (st : EntryState) (hst : st.isOpen = false) :
    Keeps r (conclude k st s) := by
  unfold conclude
  split
  · exact h
  · exact keeps_setFlagIf (keeps_writeOutcome (keeps_setState h k st (Or.inl hst)) _ _ _) _ _

theorem keeps_concludeAll {r s : State} (h : Keeps r s) (ks : List Key) (st : EntryState) (hst : st.isOpen = false) :
    Keeps r (concludeAll ks st s) := keeps_foldl _ (fun _ k h => keeps_conclude h k st hst) _ h

theorem keeps_finalise {r s : State} (h : Keeps r s) (k : Key) (st : EntryState) (hst : st.isOpen = false) :
    Keeps r (finalise k st s) := by
  unfold finalise
  split
  · exact h
  · exact keeps_spentCheck (keeps_conclude h k st hst) _

theorem keeps_finaliseAll {r s : State} (h : Keeps r s) (ks : List Key) (st : EntryState) (hst : st.isOpen = false) :
    Keeps r (finaliseAll ks st s) := keeps_foldl _ (fun _ k h => keeps_finalise h k st hst) _ h

theorem keeps_endLane {r s : State} (h : Keeps r s) (lane : Lane) (st : EntryState) (hst : st.isOpen = false) :
    Keeps r (endLane lane st s) := by
  unfold endLane
  split
  · exact h
  · exact keeps_finalise (keeps_setLane h _ _) _ _ hst

theorem keeps_answerStroke {r s : State} (h : Keeps r s) (who : Requester) (sent : Bool) :
    Keeps r (answerStroke who sent s) := by
  have h2 : ∀ b : Bool, (if b = true then EntryState.cutShort else EntryState.done).isOpen = false := by decide
  unfold answerStroke
  split
  · split
    · split
      · unfold answerToll
        dsimp only
        split
        · exact keeps_setTollRun h _
        · exact keeps_endLane (keeps_setTollRun h _) _ _ (h2 _)
      · exact h
    · exact h
  · split
    · split
      · unfold answerHour
        dsimp only
        split
        · exact keeps_setPlayer h _
        · exact keeps_endLane (keeps_setPlayer h _) _ _ (h2 _)
      · exact h
    · exact h
  · exact h

/-! ### Bells and orders -/

theorem keeps_strikesLost {r s : State} (h : Keeps r s) (os : List Order) : Keeps r (strikesLost os s) :=
  keeps_foldl _ (fun s o h => by
    unfold strikeLost
    split
    · exact keeps_answerStroke h _ _
    · exact h) _ h

theorem keeps_strikeLost {r s : State} (h : Keeps r s) (o : Order) : Keeps r (strikeLost o s) := by
  unfold strikeLost
  split
  · exact keeps_answerStroke h _ _
  · exact h

theorem keeps_withdrawStrikes {r s : State} (h : Keeps r s) (st : Station) : Keeps r (withdrawStrikes st s) :=
  keeps_strikesLost (keeps_updLine h _) _

theorem keeps_withdrawOrders {r s : State} (h : Keeps r s) (st : Station) : Keeps r (withdrawOrders st s) :=
  keeps_strikesLost (keeps_updLine h _) _

theorem keeps_owe {r s : State} (h : Keeps r s) (st : Station) (k : SwingOrder) : Keeps r (owe st k s) :=
  keeps_updBell h _ _ (by intro _; rfl)

theorem keeps_makeOrder {r s : State} (h : Keeps r s) (st : Station) (k : SwingOrder) : Keeps r (makeOrder st k s) := by
  unfold makeOrder
  split
  · exact h
  · split
    · exact keeps_updLine h _
    · exact keeps_owe h _ _

theorem keeps_offerOwed {r s : State} (h : Keeps r s) (st : Station) : Keeps r (offerOwed st s) := by
  unfold offerOwed
  split
  · exact h
  · split
    · exact keeps_updLine (keeps_updBell h _ _ (by intro _; rfl)) _
    · exact h

theorem keeps_loseDeferred {r s : State} (h : Keeps r s) (st : Station) : Keeps r (loseDeferred st s) :=
  keeps_foldl _ (fun _ _ h => keeps_answerStroke h _ _) _ (keeps_updBell h _ _ (by intro _; rfl))

theorem keeps_checkStrikable {r s : State} (h : Keeps r s) (st : Station) : Keeps r (checkStrikable st s) := by
  unfold checkStrikable
  split
  · exact h
  · exact keeps_withdrawStrikes (keeps_loseDeferred h st) st

theorem keeps_strokeDue {r s : State} (h : Keeps r s) (st : Station) (x : Strength) (d : Nat) (who : Requester) :
    Keeps r (strokeDue st x d who s) := by
  unfold strokeDue
  split
  · exact keeps_updBell (keeps_updLine h _) _ _ (by intro _; rfl)
  · exact keeps_answerStroke h _ _

theorem keeps_serveDeferred {r s : State} (h : Keeps r s) (fuel : Nat) (st : Station) : Keeps r (serveDeferred fuel st s) := by
  induction fuel generalizing s with
  | zero => exact h
  | succ n ih =>
    unfold serveDeferred
    split
    · exact h
    · split
      · exact ih (keeps_strokeDue (keeps_updBell h _ _ (by intro _; rfl)) _ _ _ _)
      · exact h

theorem keeps_requestStroke {r s : State} (h : Keeps r s) (st : Station) (x : Strength) (who : Requester) :
    Keeps r (requestStroke st x who s) := by
  have h1 : Keeps r (serveFirst st s) := keeps_serveDeferred h _ _
  unfold requestStroke
  dsimp only
  split
  · exact keeps_answerStroke h1 _ _
  · split
    · exact keeps_strokeDue h1 _ _ _ _
    · exact keeps_updBell h1 _ _ (by intro _; rfl)

theorem keeps_faultEvent {r s : State} (h : Keeps r s) (st : Station) : Keeps r (faultEvent st s) :=
  keeps_setFlag (keeps_updBell h _ _ (by intro _; rfl)) _

theorem keeps_pealLeave {r s : State} (h : Keeps r s) (st : Station) : Keeps r (pealLeave st s) := by
  unfold pealLeave
  split
  · split
    · exact keeps_peal h _
    · exact h
  · exact h

theorem keeps_pollNow {r s : State} (h : Keeps r s) (st : Station) : Keeps r (pollNow st s) := by
  unfold pollNow
  split
  · exact keeps_makeOrder h _ _
  · exact h

theorem keeps_startPolling {r s : State} (h : Keeps r s) (st : Station) : Keeps r (startPolling st s) := by
  unfold startPolling
  split
  · exact keeps_updBell h _ _ (by intro _; rfl)
  · split
    · unfold firstQuery
      split
      · exact keeps_makeOrder (keeps_updBell h _ _ (by intro _; rfl)) _ _
      · exact keeps_pollNow (keeps_updBell h _ _ (by intro _; rfl)) _
    · dsimp only
      split
      · exact keeps_makeOrder (keeps_updBell h _ _ (by intro _; rfl)) _ _
      · exact keeps_updBell h _ _ (by intro _; rfl)

theorem keeps_enterPosition {r s : State} (h : Keeps r s) (st : Station) (pos : Position) :
    Keeps r (enterPosition st pos s) :=
  keeps_startPolling (keeps_checkStrikable (keeps_updBell h _ _ (by intro _; rfl)) _) _

theorem keeps_orderLower {r s : State} (h : Keeps r s) (st : Station) : Keeps r (orderLower st s) :=
  keeps_enterPosition (keeps_makeOrder h _ _) _ _

theorem keeps_becomeFault {r s : State} (h : Keeps r s) (st : Station) : Keeps r (becomeFault st s) :=
  keeps_enterPosition (keeps_pealLeave (keeps_faultEvent h _) _) _ _

theorem keeps_raiseFailed {r s : State} (h : Keeps r s) (st : Station) : Keeps r (raiseFailed st s) :=
  keeps_orderLower (keeps_pealLeave (keeps_faultEvent h _) _) _

theorem keeps_becomeUnsure {r s : State} (h : Keeps r s) (st : Station) : Keeps r (becomeUnsure st s) :=
  keeps_enterPosition h _ _

/-! ### The account -/

/-- New levels or a new waiting list, with the reservations as they were. -/
theorem keeps_setLights {r s : State} (h : Keeps r s) (l : Lights) (hl : lightsOk s.lights → lightsOk l)
    (hr : l.reserv = s.lights.reserv) : Keeps r (setLights l s) :=
  h.trans ⟨hl, fun x st => by simpa [getBell, hr] using x st, id⟩

theorem keeps_waiting {r s : State} (h : Keeps r s) (w : List (Station × Nat)) :
    Keeps r (setLights { s.lights with waiting := w } s) := keeps_setLights h _ id rfl

/-- An admission, with the bell's reserving mark set along with it. -/
theorem keeps_admitted {r s : State} (h : Keeps r s) (st : Station) (m : Nat) (l : Lights) (shed : Bool)
    (ha : admitLoad s.mains st m s.lights = some (l, shed)) (w : List (Station × Nat)) (f : Bell → Bell)
    (hf : ∀ b, (f b).reserving = true) :
    Keeps r (updBell st f (setFlagIf shed .loadLimited (setLights { l with waiting := w } s))) := by
  refine h.trans ⟨fun x => ?_, fun x st' => ?_, fun x i hi => ?_⟩
  · have := (admit_spec _ _ _ _ _ _ x ha).1
    rw [lightLaw_iff, updBell_lights, setFlagIf_lights, setLights_lights]
    exact this
  · have hres : l.reserv = put s.lights.reserv st (some m) := by
      unfold admitLoad at ha
      split at ha
      · cases ha; rfl
      · split at ha
        · cases ha
          have : ∀ fuel l, (shedUntil (fun x => decide (m ≤ freeLoad x)) fuel l).reserv = l.reserv := by
            intro fuel
            induction fuel with
            | zero => intro l; rfl
            | succ n ih =>
              intro l
              unfold shedUntil
              split
              · rfl
              · rw [ih]; unfold shedStep; split <;> rfl
          simp [reserve, this]
        · cases ha
    simp only [getBell, updBell_bells, updBell_lights, setFlagIf_bells, setFlagIf_lights, setLights_bells, setLights_lights,
      hres, get_modify, get_put]
    split
    · rw [hf]; rfl
    · exact x st'
  · have := x i (by simpa using hi)
    simpa [hasOpen] using this

theorem keeps_askAdmission {r s : State} (h : Keeps r s) (st : Station) (w : Bool) : Keeps r (askAdmission st w s).1 := by
  unfold askAdmission
  split
  · next l shed ha => exact keeps_admitted h st _ l shed ha l.waiting _ fun _ => rfl
  · dsimp only
    split
    · exact keeps_waiting h _
    · exact h

theorem keeps_withdrawRequest {r s : State} (h : Keeps r s) (st : Station) : Keeps r (withdrawRequest st s) :=
  keeps_updBell (keeps_waiting h _) _ _ (by intro _; rfl)

theorem keeps_raiseNow {r s : State} (h : Keeps r s) (st : Station) : Keeps r (raiseNow st s) :=
  keeps_enterPosition (keeps_makeOrder h _ _) _ _

theorem keeps_retryOne {r s : State} (h : Keeps r s) (st : Station) (m : Nat) : Keeps r (retryOne st m s) := by
  unfold retryOne
  split
  · exact h
  · next l shed ha =>
    unfold tellAdmitted
    split
    · exact keeps_raiseNow (keeps_admitted h st m l shed ha _ _ (by intro _; rfl)) _
    · unfold setReserving
      dsimp only
      split
      · exact keeps_startPolling (keeps_admitted h st m l shed ha _ _ (by intro _; rfl)) _
      · exact keeps_admitted h st m l shed ha _ _ (by intro _; rfl)

theorem keeps_retryWaiting {r s : State} (h : Keeps r s) : Keeps r (retryWaiting s) := by
  unfold retryWaiting
  split
  · exact keeps_foldl _ (fun _ (p : Station × Nat) h => keeps_retryOne h p.1 p.2) _ h
  · exact h

theorem reserv_restoreSteps (fuel : Nat) (l : Lights) : (restoreSteps fuel l).reserv = l.reserv := by
  induction fuel generalizing l with
  | zero => rfl
  | succ n ih =>
    unfold restoreSteps
    split
    · rfl
    · next l' hr =>
      rw [ih]
      unfold restoreStep at hr
      split at hr
      · cases hr
      · dsimp only at hr
        split at hr
        · cases hr; rfl
        · cases hr

theorem keeps_restoration {r s : State} (h : Keeps r s) : Keeps r (restoration s) := by
  unfold restoration
  split
  · exact keeps_setLights h _ (fun x => (restoreSteps_spec _ _ x).1) (reserv_restoreSteps _ _)
  · exact h

theorem keeps_loadFreed {r s : State} (h : Keeps r s) : Keeps r (loadFreed s) := keeps_restoration (keeps_retryWaiting h)

theorem keeps_releaseLoad {r s : State} (h : Keeps r s) (st : Station) : Keeps r (releaseLoad st s) := by
  unfold releaseLoad
  split
  · refine keeps_loadFreed (h.trans ⟨fun x => ?_, fun x st' => ?_, fun x i hi => ?_⟩)
    · obtain ⟨hz, hs, hc⟩ := x
      refine ⟨hz, hs, ?_⟩
      have h1 := reservTotal_put st none s.lights
      have h2 := zoneTotal_reserv s.lights (put s.lights.reserv st none)
      simp only [supplyLaw, committed, Option.getD_none] at hc h1 h2 ⊢
      simp only [setLights_lights]
      omega
    · simp only [getBell, setLights_bells, setLights_lights, updBell_bells, get_modify, get_put]
      split
      · rfl
      · exact x st'
    · have := x i (by simpa using hi)
      simpa [hasOpen] using this
  · exact h

theorem keeps_findWanted {r s : State} (h : Keeps r s) : Keeps r (findWanted s) := by
  have h1 : ∀ sc, Keeps r (setLights (applyWanted sc s.lights) s) := fun sc =>
    keeps_setLights h _ (applyWanted_spec sc s.lights) rfl
  unfold findWanted
  dsimp only
  split
  · exact h
  · split
    · exact keeps_restoration (keeps_retryWaiting (h1 _))
    · exact keeps_restoration (h1 _)

theorem keeps_setLit {r s : State} (h : Keeps r s) (lit : Vector Bool 128) : Keeps r (setLit lit s) := by
  unfold setLit
  split
  · exact h
  · exact keeps_findWanted (keeps_lanes h _)

theorem keeps_knownDown {r s : State} (h : Keeps r s) (st : Station) : Keeps r (knownDown st s) := by
  unfold knownDown
  split
  · exact keeps_releaseLoad (keeps_withdrawRequest h _) _
  · exact keeps_releaseLoad h _

theorem keeps_becomeDown {r s : State} (h : Keeps r s) (st : Station) : Keeps r (becomeDown st s) :=
  keeps_knownDown (keeps_enterPosition h _ _) _

theorem keeps_askMoving {r s : State} (h : Keeps r s) (st : Station) : Keeps r (askMoving st s) := by
  unfold askMoving
  split
  · exact h
  · exact keeps_askAdmission h _ _

theorem keeps_movedByHand {r s : State} (h : Keeps r s) (st : Station) : Keeps r (movedByHand st s) :=
  keeps_orderLower
    (keeps_askMoving (keeps_updBell (keeps_pealLeave (keeps_faultEvent h _) _) _ _ (by intro _; rfl)) _) _

/-! ### Peals, lanes, entries -/

theorem keeps_askRaise {r s : State} (h : Keeps r s) (st : Station) : Keeps r (askRaise st s) := by
  unfold askRaise
  split
  · exact keeps_raiseNow h _
  · have ha := keeps_askAdmission h st true
    generalize askAdmission st true s = p at ha
    obtain ⟨s1, b⟩ := p
    cases b
    · exact keeps_updBell (s := s1) ha _ _ (by intro _; rfl)
    · exact keeps_raiseNow (s := s1) ha _

theorem keeps_finishPeal {r s : State} (h : Keeps r s) (st : EntryState) (hst : st.isOpen = false) :
    Keeps r (finishPeal st s) := keeps_endLane (keeps_peal h _) _ _ hst

theorem keeps_endIfLowered {r s : State} (h : Keeps r s) (p : PealRun) : Keeps r (endIfLowered p s) := by
  unfold endIfLowered
  split
  · exact keeps_finishPeal h _ (by cases p.shortened <;> rfl)
  · exact h

theorem keeps_beginLowering {r s : State} (h : Keeps r s) (p : PealRun) : Keeps r (beginLowering p s) := by
  unfold beginLowering
  refine keeps_endIfLowered (keeps_foldl _ (fun s st h => ?_) _ (keeps_peal h _)) _
  split
  · exact keeps_orderLower h _
  · exact h

theorem keeps_settlePeal {r s : State} (h : Keeps r s) : Keeps r (settlePeal s) := by
  unfold settlePeal
  split
  · exact h
  · split
    · split
      · exact keeps_beginLowering h _
      · split
        · exact keeps_peal h _
        · exact h
    · split
      · exact h
      · exact keeps_beginLowering h _
    · exact keeps_endIfLowered h _

theorem keeps_takePeal {r s : State} (h : Keeps r s) (bells uncovered : BellSet) (minutes : Nat) :
    Keeps r (takePeal bells uncovered minutes s) := by
  unfold takePeal
  dsimp only
  split
  · exact keeps_endLane h _ _ rfl
  · exact keeps_settlePeal (keeps_foldl _ (fun _ st h => keeps_askRaise h st) _ (keeps_peal h _))

theorem keeps_putDown {r s : State} (h : Keeps r s) (st : Station) : Keeps r (putDown st s) := by
  unfold putDown
  dsimp only
  split
  · exact keeps_orderLower h _
  · split
    · exact keeps_withdrawRequest h _
    · exact h

theorem keeps_cutPeal {r s : State} (h : Keeps r s) : Keeps r (cutPeal s) := by
  unfold cutPeal
  split
  · exact h
  · exact keeps_foldl _ (fun _ st h => keeps_putDown h st) _ (keeps_peal h _)

theorem keeps_silencePeal {r s : State} (h : Keeps r s) (bells : BellSet) : Keeps r (silencePeal bells s) := by
  have h1 : ∀ xs, Keeps r (List.foldl (fun acc st => putDown st (pealLeave st acc)) s xs) := fun xs =>
    keeps_foldl _ (fun _ st h => keeps_putDown (keeps_pealLeave h st) st) xs h
  unfold silencePeal
  split
  · exact h
  · dsimp only
    split
    · exact h
    · split
      · exact h1 _
      · split
        · exact keeps_finishPeal (h1 _) _ rfl
        · exact keeps_settlePeal (h1 _)

theorem keeps_stopLane {r s : State} (h : Keeps r s) (lane : Lane) : Keeps r (stopLane lane s) := by
  unfold stopLane
  split
  · exact keeps_setLane (keeps_setPlayer h _) _ _
  · exact keeps_setLane (keeps_setTollRun h _) _ _
  · exact keeps_setLane (keeps_cutPeal h) _ _

theorem keeps_releaseLane {r s : State} (h : Keeps r s) (lane : Lane) : Keeps r (releaseLane lane s) := by
  unfold releaseLane
  split
  · exact keeps_stopLane h _
  · exact h

theorem keeps_releaseLanes {r s : State} (h : Keeps r s) : Keeps r (releaseLanes s) :=
  keeps_foldl _ (fun _ lane h => keeps_releaseLane h lane) _ h

theorem keeps_cutLane {r s : State} (h : Keeps r s) (lane : Lane) : Keeps r (cutLane lane s) := by
  unfold cutLane
  split
  · exact h
  · exact keeps_finalise (keeps_stopLane h _) _ _ rfl

theorem keeps_cutAllLanes {r s : State} (h : Keeps r s) : Keeps r (cutAllLanes s) :=
  keeps_foldl _ (fun _ lane h => keeps_cutLane h lane) _ h

theorem keeps_startPlay {r s : State} (h : Keeps r s) (t : TuneNo) : Keeps r (startPlay t s) := keeps_updTune h _ _

theorem keeps_perform {r s : State} (h : Keeps r s) (e : Entry) : Keeps r (perform e s) := by
  unfold perform
  split
  · exact keeps_startPlay (keeps_setPlayer h _) _
  · unfold takeStrike
    split
    · exact keeps_startPlay (keeps_setPlayer h _) _
    · split
      · exact keeps_endLane h _ _ rfl
      · exact keeps_setPlayer h _
  · exact keeps_requestStroke (keeps_setTollRun h _) _ _ _
  · exact keeps_takePeal h _ _ _
  all_goals exact h

theorem keeps_activate {r s : State} (h : Keeps r s) (lane : Lane) (e : Entry) (he : hasOpen s e.key.slot = true) :
    Keeps r (activate lane e s) :=
  keeps_perform (keeps_lanes (keeps_setLane (keeps_setState h e.key .active (Or.inr he)) _ _) _) _

theorem keeps_examine {r s : State} (h : Keeps r s) (lane : Lane) (ks : List Key) : Keeps r (examine lane ks s) := by
  induction ks generalizing s with
  | nil => exact h
  | cons k ks ih =>
    unfold examine
    split
    · exact ih h
    · next e he =>
      split
      · exact ih h
      · next hd =>
        have hd' : e.state = .due := by simpa using hd
        split
        · exact ih (keeps_finalise h _ _ rfl)
        · refine keeps_activate h _ _ ?_
          rw [(find_mem he).2]
          exact hasOpen_of_find he (by rw [hd']; rfl)

theorem keeps_lookFor {r s : State} (h : Keeps r s) (lane : Lane) : Keeps r (lookFor lane s) := keeps_examine h _ _

theorem keeps_lightEffect {r s : State} (h : Keeps r s) (k : Key) : Keeps r (lightEffect k s) := by
  unfold lightEffect
  split
  · split
    · exact keeps_setLit h _
    · exact h
  · split
    · exact keeps_setLit h _
    · exact h

theorem keeps_recomputeLit {r s : State} (h : Keeps r s) : Keeps r (recomputeLit s) := keeps_setLit h _

theorem keeps_soundingDue {r s : State} (h : Keeps r s) (e : Entry) : Keeps r (soundingDue e s) := by
  unfold soundingDue
  split
  · exact keeps_finalise h _ _ rfl
  · split
    · exact keeps_finalise h _ _ rfl
    · split
      · exact keeps_finalise h _ _ rfl
      · exact h

theorem hasOpen_setState_due (s : State) (k : Key) (h : hasOpen s k.slot = true) :
    hasOpen (updToday (setState k .due) s) k.slot = true := by
  obtain ⟨e, he, hk, ho⟩ := (hasOpen_iff _ _).mp h
  apply (hasOpen_iff _ _).mpr
  rcases he with he | he
  · by_cases hek : e.key = k
    · exact ⟨{ e with state := .due }, Or.inl (by
        simp only [updToday_sheets, setState, List.mem_map]
        exact ⟨e, he, by rw [if_pos hek]⟩), hk, rfl⟩
    · exact ⟨e, Or.inl (by
        simp only [updToday_sheets, setState, List.mem_map]
        exact ⟨e, he, by rw [if_neg hek]⟩), hk, ho⟩
  · exact ⟨e, Or.inr he, hk, ho⟩

theorem keeps_becomeDue {r s : State} (h : Keeps r s) (e : Entry) (he : hasOpen s e.key.slot = true) :
    Keeps r (becomeDue e s) := by
  have h1 : Keeps r (updToday (setState e.key .due) s) := keeps_setState h _ _ (Or.inr he)
  have h2 := hasOpen_setState_due s e.key he
  unfold becomeDue
  dsimp only
  split
  · exact keeps_lightEffect (keeps_finalise h1 _ _ rfl) _
  · split
    · exact keeps_finalise h1 _ _ rfl
    · exact keeps_setState h1 _ _ (Or.inr h2)
  · exact keeps_soundingDue h1 _
  · exact keeps_soundingDue h1 _
  · exact keeps_soundingDue h1 _
  · exact keeps_soundingDue h1 _
  · exact h1

theorem fallsDue_open {s : State} {e : Entry} (h : fallsDue s e = true) : e.state.isOpen = true := by
  simp only [fallsDue, Bool.and_eq_true, beq_iff_eq] at h
  rw [h.1]; rfl

theorem keeps_becomeDueAll {r s : State} (h : Keeps r s) (ks : List Key) : Keeps r (becomeDueAll ks s) := by
  induction ks generalizing s with
  | nil => exact h
  | cons k ks ih =>
    unfold becomeDueAll
    split
    · exact ih h
    · next e he =>
      split
      · next hf =>
        refine ih (keeps_becomeDue h _ ?_)
        rw [(find_mem he).2]
        exact hasOpen_of_find he (fallsDue_open hf)
      · exact ih h

theorem keeps_fallDueNow {r s : State} (h : Keeps r s) : Keeps r (fallDueNow s) := keeps_becomeDueAll h _

end Sys2Proof.Machine
end

