-- ==== Sys2Proof/Laws/KeepsAll.lean ====
section
/-! SUPPORT. The laws of the account and of the sheets through the operations of the clock, the resolver, the overrides, the bells,
the line, the dials, the lights and the power rules: one lemma per operation. -/

namespace Sys2Proof.Machine

/-! ### Dials and overrides -/

theorem keeps_updDial {r s : State} (h : Keeps r s) (d : DialNo) (f : Dial → Dial) : Keeps r (updDial d f s) :=
  keeps_view h rfl
theorem keeps_pins {r s : State} (h : Keeps r s) (p : Pins) : Keeps r { s with pins := p } := keeps_view h rfl
theorem keeps_updTime {r s : State} (h : Keeps r s) (f : TimeBase → TimeBase) : Keeps r (updTime f s) := keeps_view h rfl
theorem keeps_updResolver {r s : State} (h : Keeps r s) (f : Resolver → Resolver) : Keeps r (updResolver f s) :=
  keeps_view h rfl
theorem keeps_updCalendar {r s : State} (h : Keeps r s) (f : Calendar → Calendar) : Keeps r (updCalendar f s) :=
  keeps_view h rfl
theorem keeps_setNotes {r s : State} (h : Keeps r s) (n : Nat) (xs : List Note) : Keeps r (setNotes n xs s) :=
  keeps_view h rfl

theorem keeps_evaluate {r s : State} (h : Keeps r s) (d : DialNo) : Keeps r (evaluate d s) := by
  unfold evaluate
  dsimp only
  split
  · exact h
  · exact keeps_updDial h _ _

theorem keeps_evaluateAll {r s : State} (h : Keeps r s) : Keeps r (evaluateAll s) := by
  unfold evaluateAll
  generalize dialTarget s.time = n
  exact keeps_foldl _ (fun _ d h => keeps_evaluate h d) _ (keeps_view h rfl)

theorem keeps_evaluateSet {r s : State} (h : Keeps r s) (ds : DialSet) : Keeps r (evaluateSet ds s) :=
  keeps_foldl _ (fun _ d h => keeps_evaluate h d) _ h

theorem keeps_senseDial {r s : State} (h : Keeps r s) (d : DialNo) : Keeps r (senseDial d s) := by
  unfold senseDial
  dsimp only
  split
  · exact h
  · split <;> exact keeps_updDial h _ _

theorem keeps_senseAll {r s : State} (h : Keeps r s) : Keeps r (senseAll s) :=
  keeps_foldl _ (fun _ d h => keeps_senseDial h d) _ h

theorem keeps_takeClosure {r s : State} (h : Keeps r s) (d : DialNo) : Keeps r (takeClosure d s) := by
  unfold takeClosure
  split
  · exact h
  · exact keeps_setFlag (keeps_updDial h _ _) _

theorem keeps_handSilence {r s : State} (h : Keeps r s) (old : Effective) : Keeps r (handSilence old s) := by
  have hc : ∀ {s lane}, Keeps r s → Keeps r (cutSilenced lane s) := by
    intro s lane h
    unfold cutSilenced
    split
    · exact h
    · split
      · exact h
      · split
        · exact keeps_cutLane h _
        · exact h
  have h1 : Keeps r (if silenceGained old (effective s) = true then cutSilenced .toll (cutSilenced .chime (withholdSilenced s))
      else s) := by
    split
    · exact hc (hc (keeps_finaliseAll h _ _ rfl))
    · exact h
  unfold handSilence
  dsimp only
  split
  · exact keeps_silencePeal h1 _
  · exact h1

theorem keeps_handOn {r s : State} (h : Keeps r s) (old : Effective) : Keeps r (handOn old s) := by
  unfold handOn
  dsimp only
  split
  · exact keeps_settlePeal (keeps_evaluateSet (keeps_handSilence h _) _)
  · exact keeps_settlePeal (keeps_evaluateSet (keeps_findWanted (keeps_handSilence h _)) _)

theorem keeps_setStack {r s : State} (h : Keeps r s) (es : List Override) : Keeps r (setStack es s) :=
  keeps_handOn (keeps_view h (by rfl)) _

theorem keeps_push {r s : State} (h : Keeps r s) (body : OverrideBody) (minutes : Nat) : Keeps r (push body minutes s) :=
  keeps_setStack (keeps_view h (by rfl)) _

theorem keeps_expireOverrides {r s : State} (h : Keeps r s) : Keeps r (expireOverrides s) := by
  unfold expireOverrides
  split
  · exact keeps_setStack h _
  · exact h

theorem keeps_expireEvery {r s : State} (h : Keeps r s) : Keeps r (expireEvery s) := by
  unfold expireEvery
  split
  · exact keeps_setStack h _
  · exact h

/-! ### Requests, steps, seconds and days -/

theorem keeps_requestToday {r s : State} (h : Keeps r s) (z : Bool) : Keeps r (requestToday z s) := by
  unfold requestToday
  split
  · exact keeps_updResolver h _
  · exact h

theorem keeps_requestStandby {r s : State} (h : Keeps r s) : Keeps r (requestStandby s) := by
  unfold requestStandby
  split
  · exact keeps_updResolver h _
  · exact h

theorem keeps_trigger {r s : State} (h : Keeps r s) : Keeps r (trigger s) :=
  keeps_requestStandby (keeps_requestToday (keeps_view h (by rfl)) _)

theorem keeps_spentCheckAll {r s : State} (h : Keeps r s) : Keeps r (spentCheckAll s) :=
  keeps_foldl _ (fun _ i h => keeps_spentCheck h i) _ h

/-- Sheets of which every entry was on a sheet before. -/
theorem keeps_fewer {r s : State} (h : Keeps r s) (x : Sheets)
    (hx : ∀ e, (e ∈ x.today.entries ∨ e ∈ x.standby.entries) →
      e ∈ s.sheets.today.entries ∨ e ∈ s.sheets.standby.entries) : Keeps r { s with sheets := x } :=
  keeps_sheets h x fun _ _ e he ho => Or.inr ((hasOpen_iff _ _).mpr ⟨e, hx e he, rfl, ho⟩)

theorem keeps_emptySheets {r s : State} (h : Keeps r s) : Keeps r (emptySheets s) :=
  keeps_fewer h _ fun e he => by simp [Sheet.cold] at he

theorem keeps_dropStandby {r s : State} (h : Keeps r s) : Keeps r (dropStandby s) :=
  keeps_fewer h _ fun e he => by
    rcases he with he | he
    · exact Or.inl he
    · simp [Sheet.cold] at he

theorem keeps_endOldSheet {r s : State} (h : Keeps r s) (forward : Bool) : Keeps r (endOldSheet forward s) := by
  unfold endOldSheet
  dsimp only
  split
  · exact keeps_concludeAll (keeps_concludeAll (keeps_releaseLanes h) _ _ rfl) _ _ rfl
  · exact keeps_concludeAll (keeps_releaseLanes h) _ _ rfl

theorem keeps_stepTail {r s : State} (h : Keeps r s) : Keeps r (stepTail s) :=
  keeps_setFlag (keeps_evaluateAll (keeps_expireOverrides h)) _

theorem keeps_abandonBuilds {r s : State} (h : Keeps r s) : Keeps r (abandonBuilds s) := keeps_updResolver h _
theorem keeps_discardAll {r s : State} (h : Keeps r s) : Keeps r (discardAll s) := keeps_updResolver h _

theorem keeps_time {r s : State} (h : Keeps r s) (t : TimeBase) : Keeps r { s with time := t } := keeps_view h rfl

theorem keeps_stepToDate {r s : State} (h : Keeps r s) (forward : Bool) (new : TimeBase) :
    Keeps r (stepToDate forward new s) :=
  keeps_stepTail (keeps_recomputeLit (keeps_requestStandby (keeps_requestToday (keeps_spentCheckAll
    (keeps_abandonBuilds (keeps_emptySheets (keeps_time (keeps_endOldSheet h forward) new)))) _)))

theorem keeps_jumpForward {r s : State} (h : Keeps r s) (a : Nat) : Keeps r (jumpForward a s) :=
  keeps_fallDueNow (keeps_finaliseAll (keeps_finaliseAll (keeps_finaliseAll h _ _ rfl) _ _ rfl) _ _ rfl)

theorem keeps_stepWithin {r s : State} (h : Keeps r s) (a : Nat) (new : TimeBase) : Keeps r (stepWithin a new s) := by
  have h1 : Keeps r { s with time := new, sheets := { s.sheets with relight := [], standbyTime := false } } := keeps_view h rfl
  unfold stepWithin
  dsimp only
  split
  · exact keeps_stepTail (keeps_trigger (keeps_recomputeLit (keeps_jumpForward h1 _)))
  · exact keeps_stepTail (keeps_trigger (keeps_recomputeLit h1))

theorem keeps_endRange {r s : State} (h : Keeps r s) : Keeps r (endRange s) :=
  keeps_expireEvery (keeps_stepToDate h _ _)

theorem keeps_takeStep {r s : State} (h : Keeps r s) (new : TimeBase) : Keeps r (takeStep new s) := by
  unfold takeStep
  dsimp only
  split
  · exact keeps_endRange (keeps_updTime h _)
  · split
    · exact keeps_stepWithin h _ _
    · exact keeps_stepToDate h _ _

theorem keeps_finishDay {r s : State} (h : Keeps r s) : Keeps r (finishDay s) :=
  keeps_setLit (keeps_finaliseAll (keeps_finaliseAll (keeps_fallDueNow h) _ _ rfl) _ _ rfl) _

theorem keeps_writeSkipped {r s : State} (h : Keeps r s) (joined : List Entry) : Keeps r (writeSkipped joined s) :=
  keeps_foldl _ (fun _ _ h => keeps_writeOutcome h _ _ _) _ h

theorem keeps_replaceTallies {r s : State} (h : Keeps r s) (new : Vector Nat 128) : Keeps r (replaceTallies new s) := by
  unfold replaceTallies
  refine keeps_foldl _ (fun s i h => ?_) _ (keeps_view h (by rfl))
  unfold writeTally
  split
  · split
    · exact h
    · exact keeps_updSlot h _ _ (by intro _; rfl)
  · exact h

theorem keeps_installDay {r s : State} (h : Keeps r s) : Keeps r (installDay s) := by
  unfold installDay
  dsimp only
  split
  · refine keeps_replaceTallies (keeps_writeSkipped (keeps_fewer h _ fun e he => ?_) _) _
    rcases he with he | he <;> exact Or.inr he
  · refine keeps_requestToday (keeps_fewer h _ fun e he => ?_) _
    rcases he with he | he
    · simp [Sheet.cold] at he
    · exact Or.inr he

theorem mem_makeRoom {sh : Sheet} {e : Entry} (h : e ∈ (makeRoom sh).entries) : e ∈ sh.entries := by
  unfold makeRoom at h
  split at h
  · exact h
  · split at h
    · exact h
    · exact (List.mem_filter.mp h).1

theorem keeps_rekeyLane {r s : State} (h : Keeps r s) (e : Entry) : Keeps r (rekeyLane e s) := by
  unfold rekeyLane
  split
  · split
    · exact keeps_setLane h _ _
    · exact h
  · exact h

/-- A carried entry joins a sheet: its slot is LIVE, which is what the law of open entries asks. -/
theorem keeps_joinCarried {r s : State} (h : Keeps r s) (e : Entry)
    (he : openLaw r → (getSlot s e.key.slot).state = .live) : Keeps r (joinCarried e s) := by
  unfold joinCarried
  refine keeps_rekeyLane (keeps_sheets h _ fun hr _ x hx ho => ?_) _
  rcases hx with hx | hx
  · have hx' : x ∈ (makeRoom s.sheets.today).entries ∨ x = asCarried e := by
      simpa [mergeSheet] using hx
    rcases hx' with hx | hx
    · exact Or.inr ((hasOpen_iff _ _).mpr ⟨x, Or.inl (mem_makeRoom hx), rfl, ho⟩)
    · subst hx; exact Or.inl (he hr)
  · exact Or.inr ((hasOpen_iff _ _).mpr ⟨x, Or.inr hx, rfl, ho⟩)

/-- The states of the slots. -/
def slotStates (s : State) : Vector SlotState 128 := s.table.slots.map Slot.state

theorem states_updSlot (s : State) (i : SlotNo) (f : Slot → Slot) (hf : ∀ x, (f x).state = x.state) :
    slotStates (updSlot i f s) = slotStates s := by
  simp [slotStates, map_modify _ _ _ _ hf]

theorem states_writeSkipped (s : State) (es : List Entry) : slotStates (writeSkipped es s) = slotStates s := by
  refine foldl_view slotStates _ (fun s e => ?_) _ _
  unfold writeOutcome
  split
  · rfl
  · exact states_updSlot _ _ _ fun x => by cases (EntryState.skipped) <;> rfl

theorem states_replaceTallies (s : State) (new : Vector Nat 128) : slotStates (replaceTallies new s) = slotStates s := by
  unfold replaceTallies
  refine (foldl_view slotStates _ (fun s i => ?_) _ _).trans rfl
  unfold writeTally
  split
  · split
    · rfl
    · exact states_updSlot _ _ _ fun _ => rfl
  · rfl

theorem states_installDay (s : State) : slotStates (installDay s) = slotStates s := by
  unfold installDay
  dsimp only
  split
  · rw [states_replaceTallies, states_writeSkipped]; rfl
  · unfold requestToday
    split <;> rfl

theorem states_joinCarried (s : State) (e : Entry) : slotStates (joinCarried e s) = slotStates s := by
  unfold joinCarried rekeyLane
  dsimp only
  split
  · split
    · simp [slotStates]
    · rfl
  · rfl

theorem state_of_states {s t : State} (h : slotStates t = slotStates s) (i : SlotNo) :
    (getSlot t i).state = (getSlot s i).state := get_of_map_eq h i

theorem carried_open {s : State} {e : Entry} (h : e ∈ carriedEntries s) : hasOpen s e.key.slot = true := by
  simp only [carriedEntries, List.mem_filter, Bool.and_eq_true, beq_iff_eq] at h
  exact (hasOpen_iff _ _).mpr ⟨e, Or.inl h.1, rfl, by rw [h.2.1]; rfl⟩

theorem keeps_joinAll (u : State) (es : List Entry) (he : ∀ e ∈ es, e ∈ carriedEntries u) {t : State}
    (hst : slotStates t = slotStates u) (ht : Keeps u t) : Keeps u (es.foldl (fun acc e => joinCarried e acc) t) := by
  induction es generalizing t with
  | nil => exact ht
  | cons e es ih =>
    refine ih (fun x hx => he x (List.mem_cons_of_mem _ hx)) ((states_joinCarried t e).trans hst)
      (keeps_joinCarried ht e fun hu => ?_)
    rw [state_of_states hst]
    by_cases hl : (getSlot u e.key.slot).state = .live
    · exact hl
    · have := hu _ hl
      rw [carried_open (he e (List.mem_cons_self ..))] at this
      cases this

/-- The sheets of the new day, with the carried entries joined. -/
theorem keeps_newSheet (u : State) (t : TimeBase) (x : Sheets) (hx : x.today = u.sheets.today) (hx2 : x.standby = u.sheets.standby) :
    Keeps u ((carriedEntries u).foldl (fun acc e => joinCarried e acc)
      (installDay (abandonBuilds { u with time := t, sheets := x }))) := by
  refine keeps_joinAll u _ (fun _ h => h) ?_ (keeps_installDay (keeps_abandonBuilds (keeps_view (Keeps.refl u) ?_)))
  · rw [states_installDay]; rfl
  · simp [lawView, hx, hx2]

theorem keeps_dayChange {r s : State} (h : Keeps r s) : Keeps r (dayChange s) := by
  have h1 := keeps_finishDay h
  unfold dayChange
  dsimp only
  generalize finishDay s = u at h1 ⊢
  exact keeps_spentCheckAll (keeps_requestStandby (keeps_dropStandby (keeps_recomputeLit (keeps_fallDueNow
    (h1.trans (keeps_newSheet u _ _ rfl rfl))))))

theorem keeps_noteInstant {r s : State} (h : Keeps r s) : Keeps r (noteInstant s) := keeps_view h rfl

theorem keeps_endSecond {r s : State} (h : Keeps r s) : Keeps r (endSecond s) := by
  have h1 : ∀ n t, Keeps r { s with elapsed := n, time := t } := fun n t => keeps_view h rfl
  have h0 : ∀ n, Keeps r { s with elapsed := n } := fun n => keeps_view h rfl
  have h2 : ∀ n t, Keeps r (if dayEnds s.time = true then dayChange (expireOverrides { s with elapsed := n, time := t })
      else noteInstant { s with elapsed := n, time := t }) := by
    intro n t
    split
    · exact keeps_dayChange (keeps_expireOverrides (h1 n t))
    · exact keeps_noteInstant (h1 n t)
  unfold endSecond
  dsimp only
  split
  · exact keeps_endRange (h0 _)
  · split
    · exact keeps_evaluateAll (h2 _ _)
    · exact h2 _ _

theorem keeps_pulse {r s : State} (h : Keeps r s) : Keeps r (pulse s) := by
  have hd : Keeps r (dropWaiting s) := keeps_updTime h _
  unfold pulse
  split
  · exact h
  · split
    · unfold takePair outlyingPair
      dsimp only
      split
      · exact keeps_updTime hd _
      · split
        · exact keeps_takeStep hd _
        · exact keeps_updTime hd _
    · exact hd

theorem keeps_assemble {r s : State} (h : Keeps r s) (got : List Byte) : Keeps r (assemble got s) := keeps_updTime h _

theorem keeps_receiveBytes {r s : State} (h : Keeps r s) (bytes : List Byte) : Keeps r (receiveBytes bytes s) := by
  unfold receiveBytes completeMessage
  split
  · exact h
  · split
    · exact keeps_assemble h _
    · dsimp only
      split
      · exact keeps_assemble h _
      · split
        · exact keeps_assemble h _
        · split
          · exact keeps_updTime (keeps_assemble h _) _
          · exact keeps_assemble h _

theorem keeps_abandonMessage {r s : State} (h : Keeps r s) : Keeps r (abandonMessage s) := by
  unfold abandonMessage
  split
  · exact keeps_updTime h _
  · exact keeps_assemble h _

/-! ### The resolver -/

theorem keeps_startRun {r s : State} (h : Keeps r s) (kind : RunKind) : Keeps r (startRun kind s) := by
  cases kind <;> exact keeps_view h rfl

theorem keeps_endRun {r s : State} (h : Keeps r s) : Keeps r (endRun s) := keeps_updResolver h _

theorem mem_installable {s : State} {kept g : List Entry} {e : Entry} (h : e ∈ installable s kept g) :
    (getSlot s e.key.slot).state = .live := by
  simp only [installable, List.mem_filter, Bool.and_eq_true, beq_iff_eq] at h
  exact h.2.1

theorem mem_dropTo {room : Nat} {es : List Entry} {e : Entry} (h : e ∈ (dropTo room es).2) : e ∈ es :=
  (mem_sortBy _ _ _).mp (List.mem_of_mem_drop h)

theorem keeps_installToday {r s : State} (h : Keeps r s) (g : List Entry) : Keeps r (installToday g s) := by
  unfold installToday
  refine keeps_recomputeLit (keeps_fallDueNow (keeps_setFlagIf (keeps_setFlag (keeps_replaceTallies (keeps_writeSkipped
    (keeps_sheets h _ fun _ _ e he ho => ?_) _) _) _) _ _))
  rcases he with he | he
  · simp only [mergeSheet, mem_sortBy, List.mem_append] at he
    rcases he with he | he
    · exact Or.inr ((hasOpen_iff _ _).mpr ⟨e, Or.inl (List.mem_filter.mp he).1, rfl, ho⟩)
    · exact Or.inl (mem_installable (mem_dropTo he))
  · exact Or.inr ((hasOpen_iff _ _).mpr ⟨e, Or.inr he, rfl, ho⟩)

theorem keeps_installStandby {r s : State} (h : Keeps r s) (g : List Entry) (b : Bool) :
    Keeps r (installStandby g b s) := by
  unfold installStandby
  refine keeps_setFlagIf (keeps_setFlag (keeps_sheets h _ fun _ _ e he ho => ?_) _) _ _
  rcases he with he | he
  · exact Or.inr ((hasOpen_iff _ _).mpr ⟨e, Or.inl he, rfl, ho⟩)
  · simp only [mergeSheet, mem_sortBy, List.mem_append, List.not_mem_nil, false_or] at he
    exact Or.inl (mem_installable (mem_dropTo he))

/-! ### Sheets, lanes and the player -/

theorem keeps_expireGrace {r s : State} (h : Keeps r s) : Keeps r (expireGrace s) := by
  unfold expireGrace
  split
  · exact keeps_finalise h _ _ rfl
  · exact h

theorem keeps_endQuiet {r s : State} (h : Keeps r s) : Keeps r (endQuiet s) := by
  unfold endQuiet
  split
  · exact h
  · split
    · exact keeps_finalise h _ _ rfl
    · exact h

theorem keeps_fallOne {r s : State} (h : Keeps r s) : Keeps r (fallOne s) := by
  unfold fallOne
  split
  · exact h
  · split
    · next e he =>
      split
      · next hf =>
        exact keeps_becomeDue h _
          ((hasOpen_iff _ _).mpr ⟨e, Or.inl (List.mem_of_find?_eq_some he), rfl, fallsDue_open hf⟩)
      · exact keeps_lightEffect (keeps_view h (by rfl)) _
    · exact h

theorem keeps_laneTakes {r s : State} (h : Keeps r s) (lane : Lane) : Keeps r (laneTakes lane s) := by
  unfold laneTakes
  split
  · exact keeps_settlePeal (keeps_lookFor h _)
  · exact h

theorem keeps_tollNext {r s : State} (h : Keeps r s) : Keeps r (tollNext s) := by
  unfold tollNext
  split
  · exact h
  · split
    · exact h
    · split
      · exact keeps_requestStroke (keeps_setTollRun h _) _ _ _
      · exact h

theorem keeps_noteStarts {r s : State} (h : Keeps r s) : Keeps r (noteStarts s) := by
  unfold noteStarts
  split
  · exact h
  · split
    · exact h
    · split
      · unfold playNote
        dsimp only
        split
        · exact keeps_setPlayer h _
        · unfold soundNote
          dsimp only
          split
          · exact keeps_updTune (keeps_serveDeferred (keeps_setPlayer h _) _ _) _ _
          · exact keeps_strokeDue (keeps_serveDeferred (keeps_setPlayer h _) _ _) _ _ _ _
      · exact h

theorem keeps_playEnds {r s : State} (h : Keeps r s) : Keeps r (playEnds s) := by
  unfold playEnds
  split
  · exact h
  · split
    · exact h
    · split
      · unfold afterPlay
        split
        · exact keeps_startPlay (keeps_setPlayer (keeps_updTune h _ _) _) _
        · split
          · exact keeps_setPlayer (keeps_updTune h _ _) _
          · exact keeps_endLane (keeps_setPlayer (keeps_updTune h _ _) _) _ _ rfl
      · exact h

theorem keeps_hourStroke {r s : State} (h : Keeps r s) : Keeps r (hourStroke s) := by
  unfold hourStroke
  split
  · exact h
  · split
    · exact h
    · split
      · exact keeps_requestStroke (keeps_setPlayer h _) _ _ _
      · exact h

theorem keeps_completeCheck {r s : State} (h : Keeps r s) (t : TuneNo) : Keeps r (completeCheck t s) := by
  unfold completeCheck
  dsimp only
  split <;> exact keeps_setFlag (keeps_updTune h _ _) _

/-! ### Bells -/

theorem keeps_makeAbsent {r s : State} (h : Keeps r s) (st : Station) : Keeps r (makeAbsent st s) := by
  unfold makeAbsent
  dsimp only
  split
  · exact keeps_withdrawOrders
      (keeps_updBell (keeps_enterPosition (keeps_pealLeave (keeps_withdrawRequest h _) _) _ _) _ _ (by intro _; rfl)) _
  · exact keeps_withdrawOrders
      (keeps_updBell (keeps_enterPosition (keeps_pealLeave h _) _ _) _ _ (by intro _; rfl)) _

theorem keeps_acceptBell {r s : State} (h : Keeps r s) (st : Station) (c : BellConfig) : Keeps r (acceptBell st c s) := by
  have h1 : Keeps r (updBell st (configureBell c) s) := keeps_updBell h _ _ (by intro _; rfl)
  unfold acceptBell
  dsimp only
  refine keeps_settlePeal ?_
  split
  · split
    · exact keeps_makeAbsent h1 _
    · exact keeps_updBell h1 _ _ (by intro _; rfl)
  · split
    · exact keeps_checkStrikable h1 _
    · exact keeps_becomeUnsure (keeps_updBell h1 _ _ (by intro _; rfl)) _

theorem keeps_replyByState {r s : State} (h : Keeps r s) (st : Station) (x : Reply) : Keeps r (replyByState st x s) := by
  have hm : Keeps r (foundMoving st x s) := by
    have hu : Keeps r (foundUp st s) := by
      unfold foundUp
      split
      · exact keeps_enterPosition h _ _
      · exact keeps_orderLower (keeps_checkStrikable (keeps_updBell h _ _ (by intro _; rfl)) _) _
    unfold foundMoving
    split
    · exact keeps_movedByHand h _
    · split
      · exact keeps_enterPosition h _ _
      · exact hu
      · exact hu
      · exact h
  unfold replyByState
  split
  · unfold replyRaising
    split
    · exact keeps_raiseFailed h _
    · split
      · exact h
      · exact h
      · exact keeps_enterPosition h _ _
      · exact keeps_raiseFailed h _
  · unfold replyUp
    split
    · exact keeps_becomeDown (keeps_pealLeave (keeps_faultEvent h _) _) _
    · exact h
    · exact h
    · exact keeps_enterPosition (keeps_pealLeave (keeps_faultEvent h _) _) _ _
  · split
    · exact keeps_becomeDown h _
    · exact h
  · split
    · exact keeps_becomeDown h _
    · exact hm
  · split
    · exact keeps_knownDown h _
    · exact hm
  · split
    · exact keeps_knownDown h _
    · exact h
  · exact h

theorem keeps_applyReply {r s : State} (h : Keeps r s) (st : Station) (x : Reply) : Keeps r (applyReply st x s) := by
  unfold applyReply
  dsimp only
  split
  · exact h
  · split
    · exact keeps_replyByState (keeps_faultEvent (keeps_updBell h _ _ (by intro _; rfl)) _) _ _
    · exact keeps_replyByState (keeps_updBell h _ _ (by intro _; rfl)) _ _

theorem keeps_reportAcknowledged {r s : State} (h : Keeps r s) (st : Station) : Keeps r (reportAcknowledged st s) := by
  unfold reportAcknowledged
  split
  · exact h
  · exact keeps_updBell h _ _ (by intro _; rfl)

theorem keeps_reportUnanswered {r s : State} (h : Keeps r s) (st : Station) : Keeps r (reportUnanswered st s) := by
  have h1 : Keeps r (updBell st (fun b => { b with noAnswer := min Config.noAnswerLimit (b.noAnswer + 1) }) s) :=
    keeps_updBell h _ _ (by intro _; rfl)
  unfold reportUnanswered
  dsimp only
  split
  · exact h
  · split
    · split
      · exact keeps_becomeFault (keeps_updBell (keeps_withdrawRequest h1 _) _ _ (by intro _; rfl)) _
      · exact keeps_becomeFault (keeps_updBell h1 _ _ (by intro _; rfl)) _
    · exact h1

theorem keeps_strikeSent {r s : State} (h : Keeps r s) (st : Station) (who : Requester) : Keeps r (strikeSent st who s) := by
  unfold strikeSent
  refine keeps_answerStroke ?_ _ _
  split
  · exact h
  · exact keeps_updBell h _ _ (by intro _; rfl)

theorem keeps_takePoll {r s : State} (h : Keeps r s) (st : Station) : Keeps r (takePoll st s) :=
  keeps_pollNow (keeps_updBell h _ _ (by intro _; rfl)) _

theorem keeps_excludeWaiting {r s : State} (h : Keeps r s) : Keeps r (excludeWaiting s) := by
  unfold excludeWaiting
  split
  · exact h
  · exact keeps_settlePeal
      (keeps_foldl _ (fun _ st h => keeps_pealLeave (keeps_withdrawRequest h st) st) _ (keeps_peal h _))

theorem keeps_endRinging {r s : State} (h : Keeps r s) : Keeps r (endRinging s) := by
  unfold endRinging
  split
  · exact keeps_beginLowering h _
  · exact h

theorem keeps_offerFirst {r s : State} (h : Keeps r s) : Keeps r (offerFirst s) := by
  unfold offerFirst
  split
  · exact keeps_offerOwed h _
  · exact h

theorem keeps_admitWaiting {r s : State} (h : Keeps r s) (st : Station) : Keeps r (admitWaiting st s) := by
  unfold admitWaiting
  split
  · exact h
  · split
    · exact keeps_settlePeal (keeps_retryOne h _ _)
    · exact h

theorem keeps_takeBell {r s : State} (h : Keeps r s) (st : Station) : Keeps r (takeBell st s) := by
  unfold takeBell
  dsimp only
  split
  · exact keeps_withdrawOrders (keeps_loseDeferred
      (keeps_withdrawRequest (keeps_pealLeave (keeps_updBell h _ _ (by intro _; rfl)) _) _) _) _
  · exact keeps_withdrawOrders (keeps_loseDeferred (keeps_pealLeave (keeps_updBell h _ _ (by intro _; rfl)) _) _) _

theorem keeps_grantBell {r s : State} (h : Keeps r s) (st : Station) : Keeps r (grantBell st s).1 := by
  unfold grantBell
  dsimp only
  split
  · exact h
  · split
    · exact h
    · split
      · exact keeps_takeBell h _
      · have ha := keeps_askAdmission h st false
        generalize askAdmission st false s = p at ha
        obtain ⟨s1, b⟩ := p
        cases b
        · exact ha
        · exact keeps_takeBell (s := s1) ha _

theorem keeps_grantAll {r s : State} (h : Keeps r s) (sts : List Station) (g : BellSet) : Keeps r (grantAll sts s g).1 := by
  induction sts generalizing s g with
  | nil => exact h
  | cons st rest ih =>
    have ha := keeps_grantBell h st
    unfold grantAll
    generalize grantBell st s = p at ha
    obtain ⟨s1, b⟩ := p
    cases b
    · exact ih (s := s1) ha g
    · exact ih (s := s1) ha _

theorem keeps_claimBells {r s : State} (h : Keeps r s) (set : BellSet) : Keeps r (claimBells set s).1 :=
  keeps_settlePeal (keeps_setFlagIf (keeps_grantAll h _ _) _ _)

theorem keeps_releaseBells {r s : State} (h : Keeps r s) (set : BellSet) : Keeps r (releaseBells set s) :=
  keeps_settlePeal (keeps_setFlagIf
    (keeps_foldl _ (fun _ st h => keeps_becomeUnsure (keeps_updBell h _ _ (by intro _; rfl)) st) _ h) _ _)

theorem keeps_consoleMoves {r s : State} (h : Keeps r s) (st : Station) (pos : Position) :
    Keeps r (consoleMoves st pos s) := by
  unfold consoleMoves
  split
  · exact keeps_askMoving h _
  · exact keeps_askMoving (keeps_enterPosition h _ _) _

theorem keeps_observeOrder {r s : State} (h : Keeps r s) (st : Station) (o : ConsoleOrder) :
    Keeps r (observeOrder st o s) := by
  unfold observeOrder
  split
  · exact keeps_consoleMoves h _ _
  · exact keeps_enterPosition h _ _
  · exact keeps_enterPosition h _ _
  · unfold consoleReply
    split
    · exact keeps_becomeDown h _
    all_goals exact keeps_consoleMoves h _ _

theorem keeps_handObserved {r s : State} (h : Keeps r s) (address : Byte) (bytes : List Byte) :
    Keeps r (handObserved address bytes s) := by
  unfold handObserved
  split
  · exact h
  · split
    · split
      · exact keeps_foldl _ (fun _ st h => keeps_observeOrder h st _) _ h
      · exact h
    · split
      · split
        · exact keeps_observeOrder h _ _
        · exact h
      · exact h

theorem keeps_queryAll {r s : State} (h : Keeps r s) : Keeps r (queryAll s) := by
  unfold queryAll
  refine keeps_foldl _ (fun s st h => ?_) _ h
  unfold queryStation
  split
  · exact keeps_offerOwed (keeps_makeOrder h _ _) _
  · exact h

theorem keeps_bellsLineFault {r s : State} (h : Keeps r s) : Keeps r (bellsLineFault s) :=
  keeps_foldl _ (fun _ st h => keeps_becomeUnsure (keeps_pealLeave h st) st) _ h

theorem keeps_withdrawRaises {r s : State} (h : Keeps r s) : Keeps r (withdrawRaises s) := keeps_waiting h _

theorem keeps_loseAllDeferred {r s : State} (h : Keeps r s) : Keeps r (loseAllDeferred s) :=
  keeps_foldl _ (fun _ st h => keeps_loseDeferred h st) _ h

theorem keeps_bellsMainsLoss {r s : State} (h : Keeps r s) : Keeps r (bellsMainsLoss s) :=
  keeps_setFlagIf
    (keeps_peal (keeps_mapBells (keeps_withdrawRaises (keeps_loseAllDeferred h)) mainsLossFields (by intro _; rfl)) _) _ _

theorem keeps_bellsWarmStart {r s : State} (h : Keeps r s) : Keeps r (bellsWarmStart s) :=
  keeps_queryAll (keeps_mapBells h (resumePoll s.elapsed) (by intro _; rfl))

theorem keeps_bellsResetFirst {r s : State} (h : Keeps r s) : Keeps r (bellsResetFirst s) :=
  keeps_foldl _ (fun _ st h => keeps_startPolling h st) _
    (keeps_mapBells (keeps_withdrawRaises (keeps_loseAllDeferred h)) (resetFields s.elapsed) (by intro _; rfl))

theorem keeps_bellsResetLower {r s : State} (h : Keeps r s) : Keeps r (bellsResetLower s) := by
  unfold bellsResetLower
  refine keeps_foldl _ (fun s st h => ?_) _ h
  split
  · exact keeps_orderLower h _
  · exact h

theorem keeps_bellsResetAsk {r s : State} (h : Keeps r s) : Keeps r (bellsResetAsk s) := by
  unfold bellsResetAsk
  refine keeps_foldl _ (fun s st h => ?_) _ h
  split
  · exact keeps_askMoving h _
  · exact h

/-! ### The line -/

theorem keeps_sampleWires {r s : State} (h : Keeps r s) (lck lda : Bool) : Keeps r (sampleWires lck lda s) :=
  keeps_pins h _

theorem keeps_clockSeen {r s : State} (h : Keeps r s) : Keeps r (clockSeen s) := keeps_sampleWires h _ _

theorem keeps_lineIdle {r s : State} (h : Keeps r s) : Keeps r (lineIdle s) := keeps_updLine h _

theorem keeps_frameStopped {r s : State} (h : Keeps r s) : Keeps r (frameStopped s) := keeps_lineIdle (keeps_sampleWires h _ _)

theorem keeps_frameBroken {r s : State} (h : Keeps r s) : Keeps r (frameBroken s) := keeps_lineIdle (keeps_clockSeen h)

theorem keeps_discardLate {r s : State} (h : Keeps r s) (fuel : Nat) : Keeps r (discardLate fuel s) := by
  induction fuel generalizing s with
  | zero => exact h
  | succ n ih =>
    unfold discardLate
    split
    · exact h
    · split
      · exact h
      · refine ih ?_
        unfold discardStrike
        dsimp only
        split
        · exact keeps_reportUnanswered (keeps_strikeLost (keeps_updLine h _) _) _
        · exact keeps_strikeLost (keeps_updLine h _) _

theorem keeps_orderReturned {r s : State} (h : Keeps r s) (o : Order) : Keeps r (orderReturned o s) := by
  unfold orderReturned
  split
  · exact keeps_answerStroke h _ _
  · split
    · exact h
    · exact keeps_owe h _ _

theorem keeps_lineFault {r s : State} (h : Keeps r s) (cause : FaultCause) : Keeps r (lineFault cause s) :=
  keeps_settlePeal (keeps_bellsLineFault (keeps_setFlag
    (keeps_foldl _ (fun _ o h => keeps_orderReturned h o) _ (keeps_updLine (keeps_updLine h _) _)) _))

theorem keeps_flushLine {r s : State} (h : Keeps r s) (st : LineState) : Keeps r (flushLine st s) :=
  keeps_strikesLost (keeps_updLine h _) _

theorem keeps_linePanelReset {r s : State} (h : Keeps r s) : Keeps r (linePanelReset s) := by
  unfold linePanelReset
  dsimp only
  split
  · exact keeps_updLine (keeps_flushLine h _) _
  · exact keeps_updLine (keeps_flushLine h _) _

theorem keeps_lineWarmStart {r s : State} (h : Keeps r s) : Keeps r (lineWarmStart s) := by
  have h1 : Keeps r (restartClock s) := keeps_pins h _
  unfold lineWarmStart
  dsimp only
  split
  · exact keeps_updLine (keeps_updLine h1 _) _
  · exact h1

theorem keeps_attemptFailed {r s : State} (h : Keeps r s) (kind : AttemptKind) (cause : FaultCause) :
    Keeps r (attemptFailed kind cause s) := by
  unfold attemptFailed
  split
  · exact keeps_setFlag (keeps_updLine h _) _
  · exact keeps_lineFault h _

theorem keeps_attemptOver {r s : State} (h : Keeps r s) (x : AttemptResult) : Keeps r (attemptOver x s) := by
  unfold attemptOver
  split
  · exact h
  · split
    · exact keeps_queryAll (keeps_sampleWires (keeps_updLine h _) _ _)
    · exact keeps_attemptFailed (keeps_sampleWires h _ _) _ _
    · exact keeps_attemptFailed (keeps_sampleWires h _ _) _ _

theorem keeps_frameStart {r s : State} (h : Keeps r s) (lck lda : Bool) : Keeps r (frameStart lck lda s) := by
  unfold frameStart
  dsimp only
  split
  case isFalse => exact h
  split
  · have h1 : ∀ n, Keeps r (discardLate n (sampleWires lck lda s)) := fun n => keeps_discardLate (keeps_sampleWires h _ _) n
    refine keeps_settlePeal ?_
    unfold tryWires
    split
    · exact h1 _
    · split
      · exact keeps_updLine (h1 _) _
      · split
        · exact h1 _
        · unfold sendHead
          split
          · exact h1 _
          · exact keeps_updLine (h1 _) _
  · exact keeps_sampleWires h _ _

theorem keeps_attemptEnd {r s : State} (h : Keeps r s) (a : StationAnswer) : Keeps r (attemptEnd a s) := by
  unfold attemptEnd
  split
  · exact h
  · refine keeps_settlePeal ?_
    split
    · unfold orderAnswered
      dsimp only
      have h1 := fun st => keeps_reportAcknowledged (keeps_frameStopped h) st
      split
      · exact keeps_strikeSent (h1 _) _ _
      · exact keeps_applyReply (h1 _) _ _
      all_goals exact h1 _
    · unfold orderUnanswered
      split
      · exact keeps_updLine (keeps_frameStopped h) _
      · exact keeps_reportUnanswered (keeps_strikeLost (keeps_frameStopped h) _) _

theorem keeps_loseArbitration {r s : State} (h : Keeps r s) (f : FrameHead) :
    Keeps r (loseArbitration f s) := by
  unfold loseArbitration
  split
  · split
    · exact keeps_updLine (keeps_clockSeen h) _
    · exact h
  · exact h
  · exact h

theorem keeps_foreignBegins {r s : State} (h : Keeps r s) (address : Byte) : Keeps r (foreignBegins address s) := by
  unfold foreignBegins
  split
  · exact keeps_updLine (keeps_clockSeen h) _
  · exact h

theorem keeps_observedStop {r s : State} (h : Keeps r s) (rest : List Byte) (ack : Bool) :
    Keeps r (observedStop rest ack s) := by
  unfold observedStop
  split
  · exact h
  · split
    · exact keeps_frameStopped h
    · refine keeps_settlePeal ?_
      split
      · exact keeps_handObserved (keeps_frameStopped h) _ _
      · exact keeps_frameStopped h

theorem keeps_claimFrame {r s : State} (h : Keeps r s) (set : BellSet) : Keeps r (claimFrame set s) := by
  unfold claimFrame
  split
  · exact keeps_updLine (keeps_claimBells (keeps_clockSeen h) _) _
  · exact h

theorem keeps_releaseFrame {r s : State} (h : Keeps r s) (order : Byte) (set : BellSet) :
    Keeps r (releaseFrame order set s) := by
  unfold releaseFrame
  split
  · exact keeps_releaseBells (keeps_frameStopped h) _
  · exact h

theorem keeps_addressedStop {r s : State} (h : Keeps r s) : Keeps r (addressedStop s) := by
  unfold addressedStop
  split
  · exact keeps_frameStopped h
  · exact h

theorem keeps_busErrorIn {r s : State} (h : Keeps r s) : Keeps r (busErrorIn s) := by
  unfold busErrorIn
  split
  · split
    · refine keeps_settlePeal ?_
      unfold orderBroken
      dsimp only
      split
      · exact keeps_updLine (keeps_updLine (keeps_frameBroken h) _) _
      · exact keeps_orderReturned (keeps_updLine (keeps_frameBroken h) _) _
    · exact h
  · exact keeps_updLine (keeps_frameBroken h) _
  · exact keeps_frameBroken h
  all_goals exact h

theorem keeps_forceAccess {r s : State} (h : Keeps r s) : Keeps r (forceAccess s) := keeps_updLine (keeps_frameBroken h) _

theorem keeps_pulsesDone {r s : State} (h : Keeps r s) (freed : Bool) : Keeps r (pulsesDone freed s) := by
  unfold pulsesDone
  dsimp only
  split
  · split
    · exact keeps_lineIdle (keeps_sampleWires h _ _)
    · exact keeps_lineFault (keeps_sampleWires h _ _) _
  · exact h

theorem keeps_clockFault {r s : State} (h : Keeps r s) : Keeps r (clockFault s) := by
  unfold clockFault
  split
  · exact keeps_lineFault (keeps_sampleWires h _ _) _
  · exact h

/-! ### Dials' events, lights, power and mains -/

theorem keeps_endImpulse {r s : State} (h : Keeps r s) (d : DialNo) (o : Bool) : Keeps r (endImpulse d o s) := by
  have h1 : Keeps r (updDial d impulseEnds s) := keeps_updDial h _ _
  unfold endImpulse
  dsimp only
  refine keeps_evaluate ?_ _
  split
  · split
    · exact keeps_senseDial (keeps_pins (keeps_takeClosure h1 _) _) _
    · exact keeps_senseDial (keeps_pins h1 _) _
  · split
    · exact keeps_takeClosure h1 _
    · exact h1

theorem keeps_closureOf {r s : State} (h : Keeps r s) (d : DialNo) : Keeps r (closureOf d s) := by
  unfold closureOf
  split
  · exact h
  · split
    · exact keeps_updDial h _ _
    · split
      · exact h
      · exact keeps_evaluate (keeps_takeClosure h _) _

theorem keeps_targetChange {r s : State} (h : Keeps r s) : Keeps r (targetChange s) := by
  unfold targetChange
  split
  · exact h
  · exact keeps_evaluateAll h

theorem keeps_acceptDial {r s : State} (h : Keeps r s) (d : DialNo) (p : Bool) (w i l : Nat) (y o : Bool) :
    Keeps r (acceptDial d p w i l y o s) := by
  unfold acceptDial
  dsimp only
  refine keeps_evaluate ?_ _
  split
  · exact keeps_senseDial (keeps_pins (keeps_updDial h _ _) _) _
  · exact keeps_updDial h _ _

theorem keeps_cutImpulses {r s : State} (h : Keeps r s) : Keeps r (cutImpulses s) :=
  keeps_foldl _ (fun _ _ h => keeps_updDial h _ _) _ h

theorem keeps_dialsMainsLoss {r s : State} (h : Keeps r s) : Keeps r (dialsMainsLoss s) :=
  keeps_evaluateAll (keeps_cutImpulses h)

theorem keeps_dialsPanelReset {r s : State} (h : Keeps r s) : Keeps r (dialsPanelReset s) := by
  unfold dialsPanelReset
  split
  · exact keeps_evaluateAll (keeps_senseAll h)
  · exact keeps_evaluateAll h

theorem keeps_lightsOut {r s : State} (h : Keeps r s) : Keeps r (lightsOut s) := by
  refine keeps_setLights h _ (fun x => ?_) rfl
  obtain ⟨hz, hs, hc⟩ := x
  refine ⟨fun z => ?_, hs, ?_⟩
  · obtain ⟨a, b, c, d⟩ := hz z
    simp only [get_map]
    exact ⟨Nat.zero_le _, b, c, d⟩
  · refine Nat.le_trans (committed_le_of_zones (l := s.lights) rfl fun z => ?_) hc
    simp [presentLoad, zoneLoad]

theorem keeps_mainsLoss {r s : State} (h : Keeps r s) : Keeps r (mainsLoss s) :=
  keeps_lightsOut (keeps_dialsMainsLoss (keeps_flushLine (keeps_bellsMainsLoss
    (keeps_cutAllLanes (keeps_setFlag (keeps_view h (by rfl)) _))) _))

theorem keeps_mainsBack {r s : State} (h : Keeps r s) (opens : DialSet) : Keeps r (mainsBack opens s) := by
  have h1 : Keeps r (sampleCircuits opens (setFlag .mainsBack (setMains true .present s))) := keeps_view h rfl
  unfold mainsBack
  dsimp only
  generalize sampleCircuits opens (setFlag .mainsBack (setMains true .present s)) = u at h1 ⊢
  have h2 : Keeps r (dialsWarmStart (bellsWarmStart (lineWarmStart u))) :=
    keeps_evaluateAll (keeps_senseAll (keeps_cutImpulses (keeps_bellsWarmStart (keeps_lineWarmStart h1))))
  generalize dialsWarmStart (bellsWarmStart (lineWarmStart u)) = v at h2 ⊢
  exact keeps_settlePeal (keeps_loadFreed (keeps_findWanted h2))

theorem keeps_lockSlots {r s : State} (h : Keeps r s) (b : Bool) : Keeps r (lockSlots b s) := by
  refine keeps_view h ?_
  have : (s.table.slots.map fun x => ({ x with locked := b } : Slot)).map Slot.state = s.table.slots.map Slot.state := by
    apply vector_ext_get; intro i; simp
  simp [lawView, lockSlots, this]

theorem keeps_lockTunes {r s : State} (h : Keeps r s) (b : Bool) : Keeps r (lockTunes b s) := keeps_view h rfl

theorem keeps_panelReset {r s : State} (h : Keeps r s) (opens : DialSet) : Keeps r (panelReset opens s) := by
  have h1 : Keeps r (sampleCircuits opens (timePanelReset (lockTunes true (lockSlots true (clearAllFlags (portReset s)))))) :=
    keeps_pins (keeps_updTime (keeps_lockTunes (keeps_lockSlots (keeps_view h (by rfl)) true) true) _) _
  exact keeps_bellsResetAsk (keeps_trigger (keeps_discardAll (keeps_dialsPanelReset (keeps_waiting
    (keeps_bellsResetLower (keeps_cutAllLanes (keeps_bellsResetFirst (keeps_linePanelReset h1)))) _))))

theorem keeps_powerUpHeld {r s : State} (h : Keeps r s) (high : Bool) (opens : DialSet) :
    Keeps r (powerUpHeld high opens s) := by
  have h1 : Keeps r (panelReset opens { s with power := .running }) := keeps_panelReset (keeps_view h (by rfl)) _
  unfold powerUpHeld
  dsimp only
  have h2 := keeps_stepToDate h1 true (powerUpTime (panelReset opens { s with power := .running }).time)
  generalize stepToDate true (powerUpTime (panelReset opens { s with power := .running }).time)
    (panelReset opens { s with power := .running }) = u at h2 ⊢
  unfold powerUpMains
  split
  · exact keeps_mainsBack h2 _
  · split
    · exact keeps_mainsLoss h2
    · exact keeps_view h2 rfl

/-! ### Zones, scenes and the allowance -/

theorem keeps_shedToFit {r s : State} (h : Keeps r s) (l : Lights) (hz : lightsOk s.lights → zonesOk l)
    (ha : lightsOk s.lights → reservTotal l ≤ l.allowance) (hr : l.reserv = s.lights.reserv) :
    Keeps r (shedToFit (setLights l s)) := by
  unfold shedToFit
  split
  · next hc => exact keeps_setLights h _ (fun x => ⟨(hz x).1, (hz x).2, hc⟩) hr
  · refine keeps_setFlag (keeps_setLights (s := s) h _ (fun x => (shedToFit_spec l (hz x) (ha x)).1) ?_) _
    have : ∀ enough fuel l, (shedUntil enough fuel l).reserv = l.reserv := by
      intro enough fuel
      induction fuel with
      | zero => intro l; rfl
      | succ n ih =>
        intro l
        unfold shedUntil
        split
        · rfl
        · rw [ih]; unfold shedStep; split <;> rfl
    exact (this _ _ _).trans hr

theorem keeps_acceptZone {r s : State} (h : Keeps r s) (z : ZoneNo) (a b c p : Nat) (hab : a ≤ b) (hbc : b ≤ c) :
    Keeps r (acceptZone z a b c p s) := by
  have h1 : Keeps r (shedToFit (setLights (updZone z (configureZone a b c p) s.lights) s)) := by
    refine keeps_shedToFit h _ (fun x => zonesOk_updZone _ _ _ ⟨x.1, x.2.1⟩ ?_) (fun x => ?_) rfl
    · obtain ⟨h1, h2, _, _⟩ := x.1 z
      exact ⟨h1, h2, hab, hbc⟩
    · have := x.2.2
      simp only [committed] at this
      simp only [reservTotal_updZone]
      exact Nat.le_trans (Nat.le_add_right _ _) this
  unfold acceptZone
  dsimp only
  refine keeps_settlePeal ?_
  split
  · exact keeps_loadFreed h1
  · exact h1

theorem keeps_acceptAllowance {r s : State} (h : Keeps r s) (v : Nat) (hv : reservTotal s.lights ≤ v) :
    Keeps r (acceptAllowance v s) := by
  have h1 : Keeps r (shedToFit (setLights { s.lights with allowance := v } s)) :=
    keeps_shedToFit h _ (fun x => ⟨x.1, x.2.1⟩) (fun _ => hv) rfl
  unfold acceptAllowance
  dsimp only
  refine keeps_settlePeal ?_
  split
  · exact keeps_loadFreed h1
  · exact h1

end Sys2Proof.Machine
end

