-- ==== Sys2Proof/Laws/Memory.lean ====
section
/-! SUPPORT. The laws of the note memory: a read after a write, what a write leaves alone, and the canonical form, which every
memory operation keeps. -/

namespace Sys2Proof.Machine

/-- Every cell of a memory lies at an address above a bound. -/
def Memory.above (m : Memory) (a : Nat) : Prop := ∀ c ∈ m, a < c.1

theorem Memory.wf_tail {c : Host.Cell} {m : Memory} (h : Memory.wf (c :: m) = true) : Memory.wf m = true := by
  cases m with
  | nil => rfl
  | cons d rest => simp [Memory.wf] at h; exact h.2

theorem Memory.wf_head {c : Host.Cell} {m : Memory} (h : Memory.wf (c :: m) = true) : c.2 ≠ blankNoteByte := by
  cases m with
  | nil => simpa [Memory.wf] using h
  | cons d rest => simp [Memory.wf] at h; exact h.1.1

theorem Memory.wf_above {c : Host.Cell} {m : Memory} (h : Memory.wf (c :: m) = true) : Memory.above m c.1 := by
  induction m generalizing c with
  | nil => intro x hx; cases hx
  | cons d rest ih =>
    have hd : c.1 < d.1 := by simp [Memory.wf] at h; exact h.1.2
    intro x hx
    rcases List.mem_cons.mp hx with rfl | hx
    · exact hd
    · exact Nat.lt_trans hd (ih (Memory.wf_tail h) x hx)

theorem Memory.wf_cons {c : Host.Cell} {m : Memory} (h1 : c.2 ≠ blankNoteByte) (h2 : Memory.above m c.1)
    (h3 : Memory.wf m = true) : Memory.wf (c :: m) = true := by
  cases m with
  | nil => simpa [Memory.wf] using h1
  | cons d rest => simp [Memory.wf, h1, h3, h2 d (List.mem_cons_self ..)]

theorem Memory.above_write {m : Memory} {a b : Nat} {x : Byte} (h : Memory.above m a) (hab : a < b) :
    Memory.above (Memory.write m b x) a := by
  induction m with
  | nil =>
    intro c hc
    simp only [Memory.write] at hc
    split at hc
    · cases hc
    · simp at hc; rw [hc]; exact hab
  | cons d rest ih =>
    have hd := h d (List.mem_cons_self ..)
    have hr : Memory.above rest a := fun c hc => h c (List.mem_cons_of_mem _ hc)
    intro c hc
    simp only [Memory.write] at hc
    split at hc
    · split at hc
      · exact h c hc
      · rcases List.mem_cons.mp hc with rfl | hc
        · exact hab
        · exact h c hc
    · split at hc
      · split at hc
        · exact hr c hc
        · rcases List.mem_cons.mp hc with rfl | hc
          · exact hab
          · exact hr c hc
      · rcases List.mem_cons.mp hc with rfl | hc
        · exact hd
        · exact ih hr c hc

/-- A write keeps the canonical form. -/
theorem Memory.wf_write (m : Memory) (a : Nat) (x : Byte) (h : Memory.wf m = true) : Memory.wf (Memory.write m a x) = true := by
  induction m with
  | nil =>
    simp only [Memory.write]
    split
    · rfl
    · next hx => simpa [Memory.wf] using hx
  | cons c rest ih =>
    simp only [Memory.write]
    split
    · next hlt =>
      split
      · exact h
      · next hx =>
        refine Memory.wf_cons hx ?_ h
        intro d hd
        rcases List.mem_cons.mp hd with rfl | hd
        · exact hlt
        · exact Nat.lt_trans hlt (Memory.wf_above h d hd)
    · next hnl =>
      split
      · next heq =>
        split
        · exact Memory.wf_tail h
        · next hx =>
          refine Memory.wf_cons hx ?_ (Memory.wf_tail h)
          intro d hd
          have := Memory.wf_above h d hd
          omega
      · next hne =>
        exact Memory.wf_cons (Memory.wf_head h) (Memory.above_write (Memory.wf_above h) (by omega)) (ih (Memory.wf_tail h))

theorem Memory.read_above {m : Memory} {a : Nat} (h : Memory.above m a) : Memory.read m a = blankNoteByte := by
  induction m with
  | nil => rfl
  | cons c rest ih =>
    have := h c (List.mem_cons_self ..)
    simp only [Memory.read]
    rw [if_neg (by omega)]
    exact ih fun d hd => h d (List.mem_cons_of_mem _ hd)

/-- A read after a write: the byte written at its address, every other byte as it was. -/
theorem Memory.read_write (m : Memory) (a b : Nat) (x : Byte) (h : Memory.wf m = true) :
    Memory.read (Memory.write m a x) b = if a = b then x else Memory.read m b := by
  induction m with
  | nil =>
    simp only [Memory.write]
    split
    · next hx => subst hx; simp [Memory.read]
    · simp [Memory.read]
  | cons c rest ih =>
    simp only [Memory.write]
    split
    · next hlt =>
      split
      · next hx =>
        split
        · next hab =>
          subst hab
          rw [hx]
          simp only [Memory.read]
          rw [if_neg (by omega)]
          exact Memory.read_above fun d hd => Nat.lt_trans hlt (Memory.wf_above h d hd)
        · rfl
      · simp [Memory.read]
    · split
      · next heq =>
        subst heq
        split
        · next hx =>
          split
          · next hab =>
            rw [← hab, hx]; exact Memory.read_above (Memory.wf_above h)
          · next hab => simp only [Memory.read]; rw [if_neg hab]
        · simp only [Memory.read]
          split <;> rfl
      · next hne =>
        simp only [Memory.read, ih (Memory.wf_tail h)]
        split
        · next hcb => rw [if_neg (by omega)]
        · rfl

/-- Replacing a note keeps the canonical form. -/
theorem wf_writeNote (m : Memory) (n : Nat) (x : Note) (h : Memory.wf m = true) : Memory.wf (writeNote m n x) = true :=
  Memory.wf_write _ _ _ (Memory.wf_write _ _ _ h)

/-- Replacing a list of notes keeps the canonical form. -/
theorem wf_writeNotesAt (m : Memory) (n : Nat) (xs : List Note) (h : Memory.wf m = true) :
    Memory.wf (writeNotesAt m n xs) = true := by
  induction xs generalizing m n with
  | nil => exact h
  | cons x xs ih => exact ih _ _ (wf_writeNote m n x h)

/-- A note read after a note was replaced. -/
theorem readNote_writeNote (m : Memory) (n k : Nat) (x : Note) (h : Memory.wf m = true) :
    readNote (writeNote m n x) k = if n = k then x else readNote m k := by
  have h2 := Memory.wf_write m (2 * n) x.1 h
  simp only [readNote, writeNote, Memory.read_write _ _ _ _ h2, Memory.read_write _ _ _ _ h]
  by_cases hk : n = k
  · subst hk; simp
  · rw [if_neg hk, if_neg (by omega), if_neg (by omega), if_neg (by omega), if_neg (by omega)]

/-- A note read after a list of notes was replaced: the list's note inside its run, else as it was. -/
theorem readNote_writeNotesAt (m : Memory) (n k : Nat) (xs : List Note) (h : Memory.wf m = true) :
    readNote (writeNotesAt m n xs) k = if n ≤ k then (xs[k - n]?).getD (readNote m k) else readNote m k := by
  induction xs generalizing m n with
  | nil => simp [writeNotesAt]
  | cons x xs ih =>
    simp only [writeNotesAt]
    rw [ih _ _ (wf_writeNote m n x h), readNote_writeNote m n k x h]
    by_cases hk : n = k
    · subst hk
      rw [if_neg (by omega)]; simp
    · by_cases hlt : n < k
      · rw [if_pos (by omega), if_neg hk, if_pos (by omega)]
        have : k - n = (k - (n + 1)) + 1 := by omega
        rw [this, List.getElem?_cons_succ]
      · rw [if_neg (by omega), if_neg hk, if_neg (by omega)]

/-- The memory of a cold start has the canonical form. -/
theorem wf_reset : Memory.wf State.reset.tunes.notes = true := rfl

/-- Replacing notes of the store keeps the canonical form of its memory. -/
theorem wf_setNotes (n : Nat) (xs : List Note) (s : State) (h : Memory.wf s.tunes.notes = true) :
    Memory.wf (setNotes n xs s).tunes.notes = true := wf_writeNotesAt _ _ _ h

end Sys2Proof.Machine
end

