-- ==== Sys2Proof/Laws/PerInstr.lean ====
section
/-! SUPPORT. The family FrameForm: what the frame of each command looks like, one lemma per constructor of Instr. -/

namespace Sys2Proof.Laws.FrameForm

/-- A command that the port takes has a frame that begins with its command byte, and the byte is one of R212's codes but for a frame that
the port refuses as unknown (R193, R194, R212); an event has no frame. -/
def Statement (i : Instr) : Prop :=
  ∀ f, encodeFrame i = some f →
    ∃ code ops, f = code :: ops ∧ (commandCodes.contains code.toNat = false → i = .unknownCommandFrame code ops)

/-- A command without a frame has the form. -/
theorem of_event {i : Instr} (h : encodeFrame i = none) : Statement i := by
  intro f hf
  rw [h] at hf
  cases hf

/-- A command whose frame begins with a code of R212 has the form. -/
theorem of_code {i : Instr} {code : Byte} {ops : List Byte} (h : encodeFrame i = some (code :: ops))
    (hc : commandCodes.contains code.toNat = true) : Statement i := by
  intro f hf
  rw [h] at hf
  cases hf
  exact ⟨code, ops, rfl, fun hn => by rw [hc] at hn; cases hn⟩

theorem writeRecord (ops : List Byte) : Statement (.writeRecord ops) := of_code rfl rfl
theorem publishRecord (ops : List Byte) : Statement (.publishRecord ops) := of_code rfl rfl
theorem withdrawRecord (ops : List Byte) : Statement (.withdrawRecord ops) := of_code rfl rfl
theorem retireRecord (ops : List Byte) : Statement (.retireRecord ops) := of_code rfl rfl
theorem readRecord (ops : List Byte) : Statement (.readRecord ops) := of_code rfl rfl
theorem findRecords (ops : List Byte) : Statement (.findRecords ops) := of_code rfl rfl
theorem writeProtection (ops : List Byte) (key : KeyLevel) : Statement (.writeProtection ops key) := of_code rfl rfl
theorem readProtection (key : KeyLevel) : Statement (.readProtection key) := of_code rfl rfl
theorem lockSlot (ops : List Byte) : Statement (.lockSlot ops) := of_code rfl rfl
theorem unlockSlot (ops : List Byte) : Statement (.unlockSlot ops) := of_code rfl rfl
theorem lockAll (ops : List Byte) : Statement (.lockAll ops) := of_code rfl rfl
theorem unlockAll (ops : List Byte) : Statement (.unlockAll ops) := of_code rfl rfl
theorem lockTune (ops : List Byte) : Statement (.lockTune ops) := of_code rfl rfl
theorem unlockTune (ops : List Byte) : Statement (.unlockTune ops) := of_code rfl rfl
theorem setTime (ops : List Byte) : Statement (.setTime ops) := of_code rfl rfl
theorem adjustTime (ops : List Byte) : Statement (.adjustTime ops) := of_code rfl rfl
theorem writeTimeSettings (ops : List Byte) : Statement (.writeTimeSettings ops) := of_code rfl rfl
theorem readTime : Statement .readTime := of_code rfl rfl
theorem readTimeSettings : Statement .readTimeSettings := of_code rfl rfl
theorem writeSundayRank (ops : List Byte) : Statement (.writeSundayRank ops) := of_code rfl rfl
theorem readCalendarSettings : Statement .readCalendarSettings := of_code rfl rfl
theorem writeTwilight (ops : List Byte) : Statement (.writeTwilight ops) := of_code rfl rfl
theorem queryDay (ops : List Byte) : Statement (.queryDay ops) := of_code rfl rfl
theorem readQueryResult : Statement .readQueryResult := of_code rfl rfl
theorem readSheet (ops : List Byte) : Statement (.readSheet ops) := of_code rfl rfl
theorem pushOverride (ops : List Byte) : Statement (.pushOverride ops) := of_code rfl rfl
theorem popOverride (ops : List Byte) : Statement (.popOverride ops) := of_code rfl rfl
theorem dropOverride (ops : List Byte) : Statement (.dropOverride ops) := of_code rfl rfl
theorem readOverrides : Statement .readOverrides := of_code rfl rfl
theorem writeBell (ops : List Byte) : Statement (.writeBell ops) := of_code rfl rfl
theorem freeBell (ops : List Byte) : Statement (.freeBell ops) := of_code rfl rfl
theorem readBell (ops : List Byte) : Statement (.readBell ops) := of_code rfl rfl
theorem openTune (ops : List Byte) : Statement (.openTune ops) := of_code rfl rfl
theorem writeNotes (ops : List Byte) : Statement (.writeNotes ops) := of_code rfl rfl
theorem closeTune (ops : List Byte) : Statement (.closeTune ops) := of_code rfl rfl
theorem clearTune (ops : List Byte) : Statement (.clearTune ops) := of_code rfl rfl
theorem readTune (ops : List Byte) : Statement (.readTune ops) := of_code rfl rfl
theorem readNotes (ops : List Byte) : Statement (.readNotes ops) := of_code rfl rfl
theorem clearLine (ops : List Byte) : Statement (.clearLine ops) := of_code rfl rfl
theorem writeLineSettings (ops : List Byte) : Statement (.writeLineSettings ops) := of_code rfl rfl
theorem readLine : Statement .readLine := of_code rfl rfl
theorem writeDial (ops : List Byte) (circuitOpen : Bool) : Statement (.writeDial ops circuitOpen) := of_code rfl rfl
theorem setDialHands (ops : List Byte) : Statement (.setDialHands ops) := of_code rfl rfl
theorem readDial (ops : List Byte) (contactClosed : Bool) : Statement (.readDial ops contactClosed) := of_code rfl rfl
theorem writeZone (ops : List Byte) : Statement (.writeZone ops) := of_code rfl rfl
theorem writeScene (ops : List Byte) : Statement (.writeScene ops) := of_code rfl rfl
theorem setAllowance (ops : List Byte) : Statement (.setAllowance ops) := of_code rfl rfl
theorem readLighting (ops : List Byte) : Statement (.readLighting ops) := of_code rfl rfl
theorem clearAttention (ops : List Byte) : Statement (.clearAttention ops) := of_code rfl rfl
theorem writeAttentionEnables (ops : List Byte) : Statement (.writeAttentionEnables ops) := of_code rfl rfl
theorem readStatus : Statement .readStatus := of_code rfl rfl
theorem readIdentity : Statement .readIdentity := of_code rfl rfl
theorem reset (ops : List Byte) (openCircuits : DialSet) : Statement (.reset ops openCircuits) := of_code rfl rfl
theorem unknownCommandFrame (code : Byte) (ops : List Byte) : Statement (.unknownCommandFrame code ops) := by
  intro f hf
  cases hf
  exact ⟨code, ops, rfl, fun _ => rfl⟩
theorem resetPin (openCircuits : DialSet) : Statement (.resetPin openCircuits) := of_event rfl
theorem coldStart (mainsHigh : Bool) : Statement (.coldStart mainsHigh) := of_event rfl
theorem powerUpBackupHeld (mainsHigh : Bool) (openCircuits : DialSet) : Statement (.powerUpBackupHeld mainsHigh openCircuits) := of_event rfl
theorem mainsLost : Statement .mainsLost := of_event rfl
theorem mainsReturn (openCircuits : DialSet) : Statement (.mainsReturn openCircuits) := of_event rfl
theorem newSecond : Statement .newSecond := of_event rfl
theorem summerChange : Statement .summerChange := of_event rfl
theorem dayChange : Statement .dayChange := of_event rfl
theorem endOfRange : Statement .endOfRange := of_event rfl
theorem standbyBuildTime : Statement .standbyBuildTime := of_event rfl
theorem referenceMessage (bytes : List Byte) : Statement (.referenceMessage bytes) := of_event rfl
theorem waitingMessageExpiry : Statement .waitingMessageExpiry := of_event rfl
theorem referencePulse : Statement .referencePulse := of_event rfl
theorem referenceLost : Statement .referenceLost := of_event rfl
theorem holdoverExpiry : Statement .holdoverExpiry := of_event rfl
theorem resolverRunStart : Statement .resolverRunStart := of_event rfl
theorem todayRebuildInstall : Statement .todayRebuildInstall := of_event rfl
theorem standbyBuildInstall : Statement .standbyBuildInstall := of_event rfl
theorem queryRunComplete : Statement .queryRunComplete := of_event rfl
theorem entryFallsDue : Statement .entryFallsDue := of_event rfl
theorem quietPeriodEnd : Statement .quietPeriodEnd := of_event rfl
theorem graceExpiry : Statement .graceExpiry := of_event rfl
theorem laneTakesEntry (lane : Lane) : Statement (.laneTakesEntry lane) := of_event rfl
theorem tollStrokeRequest : Statement .tollStrokeRequest := of_event rfl
theorem tuneNote : Statement .tuneNote := of_event rfl
theorem tunePlayEnd : Statement .tunePlayEnd := of_event rfl
theorem hourStrokeRequest : Statement .hourStrokeRequest := of_event rfl
theorem deferredStrokeDue (station : Station) : Statement (.deferredStrokeDue station) := of_event rfl
theorem tuneCheckComplete (tune : TuneNo) : Statement (.tuneCheckComplete tune) := of_event rfl
theorem overrideExpiry : Statement .overrideExpiry := of_event rfl
theorem raiseTimeout (station : Station) : Statement (.raiseTimeout station) := of_event rfl
theorem lowerTimeout (station : Station) : Statement (.lowerTimeout station) := of_event rfl
theorem bellPoll (station : Station) : Statement (.bellPoll station) := of_event rfl
theorem ringingLimit (station : Station) : Statement (.ringingLimit station) := of_event rfl
theorem pealRaisingTimeout : Statement .pealRaisingTimeout := of_event rfl
theorem pealRingingEnd : Statement .pealRingingEnd := of_event rfl
theorem owedOrderOffered : Statement .owedOrderOffered := of_event rfl
theorem waitingRequestAdmitted (station : Station) : Statement (.waitingRequestAdmitted station) := of_event rfl
theorem orderFrameStart (lckHigh ldaHigh : Bool) : Statement (.orderFrameStart lckHigh ldaHigh) := of_event rfl
theorem orderAttemptEnd (answer : StationAnswer) : Statement (.orderAttemptEnd answer) := of_event rfl
theorem arbitrationLost (winner : FrameHead) : Statement (.arbitrationLost winner) := of_event rfl
theorem foreignStart (address : Byte) : Statement (.foreignStart address) := of_event rfl
theorem observedFrameStop (rest : List Byte) (orderAcknowledged : Bool) : Statement (.observedFrameStop rest orderAcknowledged) := of_event rfl
theorem claim (set : BellSet) : Statement (.claim set) := of_event rfl
theorem release (set : BellSet) : Statement (.release set) := of_event rfl
theorem releaseAll : Statement .releaseAll := of_event rfl
theorem busError : Statement .busError := of_event rfl
theorem forcedAccess : Statement .forcedAccess := of_event rfl
theorem recoveryPulsesDone (freed : Bool) : Statement (.recoveryPulsesDone freed) := of_event rfl
theorem clockStuck : Statement .clockStuck := of_event rfl
theorem recoveryAttemptEnd (result : AttemptResult) : Statement (.recoveryAttemptEnd result) := of_event rfl
theorem targetChange : Statement .targetChange := of_event rfl
theorem impulseStart (dial : DialNo) : Statement (.impulseStart dial) := of_event rfl
theorem impulseEnd (dial : DialNo) (circuitOpen : Bool) : Statement (.impulseEnd dial circuitOpen) := of_event rfl
theorem syncClosure (dial : DialNo) : Statement (.syncClosure dial) := of_event rfl
theorem referenceMessageAbandoned : Statement .referenceMessageAbandoned := of_event rfl
theorem addressedFrameStop : Statement .addressedFrameStop := of_event rfl
theorem resetPinReleased : Statement .resetPinReleased := of_event rfl
theorem partUnpowered : Statement .partUnpowered := of_event rfl
theorem backupRetentionLost : Statement .backupRetentionLost := of_event rfl

end Sys2Proof.Laws.FrameForm
end

