-- ==== Sys2Proof/Laws/Port.lean ====
section
/-! SUPPORT. What the port and the events do: one lemma for each way in which a frame or an event is taken. -/

namespace Sys2Proof.Machine

variable {s t : State} {c : Code} {bytes : List Byte} {f : State → State}

theorem running_of_served (h : portServed s = true) : running s = true := by
  simp [portServed] at h; exact h.1

/-- A change command that its owner carries out. -/
theorem change_ok (h : portServed s = true) : change (.ok t) s = .next { t with port := ⟨.none, []⟩ } := by
  simp [change, h, carriedOut]

/-- A change command that its owner refuses. -/
theorem change_error (h : portServed s = true) : change (.error c) s = .next { s with port := ⟨c, []⟩ } := by
  simp [change, h, refusedWith]

/-- A frame that the port does not serve. -/
theorem change_unserved {r : Except Code State} (h : portServed s = false) : change r s = .next s := by simp [change, h]

/-- A read command that its owner carries out. -/
theorem answer_ok (h : portServed s = true) : answer (.ok bytes) s = .next { s with port := ⟨.none, bytes⟩ } := by
  simp [answer, h, carriedOut]

/-- A read command that its owner refuses. -/
theorem answer_error (h : portServed s = true) : answer (.error c) s = .next { s with port := ⟨c, []⟩ } := by
  simp [answer, h, refusedWith]

/-- A read frame that the port does not serve. -/
theorem answer_unserved {r : Except Code (List Byte)} (h : portServed s = false) : answer r s = .next s := by
  simp [answer, h]

/-- An event while the logic runs. -/
theorem event_running (h : running s = true) : event f s = .next (f s) := by simp [event, h]

/-- An event while the logic does not run. -/
theorem event_stopped (h : running s = false) : event f s = .next s := by simp [event, h]

end Sys2Proof.Machine
end

