-- ==== Sys2Proof/Machine/Serial.lean ====
section
/-! DEFINITION. The command port below the grain of the rows (R193 to R195): edges of select and of the clock make up the frame in progress,
whose command is handed to its owner as the row of its command byte, and move data out. No row of the table is an edge or a bit, so these
operations stand beside `exec`, and a row is a whole frame (log entry 5). -/

namespace Sys2Proof.Machine

/-! ### Bits and bytes -/

/-- The bits of a byte as they cross the wires, most significant first (R193). -/
def byteBits (b : Byte) : List Bool := (List.range 8).map b.getMsbD

/-- The bits of a list of bytes, in the order sent (R193). -/
def frameBits (bytes : List Byte) : List Bool := bytes.flatMap byteBits

/-- The byte of eight bits in the order received (R193). -/
def byteOfBits (bits : List Bool) : Byte := BitVec.ofNat 8 (bits.foldl (fun n b => 2 * n + b.toNat) 0)

/-! ### The frame in progress -/

/-- The number of operand bytes of a read command; none for a byte that names a change command or no command (R212). -/
def readOperands (code : Byte) : Option Nat :=
  match code.toNat with
  | 0x14 => some 1
  | 0x15 => some 5
  | 0x17 => some 0
  | 0x23 => some 0
  | 0x24 => some 0
  | 0x2B => some 0
  | 0x2C => some 0
  | 0x30 => some 2
  | 0x3B => some 0
  | 0x42 => some 1
  | 0x4C => some 1
  | 0x4D => some 3
  | 0x52 => some 0
  | 0x5A => some 1
  | 0x63 => some 1
  | 0x70 => some 0
  | 0x71 => some 0
  | _ => none

/-- A frame of which nothing has been received, data out at the first bit of 00h (R193). -/
def PortFrame.begun : PortFrame := ⟨none, 0, [], [], false⟩

/-- Data out takes a level (R193). -/
def PortFrame.drive (level : Bool) (f : PortFrame) : PortFrame := { f with out := level }

/-- Whether a frame is a read whose last operand byte has been received: it has then been handed to its owner (R195). -/
def PortFrame.served (f : PortFrame) : Bool :=
  match f.command with
  | some code => readOperands code == some f.operands.length
  | none => false

/-- A frame after a further whole byte: its command byte, an operand byte, or a byte that passes while a read drives its data
(R193). -/
def PortFrame.receive (b : Byte) (f : PortFrame) : PortFrame :=
  match f.command with
  | none => { f with command := some b, count := f.count + 1, bits := [] }
  | some _ =>
    { f with operands := if f.served then f.operands else f.operands ++ [b], count := f.count + 1, bits := [] }

/-- Replace the frame in progress. -/
def setFrame (f : Option PortFrame) (s : State) : State := { s with portFrame := f }

/-- A frame's command is handed to its owner with the operand bytes received; a frame with no whole byte has none (R194, R195). -/
def handOver (lv : Levels) (f : PortFrame) (s : State) : Result :=
  match f.command with
  | some code => exec (decodeCommand lv code f.operands) s
  | none => .next s

/-! ### Data out -/

/-- The byte that data out carries: 00h in the command byte and the operand bytes and in every byte of a change command, then the bytes
of a read's data, and 00h past their end (R193, R195). -/
def dataByte (f : PortFrame) (s : State) : Byte :=
  match f.command.bind readOperands with
  | some n => if n < f.count then s.port.stream.getD (f.count - 1 - n) 0 else 0
  | none => 0

/-- The level of data out: that of the last falling edge; none while it floats, which it does but in a frame of a port that is served
(R193, R200). -/
def dataOut (s : State) : Option Bool :=
  match s.portFrame with
  | none => none
  | some f => if portServed s then some f.out else none

/-! ### Edges and bits -/

/-- A falling edge on select begins a frame, unless the port is not served then (R193, R200). -/
def selectFalls (s : State) : State := if portServed s then setFrame (some .begun) s else s

/-- A whole byte has been received: the frame holds it, and a read whose last operand byte it is, or whose command byte where it has
no operands, is handed to its owner (R193, R195). -/
def byteReceived (lv : Levels) (b : Byte) (f : PortFrame) (s : State) : Result :=
  let s1 := setFrame (some (f.receive b)) s
  if (f.receive b).served && !f.served then handOver lv (f.receive b) s1 else .next s1

/-- A rising clock edge samples a bit of data in; the eighth bit of a byte makes it whole. Data out stays as it is. Without a frame in
progress, and while the port is not served, nothing is sampled (R193, R200). -/
def clockRises (lv : Levels) (bit : Bool) (s : State) : Result :=
  match s.portFrame with
  | none => .next s
  | some f =>
    if portServed s = false then .next s
    else if f.bits.length < 7 then .next (setFrame (some { f with bits := f.bits ++ [bit] }) s)
    else byteReceived lv (byteOfBits (f.bits ++ [bit])) f s

/-- A rising edge on select ends the frame. The bits of a byte that is not whole are discarded with all that the frame holds, and a
command that has not been handed over yet is handed over now: a change command takes effect or is refused, a read that lacks operands is
refused, and a byte that names no command too (R193 to R195). A frame that ends while the port is not served has no effect (R200). -/
def selectRises (lv : Levels) (s : State) : Result :=
  match s.portFrame with
  | none => .next s
  | some f => if portServed s && !f.served then handOver lv f (setFrame none s) else .next (setFrame none s)

/-- What follows where a first operation answers a next state. -/
def andThen (r : Result) (k : State → Result) : Result :=
  match r with
  | .next t => k t
  | .fault e => .fault e
  | .refused e => .refused e

/-- A falling clock edge changes data out: to the bit of the byte it carries that the next rising edge goes with (R193). -/
def clockFalls (s : State) : State :=
  match s.portFrame with
  | none => s
  | some f => setFrame (some (f.drive ((dataByte f s).getMsbD f.bits.length))) s

/-- The clock modes that the port works in: the clock idles low in mode 0 and high in mode 3 (R193). -/
inductive ClockMode where
  | mode0
  | mode3
  deriving DecidableEq, Repr

/-- One bit: the clock rises and falls again in mode 0, falls and rises again in mode 3 (R193). -/
def clockBit (m : ClockMode) (lv : Levels) (bit : Bool) (s : State) : Result :=
  match m with
  | .mode0 => andThen (clockRises lv bit s) fun t => .next (clockFalls t)
  | .mode3 => clockRises lv bit (clockFalls s)

/-- Bits clocked one after another. -/
def clockBits (m : ClockMode) (lv : Levels) : List Bool → State → Result
  | [], s => .next s
  | b :: bs, s => andThen (clockBit m lv b s) (clockBits m lv bs)

/-- A frame from the fall of select to its rise, these bits clocked between the two. -/
def sendFrame (m : ClockMode) (lv : Levels) (bits : List Bool) (s : State) : Result :=
  andThen (clockBits m lv bits (selectFalls s)) (selectRises lv)

end Sys2Proof.Machine
end

