-- ==== Sys2Proof/Laws/Serial.lean ====
section
/-! SUPPORT. What a frame sent bit by bit does: its whole bytes are its command, which has the meaning of its row, and the bits of a last
byte that is not whole count for nothing (R193 to R195). -/

namespace Sys2Proof.Machine

variable {m : ClockMode} {lv : Levels} {s t : State} {f : PortFrame} {code b : Byte} {bits : List Bool}

/-! ### Bits make bytes -/

/-- The bits of a byte make that byte (R193). -/
theorem byteOfBits_byteBits (b : Byte) : byteOfBits (byteBits b) = b := by revert b; decide +kernel

@[simp] theorem byteBits_length (b : Byte) : (byteBits b).length = 8 := rfl

@[simp] theorem setFrame_portFrame (x : Option PortFrame) (s : State) : (setFrame x s).portFrame = x := rfl
@[simp] theorem setFrame_setFrame (x y : Option PortFrame) (s : State) : setFrame x (setFrame y s) = setFrame x s := rfl
@[simp] theorem setFrame_served (x : Option PortFrame) (s : State) : portServed (setFrame x s) = portServed s := rfl
theorem setFrame_same (h : s.portFrame = none) : setFrame none s = s := by cases s; simp_all [setFrame]

@[simp] theorem PortFrame.receive_bits (f : PortFrame) (b : Byte) (bits : List Bool) :
    PortFrame.receive b { f with bits := bits } = f.receive b := by
  cases f with | mk command count operands old out => cases command <;> rfl

@[simp] theorem PortFrame.drive_command (f : PortFrame) (o : Bool) : (f.drive o).command = f.command := rfl
@[simp] theorem PortFrame.drive_operands (f : PortFrame) (o : Bool) : (f.drive o).operands = f.operands := rfl
@[simp] theorem PortFrame.drive_bits (f : PortFrame) (o : Bool) : (f.drive o).bits = f.bits := rfl
@[simp] theorem PortFrame.drive_served (f : PortFrame) (o : Bool) : (f.drive o).served = f.served := rfl
@[simp] theorem PortFrame.drive_same (f : PortFrame) : f.drive f.out = f := rfl
@[simp] theorem PortFrame.drive_with_bits (f : PortFrame) (o : Bool) (bits : List Bool) :
    { f.drive o with bits := bits } = PortFrame.drive o { f with bits := bits } := rfl
@[simp] theorem PortFrame.drive_drive (f : PortFrame) (o o2 : Bool) : (f.drive o).drive o2 = f.drive o2 := rfl
@[simp] theorem PortFrame.receive_drive (f : PortFrame) (b : Byte) (o : Bool) :
    (f.drive o).receive b = (f.receive b).drive o := by
  cases f with | mk command count operands old out => cases command <;> rfl

@[simp] theorem PortFrame.served_bits (f : PortFrame) (bits : List Bool) : { f with bits := bits }.served = f.served := rfl
@[simp] theorem handOver_drive (f : PortFrame) (o : Bool) (s : State) : handOver lv (f.drive o) s = handOver lv f s := rfl
@[simp] theorem handOver_bits (f : PortFrame) (bits : List Bool) (s : State) : handOver lv { f with bits := bits } s = handOver lv f s := rfl

@[simp] theorem andThen_next (t : State) (k : State → Result) : andThen (.next t) k = k t := rfl

theorem andThen_assoc (r : Result) (k l : State → Result) : andThen (andThen r k) l = andThen r fun t => andThen (k t) l := by
  cases r <;> rfl

theorem clockBits_append (xs ys : List Bool) (s : State) :
    clockBits m lv (xs ++ ys) s = andThen (clockBits m lv xs s) (clockBits m lv ys) := by
  induction xs generalizing s with
  | nil => rfl
  | cons x xs ih => simp only [List.cons_append, clockBits, andThen_assoc, funext ih]

/-- A falling clock edge does nothing but change data out (R193). -/
theorem clockFalls_frame (hf : s.portFrame = some f) : ∃ o, clockFalls s = setFrame (some (f.drive o)) s :=
  ⟨_, by simp only [clockFalls, hf]; rfl⟩

/-- What one bit does in either clock mode: what its rising edge does, whatever the level of data out, and data out changes (R193). -/
theorem clockBit_rises {bit : Bool} {g : PortFrame} (hf : s.portFrame = some f)
    (hr : ∀ o, clockRises lv bit (setFrame (some (f.drive o)) s) = .next (setFrame (some (g.drive o)) t)) :
    ∃ o, clockBit m lv bit s = .next (setFrame (some (g.drive o)) t) := by
  cases m with
  | mode0 =>
    have h := hr f.out
    rw [show setFrame (some (f.drive f.out)) s = s by cases s; simp_all [setFrame]] at h
    obtain ⟨o, ho⟩ := clockFalls_frame (s := setFrame (some (g.drive f.out)) t) (f := g.drive f.out) rfl
    exact ⟨o, by rw [clockBit, h, andThen_next, ho]; rfl⟩
  | mode3 =>
    obtain ⟨o, ho⟩ := clockFalls_frame hf
    exact ⟨o, by rw [clockBit, ho, hr]⟩

/-- Bits that make no byte whole are kept with the frame (R193). -/
theorem clockBits_partial (hs : portServed s = true) (hf : s.portFrame = some f) (h : f.bits.length + bits.length ≤ 7) :
    ∃ o, clockBits m lv bits s = .next (setFrame (some (PortFrame.drive o { f with bits := f.bits ++ bits })) s) := by
  induction bits generalizing s f with
  | nil => exact ⟨f.out, by cases s; cases f; simp_all [clockBits, setFrame, PortFrame.drive]⟩
  | cons x xs ih =>
    simp only [List.length_cons] at h
    have h7 : f.bits.length < 7 := by omega
    obtain ⟨o, ho⟩ := clockBit_rises (m := m) (lv := lv) (bit := x) (t := s) (g := { f with bits := f.bits ++ [x] }) hf fun o => by
      simp [clockRises, hs, h7, PortFrame.drive]
    obtain ⟨o2, ho2⟩ := ih (s := setFrame (some (PortFrame.drive o { f with bits := f.bits ++ [x] })) s)
      (f := PortFrame.drive o { f with bits := f.bits ++ [x] }) hs rfl (by simp <;> omega)
    exact ⟨o2, by rw [clockBits, ho, andThen_next, ho2, setFrame_setFrame, PortFrame.drive_bits, List.append_assoc]; rfl⟩

/-- The eight bits of a byte are received as that byte; a read that it completes is handed over with it (R193, R195). -/
theorem clockBits_byte (hs : portServed s = true) (hf : s.portFrame = some f) (h : f.bits = [])
    (hr : ∀ x, (if (f.receive b).served && !f.served then handOver lv (f.receive b) (setFrame x s) else .next (setFrame x s)) =
      .next (setFrame x t)) :
    ∃ o, clockBits m lv (byteBits b) s = .next (setFrame (some ((f.receive b).drive o)) t) := by
  have hx : byteBits b = (byteBits b).take 7 ++ [b.getMsbD 7] := rfl
  have hl : ((byteBits b).take 7).length = 7 := rfl
  have hb : byteOfBits ((byteBits b).take 7 ++ [b.getMsbD 7]) = b := hx ▸ byteOfBits_byteBits b
  obtain ⟨o, ho⟩ := clockBits_partial (m := m) (lv := lv) (bits := (byteBits b).take 7) hs hf (by rw [h, hl]; decide)
  rw [h, List.nil_append] at ho
  generalize (byteBits b).take 7 = seven at hx hl hb ho
  obtain ⟨o2, ho2⟩ := clockBit_rises (m := m) (lv := lv) (bit := b.getMsbD 7) (t := t) (g := f.receive b)
    (s := setFrame (some (PortFrame.drive o { f with bits := seven })) s) (f := PortFrame.drive o { f with bits := seven })
    rfl fun o => by
      simpa [clockRises, hl, hb, hs, byteReceived] using hr (some ((f.receive b).drive o))
  exact ⟨o2, by rw [hx, clockBits_append, ho, andThen_next, clockBits, ho2]; rfl⟩

/-! ### Bytes make frames -/

/-- A frame of a command is handed over just where it is a read whose operands are all there. -/
theorem served_of (hc : f.command = some code) : f.served = (readOperands code == some f.operands.length) := by
  simp [PortFrame.served, hc]

/-- What a further byte adds to a frame whose command byte is there. -/
theorem receive_of (hc : f.command = some code) :
    f.receive b = { f with operands := if f.served then f.operands else f.operands ++ [b], count := f.count + 1, bits := [] } := by
  simp [PortFrame.receive, hc]

/-- Bytes that complete no read are held with the frame, or pass where the read has been handed over (R193). -/
theorem clockBits_bytes (bytes : List Byte) (hs : portServed s = true) (hf : s.portFrame = some f) (h : f.bits = [])
    (hc : f.command = some code)
    (hr : f.served = true ∨ ∀ n, readOperands code = some n → f.operands.length + bytes.length < n) :
    ∃ g : PortFrame, clockBits m lv (frameBits bytes) s = .next (setFrame (some g) s) ∧ g.bits = [] ∧ g.command = some code ∧
      g.served = f.served ∧ g.operands = (if f.served then f.operands else f.operands ++ bytes) := by
  induction bytes generalizing s f with
  | nil => exact ⟨f, by cases s; simp_all [frameBits, clockBits, setFrame], h, hc, rfl, by simp⟩
  | cons b bs ih =>
    have hrc := receive_of (b := b) hc
    have hcr : (f.receive b).command = some code := by rw [hrc]; exact hc
    have hop : (f.receive b).operands = if f.served then f.operands else f.operands ++ [b] := by rw [hrc]
    have hsv : (f.receive b).served = f.served := by
      cases h0 : f.served with
      | true => rw [served_of hcr, hop, h0, if_pos rfl, ← served_of hc, h0]
      | false =>
        rw [served_of hcr, hop, h0]
        rcases hr with hr | hr
        · simp [h0] at hr
        · cases hn : readOperands code with
          | none => rfl
          | some n => have := hr n hn; simp at this ⊢ <;> omega
    obtain ⟨o, hstep⟩ := clockBits_byte (m := m) (lv := lv) (b := b) (t := s) hs hf h fun x => by simp [hsv]
    obtain ⟨g, hg, h1, h2, h3, h4⟩ := ih (s := setFrame (some ((f.receive b).drive o)) s) (f := (f.receive b).drive o)
      hs rfl (by rw [PortFrame.drive_bits, hrc]) hcr (by
      rw [PortFrame.drive_served, PortFrame.drive_operands, hsv, hop]
      rcases hr with hr | hr
      · exact .inl hr
      · right; intro n hn
        have := hr n hn
        simp only [List.length_cons] at this
        split <;> simp <;> omega)
    refine ⟨g, ?_, h1, h2, h3.trans hsv, by rw [h4, PortFrame.drive_served, PortFrame.drive_operands, hsv, hop]; cases f.served <;> simp⟩
    show clockBits m lv (byteBits b ++ frameBits bs) s = _
    rw [clockBits_append, hstep, andThen_next, hg, setFrame_setFrame]

/-! ### Reads -/

/-- What a read does with a frame in progress: nothing; the port goes on being served. -/
def ReadKeeps (c : Instr) (s : State) : Prop :=
  ∃ t, exec c s = .next t ∧ portServed t = true ∧ ∀ x, exec c (setFrame x s) = .next (setFrame x t)

theorem ReadKeeps.of_answer {c : Instr} {r : Except Code (List Byte)} {g : State → State} (h0 : exec c s = answer r (g s))
    (hx : ∀ x, exec c (setFrame x s) = answer r (setFrame x (g s))) (hs : portServed (g s) = true) : ReadKeeps c s := by
  cases r with
  | ok bytes => exact ⟨_, h0.trans (answer_ok hs), hs, fun x => (hx x).trans (answer_ok (by simpa using hs))⟩
  | error e => exact ⟨_, h0.trans (answer_error hs), hs, fun x => (hx x).trans (answer_error (by simpa using hs))⟩

theorem sampleKey_served (k : KeyLevel) (s : State) : portServed (sampleKey k s) = portServed s := by
  unfold sampleKey; split <;> rfl

theorem sampleKey_setFrame (k : KeyLevel) (x : Option PortFrame) (s : State) :
    sampleKey k (setFrame x s) = setFrame x (sampleKey k s) := by
  unfold sampleKey; rw [setFrame_served]; split <;> rfl

theorem sampleReadContact_served (ops : List Byte) (c : Bool) (s : State) :
    portServed (sampleReadContact ops c s) = portServed s := by
  unfold sampleReadContact; repeat' split
  all_goals rfl

theorem sampleReadContact_setFrame (ops : List Byte) (c : Bool) (x : Option PortFrame) (s : State) :
    sampleReadContact ops c (setFrame x s) = setFrame x (sampleReadContact ops c s) := by
  unfold sampleReadContact
  rw [setFrame_served]
  split
  · split
    · cases portServed s <;> rfl
    · rfl
  · rfl

/-- A read does to a state with a frame in progress what it does without one, and the port goes on being served. -/
theorem read_keeps (lv : Levels) (ops : List Byte) {n : Nat} (hn : readOperands code = some n) (hs : portServed s = true) :
    ReadKeeps (decodeCommand lv code ops) s := by
  unfold readOperands at hn
  split at hn <;> rename_i hcode <;> simp only [decodeCommand, hcode]
  case h_18 => cases hn
  case h_3 =>
    exact .of_answer (g := sampleKey lv.key) (by simp only [exec]; rfl) (fun x => by rw [← sampleKey_setFrame]; rfl)
      ((sampleKey_served _ s).trans hs)
  case h_14 =>
    exact .of_answer (g := sampleReadContact ops lv.contactClosed) rfl (fun x => by rw [← sampleReadContact_setFrame]; rfl)
      ((sampleReadContact_served _ _ s).trans hs)
  case h_16 =>
    have h : ∀ x, exec .readStatus (setFrame x s) = .next (setFrame x { s with port := ⟨s.port.lastCode, statusStream s⟩ }) :=
      fun x => by simp only [exec, execReadStatus, setFrame_served, hs]; rfl
    exact ⟨{ s with port := ⟨s.port.lastCode, statusStream s⟩ }, by simp only [exec, execReadStatus, hs]; rfl, hs, h⟩
  all_goals exact .of_answer (g := id) (by simp only [exec]; rfl) (fun _ => by simp only [exec]; rfl) hs

/-- A read's operand bytes past those it has count for nothing (R195). -/
theorem read_take (lv : Levels) (ops : List Byte) {n : Nat} (hn : readOperands code = some n) (s : State) :
    exec (decodeCommand lv code (ops.take n)) s = exec (decodeCommand lv code ops) s := by
  unfold readOperands at hn
  split at hn <;> rename_i hcode <;> cases hn <;> simp only [decodeCommand, hcode]
  all_goals rcases ops with _ | ⟨a, _ | ⟨b, _ | ⟨c, _ | ⟨d, _ | ⟨e, rest⟩⟩⟩⟩⟩ <;> rfl

/-! ### Whole frames -/

/-- What is left of a frame that has not been handed over, up to the rise of select: it is handed over then, and a last byte that is
not whole counts for nothing (R193, R194). -/
theorem rest_handed (rest : List Byte) (hs : portServed s = true) (hf : s.portFrame = some f) (h : f.bits = [])
    (hc : f.command = some code) (hv : f.served = false)
    (hr : ∀ n, readOperands code = some n → f.operands.length + rest.length < n) (hx : bits.length < 8) :
    andThen (clockBits m lv (frameBits rest ++ bits) s) (selectRises lv) =
      exec (decodeCommand lv code (f.operands ++ rest)) (setFrame none s) := by
  obtain ⟨g, hg, g1, g2, g3, g4⟩ := clockBits_bytes (m := m) (lv := lv) rest hs hf h hc (.inr hr)
  obtain ⟨o, ho⟩ := clockBits_partial (m := m) (lv := lv) (bits := bits) (s := setFrame (some g) s) (f := g) hs rfl
    (by simp [g1] <;> omega)
  have hg' : (PortFrame.drive o { g with bits := g.bits ++ bits }).served = false := g3.trans hv
  rw [clockBits_append, hg, andThen_next, ho, andThen_next]
  simp only [selectRises, setFrame_portFrame, setFrame_served, hs, hg', Bool.not_false, Bool.and_self, if_true]
  simp [handOver, g2, g4, hv]

/-- What is left of a frame that has been handed over, up to the rise of select: it passes (R193, R195). -/
theorem rest_passes (rest : List Byte) (hs : portServed s = true) (hf : s.portFrame = some f) (h : f.bits = [])
    (hc : f.command = some code) (hv : f.served = true) (hx : bits.length < 8) :
    andThen (clockBits m lv (frameBits rest ++ bits) s) (selectRises lv) = .next (setFrame none s) := by
  obtain ⟨g, hg, g1, g2, g3, g4⟩ := clockBits_bytes (m := m) (lv := lv) rest hs hf h hc (.inl hv)
  obtain ⟨o, ho⟩ := clockBits_partial (m := m) (lv := lv) (bits := bits) (s := setFrame (some g) s) (f := g) hs rfl
    (by simp [g1] <;> omega)
  have hg' : (PortFrame.drive o { g with bits := g.bits ++ bits }).served = true := g3.trans hv
  rw [clockBits_append, hg, andThen_next, ho, andThen_next]
  simp [selectRises, hs, hg']

/-- The byte that completes a read: the read is handed over with it, and the rest of the frame passes (R195). -/
theorem read_completes (rest : List Byte) {n : Nat} (hn : readOperands code = some n) (hs : portServed s = true)
    (hf : s.portFrame = some f) (h : f.bits = []) (hv : f.served = false) (hc : (f.receive b).command = some code)
    (hl : (f.receive b).operands.length = n) (hx : bits.length < 8) :
    andThen (clockBits m lv (byteBits b ++ (frameBits rest ++ bits)) s) (selectRises lv) =
      exec (decodeCommand lv code (f.receive b).operands) (setFrame none s) := by
  have hsv : (f.receive b).served = true := by simp [served_of hc, hn, hl]
  obtain ⟨t, ht, hst, hk⟩ := read_keeps lv (f.receive b).operands hn hs
  have hb : (f.receive b).bits = [] := by unfold PortFrame.receive; cases f.command <;> rfl
  obtain ⟨o, ho⟩ := clockBits_byte (m := m) (lv := lv) (b := b) (t := t) hs hf h fun x => by simp [hsv, hv, handOver, hc, hk]
  rw [clockBits_append, ho, andThen_next]
  have hexec : exec (decodeCommand lv code (f.receive b).operands) (setFrame none s) = .next (setFrame none t) := hk none
  rw [hexec]
  exact rest_passes (s := setFrame (some ((f.receive b).drive o)) t) (f := (f.receive b).drive o) rest hst rfl hb hc hsv hx

/-- A frame sent bit by bit while the port is served does what the row of its command byte does with the operand bytes, and up to seven
bits of a last byte that is not whole count for nothing (R193 to R195). -/
theorem sendFrame_runs (code : Byte) (ops : List Byte) (hs : portServed s = true) (hf : s.portFrame = none) (hx : bits.length < 8) :
    sendFrame m lv (frameBits (code :: ops) ++ bits) s = exec (decodeCommand lv code ops) s := by
  have hfall : selectFalls s = setFrame (some .begun) s := by simp [selectFalls, hs]
  have hcat : frameBits (code :: ops) ++ bits = byteBits code ++ (frameBits ops ++ bits) := by
    simp [frameBits]
  rw [sendFrame, hfall, hcat]
  by_cases h0 : readOperands code = some 0
  · rw [read_completes (s := setFrame (some .begun) s) (f := .begun) ops h0 hs rfl rfl rfl rfl rfl hx, setFrame_setFrame, setFrame_same hf]
    exact read_take lv ops h0 s
  · have hv : (PortFrame.begun.receive code).served = false := by simp [PortFrame.receive, PortFrame.begun, PortFrame.served, h0]
    obtain ⟨o, ho⟩ := clockBits_byte (m := m) (lv := lv) (b := code) (s := setFrame (some .begun) s) (t := setFrame (some .begun) s)
      (f := .begun) hs rfl rfl fun x => by simp [hv]
    rw [clockBits_append, ho, andThen_next, setFrame_setFrame]
    by_cases hr : ∀ n, readOperands code = some n → ops.length < n
    · rw [rest_handed (s := setFrame (some ((PortFrame.begun.receive code).drive o)) s)
        (f := (PortFrame.begun.receive code).drive o) (code := code) ops hs rfl rfl rfl hv
        (by simpa [PortFrame.receive, PortFrame.begun] using hr) hx, setFrame_setFrame, setFrame_same hf]
      rfl
    · obtain ⟨n, hn, hle⟩ : ∃ n, readOperands code = some n ∧ n ≤ ops.length := by
        apply Classical.byContradiction; intro hne; apply hr; intro n hn
        exact Nat.lt_of_not_le fun hle => hne ⟨n, hn, hle⟩
      obtain ⟨k, rfl⟩ : ∃ k, n = k + 1 := by
        cases n with
        | zero => exact absurd hn h0
        | succ k => exact ⟨k, rfl⟩
      have hops : ops = ops.take k ++ (ops[k] :: ops.drop (k + 1)) := by
        rw [← List.drop_eq_getElem_cons, List.take_append_drop]
      have htake : ops.take (k + 1) = ops.take k ++ [ops[k]] := by simp
      obtain ⟨g, hg, g1, g2, g3, g4⟩ := clockBits_bytes (m := m) (lv := lv)
        (s := setFrame (some ((PortFrame.begun.receive code).drive o)) s)
        (f := (PortFrame.begun.receive code).drive o) (code := code) (ops.take k) hs rfl rfl rfl (.inr fun j hk => by
          rw [hn] at hk; cases hk; simp [PortFrame.receive, PortFrame.begun] <;> omega)
      have hgo : g.operands = ops.take k := by rw [g4, PortFrame.drive_served, hv]; rfl
      have hfb : frameBits ops ++ bits = frameBits (ops.take k) ++ (byteBits ops[k] ++ (frameBits (ops.drop (k + 1)) ++ bits)) := by
        rw [congrArg frameBits hops]; simp only [frameBits, List.flatMap_append, List.flatMap_cons, List.append_assoc]
      have hgr : (g.receive ops[k]).operands = ops.take (k + 1) := by rw [receive_of g2, g3, PortFrame.drive_served, hv, htake, hgo]; rfl
      rw [hfb, clockBits_append, hg, andThen_next,
        read_completes (s := setFrame (some g) (setFrame (some ((PortFrame.begun.receive code).drive o)) s)) (f := g)
          (ops.drop (k + 1)) hn hs rfl g1 (g3.trans hv) (by rw [receive_of g2]; exact g2)
          (by rw [hgr, List.length_take]; omega) hx, hgr, setFrame_setFrame, setFrame_setFrame, setFrame_same hf]
      exact read_take lv ops hn s

/-- A frame with no whole byte does nothing (R193). -/
theorem sendFrame_empty (hs : portServed s = true) (hf : s.portFrame = none) (hx : bits.length < 8) :
    sendFrame m lv bits s = .next s := by
  have hfall : selectFalls s = setFrame (some .begun) s := by simp [selectFalls, hs]
  obtain ⟨o, ho⟩ := clockBits_partial (m := m) (lv := lv) (bits := bits) (s := setFrame (some .begun) s) (f := .begun) hs rfl
    (by simp [PortFrame.begun] <;> omega)
  rw [sendFrame, hfall, ho, andThen_next]
  simp [selectRises, hs, PortFrame.begun, PortFrame.served, handOver, setFrame_same hf]

/-- A frame that begins while the port is not served does nothing (R200). -/
theorem sendFrame_unserved (hs : portServed s = false) (hf : s.portFrame = none) : sendFrame m lv bits s = .next s := by
  have hbits : clockBits m lv bits s = .next s := by
    induction bits with
    | nil => rfl
    | cons b bs ih => cases m <;> simp only [clockBits, clockBit, clockRises, clockFalls, hf, andThen_next, ih]
  simp [sendFrame, selectFalls, hs, hbits, selectRises, hf]

end Sys2Proof.Machine
end

