-- ==== Sys2Proof/Laws/Settings.lean ====
section
/-! SUPPORT. What the operations of the clock, the sheets, the dials, the line and the power rules leave alone: the settings. Each
lemma reads the settings through the tower view, so that the lemmas of Laws/Tower.lean apply inside it. -/

namespace Sys2Proof.Machine

variable (s : State)

/-- The settings, read through the tower view. -/
theorem settingsView_eq : settingsView s = (towerView s).settings := rfl

/-! ### The named updates -/

@[simp] theorem settings_updDial (d : DialNo) (f : Dial → Dial)
    (h : ∀ x, ((f x).present, (f x).width, (f x).interval, (f x).waitLimit, (f x).syncUsed)
      = (x.present, x.width, x.interval, x.waitLimit, x.syncUsed)) :
    (towerView (updDial d f s)).settings = (towerView s).settings := by
  simp only [towerView, settingsView, updDial_dials]
  rw [map_modify (fun x : Dial => (x.present, x.width, x.interval, x.waitLimit, x.syncUsed)) _ _ _ h]
  rfl

theorem settings_updBell (st : Station) (f : Bell → Bell) (h : ∀ b, bellConfigOf (f b) = bellConfigOf b) :
    (towerView (updBell st f s)).settings = (towerView s).settings := by
  simp only [towerView, settingsView, updBell_bells]
  rw [map_modify bellConfigOf _ _ _ h]
  rfl

theorem settings_mapBells (f : Bell → Bell) (h : ∀ b, bellConfigOf (f b) = bellConfigOf b) :
    (towerView (mapBells f s)).settings = (towerView s).settings := by
  have : (s.bells.map f).map bellConfigOf = s.bells.map bellConfigOf := by
    apply vector_ext_get
    intro i
    simp [h]
  simp only [towerView, settingsView, mapBells_bells, this]
  rfl

theorem settings_updTune (n : TuneNo) (f : Tune → Tune)
    (h : ∀ x, ((f x).first, (f x).length, (f x).tick, (f x).expected) = (x.first, x.length, x.tick, x.expected)) :
    (towerView (updTune n f s)).settings = (towerView s).settings := by
  simp only [towerView, settingsView, updTune_tunes]
  rw [map_modify (fun x : Tune => (x.first, x.length, x.tick, x.expected)) _ _ _ h]
  rfl

theorem settings_updLine (f : Line → Line) (h : (f s.line).answerConsole = s.line.answerConsole) :
    (towerView (updLine f s)).settings = (towerView s).settings := by
  simp only [towerView, settingsView, updLine_line, h]
  rfl

theorem settings_updTime (f : TimeBase → TimeBase)
    (h : ((f s.time).zone, (f s.time).summerEnable, (f s.time).startRule, (f s.time).endRule)
      = (s.time.zone, s.time.summerEnable, s.time.startRule, s.time.endRule)) :
    (towerView (updTime f s)).settings = (towerView s).settings := by
  simp only [towerView, settingsView, updTime_time, h]
  rfl

@[simp] theorem settings_updResolver (f : Resolver → Resolver) :
    (towerView (updResolver f s)).settings = (towerView s).settings := rfl
@[simp] theorem settings_resolver (r : Resolver) (h : Sheets) :
    (towerView { s with sheets := h, resolver := r }).settings = (towerView s).settings := rfl
@[simp] theorem settings_sheets (h : Sheets) : (towerView { s with sheets := h }).settings = (towerView s).settings := rfl
@[simp] theorem settings_pins (p : Pins) : (towerView { s with pins := p }).settings = (towerView s).settings := rfl
@[simp] theorem settings_elapsed (n : Nat) : (towerView { s with elapsed := n }).settings = (towerView s).settings := rfl
@[simp] theorem settings_power (p : Power) : (towerView { s with power := p }).settings = (towerView s).settings := rfl
@[simp] theorem settings_latch (b : Bool) : (towerView { s with latch := b }).settings = (towerView s).settings := rfl
@[simp] theorem settings_port (p : Port) : (towerView { s with port := p }).settings = (towerView s).settings := rfl
@[simp] theorem settings_overrides (o : Overrides) :
    (towerView { s with overrides := o }).settings = (towerView s).settings := rfl
@[simp] theorem settings_updStandby (f : List Entry → List Entry) :
    (towerView (updStandby f s)).settings = (towerView s).settings := rfl

/-- The time settings a time base holds. -/
def timeSettings (t : TimeBase) : Int × Bool × SummerRule × SummerRule := (t.zone, t.summerEnable, t.startRule, t.endRule)

theorem settings_time (t : TimeBase) (h : timeSettings t = timeSettings s.time) :
    (towerView { s with time := t }).settings = (towerView s).settings := by
  simp only [timeSettings] at h
  simp only [towerView, settingsView, h]

theorem settings_time_sheets (t : TimeBase) (x : Sheets) (h : timeSettings t = timeSettings s.time) :
    (towerView { s with time := t, sheets := x }).settings = (towerView s).settings := by
  simp only [timeSettings] at h
  simp only [towerView, settingsView, h]

/-- What keeps the tower view keeps the settings. -/
theorem settings_of_tower {s t : State} (h : towerView t = towerView s) :
    (towerView t).settings = (towerView s).settings := by rw [h]

/-! ### Dials and overrides -/

@[simp] theorem settings_evaluate (d : DialNo) : (towerView (evaluate d s)).settings = (towerView s).settings := by
  unfold evaluate
  dsimp only
  split
  · rfl
  · exact settings_updDial _ _ _ fun _ => rfl

theorem settings_foldl {α : Type} (f : State → α → State)
    (h : ∀ s x, (towerView (f s x)).settings = (towerView s).settings) (xs : List α) :
    (towerView (xs.foldl f s)).settings = (towerView s).settings :=
  foldl_view (fun s => (towerView s).settings) f h xs s

@[simp] theorem settings_evaluateAll : (towerView (evaluateAll s)).settings = (towerView s).settings := by
  unfold evaluateAll
  generalize dialTarget s.time = n
  rw [settings_foldl _ _ fun s d => settings_evaluate s d]
  rfl

@[simp] theorem settings_evaluateSet (ds : DialSet) : (towerView (evaluateSet ds s)).settings = (towerView s).settings :=
  settings_foldl _ _ (fun s d => settings_evaluate s d) _

@[simp] theorem settings_senseDial (d : DialNo) : (towerView (senseDial d s)).settings = (towerView s).settings := by
  unfold senseDial
  dsimp only
  split
  · rfl
  · split <;> exact settings_updDial _ _ _ fun _ => rfl

@[simp] theorem settings_senseAll : (towerView (senseAll s)).settings = (towerView s).settings :=
  settings_foldl _ _ (fun s d => settings_senseDial s d) _

@[simp] theorem settings_takeClosure (d : DialNo) : (towerView (takeClosure d s)).settings = (towerView s).settings := by
  unfold takeClosure
  split
  · rfl
  · rw [tower_setFlag]; exact settings_updDial _ _ _ fun _ => rfl

@[simp] theorem tower_withholdSilenced : towerView (withholdSilenced s) = towerView s := by simp [withholdSilenced]

@[simp] theorem tower_cutSilenced (lane : Lane) : towerView (cutSilenced lane s) = towerView s := by
  unfold cutSilenced
  repeat' split
  all_goals simp

@[simp] theorem tower_handSilence (old : Effective) : towerView (handSilence old s) = towerView s := by
  unfold handSilence
  dsimp only
  repeat' split
  all_goals simp

@[simp] theorem settings_handOn (old : Effective) : (towerView (handOn old s)).settings = (towerView s).settings := by
  unfold handOn
  dsimp only
  rw [tower_settlePeal, settings_evaluateSet]
  split <;> simp

@[simp] theorem settings_setStack (es : List Override) : (towerView (setStack es s)).settings = (towerView s).settings := by
  simp [setStack]

@[simp] theorem settings_expireOverrides : (towerView (expireOverrides s)).settings = (towerView s).settings := by
  unfold expireOverrides
  split <;> simp

@[simp] theorem settings_expireEvery : (towerView (expireEvery s)).settings = (towerView s).settings := by
  unfold expireEvery
  split <;> simp

/-! ### Requests, steps, seconds and days -/

@[simp] theorem settings_requestToday (z : Bool) : (towerView (requestToday z s)).settings = (towerView s).settings := by
  unfold requestToday
  split <;> rfl

@[simp] theorem settings_requestStandby : (towerView (requestStandby s)).settings = (towerView s).settings := by
  unfold requestStandby
  split <;> rfl

@[simp] theorem settings_markStale : (towerView (markStale s)).settings = (towerView s).settings := rfl
@[simp] theorem settings_trigger : (towerView (trigger s)).settings = (towerView s).settings := by simp [trigger]
@[simp] theorem settings_abandonBuilds : (towerView (abandonBuilds s)).settings = (towerView s).settings := rfl
@[simp] theorem settings_discardAll : (towerView (discardAll s)).settings = (towerView s).settings := rfl
@[simp] theorem settings_emptySheets : (towerView (emptySheets s)).settings = (towerView s).settings := rfl
@[simp] theorem settings_dropStandby : (towerView (dropStandby s)).settings = (towerView s).settings := rfl

@[simp] theorem tower_endOldSheet (forward : Bool) : towerView (endOldSheet forward s) = towerView s := by
  unfold endOldSheet
  dsimp only
  split <;> simp

@[simp] theorem settings_stepTail : (towerView (stepTail s)).settings = (towerView s).settings := by simp [stepTail]

theorem settings_stepToDate (forward : Bool) (new : TimeBase) (h : timeSettings new = timeSettings s.time) :
    (towerView (stepToDate forward new s)).settings = (towerView s).settings := by
  have h2 : (endOldSheet forward s).time = s.time := congrArg TowerView.time (tower_endOldSheet s forward)
  unfold stepToDate
  dsimp only
  rw [settings_stepTail, tower_recomputeLit, settings_requestStandby, settings_requestToday, tower_spentCheckAll,
    settings_abandonBuilds, settings_emptySheets, settings_time _ _ (by rw [h2, h]), tower_endOldSheet]

@[simp] theorem tower_jumpForward (a : Nat) : towerView (jumpForward a s) = towerView s := by simp [jumpForward]

theorem settings_stepWithin (a : Nat) (new : TimeBase) (h : timeSettings new = timeSettings s.time) :
    (towerView (stepWithin a new s)).settings = (towerView s).settings := by
  unfold stepWithin
  dsimp only
  rw [settings_stepTail, settings_trigger, tower_recomputeLit]
  split
  · rw [tower_jumpForward]; exact settings_time_sheets _ _ _ h
  · exact settings_time_sheets _ _ _ h

theorem timeSettings_derive (t : TimeBase) : timeSettings (derive t) = timeSettings t := rfl

theorem settings_endRange : (towerView (endRange s)).settings = (towerView s).settings := by
  unfold endRange
  rw [settings_expireEvery]
  exact settings_stepToDate _ _ _ rfl

theorem settings_takeStep (new : TimeBase) (h : timeSettings new = timeSettings s.time) :
    (towerView (takeStep new s)).settings = (towerView s).settings := by
  unfold takeStep
  dsimp only
  split
  · rw [settings_endRange]
    apply settings_updTime
    exact h
  · split
    · exact settings_stepWithin _ _ _ h
    · exact settings_stepToDate _ _ _ h

theorem timeSettings_advance (t : TimeBase) : timeSettings (advance t) = timeSettings t := rfl

@[simp] theorem tower_finishDay : towerView (finishDay s) = towerView s := by simp [finishDay]

@[simp] theorem settings_writeTally (old new : Vector Nat 128) (i : SlotNo) :
    towerView (writeTally old new i s) = towerView s := by
  unfold writeTally
  split
  · split
    · rfl
    · exact tower_updSlot _ _ _ (fun _ => rfl) fun _ => rfl
  · rfl

@[simp] theorem settings_replaceTallies (new : Vector Nat 128) :
    (towerView (replaceTallies new s)).settings = (towerView s).settings := by
  unfold replaceTallies
  dsimp only
  rw [foldl_view towerView _ fun s i => settings_writeTally s _ _ i]
  rfl

@[simp] theorem tower_writeSkipped (joined : List Entry) : towerView (writeSkipped joined s) = towerView s :=
  foldl_view towerView _ (fun s _ => tower_writeOutcome s _ _ _) _ _

@[simp] theorem settings_installDay : (towerView (installDay s)).settings = (towerView s).settings := by
  unfold installDay
  dsimp only
  split <;> simp

@[simp] theorem tower_rekeyLane (e : Entry) : towerView (rekeyLane e s) = towerView s := by
  unfold rekeyLane
  repeat' split
  all_goals simp

@[simp] theorem settings_joinCarried (e : Entry) : (towerView (joinCarried e s)).settings = (towerView s).settings := by
  simp [joinCarried]

@[simp] theorem settings_dayChange : (towerView (dayChange s)).settings = (towerView s).settings := by
  unfold dayChange
  dsimp only
  rw [tower_spentCheckAll, settings_requestStandby, settings_dropStandby, tower_recomputeLit, tower_fallDueNow,
    settings_foldl _ (fun acc e => joinCarried e acc) settings_joinCarried, settings_installDay, settings_abandonBuilds]
  have h : ∀ t, timeSettings (newDay t) = timeSettings t := fun _ => rfl
  rw [settings_time_sheets (finishDay s) _ _ (h _), tower_finishDay]

@[simp] theorem settings_noteInstant : (towerView (noteInstant s)).settings = (towerView s).settings := rfl

@[simp] theorem settings_endSecond : (towerView (endSecond s)).settings = (towerView s).settings := by
  have h : ∀ n, (towerView { s with elapsed := n, time := advance s.time }).settings = (towerView s).settings :=
    fun n => (settings_time { s with elapsed := n } (advance s.time) (timeSettings_advance _)).trans (settings_elapsed s n)
  have h2 : ∀ n, (towerView
      (if dayEnds s.time = true then dayChange (expireOverrides { s with elapsed := n, time := advance s.time })
      else noteInstant { s with elapsed := n, time := advance s.time })).settings = (towerView s).settings := by
    intro n
    split
    · rw [settings_dayChange, settings_expireOverrides, h]
    · rw [settings_noteInstant, h]
  unfold endSecond
  dsimp only
  split
  · rw [settings_endRange]; rfl
  · split
    · rw [settings_evaluateAll]; exact h2 _
    · exact h2 _

/-! ### The reference -/

@[simp] theorem settings_assemble (got : List Byte) : (towerView (assemble got s)).settings = (towerView s).settings :=
  settings_updTime _ _ rfl

@[simp] theorem settings_receiveBytes (bytes : List Byte) :
    (towerView (receiveBytes bytes s)).settings = (towerView s).settings := by
  unfold receiveBytes
  split
  · rfl
  · split
    · exact settings_assemble _ _
    · dsimp only
      split
      · exact settings_assemble _ _
      · split
        · exact settings_assemble _ _
        · unfold completeMessage
          split
          · exact (settings_updTime _ _ rfl).trans (settings_assemble _ _)
          · exact settings_assemble _ _

@[simp] theorem settings_abandonMessage : (towerView (abandonMessage s)).settings = (towerView s).settings := by
  unfold abandonMessage
  split
  · exact settings_updTime _ _ rfl
  · exact settings_assemble _ _

theorem timeSettings_referenceSet (m : Nat) (t : TimeBase) : timeSettings (referenceSet m t) = timeSettings t := rfl

@[simp] theorem settings_pulse : (towerView (pulse s)).settings = (towerView s).settings := by
  have h : (towerView (dropWaiting s)).settings = (towerView s).settings := settings_updTime _ _ rfl
  unfold pulse
  split
  · rfl
  · split
    · unfold takePair outlyingPair
      dsimp only
      split
      · exact (settings_updTime _ _ rfl).trans h
      · split
        · exact (settings_takeStep _ _ (timeSettings_referenceSet _ _)).trans h
        · exact (settings_updTime _ _ rfl).trans h
    · exact h

/-! ### The resolver -/

@[simp] theorem settings_startRun (kind : RunKind) : (towerView (startRun kind s)).settings = (towerView s).settings := by
  cases kind <;> exact settings_updResolver _ _

@[simp] theorem settings_endRun : (towerView (endRun s)).settings = (towerView s).settings := rfl

@[simp] theorem settings_installToday (g : List Entry) : (towerView (installToday g s)).settings = (towerView s).settings := by
  simp [installToday]

@[simp] theorem settings_installStandby (g : List Entry) (b : Bool) :
    (towerView (installStandby g b s)).settings = (towerView s).settings := by
  simp [installStandby]

@[simp] theorem settings_completeQuery (D : Nat) : (towerView (completeQuery D s)).settings = (towerView s).settings := by
  simp [completeQuery]

/-! ### Sheets, lanes and the player -/

@[simp] theorem tower_expireGrace : towerView (expireGrace s) = towerView s := by
  unfold expireGrace
  split <;> simp

@[simp] theorem tower_endQuiet : towerView (endQuiet s) = towerView s := by
  unfold endQuiet
  repeat' split
  all_goals simp

@[simp] theorem settings_relit (k : Key) : (towerView (relit k s)).settings = (towerView s).settings := rfl

@[simp] theorem settings_fallOne : (towerView (fallOne s)).settings = (towerView s).settings := by
  unfold fallOne
  repeat' split
  all_goals simp

@[simp] theorem tower_laneTakes (lane : Lane) : towerView (laneTakes lane s) = towerView s := by
  unfold laneTakes
  split <;> simp

@[simp] theorem tower_tollNext : towerView (tollNext s) = towerView s := by
  unfold tollNext
  repeat' split
  all_goals simp

@[simp] theorem tower_soundNote (t : TuneNo) (st : Station) (x : Strength) (deadline serial : Nat) :
    towerView (soundNote t st x deadline serial s) = towerView s := by
  unfold soundNote
  dsimp only
  split
  · rw [tower_updTune, tower_serveFirst]; intro _; rfl
  · simp

@[simp] theorem tower_playNote (t : TuneNo) (x : Note) (p : Player) : towerView (playNote t x p s) = towerView s := by
  unfold playNote
  dsimp only
  split <;> simp

@[simp] theorem tower_noteStarts : towerView (noteStarts s) = towerView s := by
  unfold noteStarts
  repeat' split
  all_goals simp

@[simp] theorem tower_afterPlay (t : TuneNo) (p : Player) : towerView (afterPlay t p s) = towerView s := by
  unfold afterPlay
  repeat' split
  all_goals simp

@[simp] theorem tower_playEnds : towerView (playEnds s) = towerView s := by
  unfold playEnds
  repeat' split
  all_goals first | rfl | (rw [tower_afterPlay, tower_updTune]; intro _; rfl)

@[simp] theorem tower_hourStroke : towerView (hourStroke s) = towerView s := by
  unfold hourStroke
  repeat' split
  all_goals simp

@[simp] theorem settings_completeCheck (t : TuneNo) : (towerView (completeCheck t s)).settings = (towerView s).settings := by
  unfold completeCheck
  dsimp only
  split <;> (rw [tower_setFlag]; exact settings_updTune _ _ _ fun _ => rfl)

/-! ### Bells -/

@[simp] theorem tower_lowerFailed (st : Station) : towerView (lowerFailed st s) = towerView s := by simp [lowerFailed]

@[simp] theorem tower_takePoll (st : Station) : towerView (takePoll st s) = towerView s := by
  unfold takePoll
  rw [tower_pollNow]
  exact tower_updBell _ _ _ (fun _ => rfl) fun _ => rfl

@[simp] theorem tower_excludeWaiting : towerView (excludeWaiting s) = towerView s := by
  unfold excludeWaiting
  split
  · rfl
  · rw [tower_settlePeal, foldl_view towerView]
    · rfl
    · intro s st; simp

@[simp] theorem tower_endRinging : towerView (endRinging s) = towerView s := by
  unfold endRinging
  split <;> simp

@[simp] theorem tower_offerFirst : towerView (offerFirst s) = towerView s := by
  unfold offerFirst
  split <;> simp

@[simp] theorem tower_admitWaiting (st : Station) : towerView (admitWaiting st s) = towerView s := by
  unfold admitWaiting
  repeat' split
  all_goals simp

@[simp] theorem settings_takeBell (st : Station) : (towerView (takeBell st s)).settings = (towerView s).settings := by
  have h : (towerView (pealLeave st (updBell st
      (fun b => { b with ctrl := .console, owed := none, moveStart := none, nextPoll := none }) s))).settings
        = (towerView s).settings := by
    rw [tower_pealLeave]
    exact settings_updBell _ _ _ fun _ => rfl
  unfold takeBell
  dsimp only
  rw [tower_withdrawOrders, tower_loseDeferred]
  split
  · rw [tower_withdrawRequest]; exact h
  · exact h

@[simp] theorem settings_grantBell (st : Station) : (towerView (grantBell st s).1).settings = (towerView s).settings := by
  unfold grantBell
  dsimp only
  split
  · rfl
  · split
    · rfl
    · split
      · exact settings_takeBell _ _
      · have h := tower_askAdmission s st false
        generalize askAdmission st false s = r at h
        obtain ⟨s1, b⟩ := r
        cases b
        · exact settings_of_tower h
        · exact (settings_takeBell s1 st).trans (settings_of_tower h)

@[simp] theorem settings_grantAll (sts : List Station) (g : BellSet) :
    (towerView (grantAll sts s g).1).settings = (towerView s).settings := by
  induction sts generalizing s g with
  | nil => rfl
  | cons st rest ih =>
    have h := settings_grantBell s st
    unfold grantAll
    generalize grantBell st s = r at h
    obtain ⟨s1, b⟩ := r
    cases b
    · exact (ih s1 g).trans h
    · exact (ih s1 _).trans h

@[simp] theorem settings_claimBells (set : BellSet) : (towerView (claimBells set s).1).settings = (towerView s).settings := by
  simp [claimBells]

@[simp] theorem settings_giveBack (st : Station) : (towerView (giveBack st s)).settings = (towerView s).settings := by
  unfold giveBack
  rw [tower_becomeUnsure]
  exact settings_updBell _ _ _ fun _ => rfl

@[simp] theorem settings_releaseBells (set : BellSet) : (towerView (releaseBells set s)).settings = (towerView s).settings := by
  unfold releaseBells
  dsimp only
  rw [tower_settlePeal, tower_setFlagIf]
  exact settings_foldl _ _ (fun s st => settings_giveBack s st) _

@[simp] theorem tower_observeOrder (st : Station) (o : ConsoleOrder) : towerView (observeOrder st o s) = towerView s := by
  unfold observeOrder consoleReply consoleMoves
  repeat' split
  all_goals simp

@[simp] theorem tower_handObserved (address : Byte) (bytes : List Byte) :
    towerView (handObserved address bytes s) = towerView s := by
  unfold handObserved
  split
  · rfl
  · split
    · split
      · exact foldl_view towerView _ (fun s st => tower_observeOrder s st _) _ _
      · rfl
    · split
      · split <;> simp
      · rfl

@[simp] theorem tower_queryStation (st : Station) : towerView (queryStation st s) = towerView s := by
  unfold queryStation
  split <;> simp

@[simp] theorem tower_queryAll : towerView (queryAll s) = towerView s :=
  foldl_view towerView _ (fun s st => tower_queryStation s st) _ _

@[simp] theorem tower_bellsLineFault : towerView (bellsLineFault s) = towerView s := by
  unfold bellsLineFault
  apply foldl_view
  intro s st
  simp

@[simp] theorem tower_withdrawRaises : towerView (withdrawRaises s) = towerView s := tower_setLights_of _ _ rfl

@[simp] theorem tower_loseAllDeferred : towerView (loseAllDeferred s) = towerView s :=
  foldl_view towerView _ (fun s st => tower_loseDeferred s st) _ _

@[simp] theorem settings_bellsMainsLoss : (towerView (bellsMainsLoss s)).settings = (towerView s).settings := by
  unfold bellsMainsLoss
  dsimp only
  rw [tower_setFlagIf, tower_peal, settings_mapBells _ mainsLossFields fun _ => rfl]
  simp

@[simp] theorem settings_bellsWarmStart : (towerView (bellsWarmStart s)).settings = (towerView s).settings := by
  unfold bellsWarmStart
  rw [tower_queryAll]
  exact settings_mapBells _ _ fun _ => rfl

@[simp] theorem settings_bellsResetFirst : (towerView (bellsResetFirst s)).settings = (towerView s).settings := by
  unfold bellsResetFirst
  rw [settings_foldl _ _ fun s st => settings_of_tower (tower_startPolling s st),
    settings_mapBells _ (resetFields s.elapsed) fun _ => rfl]
  simp

@[simp] theorem tower_bellsResetLower : towerView (bellsResetLower s) = towerView s := by
  unfold bellsResetLower
  apply foldl_view
  intro s st
  split <;> simp

@[simp] theorem tower_bellsResetAsk : towerView (bellsResetAsk s) = towerView s := by
  unfold bellsResetAsk
  apply foldl_view
  intro s st
  split <;> simp

@[simp] theorem tower_foundUp (st : Station) : towerView (foundUp st s) = towerView s := by
  unfold foundUp
  split
  · simp
  · rw [tower_orderLower, tower_checkStrikable]
    exact tower_updBell _ _ _ (fun _ => rfl) fun _ => rfl

@[simp] theorem tower_foundMoving (st : Station) (r : Reply) : towerView (foundMoving st r s) = towerView s := by
  unfold foundMoving
  split
  · simp
  · split <;> simp

@[simp] theorem tower_replyByState (st : Station) (r : Reply) : towerView (replyByState st r s) = towerView s := by
  unfold replyByState replyRaising replyUp
  repeat' split
  all_goals simp

@[simp] theorem tower_applyReply (st : Station) (r : Reply) : towerView (applyReply st r s) = towerView s := by
  unfold applyReply
  dsimp only
  split
  · rfl
  · rw [tower_replyByState]
    split
    · rw [tower_faultEvent, tower_updBell] <;> intro _ <;> rfl
    · rw [tower_updBell] <;> intro _ <;> rfl

@[simp] theorem tower_reportAcknowledged (st : Station) : towerView (reportAcknowledged st s) = towerView s := by
  unfold reportAcknowledged
  split
  · rfl
  · exact tower_updBell _ _ _ (fun _ => rfl) fun _ => rfl

@[simp] theorem tower_reportUnanswered (st : Station) : towerView (reportUnanswered st s) = towerView s := by
  have h : towerView (updBell st (fun b => { b with noAnswer := min Config.noAnswerLimit (b.noAnswer + 1) }) s)
      = towerView s := tower_updBell _ _ _ (fun _ => rfl) fun _ => rfl
  unfold reportUnanswered
  dsimp only
  split
  · rfl
  · split
    · rw [tower_becomeFault, tower_updBell _ _ (fun b => { b with owed := none }) (fun _ => rfl) fun _ => rfl]
      split
      · rw [tower_withdrawRequest]; exact h
      · exact h
    · exact h

@[simp] theorem tower_strikeSent (st : Station) (who : Requester) : towerView (strikeSent st who s) = towerView s := by
  unfold strikeSent
  rw [tower_answerStroke]
  split
  · rfl
  · exact tower_updBell _ _ _ (fun _ => rfl) fun _ => rfl

/-! ### The line -/

@[simp] theorem settings_lineIdle : (towerView (lineIdle s)).settings = (towerView s).settings := settings_updLine _ _ rfl
@[simp] theorem settings_frameStopped : (towerView (frameStopped s)).settings = (towerView s).settings :=
  (settings_lineIdle _).trans rfl
@[simp] theorem settings_clockSeen : (towerView (clockSeen s)).settings = (towerView s).settings := rfl
@[simp] theorem settings_frameBroken : (towerView (frameBroken s)).settings = (towerView s).settings :=
  (settings_lineIdle _).trans rfl
@[simp] theorem tower_putBack (o : Order) : towerView (putBack o s) = towerView s := tower_updLine _ _ fun _ => rfl

@[simp] theorem tower_discardStrike (o : Order) : towerView (discardStrike o s) = towerView s := by
  unfold discardStrike
  dsimp only
  split <;> simp

@[simp] theorem tower_discardLate (fuel : Nat) : towerView (discardLate fuel s) = towerView s := by
  induction fuel generalizing s with
  | zero => rfl
  | succ n ih =>
    unfold discardLate
    split
    · rfl
    · split
      · rfl
      · rw [ih, tower_discardStrike]; exact tower_updLine _ _ fun _ => rfl

@[simp] theorem tower_orderReturned (o : Order) : towerView (orderReturned o s) = towerView s := by
  unfold orderReturned
  split
  · simp
  · split <;> simp

@[simp] theorem settings_clearLine (st : LineState) : (towerView (clearLine st s)).settings = (towerView s).settings :=
  settings_updLine _ _ rfl

@[simp] theorem settings_lineFault (cause : FaultCause) : (towerView (lineFault cause s)).settings = (towerView s).settings := by
  unfold lineFault
  dsimp only
  rw [tower_settlePeal, tower_bellsLineFault, tower_setFlag, foldl_view towerView _ fun s o => tower_orderReturned s o,
    settings_updLine _ _ rfl, settings_clearLine]

@[simp] theorem settings_flushLine (st : LineState) : (towerView (flushLine st s)).settings = (towerView s).settings := by
  simp [flushLine]

@[simp] theorem settings_beginRestart : (towerView (beginRestart s)).settings = (towerView s).settings :=
  settings_updLine _ _ rfl

@[simp] theorem settings_lineMainsLoss : (towerView (lineMainsLoss s)).settings = (towerView s).settings := by
  simp [lineMainsLoss]

@[simp] theorem settings_linePanelReset : (towerView (linePanelReset s)).settings = (towerView s).settings := by
  unfold linePanelReset
  dsimp only
  split
  · simp
  · rw [settings_updLine _ _ rfl]; simp

@[simp] theorem settings_lineWarmStart : (towerView (lineWarmStart s)).settings = (towerView s).settings := by
  unfold lineWarmStart
  dsimp only
  split
  · rw [settings_beginRestart, settings_updLine _ _ rfl]; rfl
  · rfl

@[simp] theorem settings_sampleWires (lck lda : Bool) : (towerView (sampleWires lck lda s)).settings = (towerView s).settings :=
  rfl

@[simp] theorem settings_attemptFailed (kind : AttemptKind) (cause : FaultCause) :
    (towerView (attemptFailed kind cause s)).settings = (towerView s).settings := by
  unfold attemptFailed
  split
  · rw [tower_setFlag]; exact settings_updLine _ _ rfl
  · simp

@[simp] theorem settings_attemptOver (r : AttemptResult) : (towerView (attemptOver r s)).settings = (towerView s).settings := by
  unfold attemptOver
  split
  · rfl
  · split
    · unfold attemptFreed
      rw [tower_queryAll, settings_sampleWires]; exact settings_updLine _ _ rfl
    all_goals rw [settings_attemptFailed, settings_sampleWires]

@[simp] theorem settings_frameStart (lck lda : Bool) : (towerView (frameStart lck lda s)).settings = (towerView s).settings := by
  unfold frameStart
  split
  case isFalse => rfl
  dsimp only
  split
  · rw [tower_settlePeal]
    have h : ∀ n, (towerView (discardLate n (sampleWires lck lda s))).settings = (towerView s).settings := by
      intro n
      rw [tower_discardLate]; rfl
    unfold tryWires
    repeat' split
    · exact h _
    · exact (settings_updLine _ _ rfl).trans (h _)
    · exact h _
    · unfold sendHead
      split
      · exact h _
      · exact (settings_updLine _ _ rfl).trans (h _)
  · rfl

@[simp] theorem settings_attemptEnd (a : StationAnswer) : (towerView (attemptEnd a s)).settings = (towerView s).settings := by
  unfold attemptEnd
  split
  · rfl
  · rw [tower_settlePeal]
    split
    · unfold orderAnswered
      dsimp only
      split <;> simp
    · unfold orderUnanswered
      split <;> simp

@[simp] theorem settings_loseArbitration (f : FrameHead) :
    (towerView (loseArbitration f s)).settings = (towerView s).settings := by
  unfold loseArbitration
  split
  · split
    · exact settings_updLine _ _ rfl
    · rfl
  · rfl
  · rfl

@[simp] theorem settings_foreignBegins (address : Byte) :
    (towerView (foreignBegins address s)).settings = (towerView s).settings := by
  unfold foreignBegins
  split
  · rw [settings_updLine _ _ rfl]; rfl
  · rfl

@[simp] theorem settings_observedStop (rest : List Byte) (ack : Bool) :
    (towerView (observedStop rest ack s)).settings = (towerView s).settings := by
  unfold observedStop
  split
  · rfl
  · split
    · simp
    · rw [tower_settlePeal]; split <;> simp

@[simp] theorem settings_claimFrame (set : BellSet) : (towerView (claimFrame set s)).settings = (towerView s).settings := by
  unfold claimFrame
  split
  · exact (settings_updLine _ _ rfl).trans ((settings_claimBells _ _).trans rfl)
  · rfl

@[simp] theorem settings_releaseFrame (order : Byte) (set : BellSet) :
    (towerView (releaseFrame order set s)).settings = (towerView s).settings := by
  unfold releaseFrame
  split <;> simp

@[simp] theorem settings_addressedStop : (towerView (addressedStop s)).settings = (towerView s).settings := by
  unfold addressedStop
  split <;> simp

@[simp] theorem tower_orderBroken (o : Order) : towerView (orderBroken o s) = towerView s := by
  unfold orderBroken
  dsimp only
  split <;> simp

@[simp] theorem settings_busErrorIn : (towerView (busErrorIn s)).settings = (towerView s).settings := by
  unfold busErrorIn
  split
  · split
    · rw [tower_settlePeal, tower_orderBroken, settings_updLine _ _ rfl, settings_frameBroken]
    · rfl
  · rw [settings_updLine _ _ rfl, settings_frameBroken]
  all_goals simp

@[simp] theorem settings_forceAccess : (towerView (forceAccess s)).settings = (towerView s).settings := by
  unfold forceAccess
  rw [settings_updLine _ _ rfl, settings_frameBroken]

@[simp] theorem settings_pulsesDone (freed : Bool) : (towerView (pulsesDone freed s)).settings = (towerView s).settings := by
  unfold pulsesDone
  dsimp only
  split
  · split
    · rw [settings_lineIdle]; rfl
    · rw [settings_lineFault]; rfl
  · rfl

@[simp] theorem settings_clockFault : (towerView (clockFault s)).settings = (towerView s).settings := by
  unfold clockFault
  split
  · rw [settings_lineFault]; rfl
  · rfl

/-! ### Dials' events, power and mains -/

@[simp] theorem settings_targetChange : (towerView (targetChange s)).settings = (towerView s).settings := by
  unfold targetChange
  split <;> simp

@[simp] theorem settings_endImpulse (d : DialNo) (o : Bool) : (towerView (endImpulse d o s)).settings = (towerView s).settings := by
  unfold endImpulse
  dsimp only
  rw [settings_evaluate]
  have h : (towerView (updDial d impulseEnds s)).settings = (towerView s).settings := settings_updDial _ _ _ fun _ => rfl
  repeat' split
  · rw [settings_senseDial]
    exact (settings_pins _ _).trans ((settings_takeClosure _ _).trans h)
  · rw [settings_senseDial]
    exact (settings_pins _ _).trans h
  · exact (settings_takeClosure _ _).trans h
  · exact h

@[simp] theorem settings_closureOf (d : DialNo) : (towerView (closureOf d s)).settings = (towerView s).settings := by
  unfold closureOf
  repeat' split
  · rfl
  · exact settings_updDial _ _ _ fun _ => rfl
  · rfl
  · rw [settings_evaluate]; exact settings_takeClosure _ _

@[simp] theorem settings_cutImpulses : (towerView (cutImpulses s)).settings = (towerView s).settings :=
  settings_foldl _ _ (fun s d => settings_updDial s d cutImpulse fun _ => rfl) _

@[simp] theorem settings_dialsMainsLoss : (towerView (dialsMainsLoss s)).settings = (towerView s).settings := by
  unfold dialsMainsLoss
  rw [settings_evaluateAll, settings_cutImpulses]

@[simp] theorem settings_lightsOut : towerView (lightsOut s) = towerView s := by
  apply tower_setLights_of
  simp only [lightsConfig, Prod.mk.injEq, and_true]
  apply vector_ext_get
  intro i
  simp

@[simp] theorem settings_setMains (high : Bool) (m : MainsState) :
    (towerView (setMains high m s)).settings = (towerView s).settings := rfl

@[simp] theorem settings_mainsLoss : (towerView (mainsLoss s)).settings = (towerView s).settings := by simp [mainsLoss]

@[simp] theorem settings_dialsWarmStart : (towerView (dialsWarmStart s)).settings = (towerView s).settings := by
  simp [dialsWarmStart]

@[simp] theorem settings_dialsPanelReset : (towerView (dialsPanelReset s)).settings = (towerView s).settings := by
  unfold dialsPanelReset
  split <;> simp

@[simp] theorem settings_sampleCircuits (opens : DialSet) :
    (towerView (sampleCircuits opens s)).settings = (towerView s).settings := rfl

@[simp] theorem settings_mainsBack (opens : DialSet) : (towerView (mainsBack opens s)).settings = (towerView s).settings := by
  simp [mainsBack, lightsWarmStart]

@[simp] theorem settings_lockSlots (b : Bool) : (towerView (lockSlots b s)).settings = (towerView s).settings := by
  have : (s.table.slots.map fun x => ({ x with locked := b } : Slot)).map Slot.image = s.table.slots.map Slot.image := by
    apply vector_ext_get; intro i; simp
  simp only [lockSlots, towerView, settingsView, updTable_table, this]
  rfl

@[simp] theorem settings_lockTunes (b : Bool) : (towerView (lockTunes b s)).settings = (towerView s).settings := by
  have : (s.tunes.tunes.map fun x => ({ x with locked := b } : Tune)).map (fun x => (x.first, x.length, x.tick, x.expected))
      = s.tunes.tunes.map fun x => (x.first, x.length, x.tick, x.expected) := by
    apply vector_ext_get; intro i; simp
  simp only [lockTunes, towerView, settingsView, this]

@[simp] theorem settings_panelReset (opens : DialSet) : (towerView (panelReset opens s)).settings = (towerView s).settings := by
  have h : (towerView (timePanelReset (lockTunes true (lockSlots true (clearAllFlags (portReset s)))))).settings
      = (towerView s).settings := by
    refine (settings_updTime _ _ rfl).trans ?_
    rw [settings_lockTunes, settings_lockSlots]; rfl
  have h2 : ∀ t, (towerView (emptyWaiting t)).settings = (towerView t).settings := fun t =>
    settings_of_tower (tower_setLights_of _ _ rfl)
  unfold panelReset
  dsimp only
  rw [tower_bellsResetAsk, settings_trigger, settings_discardAll, settings_dialsPanelReset, h2, tower_bellsResetLower,
    tower_cutAllLanes, settings_bellsResetFirst, settings_linePanelReset, settings_sampleCircuits, h]

theorem settings_powerUpHeld (high : Bool) (opens : DialSet) :
    (towerView (powerUpHeld high opens s)).settings = (towerView s).settings := by
  have h1 : (towerView (panelReset opens { s with power := .running })).settings = (towerView s).settings := by
    rw [settings_panelReset, settings_power]
  have h2 : ∀ u, (towerView (powerUpMains high opens u)).settings = (towerView u).settings := by
    intro u
    unfold powerUpMains
    repeat' split
    all_goals simp
  unfold powerUpHeld
  dsimp only
  rw [h2]
  have h3 : ∀ t, timeSettings (powerUpTime t) = timeSettings t := fun t => timeSettings_derive _
  exact (settings_stepToDate _ _ _ (h3 _)).trans h1

end Sys2Proof.Machine
end

