-- ==== Sys2Proof/Tests/Slice0.lean ====
section
/-! SUPPORT. Our own tests: what WellFormed refuses, command bytes written out from R212, values worked out by hand from the spec, and
for every statement a state and operands that meet its hypotheses, at a boundary where there is one. -/

namespace Sys2Proof.Tests

set_option Elab.async false

open Sys2Proof Sys2Proof.Machine

/-! ### Ill-formed commands -/

theorem test_known_code_is_no_unknown_frame : (Instr.unknownCommandFrame 0x10 []).wellFormed = false := by decide
theorem test_message_has_a_byte : (Instr.referenceMessage []).wellFormed = false := by decide
theorem test_lost_address_bit1_is_0 : (Instr.arbitrationLost ⟨0x06, 0⟩).wellFormed = false := by decide
theorem test_foreign_address_bit1_is_0 : (Instr.foreignStart 0x02).wellFormed = false := by decide
theorem test_acknowledged_frame_has_an_order : (Instr.observedFrameStop [] true).wellFormed = false := by decide

/-! ### Frames, written out from R212 -/

/-- Levels for the frames that sample pins. -/
def lv : Levels := ⟨.opened, true, true, 0b0101⟩

theorem test_decode_publish : decodeFrame lv [0x11, 0x05] = some (.publishRecord [5]) := by decide
theorem test_decode_protection : decodeFrame lv [0x16, 7, 1, 1, 0] = some (.writeProtection [7, 1, 1, 0] .opened) := by decide
theorem test_decode_adjust : decodeFrame lv [0x21, 0xFF, 0xFF, 0x38] = some (.adjustTime [0xFF, 0xFF, 0x38]) := by decide
theorem test_decode_sunday_rank : decodeFrame lv [0x28, 7] = some (.writeSundayRank [7]) := by decide
theorem test_decode_sheet : decodeFrame lv [0x30, 0, 0] = some (.readSheet [0, 0]) := by decide
theorem test_decode_pop : decodeFrame lv [0x39] = some (.popOverride []) := by decide
theorem test_decode_free_bell : decodeFrame lv [0x41, 0x1F] = some (.freeBell [31]) := by decide
theorem test_decode_close_tune : decodeFrame lv [0x4A, 1, 0x29, 0xB1] = some (.closeTune [1, 0x29, 0xB1]) := by decide
theorem test_decode_clear_line : decodeFrame lv [0x50] = some (.clearLine []) := by decide
theorem test_decode_read_dial : decodeFrame lv [0x5A, 2] = some (.readDial [2] true) := by decide
theorem test_decode_allowance : decodeFrame lv [0x62, 1, 0x2C] = some (.setAllowance [1, 0x2C]) := by decide
theorem test_decode_identity : decodeFrame lv [0x71] = some .readIdentity := by decide
theorem test_decode_reset : decodeFrame lv [0x7F] = some (.reset [] 0b0101) := by decide
theorem test_decode_unknown : decodeFrame lv [0x99, 0] = some (.unknownCommandFrame 0x99 [0]) := by decide
theorem test_decode_empty : decodeFrame lv [] = none := by decide

/-! ### States to test on -/

/-- The state after a cold start. -/
def s0 : State := State.reset
/-- An image from the values of its first bytes (R205). -/
def img (l : List Nat) : Image := Vector.ofFn fun i => BitVec.ofNat 8 (l.getD i.val 0)
/-- Tune 1 once, daily at 10:00:00, grace 2. -/
def tuneImg : Image := img [3, 5, 0, 15, 0, 0, 0, 0, 0, 0, 0x10, 0, 0, 0, 0, 0, 0, 0, 0, 0, 0, 2, 1, 1]
/-- The hours of bell 1 every 2 s, from 00:00 to 20:00, with no quarter tune. -/
def strikeImg : Image := img [2, 5, 0, 15, 0, 0, 0, 0, 0, 1, 0, 0, 0, 0, 0, 1, 0x20, 0, 0, 0, 0, 2, 1, 2, 0, 0, 0, 0, 1]
/-- Bell 1 tolled 3 times every 2 s, daily at 10:00:00. -/
def tollImg : Image := img [4, 5, 0, 15, 0, 0, 0, 0, 0, 0, 0x10, 0, 0, 0, 0, 0, 0, 0, 0, 0, 0, 2, 1, 2, 3]
/-- Bells 1 and 2 rung for a minute, daily at 10:00:00. -/
def pealImg : Image := img [5, 5, 0, 15, 0, 0, 0, 0, 0, 0, 0x10, 0, 0, 0, 0, 0, 0, 0, 0, 0, 0, 2, 0, 0, 0, 6, 1]
/-- Scene 1 from 10:00:00 to 23:00:00, daily. -/
def lightImg : Image := img [6, 5, 0, 15, 0, 0, 0, 0, 0, 0, 0x10, 0, 0, 0, 0, 0, 0x23, 0, 0, 0, 0, 0, 1]
/-- Quiet for every kind and bell, all day. -/
def quietImg : Image := img [1, 5, 0, 15, 0, 0, 0, 0, 0, 5, 0, 0, 0, 0, 0, 0, 0, 0, 0, 0, 0, 2, 15]
/-- A state with a slot's state and image set. -/
def withSlot (i : SlotNo) (st : SlotState) (im : Image) (s : State) : State :=
  { s with table := { s.table with slots := put s.table.slots i { Slot.cold with state := st, image := im } } }
/-- A state with a bell record. -/
def withBell (st : Station) (b : Bell) (s : State) : State := { s with bells := put s.bells st b }
/-- A state with a tune entry. -/
def withTune (n : TuneNo) (x : Tune) (s : State) : State :=
  { s with tunes := { s.tunes with tunes := put s.tunes.tunes n x } }
/-- A state with a line controller. -/
def withLine (f : Line → Line) (s : State) : State := { s with line := f s.line }
/-- A state with a dial record. -/
def withDial (d : DialNo) (x : Dial) (s : State) : State := { s with dials := put s.dials d x }
/-- A state with today's entries, at 10:00:00. -/
def withToday (es : List Entry) (s : State) : State :=
  { s with time := { s.time with instant := 36000 }, sheets := { s.sheets with today := { s.sheets.today with entries := es } } }
/-- A state with a time base. -/
def withTime (f : TimeBase → TimeBase) (s : State) : State := { s with time := f s.time }
/-- A tune of 4 notes of 100 ms, unlocked. -/
def tune4 (st : TuneState) : Tune := { Tune.cold with state := st, length := 4, tick := 100, locked := false }
/-- A bell fitted with hammer and motor. -/
def fitted (p : Position) : Bell := { Bell.cold 0 with present := true, hammer := true, swing := true, load := 10, pos := p }
/-- An entry of slot 7 at 10:00:00. -/
def entryOf (k : Kind) (sub : Nat) (st : EntryState) : Entry := ⟨36000, none, ⟨7, sub⟩, k, 5, st, false⟩
/-- A QUIET entry of slot 7 from 10:00:00 to 10:00:00. -/
def quietEntry (st : EntryState) : Entry := ⟨36000, some 36000, ⟨7, 0⟩, .quiet, 5, st, false⟩

/-! ### Values worked out by hand -/

/-- The check of R143 on its nine bytes. -/
theorem test_crc : crc [0x31, 0x32, 0x33, 0x34, 0x35, 0x36, 0x37, 0x38, 0x39] = 0x29B1 := by decide +kernel
/-- 2000-01-01 was a Saturday, day number 0; Sunday is 0. -/
theorem test_weekday : weekday 0 = 6 ∧ weekday 1 = 0 := by decide
/-- Easter of 2000 fell on April 23 and of 2024 on March 31. -/
theorem test_easter : easterDate 2000 = (4, 23) ∧ easterDate 2024 = (3, 31) := by decide
/-- 2024-02-29 is a date, and 2023-02-29 is none; day 8825 is 2024-02-29. -/
theorem test_dates : bcdDate 0x20 0x24 0x02 0x29 = some 8825 ∧ bcdDate 0x20 0x23 0x02 0x29 = none := by decide
/-- An identity frame streams the five bytes of R197. -/
theorem test_identity : exec .readIdentity s0 = .next { s0 with port := ⟨.none, [0x55, 0x43, 0x04, 0x16, 0x02]⟩ } := rfl
/-- ADJUST TIME of -200 ms, its three bytes in two's complement. -/
theorem test_adjust :
    exec (.adjustTime [0xFF, 0xFF, 0x38]) s0 = .next { s0 with time := { s0.time with slew := -200 } } := rfl
/-- A frame too short is refused. -/
theorem test_short : exec (.setAllowance [1]) s0 = .next { s0 with port := ⟨.shortFrame, []⟩ } := rfl

/-- The state after a command, for tests that look at one field. -/
def after (c : Instr) (s : State) : State :=
  match exec c s with
  | .next t => t
  | .fault _ => s
  | .refused _ => s

/-! ### A frame bit by bit (R193), its bits written out by hand -/

/-- The bits of 71h, READ IDENTITY. -/
def bits71 : List Bool := [false, true, true, true, false, false, false, true]
/-- A state after an operation below the rows. -/
def reached (r : Result) : State :=
  match r with
  | .next t => t
  | .fault _ => s0
  | .refused _ => s0

/-- Three bits past the command byte are dropped, and the frame in progress with them. -/
theorem test_frame_bits : (let t := reached (sendFrame .mode0 lv (bits71 ++ [true, true, true]) s0)
    t.port.stream = [0x55, 0x43, 0x04, 0x16, 0x02] ∧ t.portFrame = none) := by decide +kernel

/-- A frame of seven bits is no command: nothing is refused. -/
theorem test_frame_short : (let t := reached (sendFrame .mode3 lv (bits71.take 7) s0)
    t.port = s0.port ∧ t.portFrame = none) := by decide +kernel

/-- In the middle of PUBLISH RECORD's operand byte the port holds the command byte 11h, its count and four bits. -/
theorem test_frame_held :
    (reached (clockBits .mode0 lv (frameBits [0x11] ++ [false, false, true, false]) (selectFalls s0))).portFrame
      = some ⟨some 0x11, 1, [], [false, false, true, false], false⟩ := by decide +kernel

/-- Data out floats between frames, reads 0 in the command byte, and carries 55h from its most significant bit after it; in mode 3, whose
bit begins with the falling edge, it is a bit behind mode 0. -/
theorem test_data_out :
    [[], bits71, bits71 ++ [false]].map (fun bs => dataOut (reached (clockBits .mode0 lv bs (selectFalls s0))))
        = [some false, some false, some true] ∧
      [bits71 ++ [false], bits71 ++ [false, false]].map (fun bs => dataOut (reached (clockBits .mode3 lv bs (selectFalls s0))))
        = [some false, some true] ∧
      dataOut s0 = none := by decide +kernel

/-- Data out changes at the falling edge: the rising edge at which 55h's first bit is sampled by the host leaves it. -/
theorem test_data_out_falls :
    let t := reached (clockBits .mode0 lv bits71 (selectFalls s0))
    dataOut (reached (clockRises lv false t)) = some false ∧ dataOut (clockFalls (reached (clockRises lv false t))) = some true := by
  decide +kernel

/-- A slew of 25 ms takes 10 ms from the second, and one of -25 ms lengthens it by 10 (R29). -/
theorem test_slew :
    (after .newSecond (withTime (fun t => { t with slew := 25 }) s0)).elapsed = 990 ∧
    (after .newSecond (withTime (fun t => { t with slew := -25 }) s0)).elapsed = 1010 ∧
    (after .newSecond (withTime (fun t => { t with slew := -25 }) s0)).time.slew = -15 := by decide +kernel
/-- The id after 255 is 1 (R101). -/
theorem test_id_wraps :
    (after (.pushOverride [1, 0, 0, 0, 0, 0, 0, 0, 0, 2, 0, 0, 0, 0]) { s0 with overrides := ⟨[], 255⟩ }).overrides
      = ⟨[⟨1, .muffle 2, none⟩], 1⟩ := by decide +kernel
/-- The impulse that ends at 1,439 brings the hands to 0 with the other polarity (R173, R174). -/
theorem test_hands_wrap :
    (getDial
      (after (.impulseEnd 0 false) (withDial 0 { Dial.cold with present := true, hand := 1439, impulse := some ⟨.positive, 0⟩ } s0))
      0).hand = 0 := by decide +kernel
/-- With a zone of 5 and an allowance of 15, an allowance of 10 sheds nothing and 4 sheds the zone (R187, R190). -/
theorem test_shedding :
    let s := { s0 with lights := { s0.lights with allowance := 15, zones := put s0.lights.zones 0 ⟨5, 5, 5, 1, 1, 1⟩ } }
    (((after (.setAllowance [0, 10]) s).lights.zones.get 0).present = 1) ∧
      (((after (.setAllowance [0, 4]) s).lights.zones.get 0).present = 0) := by decide +kernel

/-! ### Bytes and rules of the line and of the reference receiver, from R210, R35, R163 and R203 -/

/-- A QUERY, a raise and a stroke of bell 1. -/
def queryOrder : Order := ⟨0, .swing .query, 0, 0⟩
def strikeOrder : Order := ⟨0, .strike .full 250 (.toll 1), 0, 0⟩
/-- The part's own frame is on the line. -/
def sOwn (o : Order) (b : Bell) : State := withLine (fun l => { l with state := .sending, frame := .own o 0 }) (withBell 0 b s0)

/-- A QUERY of bell 9 begins 25h 20h, a HALT of it 24h 12h, and strokes of bell 31 are 7Ch with 01h, 02h and 03h. -/
theorem test_own_frame_bytes :
    (Order.addressByte ⟨8, .swing .query, 0, 0⟩ = 0x25 ∧ Order.orderByte ⟨8, .swing .query, 0, 0⟩ = 0x20) ∧
    (Order.addressByte ⟨8, .swing .halt, 0, 0⟩ = 0x24 ∧ Order.orderByte ⟨8, .swing .halt, 0, 0⟩ = 0x12) ∧
    Order.addressByte ⟨30, .strike .soft 0 (.toll 1), 0, 0⟩ = 0x7C ∧
    [Strength.soft, .normal, .full].map Strength.orderByte = [1, 2, 3] := by decide
/-- A claim of bells 1 and 31 that grants bell 1. -/
theorem test_claim_bytes : claimBytes 0x80000002 2 = [0x40, 0x80, 0, 0, 2, 0, 0, 0, 2] := by decide
/-- Address 1 with its read flag is 05h: a frame to 05h of a lower order byte wins, and one to 08h does not. -/
theorem test_arbitration :
    (after (.arbitrationLost ⟨0x05, 0x10⟩) (sOwn queryOrder (fitted .down))).line.state = .observing ∧
    (after (.arbitrationLost ⟨0x08, 0⟩) (sOwn queryOrder (fitted .down))).line.state = .sending := by decide +kernel
/-- LCK was read high at the elapsed moment 0: low at 25 ms it is no fault, and at 26 ms it is one. -/
theorem test_clock_rule :
    (after .clockStuck { s0 with elapsed := 25 }).line.state = .idle ∧
    (after .clockStuck { s0 with elapsed := 26 }).line.state = .faulted := by decide +kernel
/-- Bytes that come 19 ms after the last are discarded, and at 20 ms a message begins. -/
theorem test_receiver_idle :
    (after (.referenceMessage [0x7E]) (withTime (fun t => { t with lastByte := some 0 }) { s0 with elapsed := 19 })).time.assembling = [] ∧
    (after (.referenceMessage [0x7E]) (withTime (fun t => { t with lastByte := some 0 }) { s0 with elapsed := 20 })).time.assembling
      = [0x7E] := by decide +kernel
/-- READ BELL of a bell fitted with hammer and motor begins 07h. -/
theorem test_bell_flags : (after (.readBell [1]) (withBell 0 (fitted .down) s0)).port.stream.head? = some 7 := by decide +kernel

/-! ### The block and the laws: hypotheses that are met -/

theorem witness_StepRunsQueue :
    { s0 with pending := [.readTime] }.pending = .readTime :: [] ∧
    dueEvent { s0 with resolver := { s0.resolver with todayReq := true } } = some .resolverRunStart ∧
    (s0.pending = [] ∧ dueEvent s0 = none ∧ running s0 = true) ∧ running { s0 with power := .unpowered } = false := by
  decide +kernel

theorem witness_CommandsLeaveQueue : ∃ t, exec .newSecond { s0 with pending := [.readTime] } = .next t := ⟨_, rfl⟩

theorem witness_EventsKeepSettings :
    encodeFrame .mainsLost = none ∧ (∀ high, Instr.mainsLost ≠ .coldStart high) ∧ ∃ t, exec .mainsLost s0 = .next t :=
  ⟨rfl, nofun, _, rfl⟩

theorem witness_SilentPartStandsStill :
    (encodeFrame (.lockAll []) = some [0x1A] ∧ portServed { s0 with pins := { s0.pins with resetHigh := false } } = false) ∧
    (running { s0 with power := .unpowered } = false ∧ ∀ o, Instr.newSecond ≠ .resetPin o) :=
  ⟨⟨rfl, rfl⟩, rfl, nofun⟩

theorem witness_RefusalsChangeNothingElse :
    encodeFrame (.freeBell [32]) = some [0x41, 32] ∧ portServed s0 = true ∧
    ∃ t, exec (.freeBell [32]) s0 = .next t ∧ t.port.lastCode ≠ .none := ⟨rfl, rfl, _, rfl, by decide⟩

theorem witness_FramesDecodeBack :
    (Instr.writeProtection [7, 1, 1, 0] .opened).wellFormed = true ∧ samples lv (.writeProtection [7, 1, 1, 0] .opened) = true ∧
    encodeFrame (.writeProtection [7, 1, 1, 0] .opened) = some [0x16, 7, 1, 1, 0] ∧
    (Instr.unknownCommandFrame 0xFF []).wellFormed = true ∧ samples lv (.unknownCommandFrame 0xFF []) = true := by decide

/-- A state at the edge of the laws: an allowance just filled by a zone and a reserving bell, and the hands at the top of the face. -/
def sEdge : State :=
  { s0 with
    lights := { s0.lights with allowance := 15, zones := put s0.lights.zones 0 ⟨5, 5, 5, 1, 1, 1⟩, reserv := put s0.lights.reserv 0 (some 10) }
    bells := put s0.bells 0 { fitted .up with reserving := true }
    dials := put s0.dials 3 { Dial.cold with hand := 1439 }
    overrides := ⟨List.replicate 8 ⟨1, .muffle 2, none⟩, 255⟩
    tunes := { s0.tunes with notes := [⟨8191, 1⟩] }
    pending := [.readTime] }

theorem witness_StepKeepsSupplyLaw : lightLaw sEdge ∧ committed sEdge.lights = sEdge.lights.allowance ∧ ∃ t, step sEdge = .next t := by
  refine ⟨?_, by decide +kernel, _, rfl⟩
  unfold lightLaw zoneLaw supplyLaw
  decide +kernel
theorem witness_StepKeepsReservations : reservLaw sEdge ∧ ∃ t, step sEdge = .next t := by
  refine ⟨?_, _, rfl⟩
  unfold reservLaw
  decide +kernel
theorem witness_StepKeepsOpenEntryLaw : openLaw sEdge ∧ ∃ t, step sEdge = .next t := by
  refine ⟨?_, _, rfl⟩
  unfold openLaw
  decide +kernel
theorem witness_StepKeepsBounds : stackLaw sEdge ∧ handLaw sEdge ∧ noteLaw sEdge ∧ ∃ t, step sEdge = .next t := by
  refine ⟨?_, ?_, ?_, _, rfl⟩
  · unfold stackLaw; decide +kernel
  · unfold handLaw; decide +kernel
  · unfold noteLaw; decide +kernel

/-! ### The observance table -/

/-- Tune 1 is READY, and slot 127 holds the tune record as a DRAFT. -/
def sDraft : State := withTune 0 (tune4 .ready) (withSlot 127 .draft tuneImg s0)

theorem witness_WriteRecordMakesDraft :
    portServed s0 = true ∧ slotOf 127 = some 127 ∧ (imageOf (List.replicate 32 0)).isSome = true ∧ slotProtected s0.table 127 = false ∧
    (getSlot s0 127).state = .empty ∧ (getSlot sDraft 127).state = .draft ∧
    (getSlot (withSlot 127 .spent tuneImg s0) 127).state = .spent ∧ slotProtected (withSlot 127 .spent tuneImg s0).table 127 = false := by
  decide +kernel

theorem witness_RecordReadsBack :
    portServed s0 = true ∧ ∃ t, exec (.writeRecord (127 :: List.replicate 32 0xFF)) s0 = .next t ∧ t.port.lastCode = .none :=
  ⟨rfl, _, rfl, rfl⟩

theorem witness_PublishMakesLive :
    portServed sDraft = true ∧ slotOf 127 = some 127 ∧ slotProtected sDraft.table 127 = false ∧ (getSlot sDraft 127).state = .draft ∧
    (recordOf (getSlot sDraft 127).image).isSome = true ∧ onceBefore sDraft (getSlot sDraft 127).image = false ∧
    tunesReady sDraft (getSlot sDraft 127).image = true := by decide +kernel

theorem witness_WithdrawTakesRecordBack :
    portServed (withSlot 0 .live tuneImg s0) = true ∧ slotOf 0 = some 0 ∧ slotProtected (withSlot 0 .live tuneImg s0).table 0 = false ∧
    (getSlot (withSlot 0 .live tuneImg s0) 0).state = .live ∧ (getSlot (withSlot 0 .spent tuneImg s0) 0).state = .spent := by
  decide +kernel

/-- A run in progress has generated a tune entry of slot 7, which is LIVE and unprotected. -/
def sRunning : State :=
  withSlot 7 .live tuneImg { s0 with resolver := { s0.resolver with run := some ⟨.today, 0, [entryOf .tune 0 .pending], false, 0⟩ } }

theorem witness_WithdrawTakesRecordBack_run :
    portServed sRunning = true ∧ slotOf 7 = some 7 ∧ slotProtected sRunning.table 7 = false ∧ (getSlot sRunning 7).state = .live ∧
    ∃ t, exec (.withdrawRecord [7]) sRunning = .next t ∧ t.resolver.run.isSome = true :=
  ⟨by decide +kernel, rfl, by decide +kernel, by decide +kernel, _, rfl, by decide +kernel⟩

/-- What the run has generated for a slot is gone when its record is taken back (R2, R17). -/
theorem test_withdrawn_gains_nothing :
    (after (.withdrawRecord [7]) sRunning).resolver.run.map Run.generated = some [] ∧
    (after (.retireRecord [7]) sRunning).resolver.run.map Run.generated = some [] := by decide +kernel

theorem witness_RetireEmptiesSlot :
    portServed sDraft = true ∧ slotOf 127 = some 127 ∧ slotProtected sDraft.table 127 = false ∧ (getSlot sDraft 127).state ≠ .empty := by
  decide +kernel

theorem witness_RecordCommandsRefuse :
    portServed s0 = true ∧ slotOf 128 = none ∧
    slotProtected { s0 with table := { s0.table with range := .all } }.table 0 = true ∧
    (slotProtected s0.table 0 = false ∧ (getSlot s0 0).state = .empty) ∧ (getSlot sDraft 127).state = .draft ∧
    (getSlot (withSlot 0 .live tuneImg s0) 0).state = .live ∧ recordOf (img [9]) = none ∧
    onceBefore { s0 with time := { s0.time with stdDay := 1 } } (img [0, 5, 0, 15, 6, 0x20, 0, 1, 1]) = true ∧
    ((recordOf tuneImg).isSome = true ∧ onceBefore s0 tuneImg = false ∧ tunesReady (withSlot 127 .draft tuneImg s0) tuneImg = false) := by
  decide +kernel

/-- A LIGHT record of a ONCE date, 29 February 2000, from 180 minutes before dawn to 23:59:59. -/
def onceImg : Image :=
  img [6, 15, 15, 15, 6, 0x20, 0, 2, 0x29, 3, 0, 0, 0, 0xFF, 0x4C, 1, 0x23, 0x59, 0x59, 0, 0, 60, 16]

theorem witness_RecordCommandsRefuse_ranges :
    FieldsInRange onceImg .light ∧ (¬∃ kind, FieldsInRange (img [9]) kind) ∧ (recordOf onceImg).isSome = true ∧
    (bcdDate 0x20 0 2 0x29 = some 59 ∧ 59 < { s0.time with stdDay := 60 }.stdDay) ∧ refersTune tuneImg 0 = true := by
  refine ⟨⟨by decide, by decide, ⟨20, 0, 2, 29, ?_⟩, fun _ => ⟨by decide, by decide, by decide, .inr (.inr ⟨by decide, ?_, .inl ⟨by decide, ?_⟩⟩),
    ?_⟩⟩, ?_, by decide +kernel, by decide +kernel, by decide +kernel⟩
  · unfold Coded; decide +kernel
  · unfold OffsetOk; decide +kernel
  · exact ⟨86399, 23, 59, 59, by unfold Coded; decide +kernel⟩
  · unfold ActionInRange ByteIn; decide +kernel
  · rintro ⟨kind, h, -⟩
    cases kind <;> exact absurd h (by decide +kernel)

theorem witness_FindRecordsStreamsMatches :
    portServed s0 = true ∧ slotOf 127 = some 127 ∧ criterion 0xFF kindOf = .ok none ∧ criterion 6 kindOf = .ok (some .light) ∧
    criterion 3 slotStateOf = .ok (some .spent) ∧ criterion 32 tuneOf = .ok (some 31) ∧ criterion 31 stationOf = .ok (some 30) :=
  ⟨rfl, rfl, rfl, rfl, rfl, rfl, rfl⟩

theorem witness_LockCommandsSetFlags :
    portServed s0 = true ∧ slotOf 127 = some 127 ∧ tuneOf (32 : Byte).toNat = some 31 ∧ slotOf 128 = none ∧ (33 : Byte) ≠ 0 ∧
    tuneOf (33 : Byte).toNat = none := by decide

theorem witness_ProtectionIsGuarded :
    portServed s0 = true ∧ protRangeOf 7 = some .all ∧ flagOf 1 = some true ∧ schemeOf 1 = some .rangeAndLocks ∧
    s0.table.guard = false ∧ { s0 with table := { s0.table with guard := true } }.table.guard = true := by decide

/-! ### The time base -/

theorem witness_StepsSetTheTime :
    (portServed s0 = true ∧ s0.time.ref ≠ .locked ∧ bcdDate 0x23 0x99 0x12 0x31 = some 146096 ∧ bcdTime 0x23 0x59 0x59 = some 86399 ∧
      (derive (hostSet 146096 86399 s0.time)).localDate < Config.endOfRangeDay) ∧
    (s16 0 60 = 60 ∧ flagOf 1 = some true ∧ (ruleOf 3 5 0 1 23).isSome = true ∧ (ruleOf 10 5 0 1 22).isSome = true ∧
      (let s := withTime (fun t => { t with waiting := some ⟨5, 0⟩ }) s0
       s.time.waiting = some ⟨5, 0⟩ ∧ ((3605 : Nat) : Int) = ((5 : Nat) : Int) + (60 - s.time.zone) * 60 ∧
         3605 < Config.endOfRangeDay * 86400) ∧
      settingsOk s0.time 60 ⟨3, 5, 0, 1⟩ ⟨10, 5, 0, 1⟩ = true ∧ sameSettings s0.time 60 true ⟨3, 5, 0, 1⟩ ⟨10, 5, 0, 1⟩ = false ∧
      (derive (withSettings 60 true ⟨3, 5, 0, 1⟩ ⟨10, 5, 0, 1⟩ s0.time)).localDate < Config.endOfRangeDay) := by decide +kernel

/-- Today's sheet at 10:00:00: a quiet period to 10:01:40, a tune being played, a toll DUE since 09:58:20 with a grace of 2 minutes, and
tunes PENDING at 10:00:50, 10:01:40 and 10:01:41. -/
def sJump : State :=
  let s := withSlot 12 .live tuneImg (withSlot 10 .live tuneImg (withSlot 9 .live quietImg (withSlot 8 .live tuneImg (withSlot 7 .live tuneImg s0))))
  withToday
    [⟨0, some 36100, ⟨9, 0⟩, .quiet, 5, .active, false⟩, ⟨0, none, ⟨12, 0⟩, .tune, 5, .active, false⟩,
      ⟨35900, none, ⟨10, 0⟩, .toll, 5, .due, false⟩, ⟨36050, none, ⟨8, 0⟩, .tune, 5, .pending, false⟩,
      ⟨36100, none, ⟨7, 0⟩, .tune, 5, .pending, false⟩, ⟨36101, none, ⟨11, 0⟩, .tune, 5, .pending, false⟩]
    { s with lanes := { s.lanes with chime := some ⟨12, 0⟩ } }

/-- The hypotheses of the clauses on the sheet, for a step of 100 s, and one to the next day. -/
theorem witness_StepsSetTheTime_sheets :
    portServed sJump = true ∧ sJump.time.ref ≠ .locked ∧ sJump.lights.waiting = [] ∧ settlePeal sJump = sJump ∧
    (sJump.sheets.today.entries.map Entry.key).Nodup ∧ LanesHoldTheirOwn sJump ∧
    OnlyOpen sJump ⟨36050, none, ⟨8, 0⟩, .tune, 5, .pending, false⟩ ∧
    bcdDate 0x20 0 1 1 = some sJump.time.localDate ∧ bcdDate 0x20 0 1 2 = some 1 ∧ bcdTime 0x10 0x01 0x40 = some 36100 ∧
    (derive (hostSet 0 36100 sJump.time)).instant = 36100 ∧ (derive (hostSet 1 36100 sJump.time)).localDate = 1 := by
  refine ⟨rfl, by decide +kernel, rfl, rfl, by decide +kernel, ?_, ?_, by decide +kernel, by decide +kernel,
    by decide +kernel, by decide +kernel, by decide +kernel⟩
  · intro lane key h
    cases lane with
    | chime =>
      cases h
      exact ⟨⟨0, none, ⟨12, 0⟩, .tune, 5, .active, false⟩, by decide +kernel, rfl, rfl, rfl⟩
    | toll => cases h
    | peal => cases h
  · exact ⟨by decide +kernel, by decide +kernel⟩

/-- The table of R92, entry by entry. -/
theorem test_step_jumps :
    (after (.setTime [0x20, 0, 1, 1, 0x10, 0x01, 0x40]) sJump).sheets.today.entries.map Entry.state
      = [.done, .active, .missed, .missed, .due, .pending] := by decide +kernel

/-- A byte that codes a number has that number's two digits (R203). -/
theorem coded_digits {b : Byte} {n : Nat} (h : Coded b n) : n = 10 * (b.toNat / 16) + b.toNat % 16 := by
  obtain ⟨-, h⟩ := h
  omega

theorem witness_StepsSetTheTime_refused :
    (withTime (fun t => { t with ref := .locked }) s0).time.ref = .locked ∧ s0.time.ref ≠ .locked ∧
    ¬PossibleDate 0x20 0x23 0x02 0x29 ∧ (∀ sec, ¬TimeIs 0x24 0 0 sec) ∧ (∀ sec, ¬TimeIs 0x0A 0 0 sec) ∧
    (s16 0x03 0x57 = 855 ∧ s16 0x03 0x49 % 15 ≠ 0 ∧ s16 0xFD 0x21 < -720) ∧
    ((stdMoment s0.time : Int) + (s16 0xFF 0xF1 - s0.time.zone) * 60 < 0) ∧
    (let s := withTime (fun t => { t with stdDay := 146096, stdSec := 86399 }) s0
     146097 * 86400 ≤ (stdMoment s.time : Int) + (s16 0 15 - s.time.zone) * 60) := by
  refine ⟨rfl, by decide, ?_, ?_, ?_, by decide +kernel, by decide +kernel, by decide +kernel⟩
  · rintro ⟨cc, yy, mm, dd, hc, hy, hm, hd, -, -, -, -, -, h⟩
    obtain rfl := coded_digits hc; obtain rfl := coded_digits hy; obtain rfl := coded_digits hm; obtain rfl := coded_digits hd
    exact absurd h (by decide +kernel)
  · rintro sec ⟨hh, mm, ss, hc, -, -, h, -⟩
    obtain rfl := coded_digits hc
    exact absurd h (by decide +kernel)
  · rintro sec ⟨hh, mm, ss, hc, -⟩
    obtain rfl := coded_digits hc
    exact absurd hc.2 (by decide +kernel)

theorem witness_StepsSetTheTime_same :
    RuleInRange s0.time.startRule ∧ RuleInRange s0.time.endRule ∧ s0.time.endRule.hour ≤ 22 ∧
    s0.time.startRule.month ≠ s0.time.endRule.month ∧ (-720 ≤ s0.time.zone ∧ s0.time.zone ≤ 840 ∧ s0.time.zone % 15 = 0) ∧
    stdMoment s0.time < 146097 * 86400 ∧ s16 0 0 = s0.time.zone ∧ (0 : Byte).toNat = s0.time.summerEnable.toNat ∧
    s0.time.startRule = ⟨(3 : Byte).toNat, (5 : Byte).toNat, (0 : Byte).toNat, (1 : Byte).toNat⟩ ∧
    s0.time.endRule = ⟨(10 : Byte).toNat, (5 : Byte).toNat, (0 : Byte).toNat, (1 : Byte).toNat⟩ := by
  unfold RuleInRange
  decide +kernel

/-- On 3 January 2000, a tune entry carried from the day before, of a ONCE record of that day, is ACTIVE. -/
def sCarried : State :=
  let s := withSlot 7 .live (img [3, 5, 0, 15, 6, 0x20, 0, 1, 2, 0, 0x10, 0, 0, 0, 0, 0, 0, 0, 0, 0, 0, 2, 1, 1])
    (withTime (fun t => derive { t with stdDay := 2, valid := true }) s0)
  let e : Entry := { entryOf .tune 128 .active with instant := 0, carried := true }
  { s with sheets := { s.sheets with today := { s.sheets.today with entries := [e] } }, lanes := { s.lanes with chime := some e.key } }

/-- A step back to the record's own day cuts the entry and leaves the record LIVE; a step forward makes it SPENT (R21, R40). -/
theorem test_step_back_keeps_once :
    (getSlot (after (.setTime [0x20, 0, 1, 2, 0, 0, 0]) sCarried) 7).state = .live ∧
    (getSlot (after (.setTime [0x20, 0, 1, 2, 0, 0, 0]) sCarried) 7).last = .cutShort ∧
    (getSlot (after (.setTime [0x20, 0, 1, 4, 0, 0, 0]) sCarried) 7).state = .spent := by decide +kernel

theorem witness_AdjustTimeAddsToSlew :
    portServed s0 = true ∧ (withTime (fun t => { t with ref := .locked }) s0).time.ref = .locked ∧ s24 0 0 0 = 0 ∧
    s24 0 0xEA 0x61 = 60001 ∧ (s0.time.ref ≠ .locked ∧ s24 0 0xEA 0x60 = 60000 ∧ s24 0xFF 0x15 0xA0 = -60000 ∧ s0.time.slew = 0) ∧
    ((withTime (fun t => { t with slew := 600000 }) s0).time.slew + s24 0 0 1 > 600000) := by decide +kernel

/-- 00:59:59 of the last Sunday of March 2000, with summer enabled. -/
def sSummer : State := withTime (fun t => derive { t with stdDay := 85, stdSec := 3599, summerEnable := true }) s0

theorem witness_SecondsCount :
    running s0 = true ∧ rangeEnds s0.time = false ∧ dayEnds s0.time = false ∧ summerTurns s0.time = false ∧
    rangeEnds sSummer.time = false ∧ dayEnds sSummer.time = false ∧ summerTurns sSummer.time = true := by decide +kernel

/-- 00:59:59 standard of the last Sunday of October 2000, with summer enabled. -/
def sAutumn : State := withTime (fun t => derive { t with stdDay := 302, stdSec := 3599, summerEnable := true }) s0

theorem witness_SecondsCount_rules :
    RuleInRange sSummer.time.startRule ∧ RuleInRange sSummer.time.endRule ∧
    sSummer.time.startRule.month ≠ sSummer.time.endRule.month ∧
    (IsRuleMoment sSummer.time.startRule 85 3600 ∧ sSummer.time.summer = false ∧ sSummer.time.summerEnable = true ∧
      (85, 3600) = (sSummer.time.stdDay, sSummer.time.stdSec + 1)) ∧
    ¬IsRuleMoment sSummer.time.startRule 85 3599 ∧ ¬IsRuleMoment sSummer.time.startRule 78 3600 ∧
    (IsRuleMoment sAutumn.time.endRule 302 3600 ∧ sAutumn.time.summer = true ∧ running sAutumn = true ∧
      rangeEnds sAutumn.time = false ∧ dayEnds sAutumn.time = false) := by
  unfold RuleInRange IsRuleMoment
  decide +kernel

/-- The last second of a day, and of the range. -/
def sLast (day : Nat) : State := withTime (fun t => derive { t with stdDay := day, stdSec := 86399, valid := true }) s0

theorem witness_DaysAndRangeEnd :
    running (sLast 0) = true ∧ dayEnds (sLast 0).time = true ∧ (sLast 0).time.valid = true ∧ (sLast 0).time.localDate + 1 ≠ lastDay ∧
    rangeEnds (sLast 146096).time = true := by decide +kernel

/-- The last second of a day: the CHIME lane has a tune entry, and the standby sheet, of the status given, one for instant 0. -/
def sDayEnd (status : StandbyStatus) (e : Entry) : State :=
  let s := withSlot 7 .live tuneImg (sLast 0)
  { s with
    sheets :=
      { s.sheets with
        today := { s.sheets.today with entries := [e] }
        standby :=
          { s.sheets.standby with entries := [⟨0, none, ⟨7, 0⟩, .tune, 5, .pending, false⟩, entryOf .tune 127 .pending] }
        status := status }
    lanes := { s.lanes with chime := some e.key } }

/-- The hypotheses of the day change's clauses on today's sheet. -/
def dayHyps (s : State) (e : Entry) : Bool :=
  running s && dayEnds s.time && s.overrides.entries.isEmpty && s.lights.waiting.isEmpty && s.sheets.today.entries == [e]
    && e.state == .active && e.kind.sounding && laneKey s .chime == some e.key && laneOf e.kind == some .chime && s.time.valid
    && s.sheets.today.entries.all fun x => x.carried || decide (x.key.sub < 128)

theorem witness_DaysAndRangeEnd_sheets :
    dayHyps (sDayEnd .fresh (entryOf .tune 0 .active)) (entryOf .tune 0 .active) = true ∧
    dayHyps (sDayEnd .stale (entryOf .tune 0 .active)) (entryOf .tune 0 .active) = true ∧ 128 ≤ 0 + 128 ∧
    (let e : Entry := { entryOf .tune 128 .active with carried := true }
     dayHyps (sDayEnd .fresh e) e = true ∧ 128 ≤ e.key.sub) ∧
    (let s := sDayEnd .fresh (entryOf .tune 0 .active)
     s.sheets.standby.entries.length + 1 ≤ 256 ∧ (s.sheets.standby.entries.map Entry.key).Nodup ∧
       ∀ e ∈ s.sheets.standby.entries, e.key.sub < 128) := by decide +kernel

/-- A STALE standby does not become today's sheet: the carried entry alone is on it (R71). -/
theorem test_day_change_sheet :
    (after .dayChange (sDayEnd .stale (entryOf .tune 0 .active))).sheets.today.entries.map Entry.key = [⟨7, 128⟩] := by decide +kernel

theorem witness_ReferenceMessagesWait :
    (running s0 = true ∧ s0.time.assembling = [] ∧ s0.time.lastByte = none) ∧
    (let s := withTime (fun t => { t with lastByte := some 0 }) { s0 with elapsed := 20 }
     s.time.assembling = [] ∧ s.time.lastByte = some 0 ∧ 0 + 20 ≤ s.elapsed) ∧
    (let s := withTime (fun t => { t with lastByte := some 0 }) { s0 with elapsed := 19 }
     s.time.assembling = [] ∧ s.time.lastByte = some 0 ∧ s.elapsed < 0 + 20) ∧
    (let s := withTime (fun t => { t with lastByte := some 0, assembling := [0x7E, 0x20] }) { s0 with elapsed := 20 }
     s.time.assembling.head? = some 0x7E ∧ s.elapsed ≤ 0 + 20 ∧ s.time.assembling.length + ([0, 1, 2, 3, 4, 5, 1] : List Byte).length < 10) ∧
    (let s := withTime (fun t => { t with lastByte := some 0, assembling := [0x7E] }) { s0 with elapsed := 21 }
     s.time.lastByte = some 0 ∧ s.time.assembling ≠ [] ∧ 0 + 20 < s.elapsed) ∧
    ([0x7D] : List Byte).head? ≠ some 0x7E ∧
    (messageMoment 0 [0x7E, 0x20, 0x00, 0x01, 0x02, 0x03, 0x04, 0x05, 0x01, 0x52] = some (86400 + 3 * 3600 + 4 * 60 + 5)) ∧
    ([0x7E, 0x20, 0x00, 0x01, 0x02, 0x03, 0x04, 0x05, 0x01, 0x53] : List Byte).foldl (· + ·) 0 ≠ 0 ∧
    (([0x7E, 0x20, 0x00, 0x01, 0x02, 0x03, 0x04, 0x05, 0x00, 0x53] : List Byte).getD 8 0).getLsbD 0 = false ∧
    (withTime (fun t => { t with waiting := some ⟨5, 0⟩ }) { s0 with elapsed := 1100 }).time.waiting = some ⟨5, 0⟩ := by decide +kernel

/-- A message for second m waits since the elapsed moment 0, and it is 1,100. -/
def sPulse (m : Nat) (valid : Bool) (c : Option Int) : State :=
  withTime (fun t => { t with waiting := some ⟨m, 0⟩, valid := valid, candidate := c }) { s0 with elapsed := 1100 }

theorem witness_PulsesSteerTheTime :
    running (sPulse 2 true none) = true ∧ (sPulse 2 true none).time.waiting = some ⟨2, 0⟩ ∧
    (sPulse 2 true none).elapsed ≤ 0 + 1100 ∧
    ((2 : Nat) : Int) * 1000 - ((stdMoment (sPulse 2 true none).time : Int) * 1000 + (sPulse 2 true none).time.fraction) = 2000 ∧
    ((sPulse 9 false none).time.valid = false ∧ (sPulse 9 false none).time.candidate = none) ∧
    ((sPulse 9 true (some 8950)).time.candidate = some 8950 ∧ (9000 : Int) - 8950 ≤ 50 ∧
      (derive (referenceSet 9 (sPulse 9 true (some 8950)).time)).localDate < Config.endOfRangeDay) := by decide +kernel

theorem witness_ReferenceTimersRunOut :
    running s0 = true ∧ (withTime (fun t => { t with ref := .locked, refTimer := 120 }) s0).time.ref = .locked ∧
    (withTime (fun t => { t with ref := .holdover, refTimer := 86400 }) s0).time.refTimer = 86400 := by decide

/-! ### Calendar settings and the resolver -/

theorem witness_CalendarWritesTrigger :
    portServed s0 = true ∧ ((15 : Byte).toNat ≤ 15 ∧ (15 : Byte).toNat ≠ s0.calendar.sundayRank) ∧
    (5 : Byte).toNat = s0.calendar.sundayRank ∧ 15 < (16 : Byte).toNat ∧ ((23 : Byte).toNat = (23 : Fin 24).val ∧ u16 0x05 0x9F = 1439) ∧
    24 ≤ (24 : Byte).toNat ∧ u16 0x05 0xA0 = 1440 := by decide

/-- A run that started at 0. -/
def runOf (k : RunKind) : State := { s0 with resolver := { s0.resolver with run := some ⟨k, 0, [], false, 0⟩ } }

theorem witness_DayQueriesAreServed :
    portServed s0 = true ∧ bcdDate 0x23 0x99 0x12 0x31 = some 146096 ∧ s0.resolver.query = none ∧
    { s0 with resolver := { s0.resolver with query := some 0 } }.resolver.query ≠ none ∧
    ((runOf .query).resolver.run = some ⟨.query, 0, [], false, 0⟩ ∧ running (runOf .query) = true) := by decide

/-- A FEAST of rank 9, name 42, daily. -/
def feastImg : Image := img [0, 9, 0, 15, 0, 0, 0, 0, 0, 0, 0, 0, 0, 0, 0, 0, 0, 0, 0, 0, 0, 0, 42]

theorem witness_DayQueriesAreServed_feast :
    (let s := withSlot 127 .live feastImg (runOf .query)
     (liveRecord (getSlot s 127)).map (fun x => (x.kind, x.rule)) = some (.feast, .daily) ∧ NamesDay .daily 0 ∧
       s.resolver.run = some ⟨.query, 0, [], false, 0⟩) ∧
    ∀ i, liveRecord (getSlot (runOf .query) i) = none :=
  ⟨⟨by decide +kernel, trivial, rfl⟩, by decide +kernel⟩

/-- The feast, its rank and its name are the result's, and it is counted (R52, R73). -/
theorem test_query_feast :
    ((after .queryRunComplete (withSlot 127 .live feastImg (runOf .query))).resolver.result.map fun q =>
      (q.rank, q.feast, q.feastName, q.applying)) = some (9, some 127, 42, 1) := by decide +kernel

/-- A twilight table with the points of R57's worked cases. -/
def workedTwilight : Vector (Nat × Nat) 24 :=
  Vector.ofFn fun k =>
    if k.val = 1 then (487, 0) else if k.val = 2 then (460, 0) else if k.val = 3 then (435, 0) else if k.val = 19 then (0, 1062)
    else if k.val = 20 then (0, 1030) else if k.val = 23 then (0, 960) else if k.val = 0 then (0, 975) else (0, 0)

/-- The worked cases of R57 for 2025: October 20, February 10 and December 20. -/
theorem test_twilight :
    (twilightOf workedTwilight 9424).2 = 1054 ∧ (twilightOf workedTwilight 9172).1 = 445 ∧
    (twilightOf workedTwilight 9485).2 = 964 := by decide +kernel
/-- The worked case of R57 just halfway between two minutes. -/
theorem test_twilight_half : interpolate 487 484 16 8 = 486 := by decide

/-- The quarters of the whole day by bell 1, at the start of 2025-03-30 and of 2025-10-26 (the worked cases of R55 and R60). -/
def sQuarters (day : Nat) : State :=
  withTime (fun t => derive { t with stdDay := day, stdSec := 0, summerEnable := true, valid := true })
    (withSlot 7 .live (img [2, 5, 0, 15, 0, 0, 0, 0, 0, 1, 0, 0, 0, 0, 0, 1, 0x23, 0x45, 0, 0, 0, 2, 1, 2, 0, 0, 0, 0, 1])
      { s0 with resolver := { s0.resolver with standbyReq := true } })

/-- On the spring day 96 entries are generated, the four of the skipped hour SKIPPED at 3,600, and the last is at 81,900. -/
theorem test_spring_quarters :
    (let es := ((after .resolverRunStart (sQuarters 9219)).resolver.run.map Run.generated).getD []
     es.length = 96 ∧ (es.filter fun e => e.state == .skipped).map (fun e => (e.key.sub, e.instant))
       = [(4, 3600), (5, 3600), (6, 3600), (7, 3600)] ∧ es.getLast?.map Entry.instant = some 81900) := by decide +kernel
/-- On the autumn day each quarter sounds once: 01:45 at 6,300, 02:00 at 10,800 and 23:45 at 89,100. -/
theorem test_autumn_quarters :
    (let es := ((after .resolverRunStart (sQuarters 9429)).resolver.run.map Run.generated).getD []
     es.length = 96 ∧ es[7]?.map Entry.instant = some 6300 ∧ es[8]?.map Entry.instant = some 10800 ∧
       es.getLast?.map Entry.instant = some 89100) := by decide +kernel

theorem witness_RunsStartInOrder :
    running s0 = true ∧ s0.resolver.run = none ∧ { s0 with resolver := { s0.resolver with todayReq := true } }.resolver.todayReq = true ∧
    { s0 with resolver := { s0.resolver with standbyReq := true } }.resolver.todayReq = false ∧
    { s0 with resolver := { s0.resolver with query := some 3 } }.resolver.query = some 3 := by decide

theorem witness_BuildsInstall :
    running (runOf .today) = true ∧
    ((runOf .today).resolver.run = some ⟨.today, 0, [], false, 0⟩ ∧
      ((runOf .today).sheets.today.entries.filter fun e => e.state != .pending).length ≤ 256) ∧
    (runOf .standby).resolver.run = some ⟨.standby, 0, [], false, 0⟩ ∧
    (let s := withTime (fun t => { t with valid := true }) { s0 with sheets := { s0.sheets with standbyTime := true } }
     s.sheets.standbyTime = true ∧ s.time.valid = true ∧ s.time.localDate ≠ lastDay) ∧
    (let s := withTime (fun t => derive { t with stdSec := 86339 }) s0
     rangeEnds s.time = false ∧ dayEnds s.time = false ∧ s.time.instant + 1 + 60 = s.time.dayLength) := by decide +kernel

/-- A today build that generated a tune entry of slot 7; today's sheet holds a DONE one and a PENDING one. -/
def sInstall : State :=
  withToday [entryOf .tune 4 .done, entryOf .tune 8 .pending]
    (withSlot 7 .live tuneImg
      { s0 with
        resolver :=
          { s0.resolver with
            run := some ⟨.today, 0, [entryOf .tune 0 .pending, { entryOf .tune 4 .pending with instant := 36001 }], false, 0⟩ } })

theorem witness_BuildsInstall_merged :
    sInstall.resolver.run.isSome = true ∧ running sInstall = true ∧ sInstall.lights.waiting = [] ∧
    ((sInstall.resolver.run.map Run.generated).getD []).map Entry.key = [⟨7, 0⟩, ⟨7, 4⟩] ∧ (getSlot sInstall 7).state = .live ∧
    sInstall.time.instant = 36000 ∧ ([⟨7, 0⟩, ⟨7, 4⟩] : List Key).Nodup := by decide +kernel

/-- The DONE entry is kept as it is, the old PENDING one is gone, the new one falls due, and the generated one of a kept key is none. -/
theorem test_install_merges :
    (after .todayRebuildInstall sInstall).sheets.today.entries.map (fun e => (e.key.sub, e.state)) = [(0, .due), (4, .done)] := by
  decide +kernel

/-! ### Sheets and lanes -/

/-- A sounding entry and a quiet one that fall due, and a lit silence. -/
def sFall (k : Kind) (im : Image) (m : MainsState) : State :=
  withToday [entryOf k 0 .pending] (withSlot 7 .live im { s0 with mains := m })
/-- The same under an ACTIVE quiet period of slot 8. -/
def sQuieted : State :=
  withToday [⟨0, some 86400, ⟨8, 0⟩, .quiet, 5, .active, false⟩, entryOf .tune 0 .pending]
    (withSlot 8 .live quietImg (withSlot 7 .live tuneImg s0))

/-- A peal of bell 1 rings on for a minute. -/
def ringing (s : State) : State :=
  withBell 0 (fitted .up) { s with peal := some ⟨[0], false, .ringing, none, some 60000, 1⟩ }
/-- Whether a peal is ringing that has a bell UP. -/
def steady (s : State) : Bool := s.peal.any fun p => p.phase == .ringing && p.held.any fun st => (getBell s st).pos == .up

/-- Such a peal, and no peal, have nothing to go on to: the hypothesis that the statements make of a running peal. -/
theorem witness_settled {s : State} (h : (s.peal.isNone || steady s) = true) : settlePeal s = s := by
  cases hp : s.peal with
  | none => simp [settlePeal, hp]
  | some p =>
    simp only [hp, Option.isNone_some, Bool.false_or, steady, Option.any_some, Bool.and_eq_true, beq_iff_eq] at h
    obtain ⟨h1, h2⟩ := h
    rw [settlePeal, hp]; simp only [h1]; exact if_pos h2

/-- The hypotheses of EntriesFallDue but for those of a clause. -/
def fallHyps (s : State) (e : Entry) : Bool :=
  running s && readyToFall s && firstWhere (actsNow s) s == some e && fallsDue s e && (s.peal.isNone || steady s)
/-- Whether every bell that waits for a raise is held by the running peal. -/
def raisesHeld (s : State) : Bool := allStations.all fun st => !(getBell s st).waitingRaise || pealHolds s st

/-- An uncovered entry of 09:57:59 that is PENDING still at 10:00:00, its grace of 2 minutes over. -/
theorem witness_EntriesFallDue_late :
    let e : Entry := { entryOf .tune 0 .pending with instant := 35879 }
    let s := withToday [e] (withSlot 7 .live tuneImg s0)
    fallHyps s e = true ∧ s.mains = .present ∧ covered (updToday (setState e.key .due) s) e = false ∧ graceOver s e = true ∧
      (after .entryFallsDue s).sheets.today.entries.map Entry.state = [.missed] := by decide +kernel

theorem witness_EntriesFallDue :
    (fallHyps (withToday [quietEntry .pending] (withSlot 7 .live quietImg s0)) (quietEntry .pending) = true ∧
      (quietEntry .pending).kind = .quiet) ∧
    (let s := withToday [quietEntry .pending] (withSlot 7 .live quietImg { s0 with mains := .absent })
     fallHyps s (quietEntry .pending) = true ∧ s.mains = .absent) ∧
    (fallHyps (sFall .tune tuneImg .absent) (entryOf .tune 0 .pending) = true ∧ (entryOf .tune 0 .pending).kind.sounding = true) ∧
    (fallHyps sQuieted (entryOf .tune 0 .pending) = true ∧
      covered (updToday (setState ⟨7, 0⟩ .due) sQuieted) (entryOf .tune 0 .pending) = true) ∧
    (fallHyps (sFall .tune tuneImg .present) (entryOf .tune 0 .pending) = true ∧
      covered (updToday (setState ⟨7, 0⟩ .due) (sFall .tune tuneImg .present)) (entryOf .tune 0 .pending) = false ∧
      graceOver (sFall .tune tuneImg .present) (entryOf .tune 0 .pending) = false) := by decide +kernel

/-- A LIGHT entry of an unlit record that is its ON entry, and of a lit one that is its OFF entry. -/
theorem witness_EntriesFallDue_light :
    (let s := sFall .light lightImg .present
     fallHyps s (entryOf .light 0 .pending) = true ∧ raisesHeld s = true ∧ (getSlot s 7).state = .live ∧ s.lanes.lit.get 7 = false) ∧
    (let s := withToday [entryOf .light 1 .pending] (withSlot 7 .live lightImg s0)
     raisesHeld s = true ∧ fallHyps { s with lanes := { s.lanes with lit := put s.lanes.lit 7 true } } (entryOf .light 1 .pending) = true) := by decide +kernel

/-- A DONE ON entry of slot 7 that the second reaches again. -/
def sAgain (im : Image) : State :=
  withToday [entryOf .light 0 .done] (withSlot 7 .live im { s0 with sheets := { s0.sheets with relight := [⟨7, 0⟩] } })

/-- With a peal that rings on; and a DONE ON entry that the second reaches again, of a LIGHT record and of a slot that holds a TOLL. -/
theorem witness_EntriesFallDue_again :
    fallHyps (ringing (sFall .tune tuneImg .present)) (entryOf .tune 0 .pending) = true ∧
    fallHyps (ringing (sFall .light lightImg .present)) (entryOf .light 0 .pending) = true ∧
    (ringing s0).lights.waiting = [] ∧ (ringing s0).peal ≠ none ∧ raisesHeld (ringing (sFall .light lightImg .present)) = true ∧
    (let s := ringing (sFall .light lightImg .present)
     let w := withBell 0 { getBell s 0 with waitingRaise := true } s
     raisesHeld w = true ∧ fallHyps w (entryOf .light 0 .pending) = true) ∧
    (let s := sAgain lightImg
     running s = true ∧ readyToFall s = true ∧ firstWhere (actsNow s) s = some (entryOf .light 0 .done) ∧ s.peal = none ∧
       raisesHeld s = true ∧ fallsDue s (entryOf .light 0 .done) = false) ∧
    firstWhere (actsNow (sAgain tollImg)) (sAgain tollImg) = some (entryOf .light 0 .done) := by decide +kernel

/-- The ON entry reached again lights its slot where that holds a LIVE LIGHT record, and not where it holds a TOLL (R83). -/
theorem test_relight :
    [lightImg, tollImg].map (fun im => (after .entryFallsDue (sAgain im)).lanes.lit.get 7) = [true, false] := by decide +kernel

/-- The ON entry lights its slot, and a change of the set is taken: the statement's conclusion is not empty. -/
theorem test_light_on : (after .entryFallsDue (sFall .light lightImg .present)).lanes.lit.get 7 = true := by decide +kernel

/-- A DUE tune entry of 09:57:59, its grace of 2 minutes just over. -/
def lateTune : Entry := { entryOf .tune 0 .due with instant := 35879 }

theorem witness_GraceAndQuietEnd :
    (let s := withToday [lateTune] (withSlot 7 .live tuneImg s0)
     running s = true ∧ (getSlot s 7).state ≠ .empty ∧ firstWhere (lateEntry s) s = some lateTune ∧
       lateEntry s { lateTune with instant := 35880 } = false) ∧
    (let s := withToday [quietEntry .active] (withSlot 7 .live quietImg s0)
     firstWhere (lateEntry s) s = none ∧ firstWhere (endedQuiet s) s = some (quietEntry .active) ∧ (getSlot s 7).state ≠ .empty) := by
  decide +kernel

/-- A DUE entry of slot 7, and bells 1 and 2 DOWN with a hammer and a motor. -/
def sLane (k : Kind) (sub : Nat) (im : Image) : State :=
  withToday [entryOf k sub .due] (withSlot 7 .live im (withBell 1 (fitted .down) (withBell 0 (fitted .down) s0)))

/-- The hypotheses of LanesTakeEntries but for those of a clause. -/
def laneHyps (s : State) (lane : Lane) (k : Key) (e : Entry) : Bool :=
  running s && (s.peal.isNone || steady s) && mayLook lane s && keysWhere (takeable s lane) s == [k] && findEntry k s.sheets.today.entries == some e
    && e.state == .due && !covered s e

theorem witness_LanesTakeEntries_chime :
    (laneHyps (sLane .tune 0 tuneImg) .chime ⟨7, 0⟩ (entryOf .tune 0 .due) = true ∧
      (recordAt (sLane .tune 0 tuneImg) 7).map Record.action = some (.tune 0 1)) ∧
    (laneHyps (sLane .strike 40 strikeImg) .chime ⟨7, 40⟩ (entryOf .strike 40 .due) = true ∧
      (recordAt (sLane .strike 40 strikeImg) 7).map Record.action = some (.strike 0 2 none none none none true) ∧
      quarterTune none none none none 40 = none ∧ hourStrokes 40 true = 10) := by decide +kernel

theorem witness_LanesTakeEntries_toll_peal :
    (let s := sLane .toll 0 tollImg
     laneHyps s .toll ⟨7, 0⟩ (entryOf .toll 0 .due) = true ∧ (recordAt s 7).map Record.action = some (.toll 0 2 3) ∧
       strikable (getBell s 0) = true ∧ (getBell s 0).nextFree = s.elapsed ∧ (getBell s 0).deferred = [] ∧ lineAccepts s = true) ∧
    (let s := sLane .peal 0 pealImg
     let e := entryOf .peal 0 .due
     laneHyps s .peal ⟨7, 0⟩ e = true ∧ (recordAt s 7).map Record.action = some (.peal 6 1) ∧
       laneKey s .chime ≠ some ⟨7, 0⟩ ∧ laneKey s .toll ≠ some ⟨7, 0⟩ ∧
       (bellsOf 6).filter (eligible s (pealCovered (updToday (setState ⟨7, 0⟩ .active) s) e)) = [0, 1]) ∧
    (let s := withToday [entryOf .peal 0 .due] (withSlot 7 .live pealImg s0)
     let e := entryOf .peal 0 .due
     laneHyps s .peal ⟨7, 0⟩ e = true ∧ (recordAt s 7).map Record.action = some (.peal 6 1) ∧
       (bellsOf 6).filter (eligible s (pealCovered (updToday (setState ⟨7, 0⟩ .active) s) e)) = []) := by decide +kernel

/-- The hours of bell 1 with tune 1 for :00, no hours struck but by the tune. -/
def quarterImg : Image := img [2, 5, 0, 15, 0, 0, 0, 0, 0, 1, 0, 0, 0, 0, 0, 1, 0x20, 0, 0, 0, 0, 2, 1, 2, 0, 0, 0, 1, 0]

theorem witness_LanesTakeEntries_strike :
    (laneHyps (sLane .strike 40 quarterImg) .chime ⟨7, 40⟩ (entryOf .strike 40 .due) = true ∧
      (recordAt (sLane .strike 40 quarterImg) 7).map Record.action = some (.strike 0 2 none none none (some 0) false) ∧
      quarterTune none none none (some 0) 40 = some 0) ∧
    (laneHyps (sLane .strike 41 quarterImg) .chime ⟨7, 41⟩ (entryOf .strike 41 .due) = true ∧
      quarterTune none none none (some 0) 41 = none ∧ hourStrokes 41 false = 0 ∧ (getSlot (sLane .strike 41 quarterImg) 7).state ≠ .empty) ∧
    laneHyps (ringing (sLane .tune 0 tuneImg)) .chime ⟨7, 0⟩ (entryOf .tune 0 .due) = true := by decide +kernel

/-- A tune being played, whose present note starts now. -/
def player : Player := ⟨1, false, some 0, 1, 1, 0, 0, 0, 0, 2, 0, 0, 0, false, none⟩
/-- A strike train with an hour stroke to request. -/
def trainPlayer : Player := { player with train := true, tune := none, strokes := 3, strokeAt := some 0 }

theorem witness_StrokesArePlaced :
    let s := withBell 0 { fitted .down with deferred := [⟨.full, .toll 1⟩] } s0
    let r : TollRun := ⟨1, 0, 2, 3, 1, false, some 0⟩
    let u := { withBell 0 (fitted .down) s0 with
      lanes := { s0.lanes with tollRun := some r }, tunes := { s0.tunes with player := some trainPlayer } }
    running u = true ∧ lineAccepts u = true ∧ u.lanes.tollRun = some r ∧ r.nextAt = some u.elapsed ∧ strikable (getBell u 0) = true ∧
      (getBell u 0).nextFree = u.elapsed ∧ (getBell u 0).deferred = [] ∧ u.tunes.player = some trainPlayer ∧
      trainPlayer.strokeAt = some u.elapsed ∧
      (running s = true ∧ lineAccepts s = true ∧ (getBell s 0).deferred = [⟨.full, .toll 1⟩] ∧ (getBell s 0).nextFree = s.elapsed) := by
  decide +kernel

/-! ### The override stack -/

/-- A state with n silences for every kind, which expire at the standard moment 0. -/
def sStack (n : Nat) : State :=
  { s0 with overrides := ⟨(List.range n).map fun i => ⟨i + 1, .silence ⟨true, true, true, true⟩ 0, some 0⟩, n⟩ }

theorem witness_PushAssignsFreshId :
    portServed (sStack 7) = true ∧ pushBody 1 0 (bellSet 0 0 0 0) (bellSet 0 0 0 2) 0 0 = some (.muffle 2) ∧ u16 0x05 0xA0 = 1440 ∧
    (sStack 7).overrides.entries.length < 8 ∧ (sStack 7).overrides.lastId ≤ 255 := by decide +kernel

theorem witness_SilenceWithholds :
    portServed s0 = true ∧
    (∃ t, exec (.pushOverride [0, 15, 0, 0, 0, 0, 0, 0, 0, 0, 0, 0, 0, 0]) s0 = .next t ∧
      silenceGained (effective s0) (effective t) = true) ∧
    (pushBody 0 15 (bellSet 0 0 0 0) (bellSet 0 0 0 0) 0 0 = some (.silence ⟨true, true, true, true⟩ 0) ∧
      8 ≤ (sStack 8).overrides.entries.length) ∧
    pushBody 4 0 (bellSet 0 0 0 0) (bellSet 0 0 0 0) 0 0 = none ∧ 1440 < u16 0x05 0xA1 :=
  ⟨rfl, ⟨_, rfl, by decide +kernel⟩, by decide +kernel, by decide +kernel, by decide⟩

theorem witness_OverridesLeave :
    portServed (sStack 8) = true ∧ (sStack 8).overrides.entries ≠ [] ∧
    (⟨8, .silence ⟨true, true, true, true⟩ 0, some 0⟩ : Override) ∈ (sStack 8).overrides.entries ∧ (8 : Byte).toNat = 8 ∧
    running (sStack 8) = true ∧ s0.overrides.entries = [] ∧ (∀ o ∈ (sStack 8).overrides.entries, o.id ≠ (9 : Byte).toNat) ∧
    (sStack 8).peal = none := by decide +kernel

/-- A DUE tune entry of slot 7, and a toll of slot 8 in its lane. -/
def sSounding : State :=
  let s := withToday [entryOf .tune 0 .due, ⟨36000, none, ⟨8, 0⟩, .toll, 5, .active, false⟩]
    (withSlot 8 .live tollImg (withSlot 7 .live tuneImg (withBell 0 (fitted .down) s0)))
  { s with lanes := { s.lanes with toll := some ⟨8, 0⟩, tollRun := some ⟨1, 0, 2, 3, 1, false, none⟩ } }
/-- Every kind silenced, until it is removed. -/
def silenceAll : Instr := .pushOverride [0, 15, 0, 0, 0, 0, 0, 0, 0, 0, 0, 0, 0, 0]

theorem witness_SilenceWithholds_entries :
    (sSounding.sheets.today.entries.map Entry.key).Nodup ∧ laneKey sSounding .toll = some ⟨8, 0⟩ ∧ laneKey sSounding .chime = none ∧
    ∃ t, exec silenceAll sSounding = .next t ∧ silenceGained (effective sSounding) (effective t) = true ∧
      sSounding.sheets.today.entries.all (silenceCovers t) = true ∧
      silenceCovers t { entryOf .tune 0 .due with kind := .light } = false :=
  ⟨by decide +kernel, rfl, rfl, _, rfl, by decide +kernel, by decide +kernel, by decide +kernel⟩

theorem test_silence :
    (after silenceAll sSounding).sheets.today.entries.map Entry.state = [.withheld, .cutShort] ∧
    (getSlot (after silenceAll sSounding) 8).last = .cutShort := by decide +kernel

/-- A peal of bells 1 and 2 that rings, its entry in the PEAL lane; bell 3 waits to be raised for it. -/
def sPealing : State :=
  let s := withToday [entryOf .peal 0 .active]
    (withSlot 7 .live pealImg (withBell 2 { fitted .down with waitingRaise := true } (withBell 1 (fitted .up) (withBell 0 (fitted .up) s0))))
  { s with
    peal := some ⟨[0, 1, 2], false, .ringing, none, some 60000, 1⟩
    lights := { s.lights with waiting := [(2, 10)] }
    lanes := { s.lanes with peal := some ⟨7, 0⟩ } }
/-- Bells of a set silenced for peals. -/
def silencePeals (set : Byte) : Instr := .pushOverride [0, 8, 0, 0, 0, set, 0, 0, 0, 0, 0, 0, 0, 0]

theorem witness_SilenceWithholds_peal :
    portServed sPealing = true ∧ laneKey sPealing .peal = some ⟨7, 0⟩ ∧
    findEntry ⟨7, 0⟩ sPealing.sheets.today.entries = some (entryOf .peal 0 .active) ∧
    (∃ t, exec (silencePeals 10) sPealing = .next t ∧ (effective sPealing).peal.gained (effective t).peal = true ∧
      [0, 1, 2].filter (fun st => !inSet (pealSilenced (effective t)) st) = [1]) ∧
    (∃ t, exec (silencePeals 0) sPealing = .next t ∧ (effective sPealing).peal.gained (effective t).peal = true ∧
      [0, 1, 2].filter (fun st => !inSet (pealSilenced (effective t)) st) = []) ∧
    (let u := { sPealing with peal := some ⟨[1], true, .ringing, none, some 60000, 1⟩ }
     settlePeal u = u) :=
  ⟨rfl, rfl, by decide +kernel, ⟨_, rfl, by decide +kernel, by decide +kernel⟩, ⟨_, rfl, by decide +kernel, by decide +kernel⟩,
    witness_settled (by decide +kernel)⟩

/-- Bells 1 and 3 silenced leave the peal, bell 1 LOWERING and bell 3 waiting no more; every bell silenced ends it (R105, R130). -/
theorem test_silence_peal :
    (let t := after (silencePeals 10) sPealing
     t.peal = some ⟨[1], true, .ringing, none, some 60000, 1⟩ ∧ (getBell t 0).pos = .lowering ∧ outstanding t 0 = some .lower ∧
       (getBell t 1).pos = .up ∧ t.lights.waiting = []) ∧
    (let t := after (silencePeals 0) sPealing
     t.peal = none ∧ laneKey t .peal = none ∧ (getSlot t 7).last = .cutShort) := by decide +kernel

/-- A dial in service. -/
def dialOn : Dial := { Dial.cold with present := true, state := .running }
/-- A dial whose impulse ends now. -/
def dialBusy : Dial := { dialOn with impulse := some ⟨.positive, 0⟩ }

/-- Scene 4 is forced and dial 4 held; slot 7, a LIGHT record, is lit. -/
def sForced : State :=
  let s := withDial 3 dialOn (withSlot 7 .live lightImg s0)
  { s with
    overrides := ⟨[⟨1, .dialHold 8, none⟩, ⟨2, .lights 3, none⟩], 2⟩
    lanes := { s.lanes with lit := put s.lanes.lit 7 true } }

theorem witness_HandsOn :
    (∃ t, exec (.popOverride []) sForced = .next t ∧ (effective t).scene = none ∧ (effective sForced).scene = some 3 ∧
      sForced.lanes.lit.get 7 = true ∧ sceneOf (imgNat (getSlot sForced 7).image 22) = some 0) ∧
    (∃ t, exec (.dropOverride [1]) sForced = .next t ∧ dialHeld t 3 = false ∧ dialHeld sForced 3 = true ∧
      (getDial sForced 3).impulse = none) ∧
    (∃ t, exec (.pushOverride [2, 0, 0, 0, 0, 0, 0, 0, 0, 0, 16, 0, 0, 0]) s0 = .next t ∧ (effective t).scene = some 15 ∧
      (effective s0).scene ≠ some 15) ∧
    (∃ t, exec (.pushOverride [3, 0, 0, 0, 0, 0, 0, 0, 0, 0, 0, 8, 0, 0]) s0 = .next t ∧ dialHeld t 3 ≠ dialHeld s0 3 ∧
      (getDial s0 3).impulse = none) :=
  ⟨⟨_, rfl, by decide +kernel⟩, ⟨_, rfl, by decide +kernel⟩, ⟨_, rfl, by decide +kernel⟩, ⟨_, rfl, by decide +kernel⟩⟩

/-! ### The bell table -/

theorem witness_FreeBellQueries :
    portServed s0 = true ∧ stationOf (32 : Byte).toNat = none ∧ (stationOf (31 : Byte).toNat = some 30 ∧ (getBell s0 30).pos ≠ .fault) ∧
    (let s := withBell 30 (fitted .fault) s0
     (getBell s 30).pos = .fault ∧ (getBell s 30).present = true ∧ (getBell s 30).ctrl = .automatic ∧ lineAccepts s = true ∧
       outstanding s 30 = none ∧ (getBell s 30).owed = none) := by decide +kernel

theorem witness_WriteBellReplaces :
    portServed s0 = true ∧ stationOf (0 : Byte).toNat = none ∧ fittedOf 8 = none ∧
    (fittedOf 7 = some (true, true, true) ∧ bellConfigOk ⟨true, true, true, u16 0x0B 0xB9, 10, 10, 0, 5⟩ = false) ∧
    (stationOf (1 : Byte).toNat = some 0 ∧ bellConfigOk ⟨true, true, true, u16 0x0B 0xB8, u16 0x01 0x2C, u16 0 10, 255, 240⟩ = true) ∧
    bellBusy (getBell s0 0) = false ∧ (getBell s0 0).present = false ∧ bellBusy (getBell (withBell 0 (fitted .up) s0) 0) = true ∧
    (bellBusy (getBell (withBell 0 (fitted .down) s0) 0) = false ∧ (getBell (withBell 0 (fitted .down) s0) 0).present = true ∧
      fittedOf 0 = some (false, false, false)) := by decide +kernel

theorem witness_BellTimersRunOut :
    (let s := withBell 0 { fitted .raising with moveStart := some 0 } { s0 with elapsed := 90000 }
     running s = true ∧ raiseOver s 0 = true ∧ raiseOver { s with elapsed := 89999 } 0 = false) ∧
    (let s := withBell 0 { fitted .lowering with moveStart := some 0 } { s0 with elapsed := 90000 }
     lowerOver s 0 = true) ∧
    (let s := withBell 0 { fitted .up with upSince := 0 } { s0 with elapsed := 3600000 }
     limitReached s 0 = true ∧ limitReached { s with elapsed := 3599999 } 0 = false) := by decide +kernel

theorem witness_PollsAndOffers :
    (let s := withBell 0 { fitted .up with nextPoll := some 0 } s0
     running s = true ∧ pollDue s 0 = true ∧ (getBell s 0).nextPoll = some 0 ∧ pollInterval (getBell s 0) = some 10000 ∧
       outstanding s 0 = none ∧ (getBell s 0).owed = none ∧ lineAccepts s = true) ∧
    (let s := withBell 0 { fitted .up with nextPoll := some 0, owed := some .lower } s0
     pollDue s 0 = true ∧ (getBell s 0).owed.isSome = true) ∧
    (let s := withBell 30 { fitted .up with owed := some .lower } s0
     lineAccepts s = true ∧ (getBell s 30).owed = some .lower ∧ outstanding s 30 = none ∧
       ∀ u : Station, u < 30 → (getBell s u).owed = none ∨ (outstanding s u).isSome = true) ∧
    (let s := withBell 0 { fitted .down with waitingRaise := true } { s0 with lights := { s0.lights with allowance := 10, waiting := [(0, 10)] } }
     s.mains = .present ∧ (s.lights.waiting.find? fun p => p.1 == 0) = some (0, 10) ∧ 10 ≤ freeLoad s.lights ∧ running s = true) ∧
    (let s := withBell 0 (fitted .fault) { s0 with lights := { s0.lights with allowance := 10, waiting := [(0, 10)] } }
     (s.lights.waiting.find? fun p => p.1 == 0) = some (0, 10) ∧ 10 ≤ freeLoad s.lights ∧ (getBell s 0).pos = .fault ∧
       (getBell s 0).waitingRaise = false ∧ (getBell s 0).present = true ∧ (getBell s 0).ctrl = .automatic) := by
  decide +kernel

theorem witness_PealTimersRunOut :
    let p : PealRun := ⟨[0, 1], false, .raising, some 0, none, 1⟩
    let q : PealRun := ⟨[0, 1], false, .ringing, none, some 0, 1⟩
    let s := withBell 0 { fitted .down with waitingRaise := true } { s0 with peal := some p }
    let u := withBell 0 (fitted .up) { s0 with peal := some q }
    (running s = true ∧ s.peal = some p ∧ p.phase = .raising ∧ p.raiseBy = some s.elapsed ∧ (getBell s 0).waitingRaise = true) ∧
      (running u = true ∧ u.peal = some q ∧ q.phase = .ringing ∧ q.ringEnd = some u.elapsed ∧ (getBell u 0).pos = .up) := by
  decide +kernel

/-! ### The tune store -/

/-- Tune 2 takes the first n notes. -/
def sNotes (n : Nat) : State := withTune 1 { tune4 .ready with length := n } (withTune 0 (tune4 .bad) s0)

theorem witness_OpenTuneFindsRoom :
    portServed (sNotes 8) = true ∧ noteLaw (sNotes 8) ∧ tuneOf (1 : Byte).toNat = some 0 ∧ (getTune (sNotes 8) 0).locked = false ∧
    (getTune (sNotes 8) 0).state ≠ .checking ∧ tuneInUse (sNotes 8) 0 = false ∧
    (1 ≤ u16 0 1 ∧ u16 2 0 ≤ 512 ∧ tickOk (u16 0 40) = true ∧ tickOk (u16 0x03 0xE8) = true ∧
      runFits (sNotes 8) 0 (u16 2 0) 8 = true ∧ ∀ m, m < 8 → runFits (sNotes 8) 0 (u16 2 0) m = false) ∧
    (u16 0 0 < 1 ∧ 512 < u16 2 1 ∧ tickOk (u16 0 39) = false) := by
  unfold noteLaw
  decide +kernel

theorem witness_OpenTuneFindsRoom_full (m : Nat) : runFits (sNotes 4096) 0 (u16 0 1) m = false := by
  by_cases hm : m + 1 ≤ 4096
  · refine Bool.and_eq_false_imp.mpr fun _ => List.all_eq_false.mpr ⟨1, List.mem_finRange _, ?_⟩
    show ¬ (false || (false || decide (m + 1 ≤ 0) || decide (4096 ≤ m))) = true
    simp
    omega
  · exact Bool.and_eq_false_imp.mpr fun hf => absurd (of_decide_eq_true hf) hm

theorem witness_TunesLoadAndCheck :
    (let s := withTune 31 (tune4 .loading) s0
     portServed s = true ∧ s.tunes.notes.wf = true ∧ (getTune s 31).locked = false ∧ (getTune s 31).state = .loading ∧
       (0x20 : Byte).getLsbD 6 = false ∧ tuneOf ((0x20 : Byte).toNat % 64) = some 31 ∧
       (0x20 : Byte).toNat / 128 * 256 + (3 : Byte).toNat + (1 : Byte).toNat ≤ (getTune s 31).length ∧
       (notesOf [0x0E, 0x0F]).all validNote = true ∧ (notesOf [0x0F, 0x0F]).all validNote = false) ∧
    (let s := withTune 0 (tune4 .checking) s0
     running s = true ∧ (getTune s 0).state = .checking ∧ tuneOf (1 : Byte).toNat = some 0) ∧
    (let s := withTune 0 (tune4 .bad) s0
     (getTune s 0).state = .bad ∧ (getTune s 0).locked = false ∧ tuneInUse s 0 = false) ∧
    (getTune (withTune 0 (tune4 .empty) s0) 0).state = .empty := by decide +kernel

/-- A tune of 4 notes is played, its notes on bell 1, of full strength. -/
def sPlay (p : Player) (b : Bell) : State :=
  let s := withBell 0 b (withTune 0 (tune4 .ready) s0)
  { s with tunes := { s.tunes with notes := [⟨0, 0x0C⟩], player := some p } }

theorem witness_TuneNotesPlay :
    (let s := sPlay player (fitted .down)
     running s = true ∧ s.tunes.player = some player ∧ player.tune = some 0 ∧ player.noteAt = s.elapsed ∧
       readNote s.tunes.notes ((getTune s 0).first + player.notePos) = (0x0C, 0) ∧ stationOf (noteStation (0x0C, 0)) = some 0 ∧
       strikable (getBell s 0) = true ∧ (getBell s 0).nextFree = s.elapsed ∧ (getBell s 0).deferred = [] ∧ lineAccepts s = true) ∧
    (let s := sPlay { player with notePos := 3 } (fitted .up)
     readNote s.tunes.notes ((getTune s 0).first + 3) = (0, 0) ∧ noteStation (0, 0) = 0 ∧ strikable (getBell s 0) = false ∧
       3 < (getTune s 0).length) ∧
    (let s := sPlay { player with notePos := 4 } (fitted .down)
     (getTune s 0).length = 4 ∧ player.playNo = player.playsAsked ∧ player.train = false) := by decide +kernel

theorem witness_TuneNotesPlay_end :
    (let s := sPlay { player with notePos := 4, playsAsked := 2 } (fitted .down)
     running s = true ∧ (getTune s 0).length ≤ 4 ∧ player.playNo < 2) ∧
    (let p : Player := { player with notePos := 4, train := true, strokes := 12 }
     let s := sPlay p (fitted .down)
     s.tunes.player = some p ∧ p.noteAt ≤ s.elapsed ∧ p.playsAsked ≤ p.playNo ∧ p.train = true ∧ 0 < p.strokes) ∧
    (let s := withLine (fun l => { l with queue := List.replicate 32 strikeOrder }) (sPlay player (fitted .down))
     strikable (getBell s 0) = true ∧ (getBell s 0).nextFree ≤ s.elapsed ∧ (getBell s 0).deferred = [] ∧ lineAccepts s = false ∧
       readNote s.tunes.notes ((getTune s 0).first + player.notePos) = (0x0C, 0)) := by decide +kernel

/-! ### The belfry line -/

theorem witness_OwnFramesRun :
    (let s := withLine (fun l => { l with queue := [strikeOrder] }) { s0 with elapsed := 250 }
     running s = true ∧ s.line.state = .idle ∧ s.mains = .present ∧ s.line.queue = strikeOrder :: [] ∧ inTime s strikeOrder = true ∧
       inTime { s with elapsed := 251 } strikeOrder = false) ∧
    (let s := sOwn { queryOrder with unanswered := 1 } (fitted .down)
     s.line.frame = .own { queryOrder with unanswered := 1 } 0 ∧ running s = true) ∧
    (let s := sOwn { queryOrder with unanswered := 2 } { fitted .down with noAnswer := 2 }
     s.line.frame = .own { queryOrder with unanswered := 2 } 0 ∧ (getBell s 0).pos ≠ .absent ∧ 2 ≤ (getBell s 0).noAnswer) ∧
    (let s := sOwn strikeOrder (fitted .down)
     s.line.frame = .own strikeOrder 0 ∧ strikeOrder.body = .strike .full 250 (.toll 1) ∧ (getBell s 0).pos ≠ .absent) ∧
    (let s := sOwn queryOrder (fitted .lowering)
     queryOrder.body = .swing .query ∧ (0xFC : Byte).toNat % 4 = 0 ∧ (getBell s 0).pos = .lowering ∧ (getBell s 0).ctrl = .automatic ∧
       (getBell s 0).waitingRaise = false) ∧
    (let own := 4 * stationNo queryOrder.station + (if queryOrder.body = .swing .query then 1 else 0)
     (0x04 : Byte).toNat < own ∧ own < (0x08 : Byte).toNat ∧ (0x05 : Byte).toNat = own ∧
       (0x1F : Byte).toNat < queryOrder.orderByte.toNat ∧ queryOrder.orderByte.toNat ≤ (0x20 : Byte).toNat) := by decide +kernel

theorem witness_OwnFramesRun_waits :
    s0.line.queue = [] ∧ running s0 = true ∧ s0.mains = .present ∧ s0.line.state ≠ .faulted ∧
    (sOwn queryOrder (fitted .down)).line.state ≠ .idle ∧ (sOwn queryOrder (fitted .down)).line.state ≠ .faulted ∧
    (sOwn queryOrder (fitted .down)).mains = .present ∧ { s0 with mains := .absent }.mains = .absent ∧
    (withLine (fun l => { l with state := .faulted }) s0).line.state = .faulted := by decide +kernel
/-- With mains absent the controller does not read the line (R167). -/
theorem test_absent_reads_nothing :
    let s := { s0 with mains := .absent }
    after (.orderFrameStart false false) s = s := by decide +kernel

/-- A STOP is a look at LCK: 25 ms after it the clock is no fault, and at 26 ms it is one (R152, R163). -/
theorem test_stop_reads_clock :
    let s := after (.orderAttemptEnd .unanswered) { sOwn queryOrder (fitted .down) with elapsed := 100 }
    (after .clockStuck { s with elapsed := 125 }).line.state = .idle ∧
      (after .clockStuck { s with elapsed := 126 }).line.state = .faulted := by decide +kernel
/-- A rise of LCK is read with an empty queue too. -/
theorem test_rise_is_read :
    (after (.orderFrameStart true true) { s0 with pins := { s0.pins with lckLowSince := some 0 } }).pins.lckLowSince = none := by
  decide +kernel

/-- A frame of another party, after its address byte. -/
def sForeign (st : LineState) (address : Byte) (b : Bell) : State :=
  withLine (fun l => { l with state := st, frame := .foreign [address] 0 none }) (withBell 30 b s0)

theorem witness_ForeignFramesAreFollowed :
    (running s0 = true ∧ s0.line.state = .idle ∧ s0.mains = .present) ∧
    (let s := sForeign .observing 0x7C { fitted .up with ctrl := .console }
     s.line.state = .observing ∧ s.line.frame = .foreign [0x7C] 0 none ∧ stationOf ((0x7C : Byte).toNat / 4) = some 30 ∧
       readFlag 0x7C = false ∧ (getBell s 30).ctrl = .console) ∧
    (let s := sForeign .observing 0 { fitted .up with ctrl := .console }
     s.line.frame = .foreign [0] 0 none ∧ (getBell s 30).ctrl = .console ∧ (getBell s 0).ctrl = .automatic) ∧
    (let s := sForeign .observing 0x7C (fitted .up)
     (getBell s 30).ctrl = .automatic ∧ (0x7C : Byte).toNat / 4 ≠ 0) ∧
    (stationOf ((0x80 : Byte).toNat / 4) = none ∧ (0x80 : Byte).toNat / 4 ≠ 0) ∧
    (stationOf ((0 : Byte).toNat / 4) = none ∧ ([0x10] : List Byte).head? ≠ some 0x12) ∧
    (let s := sForeign .observing 0x7D { fitted .up with ctrl := .console }
     s.line.frame = .foreign [0x7D] 0 none ∧ stationOf ((0x7D : Byte).toNat / 4) = some 30 ∧ readFlag 0x7D = true ∧
       (getBell s 30).ctrl = .console ∧ (getBell s 30).waitingRaise = false ∧ (0xFC : Byte).toNat % 4 = 0 ∧ (3 : Byte).toNat % 4 ≠ 0) ∧
    (sForeign .addressed 0xA0 (fitted .up)).line.state = .addressed := by decide +kernel

theorem witness_ClaimsAndReleases :
    (let s := sForeign .addressed 0xA1 { fitted .up with reserving := true }
     running s = true ∧ s.line.state = .addressed ∧ s.line.frame = .foreign [0xA1] 0 none ∧ readFlag 0xA1 = true ∧
       inSet 0x80000000 30 = true ∧ (getBell s 30).present = true ∧ (getBell s 30).pos ≠ .fault ∧ (getBell s 30).reserving = true) ∧
    (let s := sForeign .addressed 0xA1 (fitted .down)
     s.line.frame = .foreign [0xA1] 0 none ∧ (getBell s 30).present = true ∧ (getBell s 30).pos ≠ .fault ∧
       (getBell s 30).reserving = false ∧ (getBell s 30).ctrl = .automatic) ∧
    (let s := sForeign .addressed 0xA0 { fitted .up with ctrl := .console }
     s.line.frame = .foreign [0xA0] 0 none ∧ readFlag 0xA0 = false ∧ (getBell s 30).ctrl = .console ∧ (getBell s 30).present = true) := by
  decide +kernel

theorem witness_LineErrorsAndRecovery :
    (let s := sOwn queryOrder (fitted .down)
     running s = true ∧ s.line.state = .sending ∧ s.line.frame = .own queryOrder 0 ∧ queryOrder.abandoned = 0 ∧ inTime s queryOrder = true) ∧
    (let s := { sForeign .addressed 0xA0 (fitted .down) with elapsed := 100 }
     s.line.state = .addressed ∧ s.line.frame = .foreign [0xA0] 0 none ∧ 0 + 100 ≤ s.elapsed) ∧
    (sForeign .observing 0x7C (fitted .down)).line.state = .observing ∧
    (let s := withLine (fun l => { l with state := .recovering, queue := [queryOrder] }) (withBell 1 (fitted .raising) s0)
     s.line.state = .recovering ∧ s.line.attempt = none ∧ s.line.state ≠ .faulted ∧ s.mains = .present ∧
       isMoving (getBell s 1) = true ∧ queryOrder ∈ s.line.queue) ∧
    (let s := withLine (fun l => { l with queue := [queryOrder] }) (withBell 0 (fitted .down) { s0 with elapsed := 26 })
     s.pins.lckHighAt + 25 < s.elapsed ∧ s.line.state ≠ .faulted ∧ s.mains = .present ∧ queryOrder ∈ s.line.queue ∧ queryOrder.body = .swing .query ∧
       (getBell s queryOrder.station).pos ≠ .absent) ∧
    (let s := withLine (fun l => { l with state := .recovering, attempt := some .restart }) (withBell 1 (fitted .down) s0)
     s.line.attempt = some .restart ∧ (getBell s 1).present = true ∧ (getBell s 1).ctrl = .automatic) ∧
    (let s := withLine (fun l => { l with attempt := some .restart }) (withBell 1 (fitted .raising) s0)
     running s = true ∧ s.line.attempt = some .restart ∧ isMoving (getBell s 1) = true) ∧
    (let s := withLine (fun l => { l with state := .faulted, attempt := some .clear }) s0
     s.line.attempt = some .clear ∧ s.line.state = .faulted ∧ portServed s = true) ∧
    s0.line.state ≠ .faulted ∧ 1 < (2 : Byte).toNat := by decide +kernel

/-! ### The dial drive unit -/

theorem witness_SetDialHandsSets :
    portServed s0 = true ∧ dialOf (5 : Byte).toNat = none ∧ 1439 < u16 0x05 0xA0 ∧ 2 < (3 : Byte).toNat ∧
    (dialOf (4 : Byte).toNat = some 3 ∧ u16 0x05 0x9F = 1439 ∧ (2 : Byte).toNat ≤ 2) ∧
    (getDial (withDial 3 { dialOn with state := .absent } s0) 3).state = .absent ∧
    ((getDial (withDial 3 dialBusy s0) 3).state ≠ .absent ∧ (getDial (withDial 3 dialBusy s0) 3).impulse.isSome = true) ∧
    ((getDial s0 3).state ≠ .absent ∧ (getDial s0 3).impulse = none ∧ (getDial s0 3).present = false) := by decide +kernel

theorem witness_DialsFollowTheTarget :
    (portServed s0 = true ∧ dialOf (4 : Byte).toNat = some 3 ∧ flagOf 1 = some true ∧
      dialValuesOk (u16 0x0B 0xB8) (20 : Byte).toNat (u16 0x02 0xD0) = true ∧ (getDial s0 3).impulse = none) ∧
    (let s := withDial 3 dialBusy (withTime (fun t => { t with stdSec := 43170 }) s0)
     running s = true ∧ dialTarget s.time ≠ s.lastTarget ∧ (getDial s 0).impulse = none ∧ (getDial s 3).impulse.isSome = true) ∧
    (let s := withDial 3 { dialOn with due := some 0 } s0
     (getDial s 3).due = some 0 ∧ (getDial s 3).impulse = none) ∧
    (let s := withDial 3 dialBusy s0
     (getDial s 3).impulse = some ⟨.positive, 0⟩ ∧ (getDial s 3).closure = false ∧ (getDial s 3).senseAtEnd = false) ∧
    (let s := withDial 3 { dialBusy with closure := true, senseAtEnd := true, hand := 1439 } s0
     running s = true ∧ (getDial s 3).impulse = some ⟨.positive, 0⟩ ∧ 0 ≤ s.elapsed ∧ 0 = ((getDial s 3).hand + 1) % 1440 ∧
       (getDial s 3).closure = true ∧ (getDial s 3).senseAtEnd = true ∧ (getDial s 3).present = true) ∧
    (dialOf (5 : Byte).toNat = none ∧ 1 < (2 : Byte).toNat ∧ u16 0 99 < 100 ∧ 3000 < u16 0x0C 0x1C ∧ u16 0x03 0xE9 % 100 ≠ 0 ∧
      (0 : Byte).toNat < 1 ∧ 20 < (21 : Byte).toNat ∧ (1 : Byte).toNat * 1000 < u16 0x02 0x58 + 500 ∧ 720 < u16 0x02 0xD1) ∧
    (u16 0x01 0xF4 = 500 ∧ u16 0x01 0xF4 + 500 ≤ (1 : Byte).toNat * 1000 ∧ u16 0x02 0xD0 ≤ 720 ∧
      (getDial (withDial 3 dialBusy s0) 3).impulse.isSome = true) ∧
    (let s := withDial 3 { dialOn with syncUsed := true, hand := 1439 } s0
     watched s 3 = true ∧ (getDial s 3).impulse = none ∧ (getDial s 3).hand ≠ 0) ∧
    (let s := withDial 3 { dialBusy with syncUsed := true } s0
     watched s 3 = true ∧ (getDial s 3).impulse.isSome = true) := by decide +kernel

/-! ### The lighting unit -/

theorem witness_LightingWritesKeepTheLaw :
    portServed sEdge = true ∧ zoneOf (8 : Byte).toNat = some 7 ∧ 1 ≤ (1 : Byte).toNat ∧ (8 : Byte).toNat ≤ 8 ∧
    sceneOf (16 : Byte).toNat = some 15 ∧ (levelsOf [3, 3, 3, 3, 3, 3, 3, 3]).isSome = true ∧ governingScene sEdge = none := by
  decide +kernel

/-- Zone 1, of load 5 when LOW, is shed: level LOW does not fit the allowance of 4. -/
def sShed : State :=
  { s0 with lights := { s0.lights with allowance := 4, zones := put s0.lights.zones 0 ⟨5, 6, 7, 1, 1, 0⟩ } }

theorem witness_LightingWritesKeepTheLaw_shed :
    portServed sShed = true ∧ lightLaw sShed ∧ zoneOf (1 : Byte).toNat = some 0 ∧ sShed.mains = .present ∧
    (committed sShed.lights ≤ sShed.lights.allowance ∧ (4 : Byte).toNat < (sShed.lights.zones.get 0).low) ∧
    (let l := { sEdge.lights with zones := put sEdge.lights.zones 0 { sEdge.lights.zones.get 0 with low := 255, mid := 255, full := 255 } }
     portServed sEdge = true ∧ l.allowance < committed l) := by
  unfold lightLaw zoneLaw supplyLaw
  decide +kernel

/-- Lowering the load of the level above a shed zone's present one lets restoration raise it; an equal load does not (R188, R189). -/
theorem test_zone_lowered_is_restored :
    ((after (.writeZone [1, 4, 6, 7, 1]) sShed).lights.zones.get 0).present = 1 ∧
    ((after (.writeZone [1, 5, 6, 7, 1]) sShed).lights.zones.get 0).present = 0 := by decide +kernel

theorem witness_SetAllowanceBoundsTheLoad :
    portServed sEdge = true ∧ 1000 < u16 0x03 0xE9 ∧ (u16 0 9 < reservTotal sEdge.lights) ∧
    (u16 0 10 = reservTotal sEdge.lights ∧ u16 0 10 < committed sEdge.lights) ∧
    (u16 0x03 0xE8 = 1000 ∧ sEdge.lights.allowance < u16 0x03 0xE8 ∧ sEdge.mains = .present ∧ sEdge.peal = none) ∧
    (committed sEdge.lights ≤ u16 0 15 ∧ u16 0 15 ≤ sEdge.lights.allowance) := by decide +kernel

/-! ### Port, attention, mains and power -/

theorem witness_AttentionCommands :
    portServed s0 = true ∧ (127 : Byte).toNat < 128 ∧ (3 : Byte).toNat < 4 ∧ 128 ≤ (128 : Byte).toNat ∧ 4 ≤ (4 : Byte).toNat := by decide

theorem witness_AttentionCommands_short :
    ([1] : List Byte).length ≠ 2 ∧ ([1, 2, 3] : List Byte).length ≠ 2 ∧ ([0] : List Byte).length < 2 ∧ ([0] : List Byte) ≠ [] ∧
    ([0, 0] : List Byte).length < 3 ∧ (1 ≤ (32 : Byte).toNat ∧ (32 : Byte).toNat ≤ 32 ∧ ([0] : List Byte).length ≠ 2 * (32 : Byte).toNat) := by
  decide

theorem witness_ReadsStreamTheirLayouts :
    portServed s0 = true ∧ slotOf 127 = some 127 ∧ stackLaw s0 ∧ stationOf (31 : Byte).toNat = some 30 ∧
    (tuneOf (1 : Byte).toNat = some 0 ∧ (getTune (sPlay player (fitted .up)) 0).state = .ready ∧
      u16 0 3 < (getTune (sPlay player (fitted .up)) 0).length) ∧
    dialOf (4 : Byte).toNat = some 3 ∧ sceneOf (16 : Byte).toNat = some 15 := by
  unfold stackLaw
  decide +kernel

theorem witness_ReadsStreamTheirLayouts_values :
    stdMoment s0.time < Config.endOfRangeDay * 86400 ∧ wallMoment s0.time < Config.endOfRangeDay * 86400 ∧
    (-600000 ≤ s0.time.slew ∧ s0.time.slew ≤ 600000) ∧ (-720 ≤ s0.time.zone ∧ s0.time.zone ≤ 840) ∧
    (sSounding.sheets.today.entries[0 + 1]? = some ⟨36000, none, ⟨8, 0⟩, .toll, 5, .active, false⟩ ∧
      sSounding.sheets.today.entries[0 + 2]? = none) ∧
    ((sStack 8).overrides.entries[7]? = some ⟨8, .silence ⟨true, true, true, true⟩ 0, some 0⟩ ∧ (sStack 7).overrides.entries.length ≤ 7) ∧
    (getBell s0 30).pos ≠ .up ∧ (s0.elapsed - (getBell s0 30).nextFree) + ((getBell s0 30).nextFree - s0.elapsed) < 0xFFFFFFFE ∧
    (getDial (withDial 3 dialBusy s0) 3).hand < 1440 ∧ governingLit s0 = none ∧ governingLit sForced = some 7 := by decide +kernel

/-- READ SHEET from index 1: the toll at 10:00:00 is 36,000 = 008CA0h, and is ACTIVE in the TOLL lane. -/
theorem test_sheet_bytes :
    ((after (.readSheet [0, 1]) sSounding).port.stream.drop 6).take 3 = [0, 0x8C, 0xA0] ∧
    ((after (.readSheet [0, 1]) sSounding).port.stream.drop 17).take 1 = [4] := by decide +kernel

theorem witness_PanelResetKeepsSettings :
    portServed s0 = true ∧ s0.peal = none ∧ { s0 with pins := { s0.pins with resetHigh := false } }.pins.resetHigh = false := by decide

theorem witness_MainsChanges :
    running s0 = true ∧ s0.mains = .present ∧
    (let s := withDial 3 dialBusy { s0 with mains := .absent }
     s.mains = .absent ∧ (getDial s 3).present = true ∧ (getDial s 3).impulse.isSome = true) := by decide +kernel

/-- Mains is absent, bells 1 and 3 are present, and a forced scene wants LOW, of load 10, of zones 1 and 2; zone 2 has the greater
priority, and the allowance is 15. -/
def sDark : State :=
  let s := withBell 2 (fitted .down) (withBell 0 (fitted .down) { s0 with mains := .absent })
  let zones := put (put s.lights.zones 0 ⟨10, 10, 10, 1, 0, 0⟩) 1 ⟨10, 10, 10, 2, 0, 0⟩
  { s with
    overrides := ⟨[⟨1, .lights 3, none⟩], 1⟩
    lights := { s.lights with zones := zones, scenes := put s.lights.scenes 3 #v[1, 1, 0, 0, 0, 0, 0, 0], allowance := 15 } }

theorem witness_MainsChanges_return :
    running sDark = true ∧ sDark.mains = .absent ∧ sDark.peal = none ∧ sDark.lights.waiting = [] ∧ sDark.line.queue = [] ∧
    ownOrder sDark.line = none ∧ (∀ st, (getBell sDark st).ctrl = .automatic ∧ (getBell sDark st).owed = none) ∧
    sDark.line.state ≠ .faulted ∧ (withLine (fun l => { l with state := .faulted }) sDark).line.state = .faulted ∧
    (∀ sc z, (sDark.lights.scenes.get sc).get z ≤ 3) ∧
    (∀ z, (sDark.lights.zones.get z).present ≤ (sDark.lights.zones.get z).wanted ∧ (sDark.lights.zones.get z).wanted ≤ 3 ∧
      (sDark.lights.zones.get z).low ≤ (sDark.lights.zones.get z).mid ∧
      (sDark.lights.zones.get z).mid ≤ (sDark.lights.zones.get z).full) ∧
    (let t := after (.mainsReturn 0) sDark
     isShed (t.lights.zones.get 0) = true ∧ (∀ y, y ≠ 0 → isShed (t.lights.zones.get y) = true → shedBefore t.lights y 0 = true) ∧
       shedBefore t.lights 7 0 = true) := by decide +kernel

/-- Bells 1 and 3 are queried in that order, and owe it while the line is FAULTED (R136, R167); zone 2 comes back first, and zone 1 does
not fit beside it (R189). -/
theorem test_mains_return :
    (let t := after (.mainsReturn 0) sDark
     t.line.queue = [⟨0, .swing .query, 0, 0⟩, ⟨2, .swing .query, 0, 0⟩] ∧ (t.lights.zones.get 0).present = 0 ∧
       (t.lights.zones.get 1).present = 1) ∧
    (let t := after (.mainsReturn 0) (withLine (fun l => { l with state := .faulted }) sDark)
     t.line.queue = [] ∧ (getBell t 0).owed = some .query ∧ (getBell t 2).owed = some .query) := by decide +kernel

theorem witness_PowerTransitions :
    (let s := { s0 with power := .unpowered, latch := false }
     s.power = .unpowered ∧ s.latch = false) ∧
    (let s := { s0 with power := .unpowered }
     s.power = .unpowered ∧ s.latch = true) := by decide

end Sys2Proof.Tests
end

section
/-! PROOFS. The time base's small operations: ADJUST TIME, the reference receiver, its pulses and its timers. -/

namespace Sys2Proof.Time

open Sys2Proof Sys2Proof.Machine

variable {s : State}

/-! ### ADJUST TIME (R42) -/

theorem adjustOk_iff (slew amount : Int) :
    adjustOk slew amount = true ↔
      amount ≠ 0 ∧ -60000 ≤ amount ∧ amount ≤ 60000 ∧ -600000 ≤ slew + amount ∧ slew + amount ≤ 600000 := by
  simp [adjustOk, and_assoc]

theorem adjustTime_locked (a b c : Byte) (h : s.time.ref = .locked) : adjustTime [a, b, c] s = .error .wrongState := by
  simp [adjustTime, h]

theorem adjustTime_unlocked (a b c : Byte) (h : s.time.ref ≠ .locked) :
    adjustTime [a, b, c] s =
      if adjustOk s.time.slew (s24 a b c) then .ok { s with time := { s.time with slew := s.time.slew + s24 a b c } }
      else .error .badValue := by
  simp [adjustTime, h, updTime]

theorem exec_adjustTime (ops : List Byte) : exec (.adjustTime ops) s = change (adjustTime ops s) s := rfl

/-- Settles O23: the three outcomes of `adjustTime`, by the bounds of `adjustOk`. -/
theorem adjustTimeAddsToSlew : Obligations.AdjustTimeAddsToSlew := by
  intro s a b c hp
  refine ⟨fun hl => ?_, fun hl hbad => ?_, fun hl h0 h1 h2 h3 h4 => ?_⟩
  · rw [exec_adjustTime, adjustTime_locked a b c hl, change_error hp]
  · have hno : ¬ adjustOk s.time.slew (s24 a b c) = true := by rw [adjustOk_iff]; omega
    rw [exec_adjustTime, adjustTime_unlocked a b c hl, if_neg hno, change_error hp]
  · rw [exec_adjustTime, adjustTime_unlocked a b c hl, if_pos ((adjustOk_iff _ _).2 ⟨h0, h1, h2, h3, h4⟩), change_ok hp]

/-! ### The reference timers (R39) -/

theorem exec_referenceLost (hr : running s = true) (hl : s.time.ref = .locked) (ht : 120 ≤ s.time.refTimer) :
    exec .referenceLost s
      = .next (setFlag .referenceLost (updTime (fun x => { x with ref := .holdover, refTimer := 0 }) s)) := by
  have hlost : lockLost s.time = true := by simp [lockLost, hl, Config.lockLife, ht]
  change event _ s = _
  rw [event_running hr, if_pos hlost]

theorem exec_holdoverExpiry (hr : running s = true) (hh : s.time.ref = .holdover) (ht : 86400 ≤ s.time.refTimer) :
    exec .holdoverExpiry s = .next (updTime (fun x => { x with ref := .free }) s) := by
  have hover : holdoverOver s.time = true := by simp [holdoverOver, hh, Config.holdoverLife, ht]
  change event _ s = _
  rw [event_running hr, if_pos hover]

/-- Settles O28: each timer that has run out gives the next reference state, and nothing else changes. -/
theorem referenceTimersRunOut : Obligations.ReferenceTimersRunOut := by
  intro s hr
  exact ⟨exec_referenceLost hr, exec_holdoverExpiry hr⟩

/-! ### Messages of the reference receiver (R35) -/

theorem receiverIdle_iff : receiverIdle s = true ↔ ∀ m, s.time.lastByte = some m → m + 20 ≤ s.elapsed := by
  cases h : s.time.lastByte with
  | none => simp [receiverIdle, h]
  | some m =>
    simp only [receiverIdle, h, decide_eq_true_eq, Option.some.injEq, forall_eq']
    rfl

theorem messageGap_iff :
    messageGap s = true ↔ s.time.assembling ≠ [] ∧ ∃ m, s.time.lastByte = some m ∧ m + 20 < s.elapsed := by
  cases h : s.time.lastByte with
  | none => simp [messageGap, h]
  | some m =>
    simp only [messageGap, h, Bool.and_eq_true, Bool.not_eq_true', List.isEmpty_eq_false_iff, decide_eq_true_eq,
      Option.some.injEq, exists_eq_left']
    rfl

/-- Bytes on an idle line begin a new message. -/
theorem messageBefore_idle (ha : s.time.assembling = []) (hi : receiverIdle s = true) : messageBefore s = some [] := by
  simp [messageBefore, ha, hi]

/-- Bytes that come too soon after a message belong to none. -/
theorem messageBefore_busy (ha : s.time.assembling = []) (hi : receiverIdle s = false) : messageBefore s = none := by
  simp [messageBefore, ha, hi]

/-- Bytes within the gap go on the message in progress. -/
theorem messageBefore_progress (ha : s.time.assembling ≠ []) (hg : messageGap s = false) :
    messageBefore s = some s.time.assembling := by
  simp [messageBefore, ha, hg]

theorem assemble_nil (ha : s.time.assembling = []) :
    assemble [] s = { s with time := { s.time with lastByte := some s.elapsed } } := by
  simp [assemble, updTime, ← ha]

/-- Bytes that belong to no message are discarded. -/
theorem receiveBytes_discarded {bytes : List Byte} (hb : bytes ≠ []) (h : messageBefore s = none) :
    receiveBytes bytes s = assemble [] s := by
  simp [receiveBytes, hb, h]

/-- A message whose first byte is not 7Eh is abandoned. -/
theorem receiveBytes_badStart {bytes before : List Byte} (hb : bytes ≠ []) (h : messageBefore s = some before)
    (hs : (before ++ bytes).head? ≠ some 0x7E) : receiveBytes bytes s = assemble [] s := by
  simp only [receiveBytes, if_neg hb, h, if_pos hs]

/-- A message with fewer than ten bytes goes on. -/
theorem receiveBytes_partial {bytes before : List Byte} (hb : bytes ≠ []) (h : messageBefore s = some before)
    (hs : (before ++ bytes).head? = some 0x7E) (hl : (before ++ bytes).length < 10) :
    receiveBytes bytes s = assemble (before ++ bytes) s := by
  simp only [receiveBytes, if_neg hb, h, if_neg (not_not.2 hs), if_pos hl]

/-- The tenth byte completes a message. -/
theorem receiveBytes_whole {bytes before : List Byte} (hb : bytes ≠ []) (h : messageBefore s = some before)
    (hs : (before ++ bytes).head? = some 0x7E) (hl : (before ++ bytes).length = 10) :
    receiveBytes bytes s = completeMessage (before ++ bytes) (assemble [] s) := by
  simp only [receiveBytes, if_neg hb, h, if_neg (not_not.2 hs), hl, lt_irrefl, if_false]
  rw [← hl, List.take_length]

theorem completeMessage_some {bytes : List Byte} {m : Nat} (h : messageMoment s.time.zone bytes = some m) :
    completeMessage bytes s = updTime (fun t => { t with waiting := some ⟨m, s.elapsed⟩ }) s := by
  simp [completeMessage, h]

theorem completeMessage_none {bytes : List Byte} (h : messageMoment s.time.zone bytes = none) : completeMessage bytes s = s := by
  simp [completeMessage, h]

/-- A message whose bytes do not sum to 0, or whose valid bit is clear, gives no moment (R35). -/
theorem messageMoment_none {bytes : List Byte} (zone : Int)
    (h : bytes.foldl (· + ·) 0 ≠ 0 ∨ (bytes.getD 8 0).getLsbD 0 = false) : messageMoment zone bytes = none := by
  unfold messageMoment
  split
  · next b0 y1 y0 mo d hh mi se st sum =>
    have hbad : ¬ (b0 + y1 + y0 + mo + d + hh + mi + se + st + sum = 0 ∧ st.getLsbD 0 = true) := by
      rintro ⟨hsum, hvalid⟩
      rcases h with h | h
      · exact h (by simpa using hsum)
      · exact Bool.noConfusion (hvalid.symm.trans h)
    simp only [if_neg hbad, Option.bind_eq_bind, Option.bind_fun_none]
  · rfl

theorem exec_referenceMessage (bytes : List Byte) (hr : running s = true) :
    exec (.referenceMessage bytes) s = .next (receiveBytes bytes s) := event_running hr

theorem exec_messageAbandoned (hr : running s = true) :
    exec .referenceMessageAbandoned s = .next (abandonMessage s) := event_running hr

theorem abandonMessage_eq {m : Nat} (hm : s.time.lastByte = some m) (ha : s.time.assembling ≠ []) :
    abandonMessage s
      = { s with
          time := { s.time with assembling := [], lastByte := some (if m + 20 < s.elapsed then m else s.elapsed) } } := by
  have hgap : messageGap s = true ↔ m + 20 < s.elapsed := by rw [messageGap_iff]; simp [ha, hm]
  by_cases h : m + 20 < s.elapsed
  · simp [abandonMessage, hgap.2 h, h, updTime, ← hm]
  · simp [abandonMessage, mt hgap.1 h, h, assemble, updTime]

theorem messageOld_of {w : WaitingMessage} (hw : s.time.waiting = some w) (h : w.received + 1100 ≤ s.elapsed) :
    messageOld s = true := by
  simp [messageOld, hw, Config.messageLife, h]

/-- Settles O26: bytes on an idle line, within the gap and after a gap, by what `messageBefore` gives for each. -/
theorem referenceMessagesWait : Obligations.ReferenceMessagesWait := by
  intro s hr
  refine ⟨fun bytes ha hi => ?_, fun bytes m hb hm => ?_, fun m hm ha => ?_, fun w hw hold => ?_⟩
  · have hbefore := messageBefore_idle ha (receiverIdle_iff.2 hi)
    refine ⟨fun m hl hs hmoment => ?_, fun hl hs hbad => ?_, fun hb hs => ?_⟩
    · have hb : bytes ≠ [] := by rintro rfl; simp at hl
      rw [exec_referenceMessage bytes hr, receiveBytes_whole hb hbefore hs hl, assemble_nil ha]
      exact congrArg _ (completeMessage_some hmoment)
    · have hb : bytes ≠ [] := by rintro rfl; simp at hl
      rw [exec_referenceMessage bytes hr, receiveBytes_whole hb hbefore hs hl, assemble_nil ha]
      exact congrArg _ (completeMessage_none (messageMoment_none _ hbad))
    · rw [exec_referenceMessage bytes hr, receiveBytes_badStart hb hbefore hs, assemble_nil ha]
  · refine ⟨fun ha hsoon => ?_, fun hs hgap hl => ?_⟩
    · have hbusy : receiverIdle s = false := by
        rw [← Bool.not_eq_true, receiverIdle_iff]
        exact fun h => absurd (h m hm) (by omega)
      rw [exec_referenceMessage bytes hr, receiveBytes_discarded hb (messageBefore_busy ha hbusy), assemble_nil ha]
    · have ha : s.time.assembling ≠ [] := by rintro h; simp [h] at hs
      have hnogap : messageGap s = false := by
        rw [← Bool.not_eq_true, messageGap_iff]
        rintro ⟨-, k, hk, hlt⟩
        rw [hm] at hk
        cases hk
        omega
      have hstart : (s.time.assembling ++ bytes).head? = some 0x7E := by rw [List.head?_append_of_ne_nil _ ha, hs]
      rw [exec_referenceMessage bytes hr,
        receiveBytes_partial hb (messageBefore_progress ha hnogap) hstart (by simpa using hl)]
      rfl
  · rw [exec_messageAbandoned hr, abandonMessage_eq hm ha]
  · change event _ s = _
    rw [event_running hr, if_pos (messageOld_of hw hold)]
    rfl

end Sys2Proof.Time
end

section
/-! PROOFS. What the operations of the clock leave alone: the frame view, which is the tower view without what a step or a day change
works on (the dials' run, the resolver, the standby sheet and the tallies). -/

namespace Sys2Proof.Time

open Sys2Proof Sys2Proof.Machine

variable (s : State)

/-- What the clock's own operations leave alone, but for the time and the override entries. -/
def frameView (s : State) : TowerView :=
  { towerView s with
    resolver := Resolver.cold, dials := Vector.replicate 4 Dial.cold, lastTarget := 0, status := .missing
    standby := Sheet.cold, relight := [], standbyTime := false, tallies := Vector.replicate 128 0 }

theorem frame_of_tower {s t : State} (h : towerView t = towerView s) : frameView t = frameView s := by
  unfold frameView
  rw [h]

/-! ### Dials -/

/-- Evaluating a dial works on the dials alone (R173). -/
theorem evaluate_dials (d : DialNo) : ∃ ds, evaluate d s = { s with dials := ds } := by
  unfold evaluate
  dsimp only
  split
  · exact ⟨s.dials, rfl⟩
  · exact ⟨_, rfl⟩

theorem foldl_evaluate_dials (xs : List DialNo) : ∃ ds, xs.foldl (fun acc d => evaluate d acc) s = { s with dials := ds } := by
  induction xs generalizing s with
  | nil => exact ⟨s.dials, rfl⟩
  | cons d xs ih =>
    obtain ⟨ds, h⟩ := evaluate_dials s d
    obtain ⟨ds', h'⟩ := ih { s with dials := ds }
    exact ⟨ds', by rw [List.foldl_cons, h, h']⟩

/-- Evaluating a set of dials works on the dials alone. -/
theorem evaluateSet_dials (set : DialSet) : ∃ ds, evaluateSet set s = { s with dials := ds } := foldl_evaluate_dials s _

/-- Evaluating every dial works on the dials and the mark of the last target alone (R172). -/
theorem evaluateAll_dials : ∃ ds, evaluateAll s = { s with dials := ds, lastTarget := dialTarget s.time } :=
  foldl_evaluate_dials { s with lastTarget := dialTarget s.time } _

@[simp] theorem frame_evaluateSet (set : DialSet) : frameView (evaluateSet set s) = frameView s := by
  have hsettings := settings_evaluateSet s set
  obtain ⟨ds, h⟩ := evaluateSet_dials s set
  rw [h] at hsettings ⊢
  exact congrArg (fun x => { frameView s with settings := x }) hsettings

@[simp] theorem frame_evaluateAll : frameView (evaluateAll s) = frameView s := by
  have hsettings := settings_evaluateAll s
  obtain ⟨ds, h⟩ := evaluateAll_dials s
  rw [h] at hsettings ⊢
  exact congrArg (fun x => { frameView s with settings := x }) hsettings

/-! ### The override stack (R103, R109) -/

@[simp] theorem frame_handOn (old : Effective) : frameView (handOn old s) = frameView s := by
  unfold handOn
  dsimp only
  rw [frame_of_tower (tower_settlePeal _), frame_evaluateSet]
  split <;> exact frame_of_tower (by simp)

theorem frame_setStack (es : List Override) :
    frameView (setStack es s) = { frameView s with overrides := { s.overrides with entries := es } } := frame_handOn _ _

/-- The entries that stay on the stack at a standard moment (R109). -/
def unexpired (moment : Nat) (es : List Override) : List Override := es.filter fun o => !expired moment o

/-- Where no expiry has come, nothing goes. -/
theorem expireOverrides_none (h : s.overrides.entries.any (expired (stdMoment s.time)) = false) : expireOverrides s = s := by
  simp [expireOverrides, h]

theorem unexpired_none {moment : Nat} {es : List Override} (h : es.any (expired moment) = false) : unexpired moment es = es := by
  simpa [unexpired] using h

/-- Expiry leaves the entries that have not expired, and the rest of the frame (R109). -/
theorem frame_expireOverrides :
    frameView (expireOverrides s)
      = { frameView s with overrides := { s.overrides with entries := unexpired (stdMoment s.time) s.overrides.entries } } := by
  cases h : s.overrides.entries.any (expired (stdMoment s.time)) with
  | true => rw [expireOverrides, if_pos h, frame_setStack]; rfl
  | false => rw [expireOverrides_none s h, unexpired_none h]; rfl

/-! ### Requests, sheets and steps -/

@[simp] theorem frame_requestToday (z : Bool) : frameView (requestToday z s) = frameView s := by
  unfold requestToday
  split <;> rfl

@[simp] theorem frame_requestStandby : frameView (requestStandby s) = frameView s := by
  unfold requestStandby
  split <;> rfl

@[simp] theorem frame_trigger : frameView (trigger s) = frameView s := by
  rw [trigger, frame_requestStandby, frame_requestToday]
  rfl

/-- A step's tail leaves the entries that have not expired, and the rest of the frame (R40, R109). -/
theorem frame_stepTail :
    frameView (stepTail s)
      = { frameView s with overrides := { s.overrides with entries := unexpired (stdMoment s.time) s.overrides.entries } } := by
  rw [stepTail, frame_of_tower (tower_setFlag _ _), frame_evaluateAll, frame_expireOverrides]

/-- The frame of a state that has taken a step to a time base: its time, its time settings, and the overrides left (R40, R109). -/
def steppedFrame (new : TimeBase) (s : State) : TowerView :=
  { frameView s with
    time := new
    settings := { settingsView s with time := timeSettings new }
    overrides := { s.overrides with entries := unexpired (stdMoment new) s.overrides.entries } }

/-- The tail of a step on a state whose frame has the new time gives the stepped frame. -/
theorem frame_stepTail_of {u : State} {new : TimeBase} (h : frameView u = frameView { s with time := new }) :
    frameView (stepTail u) = steppedFrame new s := by
  have htime : u.time = new := congrArg TowerView.time h
  have hover : u.overrides = s.overrides := congrArg TowerView.overrides h
  rw [frame_stepTail, h, htime, hover]
  rfl

theorem frame_stepWithin (a : Nat) (new : TimeBase) : frameView (stepWithin a new s) = steppedFrame new s := by
  refine frame_stepTail_of s ?_
  rw [frame_trigger, frame_of_tower (tower_recomputeLit _)]
  split
  · rw [frame_of_tower (tower_jumpForward _ _)]; rfl
  · rfl

theorem frame_stepToDate (forward : Bool) (new : TimeBase) : frameView (stepToDate forward new s) = steppedFrame new s := by
  refine frame_stepTail_of s ?_
  rw [frame_of_tower (tower_recomputeLit _), frame_requestStandby, frame_requestToday, frame_of_tower (tower_spentCheckAll _)]
  have hold : frameView (endOldSheet forward s) = frameView s := frame_of_tower (tower_endOldSheet _ _)
  exact congrArg
    (fun v : TowerView => { v with time := new, settings := { v.settings with time := timeSettings new } }) hold

/-- A step that stays in the range leaves the new time, derived anew, the overrides that have not expired, and the rest of the frame
(R40). -/
theorem frame_takeStep {new : TimeBase} (h : (derive new).localDate < Config.endOfRangeDay) :
    frameView (takeStep new s) = steppedFrame (derive new) s := by
  unfold takeStep
  dsimp only
  rw [if_neg (Nat.not_le.2 h)]
  split
  · exact frame_stepWithin ..
  · exact frame_stepToDate ..

theorem timeStepped_stepTail : flagSet (stepTail s).attn .timeStepped = true := by
  simp [stepTail, setFlag, flagSet, AttnFlag.bit]

theorem timeStepped_takeStep {new : TimeBase} (h : (derive new).localDate < Config.endOfRangeDay) :
    flagSet (takeStep new s).attn .timeStepped = true := by
  unfold takeStep
  dsimp only
  rw [if_neg (Nat.not_le.2 h)]
  split <;> exact timeStepped_stepTail _

/-! ### Pulses of the reference (R36 to R38) -/

theorem exec_referencePulse (hr : running s = true) : exec .referencePulse s = .next (pulse s) := event_running hr

/-- A pulse takes the pair that it makes with a message not too old. -/
theorem pulse_takes {w : WaitingMessage} (hw : s.time.waiting = some w) (h : s.elapsed ≤ w.received + 1100) :
    pulse s = takePair w.moment (dropWaiting s) := by
  simp [pulse, hw, Config.messageLife, h]

/-- A pair near a valid time is accepted (R37). -/
theorem takePair_near {m : Nat} {e : Int} (he : e = pairError s.time m) (hv : s.time.valid = true) (h1 : -2000 ≤ e) (h2 : e ≤ 2000) :
    takePair m s = updTime (acceptPair e) s := by
  subst he
  simp [takePair, hv, h1, h2]

/-- Any other pair is an outlying one (R38). -/
theorem takePair_far {m : Nat} {e : Int} (he : e = pairError s.time m) (h : s.time.valid = false ∨ e < -2000 ∨ 2000 < e) :
    takePair m s = outlyingPair m e s := by
  subst he
  have hno : ¬ (s.time.valid = true ∧ -2000 ≤ pairError s.time m ∧ pairError s.time m ≤ 2000) := by
    rintro ⟨hv, h1, h2⟩
    rcases h with h | h | h
    · rw [hv] at h; cases h
    · omega
    · omega
  exact if_neg hno

theorem agrees_iff (e : Int) (c : Option Int) : agrees e c = true ↔ ∃ x, c = some x ∧ -50 ≤ e - x ∧ e - x ≤ 50 := by
  cases c <;> simp [agrees]

/-- Settles O27: the accepted pair, the new candidate, and the reference step, which is a step of the time base. -/
theorem pulsesSteerTheTime : Obligations.PulsesSteerTheTime := by
  intro s w e hr hw hage he
  have hpulse : exec .referencePulse s = .next (takePair w.moment (dropWaiting s)) := by
    rw [exec_referencePulse s hr, pulse_takes s hw hage]
  have herr : e = pairError (dropWaiting s).time w.moment := he
  refine ⟨fun hv h1 h2 => ?_, fun hfar hcand => ?_, fun c hfar hc h1 h2 hrange => ?_⟩
  · rw [hpulse, takePair_near (dropWaiting s) herr hv h1 h2]
    rfl
  · have hno : ¬ agrees e s.time.candidate = true := by
      rw [agrees_iff]
      rintro ⟨x, hx, h1, h2⟩
      rcases hcand with hcand | ⟨c, hc, hfarc⟩
      · rw [hcand] at hx; cases hx
      · rw [hc] at hx; cases hx; omega
    rw [hpulse, takePair_far (dropWaiting s) herr hfar]
    exact congrArg _ (if_neg hno)
  · have hyes : agrees e s.time.candidate = true := (agrees_iff _ _).2 ⟨c, hc, h1, h2⟩
    have hstep : takePair w.moment (dropWaiting s) = takeStep (referenceSet w.moment (dropWaiting s).time) (dropWaiting s) := by
      rw [takePair_far (dropWaiting s) herr hfar]
      exact if_pos hyes
    have hin : (derive (referenceSet w.moment (dropWaiting s).time)).localDate < Config.endOfRangeDay := hrange
    have hframe := frame_takeStep (dropWaiting s) hin
    have htime : (takeStep (referenceSet w.moment (dropWaiting s).time) (dropWaiting s)).time
        = derive (referenceSet w.moment (dropWaiting s).time) := congrArg TowerView.time hframe
    refine ⟨_, by rw [hpulse, hstep], ?_⟩
    rw [htime]
    refine ⟨Nat.div_add_mod' _ _, rfl, rfl, rfl, rfl, rfl, rfl, rfl, rfl, timeStepped_takeStep _ hin, ?_⟩
    exact congrArg TowerView.settings hframe

end Sys2Proof.Time
end

section
/-! PROOFS. A second inside the day, and the moments at which the summer state turns (R29, R31, R33). -/

namespace Sys2Proof.Time

open Sys2Proof Sys2Proof.Machine

/-! ### The moments of the summer rules (section 2.3, R51) -/

/-- A day of the range by the days of its month. -/
theorem day_in_month {D : Nat} (h : D < 146097) :
    1 ≤ monthOf D ∧ monthOf D ≤ 12 ∧ 1 ≤ dayOf D ∧ dayOf D ≤ monthLength (yearOf D) (monthOf D) ∧
      D = dayNumber (yearOf D) (monthOf D) 1 + (dayOf D - 1) := by
  obtain ⟨hvalid, hnumber⟩ := date_of_dayNumber h
  simp only [validDate, Bool.and_eq_true, decide_eq_true_eq] at hvalid
  obtain ⟨⟨⟨⟨⟨-, -⟩, hm⟩, hm'⟩, hd⟩, hd'⟩ := hvalid
  refine ⟨hm, hm', hd, hd', ?_⟩
  rw [← dayNumber_day _ _ _ hd, hnumber]

/-- Every month has 28 to 31 days. -/
theorem monthLength_bounds (y : Nat) {m : Nat} (h : 1 ≤ m) (h' : m ≤ 12) : 28 ≤ monthLength y m ∧ monthLength y m ≤ 31 := by
  unfold monthLength
  interval_cases m <;> simp [daysBefore]
  split <;> omega

/-- A day of the range lies in a month of its year just where it lies between the month's first and last days. -/
theorem monthOf_eq_iff {D m : Nat} (h : D < 146097) (hm : 1 ≤ m) (hm' : m ≤ 12) :
    monthOf D = m ↔
      dayNumber (yearOf D) m 1 ≤ D ∧ D < dayNumber (yearOf D) m 1 + monthLength (yearOf D) m := by
  obtain ⟨h1, h2, hd, hd', hD⟩ := day_in_month h
  refine ⟨fun he => ?_, fun ⟨hlo, hhi⟩ => ?_⟩
  · subst he
    omega
  · have hnext := dayNumber_next_month (yearOf D) m hm hm'
    have hnext' := dayNumber_next_month (yearOf D) (monthOf D) h1 h2
    rcases Nat.lt_trichotomy (monthOf D) m with hc | hc | hc
    · have := dayNumber_month_mono (y := yearOf D) (show 1 ≤ monthOf D + 1 by omega) (show monthOf D + 1 ≤ m from hc) (by omega)
      omega
    · exact hc
    · have := dayNumber_month_mono (y := yearOf D) (show 1 ≤ m + 1 by omega) (show m + 1 ≤ monthOf D from hc) (by omega)
      omega

/-- A summer rule's date is the nth or the last day of its weekday in its month (section 2.3, R51). -/
theorem ruleDay_eq_iff {r : SummerRule} {D : Nat} (hr : RuleInRange r) (h : D < 146097) :
    D = ruleDay (yearOf D) r ↔
      monthOf D = r.month ∧ weekday D = r.weekday ∧
        (if r.nth = 5 then monthLength (yearOf D) r.month < dayOf D + 7 else (dayOf D + 6) / 7 = r.nth) := by
  obtain ⟨hm, hm', hn, hn', hw, -⟩ := hr
  obtain ⟨-, -, hd, -, hD⟩ := day_in_month h
  have hlen := monthLength_bounds (yearOf D) hm hm'
  have hmonth := monthOf_eq_iff h hm hm'
  have hfirst : monthOf D = r.month → D = dayNumber (yearOf D) r.month 1 + (dayOf D - 1) := fun he => he ▸ hD
  by_cases h5 : r.nth = 5
  · rw [if_pos h5]
    have hlast := dayNumber_day (yearOf D) r.month (monthLength (yearOf D) r.month) (by omega)
    have hpos : (onOrBefore r.weekday (dayNumber (yearOf D) r.month (monthLength (yearOf D) r.month))).toNat = D ↔
        (D : Int) = onOrBefore r.weekday (dayNumber (yearOf D) r.month (monthLength (yearOf D) r.month)) := by
      unfold onOrBefore weekday
      omega
    rw [ruleDay, if_neg (by omega), eq_comm, hpos, onOrBefore_iff hw]
    constructor
    · rintro ⟨hwd, hle, hlt⟩
      have he := hmonth.2 ⟨by omega, by omega⟩
      have := hfirst he
      exact ⟨he, hwd, by omega⟩
    · rintro ⟨he, hwd, hlt⟩
      have := hfirst he
      obtain ⟨hlo, hhi⟩ := hmonth.1 he
      exact ⟨hwd, by omega, by omega⟩
  · rw [if_neg h5]
    have hanchor := dayNumber_day (yearOf D) r.month (1 + 7 * (r.nth - 1)) (by omega)
    rw [ruleDay, if_pos (by omega), onOrAfter_iff hw]
    constructor
    · rintro ⟨hwd, hle, hlt⟩
      have he := hmonth.2 ⟨by omega, by omega⟩
      have := hfirst he
      exact ⟨he, hwd, by omega⟩
    · rintro ⟨he, hwd, hnth⟩
      have := hfirst he
      exact ⟨hwd, by omega, by omega⟩

/-- A second of the range is a rule moment of its year just where it is one by the rule's own words. -/
theorem ruleMoment_eq_iff {r : SummerRule} {D S : Nat} (hr : RuleInRange r) (h : D < 146097) (hS : S < 86400) :
    D * 86400 + S = ruleMoment (yearOf D) r ↔ IsRuleMoment r D S := by
  obtain ⟨-, -, -, -, -, hhour⟩ := id hr
  have hsplit : D * 86400 + S = ruleMoment (yearOf D) r ↔ D = ruleDay (yearOf D) r ∧ S = r.hour * 3600 := by
    unfold ruleMoment
    omega
  rw [hsplit, ruleDay_eq_iff hr h, IsRuleMoment, and_assoc, and_assoc]

/-- Two rules of different months have no moment in common. -/
theorem ruleMoments_apart {r r' : SummerRule} {D S : Nat} (h : r.month ≠ r'.month) (hr : IsRuleMoment r D S) :
    ¬ IsRuleMoment r' D S := fun hr' => h (hr.1.symm.trans hr'.1)

/-! ### The counters (R29) -/

variable {s : State}

/-- The day and the second that follow a standard moment. -/
def nextMoment (t : TimeBase) : Nat × Nat := if 86399 ≤ t.stdSec then (t.stdDay + 1, 0) else (t.stdDay, t.stdSec + 1)

theorem advance_moment (t : TimeBase) : ((advance t).stdDay, (advance t).stdSec) = nextMoment t := by
  unfold nextMoment
  by_cases h : 86399 ≤ t.stdSec <;> simp [advance, h]

theorem nextMoment_second (t : TimeBase) : (nextMoment t).2 < 86400 := by
  unfold nextMoment
  split
  · exact Nat.succ_pos _
  · dsimp only; omega

/-- The summer state after a second, by the moment that the second reaches (R33). -/
theorem advance_summer (t : TimeBase) (D S : Nat) (h : (D, S) = nextMoment t) :
    (advance t).summer =
      if t.summerEnable = false then t.summer
      else if D * 86400 + S = ruleMoment (yearOf D) t.startRule then true
      else if D * 86400 + S = ruleMoment (yearOf D) t.endRule then false
      else t.summer := by
  rw [← advance_moment t, Prod.mk.injEq] at h
  obtain ⟨hD, hS⟩ := h
  have hmoment : stdMoment (advance t) = D * 86400 + S := by rw [stdMoment, hD, hS]
  rw [← hmoment, hD]
  rfl

/-- The summer state turns on at the start rule's moment, off at the end rule's, and there alone (R33). -/
theorem summerTurns_iff {t : TimeBase} {D S : Nat} (h : (D, S) = nextMoment t) (hD : D < 146097) (h1 : RuleInRange t.startRule)
    (h2 : RuleInRange t.endRule) (h3 : t.startRule.month ≠ t.endRule.month) :
    summerTurns t = true ↔ t.summerEnable = true ∧
      (IsRuleMoment t.startRule D S ∧ t.summer = false ∨ IsRuleMoment t.endRule D S ∧ t.summer = true) := by
  have hS : S < 86400 := by
    have := nextMoment_second t
    rwa [← h] at this
  have hapart := ruleMoments_apart (D := D) (S := S) h3
  rw [← ruleMoment_eq_iff h1 hD hS, ← ruleMoment_eq_iff h2 hD hS] at hapart ⊢
  rw [summerTurns, advance_summer t D S h, bne_iff_ne]
  cases t.summerEnable with
  | false => simp
  | true =>
    by_cases hs : D * 86400 + S = ruleMoment (yearOf D) t.startRule
    · cases t.summer <;> simp [eq_true hs, hapart hs]
    · by_cases he : D * 86400 + S = ruleMoment (yearOf D) t.endRule
      · cases t.summer <;> simp [hs, eq_true he]
      · cases t.summer <;> simp [hs, he]

theorem rangeEnds_false (t : TimeBase) (h : rangeEnds t = false) : (nextMoment t).1 < 146097 := by
  rw [rangeEnds, Bool.or_eq_false_iff, decide_eq_false_iff_not] at h
  have := h.1
  rw [← advance_moment t]
  simpa [Config.endOfRangeDay] using this

/-! ### The second itself -/

/-- The state after a second inside the day, before the dials are looked at (R29). -/
def secondPassed (s : State) : State :=
  noteInstant
    { s with
      elapsed := s.elapsed + (secondLength s.time.slew - s.time.fraction)
      time := advance s.time }

/-- A second inside the day notes its instant, and a turn of the summer state moves the dial target (R29, R33). -/
theorem endSecond_inDay (hr : rangeEnds s.time = false) (hd : dayEnds s.time = false) :
    endSecond s = if summerTurns s.time then evaluateAll (secondPassed s) else secondPassed s := by
  simp [endSecond, hr, hd, secondPassed]

/-- A second inside the day, up to the dials. -/
theorem endSecond_dials (hr : rangeEnds s.time = false) (hd : dayEnds s.time = false) :
    ∃ ds n, endSecond s = { secondPassed s with dials := ds, lastTarget := n } ∧
      (summerTurns s.time = false → ds = s.dials ∧ n = s.lastTarget) ∧
      (summerTurns s.time = true → n = dialTarget (advance s.time)) := by
  rw [endSecond_inDay hr hd]
  cases ht : summerTurns s.time with
  | false => exact ⟨s.dials, s.lastTarget, rfl, fun _ => ⟨rfl, rfl⟩, fun h => by cases h⟩
  | true =>
    obtain ⟨ds, h⟩ := evaluateAll_dials (secondPassed s)
    exact ⟨ds, _, h, fun h => (by cases h), fun _ => rfl⟩

theorem summer_of_turn (t : TimeBase) (h : summerTurns t = true) : (advance t).summer = !t.summer := by
  simpa [summerTurns, Bool.eq_not] using h

theorem summer_of_noTurn (t : TimeBase) (h : summerTurns t = false) : (advance t).summer = t.summer := by
  simpa [summerTurns] using h

theorem exec_newSecond (hr : running s = true) : exec .newSecond s = .next (endSecond s) := event_running hr

theorem exec_summerChange (hr : running s = true) (h : summerTurns s.time = true) :
    exec .summerChange s = .next (endSecond s) := by
  change event _ s = _
  rw [event_running hr, if_pos h]

/-- Settles O24: the counters by `advance`, the frame by `endSecond_dials`, the summer turns by `summerTurns_iff`. -/
theorem secondsCount : Obligations.SecondsCount := by
  intro s hrun hrange hday
  obtain ⟨ds, n, heq, hsame, hturn⟩ := endSecond_dials hrange hday
  refine ⟨⟨endSecond s, exec_newSecond hrun, ?_⟩, fun ht => ⟨endSecond s, exec_summerChange hrun ht, ?_⟩, ?_⟩
  · rw [heq]
    refine ⟨rfl, rfl, rfl, rfl, advance_moment s.time, rfl, rfl, rfl, rfl, rfl, rfl, rfl, fun hno => ?_⟩
    obtain ⟨rfl, rfl⟩ := hsame hno
    exact ⟨summer_of_noTurn _ hno, rfl⟩
  · have hsettings : settingsView (endSecond s) = settingsView s := settings_endSecond s
    rw [heq] at hsettings ⊢
    exact ⟨summer_of_turn _ ht, rfl, hturn ht, rfl, hsettings⟩
  · intro D S hDS h1 h2 h3
    have hD := rangeEnds_false _ hrange
    exact summerTurns_iff hDS (by rwa [nextMoment, ← hDS] at hD) h1 h2 h3

end Sys2Proof.Time
end

section
/-! PROOFS. Work on the sheets while no request waits for load: it leaves the tower view, the bells, the peal and the lanes as they were,
flags are set and never cleared, and the wanted levels follow the lit-record set (R84, R185). -/

namespace Sys2Proof.Time

open Sys2Proof Sys2Proof.Machine

variable {r s t : State}

/-! ### Wanted levels (R185) -/

/-- Every zone's wanted level is that of the governing scene (R185). -/
def WantedMet (s : State) : Prop := ∀ z, (s.lights.zones.get z).wanted = wantedLevel s.lights (governingScene s) z

/-- The tower view holds every record image. -/
theorem image_of_tower (h : towerView t = towerView s) (i : SlotNo) : (getSlot t i).image = (getSlot s i).image := by
  have := congrArg (fun v : TowerView => v.settings.images.get i) h
  simpa [towerView, settingsView, getSlot] using this

theorem slotRank_of_images (h : ∀ i, (getSlot t i).image = (getSlot s i).image) : slotRank t = slotRank s := by
  funext i
  rw [slotRank, slotRank, h i]

/-- The governing scene hangs on the forced scene, the lit-record set and the images alone (R185). -/
theorem governingScene_congr (hs : (effective t).scene = (effective s).scene) (hl : t.lanes.lit = s.lanes.lit)
    (hi : ∀ i, (getSlot t i).image = (getSlot s i).image) : governingScene t = governingScene s := by
  unfold governingScene governingLit
  rw [slotRank_of_images hi, hs, hl]
  simp only [hi]

theorem wantedLevel_congr {l l' : Lights} (h : l'.scenes = l.scenes) (scene : Option SceneNo) (z : ZoneNo) :
    wantedLevel l' scene z = wantedLevel l scene z := by
  unfold wantedLevel
  rw [h]

theorem restoreStep_kept {l l' : Lights} (h : restoreStep l = some l') :
    l'.waiting = l.waiting ∧ ∀ z, (l'.zones.get z).wanted = (l.zones.get z).wanted := by
  unfold restoreStep at h
  split at h
  · cases h
  · dsimp only at h
    split at h
    · cases h
      refine ⟨rfl, fun z => ?_⟩
      simp only [updZone, get_modify]
      split
      · next hz => subst hz; rfl
      · rfl
    · cases h

/-- Restoration raises present levels and leaves the wanted ones (R189). -/
theorem restoreSteps_kept (fuel : Nat) (l : Lights) :
    (restoreSteps fuel l).waiting = l.waiting ∧ ∀ z, ((restoreSteps fuel l).zones.get z).wanted = (l.zones.get z).wanted := by
  induction fuel generalizing l with
  | zero => exact ⟨rfl, fun _ => rfl⟩
  | succ n ih =>
    rw [restoreSteps]
    split
    · exact ⟨rfl, fun _ => rfl⟩
    · next l' h =>
      obtain ⟨hw, hz⟩ := restoreStep_kept h
      obtain ⟨hw', hz'⟩ := ih l'
      exact ⟨hw'.trans hw, fun z => (hz' z).trans (hz z)⟩

theorem scenes_restoreSteps (fuel : Nat) (l : Lights) : (restoreSteps fuel l).scenes = l.scenes :=
  congrArg (fun c => c.2.1) (lightsConfig_restoreSteps fuel l)

/-- With no request to retry, the retries change nothing (R188). -/
theorem retryWaiting_none (h : s.lights.waiting = []) : retryWaiting s = s := by
  simp [retryWaiting, h]

theorem restoration_lights (s : State) :
    ∃ l, restoration s = setLights l s ∧ l.waiting = s.lights.waiting ∧ l.scenes = s.lights.scenes ∧
      ∀ z, (l.zones.get z).wanted = (s.lights.zones.get z).wanted := by
  unfold restoration
  split
  · obtain ⟨hw, hz⟩ := restoreSteps_kept stepLimit s.lights
    exact ⟨_, rfl, hw, scenes_restoreSteps _ _, hz⟩
  · exact ⟨s.lights, rfl, rfl, rfl, fun _ => rfl⟩

/-- Finding the wanted levels works on the zones alone where no request waits, and leaves each zone's wanted level that of the governing
scene (R185). -/
theorem findWanted_lights (h : s.lights.waiting = []) :
    ∃ l, findWanted s = setLights l s ∧ l.waiting = [] ∧ WantedMet (setLights l s) := by
  unfold findWanted
  dsimp only
  split
  · next hsame =>
    have hmet : WantedMet s := fun z => eq_of_beq (List.all_eq_true.1 hsame z (mem_allZones z))
    exact ⟨s.lights, rfl, h, hmet⟩
  · have hlowered : ∀ c : Bool, (if c then retryWaiting (setLights (applyWanted (governingScene s) s.lights) s)
        else setLights (applyWanted (governingScene s) s.lights) s) = setLights (applyWanted (governingScene s) s.lights) s := by
      intro c
      rw [retryWaiting_none (s := setLights (applyWanted (governingScene s) s.lights) s) h, ite_self]
    rw [hlowered]
    obtain ⟨l, hl, hw, hs, hz⟩ := restoration_lights (setLights (applyWanted (governingScene s) s.lights) s)
    refine ⟨l, hl, hw.trans h, fun z => ?_⟩
    have hscene : governingScene (setLights l s) = governingScene s := governingScene_congr rfl rfl fun _ => rfl
    have hlevel : wantedLevel l (governingScene s) z = wantedLevel s.lights (governingScene s) z := wantedLevel_congr hs _ _
    rw [hscene]
    refine Eq.trans ?_ hlevel.symm
    simpa [applyWanted] using hz z

/-! ### Calm work -/

/-- Work on the sheets that leaves the tower, the bells, the peal and the lanes alone, sets flags, and finds the wanted levels anew
wherever it changes the lit-record set. -/
structure Calm (r t : State) : Prop where
  tower : towerView t = towerView r
  bells : t.bells = r.bells
  peal : t.peal = r.peal
  lane : ∀ lane, laneKey t lane = laneKey r lane
  waiting : t.lights.waiting = r.lights.waiting
  lit : (t.lanes.lit = r.lanes.lit ∧ t.lights = r.lights) ∨ WantedMet t
  flags : ∀ f, flagSet r.attn f = true → flagSet t.attn f = true

theorem WantedMet.of_same (h : WantedMet s) (hs : (effective t).scene = (effective s).scene) (hlit : t.lanes.lit = s.lanes.lit)
    (hlights : t.lights = s.lights) (hi : ∀ i, (getSlot t i).image = (getSlot s i).image) : WantedMet t := by
  intro z
  rw [governingScene_congr hs hlit hi, hlights]
  exact h z

theorem scene_of_overrides (h : t.overrides = s.overrides) : (effective t).scene = (effective s).scene := by
  unfold effective
  rw [h]

theorem Calm.overrides (h : Calm s t) : t.overrides = s.overrides := congrArg TowerView.overrides h.tower
theorem Calm.time (h : Calm s t) : t.time = s.time := congrArg TowerView.time h.tower
theorem Calm.mains (h : Calm s t) : t.mains = s.mains := congrArg TowerView.mains h.tower

theorem Calm.refl (s : State) : Calm s s := ⟨rfl, rfl, rfl, fun _ => rfl, rfl, Or.inl ⟨rfl, rfl⟩, fun _ h => h⟩

theorem Calm.trans (h : Calm r s) (h' : Calm s t) : Calm r t where
  tower := h'.tower.trans h.tower
  bells := h'.bells.trans h.bells
  peal := h'.peal.trans h.peal
  lane lane := (h'.lane lane).trans (h.lane lane)
  waiting := h'.waiting.trans h.waiting
  flags f hf := h'.flags f (h.flags f hf)
  lit := by
    rcases h'.lit with ⟨hlit, hlights⟩ | hmet
    · rcases h.lit with ⟨hlit', hlights'⟩ | hmet
      · exact Or.inl ⟨hlit.trans hlit', hlights.trans hlights'⟩
      · exact Or.inr (hmet.of_same (scene_of_overrides h'.overrides) hlit hlights (image_of_tower h'.tower))
    · exact Or.inr hmet

theorem Calm.foldl {α : Type} {f : State → α → State} (hf : ∀ u x, Calm u (f u x)) (xs : List α) (s : State) :
    Calm s (xs.foldl f s) := by
  induction xs generalizing s with
  | nil => exact Calm.refl s
  | cons x xs ih => exact (hf s x).trans (ih (f s x))

theorem flagSet_setFlag (f g : AttnFlag) (h : flagSet s.attn f = true) : flagSet (setFlag g s).attn f = true := by
  simp only [flagSet, setFlag, BitVec.getLsbD_or] at h ⊢
  rw [h, Bool.true_or]

theorem flagSet_setFlag_self (g : AttnFlag) : flagSet (setFlag g s).attn g = true := by
  cases g <;> simp [setFlag, flagSet, AttnFlag.bit]

theorem calm_updToday (f : List Entry → List Entry) : Calm s (updToday f s) :=
  ⟨rfl, rfl, rfl, fun lane => by cases lane <;> rfl, rfl, Or.inl ⟨rfl, rfl⟩, fun _ h => h⟩

theorem calm_setFlagIf (c : Bool) (g : AttnFlag) : Calm s (setFlagIf c g s) := by
  cases c with
  | false => exact Calm.refl s
  | true =>
    exact ⟨rfl, rfl, rfl, fun lane => by cases lane <;> rfl, rfl, Or.inl ⟨rfl, rfl⟩, fun _ h => flagSet_setFlag _ _ h⟩

theorem calm_updSlot (i : SlotNo) (f : Slot → Slot) (h : ∀ x, (f x).image = x.image) (h' : ∀ x, (f x).locked = x.locked) :
    Calm s (updSlot i f s) :=
  ⟨tower_updSlot _ _ _ h h', rfl, rfl, fun lane => by cases lane <;> rfl, rfl, Or.inl ⟨rfl, rfl⟩, fun _ h => h⟩

theorem calm_writeOutcome (i : SlotNo) (st : EntryState) (day : Nat) : Calm s (writeOutcome i st day s) := by
  unfold writeOutcome
  split
  · exact Calm.refl s
  · exact calm_updSlot _ _ (fun x => by cases st <;> rfl) fun x => by cases st <;> rfl

theorem calm_spentCheck (i : SlotNo) : Calm s (spentCheck i s) := by
  unfold spentCheck
  split
  · exact Calm.refl s
  · split
    · exact calm_updSlot _ _ (fun _ => rfl) fun _ => rfl
    · exact Calm.refl s

theorem calm_spentCheckAll (s : State) : Calm s (spentCheckAll s) := Calm.foldl (fun _ i => calm_spentCheck i) _ _

theorem calm_conclude (k : Key) (st : EntryState) : Calm s (conclude k st s) := by
  unfold conclude
  split
  · exact Calm.refl s
  · exact ((calm_updToday _).trans (calm_writeOutcome _ _ _)).trans (calm_setFlagIf _ _)

theorem calm_finalise (k : Key) (st : EntryState) : Calm s (finalise k st s) := by
  unfold finalise
  split
  · exact Calm.refl s
  · exact (calm_conclude _ _).trans (calm_spentCheck _)

theorem calm_concludeAll (ks : List Key) (st : EntryState) (s : State) : Calm s (concludeAll ks st s) :=
  Calm.foldl (fun _ k => calm_conclude k st) _ _

theorem calm_finaliseAll (ks : List Key) (st : EntryState) (s : State) : Calm s (finaliseAll ks st s) :=
  Calm.foldl (fun _ k => calm_finalise k st) _ _

/-- A lit-record set is handed to the lighting unit: the set and the zones are all that changes (R84). -/
theorem setLit_lights (h : s.lights.waiting = []) (lit : Vector Bool 128) :
    ∃ l, setLit lit s = { s with lanes := { s.lanes with lit := lit }, lights := l } ∧ Calm s (setLit lit s) := by
  unfold setLit
  split
  · next hsame => exact ⟨s.lights, by rw [hsame], Calm.refl s⟩
  · obtain ⟨l, hl, hw, hmet⟩ := findWanted_lights (s := { s with lanes := { s.lanes with lit := lit } }) h
    rw [hl]
    refine ⟨l, rfl, ?_, rfl, rfl, fun lane => by cases lane <;> rfl, hw.trans h.symm, Or.inr hmet, fun _ h => h⟩
    rw [← hl, tower_findWanted, tower_lanes]

theorem calm_setLit (h : s.lights.waiting = []) (lit : Vector Bool 128) : Calm s (setLit lit s) :=
  (setLit_lights h lit).choose_spec.2

theorem setLit_sheets (h : s.lights.waiting = []) (lit : Vector Bool 128) : (setLit lit s).sheets = s.sheets := by
  obtain ⟨l, hl, -⟩ := setLit_lights h lit
  rw [hl]

theorem setLit_table (h : s.lights.waiting = []) (lit : Vector Bool 128) : (setLit lit s).table = s.table := by
  obtain ⟨l, hl, -⟩ := setLit_lights h lit
  rw [hl]

theorem calm_lightEffect (h : s.lights.waiting = []) (k : Key) : Calm s (lightEffect k s) := by
  unfold lightEffect
  repeat' split
  all_goals first | exact calm_setLit h _ | exact Calm.refl s

theorem lightEffect_same (h : s.lights.waiting = []) (k : Key) :
    (lightEffect k s).sheets = s.sheets ∧ (lightEffect k s).table = s.table := by
  unfold lightEffect
  repeat' split
  all_goals first | exact ⟨setLit_sheets h _, setLit_table h _⟩ | exact ⟨rfl, rfl⟩

theorem calm_soundingDue (e : Entry) : Calm s (soundingDue e s) := by
  unfold soundingDue
  repeat' split
  all_goals first | exact calm_finalise _ _ | exact Calm.refl s

theorem calm_becomeDue (h : s.lights.waiting = []) (e : Entry) : Calm s (becomeDue e s) := by
  have hdue : Calm s (updToday (setState e.key .due) s) := calm_updToday _
  unfold becomeDue
  dsimp only
  split
  · have hdone := hdue.trans (calm_finalise e.key .done)
    exact hdone.trans (calm_lightEffect (hdone.waiting.trans h) _)
  · split
    · exact hdue.trans (calm_finalise _ _)
    · exact hdue.trans (calm_updToday _)
  all_goals first | exact hdue.trans (calm_soundingDue e) | exact hdue

theorem calm_becomeDueAll (ks : List Key) (h : s.lights.waiting = []) : Calm s (becomeDueAll ks s) := by
  induction ks generalizing s with
  | nil => exact Calm.refl s
  | cons k ks ih =>
    rw [becomeDueAll]
    split
    · exact ih h
    · split
      · next e _ _ =>
        have hstep := calm_becomeDue h e
        exact hstep.trans (ih (hstep.waiting.trans h))
      · exact ih h

theorem calm_fallDueNow (h : s.lights.waiting = []) : Calm s (fallDueNow s) := calm_becomeDueAll _ h

end Sys2Proof.Time
end

section
/-! PROOFS. What becomes of the entries of today's sheet, and of the outcome fields of their records, when a list of them ends or falls due
(R11, R76, R79 to R83, R91). -/

namespace Sys2Proof.Time

open Sys2Proof Sys2Proof.Machine

variable {r s t : State}

/-- The entries of today's sheet. -/
abbrev entriesOf (s : State) : List Entry := s.sheets.today.entries

/-! ### Keys -/

theorem findEntry_mem {es : List Entry} {k : Key} {e : Entry} (h : findEntry k es = some e) : e ∈ es ∧ e.key = k := find_mem h

theorem findEntry_isSome {es : List Entry} {e : Entry} (h : e ∈ es) : ∃ x, findEntry e.key es = some x := by
  rw [← Option.isSome_iff_exists, findEntry, List.find?_isSome]
  exact ⟨e, h, beq_self_eq_true _⟩

/-- Where no key comes twice, an entry is named by its key (R65). -/
theorem eq_of_key {es : List Entry} (hn : (es.map Entry.key).Nodup) {a b : Entry} (ha : a ∈ es) (hb : b ∈ es) (h : a.key = b.key) :
    a = b := List.inj_on_of_nodup_map hn ha hb h

theorem findEntry_self {es : List Entry} (hn : (es.map Entry.key).Nodup) {e : Entry} (h : e ∈ es) : findEntry e.key es = some e := by
  obtain ⟨x, hx⟩ := findEntry_isSome h
  obtain ⟨hmem, hkey⟩ := findEntry_mem hx
  rw [hx, eq_of_key hn hmem h hkey]

theorem mem_keysWhere {test : Entry → Bool} (hn : ((entriesOf s).map Entry.key).Nodup) {e : Entry} (h : e ∈ entriesOf s) :
    e.key ∈ keysWhere test s ↔ test e = true := by
  rw [keysWhere, List.mem_map]
  constructor
  · rintro ⟨x, hx, hkey⟩
    obtain ⟨hmem, htest⟩ := List.mem_filter.1 hx
    rwa [eq_of_key hn hmem h hkey] at htest
  · exact fun htest => ⟨e, List.mem_filter.2 ⟨h, htest⟩, rfl⟩

theorem of_mem_keysWhere {test : Entry → Bool} {k : Key} (h : k ∈ keysWhere test s) :
    ∃ e ∈ entriesOf s, e.key = k ∧ test e = true := by
  obtain ⟨e, he, hkey⟩ := List.mem_map.1 h
  obtain ⟨hmem, htest⟩ := List.mem_filter.1 he
  exact ⟨e, hmem, hkey, htest⟩

theorem nodup_keysWhere (test : Entry → Bool) (hn : ((entriesOf s).map Entry.key).Nodup) : (keysWhere test s).Nodup :=
  (List.filter_sublist.map _).nodup hn

/-! ### Records: what their outcome fields show -/

/-- What is read of a slot's outcome: whether it holds a record, and its outcome fields (R10). -/
def slotView (x : Slot) : Bool × LastOutcome × Nat × Nat × Option Nat :=
  (decide (x.state = .empty), x.last, x.performed, x.missed, x.lastDay)

theorem nonempty_of_view {x y : Slot} (h : slotView y = slotView x) (hx : x.state ≠ .empty) : y.state ≠ .empty := by
  have hstate : decide (y.state = .empty) = decide (x.state = .empty) := congrArg Prod.fst h
  simpa [hx] using hstate

theorem fields_of_view {x y : Slot} (h : slotView y = slotView x) :
    y.last = x.last ∧ y.performed = x.performed ∧ y.missed = x.missed ∧ y.lastDay = x.lastDay := by
  simp only [slotView, Prod.mk.injEq] at h
  exact h.2

/-- An outcome shown hangs on the outcome fields alone. -/
theorem outcomeShown_congr {a a' b b' : Slot} {st : EntryState} {day : Nat} (h : OutcomeShown a b st day)
    (ha : slotView a' = slotView a) (hb : slotView b' = slotView b) : OutcomeShown a' b' st day := by
  obtain ⟨-, ha2, ha3, -⟩ := fields_of_view ha
  obtain ⟨hb1, hb2, hb3, hb4⟩ := fields_of_view hb
  cases st <;> simp_all [OutcomeShown]

/-- Writing an outcome gives a record that shows it (R11). -/
theorem outcomeShown_fields (x : Slot) (st : EntryState) (day : Nat) : OutcomeShown x (outcomeFields st day x) st day := by
  cases st <;> simp [OutcomeShown, outcomeFields, satAdd]

theorem outcomeFields_state (x : Slot) (st : EntryState) (day : Nat) : (outcomeFields st day x).state = x.state := by
  cases st <;> rfl

theorem writeOutcome_other (st : EntryState) (day : Nat) {i j : SlotNo} (h : i ≠ j) :
    getSlot (writeOutcome i st day s) j = getSlot s j := by
  unfold writeOutcome
  split
  · rfl
  · simp [getSlot, h]

theorem writeOutcome_own (i : SlotNo) (st : EntryState) (day : Nat) (h : (getSlot s i).state ≠ .empty) :
    getSlot (writeOutcome i st day s) i = outcomeFields st day (getSlot s i) := by
  rw [writeOutcome, if_neg h]
  simp [getSlot]

/-- The check of R21 makes a LIVE record SPENT and writes no outcome. -/
theorem spentCheck_view (i j : SlotNo) : slotView (getSlot (spentCheck i s) j) = slotView (getSlot s j) := by
  unfold spentCheck
  split
  · rfl
  · split
    · next h =>
      simp only [getSlot, updSlot_table, get_modify] at h ⊢
      split
      · next hij => subst hij; simp [slotView, h]
      · rfl
    · rfl

theorem spentCheckAll_view (s : State) (j : SlotNo) : slotView (getSlot (spentCheckAll s) j) = slotView (getSlot s j) :=
  foldl_view (fun s => slotView (getSlot s j)) _ (fun _ i => spentCheck_view i j) _ _

theorem spentCheck_sheets (i : SlotNo) : (spentCheck i s).sheets = s.sheets := by
  unfold spentCheck
  split
  · rfl
  · split <;> rfl

theorem spentCheckAll_sheets (s : State) : (spentCheckAll s).sheets = s.sheets :=
  foldl_view State.sheets _ (fun _ i => spentCheck_sheets i) _ _

/-! ### A list of entries is worked on -/

/-- The sheet with every entry's state given by a function. -/
def restate (g : Entry → EntryState) (es : List Entry) : List Entry := es.map fun e => { e with state := g e }

theorem setState_eq_restate (k : Key) (st : EntryState) (es : List Entry) :
    setState k st es = restate (fun e => if e.key = k then st else e.state) es := by
  unfold setState restate
  refine List.map_congr_left fun e _ => ?_
  by_cases h : e.key = k <;> simp [h]

theorem keys_restate (g : Entry → EntryState) (es : List Entry) : (restate g es).map Entry.key = es.map Entry.key := by
  simp [restate]

/-- Work on the entries of some keys: the sheet keeps its entries but for their states, those of other keys are as they were, and so are
the outcome fields of slots that none of the keys names. -/
structure Touched (ks : List Key) (s t : State) : Prop where
  entries : ∃ g : Entry → EntryState, entriesOf t = restate g (entriesOf s) ∧ ∀ e, e.key ∉ ks → g e = e.state
  slots : ∀ i, (∀ k ∈ ks, k.slot ≠ i) → slotView (getSlot t i) = slotView (getSlot s i)
  held : ∀ i, (getSlot s i).state ≠ .empty → (getSlot t i).state ≠ .empty

theorem restate_state (es : List Entry) : restate Entry.state es = es := List.map_id' es

theorem Touched.of_same (ks : List Key) (h : entriesOf t = entriesOf s) (hs : ∀ i, slotView (getSlot t i) = slotView (getSlot s i)) :
    Touched ks s t :=
  ⟨⟨Entry.state, h.trans (restate_state _).symm, fun _ _ => rfl⟩, fun i _ => hs i, fun i => nonempty_of_view (hs i)⟩

theorem Touched.refl (ks : List Key) (s : State) : Touched ks s s := Touched.of_same ks rfl fun _ => rfl

theorem Touched.trans {ks ks' : List Key} (h : Touched ks r s) (h' : Touched ks' s t) : Touched (ks ++ ks') r t where
  entries := by
    obtain ⟨g, hg, hkeep⟩ := h.entries
    obtain ⟨g', hg', hkeep'⟩ := h'.entries
    refine ⟨fun e => g' { e with state := g e }, ?_, fun e hk => ?_⟩
    · rw [hg', hg]
      simp [restate, Function.comp_def]
    · rw [List.mem_append, not_or] at hk
      exact (hkeep' { e with state := g e } hk.2).trans (hkeep e hk.1)
  slots i hi :=
    (h'.slots i fun k hk => hi k (List.mem_append_right _ hk)).trans (h.slots i fun k hk => hi k (List.mem_append_left _ hk))
  held i hi := h'.held i (h.held i hi)

/-- The keys stay as they are. -/
theorem Touched.keys {ks : List Key} (h : Touched ks s t) : (entriesOf t).map Entry.key = (entriesOf s).map Entry.key := by
  obtain ⟨g, hg, -⟩ := h.entries
  rw [hg, keys_restate]

theorem Touched.nodup {ks : List Key} (h : Touched ks s t) (hn : ((entriesOf s).map Entry.key).Nodup) :
    ((entriesOf t).map Entry.key).Nodup := by rwa [h.keys]

/-- An entry of another key stays as it is. -/
theorem Touched.other {ks : List Key} (h : Touched ks s t) {e : Entry} (he : e ∈ entriesOf s) (hk : e.key ∉ ks) : e ∈ entriesOf t := by
  obtain ⟨g, hg, hkeep⟩ := h.entries
  rw [hg]
  exact List.mem_map.2 ⟨e, he, by rw [hkeep e hk]⟩

/-- Every entry afterwards is one from before in a state, in its own where its key is another. -/
theorem Touched.back {ks : List Key} (h : Touched ks s t) {x : Entry} (hx : x ∈ entriesOf t) :
    ∃ e ∈ entriesOf s, x = { e with state := x.state } ∧ (e.key ∉ ks → x = e) := by
  obtain ⟨g, hg, hkeep⟩ := h.entries
  rw [hg] at hx
  obtain ⟨e, he, rfl⟩ := List.mem_map.1 hx
  exact ⟨e, he, rfl, fun hk => by rw [hkeep e hk]⟩

theorem Touched.foldl {f : Key → State → State} (hf : ∀ k u, Touched [k] u (f k u)) (ks : List Key) (s : State) :
    Touched ks s (ks.foldl (fun acc k => f k acc) s) := by
  induction ks generalizing s with
  | nil => exact Touched.refl [] s
  | cons k ks ih => exact (hf k s).trans (ih (f k s))

/-! ### Entries end (R11, R91) -/

/-- An operation that brings the entry of a key to a state: it sets its state, writes its outcome, and sets the flag of a MISSED one. -/
structure EndsEntry (st : EntryState) (f : Key → State → State) : Prop where
  touched : ∀ k s, Touched [k] s (f k s)
  calm : ∀ k s, Calm s (f k s)
  entries : ∀ k s, entriesOf (f k s) = setState k st (entriesOf s)
  shows : ∀ k s e, findEntry k (entriesOf s) = some e → (getSlot s k.slot).state ≠ .empty →
    OutcomeShown (getSlot s k.slot) (getSlot (f k s) k.slot) st (entryDay s e)
  flag : ∀ k s e, findEntry k (entriesOf s) = some e → st = .missed → flagSet (f k s).attn .entryMissed = true

theorem setState_none {k : Key} {es : List Entry} (st : EntryState) (h : findEntry k es = none) : setState k st es = es := by
  refine (List.map_congr_left fun e he => ?_).trans (List.map_id' es)
  have : e.key ≠ k := by simpa using List.find?_eq_none.1 h e he
  rw [if_neg this]

theorem setFlagIf_same (c : Bool) (g : AttnFlag) : (setFlagIf c g s).sheets = s.sheets ∧ (setFlagIf c g s).table = s.table := by
  cases c <;> exact ⟨rfl, rfl⟩

theorem writeOutcome_sheets (i : SlotNo) (st : EntryState) (day : Nat) : (writeOutcome i st day s).sheets = s.sheets := by
  unfold writeOutcome
  split <;> rfl

theorem conclude_entries (k : Key) (st : EntryState) (s : State) : entriesOf (conclude k st s) = setState k st (entriesOf s) := by
  unfold conclude
  split
  · next h => exact (setState_none st h).symm
  · rw [entriesOf, (setFlagIf_same _ _).1, writeOutcome_sheets]
    rfl

/-- The slots after an entry that is on the sheet has ended, before the check of R21. -/
theorem conclude_slot {k : Key} {e : Entry} (st : EntryState) (h : findEntry k (entriesOf s) = some e) (i : SlotNo) :
    getSlot (conclude k st s) i = getSlot (writeOutcome k.slot st (entryDay s e) (updToday (setState k st) s)) i := by
  unfold conclude
  rw [h]
  dsimp only
  rw [getSlot, (setFlagIf_same _ _).2]
  rfl

theorem conclude_view_other (k : Key) (st : EntryState) {i : SlotNo} (hi : k.slot ≠ i) :
    slotView (getSlot (conclude k st s) i) = slotView (getSlot s i) := by
  cases h : findEntry k (entriesOf s) with
  | none => rw [conclude, h]
  | some e =>
    rw [conclude_slot st h, writeOutcome_other _ _ hi]
    rfl

theorem conclude_own {k : Key} {e : Entry} (st : EntryState) (h : findEntry k (entriesOf s) = some e)
    (hi : (getSlot s k.slot).state ≠ .empty) :
    getSlot (conclude k st s) k.slot = outcomeFields st (entryDay s e) (getSlot s k.slot) :=
  (conclude_slot st h _).trans (writeOutcome_own _ _ _ hi)

theorem conclude_held (k : Key) (st : EntryState) (i : SlotNo) (hi : (getSlot s i).state ≠ .empty) :
    (getSlot (conclude k st s) i).state ≠ .empty := by
  by_cases hk : k.slot = i
  · subst hk
    cases h : findEntry k (entriesOf s) with
    | none => rwa [conclude, h]
    | some e => rwa [conclude_own st h hi, outcomeFields_state]
  · exact nonempty_of_view (conclude_view_other k st hk) hi

/-- `conclude` ends an entry. -/
theorem endsEntry_conclude (st : EntryState) : EndsEntry st (fun k s => conclude k st s) where
  calm k s := calm_conclude k st
  entries k s := conclude_entries k st s
  touched k s :=
    { entries := ⟨_, (conclude_entries k st s).trans (setState_eq_restate k st _), fun e he => if_neg (by simpa using he)⟩
      slots := fun i hi => conclude_view_other k st (hi k (List.mem_singleton_self k))
      held := conclude_held k st }
  shows k s e h hi := by
    rw [conclude_own st h hi]
    exact outcomeShown_fields _ _ _
  flag k s e h hst := by
    subst hst
    simp only [conclude, h, setFlagIf]
    exact flagSet_setFlag_self _

theorem finalise_eq (k : Key) (st : EntryState) (s : State) :
    finalise k st s = conclude k st s ∨ finalise k st s = spentCheck k.slot (conclude k st s) := by
  unfold finalise
  cases h : findEntry k (entriesOf s) with
  | none => exact Or.inl (by rw [conclude, h])
  | some e => exact Or.inr rfl

theorem finalise_entries (k : Key) (st : EntryState) (s : State) : entriesOf (finalise k st s) = setState k st (entriesOf s) := by
  rcases finalise_eq k st s with h | h
  · rw [h, conclude_entries]
  · rw [h, ← conclude_entries]
    exact congrArg (fun x : Sheets => x.today.entries) (spentCheck_sheets _)

theorem finalise_view (k : Key) (st : EntryState) (s : State) (i : SlotNo) :
    slotView (getSlot (finalise k st s) i) = slotView (getSlot (conclude k st s) i) := by
  rcases finalise_eq k st s with h | h
  · rw [h]
  · rw [h, spentCheck_view]

theorem finalise_flags (k : Key) (st : EntryState) (s : State) (f : AttnFlag) (hf : flagSet (conclude k st s).attn f = true) :
    flagSet (finalise k st s).attn f = true := by
  rcases finalise_eq k st s with h | h
  · rwa [h]
  · rw [h]; exact (calm_spentCheck _).flags f hf

/-- `finalise` ends an entry: the check of R21 writes no outcome. -/
theorem endsEntry_finalise (st : EntryState) : EndsEntry st (fun k s => finalise k st s) where
  calm k s := calm_finalise k st
  entries k s := finalise_entries k st s
  touched k s :=
    { entries := ⟨_, (finalise_entries k st s).trans (setState_eq_restate k st _), fun e he => if_neg (by simpa using he)⟩
      slots := fun i hi => (finalise_view k st s i).trans (conclude_view_other k st (hi k (List.mem_singleton_self k)))
      held := fun i hi => nonempty_of_view (finalise_view k st s i) (conclude_held k st i hi) }
  shows k s e h hi := outcomeShown_congr ((endsEntry_conclude st).shows k s e h hi) rfl (finalise_view k st s _)
  flag k s e h hst := finalise_flags k st s _ ((endsEntry_conclude st).flag k s e h hst)

section Ending

variable {st : EntryState} {f : Key → State → State}

/-- The entries of a list of keys end, one at a time. -/
theorem EndsEntry.touched_all (hf : EndsEntry st f) (ks : List Key) (s : State) : Touched ks s (ks.foldl (fun acc k => f k acc) s) :=
  Touched.foldl hf.touched ks s

theorem EndsEntry.calm_all (hf : EndsEntry st f) (ks : List Key) (s : State) : Calm s (ks.foldl (fun acc k => f k acc) s) :=
  Calm.foldl (fun u k => hf.calm k u) ks s

theorem mem_setState_self {e : Entry} {es : List Entry} (h : e ∈ es) : { e with state := st } ∈ setState e.key st es :=
  List.mem_map.2 ⟨e, h, if_pos rfl⟩

/-- An entry that is in a state, and whose key is not among those that follow or is among those that bring it there, stays in it. -/
theorem EndsEntry.stays (hf : EndsEntry st f) (ks : List Key) {e : Entry} (he : { e with state := st } ∈ entriesOf s) :
    { e with state := st } ∈ entriesOf (ks.foldl (fun acc k => f k acc) s) := by
  induction ks generalizing s with
  | nil => exact he
  | cons k ks ih =>
    refine ih ?_
    rw [hf.entries]
    refine List.mem_map.2 ⟨_, he, ?_⟩
    split <;> rfl

/-- An entry whose key is among those that end is in their state afterwards, and the flag of a MISSED one is set. -/
theorem EndsEntry.ended (hf : EndsEntry st f) {ks : List Key} {e : Entry} (he : e ∈ entriesOf s) (hk : e.key ∈ ks) :
    { e with state := st } ∈ entriesOf (ks.foldl (fun acc k => f k acc) s) ∧
      (st = .missed → flagSet (ks.foldl (fun acc k => f k acc) s).attn .entryMissed = true) := by
  obtain ⟨l1, l2, rfl, hfirst⟩ := List.eq_append_cons_of_mem hk
  rw [List.foldl_append, List.foldl_cons]
  have hbefore := (hf.touched_all l1 s).other he hfirst
  obtain ⟨x, hx⟩ := findEntry_isSome hbefore
  refine ⟨hf.stays l2 ?_, fun hst => (hf.calm_all l2 _).flags _ (hf.flag _ _ x hx hst)⟩
  rw [hf.entries]
  exact mem_setState_self hbefore

/-- Where one key alone of those that end is of an entry's slot, the slot's record shows that entry's outcome. -/
theorem EndsEntry.recorded (hf : EndsEntry st f) {ks : List Key} (hks : ks.Nodup) (hn : ((entriesOf s).map Entry.key).Nodup) {e : Entry}
    (he : e ∈ entriesOf s) (hk : e.key ∈ ks) (honly : ∀ k ∈ ks, k.slot = e.key.slot → k = e.key)
    (hi : (getSlot s e.key.slot).state ≠ .empty) :
    OutcomeShown (getSlot s e.key.slot) (getSlot (ks.foldl (fun acc k => f k acc) s) e.key.slot) st (entryDay s e) := by
  obtain ⟨l1, l2, rfl, hfirst⟩ := List.eq_append_cons_of_mem hk
  have hlast : e.key ∉ l2 := (List.nodup_cons.1 (List.nodup_append.1 hks).2.1).1
  rw [List.foldl_append, List.foldl_cons]
  have h1 := hf.touched_all l1 s
  have h2 := hf.touched_all l2 (f e.key (l1.foldl (fun acc k => f k acc) s))
  have hslot1 := h1.slots e.key.slot fun k hk' hs => hfirst (honly k (List.mem_append_left _ hk') hs ▸ hk')
  have hslot2 := h2.slots e.key.slot fun k hk' hs =>
    hlast (honly k (List.mem_append_right _ (List.mem_cons_of_mem _ hk')) hs ▸ hk')
  have hfind := findEntry_self (h1.nodup hn) (h1.other he hfirst)
  have hshown := hf.shows e.key _ e hfind (nonempty_of_view hslot1 hi)
  have hday : entryDay (l1.foldl (fun acc k => f k acc) s) e = entryDay s e := by
    rw [entryDay, (hf.calm_all l1 s).time]
    rfl
  rw [hday] at hshown
  exact outcomeShown_congr hshown hslot1.symm hslot2

end Ending

/-! ### Entries fall due (R79 to R83) -/

/-- The state in which a sounding entry is left that becomes DUE (R80, R81, R86). -/
def soundingState (s : State) (e : Entry) : EntryState :=
  if s.mains = .absent then .missed
  else if covered s e then .withheld
  else if graceOver s e then .missed
  else .due

/-- The state in which an entry is left that becomes DUE, by its kind and the mains state (R79 to R83). -/
def dueState (s : State) (e : Entry) : EntryState :=
  if e.kind = .light then .done
  else if e.kind = .quiet then if s.mains = .absent then .missed else .active
  else if e.kind.sounding then soundingState s e
  else .due

theorem setState_setState (k : Key) (st st' : EntryState) (es : List Entry) :
    setState k st (setState k st' es) = setState k st es := by
  unfold setState
  rw [List.map_map]
  refine List.map_congr_left fun e _ => ?_
  by_cases h : e.key = k <;> simp [h]

/-- The state of which the rules for an entry that falls due are asked: the entry is DUE in it. -/
def markedDue (e : Entry) (s : State) : State := updToday (setState e.key .due) s

theorem soundingDue_entries (e : Entry) (s : State) :
    entriesOf (soundingDue e (markedDue e s)) = setState e.key (soundingState (markedDue e s) e) (entriesOf s) := by
  have hdue : ∀ st, entriesOf (finalise e.key st (markedDue e s)) = setState e.key st (entriesOf s) := fun st =>
    (finalise_entries ..).trans (setState_setState ..)
  unfold soundingDue soundingState
  split
  · exact hdue _
  · split
    · exact hdue _
    · split
      · exact hdue _
      · rfl

theorem sounding_ne {k : Kind} (h : k.sounding = true) : k ≠ .light ∧ k ≠ .quiet := by
  constructor <;> rintro rfl <;> cases h

theorem dueState_light {e : Entry} (h : e.kind = .light) : dueState s e = .done := if_pos h

theorem dueState_quiet {e : Entry} (h : e.kind = .quiet) : dueState s e = if s.mains = .absent then .missed else .active := by
  simp [dueState, h]

theorem dueState_sounding {e : Entry} (h : e.kind.sounding = true) : dueState s e = soundingState s e := by
  obtain ⟨hl, hq⟩ := sounding_ne h
  simp [dueState, hl, hq, h]

theorem dueState_feast {e : Entry} (h : e.kind = .feast) : dueState s e = .due := by
  simp [dueState, h, Kind.sounding]

theorem becomeDue_light {e : Entry} (h : e.kind = .light) :
    becomeDue e s = lightEffect e.key (finalise e.key .done (markedDue e s)) := by
  unfold becomeDue
  rw [h]
  rfl

theorem becomeDue_quiet {e : Entry} (h : e.kind = .quiet) :
    becomeDue e s =
      if s.mains = .absent then finalise e.key .missed (markedDue e s) else updToday (setState e.key .active) (markedDue e s) := by
  unfold becomeDue
  rw [h]
  rfl

theorem becomeDue_sounding {e : Entry} (h : e.kind.sounding = true) : becomeDue e s = soundingDue e (markedDue e s) := by
  unfold becomeDue
  cases hk : e.kind <;> first | rfl | (rw [hk] at h; cases h)

theorem becomeDue_feast {e : Entry} (h : e.kind = .feast) : becomeDue e s = markedDue e s := by
  unfold becomeDue
  rw [h]
  rfl

/-- The kinds as falling due distinguishes them. -/
theorem kind_cases (k : Kind) : k = .light ∨ k = .quiet ∨ k.sounding = true ∨ k = .feast := by
  cases k <;> simp [Kind.sounding]

/-- The sheet after an entry has fallen due: that entry is in the state its kind and the mains state give it (R79 to R83). -/
theorem becomeDue_entries (h : s.lights.waiting = []) (e : Entry) :
    entriesOf (becomeDue e s) = setState e.key (dueState (markedDue e s) e) (entriesOf s) := by
  have hdue : ∀ st, entriesOf (finalise e.key st (markedDue e s)) = setState e.key st (entriesOf s) := fun st =>
    (finalise_entries ..).trans (setState_setState ..)
  rcases kind_cases e.kind with hk | hk | hk | hk
  · have hwait : (finalise e.key .done (markedDue e s)).lights.waiting = [] := (calm_finalise e.key .done).waiting.trans h
    rw [becomeDue_light hk, entriesOf, (lightEffect_same hwait _).1, dueState_light hk]
    exact hdue _
  · rw [becomeDue_quiet hk, dueState_quiet hk]
    change _ = setState e.key (if s.mains = .absent then _ else _) _
    split
    · exact hdue _
    · exact setState_setState ..
  · rw [becomeDue_sounding hk, dueState_sounding hk]
    exact soundingDue_entries e s
  · rw [becomeDue_feast hk, dueState_feast hk]
    rfl

end Sys2Proof.Time
end

section
/-! PROOFS. A list of entries falls due: what each is left as, and what its record then shows (R79 to R83). -/

namespace Sys2Proof.Time

open Sys2Proof Sys2Proof.Machine

variable {r s t : State}

/-! ### One entry falls due -/

theorem soundingState_cases (s : State) (e : Entry) :
    soundingState s e = .missed ∨ soundingState s e = .withheld ∨ soundingState s e = .due := by
  unfold soundingState
  repeat' split
  all_goals simp

theorem soundingDue_eq (e : Entry) (s : State) :
    soundingDue e s = if soundingState s e = .due then s else finalise e.key (soundingState s e) s := by
  unfold soundingDue soundingState
  split
  · rfl
  · split
    · rfl
    · split <;> rfl

/-- The record of an entry that falls due is written just where its state is final, as `finalise` writes it; flags likewise. -/
theorem becomeDue_outcome (h : s.lights.waiting = []) (e : Entry) :
    ((dueState (markedDue e s) e).isOpen = true → (becomeDue e s).table = s.table) ∧
    ((dueState (markedDue e s) e).isOpen = false →
      (becomeDue e s).table = (finalise e.key (dueState (markedDue e s) e) (markedDue e s)).table ∧
      ∀ f, flagSet (finalise e.key (dueState (markedDue e s) e) (markedDue e s)).attn f = true →
        flagSet (becomeDue e s).attn f = true) := by
  rcases kind_cases e.kind with hk | hk | hk | hk
  · have hwait : (finalise e.key .done (markedDue e s)).lights.waiting = [] := (calm_finalise e.key .done).waiting.trans h
    rw [dueState_light hk, becomeDue_light hk]
    exact ⟨Bool.noConfusion, fun _ => ⟨(lightEffect_same hwait _).2, (calm_lightEffect hwait _).flags⟩⟩
  · by_cases hm : s.mains = .absent
    · have hst : dueState (markedDue e s) e = .missed := (dueState_quiet hk).trans (if_pos hm)
      rw [hst, (becomeDue_quiet hk).trans (if_pos hm)]
      exact ⟨Bool.noConfusion, fun _ => ⟨rfl, fun _ hf => hf⟩⟩
    · have hst : dueState (markedDue e s) e = .active := (dueState_quiet hk).trans (if_neg hm)
      rw [hst, (becomeDue_quiet hk).trans (if_neg hm)]
      exact ⟨fun _ => rfl, Bool.noConfusion⟩
  · rw [dueState_sounding hk, becomeDue_sounding hk, soundingDue_eq]
    rcases soundingState_cases (markedDue e s) e with hst | hst | hst
    · rw [hst]; exact ⟨Bool.noConfusion, fun _ => ⟨rfl, fun _ hf => hf⟩⟩
    · rw [hst]; exact ⟨Bool.noConfusion, fun _ => ⟨rfl, fun _ hf => hf⟩⟩
    · rw [hst]; exact ⟨fun _ => rfl, Bool.noConfusion⟩
  · rw [dueState_feast hk, becomeDue_feast hk]
    exact ⟨fun _ => rfl, Bool.noConfusion⟩

theorem getSlot_of_table (h : t.table = s.table) (i : SlotNo) : getSlot t i = getSlot s i := by rw [getSlot, h]; rfl

theorem findEntry_setState_self {k : Key} {st : EntryState} {es : List Entry} {e : Entry} (h : findEntry k es = some e) :
    findEntry k (setState k st es) = some { e with state := st } := by
  induction es with
  | nil => cases h
  | cons x xs ih =>
    by_cases hx : x.key = k
    · simp only [findEntry, List.find?_cons, hx, beq_self_eq_true, Option.some.injEq] at h
      subst h
      simp [findEntry, setState, hx]
    · have hxs : findEntry k xs = some e := by simpa [findEntry, hx] using h
      have := ih hxs
      simpa [findEntry, setState, hx] using this

theorem touched_becomeDue (h : s.lights.waiting = []) (e : Entry) : Touched [e.key] s (becomeDue e s) := by
  obtain ⟨hopen, hfinal⟩ := becomeDue_outcome h e
  have hentries := (becomeDue_entries h e).trans (setState_eq_restate ..)
  have hsame : ∀ e' : Entry, e'.key ∉ [e.key] → (if e'.key = e.key then dueState (markedDue e s) e else e'.state) = e'.state :=
    fun e' he' => if_neg (by simpa using he')
  cases hst : (dueState (markedDue e s) e).isOpen with
  | true =>
    have hslot := getSlot_of_table (hopen hst)
    exact ⟨⟨_, hentries, hsame⟩, fun i _ => by rw [hslot], fun i hi => by rwa [hslot]⟩
  | false =>
    have hslot := getSlot_of_table (hfinal hst).1
    have hends := (endsEntry_finalise (dueState (markedDue e s) e)).touched e.key (markedDue e s)
    exact ⟨⟨_, hentries, hsame⟩, fun i hi => by rw [hslot]; exact hends.slots i hi, fun i hi => by rw [hslot]; exact hends.held i hi⟩

/-- The record of an entry that falls due into a final state shows it, and a MISSED one sets its flag. -/
theorem becomeDue_shows (h : s.lights.waiting = []) {e : Entry} (hfind : findEntry e.key (entriesOf s) = some e)
    (hst : (dueState (markedDue e s) e).isOpen = false) :
    ((getSlot s e.key.slot).state ≠ .empty →
      OutcomeShown (getSlot s e.key.slot) (getSlot (becomeDue e s) e.key.slot) (dueState (markedDue e s) e) (entryDay s e)) ∧
    (dueState (markedDue e s) e = .missed → flagSet (becomeDue e s).attn .entryMissed = true) := by
  obtain ⟨htable, hflags⟩ := (becomeDue_outcome h e).2 hst
  have hfind' : findEntry e.key (entriesOf (markedDue e s)) = some { e with state := .due } := findEntry_setState_self hfind
  have hends := endsEntry_finalise (dueState (markedDue e s) e)
  refine ⟨fun hi => ?_, fun hmissed => hflags _ (hends.flag _ _ { e with state := .due } hfind' hmissed)⟩
  rw [getSlot_of_table htable]
  exact hends.shows _ _ { e with state := .due } hfind' hi

/-! ### A list of entries falls due -/

theorem Touched.mono {ks ks' : List Key} (h : Touched ks s t) (hsub : ∀ k ∈ ks, k ∈ ks') : Touched ks' s t where
  entries := by
    obtain ⟨g, hg, hkeep⟩ := h.entries
    exact ⟨g, hg, fun e he => hkeep e fun hk => he (hsub _ hk)⟩
  slots i hi := h.slots i fun k hk => hi k (hsub k hk)
  held := h.held

theorem touched_becomeDueAll (ks : List Key) (h : s.lights.waiting = []) : Touched ks s (becomeDueAll ks s) := by
  induction ks generalizing s with
  | nil => exact Touched.refl [] s
  | cons k ks ih =>
    rw [becomeDueAll]
    split
    · exact (ih h).mono fun _ => List.mem_cons_of_mem _
    · next e hfind =>
      split
      · have hstep := touched_becomeDue h e
        rw [(findEntry_mem hfind).2] at hstep
        exact hstep.trans (ih ((calm_becomeDue h e).waiting.trans h))
      · exact (ih h).mono fun _ => List.mem_cons_of_mem _

theorem becomeDueAll_append (l1 l2 : List Key) (s : State) : becomeDueAll (l1 ++ l2) s = becomeDueAll l2 (becomeDueAll l1 s) := by
  induction l1 generalizing s with
  | nil => rfl
  | cons k l1 ih =>
    rw [List.cons_append, becomeDueAll, becomeDueAll]
    split <;> exact ih _

/-- How an entry fares that falls due among others: at its turn, in a state u that the earlier ones have left, it goes to the state that
its kind and the mains state give it, and stays there; its record shows the outcome of a final one. -/
structure FellDue (ks : List Key) (s t : State) (e : Entry) (u : State) : Prop where
  calm : Calm s u
  touched : ∃ l, (∀ k ∈ l, k ∈ ks) ∧ Touched l s u
  stands : { e with state := dueState (markedDue e u) e } ∈ entriesOf t
  flag : dueState (markedDue e u) e = .missed → flagSet t.attn .entryMissed = true
  shows : (dueState (markedDue e u) e).isOpen = false → (∀ k ∈ ks, k.slot = e.key.slot → k = e.key) →
    (getSlot s e.key.slot).state ≠ .empty →
    OutcomeShown (getSlot s e.key.slot) (getSlot t e.key.slot) (dueState (markedDue e u) e) (entryDay s e)

theorem fellDue_of_mem {ks : List Key} (h : s.lights.waiting = []) (hks : ks.Nodup) {e : Entry}
    (hown : ∀ x ∈ entriesOf s, x.key = e.key → x = e) (he : e ∈ entriesOf s) (hk : e.key ∈ ks) (hdue : fallsDue s e = true) :
    ∃ u, FellDue ks s (becomeDueAll ks s) e u := by
  obtain ⟨l1, l2, rfl, hfirst⟩ := List.eq_append_cons_of_mem hk
  have hlast : e.key ∉ l2 := (List.nodup_cons.1 (List.nodup_append.1 hks).2.1).1
  have hcalm1 := calm_becomeDueAll l1 h
  have htouch1 := touched_becomeDueAll l1 h
  rw [becomeDueAll_append]
  generalize becomeDueAll l1 s = u at hcalm1 htouch1 ⊢
  have hwait : u.lights.waiting = [] := hcalm1.waiting.trans h
  have hfind : findEntry e.key (entriesOf u) = some e := by
    obtain ⟨x, hx⟩ := findEntry_isSome (htouch1.other he hfirst)
    obtain ⟨hmem, hkey⟩ := findEntry_mem hx
    obtain ⟨y, hy, hxy, hkeep⟩ := htouch1.back hmem
    have hye : y = e := hown y hy (by rw [← hkey, hxy])
    rw [hx, hkeep (by rw [hye]; exact hfirst), hye]
  have hdue' : fallsDue u e = true := by rwa [fallsDue, hcalm1.time]
  have hturn : becomeDueAll (e.key :: l2) u = becomeDueAll l2 (becomeDue e u) := by
    rw [becomeDueAll, hfind]
    exact congrArg _ (if_pos hdue')
  rw [hturn]
  have hcalm := calm_becomeDue hwait e
  have hwait' : (becomeDue e u).lights.waiting = [] := hcalm.waiting.trans hwait
  have htouch2 := touched_becomeDueAll l2 hwait'
  have hcalm2 := calm_becomeDueAll l2 hwait'
  refine ⟨u, hcalm1, ⟨l1, fun k => List.mem_append_left _, htouch1⟩, ?_, fun hmissed => ?_, fun hst honly hi => ?_⟩
  · refine htouch2.other ?_ hlast
    rw [becomeDue_entries hwait]
    exact mem_setState_self (findEntry_mem hfind).1
  · exact hcalm2.flags _ ((becomeDue_shows hwait hfind (by rw [hmissed]; rfl)).2 hmissed)
  · have hslot1 := htouch1.slots e.key.slot fun k hk' hs => hfirst (honly k (List.mem_append_left _ hk') hs ▸ hk')
    have hslot2 := htouch2.slots e.key.slot fun k hk' hs =>
      hlast (honly k (List.mem_append_right _ (List.mem_cons_of_mem _ hk')) hs ▸ hk')
    have hshown := (becomeDue_shows hwait hfind hst).1 (nonempty_of_view hslot1 hi)
    have hday : entryDay u e = entryDay s e := by rw [entryDay, hcalm1.time]; rfl
    rw [hday] at hshown
    exact outcomeShown_congr hshown hslot1.symm hslot2

/-! ### What coverage hangs on (R81, R102) -/

theorem getTune_of_tower (h : towerView t = towerView s) (n : TuneNo) :
    (getTune t n).first = (getTune s n).first ∧ (getTune t n).length = (getTune s n).length := by
  have := congrArg (fun v : TowerView => v.settings.runs.get n) h
  simp only [towerView, settingsView, get_map, Prod.mk.injEq] at this
  exact ⟨this.1, this.2.1⟩

theorem tuneBells_of_tower (h : towerView t = towerView s) : tuneBells t = tuneBells s := by
  funext n
  obtain ⟨hfirst, hlength⟩ := getTune_of_tower h n
  have hnotes : t.tunes.notes = s.tunes.notes := congrArg (fun v : TowerView => v.settings.notes) h
  rw [tuneBells, hfirst, hlength, hnotes]
  rfl

theorem recordAt_of_tower (h : towerView t = towerView s) (i : SlotNo) : recordAt t i = recordAt s i := by
  rw [recordAt, recordAt, image_of_tower h]

/-- An entry's sounding set hangs on its key, the images and the tunes, which work in the tower leaves alone (R81). -/
theorem soundingSet_of_tower (h : towerView t = towerView s) (e : Entry) : soundingSet t e = soundingSet s e := by
  unfold soundingSet
  rw [recordAt_of_tower h, tuneBells_of_tower h]

theorem silenceCovers_of_tower (h : towerView t = towerView s) (e : Entry) : silenceCovers t e = silenceCovers s e := by
  have hover : t.overrides = s.overrides := congrArg TowerView.overrides h
  rw [silenceCovers, silenceCovers, soundingSet_of_tower h, effective, effective, hover]

theorem graceOf_of_tower (h : towerView t = towerView s) (e : Entry) : graceOf t e = graceOf s e := by
  rw [graceOf, graceOf, recordAt_of_tower h]

theorem graceOver_of_tower (h : towerView t = towerView s) (e : Entry) : graceOver t e = graceOver s e := by
  have htime : t.time = s.time := congrArg TowerView.time h
  rw [graceOver, graceOver, graceOf_of_tower h, htime]

theorem fallsDue_of_tower (h : towerView t = towerView s) (e : Entry) : fallsDue t e = fallsDue s e := by
  have htime : t.time = s.time := congrArg TowerView.time h
  rw [fallsDue, fallsDue, htime]

/-- Where no ACTIVE QUIET entry is on the sheet, the silence alone covers (R81). -/
theorem covered_of_noQuiet (e : Entry) (h : ∀ q ∈ entriesOf s, q.kind = .quiet → q.state ≠ .active) :
    covered s e = silenceCovers s e := by
  have hnone : activeQuiet s = [] := List.filter_eq_nil_iff.2 fun q hq => by simpa using h q hq
  rw [covered, hnone, List.any_nil, Bool.or_false]

end Sys2Proof.Time
end

section
/-! PROOFS. The override stack loses entries: nothing is silenced by it, so that the sheets and the lanes stand, and a peal that has
nothing to go on to stands too (R102, R103, R109, R128, R129). -/

namespace Sys2Proof.Time

open Sys2Proof Sys2Proof.Machine

variable {r s t : State}

/-! ### Fewer overrides silence no more (R102) -/

/-- A silence silences no more than another: the other has gained nothing by it. -/
def AtMost (x y : Silence) : Prop := y.gained x = false

theorem subset_iff (a b : BellSet) : ((a &&& ~~~b) != 0) = false ↔ ∀ i, a.getLsbD i = true → b.getLsbD i = true := by
  rw [bne_eq_false_iff_eq]
  constructor
  · intro h i ha
    have hbit := congrArg (fun v : BellSet => v.getLsbD i) h
    have hi := BitVec.lt_of_getLsbD ha
    simpa [ha, hi] using hbit
  · intro h
    refine BitVec.eq_of_getLsbD_eq fun i hi => ?_
    cases ha : a.getLsbD i with
    | false => simp [ha]
    | true => simp [ha, h i ha]

theorem atMost_refl (x : Silence) : AtMost x x := by
  cases x with
  | none => rfl
  | all => rfl
  | bells a => exact (subset_iff a a).2 fun _ h => h

theorem atMost_all (x : Silence) : AtMost x .all := rfl

theorem atMost_none (x : Silence) : AtMost .none x := by cases x <;> rfl

theorem atMost_bells (a b : BellSet) : AtMost (.bells a) (.bells b) ↔ ∀ i, a.getLsbD i = true → b.getLsbD i = true := subset_iff a b

theorem atMost_bells_none {a : BellSet} : AtMost (.bells a) .none ↔ a = 0 := bne_eq_false_iff_eq

theorem gain_zero (x : Silence) : x.gain 0 = .all := by cases x <;> rfl

theorem none_gain {set : BellSet} (h : set ≠ 0) : Silence.none.gain set = .bells set := if_neg h

theorem bells_gain (b : BellSet) {set : BellSet} (h : set ≠ 0) : (Silence.bells b).gain set = .bells (b ||| set) := if_neg h

theorem atMost_bells_zero (b : BellSet) : AtMost (.bells 0) (.bells b) := (atMost_bells 0 b).2 fun i hi => by simp at hi

/-- A further SILENCE entry silences no less. -/
theorem atMost_gain {x y : Silence} (set : BellSet) (h : AtMost x y) : AtMost x (y.gain set) := by
  by_cases hset : set = 0
  · rw [hset, gain_zero]; exact atMost_all x
  · cases x with
    | none => exact atMost_none _
    | all =>
      cases y with
      | all => exact h
      | none => cases h
      | bells b => cases h
    | bells a =>
      cases y with
      | all => exact h
      | none =>
        rw [atMost_bells_none.1 h, none_gain hset]
        exact atMost_bells_zero _
      | bells b =>
        rw [bells_gain b hset]
        rw [atMost_bells] at h ⊢
        exact fun i hi => by rw [BitVec.getLsbD_or, h i hi, Bool.true_or]

/-- A SILENCE entry folded into both leaves their order. -/
theorem gain_mono {x y : Silence} (set : BellSet) (h : AtMost x y) : AtMost (x.gain set) (y.gain set) := by
  by_cases hset : set = 0
  · rw [hset, gain_zero, gain_zero]; exact atMost_refl _
  · cases y with
    | all => exact atMost_all _
    | none =>
      cases x with
      | all => cases h
      | none => exact atMost_refl _
      | bells a =>
        rw [atMost_bells_none.1 h, bells_gain 0 hset, none_gain hset]
        exact (atMost_bells _ _).2 fun i hi => by simpa using hi
    | bells b =>
      cases x with
      | all => cases h
      | none =>
        rw [none_gain hset, bells_gain b hset]
        exact (atMost_bells _ _).2 fun i hi => by rw [BitVec.getLsbD_or, hi, Bool.or_true]
      | bells a =>
        rw [bells_gain a hset, bells_gain b hset]
        rw [atMost_bells] at h ⊢
        intro i hi
        rw [BitVec.getLsbD_or, Bool.or_eq_true] at hi ⊢
        exact hi.imp_left (h i)

/-- An effective state silences no more than another, kind by kind. -/
structure Quieter (a b : Effective) : Prop where
  strike : AtMost a.strike b.strike
  tune : AtMost a.tune b.tune
  toll : AtMost a.toll b.toll
  peal : AtMost a.peal b.peal

theorem ite_atMost {c : Bool} {x y : Silence} (set : BellSet) (h : AtMost x y) : AtMost x (if c then y.gain set else y) := by
  split
  · exact atMost_gain set h
  · exact h

theorem ite_mono {c : Bool} {x y : Silence} (set : BellSet) (h : AtMost x y) :
    AtMost (if c then x.gain set else x) (if c then y.gain set else y) := by
  split
  · exact gain_mono set h
  · exact h

theorem Quieter.more {a b : Effective} (h : Quieter a b) (o : Override) : Quieter a (foldOverride b o) := by
  unfold foldOverride
  split
  · exact ⟨ite_atMost _ h.strike, ite_atMost _ h.tune, ite_atMost _ h.toll, ite_atMost _ h.peal⟩
  all_goals exact ⟨h.strike, h.tune, h.toll, h.peal⟩

theorem Quieter.both {a b : Effective} (h : Quieter a b) (o : Override) : Quieter (foldOverride a o) (foldOverride b o) := by
  unfold foldOverride
  split
  · exact ⟨ite_mono _ h.strike, ite_mono _ h.tune, ite_mono _ h.toll, ite_mono _ h.peal⟩
  all_goals exact ⟨h.strike, h.tune, h.toll, h.peal⟩

/-- A stack with some entries gone silences no more (R102). -/
theorem quieter_filter (test : Override → Bool) (es : List Override) : Quieter (effectiveOf (es.filter test)) (effectiveOf es) := by
  have hfold : ∀ (es : List Override) (a b : Effective), Quieter a b →
      Quieter ((es.filter test).foldl foldOverride a) (es.foldl foldOverride b) := by
    intro es
    induction es with
    | nil => exact fun _ _ h => h
    | cons o es ih =>
      intro a b h
      rw [List.filter_cons]
      split
      · exact ih _ _ (h.both o)
      · exact ih _ _ (h.more o)
  exact hfold es _ _ ⟨atMost_refl _, atMost_refl _, atMost_refl _, atMost_refl _⟩

/-- With no silence gained, nothing is withheld or cut (R103 to R105). -/
theorem handSilence_quieter {old : Effective} (h : Quieter (effective s) old) : handSilence old s = s := by
  obtain ⟨hstrike, htune, htoll, hpeal⟩ := h
  unfold AtMost at hstrike htune htoll hpeal
  simp [handSilence, silenceGained, hstrike, htune, htoll, hpeal]

/-! ### A peal that stands -/

/-- The running peal has nothing to go on to from the bells as they stand (R128, R129). -/
def PealStays (peal : Option PealRun) (bells : Vector Bell 31) : Prop :=
  ∀ p, peal = some p →
    (p.phase = .raising → p.held ≠ [] ∧
      p.held.all (fun st => (bells.get st).pos == .up && !(bells.get st).waitingRaise) = false) ∧
    (p.phase = .ringing → p.held.any (fun st => (bells.get st).pos == .up) = true) ∧
    (p.phase = .lowering → p.held.all (fun st => atRest (bells.get st)) = false)

theorem settlePeal_stays (h : PealStays s.peal s.bells) : settlePeal s = s := by
  unfold settlePeal
  split
  · rfl
  · next p hp =>
    obtain ⟨hraise, hring, hlower⟩ := h p hp
    split
    · next hphase =>
      obtain ⟨hheld, hup⟩ := hraise hphase
      rw [if_neg hheld, if_neg (by rw [← Bool.not_eq_true] at hup; exact hup)]
    · next hphase => exact if_pos (hring hphase)
    · next hphase =>
      have hrest := hlower hphase
      rw [← Bool.not_eq_true] at hrest
      exact if_neg hrest

/-- What work on bells leaves alone: the running peal, and the zones; and while the CHIME and TOLL lanes are FREE the sheets, the table, the
lanes and the flags, since an answered stroke then ends no entry. -/
structure BellWork (s t : State) : Prop where
  peal : t.peal = s.peal
  zones : ({ t.lights with waiting := [] } : Lights) = { s.lights with waiting := [] }
  waiting : s.lights.waiting = [] → t.lights.waiting = []
  free : s.lanes.chime = none → s.lanes.toll = none →
    t.sheets = s.sheets ∧ t.table = s.table ∧ t.attn = s.attn ∧ t.lanes.chime = none ∧ t.lanes.toll = none ∧
      t.lanes.peal = s.lanes.peal ∧ t.lanes.lit = s.lanes.lit

theorem BellWork.refl (s : State) : BellWork s s := ⟨rfl, rfl, id, fun h h' => ⟨rfl, rfl, rfl, h, h', rfl, rfl⟩⟩

theorem BellWork.trans (h : BellWork r s) (h' : BellWork s t) : BellWork r t where
  peal := h'.peal.trans h.peal
  zones := h'.zones.trans h.zones
  waiting hw := h'.waiting (h.waiting hw)
  free hc ht := by
    obtain ⟨h1, h2, h3, hchime, htoll, h4, h5⟩ := h.free hc ht
    obtain ⟨h1', h2', h3', hchime', htoll', h4', h5'⟩ := h'.free hchime htoll
    exact ⟨h1'.trans h1, h2'.trans h2, h3'.trans h3, hchime', htoll', h4'.trans h4, h5'.trans h5⟩

theorem BellWork.foldl {α : Type} {f : State → α → State} (hf : ∀ u x, BellWork u (f u x)) (xs : List α) (s : State) :
    BellWork s (xs.foldl f s) := by
  induction xs generalizing s with
  | nil => exact BellWork.refl s
  | cons x xs ih => exact (hf s x).trans (ih (f s x))

theorem bellWork_updBell (st : Station) (f : Bell → Bell) : BellWork s (updBell st f s) :=
  ⟨rfl, rfl, id, fun h h' => ⟨rfl, rfl, rfl, h, h', rfl, rfl⟩⟩

theorem bellWork_updLine (f : Line → Line) : BellWork s (updLine f s) :=
  ⟨rfl, rfl, id, fun h h' => ⟨rfl, rfl, rfl, h, h', rfl, rfl⟩⟩

/-- The answer to a stroke ends an entry of the CHIME or TOLL lane alone (R89, R150). -/
theorem bellWork_answerStroke (who : Requester) (sent : Bool) : BellWork s (answerStroke who sent s) := by
  obtain ⟨-, -, hlights, hpeal, -⟩ := work_parts (work_answerStroke who sent s)
  refine ⟨hpeal, by rw [hlights], fun h => by rw [hlights, h], fun hc ht => ?_⟩
  unfold answerStroke
  split
  · split
    · split
      · unfold answerToll
        dsimp only
        split
        · exact ⟨rfl, rfl, rfl, hc, ht, rfl, rfl⟩
        · have hfree : laneKey (setTollRun none s) .toll = none := ht
          rw [endLane, hfree]
          exact ⟨rfl, rfl, rfl, hc, ht, rfl, rfl⟩
      · exact ⟨rfl, rfl, rfl, hc, ht, rfl, rfl⟩
    · exact ⟨rfl, rfl, rfl, hc, ht, rfl, rfl⟩
  · split
    · split
      · unfold answerHour
        dsimp only
        split
        · exact ⟨rfl, rfl, rfl, hc, ht, rfl, rfl⟩
        · have hfree : laneKey (setPlayer none s) .chime = none := hc
          rw [endLane, hfree]
          exact ⟨rfl, rfl, rfl, hc, ht, rfl, rfl⟩
      · exact ⟨rfl, rfl, rfl, hc, ht, rfl, rfl⟩
    · exact ⟨rfl, rfl, rfl, hc, ht, rfl, rfl⟩
  · exact ⟨rfl, rfl, rfl, hc, ht, rfl, rfl⟩

theorem bellWork_strikesLost (os : List Order) (s : State) : BellWork s (strikesLost os s) := by
  refine BellWork.foldl (fun u o => ?_) os s
  unfold strikeLost
  split
  · exact bellWork_answerStroke _ _
  · exact BellWork.refl u

theorem bellWork_makeOrder (st : Station) (k : SwingOrder) : BellWork s (makeOrder st k s) := by
  unfold makeOrder
  repeat' split
  · exact BellWork.refl s
  · exact bellWork_updLine _
  · exact bellWork_updBell _ _

theorem bellWork_checkStrikable (st : Station) : BellWork s (checkStrikable st s) := by
  unfold checkStrikable
  split
  · exact BellWork.refl s
  · have hlost : BellWork s (loseDeferred st s) :=
      (bellWork_updBell _ _).trans (BellWork.foldl (fun _ (d : Deferred) => bellWork_answerStroke d.requester false) _ _)
    exact hlost.trans ((bellWork_updLine _).trans (bellWork_strikesLost _ _))

theorem bellWork_pollNow (st : Station) : BellWork s (pollNow st s) := by
  unfold pollNow
  split
  · exact bellWork_makeOrder _ _
  · exact BellWork.refl s

theorem bellWork_firstQuery (st : Station) : BellWork s (firstQuery st s) := by
  unfold firstQuery
  split
  · exact bellWork_makeOrder _ _
  · exact bellWork_pollNow _

theorem bellWork_startPolling (st : Station) : BellWork s (startPolling st s) := by
  unfold startPolling
  split
  · exact bellWork_updBell _ _
  · split
    · exact (bellWork_updBell _ _).trans (bellWork_firstQuery _)
    · dsimp only
      split
      · exact (bellWork_updBell _ _).trans (bellWork_makeOrder _ _)
      · exact bellWork_updBell _ _

theorem bellWork_orderLower (st : Station) : BellWork s (orderLower st s) :=
  (bellWork_makeOrder st .lower).trans
    ((bellWork_updBell _ _).trans ((bellWork_checkStrikable st).trans (bellWork_startPolling st)))

theorem bellWork_putDown (st : Station) : BellWork s (putDown st s) := by
  unfold putDown
  dsimp only
  split
  · exact bellWork_orderLower _
  · split
    · exact ⟨rfl, rfl, fun h => by simp [withdrawRequest, h], fun h h' => ⟨rfl, rfl, rfl, h, h', rfl, rfl⟩⟩
    · exact BellWork.refl s

theorem finishPeal_peal (st : EntryState) (s : State) : (finishPeal st s).peal = none := by
  obtain ⟨-, -, -, h, -⟩ := work_parts (work_endLane .peal st { s with peal := none })
  exact h

/-- A peal that begins its lowering phase is in it afterwards, or at its end. -/
theorem beginLowering_peal (p q : PealRun) (s : State) (h : (beginLowering p s).peal = some q) : q.phase = .lowering := by
  unfold beginLowering endIfLowered at h
  dsimp only at h
  have hkeep := (BellWork.foldl (f := fun acc st => if (getBell acc st).pos = .up then orderLower st acc else acc)
    (fun u st => by
      split
      · exact bellWork_orderLower st
      · exact BellWork.refl u) p.held
    { s with peal := some { p with phase := .lowering, raiseBy := none, ringEnd := none } }).peal
  split at h
  · rw [finishPeal_peal] at h; cases h
  · rw [hkeep] at h; cases h; rfl

/-- A peal that going on does not move has nothing to go on to. -/
theorem stays_of_settlePeal (h : settlePeal s = s) : PealStays s.peal s.bells := by
  intro p hp
  have hlow : beginLowering p s = s → p.phase = .lowering := fun hs => beginLowering_peal p p s (by rw [hs, hp])
  rw [settlePeal, hp] at h
  dsimp only at h
  cases hphase : p.phase with
  | raising =>
    refine ⟨fun _ => ?_, fun h => (by cases h), fun h => (by cases h)⟩
    rw [hphase] at h
    dsimp only at h
    by_cases hheld : p.held = []
    · rw [if_pos hheld] at h
      rw [hlow h] at hphase
      cases hphase
    · rw [if_neg hheld] at h
      refine ⟨hheld, ?_⟩
      rw [← Bool.not_eq_true]
      intro hup
      rw [if_pos (by exact hup)] at h
      have := congrArg State.peal h
      rw [hp, Option.some.injEq] at this
      rw [← this] at hphase
      cases hphase
  | ringing =>
    refine ⟨fun h => (by cases h), fun _ => ?_, fun h => (by cases h)⟩
    rw [hphase] at h
    dsimp only at h
    by_contra hup
    rw [if_neg (by exact hup)] at h
    rw [hlow h] at hphase
    cases hphase
  | lowering =>
    refine ⟨fun h => (by cases h), fun h => (by cases h), fun _ => ?_⟩
    rw [hphase] at h
    dsimp only at h
    rw [← Bool.not_eq_true]
    intro hrest
    rw [endIfLowered, if_pos (by exact hrest)] at h
    have := congrArg State.peal h
    rw [finishPeal_peal, hp] at this
    cases this

/-! ### Expiry while no request waits and the peal stands (R109) -/

/-- Entries leave the stack: the overrides, the dials and the zones are all that changes, and the wanted levels still follow the governing
scene. -/
theorem setStack_lights (test : Override → Bool) (hw : s.lights.waiting = []) (hp : PealStays s.peal s.bells) :
    ∃ os ds l, setStack (s.overrides.entries.filter test) s = { s with overrides := os, dials := ds, lights := l } ∧
      (WantedMet s → WantedMet (setStack (s.overrides.entries.filter test) s)) := by
  let u : State := { s with overrides := { s.overrides with entries := s.overrides.entries.filter test } }
  have hquiet : handSilence (effective s) u = u := handSilence_quieter (quieter_filter test s.overrides.entries)
  have hform : setStack (s.overrides.entries.filter test) s
      = settlePeal (evaluateSet (heldChange (effective s) (effective u))
          (if (effective s).scene = (effective u).scene then u else findWanted u)) := by
    rw [setStack, handOn, hquiet]
  obtain ⟨l, hl, hmet⟩ : ∃ l, (if (effective s).scene = (effective u).scene then u else findWanted u) = setLights l u ∧
      (WantedMet s → WantedMet (setLights l u)) := by
    split
    · next hscene =>
      exact ⟨u.lights, rfl, fun h => h.of_same hscene.symm rfl rfl fun _ => rfl⟩
    · obtain ⟨l, hl, -, hmet⟩ := findWanted_lights (s := u) hw
      exact ⟨l, hl, fun _ => hmet⟩
  obtain ⟨ds, hds⟩ := evaluateSet_dials (setLights l u) (heldChange (effective s) (effective u))
  rw [hform, hl, hds, settlePeal_stays (s := { setLights l u with dials := ds }) hp]
  exact ⟨u.overrides, ds, l, rfl, fun h => (hmet h).of_same rfl rfl rfl fun _ => rfl⟩

theorem expireOverrides_lights (hw : s.lights.waiting = []) (hp : PealStays s.peal s.bells) :
    ∃ os ds l, expireOverrides s = { s with overrides := os, dials := ds, lights := l } ∧
      (WantedMet s → WantedMet (expireOverrides s)) := by
  unfold expireOverrides
  split
  · exact setStack_lights _ hw hp
  · exact ⟨s.overrides, s.dials, s.lights, rfl, id⟩

/-- A step's tail likewise: it works on the overrides, the dials, the zones and the flags, and clears no flag. -/
theorem stepTail_lights (hw : s.lights.waiting = []) (hp : PealStays s.peal s.bells) :
    ∃ os ds l n a, stepTail s = { s with overrides := os, dials := ds, lights := l, lastTarget := n, attn := a } ∧
      (WantedMet s → WantedMet (stepTail s)) ∧ ∀ f, flagSet s.attn f = true → flagSet (stepTail s).attn f = true := by
  obtain ⟨os, ds, l, hform, hmet⟩ := expireOverrides_lights hw hp
  obtain ⟨ds', hds⟩ := evaluateAll_dials (expireOverrides s)
  have hmet' : WantedMet s → WantedMet (stepTail s) := by
    intro h
    refine (hmet h).of_same ?_ ?_ ?_ fun i => ?_ <;> rw [stepTail, hds] <;> rfl
  have hflags : ∀ f, flagSet s.attn f = true → flagSet (stepTail s).attn f = true := by
    intro f hf
    refine flagSet_setFlag f _ ?_
    rw [hds, hform]
    exact hf
  refine ⟨os, ds', l, dialTarget (expireOverrides s).time, (setFlag .timeStepped s).attn, ?_, hmet', hflags⟩
  rw [stepTail, hds, hform]
  rfl

end Sys2Proof.Time
end

section
/-! PROOFS. A forward step within the day: rounds of work on open entries, each of which ends an entry or leaves it (R92). -/

namespace Sys2Proof.Time

open Sys2Proof Sys2Proof.Machine

variable {r s t u : State} {x e : Entry} {st : EntryState} {test : Entry → Bool} {day : Nat}

/-! ### Rounds -/

/-- Every open entry of an entry's slot on today's sheet has that entry's key. -/
def Sole (e : Entry) (s : State) : Prop :=
  ∀ x ∈ entriesOf s, x.key.slot = e.key.slot → x.state.isOpen = true → x.key = e.key

theorem sole_of_onlyOpen (h : OnlyOpen s e) : Sole e s := fun x hx hs ho => by rw [h.2 x hx hs ho]

theorem Sole.key_of_mem (h : Sole e s) (htest : ∀ x, test x = true → x.state.isOpen = true) :
    ∀ k ∈ keysWhere test s, k.slot = e.key.slot → k = e.key := by
  intro k hk hslot
  obtain ⟨x, hx, rfl, hx'⟩ := of_mem_keysWhere hk
  exact h x hx hslot (htest x hx')

theorem Sole.touched {ks : List Key} (h : Sole e s) (ht : Touched ks s t) (hks : ∀ k ∈ ks, k.slot = e.key.slot → k = e.key) : Sole e t := by
  intro x hx hslot ho
  obtain ⟨y, hy, hxy, hkeep⟩ := ht.back hx
  have hkey : x.key = y.key := by rw [hxy]
  by_cases hk : y.key ∈ ks
  · rw [hkey]
    exact hks _ hk (hkey ▸ hslot)
  · rw [hkeep hk] at hslot ho ⊢
    exact h y hy hslot ho

/-- What a round of work keeps of an entry: it is on the sheet as it was, and where its key is its slot's only open one, the slot's outcome
fields stand. -/
structure Keeps (x : Entry) (s t : State) : Prop where
  mem : x ∈ entriesOf t
  sole : Sole x s → Sole x t
  view : Sole x s → slotView (getSlot t x.key.slot) = slotView (getSlot s x.key.slot)

theorem Keeps.trans (h : Keeps x r s) (h' : Keeps x s t) : Keeps x r t :=
  ⟨h'.mem, fun hs => h'.sole (h.sole hs), fun hs => (h'.view (h.sole hs)).trans (h.view hs)⟩

/-- Work on a list of keys keeps an entry of another key. -/
theorem keeps_of_list {ks : List Key} (h : Touched ks s t) (hx : x ∈ entriesOf s) (hk : x.key ∉ ks)
    (honly : Sole x s → ∀ k ∈ ks, k.slot = x.key.slot → k = x.key) : Keeps x s t :=
  ⟨h.other hx hk, fun hs => hs.touched h (honly hs),
    fun hs => h.slots _ fun k hk' hslot => hk (by rw [← honly hs k hk' hslot]; exact hk')⟩

/-- A round on the open entries that a test selects keeps one that it does not select. -/
theorem keeps_of_touched (hopen : ∀ x, test x = true → x.state.isOpen = true) (h : Touched (keysWhere test s) s t)
    (hn : ((entriesOf s).map Entry.key).Nodup) (hx : x ∈ entriesOf s) (htest : test x = false) : Keeps x s t :=
  keeps_of_list h hx (fun hk => by rw [(mem_keysWhere hn hx).1 hk] at htest; cases htest) fun hs => hs.key_of_mem hopen

/-- How an entry ends: it is on the sheet in a final state, its record shows it, and a MISSED one has set its flag. -/
structure Ends (e : Entry) (st : EntryState) (s t : State) (day : Nat) : Prop where
  mem : { e with state := st } ∈ entriesOf t
  sole : Sole e s → Sole e t
  shows : Sole e s → (getSlot s e.key.slot).state ≠ .empty → OutcomeShown (getSlot s e.key.slot) (getSlot t e.key.slot) st day
  flag : st = .missed → flagSet t.attn .entryMissed = true

theorem Ends.before (h : Ends e st s t day) (hk : Keeps e r s) : Ends e st r t day where
  mem := h.mem
  sole hs := h.sole (hk.sole hs)
  shows hs hi := outcomeShown_congr (h.shows (hk.sole hs) (nonempty_of_view (hk.view hs) hi)) (hk.view hs).symm rfl
  flag := h.flag

theorem Ends.after (h : Ends e st s t day) (hk : Keeps { e with state := st } t u) (hc : Calm t u) : Ends e st s u day where
  mem := hk.mem
  sole hs := hk.sole (h.sole hs)
  shows hs hi := outcomeShown_congr (h.shows hs hi) rfl (hk.view (h.sole hs))
  flag hst := hc.flags _ (h.flag hst)

/-- An entry whose key is among those that end does so as its state says. -/
theorem EndsEntry.ends_list {f : Key → State → State} (hf : EndsEntry st f) {ks : List Key} (hks : ks.Nodup)
    (hn : ((entriesOf s).map Entry.key).Nodup) (he : e ∈ entriesOf s) (hk : e.key ∈ ks)
    (honly : Sole e s → ∀ k ∈ ks, k.slot = e.key.slot → k = e.key) :
    Ends e st s (ks.foldl (fun acc k => f k acc) s) (entryDay s e) := by
  obtain ⟨hmem, hflag⟩ := hf.ended he hk
  exact ⟨hmem, fun hs => hs.touched (hf.touched_all _ _) (honly hs), fun hs hi => hf.recorded hks hn he hk (honly hs) hi, hflag⟩

/-- A round that ends the entries that a test selects ends each as its state says. -/
theorem EndsEntry.ends {f : Key → State → State} (hf : EndsEntry st f) (hopen : ∀ x, test x = true → x.state.isOpen = true)
    (hn : ((entriesOf s).map Entry.key).Nodup) (he : e ∈ entriesOf s) (htest : test e = true) :
    Ends e st s ((keysWhere test s).foldl (fun acc k => f k acc) s) (entryDay s e) :=
  hf.ends_list (nodup_keysWhere test hn) hn he ((mem_keysWhere hn he).2 htest) fun hs => hs.key_of_mem hopen

/-- An entry that is open after entries have ended was on the sheet as it is. -/
theorem EndsEntry.open_back {f : Key → State → State} (hf : EndsEntry st f) (hst : st.isOpen = false) (ks : List Key)
    (hn : ((entriesOf s).map Entry.key).Nodup) (hx : x ∈ entriesOf (ks.foldl (fun acc k => f k acc) s)) (ho : x.state.isOpen = true) :
    x ∈ entriesOf s := by
  have htouch := hf.touched_all ks s
  obtain ⟨y, hy, hxy, hkeep⟩ := htouch.back hx
  by_cases hk : y.key ∈ ks
  · have hkey : x.key = y.key := by rw [hxy]
    rw [eq_of_key (htouch.nodup hn) hx (hf.ended hy hk).1 hkey, hst] at ho
    cases ho
  · rwa [hkeep hk]

/-! ### The rounds of a forward step -/

/-- An ACTIVE QUIET entry whose end the present instant has reached (R92). -/
def quietOver (now : Nat) (e : Entry) : Bool := e.kind == .quiet && e.state == .active && decide (e.endInstant.getD 0 ≤ now)

/-- A PENDING entry that a step jumps over (R92). -/
def passedOver (a now : Nat) (e : Entry) : Bool := e.state == .pending && decide (a < e.instant) && decide (e.instant < now)

/-- A DUE entry whose grace is over (R86, R92). -/
def overdue (s : State) (e : Entry) : Bool := e.state == .due && graceOver s e

def quietsEnded (s : State) : State := finaliseAll (keysWhere (quietOver s.time.instant) s) .done s

def jumpedMissed (a : Nat) (s : State) : State := finaliseAll (keysWhere (passedOver a s.time.instant) s) .missed s

def overdueMissed (s : State) : State := finaliseAll (keysWhere (overdue s) s) .missed s

theorem jumpForward_eq (a : Nat) (s : State) : jumpForward a s = fallDueNow (overdueMissed (jumpedMissed a (quietsEnded s))) := by
  have htime : (quietsEnded s).time = s.time := (calm_finaliseAll _ _ _).time
  have hround : jumpedMissed a (quietsEnded s) = finaliseAll (keysWhere (passedOver a s.time.instant) (quietsEnded s)) .missed (quietsEnded s) := by
    rw [jumpedMissed, htime]
  rw [hround]
  rfl

theorem quietOver_open {now : Nat} (x : Entry) (h : quietOver now x = true) : x.state.isOpen = true := by
  simp only [quietOver, Bool.and_eq_true, beq_iff_eq] at h
  rw [h.1.2]; rfl

theorem passedOver_open {a now : Nat} (x : Entry) (h : passedOver a now x = true) : x.state.isOpen = true := by
  simp only [passedOver, Bool.and_eq_true, beq_iff_eq] at h
  rw [h.1.1]; rfl

theorem overdue_open (x : Entry) (h : overdue s x = true) : x.state.isOpen = true := by
  simp only [overdue, Bool.and_eq_true, beq_iff_eq] at h
  rw [h.1]; rfl

theorem fallsDue_open (x : Entry) (h : fallsDue s x = true) : x.state.isOpen = true := by
  simp only [fallsDue, Bool.and_eq_true, beq_iff_eq] at h
  rw [h.1]; rfl

theorem touched_finaliseAll (ks : List Key) (st : EntryState) (s : State) : Touched ks s (finaliseAll ks st s) :=
  (endsEntry_finalise st).touched_all ks s

/-- The states of a forward step, round by round, with what every round keeps. -/
structure Rounds (a : Nat) (s : State) : Prop where
  nodup : ((entriesOf s).map Entry.key).Nodup
  nodup1 : ((entriesOf (quietsEnded s)).map Entry.key).Nodup
  nodup2 : ((entriesOf (jumpedMissed a (quietsEnded s))).map Entry.key).Nodup
  nodup3 : ((entriesOf (overdueMissed (jumpedMissed a (quietsEnded s)))).map Entry.key).Nodup
  calm1 : Calm s (quietsEnded s)
  calm2 : Calm s (jumpedMissed a (quietsEnded s))
  calm3 : Calm s (overdueMissed (jumpedMissed a (quietsEnded s)))
  waiting : s.lights.waiting = []

theorem rounds (a : Nat) (hw : s.lights.waiting = []) (hn : ((entriesOf s).map Entry.key).Nodup) : Rounds a s := by
  have h1 : ((entriesOf (quietsEnded s)).map Entry.key).Nodup := (touched_finaliseAll _ _ _).nodup hn
  have h2 : ((entriesOf (jumpedMissed a (quietsEnded s))).map Entry.key).Nodup := (touched_finaliseAll _ _ _).nodup h1
  have c1 : Calm s (quietsEnded s) := calm_finaliseAll _ _ _
  have c2 : Calm s (jumpedMissed a (quietsEnded s)) := c1.trans (calm_finaliseAll _ _ _)
  exact ⟨hn, h1, h2, (touched_finaliseAll _ _ _).nodup h2, c1, c2, c2.trans (calm_finaliseAll _ _ _), hw⟩

section Rounds

variable {a : Nat} (h : Rounds a s)
include h

theorem Rounds.calmDue : Calm (overdueMissed (jumpedMissed a (quietsEnded s))) (jumpForward a s) := by
  rw [jumpForward_eq]
  exact calm_fallDueNow (h.calm3.waiting.trans h.waiting)

theorem Rounds.touchedDue :
    Touched (keysWhere (fallsDue (overdueMissed (jumpedMissed a (quietsEnded s)))) (overdueMissed (jumpedMissed a (quietsEnded s))))
      (overdueMissed (jumpedMissed a (quietsEnded s))) (jumpForward a s) := by
  rw [jumpForward_eq]
  exact touched_becomeDueAll _ (h.calm3.waiting.trans h.waiting)

theorem Rounds.keepsQuiet (hx : x ∈ entriesOf s) (htest : quietOver s.time.instant x = false) : Keeps x s (quietsEnded s) :=
  keeps_of_touched quietOver_open (touched_finaliseAll _ _ _) h.nodup hx htest

theorem Rounds.keepsJumped (hx : x ∈ entriesOf (quietsEnded s)) (htest : passedOver a s.time.instant x = false) :
    Keeps x (quietsEnded s) (jumpedMissed a (quietsEnded s)) :=
  keeps_of_touched passedOver_open (touched_finaliseAll _ _ _) h.nodup1 hx (by rw [h.calm1.time]; exact htest)

theorem Rounds.keepsLate (hx : x ∈ entriesOf (jumpedMissed a (quietsEnded s))) (htest : overdue s x = false) :
    Keeps x (jumpedMissed a (quietsEnded s)) (overdueMissed (jumpedMissed a (quietsEnded s))) :=
  keeps_of_touched overdue_open (touched_finaliseAll _ _ _) h.nodup2 hx (by rw [overdue, graceOver_of_tower h.calm2.tower]; exact htest)

theorem Rounds.keepsDue (hx : x ∈ entriesOf (overdueMissed (jumpedMissed a (quietsEnded s)))) (htest : fallsDue s x = false) :
    Keeps x (overdueMissed (jumpedMissed a (quietsEnded s))) (jumpForward a s) :=
  keeps_of_touched fallsDue_open h.touchedDue h.nodup3 hx (by rw [fallsDue_of_tower h.calm3.tower]; exact htest)

/-- An entry that is in no round is kept by the step. -/
theorem Rounds.keeps (hx : x ∈ entriesOf s) (hquiet : quietOver s.time.instant x = false) (hjump : passedOver a s.time.instant x = false)
    (hlate : overdue s x = false) (hdue : fallsDue s x = false) : Keeps x s (jumpForward a s) := by
  have h1 := h.keepsQuiet hx hquiet
  have h2 := h1.trans (h.keepsJumped h1.mem hjump)
  have h3 := h2.trans (h.keepsLate h2.mem hlate)
  exact h3.trans (h.keepsDue h3.mem hdue)

/-- A QUIET entry whose end is reached ends DONE (R92). -/
theorem Rounds.quietEnds (he : e ∈ entriesOf s) (htest : quietOver s.time.instant e = true) :
    Ends e .done s (jumpForward a s) (entryDay s e) := by
  have hend : Ends e .done s (quietsEnded s) (entryDay s e) := (endsEntry_finalise .done).ends quietOver_open h.nodup he htest
  have h2 := h.keepsJumped hend.mem (by simp [passedOver])
  have h3 := h2.trans (h.keepsLate h2.mem (by simp [overdue]))
  exact hend.after (h3.trans (h.keepsDue h3.mem (by simp [fallsDue])))
    (((calm_finaliseAll _ _ _).trans (calm_finaliseAll _ _ _)).trans h.calmDue)

/-- A PENDING entry that the step jumps over ends MISSED (R92). -/
theorem Rounds.jumpedEnds (he : e ∈ entriesOf s) (htest : passedOver a s.time.instant e = true) :
    Ends e .missed s (jumpForward a s) (entryDay s e) := by
  have hpending : e.state = .pending := by
    simp only [passedOver, Bool.and_eq_true, beq_iff_eq] at htest
    exact htest.1.1
  have h1 := h.keepsQuiet he (by simp [quietOver, hpending])
  have hend : Ends e .missed (quietsEnded s) (jumpedMissed a (quietsEnded s)) (entryDay (quietsEnded s) e) :=
    (endsEntry_finalise .missed).ends passedOver_open h.nodup1 h1.mem (by rw [h.calm1.time]; exact htest)
  have hday : entryDay (quietsEnded s) e = entryDay s e := by rw [entryDay, h.calm1.time]; rfl
  rw [hday] at hend
  have h3 := h.keepsLate hend.mem (by simp [overdue])
  exact (hend.before h1).after (h3.trans (h.keepsDue h3.mem (by simp [fallsDue]))) ((calm_finaliseAll _ _ _).trans h.calmDue)

/-- A DUE entry whose grace is over ends MISSED (R86, R92). -/
theorem Rounds.lateEnds (he : e ∈ entriesOf s) (htest : overdue s e = true) :
    Ends e .missed s (jumpForward a s) (entryDay s e) := by
  have hdue : e.state = .due := by
    simp only [overdue, Bool.and_eq_true, beq_iff_eq] at htest
    exact htest.1
  have h1 := h.keepsQuiet he (by simp [quietOver, hdue])
  have h2 := h1.trans (h.keepsJumped h1.mem (by simp [passedOver, hdue]))
  have hend : Ends e .missed (jumpedMissed a (quietsEnded s)) (overdueMissed (jumpedMissed a (quietsEnded s)))
      (entryDay (jumpedMissed a (quietsEnded s)) e) :=
    (endsEntry_finalise .missed).ends overdue_open h.nodup2 h2.mem (by rw [overdue, graceOver_of_tower h.calm2.tower]; exact htest)
  have hday : entryDay (jumpedMissed a (quietsEnded s)) e = entryDay s e := by rw [entryDay, h.calm2.time]; rfl
  rw [hday] at hend
  exact (hend.before h2).after (h.keepsDue hend.mem (by simp [fallsDue])) h.calmDue

/-- An entry that is open when the entries fall due was on the sheet as it is. -/
theorem Rounds.open_back (hx : x ∈ entriesOf (overdueMissed (jumpedMissed a (quietsEnded s)))) (ho : x.state.isOpen = true) :
    x ∈ entriesOf s :=
  (endsEntry_finalise .done).open_back rfl _ h.nodup
    ((endsEntry_finalise .missed).open_back rfl _ h.nodup1 ((endsEntry_finalise .missed).open_back rfl _ h.nodup2 hx ho) ho) ho

/-- An entry that falls due does so at its turn: it goes to the state that its kind and the mains state give it there, and ends where that
is final (R79, R92). -/
theorem Rounds.fallsDue_turn (he : e ∈ entriesOf s) (hdue : fallsDue s e = true) (hjump : passedOver a s.time.instant e = false) :
    ∃ u, Calm s u ∧ { e with state := dueState (markedDue e u) e } ∈ entriesOf (jumpForward a s) ∧
      (∀ q ∈ entriesOf u, q.kind = .quiet → q.state = .active →
        ∃ q' ∈ entriesOf s, q'.kind = .quiet ∧ (q'.state = .active ∨ q'.state = .pending)) ∧
      ((dueState (markedDue e u) e).isOpen = false →
        Ends e (dueState (markedDue e u) e) s (jumpForward a s) (entryDay s e)) := by
  have hpending : e.state = .pending := by
    simp only [fallsDue, Bool.and_eq_true, beq_iff_eq] at hdue
    exact hdue.1
  have h1 := h.keepsQuiet he (by simp [quietOver, hpending])
  have h2 := h1.trans (h.keepsJumped h1.mem hjump)
  have h3 := h2.trans (h.keepsLate h2.mem (by simp [overdue, hpending]))
  have hcalmDue := h.calmDue
  have htouchDue := h.touchedDue
  have hopenBack : ∀ x ∈ entriesOf (overdueMissed (jumpedMissed a (quietsEnded s))), x.state.isOpen = true → x ∈ entriesOf s :=
    fun x hx => h.open_back hx
  have hcalm3 := h.calm3
  have hnodup3 := h.nodup3
  rw [jumpForward_eq] at hcalmDue htouchDue ⊢
  generalize overdueMissed (jumpedMissed a (quietsEnded s)) = v at *
  have hdue3 : fallsDue v e = true := by rwa [fallsDue_of_tower hcalm3.tower]
  obtain ⟨u, hfell⟩ := fellDue_of_mem (hcalm3.waiting.trans h.waiting) (nodup_keysWhere _ hnodup3)
    (fun x hx => eq_of_key hnodup3 hx h3.mem) h3.mem
    ((mem_keysWhere hnodup3 h3.mem).2 hdue3) hdue3
  refine ⟨u, hcalm3.trans hfell.calm, hfell.stands, fun q hq hkind hactive => ?_, fun hfinal => ?_⟩
  · obtain ⟨l, hl, htouch⟩ := hfell.touched
    obtain ⟨y, hy, hqy, hkeep⟩ := htouch.back hq
    have hykind : y.kind = .quiet := by rw [← hkind, hqy]
    by_cases hk : y.key ∈ l
    · have hy' := (mem_keysWhere hnodup3 hy).1 (hl _ hk)
      simp only [fallsDue, Bool.and_eq_true, beq_iff_eq] at hy'
      exact ⟨y, hopenBack y hy (by rw [hy'.1]; rfl), hykind, Or.inr hy'.1⟩
    · rw [hkeep hk] at hactive
      exact ⟨y, hopenBack y hy (by rw [hactive]; rfl), hykind, Or.inl hactive⟩
  · have hend : Ends e (dueState (markedDue e u) e) v (fallDueNow v) (entryDay v e) :=
      ⟨hfell.stands, fun hs => hs.touched htouchDue (hs.key_of_mem fallsDue_open),
        fun hs hi => hfell.shows hfinal (hs.key_of_mem fallsDue_open) hi, hfell.flag⟩
    have hday : entryDay v e = entryDay s e := by rw [entryDay, hcalm3.time]; rfl
    rw [hday] at hend
    exact hend.before h3

end Rounds

end Sys2Proof.Time
end

section
/-! PROOFS. A step within the day: what becomes of the sheet, the lit-record set and the requests (R68, R84, R92, R93). -/

namespace Sys2Proof.Time

open Sys2Proof Sys2Proof.Machine

variable {r s t u v : State} {x e : Entry} {st : EntryState} {day : Nat}

/-! ### The lit-record set (R84) -/

theorem lightEntry_iff (hn : ((entriesOf s).map Entry.key).Nodup) (k : Key) :
    lightEntry s k = some x ↔ x ∈ entriesOf s ∧ x.key = k ∧ x.kind = .light := by
  rw [lightEntry, Option.filter_eq_some_iff, beq_iff_eq]
  constructor
  · rintro ⟨hfind, hkind⟩
    obtain ⟨hmem, hkey⟩ := findEntry_mem hfind
    exact ⟨hmem, hkey, hkind⟩
  · rintro ⟨hmem, rfl, hkind⟩
    exact ⟨findEntry_self hn hmem, hkind⟩

theorem litNow_lightEntry (s : State) (i : SlotNo) :
    litNow s i = true ↔
      liveLight s i = true ∧ (∃ x, lightEntry s ⟨i, 0⟩ = some x ∧ x.state ≠ .skipped ∧ x.instant ≤ s.time.instant) ∧
        ∀ x, lightEntry s ⟨i, 1⟩ = some x → s.time.instant < x.instant := by
  unfold litNow
  cases lightEntry s ⟨i, 0⟩ with
  | none => simp
  | some on =>
    cases lightEntry s ⟨i, 1⟩ with
    | none => simp
    | some off => simp [and_assoc]

/-- A slot is in the recomputed set just where R84 says. -/
theorem litNow_iff (hn : ((entriesOf s).map Entry.key).Nodup) (i : SlotNo) :
    litNow s i = true ↔
      (getSlot s i).state = .live ∧ imgKind (getSlot s i).image = some .light ∧
        (∃ x ∈ entriesOf s, x.key = ⟨i, 0⟩ ∧ x.kind = .light ∧ x.state ≠ .skipped ∧ x.instant ≤ s.time.instant) ∧
        ∀ x ∈ entriesOf s, x.key = ⟨i, 1⟩ → x.kind = .light → s.time.instant < x.instant := by
  simp only [litNow_lightEntry, lightEntry_iff hn, liveLight, Bool.and_eq_true, beq_iff_eq, and_assoc, and_imp]

/-! ### Requests (R67, R68) -/

/-- What a trigger of both rebuilds does: the standby goes STALE, the requests are made where time-valid is set, and a run is marked. -/
theorem trigger_effect (s : State) :
    (trigger s).sheets = { s.sheets with status := if s.sheets.status = .fresh then .stale else s.sheets.status } ∧
    (s.time.valid = true →
      (trigger s).resolver.todayReq = true ∧ (s.time.localDate ≠ lastDay → (trigger s).resolver.standbyReq = true)) ∧
    (s.time.valid = false →
      (trigger s).resolver.todayReq = s.resolver.todayReq ∧ (trigger s).resolver.standbyReq = s.resolver.standbyReq) ∧
    (trigger s).resolver.run = s.resolver.run.map (fun r => { r with triggered := true }) ∧
    (trigger s).resolver.query = s.resolver.query ∧ (trigger s).resolver.result = s.resolver.result ∧
    { trigger s with sheets := s.sheets, resolver := s.resolver } = s := by
  cases hv : s.time.valid <;> cases hr : s.resolver.todayReq <;> by_cases hd : s.time.localDate = lastDay <;>
    simp [trigger, requestToday, requestStandby, markStale, updResolver, hv, hr, hd]

/-! ### What a step's end leaves of the sheets -/

/-- A state keeps today's sheet, the table and the time of another, and clears none of its flags. -/
structure Lasts (s t : State) : Prop where
  sheet : t.sheets.today = s.sheets.today
  table : t.table = s.table
  time : t.time = s.time
  flags : ∀ f, flagSet s.attn f = true → flagSet t.attn f = true

theorem Lasts.slot (h : Lasts s t) (i : SlotNo) : getSlot t i = getSlot s i := getSlot_of_table h.table i

theorem Lasts.entries (h : Lasts s t) : entriesOf t = entriesOf s := congrArg Sheet.entries h.sheet

theorem litAsOnSheet_of (h : Lasts v t) (hn : ((entriesOf v).map Entry.key).Nodup) (hlit : ∀ i, t.lanes.lit.get i = litNow v i) :
    LitAsOnSheet t := by
  intro i
  rw [hlit, litNow_iff hn, h.slot, h.time]
  change _ ↔ _ ∧ _ ∧ (∃ x ∈ entriesOf t, _) ∧ ∀ x ∈ entriesOf t, _
  rw [h.entries]

/-- The end of a step on a state v whose lit-record set is handed on and whose requests are made: what lasts of v, and what the step has
done by then. -/
theorem recomputed_lights (hw : v.lights.waiting = []) :
    Lasts v (recomputeLit v) ∧ Calm v (recomputeLit v) ∧ (∀ i, (recomputeLit v).lanes.lit.get i = litNow v i) ∧
      (recomputeLit v).resolver = v.resolver ∧ (recomputeLit v).sheets = v.sheets := by
  obtain ⟨l, hl, hcalm⟩ := setLit_lights hw (Vector.ofFn fun i => litNow v i)
  have hform : recomputeLit v = { v with lanes := { v.lanes with lit := Vector.ofFn fun i => litNow v i }, lights := l } := hl
  refine ⟨?_, hcalm, fun i => ?_, ?_, ?_⟩
  · rw [hform]; exact ⟨rfl, rfl, rfl, fun _ h => h⟩
  · rw [hform]; exact get_ofFn _ _
  · rw [hform]
  · rw [hform]

/-- A step's tail keeps what the sheets' part of the step has done, the resolver and the lanes, and the wanted levels still follow the
governing scene. -/
theorem tail_lasts (hw : s.lights.waiting = []) (hp : PealStays s.peal s.bells) :
    Lasts s (stepTail s) ∧ (stepTail s).sheets = s.sheets ∧ (stepTail s).resolver = s.resolver ∧ (stepTail s).lanes = s.lanes ∧
      (WantedMet s → WantedMet (stepTail s)) := by
  obtain ⟨os, ds, l, n, a, hform, hmet, hflags⟩ := stepTail_lights hw hp
  refine ⟨⟨?_, ?_, ?_, hflags⟩, ?_, ?_, ?_, hmet⟩ <;> rw [hform]

/-! ### Entries of a forward step (R92) -/

/-- The state in which a step within the day begins: the new time, and no LIGHT entry left to apply again. -/
def stepStart (new : TimeBase) (s : State) : State :=
  { s with time := new, sheets := { s.sheets with relight := [], standbyTime := false } }

variable {new : TimeBase}

theorem Ends.endsAs (h : Ends e st (stepStart new s) v (entryDay (stepStart new s) e)) (hl : Lasts v t)
    (hdate : new.localDate = s.time.localDate) : EndsAs s t e st := by
  refine ⟨?_, fun honly => ?_, fun hst => hl.flags _ (h.flag hst)⟩
  · rw [hl.sheet]; exact h.mem
  · have hday : entryDay (stepStart new s) e = entryDay s e := by
      change (if e.carried then new.localDate - 1 else new.localDate) = _
      rw [hdate]
      rfl
    have hshown := h.shows (sole_of_onlyOpen honly) honly.1
    rw [hday, ← hl.slot] at hshown
    exact hshown

section Forward

variable {a : Nat} (h : Rounds a (stepStart new s)) (hl : Lasts (jumpForward a (stepStart new s)) t)
  (hdate : new.localDate = s.time.localDate) (he : e ∈ s.sheets.today.entries)
include h hl hdate he

/-- An entry at the instant that the step reaches falls due by its kind and the mains state (R80 to R83). -/
theorem fallsAt_of_rounds (hpending : e.state = .pending) (hinst : e.instant = new.instant) : FallsAt s t e := by
  have hdue : fallsDue (stepStart new s) e = true := by simp [fallsDue, hpending, stepStart, hinst]
  have hjump : passedOver a (stepStart new s).time.instant e = false := by simp [passedOver, stepStart, hinst]
  obtain ⟨u, hcalm, hmem, hquiet, hends⟩ := h.fallsDue_turn he hdue hjump
  have hmarked : Calm (stepStart new s) (markedDue e u) := hcalm.trans (calm_updToday _)
  have hmains : (markedDue e u).mains = s.mains := hmarked.mains
  have hgrace : graceOver (markedDue e u) e = false := by
    rw [graceOver_of_tower hmarked.tower]
    simp [graceOver, stepStart, hinst]
  have hsilence : silenceCovers (markedDue e u) e = silenceCovers s e := silenceCovers_of_tower hmarked.tower e
  change { e with state := _ } ∈ entriesOf _ at hmem
  rw [← hl.entries] at hmem
  refine ⟨fun hk => ?_, fun hk hm => ?_, fun hk hm => ?_, fun hk hm => ?_⟩
  · rw [dueState_light hk] at hends
    exact (hends rfl).endsAs hl hdate
  · rwa [dueState_quiet hk, hmains, hm, if_neg (by decide)] at hmem
  · have hst : dueState (markedDue e u) e = .missed := by
      rcases hk with hk | hk
      · rw [dueState_quiet hk, hmains, hm, if_pos rfl]
      · rw [dueState_sounding hk, soundingState, hmains, hm, if_pos rfl]
    rw [hst] at hends
    exact (hends rfl).endsAs hl hdate
  · have hst : dueState (markedDue e u) e = if covered (markedDue e u) e then .withheld else .due := by
      rw [dueState_sounding hk, soundingState, hmains, hm, if_neg (by decide), hgrace]
      rfl
    rw [hst] at hmem
    refine ⟨?_, fun hcov => ?_, fun hcov hnone => ?_⟩
    · cases hcov : covered (markedDue e u) e <;> rw [hcov] at hmem
      · exact Or.inl hmem
      · exact Or.inr hmem
    · have : covered (markedDue e u) e = true := by rw [covered, hsilence, hcov, Bool.true_or]
      rwa [this] at hmem
    · have hnoQuiet : ∀ q ∈ entriesOf (markedDue e u), q.kind = .quiet → q.state ≠ .active := by
        intro q hq hqk hqa
        obtain ⟨y, hy, rfl⟩ := List.mem_map.1 hq
        by_cases hkey : y.key = e.key
        · rw [if_pos hkey] at hqa
          cases hqa
        · rw [if_neg hkey] at hqa hqk
          obtain ⟨q', hq', hk', hst'⟩ := hquiet y hy hqk hqa
          obtain ⟨hna, hnp⟩ := hnone q' hq' hk'
          exact hst'.elim hna hnp
      rwa [covered_of_noQuiet e hnoQuiet, hsilence, hcov] at hmem

/-- What a forward step within the day makes of an entry (R92). -/
theorem jumped_of_rounds (ha : a = s.time.instant) (htime : t.time.instant = new.instant) : Jumped s t e := by
  refine ⟨fun hk hst hend => ?_, fun hst h1 h2 => ?_, fun hst hlate => ?_, fun hst h1 h2 => ?_, fun hkeep => ?_⟩
  · obtain ⟨z, hz, hle⟩ := hend
    rw [htime] at hle
    exact (h.quietEnds he (by simp [quietOver, hk, hst, hz, stepStart, hle])).endsAs hl hdate
  · rw [htime] at h2
    exact (h.jumpedEnds he (by simp [passedOver, hst, ha, h1, stepStart, h2])).endsAs hl hdate
  · rw [htime] at hlate
    have hover : overdue (stepStart new s) e = true := by
      rw [overdue, hst]
      exact decide_eq_true hlate
    exact (h.lateEnds he hover).endsAs hl hdate
  · rw [htime] at h2
    exact fallsAt_of_rounds h hl hdate he hst h2
  · rw [htime] at hkeep
    have hgrace : graceOf (stepStart new s) e = graceOf s e := rfl
    have htests : quietOver new.instant e = false ∧ passedOver a new.instant e = false ∧ overdue (stepStart new s) e = false ∧
        fallsDue (stepStart new s) e = false := by
      rcases hkeep with hclosed | ⟨hst, hlt⟩ | ⟨hst, hle⟩ | ⟨hst, hend⟩
      · have hno : ∀ test : Entry → Bool, (∀ x, test x = true → x.state.isOpen = true) → test e = false := by
          intro test hopen
          by_contra hc
          rw [hopen e (by simpa using hc)] at hclosed
          cases hclosed
        exact ⟨hno _ quietOver_open, hno _ passedOver_open, hno _ overdue_open, hno _ fallsDue_open⟩
      · have hlt' : ¬ e.instant < new.instant ∧ ¬ e.instant ≤ new.instant := ⟨by omega, by omega⟩
        simp [quietOver, passedOver, overdue, fallsDue, hst, stepStart, hlt'.1, hlt'.2]
      · have hover : graceOver (stepStart new s) e = false := decide_eq_false (Nat.not_lt.2 hle)
        simp [quietOver, passedOver, overdue, fallsDue, hst, hover]
      · have hquiet : quietOver new.instant e = false := by
          by_cases hk : e.kind = .quiet
          · obtain ⟨z, hz, hlt⟩ := hend hk
            simp [quietOver, hz, hlt]
          · simp [quietOver, hk]
        simp [hquiet, passedOver, overdue, fallsDue, hst]
    obtain ⟨h1, h2, h3, h4⟩ := htests
    rw [hl.sheet]
    exact (h.keeps he h1 h2 h3 h4).mem

end Forward

theorem restate_skeleton (g : Entry → EntryState) (es : List Entry) :
    (restate g es).map (fun e => { e with state := .pending }) = es.map (fun e => { e with state := .pending }) := by
  simp [restate, Function.comp_def]

theorem touched_jumpForward {a : Nat} (h : Rounds a s) : ∃ ks, Touched ks s (jumpForward a s) :=
  ⟨_, (((touched_finaliseAll _ _ _).trans (touched_finaliseAll _ _ _)).trans (touched_finaliseAll _ _ _)).trans h.touchedDue⟩

end Sys2Proof.Time
end

section
/-! PROOFS. A step within the day as a whole (R40, R68, R84, R92, R93). -/

namespace Sys2Proof.Time

open Sys2Proof Sys2Proof.Machine

variable {s t u v : State} {new : TimeBase}

/-- The sheets' part of a step within the day. -/
def sheetsStepped (new : TimeBase) (s : State) : State :=
  if s.time.instant < new.instant then jumpForward s.time.instant (stepStart new s) else stepStart new s

theorem stepWithin_eq (new : TimeBase) (s : State) :
    stepWithin s.time.instant new s = stepTail (trigger (recomputeLit (sheetsStepped new s))) := rfl

theorem calm_jumpForward {a : Nat} (h : Rounds a s) : Calm s (jumpForward a s) := h.calm3.trans h.calmDue

theorem calm_sheetsStepped (hw : s.lights.waiting = []) (hn : ((entriesOf s).map Entry.key).Nodup) :
    Calm (stepStart new s) (sheetsStepped new s) := by
  unfold sheetsStepped
  split
  · exact calm_jumpForward (rounds _ hw hn)
  · exact Calm.refl _

theorem nodup_sheetsStepped (hw : s.lights.waiting = []) (hn : ((entriesOf s).map Entry.key).Nodup) :
    ((entriesOf (sheetsStepped new s)).map Entry.key).Nodup := by
  unfold sheetsStepped
  split
  · obtain ⟨ks, hks⟩ := touched_jumpForward (rounds (s := stepStart new s) s.time.instant hw hn)
    exact hks.nodup hn
  · exact hn

/-- What lasts of the sheets' part once the set is recomputed, the requests are made and the tail has run. -/
theorem stepEnd_lasts (hw : v.lights.waiting = []) (hp : PealStays v.peal v.bells) :
    Lasts v (stepTail (trigger (recomputeLit v))) ∧
    (stepTail (trigger (recomputeLit v))).sheets
      = { v.sheets with status := if v.sheets.status = .fresh then .stale else v.sheets.status } ∧
    (stepTail (trigger (recomputeLit v))).resolver = (trigger (recomputeLit v)).resolver ∧
    (∀ i, (stepTail (trigger (recomputeLit v))).lanes.lit.get i = litNow v i) ∧
    (WantedMet (recomputeLit v) → WantedMet (stepTail (trigger (recomputeLit v)))) := by
  obtain ⟨hlasts, hcalm, hlit, -, hsheets⟩ := recomputed_lights hw
  obtain ⟨hstale, -, -, -, -, -, hsame⟩ := trigger_effect (recomputeLit v)
  generalize recomputeLit v = w at *
  have hpeal : (trigger w).peal = w.peal := (congrArg State.peal hsame :)
  have hbells : (trigger w).bells = w.bells := (congrArg State.bells hsame :)
  have hlights : (trigger w).lights = w.lights := (congrArg State.lights hsame :)
  have htable : (trigger w).table = w.table := (congrArg State.table hsame :)
  have htime : (trigger w).time = w.time := (congrArg State.time hsame :)
  have hattn : (trigger w).attn = w.attn := (congrArg State.attn hsame :)
  have hlanes : (trigger w).lanes = w.lanes := (congrArg State.lanes hsame :)
  have hover : (trigger w).overrides = w.overrides := (congrArg State.overrides hsame :)
  have hwait : (trigger w).lights.waiting = [] := by rw [hlights, hcalm.waiting, hw]
  have hstays : PealStays (trigger w).peal (trigger w).bells := by rw [hpeal, hbells, hcalm.peal, hcalm.bells]; exact hp
  obtain ⟨htail, hsheets', hresolver, hlanes', hmet⟩ := tail_lasts hwait hstays
  refine ⟨⟨?_, ?_, ?_, fun f hf => htail.flags f ?_⟩, ?_, hresolver, fun i => ?_, ?_⟩
  · rw [hsheets', hstale, hsheets]
  · rw [htail.table, htable, hlasts.table]
  · rw [htail.time, htime, hlasts.time]
  · rw [hattn]; exact hlasts.flags f hf
  · rw [hsheets', hstale, hsheets]
  · rw [hlanes', hlanes, hlit]
  · refine fun h => hmet ?_
    exact h.of_same (scene_of_overrides hover) (by rw [hlanes]) hlights fun i => by rw [getSlot_of_table htable]

/-- A step within the day does to the sheets what R92 and R93 say. -/
theorem stepWithin_acts (hw : s.lights.waiting = []) (hp : PealStays s.peal s.bells) (hn : (s.sheets.today.entries.map Entry.key).Nodup)
    (hdate : new.localDate = s.time.localDate) :
    SteppedWithin s (stepWithin s.time.instant new s) ∧
      ((stepWithin s.time.instant new s).lanes.lit ≠ s.lanes.lit → WantedMet (stepWithin s.time.instant new s)) := by
  rw [stepWithin_eq]
  have hcalm := calm_sheetsStepped (new := new) hw hn
  have hnodup := nodup_sheetsStepped (new := new) hw hn
  have hwait : (sheetsStepped new s).lights.waiting = [] := hcalm.waiting.trans hw
  obtain ⟨hlasts, hsheets, hresolver, hlit, hmet⟩ := stepEnd_lasts hwait (by rw [hcalm.peal, hcalm.bells]; exact hp)
  obtain ⟨-, hcalmLit, hlitNow, hresLit, -⟩ := recomputed_lights hwait
  have htime : (stepTail (trigger (recomputeLit (sheetsStepped new s)))).time = new := hlasts.time.trans hcalm.time
  have hstandby : (sheetsStepped new s).sheets.standby = s.sheets.standby := congrArg TowerView.standby hcalm.tower
  have hstatus : (sheetsStepped new s).sheets.status = s.sheets.status := congrArg TowerView.status hcalm.tower
  have htallies : (sheetsStepped new s).sheets.today.tallies = s.sheets.today.tallies := congrArg TowerView.tallies hcalm.tower
  have hres : (recomputeLit (sheetsStepped new s)).resolver = s.resolver := hresLit.trans (congrArg TowerView.resolver hcalm.tower)
  have hvalid : (recomputeLit (sheetsStepped new s)).time = new := hcalmLit.time.trans hcalm.time
  obtain ⟨-, hreq, hnoReq, hrun, hquery, hresult, -⟩ := trigger_effect (recomputeLit (sheetsStepped new s))
  rw [← hresolver, hvalid] at hreq hnoReq
  rw [hres] at hnoReq hrun hquery hresult
  rw [← hresolver] at hrun hquery hresult
  refine ⟨⟨fun hback => ?_, fun hforward => ?_, litAsOnSheet_of hlasts hnodup hlit, ?_, ?_, ?_, ?_, hrun, hquery, hresult⟩, fun hne => ?_⟩
  · rw [htime] at hback
    rw [hlasts.sheet, sheetsStepped, if_neg (Nat.not_lt.2 hback)]
    rfl
  · rw [htime] at hforward
    have hv : sheetsStepped new s = jumpForward s.time.instant (stepStart new s) := if_pos hforward
    have hrounds := rounds (s := stepStart new s) s.time.instant hw hn
    refine ⟨by rw [hlasts.sheet, htallies], ?_, fun e he => ?_⟩
    · obtain ⟨ks, hks⟩ := touched_jumpForward hrounds
      obtain ⟨g, hg, -⟩ := hks.entries
      rw [hlasts.sheet, hv]
      exact (congrArg _ hg).trans (restate_skeleton g _)
    · rw [hv] at hlasts htime ⊢
      exact jumped_of_rounds hrounds hlasts hdate he rfl (congrArg TimeBase.instant htime)
  · rw [hsheets]; exact hstandby
  · rw [hsheets]; simp only [hstatus]
  · rw [htime]; exact hreq
  · rw [htime]; exact hnoReq
  · have hfinal : (stepTail (trigger (recomputeLit (sheetsStepped new s)))).lanes.lit = (recomputeLit (sheetsStepped new s)).lanes.lit :=
      Vector.ext fun i hi => (hlit ⟨i, hi⟩).trans (hlitNow ⟨i, hi⟩).symm
    rcases (hcalm.trans hcalmLit).lit with ⟨hsame, -⟩ | hwanted
    · exact absurd (hfinal.trans hsame) hne
    · exact hmet hwanted

end Sys2Proof.Time
end

section
/-! PROOFS. A step into another date: the lanes are released, the old sheet ends, and both sheets are emptied (R70, R72, R84). -/

namespace Sys2Proof.Time

open Sys2Proof Sys2Proof.Machine

variable {s t u v : State} {new : TimeBase} {e x : Entry} {st : EntryState}

/-! ### The lanes are released (R72, R88) -/

theorem releaseLane_chime (s : State) :
    ∃ tunes, releaseLane .chime s = { s with lanes := { s.lanes with chime := none }, tunes := tunes } := by
  unfold releaseLane
  split
  · exact ⟨_, rfl⟩
  · next h =>
    have hfree : s.lanes.chime = none := by simpa [laneKey] using h
    refine ⟨s.tunes, ?_⟩
    rw [← hfree]

theorem releaseLane_toll (s : State) :
    ∃ run, releaseLane .toll s = { s with lanes := { s.lanes with toll := none, tollRun := run } } := by
  unfold releaseLane
  split
  · exact ⟨_, rfl⟩
  · next h =>
    have hfree : s.lanes.toll = none := by simpa [laneKey] using h
    refine ⟨s.lanes.tollRun, ?_⟩
    rw [← hfree]

/-- A cut peal is gone, and its bells' work ends no entry. -/
theorem bellWork_cutPeal (s : State) : BellWork { s with peal := none } (cutPeal s) := by
  unfold cutPeal
  split
  · next h => rw [← h]; exact BellWork.refl s
  · exact BellWork.foldl (fun u st => bellWork_putDown st) _ _

/-- Every lane is FREE once the lanes are released (R72). -/
theorem releaseLanes_free (s : State) (lane : Lane) : laneKey (releaseLanes s) lane = none := by
  obtain ⟨tunes, hchime⟩ := releaseLane_chime s
  obtain ⟨run, htoll⟩ := releaseLane_toll (releaseLane .chime s)
  have hform : releaseLanes s = releaseLane .peal (releaseLane .toll (releaseLane .chime s)) := rfl
  rw [hform, htoll, hchime]
  unfold releaseLane
  split
  · obtain ⟨-, -, -, hchime', htoll', -, -⟩ :=
      (bellWork_cutPeal { s with lanes := { s.lanes with chime := none, toll := none, tollRun := run }, tunes := tunes }).free rfl rfl
    cases lane with
    | chime => exact hchime'
    | toll => exact htoll'
    | peal => rfl
  · next h =>
    cases lane with
    | chime => rfl
    | toll => rfl
    | peal => simpa [laneKey] using h

/-- The released lanes: nothing moved but the lanes and the tower's work, and what peal stays has nothing to go on to. -/
structure Released (s v : State) : Prop where
  lit : v.lanes.lit = s.lanes.lit
  lights : v.lights = s.lights
  sheets : v.sheets = s.sheets
  table : v.table = s.table
  attn : v.attn = s.attn
  stays : PealStays v.peal v.bells

theorem lights_eq {l l' : Lights} (h : ({ l' with waiting := [] } : Lights) = { l with waiting := [] }) (hw : l.waiting = [])
    (hw' : l'.waiting = []) : l' = l := by
  cases l; cases l'
  simp_all

theorem released (hw : s.lights.waiting = []) (hp : PealStays s.peal s.bells) : Released s (releaseLanes s) := by
  obtain ⟨tunes, hchime⟩ := releaseLane_chime s
  obtain ⟨run, htoll⟩ := releaseLane_toll (releaseLane .chime s)
  have hform : releaseLanes s = releaseLane .peal (releaseLane .toll (releaseLane .chime s)) := rfl
  rw [hform, htoll, hchime]
  unfold releaseLane
  split
  · have hwork := bellWork_cutPeal { s with lanes := { s.lanes with chime := none, toll := none, tollRun := run }, tunes := tunes }
    obtain ⟨hsheets, htable, hattn, -, -, -, hlit⟩ := hwork.free rfl rfl
    refine ⟨hlit, lights_eq hwork.zones hw (hwork.waiting hw), hsheets, htable, hattn, fun p hpeal => ?_⟩
    have hnone := hwork.peal
    rw [show (cutPeal _).peal = some p from hpeal] at hnone
    cases hnone
  · exact ⟨rfl, rfl, rfl, rfl, rfl, hp⟩

/-! ### The old sheet ends (R72) -/

/-- The keys of the entries that are cut short: those of the lanes, and those of the ACTIVE QUIET entries (R72). -/
def cutKeys (s : State) : List Key := allLanes.filterMap (laneKey s) ++ quietKeys s

theorem mem_laneKeys {k : Key} : k ∈ allLanes.filterMap (laneKey s) ↔ ∃ lane, laneKey s lane = some k := by
  rw [List.mem_filterMap]
  exact ⟨fun ⟨lane, _, h⟩ => ⟨lane, h⟩, fun ⟨lane, h⟩ => ⟨lane, by cases lane <;> simp [allLanes], h⟩⟩

theorem quietKeys_eq (s : State) : quietKeys s = keysWhere (fun e => e.kind == .quiet && e.state == .active) s := rfl

/-- Where the lanes hold entries of their own kinds, every key cut short is that of an ACTIVE entry. -/
theorem active_of_cutKeys (hown : LanesHoldTheirOwn s) {k : Key} (hk : k ∈ cutKeys s) :
    ∃ e ∈ entriesOf s, e.key = k ∧ e.state = .active := by
  rw [cutKeys, List.mem_append, mem_laneKeys] at hk
  rcases hk with ⟨lane, hlane⟩ | hquiet
  · obtain ⟨e, he, hkey, hst, -⟩ := hown lane k hlane
    exact ⟨e, he, hkey, hst⟩
  · obtain ⟨e, he, hkey, htest⟩ := of_mem_keysWhere (quietKeys_eq s ▸ hquiet)
    simp only [Bool.and_eq_true, beq_iff_eq] at htest
    exact ⟨e, he, hkey, htest.2⟩

/-- Where the lanes hold entries of their own kinds, no two lanes hold one key. -/
theorem lane_injective (hown : LanesHoldTheirOwn s) (hn : ((entriesOf s).map Entry.key).Nodup) {l l' : Lane} {k : Key}
    (h : laneKey s l = some k) (h' : laneKey s l' = some k) : l = l' := by
  obtain ⟨e, he, hkey, -, hlane⟩ := hown l k h
  obtain ⟨e', he', hkey', -, hlane'⟩ := hown l' k h'
  rw [eq_of_key hn he' he (hkey'.trans hkey.symm), hlane] at hlane'
  exact Option.some.inj hlane'

theorem nodup_cutKeys (hown : LanesHoldTheirOwn s) (hn : ((entriesOf s).map Entry.key).Nodup) : (cutKeys s).Nodup := by
  rw [cutKeys, List.nodup_append]
  refine ⟨?_, nodup_keysWhere _ hn, fun k hk k' hk' heq => ?_⟩
  · refine List.Nodup.filterMap (fun l l' k h h' => lane_injective hown hn h h') (by decide)
  · subst heq
    obtain ⟨lane, hlane⟩ := mem_laneKeys.1 hk
    obtain ⟨e, he, hkey, -, hkind⟩ := hown lane k hlane
    obtain ⟨q, hq, hkey', htest⟩ := of_mem_keysWhere (quietKeys_eq s ▸ hk')
    rw [eq_of_key hn hq he (hkey'.trans hkey.symm)] at htest
    simp only [Bool.and_eq_true, beq_iff_eq] at htest
    rw [htest.1] at hkind
    cases hkind

theorem sole_cutKeys (hown : LanesHoldTheirOwn s) (hs : Sole e s) : ∀ k ∈ cutKeys s, k.slot = e.key.slot → k = e.key := by
  intro k hk hslot
  obtain ⟨y, hy, rfl, hst⟩ := active_of_cutKeys hown hk
  exact hs y hy hslot (by rw [hst]; rfl)

/-- The first part of the old sheet's end: the lanes are released and the ACTIVE entries cut short. -/
def activesCut (s : State) : State := concludeAll (cutKeys s) .cutShort (releaseLanes s)

/-- The second part, of a forward step: what is still open is MISSED. -/
def opensMissed (s : State) : State := concludeAll (keysWhere (fun e => e.state.isOpen) s) .missed s

theorem endOldSheet_eq (forward : Bool) (s : State) :
    endOldSheet forward s = if forward then opensMissed (activesCut s) else activesCut s := rfl

theorem Released.slot (h : Released s v) (i : SlotNo) : getSlot v i = getSlot s i := getSlot_of_table h.table i

theorem Released.entries (h : Released s v) : entriesOf v = entriesOf s := by rw [entriesOf, h.sheets]

theorem keeps_of_equal (hentries : entriesOf t = entriesOf s) (hslot : ∀ i, getSlot t i = getSlot s i) (hx : x ∈ entriesOf s) :
    Keeps x s t :=
  ⟨hentries.symm ▸ hx, fun hs y hy => hs y (hentries ▸ hy), fun _ => by rw [hslot]⟩

theorem calm_activesCut (s : State) : Calm (releaseLanes s) (activesCut s) := calm_concludeAll _ _ _

theorem calm_endOldSheet (forward : Bool) (s : State) : Calm (releaseLanes s) (endOldSheet forward s) := by
  rw [endOldSheet_eq]
  split
  · exact (calm_activesCut s).trans (calm_concludeAll _ _ _)
  · exact calm_activesCut s

section OldSheet

variable (hw : s.lights.waiting = []) (hp : PealStays s.peal s.bells) (hn : ((entriesOf s).map Entry.key).Nodup)
include hw hp hn

variable (hown : LanesHoldTheirOwn s) (he : e ∈ entriesOf s)

theorem nodup_released : ((entriesOf (releaseLanes s)).map Entry.key).Nodup := by rwa [(released hw hp).entries]

theorem nodup_activesCut : ((entriesOf (activesCut s)).map Entry.key).Nodup :=
  ((endsEntry_conclude .cutShort).touched_all _ _).nodup (nodup_released hw hp hn)

include hown he

/-- An ACTIVE entry that is QUIET or a lane's is CUT_SHORT at the old sheet's end. -/
theorem oldSheet_active (hk : e.key ∈ cutKeys s) (forward : Bool) :
    Ends e .cutShort s (endOldSheet forward s) (entryDay s e) := by
  have hrel := released hw hp
  have hkeep : Keeps e s (releaseLanes s) := keeps_of_equal hrel.entries hrel.slot he
  have honly : Sole e (releaseLanes s) → ∀ k ∈ cutKeys s, k.slot = e.key.slot → k = e.key :=
    fun hs => sole_cutKeys hown fun y hy => hs y (hrel.entries.symm ▸ hy)
  have hends : Ends e .cutShort (releaseLanes s) (activesCut s) (entryDay (releaseLanes s) e) :=
    (endsEntry_conclude .cutShort).ends_list (nodup_cutKeys hown hn) (nodup_released hw hp hn) hkeep.mem hk honly
  have hday : entryDay (releaseLanes s) e = entryDay s e := by
    have htime : (releaseLanes s).time = s.time := congrArg TowerView.time (tower_releaseLanes s)
    rw [entryDay, htime]
    rfl
  rw [hday] at hends
  rw [endOldSheet_eq]
  split
  · exact (hends.before hkeep).after
      (keeps_of_touched (fun _ h => h) ((endsEntry_conclude .missed).touched_all _ _) (nodup_activesCut hw hp hn) hends.mem rfl)
      (calm_concludeAll _ _ _)
  · exact hends.before hkeep

/-- A DUE or PENDING entry is kept while the ACTIVE ones are cut short. -/
theorem oldSheet_waits (hst : e.state = .pending ∨ e.state = .due) : Keeps e s (activesCut s) := by
  have hrel := released hw hp
  have hkeep : Keeps e s (releaseLanes s) := keeps_of_equal hrel.entries hrel.slot he
  refine hkeep.trans (keeps_of_list ((endsEntry_conclude .cutShort).touched_all _ _) hkeep.mem (fun hk => ?_)
    fun hs => sole_cutKeys hown fun y hy => hs y (hrel.entries.symm ▸ hy))
  obtain ⟨y, hy, hkey, hactive⟩ := active_of_cutKeys hown hk
  rw [eq_of_key hn hy he hkey] at hactive
  rw [hactive] at hst
  exact hst.elim (fun h => by cases h) fun h => by cases h

/-- A DUE or PENDING entry is MISSED at the old sheet's end by a forward step. -/
theorem oldSheet_missed (hst : e.state = .pending ∨ e.state = .due) : Ends e .missed s (endOldSheet true s) (entryDay s e) := by
  have hkeep := oldSheet_waits hw hp hn hown he hst
  have hopen : e.state.isOpen = true := by rcases hst with h | h <;> rw [h] <;> rfl
  have hends : Ends e .missed (activesCut s) (opensMissed (activesCut s)) (entryDay (activesCut s) e) :=
    (endsEntry_conclude .missed).ends (fun _ h => h) (nodup_activesCut hw hp hn) hkeep.mem hopen
  have hday : entryDay (activesCut s) e = entryDay s e := by
    have htime : (releaseLanes s).time = s.time := congrArg TowerView.time (tower_releaseLanes s)
    rw [entryDay, (calm_activesCut s).time, htime]
    rfl
  rw [hday] at hends
  exact hends.before hkeep

end OldSheet

end Sys2Proof.Time
end

section
/-! PROOFS. A step into another date as a whole (R21, R40, R67, R70, R72, R84). -/

namespace Sys2Proof.Time

open Sys2Proof Sys2Proof.Machine

variable {s t u v : State} {new : TimeBase} {e x : Entry} {st : EntryState}

theorem Calm.resolver (h : Calm s t) : t.resolver = s.resolver := congrArg TowerView.resolver h.tower

/-- From one state to another, either the lit-record set and the zones stand, or the wanted levels are the governing scene's. -/
def LitFollows (s t : State) : Prop := t.lanes.lit = s.lanes.lit ∧ t.lights = s.lights ∨ WantedMet t

theorem LitFollows.trans (h : LitFollows s t) (h' : LitFollows t u) (hover : u.overrides = t.overrides)
    (himage : ∀ i, (getSlot u i).image = (getSlot t i).image) : LitFollows s u := by
  rcases h' with ⟨hlit, hlights⟩ | hwanted
  · rcases h with ⟨hlit', hlights'⟩ | hwanted
    · exact Or.inl ⟨hlit.trans hlit', hlights.trans hlights'⟩
    · exact Or.inr (hwanted.of_same (scene_of_overrides hover) hlit hlights himage)
  · exact Or.inr hwanted

/-! ### Requests after builds are abandoned (R67, R70) -/

/-- What the requests of both builds do: each is made where time-valid is set, and nothing else moves. -/
theorem requests_effect (h1 : s.resolver.todayReq = false) (h2 : s.resolver.standbyReq = false) (h3 : s.resolver.fromZero = false) :
    (requestStandby (requestToday false s)).resolver
      = { s.resolver with
          todayReq := s.time.valid, standbyReq := s.time.valid && s.time.localDate != lastDay, fromZero := false } ∧
    { requestStandby (requestToday false s) with resolver := s.resolver } = s := by
  rcases hr : s.resolver with ⟨tq, fz, sq, run, q, res⟩
  rw [hr] at h1 h2 h3
  dsimp only at h1 h2 h3
  subst h1 h2 h3
  cases hv : s.time.valid <;> by_cases hd : s.time.localDate = lastDay <;>
    simp [requestToday, requestStandby, updResolver, hv, hr, hd] <;> rw [← hr]

/-- Abandoned builds leave a run that answers a query (R71, R72). -/
theorem abandonBuilds_run (s : State) : (abandonBuilds s).resolver.run = s.resolver.run.filter fun x => x.kind == .query := by
  unfold abandonBuilds updResolver
  dsimp only
  cases s.resolver.run with
  | none => rfl
  | some x => by_cases h : x.kind = .query <;> simp [Option.filter, h]

/-! ### The new date (R72) -/

/-- The old sheet's end at the new date: the builds are abandoned and both sheets empty. -/
def dateStarted (new : TimeBase) (v : State) : State := abandonBuilds (emptySheets { v with time := new })

/-- The requests of both builds, once the records are checked against the new date. -/
def buildsRequested (new : TimeBase) (v : State) : State :=
  requestStandby (requestToday false (spentCheckAll (dateStarted new v)))

theorem stepToDate_eq (forward : Bool) (new : TimeBase) (s : State) :
    stepToDate forward new s = stepTail (recomputeLit (buildsRequested new (endOldSheet forward s))) := rfl

/-- What the new date leaves of the state in which the old sheet has ended. -/
structure NewDate (new : TimeBase) (v w : State) : Prop where
  time : w.time = new
  sheets : w.sheets = ⟨Sheet.cold, Sheet.cold, .missing, [], false⟩
  bells : w.bells = v.bells
  peal : w.peal = v.peal
  lane : ∀ lane, laneKey w lane = laneKey v lane
  waiting : w.lights.waiting = v.lights.waiting
  lit : LitFollows v w
  overrides : w.overrides = v.overrides
  image : ∀ i, (getSlot w i).image = (getSlot v i).image
  flags : ∀ f, flagSet v.attn f = true → flagSet w.attn f = true
  view : ∀ i, slotView (getSlot w i) = slotView (getSlot v i)
  todayReq : w.resolver.todayReq = new.valid
  fromZero : w.resolver.fromZero = false
  standbyReq : w.resolver.standbyReq = (new.valid && new.localDate != lastDay)
  run : w.resolver.run = v.resolver.run.filter fun r => r.kind == .query
  query : w.resolver.query = v.resolver.query
  result : w.resolver.result = v.resolver.result

theorem newDate (new : TimeBase) (v : State) : NewDate new v (buildsRequested new v) := by
  have hcalm : Calm (dateStarted new v) (spentCheckAll (dateStarted new v)) := calm_spentCheckAll _
  have hview : ∀ i, slotView (getSlot (spentCheckAll (dateStarted new v)) i) = slotView (getSlot v i) := spentCheckAll_view (dateStarted new v)
  have hsheets : (spentCheckAll (dateStarted new v)).sheets = ⟨Sheet.cold, Sheet.cold, .missing, [], false⟩ :=
    spentCheckAll_sheets (dateStarted new v)
  have hres : (spentCheckAll (dateStarted new v)).resolver = (dateStarted new v).resolver := hcalm.resolver
  have htime : (spentCheckAll (dateStarted new v)).time = new := hcalm.time
  unfold buildsRequested
  have hreqs := requests_effect (s := spentCheckAll (dateStarted new v)) (by rw [hres]; rfl) (by rw [hres]; rfl) (by rw [hres]; rfl)
  rw [htime, hres] at hreqs
  generalize spentCheckAll (dateStarted new v) = u at *
  obtain ⟨hresolver, hsame⟩ := hreqs
  generalize requestStandby (requestToday false u) = w at *
  have hlanes : w.lanes = u.lanes := (congrArg State.lanes hsame :)
  have hlights : w.lights = u.lights := (congrArg State.lights hsame :)
  have htable : w.table = u.table := (congrArg State.table hsame :)
  have hover : w.overrides = u.overrides := (congrArg State.overrides hsame :)
  have hattn : w.attn = u.attn := (congrArg State.attn hsame :)
  exact
    { time := (congrArg State.time hsame :).trans htime
      sheets := (congrArg State.sheets hsame :).trans hsheets
      bells := (congrArg State.bells hsame :).trans hcalm.bells
      peal := (congrArg State.peal hsame :).trans hcalm.peal
      lane := fun lane => (congrArg (fun x => laneKey x lane) hsame :).trans (hcalm.lane lane)
      waiting := by rw [hlights]; exact hcalm.waiting
      lit := by
        refine LitFollows.trans (t := u) hcalm.lit (Or.inl ⟨by rw [hlanes], hlights⟩) hover fun i => ?_
        rw [getSlot_of_table htable]
      overrides := hover.trans hcalm.overrides
      image := fun i => by rw [getSlot_of_table htable]; exact image_of_tower hcalm.tower i
      flags := fun f hf => by rw [hattn]; exact hcalm.flags f hf
      view := fun i => by rw [getSlot_of_table htable]; exact hview i
      todayReq := congrArg Resolver.todayReq hresolver
      fromZero := congrArg Resolver.fromZero hresolver
      standbyReq := congrArg Resolver.standbyReq hresolver
      run := (congrArg Resolver.run hresolver).trans (abandonBuilds_run (emptySheets { v with time := new }))
      query := (congrArg Resolver.query hresolver :)
      result := (congrArg Resolver.result hresolver :) }

theorem laneKey_of_lanes (h : t.lanes = s.lanes) (lane : Lane) : laneKey t lane = laneKey s lane := by
  cases lane <;> simp only [laneKey, h]

/-- An empty sheet lights no slot (R84). -/
theorem litNow_empty (h : entriesOf s = []) (i : SlotNo) : litNow s i = false := by
  have hn : ((entriesOf s).map Entry.key).Nodup := by rw [h]; exact List.nodup_nil
  rw [← Bool.not_eq_true, litNow_iff hn, h]
  rintro ⟨-, -, ⟨x, hx, -⟩, -⟩
  cases hx

/-! ### What is left behind (R72) -/

theorem recordShows_of_ends (h : Ends e st s v (entryDay s e)) (hview : ∀ i, slotView (getSlot t i) = slotView (getSlot v i)) :
    RecordShows s t e st :=
  fun honly => outcomeShown_congr (h.shows (sole_of_onlyOpen honly) honly.1) rfl (hview _)

/-- What becomes of an entry's record at a step into another date, whose outcome fields are those at the old sheet's end. -/
theorem leftBehind_of_view (hw : s.lights.waiting = []) (hp : PealStays s.peal s.bells) (hn : ((entriesOf s).map Entry.key).Nodup)
    (hown : LanesHoldTheirOwn s) (he : e ∈ entriesOf s)
    (hview : ∀ i, slotView (getSlot t i) = slotView (getSlot (endOldSheet (decide (s.time.localDate < t.time.localDate)) s) i))
    (hflags : ∀ f, flagSet (endOldSheet (decide (s.time.localDate < t.time.localDate)) s).attn f = true → flagSet t.attn f = true) :
    LeftBehind s t e := by
  refine ⟨fun hst hk => ?_, fun hst => ⟨fun hforward => ?_, fun hback honly => ?_⟩⟩
  · have hcut : e.key ∈ cutKeys s := by
      rw [cutKeys, List.mem_append, mem_laneKeys, quietKeys_eq, mem_keysWhere hn he]
      rcases hk with hquiet | hlane
      · exact Or.inr (by simp [hquiet, hst])
      · exact Or.inl hlane
    exact recordShows_of_ends (oldSheet_active hw hp hn hown he hcut _) hview
  · rw [decide_eq_true hforward] at hview hflags
    have hends := oldSheet_missed hw hp hn hown he hst
    exact ⟨recordShows_of_ends hends hview, hflags _ (hends.flag rfl)⟩
  · rw [decide_eq_false (Nat.not_lt.2 hback.le)] at hview
    have hkept : slotView (getSlot (endOldSheet false s) e.key.slot) = slotView (getSlot s e.key.slot) :=
      (oldSheet_waits hw hp hn hown he hst).view (sole_of_onlyOpen honly)
    obtain ⟨hlast, hperformed, hmissed, hday⟩ := fields_of_view ((hview e.key.slot).trans hkept)
    exact ⟨hlast, hmissed, hperformed, hday⟩

/-- A step into another date does to the sheets what R72 says. -/
theorem stepToDate_acts (hw : s.lights.waiting = []) (hp : PealStays s.peal s.bells) (hn : (s.sheets.today.entries.map Entry.key).Nodup) :
    SteppedToDate s (stepToDate (decide (s.time.localDate < new.localDate)) new s) ∧
      ((stepToDate (decide (s.time.localDate < new.localDate)) new s).lanes.lit ≠ s.lanes.lit →
        WantedMet (stepToDate (decide (s.time.localDate < new.localDate)) new s)) := by
  rw [stepToDate_eq]
  have hrel := released hw hp
  have hold := calm_endOldSheet (decide (s.time.localDate < new.localDate)) s
  have hviewOld : ∀ (b : Bool) (t : State), t.time.localDate = new.localDate → decide (s.time.localDate < new.localDate) = b →
      endOldSheet b s = endOldSheet (decide (s.time.localDate < t.time.localDate)) s := fun b t ht hb => by rw [ht, hb]
  have hlitOld : LitFollows s (endOldSheet (decide (s.time.localDate < new.localDate)) s) := by
    rw [LitFollows, ← hrel.lit, ← hrel.lights]
    exact hold.lit
  have hstart := newDate new (endOldSheet (decide (s.time.localDate < new.localDate)) s)
  have hresolver : (endOldSheet (decide (s.time.localDate < new.localDate)) s).resolver = s.resolver :=
    congrArg TowerView.resolver (tower_endOldSheet s _)
  generalize decide (s.time.localDate < new.localDate) = forward at *
  generalize buildsRequested new (endOldSheet forward s) = w at *
  have hwait : w.lights.waiting = [] := by rw [hstart.waiting, hold.waiting, hrel.lights, hw]
  obtain ⟨hlasts, hcalm, hlit, hres, hsheets⟩ := recomputed_lights hwait
  obtain ⟨htail, hsheets', hres', hlanes', hmet⟩ := tail_lasts (s := recomputeLit w) (hcalm.waiting.trans hwait)
    (by rw [hcalm.peal, hcalm.bells, hstart.peal, hstart.bells, hold.peal, hold.bells]; exact hrel.stays)
  have htime : (stepTail (recomputeLit w)).time = new := htail.time.trans (hlasts.time.trans hstart.time)
  have hcold : (stepTail (recomputeLit w)).sheets = ⟨Sheet.cold, Sheet.cold, .missing, [], false⟩ :=
    hsheets'.trans (hsheets.trans hstart.sheets)
  have hempty : entriesOf w = [] := by rw [entriesOf, hstart.sheets]; rfl
  have hview : ∀ i, slotView (getSlot (stepTail (recomputeLit w)) i) = slotView (getSlot (endOldSheet forward s) i) := fun i => by
    rw [htail.slot, hlasts.slot, hstart.view]
  have hflags : ∀ f, flagSet (endOldSheet forward s).attn f = true → flagSet (stepTail (recomputeLit w)).attn f = true :=
    fun f hf => htail.flags f (hlasts.flags f (hstart.flags f hf))
  refine ⟨⟨by rw [hcold], by rw [hcold], by rw [hcold], fun lane => ?_, fun i => ?_, ?_, ?_, ?_, ?_, ?_, ?_,
    fun hown e he => ?_⟩, fun hne => ?_⟩
  · rw [laneKey_of_lanes hlanes', hcalm.lane, hstart.lane, hold.lane, releaseLanes_free]
  · rw [hlanes', hlit, litNow_empty hempty]
  · rw [hres', hres, hstart.todayReq, htime]
  · rw [hres', hres, hstart.fromZero]
  · rw [hres', hres, hstart.standbyReq, htime]
  · rw [hres', hres, hstart.run, hresolver]
  · rw [hres', hres, hstart.query, hresolver]
  · rw [hres', hres, hstart.result, hresolver]
  · rw [hviewOld forward (stepTail (recomputeLit w)) (congrArg TimeBase.localDate htime) rfl] at hview hflags
    exact leftBehind_of_view hw hp hn hown he hview hflags
  · have hfollows : LitFollows s (recomputeLit w) :=
      (hlitOld.trans hstart.lit hstart.overrides hstart.image).trans hcalm.lit hcalm.overrides (image_of_tower hcalm.tower)
    rcases hfollows with ⟨hsame, -⟩ | hwanted
    · exact absurd (by rw [hlanes', hsame]) hne
    · exact hmet hwanted

end Sys2Proof.Time
end

section
/-! PROOFS. SET TIME and WRITE TIME SETTINGS: their refusals and the step they take (R40, R41, R43, R203, R204). -/

namespace Sys2Proof.Time

open Sys2Proof Sys2Proof.Machine

variable {s t : State} {new : TimeBase}

/-! ### The step (R40) -/

/-- What a step that stays in the range does to the sheets. -/
theorem takeStep_acts (hin : (derive new).localDate < Config.endOfRangeDay) (hw : s.lights.waiting = []) (hp : settlePeal s = s)
    (hn : (s.sheets.today.entries.map Entry.key).Nodup) : StepActs s (takeStep new s) := by
  have htime : (takeStep new s).time = derive new := congrArg TowerView.time (frame_takeStep s hin)
  have hstays := stays_of_settlePeal hp
  rw [StepActs, htime]
  unfold takeStep
  dsimp only
  rw [if_neg (Nat.not_le.2 hin)]
  split
  · next hdate =>
    obtain ⟨hacts, hwanted⟩ := stepWithin_acts hw hstays hn hdate
    exact ⟨fun _ => hacts, fun h => absurd hdate h, hwanted⟩
  · next hdate =>
    obtain ⟨hacts, hwanted⟩ := stepToDate_acts (new := derive new) hw hstays hn
    exact ⟨fun h => absurd h hdate, fun _ => hacts, hwanted⟩

/-! ### Dates and times in BCD (R203, R204) -/

theorem bcd_eq_some_iff (b : Byte) (n : Nat) : bcd b = some n ↔ Coded b n := by
  have hb := b.isLt
  rw [bcd, Coded, Option.ite_none_right_eq_some, Option.some.injEq]
  omega

theorem validDate_iff (y m d : Nat) :
    validDate y m d = true ↔ 2000 ≤ y ∧ y ≤ 2399 ∧ 1 ≤ m ∧ m ≤ 12 ∧ 1 ≤ d ∧ d ≤ monthLength y m := by
  simp [validDate, and_assoc]

/-- Four bytes have a day number just where they are a possible date. -/
theorem bcdDate_some_iff (c y m d : Byte) : (∃ day, bcdDate c y m d = some day) ↔ PossibleDate c y m d := by
  simp only [bcdDate, Option.bind_eq_bind, Option.bind_eq_some_iff, Option.ite_none_right_eq_some, bcd_eq_some_iff, validDate_iff,
    PossibleDate]
  constructor
  · rintro ⟨day, cc, hc, yy, hy, mm, hm, dd, hd, hvalid, -⟩
    exact ⟨cc, yy, mm, dd, hc, hy, hm, hd, hvalid⟩
  · rintro ⟨cc, yy, mm, dd, hc, hy, hm, hd, hvalid⟩
    exact ⟨_, cc, hc, yy, hy, mm, hm, dd, hd, hvalid, rfl⟩

/-- Three bytes are the second of a day that they code. -/
theorem bcdTime_eq_some_iff (h m s : Byte) (sec : Nat) : bcdTime h m s = some sec ↔ TimeIs h m s sec := by
  simp only [bcdTime, Option.bind_eq_bind, Option.bind_eq_some_iff, Option.ite_none_right_eq_some, Option.some.injEq, bcd_eq_some_iff,
    TimeIs]
  constructor
  · rintro ⟨hh, h1, mm, h2, ss, h3, ⟨h4, h5, h6⟩, rfl⟩
    exact ⟨hh, mm, ss, h1, h2, h3, h4, h5, h6, rfl⟩
  · rintro ⟨hh, mm, ss, h1, h2, h3, h4, h5, h6, rfl⟩
    exact ⟨hh, h1, mm, h2, ss, h3, ⟨h4, h5, h6⟩, rfl⟩

/-! ### SET TIME (R41) -/

theorem exec_setTime (ops : List Byte) (s : State) : exec (.setTime ops) s = change (setTime ops s) s := rfl

section SetTime

variable (c y mo d h mi se : Byte)

theorem setTime_locked (hl : s.time.ref = .locked) : setTime [c, y, mo, d, h, mi, se] s = .error .wrongState := if_pos hl

theorem setTime_unlocked (hl : s.time.ref ≠ .locked) {day sec : Nat} (hday : bcdDate c y mo d = some day) (hsec : bcdTime h mi se = some sec) :
    setTime [c, y, mo, d, h, mi, se] s = .ok (takeStep (hostSet day sec s.time) s) := by
  rw [setTime, if_neg hl, hday, hsec]

theorem setTime_bad (hl : s.time.ref ≠ .locked) (hbad : bcdDate c y mo d = none ∨ bcdTime h mi se = none) :
    setTime [c, y, mo, d, h, mi, se] s = .error .badValue := by
  rw [setTime, if_neg hl]
  rcases hbad with hbad | hbad
  · rw [hbad]
  · rw [hbad]; cases bcdDate c y mo d <;> rfl

end SetTime

/-! ### WRITE TIME SETTINGS (R43) -/

theorem exec_writeTimeSettings (ops : List Byte) (s : State) :
    exec (.writeTimeSettings ops) s = change (writeTimeSettings ops s) s := rfl

theorem flagOf_iff (b : Byte) (x : Bool) : flagOf b = some x ↔ b.toNat = x.toNat := by
  have h0 : b = 0 ↔ b.toNat = 0 := BitVec.toNat_eq
  have h1 : b = 1 ↔ b.toNat = 1 := BitVec.toNat_eq
  simp only [flagOf, h0, h1]
  cases x with
  | false => grind [Bool.toNat]
  | true => grind [Bool.toNat]

/-- A rule's four bytes are taken where they lie in R43's ranges. -/
theorem ruleOf_iff (month nth wd hour : Byte) (limit : Nat) (r : SummerRule) :
    ruleOf month nth wd hour limit = some r ↔
      r = ⟨month.toNat, nth.toNat, wd.toNat, hour.toNat⟩ ∧ 1 ≤ month.toNat ∧ month.toNat ≤ 12 ∧ 1 ≤ nth.toNat ∧ nth.toNat ≤ 5 ∧
        wd.toNat ≤ 6 ∧ hour.toNat ≤ limit := by
  rw [ruleOf, Option.ite_none_right_eq_some, Option.some.injEq]
  exact ⟨fun ⟨h, hr⟩ => ⟨hr.symm, h⟩, fun ⟨hr, h⟩ => ⟨h, hr.symm⟩⟩

theorem settingsOk_iff (t : TimeBase) (zone : Int) (r1 r2 : SummerRule) :
    settingsOk t zone r1 r2 = true ↔ -720 ≤ zone ∧ zone ≤ 840 ∧ zone % 15 = 0 ∧ r1.month ≠ r2.month ∧ 0 ≤ movedMoment t zone ∧
      movedMoment t zone < 146097 * 86400 := by
  have hrange : rangeSeconds = 146097 * 86400 := by decide
  simp [settingsOk, zoneOk, hrange, and_assoc]

section WriteTimeSettings

variable {z1 z0 en m1 n1 w1 h1 m2 n2 w2 h2 : Byte}

theorem writeTimeSettings_given {enable : Bool} {r1 r2 : SummerRule} (he : flagOf en = some enable) (h1' : ruleOf m1 n1 w1 h1 23 = some r1)
    (h2' : ruleOf m2 n2 w2 h2 22 = some r2) :
    writeTimeSettings [z1, z0, en, m1, n1, w1, h1, m2, n2, w2, h2] s =
      if settingsOk s.time (s16 z1 z0) r1 r2 = false then .error .badValue
      else if sameSettings s.time (s16 z1 z0) enable r1 r2 then .ok s
      else .ok (takeStep (withSettings (s16 z1 z0) enable r1 r2 s.time) s) := by
  simp only [writeTimeSettings, he, h1', h2']

/-- The command is refused with BAD_VALUE where its operands fail any check. -/
theorem writeTimeSettings_bad
    (h : ∀ enable r1 r2, flagOf en = some enable → ruleOf m1 n1 w1 h1 23 = some r1 → ruleOf m2 n2 w2 h2 22 = some r2 →
      settingsOk s.time (s16 z1 z0) r1 r2 = false) :
    writeTimeSettings [z1, z0, en, m1, n1, w1, h1, m2, n2, w2, h2] s = .error .badValue := by
  rw [writeTimeSettings]
  cases he : flagOf en with
  | none => rfl
  | some enable =>
    cases h1' : ruleOf m1 n1 w1 h1 23 with
    | none => rfl
    | some r1 =>
      cases h2' : ruleOf m2 n2 w2 h2 22 with
      | none => rfl
      | some r2 => exact if_pos (h enable r1 r2 he h1' h2')

end WriteTimeSettings

/-! ### The base that the settings give (R43) -/

section Moved

variable {zone : Int} (enable : Bool) (r1 r2 : SummerRule)

/-- The standard moment is the one that keeps UTC. -/
theorem stdMoment_withSettings (t : TimeBase) (h : 0 ≤ movedMoment t zone) :
    (stdMoment (withSettings zone enable r1 r2 t) : Int) = movedMoment t zone := by
  have hsplit : stdMoment (withSettings zone enable r1 r2 t) = (movedMoment t zone).toNat := Nat.div_add_mod' _ _
  rw [hsplit, Int.toNat_of_nonneg h]

/-- A waiting message moves with the offset where it stays in the range. -/
theorem waiting_withSettings (t : TimeBase) {w : WaitingMessage} {n : Nat} (hw : t.waiting = some w)
    (hn : (n : Int) = (w.moment : Int) + (zone - t.zone) * 60) (hin : n < Config.endOfRangeDay * 86400) :
    (withSettings zone enable r1 r2 t).waiting = some ⟨n, w.received⟩ := by
  have hmoved : movedMessage (zone - t.zone) w = some ⟨n, w.received⟩ := by
    unfold movedMessage
    rw [← hn]
    have hrange : (n : Int) < rangeSeconds := Int.ofNat_lt.2 hin
    exact if_pos ⟨Int.natCast_nonneg n, hrange⟩
  change t.waiting.bind (movedMessage (zone - t.zone)) = _
  rw [hw]
  exact hmoved

end Moved

end Sys2Proof.Time
end

section
/-! PROOFS. O22, put together of the step, what it does to the sheets, and the refusals. -/

namespace Sys2Proof.Time

open Sys2Proof Sys2Proof.Machine

/-- The step that SET TIME takes. -/
theorem setTime_steps (s : State) (c y mo d h mi se : Byte) (day sec : Nat) (hserved : portServed s = true) (hl : s.time.ref ≠ .locked)
    (hday : bcdDate c y mo d = some day) (hsec : bcdTime h mi se = some sec)
    (hin : (derive (hostSet day sec s.time)).localDate < Config.endOfRangeDay) :
    ∃ t, exec (.setTime [c, y, mo, d, h, mi, se]) s = .next t ∧
      t.time = derive
        { s.time with stdDay := day, stdSec := sec, fraction := 0, slew := 0, candidate := none, valid := true } ∧
      flagSet t.attn .timeStepped = true ∧
      t.overrides.entries = s.overrides.entries.filter (fun o => !expired (stdMoment t.time) o) ∧
      settingsView t = settingsView s ∧ t.mains = s.mains ∧ t.elapsed = s.elapsed ∧ t.pins = s.pins ∧
      t.port = ⟨.none, []⟩ ∧
      (s.lights.waiting = [] → settlePeal s = s → (s.sheets.today.entries.map Entry.key).Nodup → StepActs s t) := by
  have hframe := frame_takeStep s hin
  have hflag := timeStepped_takeStep (s := s) hin
  have hacts : s.lights.waiting = [] → settlePeal s = s → (s.sheets.today.entries.map Entry.key).Nodup →
      StepActs s (takeStep (hostSet day sec s.time) s) := fun hw hp hn => takeStep_acts hin hw hp hn
  rw [exec_setTime, setTime_unlocked c y mo d h mi se hl hday hsec, change_ok hserved]
  generalize takeStep (hostSet day sec s.time) s = t at *
  have htime : t.time = derive (hostSet day sec s.time) := congrArg TowerView.time hframe
  have hover : t.overrides.entries = unexpired (stdMoment t.time) s.overrides.entries := by
    rw [htime]
    exact congrArg (fun v : TowerView => v.overrides.entries) hframe
  exact ⟨_, rfl, htime, hflag, hover, congrArg TowerView.settings hframe, congrArg TowerView.mains hframe,
    congrArg TowerView.elapsed hframe, congrArg TowerView.pins hframe, rfl, hacts⟩

/-- The step that WRITE TIME SETTINGS takes. -/
theorem writeTimeSettings_steps (s : State) (z1 z0 en m1 n1 w1 h1 m2 n2 w2 h2 : Byte) (enable : Bool) (r1 r2 : SummerRule)
    (hserved : portServed s = true) (he : flagOf en = some enable) (hr1 : ruleOf m1 n1 w1 h1 23 = some r1)
    (hr2 : ruleOf m2 n2 w2 h2 22 = some r2) (hok : settingsOk s.time (s16 z1 z0) r1 r2 = true)
    (hnew : sameSettings s.time (s16 z1 z0) enable r1 r2 = false)
    (hin : (derive (withSettings (s16 z1 z0) enable r1 r2 s.time)).localDate < Config.endOfRangeDay) :
    ∃ t, exec (.writeTimeSettings [z1, z0, en, m1, n1, w1, h1, m2, n2, w2, h2]) s = .next t ∧
      t.time.zone = s16 z1 z0 ∧ t.time.summerEnable = enable ∧ t.time.startRule = r1 ∧ t.time.endRule = r2 ∧
      (stdMoment t.time : Int) - t.time.zone * 60 = (stdMoment s.time : Int) - s.time.zone * 60 ∧
      t.time = derive t.time ∧ t.time.fraction = s.time.fraction ∧ t.time.slew = s.time.slew ∧
      (∀ (w : WaitingMessage) (n : Nat), s.time.waiting = some w →
        (n : Int) = (w.moment : Int) + (s16 z1 z0 - s.time.zone) * 60 → n < Config.endOfRangeDay * 86400 →
        t.time.waiting = some ⟨n, w.received⟩) ∧
      (s.time.waiting = none → t.time.waiting = none) ∧
      t.time.valid = s.time.valid ∧ t.time.ref = s.time.ref ∧ flagSet t.attn .timeStepped = true ∧
      t.overrides.entries = s.overrides.entries.filter (fun o => !expired (stdMoment t.time) o) ∧
      settingsView t = { settingsView s with time := (s16 z1 z0, enable, r1, r2) } ∧ t.mains = s.mains ∧
      t.elapsed = s.elapsed ∧ t.pins = s.pins ∧ t.port = ⟨.none, []⟩ ∧
      (s.lights.waiting = [] → settlePeal s = s → (s.sheets.today.entries.map Entry.key).Nodup → StepActs s t) := by
  have hframe := frame_takeStep s hin
  have hflag := timeStepped_takeStep (s := s) hin
  have hacts : s.lights.waiting = [] → settlePeal s = s → (s.sheets.today.entries.map Entry.key).Nodup →
      StepActs s (takeStep (withSettings (s16 z1 z0) enable r1 r2 s.time) s) := fun hw hp hn => takeStep_acts hin hw hp hn
  have hcmd : writeTimeSettings [z1, z0, en, m1, n1, w1, h1, m2, n2, w2, h2] s
      = .ok (takeStep (withSettings (s16 z1 z0) enable r1 r2 s.time) s) := by
    rw [writeTimeSettings_given he hr1 hr2, hok, hnew]
    rfl
  rw [exec_writeTimeSettings, hcmd, change_ok hserved]
  generalize takeStep (withSettings (s16 z1 z0) enable r1 r2 s.time) s = t at *
  have htime : t.time = derive (withSettings (s16 z1 z0) enable r1 r2 s.time) := congrArg TowerView.time hframe
  have hover : t.overrides.entries = unexpired (stdMoment t.time) s.overrides.entries := by
    rw [htime]
    exact congrArg (fun v : TowerView => v.overrides.entries) hframe
  obtain ⟨-, -, -, -, hlow, -⟩ := (settingsOk_iff _ _ _ _).1 hok
  have hmoment : (stdMoment t.time : Int) = (stdMoment s.time : Int) + (s16 z1 z0 - s.time.zone) * 60 := by
    rw [htime]
    exact stdMoment_withSettings enable r1 r2 s.time hlow
  have hutc : (stdMoment t.time : Int) - s16 z1 z0 * 60 = (stdMoment s.time : Int) - s.time.zone * 60 := by omega
  refine ⟨_, rfl, ?_, ?_, ?_, ?_, ?_, ?_, ?_, ?_, fun w n hw hn hlt => ?_, fun hw => ?_, ?_, ?_, hflag, hover,
    congrArg TowerView.settings hframe, congrArg TowerView.mains hframe, congrArg TowerView.elapsed hframe,
    congrArg TowerView.pins hframe, rfl, hacts⟩
  · exact congrArg TimeBase.zone htime
  · exact congrArg TimeBase.summerEnable htime
  · exact congrArg TimeBase.startRule htime
  · exact congrArg TimeBase.endRule htime
  · rw [show ({ t with port := _ } : State).time.zone = s16 z1 z0 from congrArg TimeBase.zone htime]
    exact hutc
  · exact htime.trans (congrArg derive htime).symm
  · exact (congrArg TimeBase.fraction htime :)
  · exact (congrArg TimeBase.slew htime :)
  · exact (congrArg TimeBase.waiting htime).trans (waiting_withSettings enable r1 r2 s.time hw hn hlt)
  · refine (congrArg TimeBase.waiting htime).trans ?_
    change s.time.waiting.bind _ = none
    rw [hw]
    rfl
  · exact (congrArg TimeBase.valid htime :)
  · exact (congrArg TimeBase.ref htime :)

/-- Settles O22: the two commands' steps, and their refusals by the readings of their operands. -/
theorem stepsSetTheTime : Obligations.StepsSetTheTime := by
  refine ⟨setTime_steps, writeTimeSettings_steps, fun s c y mo d h mi se hserved => ⟨fun hl => ?_, fun hl hbad => ?_⟩,
    fun s z1 z0 en m1 n1 w1 h1 m2 n2 w2 h2 moved hserved hmoved => ⟨fun hbad => ?_, ?_⟩⟩
  · rw [exec_setTime, setTime_locked c y mo d h mi se hl, change_error hserved]
  · have hnone : bcdDate c y mo d = none ∨ bcdTime h mi se = none := by
      refine hbad.imp (fun hdate => ?_) fun htime => ?_
      · rw [← bcdDate_some_iff] at hdate
        exact Option.eq_none_iff_forall_ne_some.2 fun day hday => hdate ⟨day, hday⟩
      · exact Option.eq_none_iff_forall_ne_some.2 fun sec hsec => htime sec ((bcdTime_eq_some_iff h mi se sec).1 hsec)
    rw [exec_setTime, setTime_bad c y mo d h mi se hl hnone, change_error hserved]
  · have hrefused : writeTimeSettings [z1, z0, en, m1, n1, w1, h1, m2, n2, w2, h2] s = .error .badValue := by
      refine writeTimeSettings_bad fun enable r1 r2 he hr1 hr2 => ?_
      obtain ⟨rfl, hm1, hm1', hn1, hn1', hw1, hh1⟩ := (ruleOf_iff ..).1 hr1
      obtain ⟨rfl, hm2, hm2', hn2, hn2', hw2, hh2⟩ := (ruleOf_iff ..).1 hr2
      have hen : en.toNat ≤ 1 := by rw [(flagOf_iff _ _).1 he]; exact Bool.toNat_le enable
      rw [← Bool.not_eq_true, settingsOk_iff]
      rintro ⟨hz1, hz2, hz3, hmonths, hlow, hhigh⟩
      have hne : m1 ≠ m2 := fun heq => hmonths (by rw [heq])
      have hmoment : movedMoment s.time (s16 z1 z0) = moved := hmoved.symm
      rw [hmoment] at hlow hhigh
      simp only [hne, false_or] at hbad
      omega
    rw [exec_writeTimeSettings, hrefused, change_error hserved]
  · intro hrule1 hrule2 hhour hmonths hz1 hz2 hz3 hrange hzone hen hr1 hr2
    have hflag : flagOf en = some s.time.summerEnable := (flagOf_iff _ _).2 hen
    have hstart : ruleOf m1 n1 w1 h1 23 = some s.time.startRule := by
      rw [ruleOf_iff]
      rw [RuleInRange, hr1] at hrule1
      exact ⟨hr1, hrule1⟩
    have hend : ruleOf m2 n2 w2 h2 22 = some s.time.endRule := by
      rw [ruleOf_iff]
      rw [RuleInRange, hr2] at hrule2
      rw [hr2] at hhour
      obtain ⟨ha, hb, hc, hd, he, -⟩ := hrule2
      exact ⟨hr2, ha, hb, hc, hd, he, hhour⟩
    have hstay : movedMoment s.time s.time.zone = stdMoment s.time := by rw [movedMoment]; omega
    have hok : settingsOk s.time s.time.zone s.time.startRule s.time.endRule = true := by
      rw [settingsOk_iff, hstay]
      exact ⟨hz1, hz2, hz3, hmonths, by omega, by omega⟩
    have hsame : sameSettings s.time s.time.zone s.time.summerEnable s.time.startRule s.time.endRule = true := by simp [sameSettings]
    rw [exec_writeTimeSettings, writeTimeSettings_given hflag hstart hend, hzone, hok, hsame]
    exact change_ok hserved

end Sys2Proof.Time
end

section
/-! PROOFS. The end of the range: a step back to the first day with the lanes FREE, after which neither expiry nor the dials find anything
on the sheets (R45, R109). -/

namespace Sys2Proof.Time

open Sys2Proof Sys2Proof.Machine

variable {r s t u v : State}

/-! ### Work while the lanes are FREE -/

/-- Work that, while the lanes are FREE, ends no entry: the sheets stand, the lanes stay FREE and no flag is cleared. -/
def Tacit (s t : State) : Prop :=
  (∀ lane, laneKey s lane = none) →
    (∀ lane, laneKey t lane = none) ∧ t.sheets = s.sheets ∧ ∀ f, flagSet s.attn f = true → flagSet t.attn f = true

theorem Tacit.refl (s : State) : Tacit s s := fun h => ⟨h, rfl, fun _ hf => hf⟩

theorem Tacit.trans (h : Tacit r s) (h' : Tacit s t) : Tacit r t := by
  intro hfree
  obtain ⟨hfree', hsheets, hflags⟩ := h hfree
  obtain ⟨hfree'', hsheets', hflags'⟩ := h' hfree'
  exact ⟨hfree'', hsheets'.trans hsheets, fun f hf => hflags' f (hflags f hf)⟩

theorem Tacit.foldl {α : Type} {f : State → α → State} (hf : ∀ u x, Tacit u (f u x)) (xs : List α) (s : State) :
    Tacit s (xs.foldl f s) := by
  induction xs generalizing s with
  | nil => exact Tacit.refl s
  | cons x xs ih => exact (hf s x).trans (ih (f s x))

/-- A change that moves neither lanes, sheets nor flags. -/
theorem Tacit.of_same (hlanes : t.lanes = s.lanes) (hsheets : t.sheets = s.sheets) (hattn : t.attn = s.attn) : Tacit s t :=
  fun h => ⟨fun lane => (laneKey_of_lanes hlanes lane).trans (h lane), hsheets, fun _ hf => by rwa [hattn]⟩

theorem BellWork.tacit (h : BellWork s t) : Tacit s t := by
  intro hfree
  obtain ⟨hsheets, -, hattn, hchime, htoll, hpeal, -⟩ := h.free (hfree .chime) (hfree .toll)
  refine ⟨fun lane => ?_, hsheets, fun _ hf => by rwa [hattn]⟩
  cases lane with
  | chime => exact hchime
  | toll => exact htoll
  | peal => exact hpeal.trans (hfree .peal)

theorem laneKey_congr (hchime : t.lanes.chime = s.lanes.chime) (htoll : t.lanes.toll = s.lanes.toll) (hpeal : t.lanes.peal = s.lanes.peal)
    (lane : Lane) : laneKey t lane = laneKey s lane := by
  cases lane with
  | chime => exact hchime
  | toll => exact htoll
  | peal => exact hpeal

theorem tacit_setFlag (f : AttnFlag) (s : State) : Tacit s (setFlag f s) :=
  fun h => ⟨fun lane => (laneKey_of_lanes rfl lane).trans (h lane), rfl, fun _ hf => flagSet_setFlag _ _ hf⟩

theorem tacit_setFlagIf (c : Bool) (f : AttnFlag) (s : State) : Tacit s (setFlagIf c f s) := by
  cases c with
  | false => exact Tacit.refl s
  | true => exact tacit_setFlag f s

theorem bellWork_enterPosition (st : Station) (pos : Position) : BellWork s (enterPosition st pos s) :=
  (bellWork_updBell _ _).trans ((bellWork_checkStrikable st).trans (bellWork_startPolling st))

theorem bellWork_setReserving (st : Station) : BellWork s (setReserving st s) := by
  unfold setReserving
  dsimp only
  split
  · exact (bellWork_updBell _ _).trans (bellWork_startPolling st)
  · exact bellWork_updBell _ _

theorem bellWork_tellAdmitted (st : Station) : BellWork s (tellAdmitted st s) := by
  unfold tellAdmitted
  split
  · exact (bellWork_updBell _ _).trans ((bellWork_makeOrder _ _).trans (bellWork_enterPosition _ _))
  · exact bellWork_setReserving st

/-! ### Zones and their retries (R185, R188, R189) -/

theorem tacit_retryOne (st : Station) (m : Nat) (s : State) : Tacit s (retryOne st m s) := by
  unfold retryOne
  split
  · exact Tacit.refl s
  · exact (Tacit.of_same (by rfl) (by rfl) (by rfl)).trans ((tacit_setFlagIf _ _ _).trans (bellWork_tellAdmitted st).tacit)

theorem tacit_retryWaiting (s : State) : Tacit s (retryWaiting s) := by
  unfold retryWaiting
  split
  · exact Tacit.foldl (fun u (p : Station × Nat) => tacit_retryOne p.1 p.2 u) _ _
  · exact Tacit.refl s

theorem tacit_restoration (s : State) : Tacit s (restoration s) := by
  unfold restoration
  split
  · exact Tacit.of_same rfl rfl rfl
  · exact Tacit.refl s

theorem tacit_findWanted (s : State) : Tacit s (findWanted s) := by
  unfold findWanted
  dsimp only
  split
  · exact Tacit.refl s
  · have hset : Tacit s (setLights (applyWanted (governingScene s) s.lights) s) := Tacit.of_same rfl rfl rfl
    refine Tacit.trans ?_ (tacit_restoration _)
    split
    · exact hset.trans (tacit_retryWaiting _)
    · exact hset

theorem tacit_setLit (lit : Vector Bool 128) (s : State) : Tacit s (setLit lit s) := by
  unfold setLit
  split
  · exact Tacit.refl s
  · refine Tacit.trans (s := { s with lanes := { s.lanes with lit := lit } }) (fun h => ⟨fun lane => ?_, rfl, fun _ hf => hf⟩)
      (tacit_findWanted _)
    exact (laneKey_congr rfl rfl rfl lane).trans (h lane)

/-! ### The peal (R128, R129) -/

theorem tacit_finishPeal (st : EntryState) (s : State) : Tacit s (finishPeal st s) := by
  intro h
  have hfree : laneKey { s with peal := none } .peal = none := h .peal
  rw [finishPeal, endLane, hfree]
  exact ⟨fun lane => (laneKey_of_lanes rfl lane).trans (h lane), rfl, fun _ hf => hf⟩

theorem tacit_endIfLowered (p : PealRun) (s : State) : Tacit s (endIfLowered p s) := by
  unfold endIfLowered
  split
  · exact tacit_finishPeal _ _
  · exact Tacit.refl s

theorem tacit_beginLowering (p : PealRun) (s : State) : Tacit s (beginLowering p s) := by
  refine Tacit.trans ?_ (tacit_endIfLowered _ _)
  refine Tacit.trans (s := { s with peal := some { p with phase := .lowering, raiseBy := none, ringEnd := none } })
    (Tacit.of_same rfl rfl rfl) (Tacit.foldl (fun u st => ?_) _ _)
  split
  · exact (bellWork_orderLower st).tacit
  · exact Tacit.refl u

theorem tacit_settlePeal (s : State) : Tacit s (settlePeal s) := by
  unfold settlePeal
  split
  · exact Tacit.refl s
  · split
    · split
      · exact tacit_beginLowering _ _
      · split
        · exact Tacit.of_same rfl rfl rfl
        · exact Tacit.refl s
    · split
      · exact Tacit.refl s
      · exact tacit_beginLowering _ _
    · exact tacit_endIfLowered _ _

/-! ### Dials and the stack (R109, R172) -/

theorem tacit_evaluateSet (set : DialSet) (s : State) : Tacit s (evaluateSet set s) := by
  obtain ⟨ds, h⟩ := evaluateSet_dials s set
  rw [h]
  exact Tacit.of_same rfl rfl rfl

theorem tacit_evaluateAll (s : State) : Tacit s (evaluateAll s) := by
  obtain ⟨ds, h⟩ := evaluateAll_dials s
  rw [h]
  exact Tacit.of_same rfl rfl rfl

/-- Entries leave the stack. -/
theorem tacit_setStack (test : Override → Bool) (s : State) : Tacit s (setStack (s.overrides.entries.filter test) s) := by
  have hquiet : handSilence (effective s) { s with overrides := { s.overrides with entries := s.overrides.entries.filter test } }
      = { s with overrides := { s.overrides with entries := s.overrides.entries.filter test } } :=
    handSilence_quieter (quieter_filter test s.overrides.entries)
  rw [setStack, handOn, hquiet]
  refine Tacit.trans (s := { s with overrides := { s.overrides with entries := s.overrides.entries.filter test } })
    (Tacit.of_same rfl rfl rfl) (Tacit.trans (Tacit.trans ?_ (tacit_evaluateSet _ _)) (tacit_settlePeal _))
  split
  · exact Tacit.refl _
  · exact tacit_findWanted _

theorem tacit_expireOverrides (s : State) : Tacit s (expireOverrides s) := by
  unfold expireOverrides
  split
  · exact tacit_setStack _ s
  · exact Tacit.refl s

theorem tacit_expireEvery (s : State) : Tacit s (expireEvery s) := by
  unfold expireEvery
  split
  · exact tacit_setStack _ s
  · exact Tacit.refl s

theorem tacit_stepTail (s : State) : Tacit s (stepTail s) :=
  (tacit_expireOverrides s).trans ((tacit_evaluateAll _).trans (tacit_setFlag _ _))

/-! ### The step back to the first day (R45) -/

/-- A step back leaves both sheets empty, the requests as R70 has them, and TIME_STEPPED set, whatever waits or sounds. -/
theorem stepBack_empties (new : TimeBase) (s : State) :
    (∀ lane, laneKey (stepToDate false new s) lane = none) ∧
    (stepToDate false new s).sheets = ⟨Sheet.cold, Sheet.cold, .missing, [], false⟩ ∧
    flagSet (stepToDate false new s).attn .timeStepped = true := by
  have hstart := newDate new (endOldSheet false s)
  have hfree : ∀ lane, laneKey (buildsRequested new (endOldSheet false s)) lane = none := fun lane => by
    rw [hstart.lane, (calm_endOldSheet false s).lane, releaseLanes_free]
  obtain ⟨hfree', hsheets, -⟩ := (tacit_setLit _ _).trans (tacit_stepTail _) hfree
  exact ⟨hfree', hsheets.trans hstart.sheets, timeStepped_stepTail _⟩

/-! ### The resolver -/

theorem resolver_of_tower (h : towerView t = towerView s) : t.resolver = s.resolver := congrArg TowerView.resolver h

theorem resolver_setStack (es : List Override) (s : State) : (setStack es s).resolver = s.resolver := by
  rw [setStack, handOn]
  have hset : ∀ (d : DialSet) (u : State), (evaluateSet d u).resolver = u.resolver := fun d u => by
    obtain ⟨ds, h⟩ := evaluateSet_dials u d
    rw [h]
  have hsettle : ∀ u : State, (settlePeal u).resolver = u.resolver := fun u => resolver_of_tower (tower_settlePeal u)
  have hfind : ∀ u : State, (findWanted u).resolver = u.resolver := fun u => resolver_of_tower (tower_findWanted u)
  have hsilence : ∀ (old : Effective) (u : State), (handSilence old u).resolver = u.resolver :=
    fun old u => resolver_of_tower (tower_handSilence u old)
  rw [hsettle, hset]
  split
  · exact hsilence _ _
  · exact (hfind _).trans (hsilence _ _)

theorem resolver_expireOverrides (s : State) : (expireOverrides s).resolver = s.resolver := by
  unfold expireOverrides
  split
  · exact resolver_setStack _ _
  · rfl

theorem resolver_expireEvery (s : State) : (expireEvery s).resolver = s.resolver := by
  unfold expireEvery
  split
  · exact resolver_setStack _ _
  · rfl

theorem resolver_evaluateAll (s : State) : (evaluateAll s).resolver = s.resolver := by
  obtain ⟨ds, h⟩ := evaluateAll_dials s
  rw [h]

theorem resolver_stepTail (s : State) : (stepTail s).resolver = s.resolver := by
  rw [stepTail, setFlag_resolver, resolver_evaluateAll, resolver_expireOverrides]

theorem resolver_recomputeLit (s : State) : (recomputeLit s).resolver = s.resolver := resolver_of_tower (tower_recomputeLit s)

/-! ### The end of the range (R45, R109) -/

/-- The end of the range removes every override that has an expiry. -/
theorem frame_expireEvery (s : State) :
    frameView (expireEvery s)
      = { frameView s with
          overrides := { s.overrides with entries := s.overrides.entries.filter fun o => o.expiry.isNone } } := by
  cases h : s.overrides.entries.any fun o => o.expiry.isSome with
  | true => rw [expireEvery, if_pos h, frame_setStack]
  | false =>
    have hall : s.overrides.entries.filter (fun o => o.expiry.isNone) = s.overrides.entries := by
      simpa using h
    rw [hall]
    simp [expireEvery, h]
    rfl

theorem endSecond_rangeEnds (h : rangeEnds s.time = true) :
    ∃ n, endSecond s = endRange { s with elapsed := n } := ⟨_, by rw [endSecond]; exact if_pos h⟩

theorem exec_endOfRange (hr : running s = true) (h : rangeEnds s.time = true) : exec .endOfRange s = .next (endSecond s) :=
  (event_running hr).trans (congrArg _ (if_pos h))

/-- What END_OF_RANGE does. -/
theorem rangeEnd_acts (hr : running s = true) (h : rangeEnds s.time = true) :
    ∃ t, exec .endOfRange s = .next t ∧ t.time.stdDay = 0 ∧ t.time.stdSec = 0 ∧ t.time.fraction = 0 ∧
      t.time.slew = 0 ∧ t.time.candidate = none ∧ t.time.valid = false ∧ t.time.ref = .free ∧
      t.sheets.today = Sheet.cold ∧ t.sheets.standby = Sheet.cold ∧ t.resolver.todayReq = false ∧
      t.resolver.standbyReq = false ∧ (∀ o ∈ t.overrides.entries, o.expiry = none ∧ o ∈ s.overrides.entries) ∧
      flagSet t.attn .timeStepped = true ∧ settingsView t = settingsView s := by
  obtain ⟨n, hend⟩ := endSecond_rangeEnds h
  have hsettings : settingsView (endSecond s) = settingsView s := settings_endSecond s
  rw [exec_endOfRange hr h]
  refine ⟨_, rfl, ?_⟩
  rw [hend] at hsettings ⊢
  have hform : endRange { s with elapsed := n } = expireEvery (stepToDate false (rangeEndTime s.time) { s with elapsed := n }) := rfl
  obtain ⟨hfree, hsheets, hflag⟩ := stepBack_empties (rangeEndTime s.time) { s with elapsed := n }
  obtain ⟨-, hsheets', hflags⟩ := tacit_expireEvery _ hfree
  have hframe := frame_expireEvery (stepToDate false (rangeEndTime s.time) { s with elapsed := n })
  have hstep := frame_stepToDate { s with elapsed := n } false (rangeEndTime s.time)
  have hstart := newDate (rangeEndTime s.time) (endOldSheet false { s with elapsed := n })
  have hres : (endRange { s with elapsed := n }).resolver
      = (buildsRequested (rangeEndTime s.time) (endOldSheet false { s with elapsed := n })).resolver := by
    rw [hform, resolver_expireEvery, stepToDate_eq, resolver_stepTail, resolver_recomputeLit]
  rw [← hform] at hframe hflags hsheets'
  generalize endRange { s with elapsed := n } = t at *
  generalize stepToDate false (rangeEndTime s.time) { s with elapsed := n } = b at *
  have htime : t.time = rangeEndTime s.time := (congrArg TowerView.time hframe).trans (congrArg TowerView.time hstep)
  have hbefore : b.overrides.entries = unexpired (stdMoment (rangeEndTime s.time)) s.overrides.entries :=
    congrArg (fun v : TowerView => v.overrides.entries) hstep
  have hafter : t.overrides.entries = b.overrides.entries.filter fun o => o.expiry.isNone :=
    congrArg (fun v : TowerView => v.overrides.entries) hframe
  rw [htime, hres, hsheets', hsheets, hstart.todayReq, hstart.standbyReq, hafter, hbefore]
  refine ⟨rfl, rfl, rfl, rfl, rfl, rfl, rfl, rfl, rfl, rfl, rfl, fun o ho => ?_, hflags _ hflag, hsettings⟩
  obtain ⟨hmem, hnone⟩ := List.mem_filter.1 ho
  exact ⟨Option.isNone_iff_eq_none.1 hnone, List.mem_of_mem_filter hmem⟩

end Sys2Proof.Time
end

section
/-! PROOFS. The day change: the clock, the requests and the standby sheet (R34, R70, R71). -/

namespace Sys2Proof.Time

open Sys2Proof Sys2Proof.Machine

variable {r s t u v : State}

/-! ### What the day change leaves alone -/

theorem frame_installDay (s : State) : frameView (installDay s) = frameView s := by
  unfold installDay
  dsimp only
  split
  · have htallies : ∀ (new : Vector Nat 128) (u : State), frameView (replaceTallies new u) = frameView u := by
      intro new u
      unfold replaceTallies
      dsimp only
      rw [foldl_view frameView _ fun s i => frame_of_tower (settings_writeTally s _ _ i)]
      rfl
    rw [htallies, frame_of_tower (tower_writeSkipped _ _)]
    rfl
  · rw [frame_requestToday]
    rfl

theorem frame_joinCarried (e : Entry) (s : State) : frameView (joinCarried e s) = frameView s := by
  unfold joinCarried
  dsimp only
  rw [frame_of_tower (tower_rekeyLane _ _)]
  rfl

/-- The sheets while the carried entries join. -/
def carriedJoined (es : List Entry) (s : State) : State := es.foldl (fun acc e => joinCarried e acc) s

theorem frame_carriedJoined (es : List Entry) (s : State) : frameView (carriedJoined es s) = frameView s :=
  foldl_view frameView _ (fun s e => frame_joinCarried e s) _ _

/-- The new date begins on the finished day: its counters, no builds, and no LIGHT entry left to apply again. -/
def dayStarted (s : State) : State :=
  abandonBuilds { s with time := newDay s.time, sheets := { s.sheets with relight := [], standbyTime := false } }

/-- Today's sheet for the new date, before its first entries fall due. -/
def sheetOpened (s : State) : State := carriedJoined (carriedEntries (finishDay s)) (installDay (dayStarted (finishDay s)))

theorem dayChange_eq (s : State) :
    dayChange s = spentCheckAll (requestStandby (dropStandby (recomputeLit (fallDueNow (sheetOpened s))))) := rfl

theorem frame_dayStarted (s : State) : frameView (dayStarted s) = frameView { s with time := newDay s.time } := rfl

theorem finishDay_time (s : State) : (finishDay s).time = s.time := congrArg TowerView.time (tower_finishDay s)

theorem frame_sheetOpened (s : State) : frameView (sheetOpened s) = frameView { s with time := newDay s.time } := by
  rw [sheetOpened, frame_carriedJoined, frame_installDay, frame_dayStarted, finishDay_time]
  have hframe : frameView (finishDay s) = frameView s := frame_of_tower (tower_finishDay s)
  generalize finishDay s = v at *
  exact congrArg (fun v : TowerView =>
    { v with time := newDay s.time, settings := { v.settings with time := timeSettings (newDay s.time) } }) hframe

/-- The day change moves the time to the new date, and leaves the rest of the frame (R34). -/
theorem frame_dayChange (s : State) : frameView (dayChange s) = frameView { s with time := newDay s.time } := by
  have hdrop : ∀ u : State, frameView (dropStandby u) = frameView u := fun _ => rfl
  rw [dayChange_eq, frame_of_tower (tower_spentCheckAll _), frame_requestStandby, hdrop, frame_of_tower (tower_recomputeLit _),
    frame_of_tower (tower_fallDueNow _), frame_sheetOpened]

/-! ### What is left of the sheets by the day change's last steps -/

theorem requestStandby_sheets (s : State) : (requestStandby s).sheets = s.sheets := by
  unfold requestStandby
  split <;> rfl

theorem requestStandby_lanes (s : State) : (requestStandby s).lanes = s.lanes := by
  unfold requestStandby
  split <;> rfl

theorem dayChange_sheets (s : State) :
    (dayChange s).sheets = { (recomputeLit (fallDueNow (sheetOpened s))).sheets with standby := Sheet.cold, status := .missing } := by
  rw [dayChange_eq, spentCheckAll_sheets, requestStandby_sheets]
  rfl

/-! ### The resolver at the day change (R67, R70, R71) -/

theorem resolver_joinCarried (e : Entry) (s : State) : (joinCarried e s).resolver = s.resolver := by
  unfold joinCarried
  dsimp only
  rw [resolver_of_tower (tower_rekeyLane _ _)]

theorem resolver_carriedJoined (es : List Entry) (s : State) : (carriedJoined es s).resolver = s.resolver :=
  foldl_view State.resolver _ (fun s e => resolver_joinCarried e s) _ _

theorem resolver_installDay_fresh (h : s.sheets.status = .fresh) : (installDay s).resolver = s.resolver := by
  have htallies : ∀ (new : Vector Nat 128) (u : State), (replaceTallies new u).resolver = u.resolver := by
    intro new u
    unfold replaceTallies
    dsimp only
    rw [foldl_view State.resolver _ fun s i => resolver_of_tower (settings_writeTally s _ _ i)]
  unfold installDay
  dsimp only
  rw [if_pos h, htallies, resolver_of_tower (tower_writeSkipped _ _)]

theorem installDay_stale (h : s.sheets.status ≠ .fresh) :
    installDay s = requestToday true { s with sheets := { s.sheets with today := Sheet.cold } } := if_neg h

theorem resolver_dayChange (s : State) :
    (dayChange s).resolver = (requestStandby (dropStandby (recomputeLit (fallDueNow (sheetOpened s))))).resolver := by
  rw [dayChange_eq, resolver_of_tower (tower_spentCheckAll _)]

theorem resolver_sheetOpened (s : State) :
    (recomputeLit (fallDueNow (sheetOpened s))).resolver = (installDay (dayStarted (finishDay s))).resolver := by
  rw [resolver_recomputeLit, resolver_of_tower (tower_fallDueNow _), sheetOpened, resolver_carriedJoined]

/-- A today request leaves the runs, and the standby request is made besides. -/
theorem requestToday_run (z : Bool) (s : State) : (requestToday z s).resolver.run = s.resolver.run := by
  unfold requestToday
  split <;> rfl

theorem requestStandby_resolver (s : State) :
    (requestStandby s).resolver.run = s.resolver.run ∧ (requestStandby s).resolver.todayReq = s.resolver.todayReq ∧
      (requestStandby s).resolver.fromZero = s.resolver.fromZero ∧
      (s.time.valid = true → s.time.localDate ≠ lastDay → (requestStandby s).resolver.standbyReq = true) := by
  unfold requestStandby
  split
  · exact ⟨rfl, rfl, rfl, fun _ _ => rfl⟩
  · next h => exact ⟨rfl, rfl, rfl, fun hv hd => absurd ⟨hv, hd⟩ h⟩

theorem installDay_run (s : State) : (installDay s).resolver.run = s.resolver.run := by
  by_cases h : s.sheets.status = .fresh
  · rw [resolver_installDay_fresh h]
  · rw [installDay_stale h, requestToday_run]

/-- Abandoned builds leave at most a run that answers a query. -/
theorem queries_only (r : Option Run) : (r.filter fun x => x.kind == .query).all (fun x => x.kind == .query) = true := by
  cases r with
  | none => rfl
  | some x => by_cases h : x.kind = .query <;> simp [Option.filter, h]

theorem dropStandby_resolver (s : State) : (dropStandby s).resolver = s.resolver := rfl

theorem dayChange_run (s : State) : (dayChange s).resolver.run.all (fun x => x.kind == .query) = true := by
  obtain ⟨hrun, -⟩ := requestStandby_resolver (dropStandby (recomputeLit (fallDueNow (sheetOpened s))))
  rw [resolver_dayChange, hrun, dropStandby_resolver, resolver_sheetOpened, installDay_run, dayStarted, abandonBuilds_run]
  exact queries_only _

end Sys2Proof.Time
end

section
/-! PROOFS. The finished day and the entries it carries onto the new sheet (R71, R96). -/

namespace Sys2Proof.Time

open Sys2Proof Sys2Proof.Machine

variable {r s t u v : State} {x e : Entry}

/-! ### The finished day (R96) -/

/-- An entry of a lane's, ACTIVE, which the day change carries (R96). -/
def carryable (e : Entry) : Bool := e.state == .active && e.kind.sounding

theorem carryable_iff : carryable e = true ↔ e.state = .active ∧ e.kind.sounding = true := by
  rw [carryable, Bool.and_eq_true, beq_iff_eq]

theorem carriedEntries_eq (s : State) : carriedEntries s = (entriesOf s).filter carryable := rfl

/-- No sounding entry becomes ACTIVE by falling due: one that is ACTIVE afterwards was so before (R79 to R82). -/
theorem carryable_back (hw : s.lights.waiting = []) (hn : ((entriesOf s).map Entry.key).Nodup) (hx : x ∈ entriesOf (fallDueNow s))
    (hc : carryable x = true) : x ∈ entriesOf s := by
  obtain ⟨hactive, hkind⟩ := carryable_iff.1 hc
  have htouch : Touched (keysWhere (fallsDue s) s) s (fallDueNow s) := touched_becomeDueAll _ hw
  obtain ⟨y, hy, hxy, hkeep⟩ := htouch.back hx
  by_cases hk : y.key ∈ keysWhere (fallsDue s) s
  · obtain ⟨u, hfell⟩ := fellDue_of_mem hw (nodup_keysWhere _ hn) (fun z hz => eq_of_key hn hz hy) hy hk ((mem_keysWhere hn hy).1 hk)
    have hkey : x.key = y.key := by rw [hxy]
    have hykind : y.kind.sounding = true := by rw [← hkind, hxy]
    rw [eq_of_key (htouch.nodup hn) hx hfell.stands hkey] at hactive
    change dueState (markedDue y u) y = .active at hactive
    rw [dueState_sounding hykind] at hactive
    rcases soundingState_cases (markedDue y u) y with h | h | h <;> rw [h] at hactive <;> cases hactive
  · rwa [hkeep hk]

/-- A sheet of the same entries, in states, that has kept just what a test selects, has the selection it had. -/
theorem filter_of_restate {p : Entry → Bool} {es es' : List Entry} (g : Entry → EntryState) (hes : es' = restate g es)
    (hn : (es.map Entry.key).Nodup) (hforth : ∀ e ∈ es, p e = true → e ∈ es') (hback : ∀ x ∈ es', p x = true → x ∈ es) :
    es'.filter p = es.filter p := by
  have hn' : (es'.map Entry.key).Nodup := by rwa [hes, keys_restate]
  have hmem : ∀ e ∈ es, { e with state := g e } ∈ es' := fun e he => hes ▸ List.mem_map.2 ⟨e, he, rfl⟩
  have hfixed : ∀ e ∈ es, p e = true → { e with state := g e } = e := fun e he hp =>
    eq_of_key hn' (hmem e he) (hforth e he hp) rfl
  have htest : ∀ e ∈ es, p { e with state := g e } = p e := by
    intro e he
    rw [Bool.eq_iff_iff]
    exact ⟨fun hp => by rwa [eq_of_key hn (hback _ (hmem e he) hp) he rfl] at hp, fun hp => by rwa [hfixed e he hp]⟩
  rw [hes, restate, List.filter_map]
  have hsame : es.filter (p ∘ fun e => { e with state := g e }) = es.filter p := List.filter_congr htest
  rw [hsame]
  refine (List.map_congr_left fun e he => ?_).trans (List.map_id' _)
  obtain ⟨he, hp⟩ := List.mem_filter.1 he
  exact hfixed e he hp

/-- The part of the finished day before its lit-record set is emptied. -/
def entriesFinished (s : State) : State :=
  finaliseAll (keysWhere (fun e => e.state == .due) (finaliseAll (quietKeys (fallDueNow s)) .done (fallDueNow s))) .missed
    (finaliseAll (quietKeys (fallDueNow s)) .done (fallDueNow s))

theorem finishDay_eq (s : State) : finishDay s = setLit (Vector.replicate 128 false) (entriesFinished s) := rfl

theorem calm_entriesFinished (hw : s.lights.waiting = []) : Calm s (entriesFinished s) :=
  (calm_fallDueNow hw).trans ((calm_finaliseAll _ _ _).trans (calm_finaliseAll _ _ _))

theorem calm_finishDay (hw : s.lights.waiting = []) : Calm s (finishDay s) :=
  (calm_entriesFinished hw).trans (calm_setLit ((calm_entriesFinished hw).waiting.trans hw) _)

/-- The lanes' ACTIVE entries are the same ones, in order, on the finished day's sheet. -/
theorem carried_finishDay (hw : s.lights.waiting = []) (hn : ((entriesOf s).map Entry.key).Nodup) :
    carriedEntries (finishDay s) = carriedEntries s := by
  have hsheets : (finishDay s).sheets = (entriesFinished s).sheets := by
    rw [finishDay_eq]
    exact setLit_sheets ((calm_entriesFinished hw).waiting.trans hw) _
  have hdue : Touched (keysWhere (fallsDue s) s) s (fallDueNow s) := touched_becomeDueAll _ hw
  have hquiet := touched_finaliseAll (quietKeys (fallDueNow s)) .done (fallDueNow s)
  have hn1 := hdue.nodup hn
  have hn2 := hquiet.nodup hn1
  obtain ⟨g, hg, -⟩ := ((hdue.trans hquiet).trans (touched_finaliseAll _ .missed _)).entries
  rw [carriedEntries_eq, carriedEntries_eq, entriesOf, hsheets]
  refine filter_of_restate g hg hn (fun e he hc => ?_) fun x hx hc => ?_
  · obtain ⟨hactive, hkind⟩ := carryable_iff.1 hc
    have h1 : Keeps e s (fallDueNow s) := keeps_of_touched fallsDue_open hdue hn he (by simp [fallsDue, hactive])
    have h2 : Keeps e (fallDueNow s) (finaliseAll (quietKeys (fallDueNow s)) .done (fallDueNow s)) := by
      refine keeps_of_touched (test := fun e => e.kind == .quiet && e.state == .active) (fun y hy => ?_) hquiet hn1 h1.mem ?_
      · simp only [Bool.and_eq_true, beq_iff_eq] at hy
        rw [hy.2]; rfl
      · simp [(sounding_ne hkind).2]
    refine (keeps_of_touched (fun y hy => ?_) (touched_finaliseAll _ .missed _) hn2 h2.mem (by simp [hactive])).mem
    rw [eq_of_beq hy]; rfl
  · obtain ⟨hactive, hkind⟩ := carryable_iff.1 hc
    have hopen : x.state.isOpen = true := by rw [hactive]; rfl
    exact carryable_back hw hn
      ((endsEntry_finalise .done).open_back rfl _ hn1 ((endsEntry_finalise .missed).open_back rfl _ hn2 hx hopen) hopen) hc

/-! ### Carried entries join the new sheet (R71) -/

theorem insertBy_perm {α : Type} (before : α → α → Bool) (x : α) (ys : List α) : (insertBy before x ys).Perm (x :: ys) := by
  induction ys with
  | nil => exact List.Perm.refl _
  | cons y ys ih =>
    rw [insertBy]
    split
    · exact List.Perm.refl _
    · exact (ih.cons y).trans (List.Perm.swap x y ys)

/-- Ordering a list gives the same entries. -/
theorem sortBy_perm {α : Type} (before : α → α → Bool) (xs : List α) : (sortBy before xs).Perm xs := by
  induction xs with
  | nil => exact List.Perm.refl _
  | cons x xs ih => exact (insertBy_perm before x _).trans (ih.cons x)

/-- Where a sheet has room, or nothing that gives way, no entry leaves it. -/
theorem makeRoom_roomy {sh : Sheet} (h : (∀ x ∈ sh.entries, x.state ≠ .pending) ∨ sh.entries.length < 256) : makeRoom sh = sh := by
  unfold makeRoom
  split
  · rfl
  · next hfull =>
    have hnone : sh.entries.filter (fun e => e.state == .pending) = [] := by
      rcases h with h | h
      · exact List.filter_eq_nil_iff.2 fun x hx => by simpa using h x hx
      · exact absurd h hfull
    rw [hnone]
    rfl

theorem rekeyLane_sheets (e : Entry) (s : State) : (rekeyLane e s).sheets = s.sheets := by
  unfold rekeyLane
  split
  · split
    · exact setLane_sheets ..
    · rfl
  · rfl

theorem joinCarried_today (e : Entry) (s : State) :
    (joinCarried e s).sheets.today
      = { makeRoom s.sheets.today with entries := mergeSheet (makeRoom s.sheets.today).entries [asCarried e] } := by
  unfold joinCarried
  dsimp only
  rw [rekeyLane_sheets]

/-- ACTIVE entries that join a sheet with room for them are added to it, and the tallies stand. -/
theorem carriedJoined_perm (es : List Entry) (hes : ∀ e ∈ es, e.state = .active)
    (hroom : (∀ x ∈ entriesOf s, x.state ≠ .pending) ∨ (entriesOf s).length + es.length ≤ 256) :
    (entriesOf (carriedJoined es s)).Perm (entriesOf s ++ es.map asCarried) ∧
      (carriedJoined es s).sheets.today.tallies = s.sheets.today.tallies := by
  induction es generalizing s with
  | nil => exact ⟨by rw [List.map_nil, List.append_nil]; exact List.Perm.refl _, rfl⟩
  | cons e es ih =>
    have hkept : makeRoom s.sheets.today = s.sheets.today := makeRoom_roomy (hroom.imp_right fun h => by
      rw [List.length_cons] at h
      have : s.sheets.today.entries.length = (entriesOf s).length := rfl
      omega)
    have htoday := joinCarried_today e s
    rw [hkept] at htoday
    have hone : (entriesOf (joinCarried e s)).Perm (entriesOf s ++ [asCarried e]) := by
      rw [entriesOf, htoday]
      exact sortBy_perm _ _
    have hroom' : (∀ x ∈ entriesOf (joinCarried e s), x.state ≠ .pending) ∨ (entriesOf (joinCarried e s)).length + es.length ≤ 256 := by
      refine hroom.imp (fun h x hx => ?_) fun h => ?_
      · rw [hone.mem_iff, List.mem_append, List.mem_singleton] at hx
        rcases hx with hx | rfl
        · exact h x hx
        · have hst : (asCarried e).state = .active := hes e List.mem_cons_self
          rw [hst]
          exact fun h => by cases h
      · rw [hone.length_eq, List.length_append, List.length_singleton]
        rw [List.length_cons] at h
        omega
    obtain ⟨hperm, htallies⟩ := ih (fun x hx => hes x (List.mem_cons_of_mem _ hx)) hroom'
    refine ⟨hperm.trans ?_, htallies.trans (congrArg Sheet.tallies htoday :)⟩
    refine (hone.append_right _).trans ?_
    rw [List.append_assoc, List.map_cons, List.singleton_append]

end Sys2Proof.Time
end

section
/-! PROOFS. Today's sheet and the lanes after the day change (R71, R96). -/

namespace Sys2Proof.Time

open Sys2Proof Sys2Proof.Machine

variable {r s t u v : State} {x e : Entry}

/-! ### The standby is installed (R71) -/

/-- The zones and the lanes, which the sheet that is installed and those that join it leave alone but for the keys. -/
theorem installDay_zones (s : State) : (installDay s).lights = s.lights ∧ (installDay s).lanes = s.lanes := by
  have hout : ∀ (i : SlotNo) (st : EntryState) (day : Nat) (u : State),
      ((writeOutcome i st day u).lights, (writeOutcome i st day u).lanes) = (u.lights, u.lanes) := by
    intro i st day u
    unfold writeOutcome
    split <;> rfl
  have htally : ∀ (old new : Vector Nat 128) (i : SlotNo) (u : State),
      ((writeTally old new i u).lights, (writeTally old new i u).lanes) = (u.lights, u.lanes) := by
    intro old new i u
    unfold writeTally
    repeat' split
    all_goals rfl
  have hboth : ((installDay s).lights, (installDay s).lanes) = (s.lights, s.lanes) := by
    unfold installDay
    dsimp only
    split
    · unfold replaceTallies writeSkipped
      dsimp only
      rw [foldl_view (fun u : State => (u.lights, u.lanes)) _ fun u i => htally _ _ i u]
      exact foldl_view (fun u : State => (u.lights, u.lanes)) _ (fun u e => hout _ _ _ u) _ _
    · unfold requestToday
      split <;> rfl
  exact ⟨congrArg Prod.fst hboth, congrArg Prod.snd hboth⟩

theorem installDay_fresh (h : s.sheets.status = .fresh) : (installDay s).sheets.today = s.sheets.standby := by
  have hout : ∀ (xs : List Entry) (u : State), (writeSkipped xs u).sheets = u.sheets := by
    intro xs u
    exact foldl_view State.sheets _ (fun u e => writeOutcome_sheets ..) _ _
  have htally : ∀ (new : Vector Nat 128) (u : State),
      (replaceTallies new u).sheets = { u.sheets with today := { u.sheets.today with tallies := new } } := by
    intro new u
    unfold replaceTallies
    dsimp only
    refine foldl_view State.sheets _ (fun u i => ?_) _ _
    unfold writeTally
    repeat' split
    all_goals rfl
  unfold installDay
  dsimp only
  rw [if_pos h, htally, hout]

theorem requestToday_sheets (z : Bool) (s : State) : (requestToday z s).sheets = s.sheets := by
  unfold requestToday
  split <;> rfl

theorem installDay_cold (h : s.sheets.status ≠ .fresh) : (installDay s).sheets.today = Sheet.cold := by
  rw [installDay_stale h, requestToday_sheets]

/-! ### The lanes hold what is carried (R96) -/

theorem laneKey_setLane (lane lane' : Lane) (k : Option Key) (s : State) :
    laneKey (setLane lane k s) lane' = if lane = lane' then k else laneKey s lane' := by
  cases lane <;> cases lane' <;> rfl

/-- An entry that joins gives its lane the key it has as a carried entry, where the lane held it. -/
theorem laneKey_joinCarried (e : Entry) (s : State) (lane : Lane) :
    laneKey (joinCarried e s) lane
      = if laneOf e.kind = some lane ∧ laneKey s lane = some e.key then some (asCarried e).key else laneKey s lane := by
  have hrekey : ∀ u : State, laneKey (rekeyLane e u) lane
      = if laneOf e.kind = some lane ∧ laneKey u lane = some e.key then some (asCarried e).key else laneKey u lane := by
    intro u
    unfold rekeyLane
    cases hk : laneOf e.kind with
    | none => simp
    | some l =>
      by_cases hl : l = lane
      · subst hl
        by_cases hkey : laneKey u l = some e.key <;> simp [hkey, laneKey_setLane]
      · by_cases hkey : laneKey u l = some e.key <;> simp [hkey, hl, laneKey_setLane]
  rw [joinCarried, hrekey]
  rfl

/-- A lane keeps a key through entries that join, where any of that key keeps it as a carried entry. -/
theorem laneKey_carriedJoined_keep {lane : Lane} {k : Key} (es : List Entry) (h : laneKey s lane = some k)
    (hsame : ∀ x ∈ es, x.key = k → (asCarried x).key = k) : laneKey (carriedJoined es s) lane = some k := by
  induction es generalizing s with
  | nil => exact h
  | cons x es ih =>
    refine ih ?_ fun y hy => hsame y (List.mem_cons_of_mem _ hy)
    rw [laneKey_joinCarried, h]
    split
    · next hx => rw [hsame x List.mem_cons_self (Option.some.inj hx.2).symm]
    · rfl

/-- The lane of an entry that joins holds it under its new key. -/
theorem laneKey_carriedJoined {lane : Lane} {es : List Entry} (hn : (es.map Entry.key).Nodup) (he : e ∈ es)
    (h : laneKey s lane = some e.key) (hkind : laneOf e.kind = some lane)
    (hsame : ∀ x ∈ es, x.key = (asCarried e).key → (asCarried x).key = (asCarried e).key) :
    laneKey (carriedJoined es s) lane = some (asCarried e).key := by
  obtain ⟨l1, l2, rfl⟩ := List.append_of_mem he
  have hfirst : ∀ x ∈ l1, x.key ≠ e.key := by
    intro x hx hkey
    rw [List.map_append, List.nodup_append] at hn
    obtain ⟨-, -, hapart⟩ := hn
    exact hapart x.key (List.mem_map_of_mem hx) e.key (List.mem_map_of_mem List.mem_cons_self) hkey
  have hsplit : carriedJoined (l1 ++ e :: l2) s = carriedJoined l2 (joinCarried e (carriedJoined l1 s)) := by
    rw [carriedJoined, List.foldl_append, List.foldl_cons]
    rfl
  rw [hsplit]
  refine laneKey_carriedJoined_keep l2 ?_ fun x hx => hsame x (List.mem_append_right _ (List.mem_cons_of_mem _ hx))
  have hheld : laneKey (carriedJoined l1 s) lane = some e.key :=
    laneKey_carriedJoined_keep l1 h fun x hx hkey => absurd hkey (hfirst x hx)
  rw [laneKey_joinCarried, if_pos ⟨hkind, hheld⟩]

/-! ### The first entries fall due (R71, R79) -/

theorem dueState_ne_pending (s : State) (e : Entry) : dueState s e ≠ .pending := by
  rcases kind_cases e.kind with hk | hk | hk | hk
  · rw [dueState_light hk]
    exact fun h => by cases h
  · rw [dueState_quiet hk]
    split <;> exact fun h => by cases h
  · rw [dueState_sounding hk]
    rcases soundingState_cases s e with h | h | h <;> rw [h] <;> exact fun h => by cases h
  · rw [dueState_feast hk]
    exact fun h => by cases h

/-- Where nothing is PENDING, nothing falls due. -/
theorem fallDueNow_none (h : ∀ x ∈ entriesOf s, x.state ≠ .pending) : fallDueNow s = s := by
  have hnone : keysWhere (fallsDue s) s = [] := by
    rw [keysWhere, List.filter_eq_nil_iff.2, List.map_nil]
    intro x hx
    simp [fallsDue, h x hx]
  rw [fallDueNow, hnone]
  rfl

/-- A sheet of standby entries, of distinct keys below 128, and ACTIVE carried ones, of keys from 128. -/
structure Opened (S C : List Entry) (s : State) : Prop where
  perm : (entriesOf s).Perm (S ++ C)
  nodup : (S.map Entry.key).Nodup
  below : ∀ e ∈ S, e.key.sub < 128
  above : ∀ e ∈ C, 128 ≤ e.key.sub
  active : ∀ e ∈ C, e.state = .active
  waiting : s.lights.waiting = []

section Opened

variable {S C : List Entry} (h : Opened S C s)
include h

theorem Opened.mem_iff : x ∈ entriesOf s ↔ x ∈ S ∨ x ∈ C := by rw [h.perm.mem_iff, List.mem_append]

/-- A standby entry's key is its own. -/
theorem Opened.own (he : e ∈ S) : ∀ x ∈ entriesOf s, x.key = e.key → x = e := by
  intro x hx hkey
  rcases h.mem_iff.1 hx with hx | hx
  · exact eq_of_key h.nodup hx he hkey
  · have hlow := h.below e he
    have hhigh := h.above x hx
    rw [hkey] at hhigh
    omega

theorem Opened.nodup_due : (keysWhere (fallsDue s) s).Nodup := by
  have hnone : C.filter (fallsDue s) = [] := List.filter_eq_nil_iff.2 fun x hx => by simp [fallsDue, h.active x hx]
  have hperm : (keysWhere (fallsDue s) s).Perm ((S.filter (fallsDue s)).map Entry.key) := by
    have := (h.perm.filter (fallsDue s)).map Entry.key
    rwa [List.filter_append, hnone, List.append_nil] at this
  exact hperm.nodup_iff.2 ((List.filter_sublist.map _).nodup h.nodup)

theorem Opened.touched : Touched (keysWhere (fallsDue s) s) s (fallDueNow s) := touched_becomeDueAll _ h.waiting

/-- A standby entry is on the sheet, as it was where it does not fall due, and no longer PENDING where it does. -/
theorem Opened.standby (hzero : s.time.instant = 0) (he : e ∈ S) :
    ∃ x ∈ entriesOf (fallDueNow s), { x with state := e.state } = e ∧ (0 < e.instant ∨ e.state ≠ .pending → x = e) ∧
      (e.instant = 0 → e.state = .pending → x.state ≠ .pending) := by
  have hmem : e ∈ entriesOf s := h.mem_iff.2 (Or.inl he)
  cases hdue : fallsDue s e with
  | true =>
    simp only [fallsDue, Bool.and_eq_true, beq_iff_eq, decide_eq_true_eq] at hdue
    obtain ⟨hpending, hinst⟩ := hdue
    have hdue' : fallsDue s e = true := by simp [fallsDue, hpending, hinst]
    have hk : e.key ∈ keysWhere (fallsDue s) s := List.mem_map_of_mem (List.mem_filter.2 ⟨hmem, hdue'⟩)
    obtain ⟨u, hfell⟩ := fellDue_of_mem h.waiting h.nodup_due (h.own he) hmem hk hdue'
    refine ⟨_, hfell.stands, rfl, fun hno => ?_, fun _ _ => dueState_ne_pending _ _⟩
    rcases hno with hpos | hno
    · omega
    · exact absurd hpending hno
  | false =>
    have hk : e.key ∉ keysWhere (fallsDue s) s := by
      intro hk
      obtain ⟨y, hy, hkey, htest⟩ := of_mem_keysWhere hk
      rw [h.own he y hy hkey, hdue] at htest
      cases htest
    refine ⟨e, h.touched.other hmem hk, rfl, fun _ => rfl, fun hinst hpending => ?_⟩
    simp [fallsDue, hpending, hinst] at hdue

/-- A carried entry is on the sheet as it joined. -/
theorem Opened.carried (he : e ∈ C) : e ∈ entriesOf (fallDueNow s) := by
  refine h.touched.other (h.mem_iff.2 (Or.inr he)) fun hk => ?_
  obtain ⟨y, hy, hkey, htest⟩ := of_mem_keysWhere hk
  simp only [fallsDue, Bool.and_eq_true, beq_iff_eq] at htest
  rcases h.mem_iff.1 hy with hy | hy
  · have hlow := h.below y hy
    have hhigh := h.above e he
    rw [hkey] at hlow
    omega
  · rw [h.active y hy] at htest
    cases htest.1

theorem Opened.length : (entriesOf (fallDueNow s)).length = S.length + C.length := by
  obtain ⟨g, hg, -⟩ := h.touched.entries
  rw [hg, restate, List.length_map, h.perm.length_eq, List.length_append]

end Opened

end Sys2Proof.Time
end

section
/-! PROOFS. O25, put together of the day change, its sheet and lanes, and the end of the range. -/

namespace Sys2Proof.Time

open Sys2Proof Sys2Proof.Machine

variable {s t u v : State} {e : Entry}

/-! ### Fields of the views -/

theorem tallies_of_tower (h : towerView t = towerView s) : t.sheets.today.tallies = s.sheets.today.tallies :=
  congrArg TowerView.tallies h

theorem status_of_tower (h : towerView t = towerView s) : t.sheets.status = s.sheets.status := congrArg TowerView.status h

theorem standby_of_tower (h : towerView t = towerView s) : t.sheets.standby = s.sheets.standby := congrArg TowerView.standby h

theorem time_of_tower (h : towerView t = towerView s) : t.time = s.time := congrArg TowerView.time h

theorem time_of_frame (h : frameView t = frameView s) : t.time = s.time := congrArg TowerView.time h

theorem port_of_frame (h : frameView t = frameView s) : t.port = s.port := congrArg TowerView.port h

/-! ### The sheet and the lanes at the end of the day change -/

theorem carriedJoined_lights (es : List Entry) (s : State) : (carriedJoined es s).lights = s.lights := by
  refine foldl_view State.lights _ (fun u e => ?_) _ _
  unfold joinCarried rekeyLane
  dsimp only
  split
  · split
    · exact setLane_lights ..
    · rfl
  · rfl

section DayChange

variable (hw : s.lights.waiting = [])
include hw

theorem opened_waiting : (sheetOpened s).lights.waiting = [] := by
  rw [sheetOpened, carriedJoined_lights, (installDay_zones _).1]
  exact (calm_finishDay hw).waiting.trans hw

theorem fallen_waiting : (fallDueNow (sheetOpened s)).lights.waiting = [] :=
  (calm_fallDueNow (opened_waiting hw)).waiting.trans (opened_waiting hw)

theorem dayChange_today : (dayChange s).sheets.today = (fallDueNow (sheetOpened s)).sheets.today := by
  obtain ⟨-, -, -, -, hsheets⟩ := recomputed_lights (fallen_waiting hw)
  rw [dayChange_sheets, hsheets]

theorem dayChange_lane (lane : Lane) : laneKey (dayChange s) lane = laneKey (sheetOpened s) lane := by
  obtain ⟨-, hcalm, -⟩ := recomputed_lights (fallen_waiting hw)
  have hdrop : ∀ u : State, (dropStandby u).lanes = u.lanes := fun _ => rfl
  rw [dayChange_eq, (calm_spentCheckAll _).lane, laneKey_of_lanes (requestStandby_lanes _), laneKey_of_lanes (hdrop _), hcalm.lane,
    (calm_fallDueNow (opened_waiting hw)).lane]

theorem dayChange_tallies : (dayChange s).sheets.today.tallies = (sheetOpened s).sheets.today.tallies := by
  rw [dayChange_today hw, tallies_of_tower (tower_fallDueNow (sheetOpened s))]

end DayChange

theorem dayChange_todayReq (s : State) :
    (dayChange s).resolver.todayReq = (installDay (dayStarted (finishDay s))).resolver.todayReq ∧
      (dayChange s).resolver.fromZero = (installDay (dayStarted (finishDay s))).resolver.fromZero := by
  obtain ⟨-, htoday, hzero, -⟩ := requestStandby_resolver (dropStandby (recomputeLit (fallDueNow (sheetOpened s))))
  rw [resolver_dayChange, htoday, hzero, dropStandby_resolver, resolver_sheetOpened]
  exact ⟨rfl, rfl⟩

theorem dayStarted_sheets (s : State) :
    (dayStarted s).sheets = { s.sheets with relight := [], standbyTime := false } := rfl

theorem dayStarted_todayReq (s : State) : (dayStarted s).resolver.todayReq = false := rfl

theorem dayStarted_time (s : State) : (dayStarted s).time = newDay s.time := rfl

theorem dayStarted_lane (lane : Lane) (s : State) : laneKey (dayStarted s) lane = laneKey s lane := laneKey_of_lanes rfl lane

theorem dayStarted_status (s : State) : (dayStarted (finishDay s)).sheets.status = s.sheets.status := by
  rw [dayStarted_sheets, ← status_of_tower (tower_finishDay s)]

theorem dayStarted_standby (s : State) : (dayStarted (finishDay s)).sheets.standby = s.sheets.standby := by
  rw [dayStarted_sheets, ← standby_of_tower (tower_finishDay s)]

theorem active_of_carried : ∀ x ∈ carriedEntries s, x.state = .active := fun _ hx =>
  (carryable_iff.1 (List.mem_filter.1 (carriedEntries_eq s ▸ hx)).2).1

section Sheet

variable (hw : s.lights.waiting = []) (hn : ((entriesOf s).map Entry.key).Nodup)
include hw hn

theorem sheetOpened_eq : sheetOpened s = carriedJoined (carriedEntries s) (installDay (dayStarted (finishDay s))) := by
  rw [sheetOpened, carried_finishDay hw hn]

/-- Without a FRESH standby, the carried entries alone are on the new sheet, and its rebuild from instant 0 is requested (R71). -/
theorem dayChange_stale (h : s.sheets.status ≠ .fresh) :
    (∀ x, x ∈ entriesOf (dayChange s) ↔ x ∈ (carriedEntries s).map asCarried) ∧ (∀ i, (dayChange s).sheets.today.tallies.get i = 0) ∧
      (s.time.valid = true → (dayChange s).resolver.todayReq = true ∧ (dayChange s).resolver.fromZero = true) := by
  have hstatus : (dayStarted (finishDay s)).sheets.status ≠ .fresh := by rwa [dayStarted_status]
  have hcold := installDay_cold hstatus
  have hempty : entriesOf (installDay (dayStarted (finishDay s))) = [] := congrArg Sheet.entries hcold
  obtain ⟨hperm, htallies⟩ := carriedJoined_perm (s := installDay (dayStarted (finishDay s))) (carriedEntries s)
    active_of_carried (Or.inl (by rw [hempty]; exact fun x hx => by cases hx))
  rw [← sheetOpened_eq hw hn, hempty, List.nil_append] at hperm
  rw [← sheetOpened_eq hw hn, hcold] at htallies
  have hnone : fallDueNow (sheetOpened s) = sheetOpened s := by
    refine fallDueNow_none fun x hx => ?_
    obtain ⟨y, hy, rfl⟩ := List.mem_map.1 (hperm.mem_iff.1 hx)
    have hactive : (asCarried y).state = .active := active_of_carried y hy
    rw [hactive]
    exact fun h => by cases h
  refine ⟨fun x => ?_, fun i => ?_, fun hv => ?_⟩
  · rw [entriesOf, dayChange_today hw, hnone]
    exact hperm.mem_iff
  · rw [dayChange_tallies hw, htallies]
    exact get_replicate 0 i
  · obtain ⟨htoday, hzero⟩ := dayChange_todayReq s
    have hvalid : (dayStarted (finishDay s)).time.valid = true := by rw [dayStarted_time, finishDay_time]; exact hv
    have hnot := dayStarted_todayReq (finishDay s)
    rw [htoday, hzero, installDay_stale hstatus]
    generalize dayStarted (finishDay s) = v at hvalid hnot
    rw [requestToday, if_pos ⟨hvalid, hnot⟩]
    exact ⟨rfl, rfl⟩

/-- With a FRESH standby, it is today's sheet, its entries at instant 0 fallen due, and the carried ones join it (R71). -/
theorem dayChange_fresh (h : s.sheets.status = .fresh) (hroom : s.sheets.standby.entries.length + (carriedEntries s).length ≤ 256)
    (hstandby : (s.sheets.standby.entries.map Entry.key).Nodup) (hbelow : ∀ e ∈ s.sheets.standby.entries, e.key.sub < 128)
    (habove : ∀ e ∈ (carriedEntries s).map asCarried, 128 ≤ e.key.sub) :
    (∀ e ∈ s.sheets.standby.entries, ∃ x ∈ entriesOf (dayChange s), { x with state := e.state } = e ∧
      (0 < e.instant ∨ e.state ≠ .pending → x = e) ∧ (e.instant = 0 → e.state = .pending → x.state ≠ .pending)) ∧
    (∀ e ∈ (carriedEntries s).map asCarried, e ∈ entriesOf (dayChange s)) ∧
    (entriesOf (dayChange s)).length = s.sheets.standby.entries.length + ((carriedEntries s).map asCarried).length ∧
    (dayChange s).sheets.today.tallies = s.sheets.standby.tallies ∧ (dayChange s).resolver.todayReq = false := by
  have hstatus : (dayStarted (finishDay s)).sheets.status = .fresh := (dayStarted_status s).trans h
  have htoday : (installDay (dayStarted (finishDay s))).sheets.today = s.sheets.standby :=
    (installDay_fresh hstatus).trans (dayStarted_standby s)
  have hentries : entriesOf (installDay (dayStarted (finishDay s))) = s.sheets.standby.entries := congrArg Sheet.entries htoday
  obtain ⟨hperm, htallies⟩ := carriedJoined_perm (s := installDay (dayStarted (finishDay s))) (carriedEntries s)
    active_of_carried (Or.inr (by rw [hentries]; exact hroom))
  rw [← sheetOpened_eq hw hn, hentries] at hperm
  rw [← sheetOpened_eq hw hn, htoday] at htallies
  have hactive : ∀ e ∈ (carriedEntries s).map asCarried, e.state = .active := by
    intro e he
    obtain ⟨y, hy, rfl⟩ := List.mem_map.1 he
    exact active_of_carried y hy
  have hopened : Opened s.sheets.standby.entries ((carriedEntries s).map asCarried) (sheetOpened s) :=
    ⟨hperm, hstandby, hbelow, habove, hactive, opened_waiting hw⟩
  have hzero : (sheetOpened s).time.instant = 0 := by rw [time_of_frame (frame_sheetOpened s)]; rfl
  have hfinal : entriesOf (dayChange s) = entriesOf (fallDueNow (sheetOpened s)) := congrArg Sheet.entries (dayChange_today hw)
  rw [hfinal]
  refine ⟨fun e he => hopened.standby hzero he, fun e he => hopened.carried he, hopened.length, ?_, ?_⟩
  · rw [dayChange_tallies hw, htallies]
  · rw [(dayChange_todayReq s).1, resolver_installDay_fresh hstatus, dayStarted_todayReq]

/-- The lanes hold the carried entries under their new keys (R96). -/
theorem dayChange_lanes (habove : ∀ e ∈ (carriedEntries s).map asCarried, 128 ≤ e.key.sub)
    (hbelow : ∀ x ∈ entriesOf s, x.carried = false → x.key.sub < 128) {lane : Lane} (hlane : laneKey s lane = some e.key)
    (hkind : laneOf e.kind = some lane) (he : e ∈ entriesOf s) (hactive : e.state = .active) :
    laneKey (dayChange s) lane = some (asCarried e).key := by
  have hsounding : e.kind.sounding = true := by
    cases hk : e.kind <;> first | rfl | (rw [hk] at hkind; cases hkind)
  have hmem : e ∈ carriedEntries s := List.mem_filter.2 ⟨he, carryable_iff.2 ⟨hactive, hsounding⟩⟩
  have hheld : laneKey (installDay (dayStarted (finishDay s))) lane = some e.key := by
    rw [laneKey_of_lanes (installDay_zones _).2, dayStarted_lane, (calm_finishDay hw).lane, hlane]
  rw [dayChange_lane hw, sheetOpened_eq hw hn]
  refine laneKey_carriedJoined ((List.filter_sublist.map _).nodup hn) hmem hheld hkind fun x hx hkey => ?_
  have hhigh := habove _ (List.mem_map_of_mem hmem)
  rw [← hkey] at hhigh
  have hcarried : x.carried = true := by
    by_contra hc
    have := hbelow x (List.mem_filter.1 hx).1 (by simpa using hc)
    omega
  rw [← hkey, asCarried, hcarried]
  rfl

end Sheet

/-! ### The second that ends the day (R34) -/

/-- The state at the end of a day's last second, before the day change. -/
def dayPassed (s : State) : State :=
  { s with elapsed := s.elapsed + (secondLength s.time.slew - s.time.fraction), time := advance s.time }

theorem endSecond_dayEnds (h : dayEnds s.time = true) :
    ∃ ds n, endSecond s = { dayChange (expireOverrides (dayPassed s)) with dials := ds, lastTarget := n } := by
  have hrange : rangeEnds s.time = false := by
    simp only [dayEnds, Bool.and_eq_true, Bool.not_eq_true'] at h
    exact h.2
  have hform : endSecond s = if summerTurns s.time then evaluateAll (dayChange (expireOverrides (dayPassed s)))
      else dayChange (expireOverrides (dayPassed s)) := by
    unfold endSecond
    dsimp only
    rw [hrange, h, if_neg Bool.false_ne_true, if_pos rfl]
    rfl
  rw [hform]
  generalize dayChange (expireOverrides (dayPassed s)) = d
  split
  · obtain ⟨ds, hds⟩ := evaluateAll_dials d
    exact ⟨ds, _, hds⟩
  · exact ⟨d.dials, d.lastTarget, rfl⟩

theorem expired_iff (m : Nat) (o : Override) : expired m o = true ↔ ∃ e, o.expiry = some e ∧ e ≤ m := by
  unfold expired
  cases o.expiry <;> simp

theorem exec_dayChange (hr : running s = true) (h : dayEnds s.time = true) : exec .dayChange s = .next (endSecond s) :=
  (event_running hr).trans (congrArg _ (if_pos h))

/-- The clock, the requests and the standby sheet after the day's last second. -/
theorem dayEnd_clock (h : dayEnds s.time = true) :
    (endSecond s).time = newDay (advance s.time) ∧ (endSecond s).sheets.standby = Sheet.cold ∧
    (endSecond s).sheets.status = .missing ∧
    (s.time.valid = true → s.time.localDate + 1 ≠ lastDay → (endSecond s).resolver.standbyReq = true) ∧
    (endSecond s).resolver.run.all (fun r => r.kind == .query) = true ∧ (endSecond s).port = s.port := by
  obtain ⟨ds, n, hform⟩ := endSecond_dayEnds h
  rw [hform]
  have hexpired := frame_expireOverrides (dayPassed s)
  generalize expireOverrides (dayPassed s) = u at *
  have htime : u.time = advance s.time := congrArg TowerView.time hexpired
  have hport : u.port = s.port := congrArg TowerView.port hexpired
  have hframe := frame_dayChange u
  have hsheets := dayChange_sheets u
  obtain ⟨-, -, -, hreq⟩ := requestStandby_resolver (dropStandby (recomputeLit (fallDueNow (sheetOpened u))))
  have hrun := dayChange_run u
  have hresolver := resolver_dayChange u
  have hdrop : ∀ v : State, (dropStandby v).time = v.time := fun _ => rfl
  have hinner : (dropStandby (recomputeLit (fallDueNow (sheetOpened u)))).time = newDay (advance s.time) := by
    rw [hdrop, time_of_tower (tower_recomputeLit _), time_of_tower (tower_fallDueNow _), time_of_frame (frame_sheetOpened u), ← htime]
  rw [hinner] at hreq
  rw [← hresolver] at hreq
  generalize dayChange u = d at *
  refine ⟨?_, ?_, ?_, fun hv hd => hreq hv hd, hrun, ?_⟩
  · exact (time_of_frame hframe).trans (congrArg newDay htime)
  · exact congrArg Sheets.standby hsheets
  · exact congrArg Sheets.status hsheets
  · exact (port_of_frame hframe).trans hport

/-- Settles O25: the day change from its clock, its sheet and its lanes, and the end of the range as a step back. -/
theorem daysAndRangeEnd : Obligations.DaysAndRangeEnd := by
  refine fun s hr => ⟨fun hday => ?_, fun hrange => rangeEnd_acts hr hrange⟩
  obtain ⟨htime, hstandby, hstatus, hreq, hrun, hport⟩ := dayEnd_clock hday
  refine ⟨_, exec_dayChange hr hday, ?_, ?_, ?_, hstandby, hstatus, hreq, hrun, settings_endSecond s, hport, ?_⟩
  · rw [htime]; rfl
  · rw [htime]; rfl
  · rw [htime]; rfl
  · intro hexpiry hw hn carried hcarried
    have hstay : expireOverrides (dayPassed s) = dayPassed s :=
      expireOverrides_none _ (List.any_eq_false.2 fun o ho => by rw [expired_iff]; exact fun ⟨m, hm, hle⟩ => Nat.not_le.2 (hexpiry o ho m hm) hle)
    obtain ⟨ds, n, hform⟩ := endSecond_dayEnds hday
    have hlist : carried = (carriedEntries (dayPassed s)).map asCarried := hcarried
    have hstale := dayChange_stale (s := dayPassed s) hw hn
    have hfresh := dayChange_fresh (s := dayPassed s) hw hn
    have hlanes := fun habove hbelow lane e => @dayChange_lanes (dayPassed s) e hw hn habove hbelow lane
    rw [hform, hstay, hlist]
    generalize dayChange (dayPassed s) = d at *
    generalize carriedEntries (dayPassed s) = C at *
    refine ⟨hstale, fun hst hroom => hfresh hst (by rwa [List.length_map] at hroom),
      fun habove hbelow lane e hlane hkind he hactive => ?_⟩
    exact (laneKey_of_lanes rfl lane).trans (hlanes habove hbelow lane e hlane hkind he hactive)

end Sys2Proof.Time
end

section
/-! PROOFS. WRITE SUNDAY RANK and WRITE TWILIGHT (R53, R56, R68). -/

namespace Sys2Proof.Resolution

open Sys2Proof Sys2Proof.Machine

variable {s : State}

/-- What a trigger of both rebuilds requests (R67, R68, R70). -/
theorem trigger_requests (s : State) :
    (trigger s).resolver.todayReq = (s.time.valid || s.resolver.todayReq) ∧
    (trigger s).resolver.standbyReq = ((s.time.valid && decide (s.time.localDate ≠ lastDay)) || s.resolver.standbyReq) := by
  cases hv : s.time.valid <;> cases hr : s.resolver.todayReq <;> by_cases hd : s.time.localDate = lastDay <;>
    simp [trigger, requestToday, requestStandby, markStale, updResolver, hv, hr, hd]

/-- A calendar setting is replaced and both rebuilds are triggered: the effect of an accepted write (R53, R56, R68). -/
theorem change_calendar (hp : portServed s = true) (f : Calendar → Calendar) :
    ∃ t, change (.ok (trigger (updCalendar f s))) s = .next t ∧ t.calendar = f s.calendar ∧
      t.resolver.todayReq = (s.time.valid || s.resolver.todayReq) ∧
      t.resolver.standbyReq = ((s.time.valid && decide (s.time.localDate ≠ lastDay)) || s.resolver.standbyReq) ∧
      t.sheets = { s.sheets with status := if s.sheets.status = .fresh then .stale else s.sheets.status } ∧
      t.port = ⟨.none, []⟩ ∧
      { t with calendar := s.calendar, sheets := s.sheets, resolver := s.resolver, port := s.port } = s := by
  obtain ⟨htoday, hstandby⟩ := trigger_requests (updCalendar f s)
  obtain ⟨hsheets, -, -, -, -, -, hrest⟩ := Time.trigger_effect (updCalendar f s)
  refine ⟨_, change_ok hp, congrArg State.calendar hrest, htoday, hstandby, hsheets, rfl, ?_⟩
  exact congrArg (fun u : State => { u with calendar := s.calendar, port := s.port }) hrest

/-! ### WRITE SUNDAY RANK (R53) -/

theorem writeSundayRank_new {r : Byte} (hr : r.toNat ≤ 15) (hnew : r.toNat ≠ s.calendar.sundayRank) :
    writeSundayRank [r] s = .ok (trigger (updCalendar (fun c => { c with sundayRank := r.toNat }) s)) := by
  simp [writeSundayRank, Nat.not_lt.2 hr, hnew]

theorem writeSundayRank_held {r : Byte} (hr : r.toNat ≤ 15) (hheld : r.toNat = s.calendar.sundayRank) :
    writeSundayRank [r] s = .ok s := by
  simp only [writeSundayRank, if_neg (Nat.not_lt.2 hr), if_pos hheld]

theorem writeSundayRank_bad {r : Byte} (hr : 15 < r.toNat) : writeSundayRank [r] s = .error .badValue := if_pos hr

theorem exec_writeSundayRank (ops : List Byte) : exec (.writeSundayRank ops) s = change (writeSundayRank ops s) s := rfl

/-! ### WRITE TWILIGHT (R56) -/

theorem writeTwilight_ok {p a1 a0 b1 b0 : Byte} {n : Fin 24} (hp : p.toNat = n.val) (ha : u16 a1 a0 ≤ 1439) (hb : u16 b1 b0 ≤ 1439) :
    writeTwilight [p, a1, a0, b1, b0] s
      = .ok (trigger (updCalendar (fun c => { c with twilight := put c.twilight n (u16 a1 a0, u16 b1 b0) }) s)) := by
  have hlt : p.toNat < 24 := hp ▸ n.isLt
  have hn : (⟨p.toNat, hlt⟩ : Fin 24) = n := Fin.ext hp
  simp only [writeTwilight, dif_pos hlt, if_pos (And.intro ha hb), hn]

theorem writeTwilight_bad {p a1 a0 b1 b0 : Byte} (h : 24 ≤ p.toNat ∨ 1439 < u16 a1 a0 ∨ 1439 < u16 b1 b0) :
    writeTwilight [p, a1, a0, b1, b0] s = .error .badValue := by
  unfold writeTwilight
  dsimp only
  split
  · rw [if_neg (by omega)]
  · rfl

theorem exec_writeTwilight (ops : List Byte) : exec (.writeTwilight ops) s = change (writeTwilight ops s) s := rfl

/-- Settles O29: an accepted write is `change_calendar`; a held rank is written back, and the rest is refused. -/
theorem calendarWritesTrigger : Obligations.CalendarWritesTrigger := by
  intro s hp
  refine ⟨fun r hr hnew => ?_, fun r hheld hr => ?_, fun r hr => ?_, fun p a1 a0 b1 b0 n hn ha hb => ?_, fun p a1 a0 b1 b0 hbad => ?_⟩
  · rw [exec_writeSundayRank, writeSundayRank_new hr hnew]
    exact change_calendar hp _
  · rw [exec_writeSundayRank, writeSundayRank_held hr hheld, change_ok hp]
  · rw [exec_writeSundayRank, writeSundayRank_bad hr, change_error hp]
  · rw [exec_writeTwilight, writeTwilight_ok hn ha hb]
    exact change_calendar hp _
  · rw [exec_writeTwilight, writeTwilight_bad hbad, change_error hp]

end Sys2Proof.Resolution
end

section
/-! PROOFS. The calendar's date rules, the records that apply on a day, and QUERY DAY (R50 to R52, R58, R73). -/

namespace Sys2Proof.Resolution

open Sys2Proof Sys2Proof.Machine

variable {s : State}

/-! ### Records that pass validation (R15, R16) -/

theorem recordOf_fields {img : Image} {r : Record} (h : recordOf img = some r) :
    imgDateRule img = some r.rule ∧ imgTiming img r.kind = some r.timing := by
  simp only [recordOf, Option.bind_eq_bind, Option.bind_eq_some_iff] at h
  obtain ⟨kind, -, rule, hrule, timing, htiming, action, -, h⟩ := h
  split at h
  · obtain rfl := Option.some.inj h
    exact ⟨hrule, htiming⟩
  · cases h

/-- The weekday of a weekday form is one (R15). -/
def WeekdayOk : DateRule → Prop
  | .onOrAfter w _ _ => w ≤ 6
  | .onOrBefore w _ _ => w ≤ 6
  | _ => True

theorem anchorOf_weekday {w m d : Byte} {a : Nat × Nat × Nat} (h : anchorOf w m d = some a) : a.1 ≤ 6 := by
  simp only [anchorOf, Option.bind_eq_bind, Option.bind_eq_some_iff] at h
  obtain ⟨mm, -, dd, -, h⟩ := h
  split at h
  · next hok =>
    obtain rfl := Option.some.inj h
    exact hok.1
  · cases h

theorem imgDateRule_weekday {img : Image} {rule : DateRule} (h : imgDateRule img = some rule) : WeekdayOk rule := by
  unfold imgDateRule at h
  split at h
  case h_5 | h_6 =>
    obtain ⟨a, ha, rfl⟩ := Option.map_eq_some_iff.1 h
    exact anchorOf_weekday ha
  case h_7 =>
    obtain ⟨day, -, rfl⟩ := Option.map_eq_some_iff.1 h
    trivial
  case h_3 =>
    simp only [Option.bind_eq_bind, Option.bind_eq_some_iff, Option.ite_none_right_eq_some] at h
    obtain ⟨m, -, d, -, -, h⟩ := h
    obtain rfl := Option.some.inj h
    trivial
  case h_2 | h_4 =>
    obtain ⟨-, h⟩ := Option.ite_none_right_eq_some.1 h
    obtain rfl := Option.some.inj h
    trivial
  case h_1 =>
    obtain rfl := Option.some.inj h
    trivial
  case h_8 => cases h

theorem liveRecord_eq_some {x : Slot} {r : Record} (h : liveRecord x = some r) : recordOf x.image = some r := by
  unfold liveRecord at h
  split at h
  · exact h
  · cases h

/-! ### Date rules (R50, R51) -/

theorem anchorYear_iff (y : Nat) : anchorYear y = true ↔ 2000 ≤ y ∧ y ≤ 2399 := by simp [anchorYear]

theorem le_yearOf (n : Nat) : 2000 ≤ yearOf n := Nat.le_trans (Nat.le_add_right _ _) (le_yearFrom 400 _)

/-- A date rule applies just on the days that it names in the calendar's terms (R50, R51). -/
theorem ruleApplies_iff {rule : DateRule} (h : WeekdayOk rule) (D : Nat) : ruleApplies rule D = true ↔ NamesDay rule D := by
  have hyear := le_yearOf D
  cases rule with
  | daily => simp [ruleApplies, NamesDay]
  | weekdays set => exact Iff.rfl
  | fixed m d => simp [ruleApplies, NamesDay]
  | easter o => simp [ruleApplies, NamesDay]
  | once day => simp [ruleApplies, NamesDay]
  | onOrAfter w m d =>
    simp only [ruleApplies, NamesDay, Bool.or_eq_true, Bool.and_eq_true, beq_iff_eq, anchorYear_iff, onOrAfter_iff h]
    constructor
    · rintro (⟨⟨h1, h2⟩, hw, hlo, hhi⟩ | ⟨⟨h1, h2⟩, hw, hlo, hhi⟩)
      · exact ⟨hw, _, h1, h2, Or.inl rfl, hlo, hhi⟩
      · exact ⟨hw, _, h1, h2, Or.inr (by omega), hlo, hhi⟩
    · rintro ⟨hw, y, h1, h2, rfl | hy, hlo, hhi⟩
      · exact Or.inl ⟨⟨h1, h2⟩, hw, hlo, hhi⟩
      · obtain rfl : y = yearOf D - 1 := by omega
        exact Or.inr ⟨⟨h1, h2⟩, hw, hlo, hhi⟩
  | onOrBefore w m d =>
    simp only [ruleApplies, NamesDay, Bool.or_eq_true, Bool.and_eq_true, decide_eq_true_eq, anchorYear_iff, onOrBefore_iff h]
    constructor
    · rintro (⟨⟨h1, h2⟩, hw, hlo, hhi⟩ | ⟨⟨h1, h2⟩, hw, hlo, hhi⟩)
      · exact ⟨hw, _, h1, h2, Or.inl rfl, hlo, hhi⟩
      · exact ⟨hw, _, h1, h2, Or.inr rfl, hlo, hhi⟩
    · rintro ⟨hw, y, h1, h2, rfl | rfl, hlo, hhi⟩
      · exact Or.inl ⟨⟨h1, h2⟩, hw, hlo, hhi⟩
      · exact Or.inr ⟨⟨h1, h2⟩, hw, hlo, hhi⟩

/-- A LIVE record's date rule applies just on the days that it names. -/
theorem liveRule_iff {x : Slot} {r : Record} (h : liveRecord x = some r) (D : Nat) :
    ruleApplies r.rule D = true ↔ NamesDay r.rule D :=
  ruleApplies_iff (imgDateRule_weekday (recordOf_fields (liveRecord_eq_some h)).1) D

/-! ### LIVE records, feasts and applying records (R52) -/

section Records

variable {slots : Vector Slot 128} {D : Nat}

theorem mem_liveRecords {i : SlotNo} {r : Record} : (i, r) ∈ liveRecords slots ↔ liveRecord (slots.get i) = some r := by
  simp [liveRecords, allSlots]

/-- The LIVE records stand in ascending slot order. -/
theorem liveRecords_ascending (slots : Vector Slot 128) : (liveRecords slots).Pairwise fun p q => p.1 < q.1 := by
  have hslots : allSlots.Pairwise (· < ·) := List.pairwise_lt_finRange 128
  refine List.Pairwise.filterMap _ (fun i j hij p hp q hq => ?_) hslots
  simp only [Option.map_eq_some_iff] at hp hq
  obtain ⟨-, -, rfl⟩ := hp
  obtain ⟨-, -, rfl⟩ := hq
  exact hij

theorem mem_feastsOn {i : SlotNo} {r : Record} :
    (i, r) ∈ feastsOn slots D ↔ liveRecord (slots.get i) = some r ∧ r.kind = .feast ∧ NamesDay r.rule D := by
  rw [feastsOn, List.mem_filter, mem_liveRecords, Bool.and_eq_true, beq_iff_eq]
  exact and_congr_right fun h => and_congr_right fun _ => liveRule_iff h D

theorem mem_applyingRecords {rank : Nat} {i : SlotNo} {r : Record} :
    (i, r) ∈ applyingRecords slots rank D ↔ liveRecord (slots.get i) = some r ∧ NamesDay r.rule D ∧
      (r.kind = .feast ∨ r.lowest ≤ governingRank slots rank D ∧ governingRank slots rank D ≤ r.highest) := by
  rw [applyingRecords, List.mem_filter, mem_liveRecords]
  refine and_congr_right fun h => ?_
  simp only [recordApplies, Bool.and_eq_true, Bool.or_eq_true, beq_iff_eq, decide_eq_true_eq, liveRule_iff h]

theorem applyingRecords_ascending (slots : Vector Slot 128) (rank D : Nat) :
    (applyingRecords slots rank D).Pairwise fun p q => p.1 < q.1 := (liveRecords_ascending slots).filter _

/-- A running maximum bounds its start and every element, and is one of them. -/
theorem foldl_max_spec {α : Type} (f : α → Nat) (xs : List α) (a : Nat) :
    a ≤ xs.foldl (fun acc x => max acc (f x)) a ∧ (∀ x ∈ xs, f x ≤ xs.foldl (fun acc x => max acc (f x)) a) ∧
      (xs.foldl (fun acc x => max acc (f x)) a = a ∨ ∃ x ∈ xs, xs.foldl (fun acc x => max acc (f x)) a = f x) := by
  induction xs generalizing a with
  | nil => simp
  | cons y ys ih =>
    obtain ⟨hstart, hall, hone⟩ := ih (max a (f y))
    rw [List.foldl_cons]
    refine ⟨by omega, List.forall_mem_cons.2 ⟨by omega, hall⟩, ?_⟩
    rcases hone with hone | ⟨x, hx, hone⟩
    · rcases Nat.le_total (f y) (a) with hle | hle
      · exact Or.inl (hone.trans (Nat.max_eq_left hle))
      · exact Or.inr ⟨y, List.mem_cons_self, hone.trans (Nat.max_eq_right hle)⟩
    · exact Or.inr ⟨x, List.mem_cons_of_mem _ hx, hone⟩

/-- The governing rank is the greatest of the feasts' ranks, of the Sunday rank on a Sunday, and of 0 (R52). -/
theorem governingRank_spec (slots : Vector Slot 128) (rank D : Nat) :
    (∀ p ∈ feastsOn slots D, p.2.rank ≤ governingRank slots rank D) ∧ (weekday D = 0 → rank ≤ governingRank slots rank D) ∧
      (governingRank slots rank D = 0 ∨ weekday D = 0 ∧ governingRank slots rank D = rank ∨
        ∃ p ∈ feastsOn slots D, governingRank slots rank D = p.2.rank) := by
  obtain ⟨hstart, hall, hone⟩ := foldl_max_spec (fun p : SlotNo × Record => p.2.rank) (feastsOn slots D)
    (if weekday D = 0 then rank else 0)
  unfold governingRank
  refine ⟨hall, fun hsunday => le_trans (by rw [if_pos hsunday]) hstart, ?_⟩
  rcases hone with hone | hone
  · by_cases hsunday : weekday D = 0
    · exact Or.inr (Or.inl ⟨hsunday, hone.trans (if_pos hsunday)⟩)
    · exact Or.inl (hone.trans (if_neg hsunday))
  · exact Or.inr (Or.inr hone)

/-- One step in the choice of the governing feast. -/
def greaterFeast (best : Option (SlotNo × Record)) (p : SlotNo × Record) : Option (SlotNo × Record) :=
  match best with
  | none => some p
  | some b => if b.2.rank < p.2.rank then some p else some b

/-- A feast goes before another: its rank is greater, or equal with a slot not higher (R52). -/
def Outranks (b p : SlotNo × Record) : Prop := p.2.rank < b.2.rank ∨ p.2.rank = b.2.rank ∧ b.1 ≤ p.1

theorem Outranks.trans {a b c : SlotNo × Record} (h : Outranks a b) (h' : Outranks b c) : Outranks a c := by
  unfold Outranks at *
  rcases h with h | ⟨h, hle⟩ <;> rcases h' with h' | ⟨h', hle'⟩
  · exact Or.inl (h'.trans h)
  · exact Or.inl (h' ▸ h)
  · exact Or.inl (h ▸ h')
  · exact Or.inr ⟨h'.trans h, hle.trans hle'⟩

/-- The choice among feasts in ascending slot order outranks every one of them. -/
theorem foldl_greaterFeast (ps : List (SlotNo × Record)) (b : SlotNo × Record)
    (hps : (b :: ps).Pairwise fun p q => p.1 < q.1) :
    ∃ g ∈ b :: ps, ps.foldl greaterFeast (some b) = some g ∧ ∀ p ∈ b :: ps, Outranks g p := by
  induction ps generalizing b with
  | nil => exact ⟨b, List.mem_cons_self, rfl, fun p hp => by rw [List.mem_singleton.1 hp]; exact Or.inr ⟨rfl, le_refl _⟩⟩
  | cons q qs ih =>
    obtain ⟨hb, hq⟩ := List.pairwise_cons.1 hps
    by_cases hrank : b.2.rank < q.2.rank
    · obtain ⟨g, hg, hfold, hall⟩ := ih q hq
      refine ⟨g, List.mem_cons_of_mem _ hg, ?_, List.forall_mem_cons.2 ⟨?_, hall⟩⟩
      · rw [List.foldl_cons, greaterFeast, if_pos hrank, hfold]
      · exact (hall q List.mem_cons_self).trans (Or.inl hrank)
    · obtain ⟨g, hg, hfold, hall⟩ := ih b (hps.sublist ((List.sublist_cons_self q qs).cons_cons b))
      have hbq : Outranks b q :=
        (Nat.lt_or_eq_of_le (Nat.not_lt.1 hrank)).imp_right fun h => ⟨h, le_of_lt (hb q List.mem_cons_self)⟩
      obtain ⟨hgb, hrest⟩ := List.forall_mem_cons.1 hall
      refine ⟨g, ?_, ?_, List.forall_mem_cons.2 ⟨hgb, List.forall_mem_cons.2 ⟨hgb.trans hbq, hrest⟩⟩⟩
      · exact ((List.sublist_cons_self q qs).cons_cons b).subset hg
      · rw [List.foldl_cons, greaterFeast, if_neg hrank, hfold]

/-- The governing feast outranks every feast of the day, and there is one where there is any (R52). -/
theorem governingFeast_spec (slots : Vector Slot 128) (D : Nat) :
    (governingFeast slots D = none → feastsOn slots D = []) ∧
    (∀ g, governingFeast slots D = some g → g ∈ feastsOn slots D ∧ ∀ p ∈ feastsOn slots D, Outranks g p) := by
  have hasc : (feastsOn slots D).Pairwise fun p q => p.1 < q.1 := (liveRecords_ascending slots).filter _
  have hform : governingFeast slots D = (feastsOn slots D).foldl greaterFeast none := rfl
  rw [hform]
  cases hf : feastsOn slots D with
  | nil => exact ⟨fun _ => rfl, fun g hg => by cases hg⟩
  | cons b ps =>
    rw [hf] at hasc
    obtain ⟨g, hg, hfold, hall⟩ := foldl_greaterFeast ps b hasc
    have hchoice : (b :: ps).foldl greaterFeast none = some g := hfold
    rw [hchoice]
    exact ⟨fun h => (by cases h), fun g' hg' => Option.some.inj hg' ▸ ⟨hg, hall⟩⟩

end Records

/-! ### The plan of a day (R54, R58) -/

theorem wallMinute_eq (t : TimeBase) (D v : Nat) : wallMinute t D v = wallValue t D v := by
  unfold wallMinute wallValue
  split <;> rfl

/-- A twilight moment without an offset, in minutes (R58). -/
theorem twilightSecond_zero (v : Nat) : twilightSecond v 0 / 60 = min 1439 v := by
  unfold twilightSecond
  omega

/-! ### QUERY DAY (R73) -/

theorem exec_queryDay (ops : List Byte) : exec (.queryDay ops) s = change (queryDay ops s) s := rfl

theorem queryDay_free {c y m d : Byte} {day : Nat} (hday : bcdDate c y m d = some day) (hq : s.resolver.query = none) :
    queryDay [c, y, m, d] s = .ok (updResolver (fun r => { r with query := some day }) s) := by
  simp [queryDay, hday, hq]

theorem queryDay_busy {c y m d : Byte} {day : Nat} (hday : bcdDate c y m d = some day) (hq : s.resolver.query ≠ none) :
    queryDay [c, y, m, d] s = .error .busy := by
  simp [queryDay, hday, Option.isSome_iff_ne_none.2 hq]

theorem runOf_eq {r : Run} {kind : RunKind} (h : s.resolver.run = some r) (hk : r.kind = kind) : runOf kind s = some r := by
  simp [Machine.runOf, h, hk]

theorem exec_queryRunComplete {r : Run} (hr : running s = true) (h : s.resolver.run = some r) (hk : r.kind = .query) :
    exec .queryRunComplete s = .next (completeQuery r.date (endRun s)) := by
  change execQueryRunComplete s = _
  rw [execQueryRunComplete, event_running hr, runOf_eq h hk]

/-- The feasts of a result are those that the calendar names, and its rank and feast are theirs (R52, R73). -/
theorem queryResult_feasts (s : State) (D : Nat) {feastOn : SlotNo → Record → Prop}
    (hf : ∀ i x, feastOn i x ↔ liveRecord (getSlot s i) = some x ∧ x.kind = .feast ∧ NamesDay x.rule D) :
    (∀ i x, feastOn i x → x.rank ≤ (queryResult s D).rank) ∧ (weekday D = 0 → s.calendar.sundayRank ≤ (queryResult s D).rank) ∧
    ((queryResult s D).rank = 0 ∨ weekday D = 0 ∧ (queryResult s D).rank = s.calendar.sundayRank ∨
      ∃ i x, feastOn i x ∧ (queryResult s D).rank = x.rank) ∧
    ((queryResult s D).feast = none → (queryResult s D).feastName = 0 ∧ ∀ i x, ¬feastOn i x) ∧
    (∀ i, (queryResult s D).feast = some i → (queryResult s D).feastName = imgNat (getSlot s i).image 22 ∧
      ∃ x, feastOn i x ∧ ∀ j y, feastOn j y → y.rank < x.rank ∨ y.rank = x.rank ∧ i ≤ j) := by
  have hmem : ∀ i x, feastOn i x ↔ (i, x) ∈ feastsOn s.table.slots D := fun i x => (hf i x).trans mem_feastsOn.symm
  obtain ⟨hbound, hsunday, hone⟩ := governingRank_spec s.table.slots s.calendar.sundayRank D
  obtain ⟨hnone, hsome⟩ := governingFeast_spec s.table.slots D
  refine ⟨fun i x hx => hbound (i, x) ((hmem i x).1 hx), hsunday, ?_, fun hq => ?_, fun i hq => ?_⟩
  · refine hone.imp_right (Or.imp_right ?_)
    rintro ⟨⟨i, x⟩, hx, hrank⟩
    exact ⟨i, x, (hmem i x).2 hx, hrank⟩
  · have hg : governingFeast s.table.slots D = none := Option.map_eq_none_iff.1 hq
    refine ⟨by simp [queryResult, hg], fun i x hx => ?_⟩
    have := (hmem i x).1 hx
    rw [hnone hg] at this
    cases this
  · obtain ⟨⟨i', x⟩, hg, rfl⟩ := Option.map_eq_some_iff.1 hq
    obtain ⟨hx, hall⟩ := hsome _ hg
    exact ⟨by simp [queryResult, hg], x, (hmem _ x).2 hx, fun j y hy => hall (j, y) ((hmem j y).1 hy)⟩

/-- The records that a result counts (R52, R73). -/
theorem queryResult_applying (s : State) (D : Nat) :
    ∃ slots : List SlotNo, slots.Nodup ∧ slots.length = (queryResult s D).applying ∧
      ∀ i, i ∈ slots ↔ ∃ x, liveRecord (getSlot s i) = some x ∧ NamesDay x.rule D ∧
        (x.kind = .feast ∨ x.lowest ≤ (queryResult s D).rank ∧ (queryResult s D).rank ≤ x.highest) := by
  have hasc := applyingRecords_ascending s.table.slots s.calendar.sundayRank D
  refine ⟨(applyingRecords s.table.slots s.calendar.sundayRank D).map Prod.fst, ?_, List.length_map _, fun i => ?_⟩
  · exact List.pairwise_map.2 (hasc.imp ne_of_lt)
  · rw [List.mem_map]
    constructor
    · rintro ⟨⟨_, x⟩, hx, rfl⟩
      exact ⟨x, mem_applyingRecords.1 hx⟩
    · rintro ⟨x, hx⟩
      exact ⟨(i, x), mem_applyingRecords.2 hx, rfl⟩

/-- Settles O30: the two answers of `queryDay`, and the result of `completeQuery` field by field. -/
theorem dayQueriesAreServed : Obligations.DayQueriesAreServed := by
  refine fun s => ⟨fun c y m d day hp hday => ⟨fun hq => ?_, fun hq => ?_⟩, fun r hr hrun hk => ?_⟩
  · rw [exec_queryDay, queryDay_free hday hq, change_ok hp]
    rfl
  · rw [exec_queryDay, queryDay_busy hday hq, change_error hp]
  · refine ⟨_, queryResult s r.date, exec_queryRunComplete hr hrun hk, rfl, rfl, rfl, rfl, rfl, rfl, rfl, ?_, ?_,
      fun _ => queryResult_feasts s r.date, queryResult_applying s r.date, rfl, rfl⟩
    · rw [← wallMinute_eq]
      exact twilightSecond_zero _
    · rw [← wallMinute_eq]
      exact twilightSecond_zero _

end Sys2Proof.Resolution
end

section
/-! PROOFS. Sheet order and drop order are strict orders on entries of distinct keys, and a sort puts entries in order (R65, R66). -/

namespace Sys2Proof.Resolution

open Sys2Proof Sys2Proof.Machine

/-- An order on entries that is transitive and decides between any two keys. -/
structure DecidesKeys (before : Entry → Entry → Bool) : Prop where
  trans : ∀ {a b c}, before a b = true → before b c = true → before a c = true
  connected : ∀ {a b : Entry}, a.key ≠ b.key → before a b = false → before b a = true

theorem key_ne_iff (a b : Key) : a ≠ b ↔ a.slot ≠ b.slot ∨ a.sub ≠ b.sub := by
  cases a; cases b
  simp only [ne_eq, Key.mk.injEq]
  exact not_and_or

theorem decidesKeys_sheetBefore : DecidesKeys sheetBefore where
  trans h h' := by
    unfold sheetBefore at *
    grind
  connected hk h := by
    rw [key_ne_iff] at hk
    unfold sheetBefore at *
    grind

theorem decidesKeys_dropBefore : DecidesKeys dropBefore where
  trans h h' := by
    unfold dropBefore at *
    grind
  connected hk h := by
    rw [key_ne_iff] at hk
    unfold dropBefore at *
    grind

variable {before : Entry → Entry → Bool}

theorem pairwise_insertBy (h : DecidesKeys before) {x : Entry} {ys : List Entry} (hx : ∀ y ∈ ys, x.key ≠ y.key)
    (hys : ys.Pairwise fun a b => before a b = true) : (insertBy before x ys).Pairwise fun a b => before a b = true := by
  induction ys with
  | nil => exact List.pairwise_singleton _ _
  | cons y ys ih =>
    obtain ⟨hy, htail⟩ := List.pairwise_cons.1 hys
    obtain ⟨hxy, hxs⟩ := List.forall_mem_cons.1 hx
    rw [insertBy]
    split
    · next hlt => exact List.pairwise_cons.2 ⟨List.forall_mem_cons.2 ⟨hlt, fun z hz => h.trans hlt (hy z hz)⟩, hys⟩
    · next hge =>
      refine List.pairwise_cons.2 ⟨fun z hz => ?_, ih hxs htail⟩
      rcases (mem_insertBy _ _ _ _).1 hz with rfl | hz
      · exact h.connected hxy (by simpa using hge)
      · exact hy z hz

/-- Entries of distinct keys are in order once sorted. -/
theorem pairwise_sortBy (h : DecidesKeys before) {xs : List Entry} (hn : (xs.map Entry.key).Nodup) :
    (sortBy before xs).Pairwise fun a b => before a b = true := by
  induction xs with
  | nil => exact List.Pairwise.nil
  | cons x xs ih =>
    rw [List.map_cons, List.nodup_cons] at hn
    refine pairwise_insertBy h (fun y hy hkey => hn.1 ?_) (ih hn.2)
    rw [hkey]
    exact List.mem_map_of_mem ((mem_sortBy _ _ _).1 hy)

end Sys2Proof.Resolution
end

section
/-! PROOFS. What an applying record gives on a day, and what a run that starts generates (R54, R55, R58 to R65, R67). -/

namespace Sys2Proof.Resolution

open Sys2Proof Sys2Proof.Machine

variable {s : State} {t : TimeBase} {tw : Vector (Nat × Nat) 24} {D F : Nat} {i : SlotNo} {r : Record} {e : Entry}

/-! ### Wall times (R54, R55, R58) -/

/-- A day is a spring day, an autumn day or neither, by its change as by its length (R32, R54). -/
theorem dayChange_cases (t : TimeBase) (D : Nat) :
    dayChangeOf t D = .spring (t.startRule.hour * 3600) ∧ dayLengthOf t D = 82800 ∨
    dayChangeOf t D = .autumn ((t.endRule.hour + 1) * 3600) ∧ dayLengthOf t D = 90000 ∨
    dayChangeOf t D = .none ∧ dayLengthOf t D = 86400 := by
  unfold dayChangeOf dayLengthOf
  split
  · exact Or.inl ⟨rfl, rfl⟩
  · split
    · exact Or.inr (Or.inl ⟨rfl, rfl⟩)
    · exact Or.inr (Or.inr ⟨rfl, rfl⟩)

/-- The resolver's wall times have the instants of R54's table. -/
theorem instantOf_dayPlan (t : TimeBase) (tw : Vector (Nat × Nat) 24) (D w : Nat) :
    instantOf (dayPlan t tw D) w = tableInstant t D w := by
  unfold instantOf tableInstant dayPlan
  rcases dayChange_cases t D with ⟨hchange, hlen⟩ | ⟨hchange, hlen⟩ | ⟨hchange, hlen⟩
  · simp [hchange, hlen]
  · simp [hchange, hlen]
  · simp [hchange, hlen]

/-- A wall time that does not occur is one that a spring change passes over, whose instant is c (R55). -/
theorem changeInstant_of_passed {w : Nat} (h : tableInstant t D w = none) :
    changeInstant (dayPlan t tw D) = t.startRule.hour * 3600 := by
  unfold changeInstant dayPlan
  rcases dayChange_cases t D with ⟨hchange, -⟩ | ⟨-, hlen⟩ | ⟨-, hlen⟩
  · rw [hchange]
  · rw [tableInstant, if_neg (by omega), if_pos hlen] at h
    split at h <;> cases h
  · rw [tableInstant, if_neg (by omega), if_neg (by omega)] at h
    cases h

theorem twilightSecond_eq (v : Nat) (o : Int) : twilightSecond v o = offsetSecond v o := by
  unfold twilightSecond offsetSecond
  omega

theorem startInstant_dayPlan (a : PeriodStart) : startInstant (dayPlan t tw D) a = tableInstant t D (startSecond t tw D a) := by
  cases a <;> simp only [startInstant, startSecond, instantOf_dayPlan, twilightSecond_eq] <;> simp only [dayPlan, wallMinute_eq]

theorem instantOrChange (w : Nat) :
    (instantOf (dayPlan t tw D) w).getD (changeInstant (dayPlan t tw D)) = (tableInstant t D w).getD (t.startRule.hour * 3600) := by
  rw [instantOf_dayPlan]
  cases h : tableInstant t D w with
  | none => exact changeInstant_of_passed h
  | some i => rfl

theorem endInstantOf_dayPlan (z : PeriodEnd) : endInstantOf (dayPlan t tw D) z = stopInstant t tw D z := by
  cases z <;> simp only [endInstantOf, stopInstant, instantOrChange, twilightSecond_eq] <;> simp only [dayPlan, wallMinute_eq]

/-! ### Entries of one record (R59 to R64) -/

/-- An entry that a record of a slot generates: the slot's key, and the record's kind and rank (R59). -/
def Bears (i : SlotNo) (r : Record) (e : Entry) : Prop := e.carried = false ∧ e.key.slot = i ∧ e.kind = r.kind ∧ e.rank = r.rank

theorem eq_mkEntry_iff {sub instant : Nat} {stop : Option Nat} {st : EntryState} :
    e = mkEntry i r sub instant stop st ↔
      Bears i r e ∧ e.key.sub = sub ∧ e.instant = instant ∧ e.endInstant = stop ∧ e.state = st := by
  obtain ⟨instant', stop', ⟨slot, sub'⟩, kind, rank, state, carried⟩ := e
  simp only [mkEntry, Bears, Entry.mk.injEq, Key.mk.injEq]
  tauto

/-- One occurrence gives its entry, PENDING or SKIPPED, where it is not before F (R55, R59). -/
theorem mem_occurrence {sub w : Nat} :
    e ∈ occurrence (dayPlan t tw D) F i r sub w ↔ Bears i r e ∧ e.key.sub = sub ∧ OccursAt t D F w e := by
  unfold occurrence OccursAt
  rw [instantOf_dayPlan]
  cases h : tableInstant t D w with
  | some n =>
    simp only [List.mem_ite_nil_right, List.mem_singleton, eq_mkEntry_iff]
    grind
  | none =>
    simp only [changeInstant_of_passed h, List.mem_ite_nil_right, List.mem_singleton, eq_mkEntry_iff]
    grind

/-- Where a period that starts at a and ends at z is generated (R59, R64). -/
theorem joinInstant_eq_some {a z n : Nat} : joinInstant F a z = some n ↔ a < z ∧ F < z ∧ n = max a F := by
  unfold joinInstant
  split_ifs <;> simp <;> omega

theorem joinInstant_eq_none {a z : Nat} : joinInstant F a z = none ↔ ¬(a < z ∧ F < z) := by
  unfold joinInstant
  split_ifs <;> simp <;> omega

/-- A period that is not to be generated has no entries. -/
theorem not_ofPeriod {kind : Kind} {hasOff : Bool} {a z : Nat} (h : joinInstant F a z = none) : ¬OfPeriod kind hasOff F a z e :=
  fun ⟨ha, hF, _⟩ => joinInstant_eq_none.1 h ⟨ha, hF⟩

/-- What a QUIET period gives whose start occurs (R62, R64). -/
theorem mem_quietEntries {p : DayPlan} {a z : Nat} (hk : r.kind = .quiet) (hasOff : Bool) :
    e ∈ quietEntries p F i r (some a) z ↔ Bears i r e ∧ OfPeriod r.kind hasOff F a z e := by
  unfold quietEntries
  dsimp only
  cases h : joinInstant F a z with
  | none => simp [not_ofPeriod h]
  | some n =>
    obtain ⟨ha, hF, rfl⟩ := joinInstant_eq_some.1 h
    simp only [List.mem_singleton, eq_mkEntry_iff, OfPeriod]
    grind

/-- What a LIGHT period gives whose start occurs (R63, R64). -/
theorem mem_lightEntries {p : DayPlan} {a z : Nat} (hk : r.kind = .light) (hasOff : Bool) :
    e ∈ lightEntries p F i r (some a) z hasOff ↔ Bears i r e ∧ OfPeriod r.kind hasOff F a z e := by
  unfold lightEntries
  dsimp only
  cases h : joinInstant F a z with
  | none => simp [not_ofPeriod h]
  | some n =>
    obtain ⟨ha, hF, rfl⟩ := joinInstant_eq_some.1 h
    simp only [List.mem_cons, List.mem_ite_nil_right, List.not_mem_nil, or_false, eq_mkEntry_iff, OfPeriod]
    grind

/-- What a QUIET or LIGHT period gives whose start does not occur: a SKIPPED entry at instant c (R62 to R64). -/
def PassedStart (t : TimeBase) (kind : Kind) (F z : Nat) (e : Entry) : Prop :=
  F ≤ e.instant ∧ e.instant = t.startRule.hour * 3600 ∧ e.key.sub = 0 ∧ e.state = .skipped ∧
    e.endInstant = if kind = .quiet then some z else none

theorem mem_quietEntries_passed {p : DayPlan} {z : Nat} (hk : r.kind = .quiet) (hc : changeInstant p = t.startRule.hour * 3600) :
    e ∈ quietEntries p F i r none z ↔ Bears i r e ∧ PassedStart t r.kind F z e := by
  unfold quietEntries PassedStart
  dsimp only
  simp only [hc, List.mem_ite_nil_right, List.mem_singleton, eq_mkEntry_iff]
  grind

theorem mem_lightEntries_passed {p : DayPlan} {z : Nat} {hasOff : Bool} (hk : r.kind = .light)
    (hc : changeInstant p = t.startRule.hour * 3600) :
    e ∈ lightEntries p F i r none z hasOff ↔ Bears i r e ∧ PassedStart t r.kind F z e := by
  unfold lightEntries PassedStart
  dsimp only
  simp only [hc, List.mem_ite_nil_right, List.mem_singleton, eq_mkEntry_iff]
  grind

/-! ### The timings that a kind accepts (R6) -/

/-- A FEAST has no times, and only a QUIET or LIGHT record has a period (R6). -/
def TimingFits (kind : Kind) : Timing → Prop
  | .none => True
  | .single _ => kind ≠ .feast
  | .quarters _ _ => kind ≠ .feast
  | .hours _ _ => kind ≠ .feast
  | .period _ _ => kind = .quiet ∨ kind = .light
  | .wholeDay => kind = .quiet ∨ kind = .light

theorem mkPeriod_eq_some {a : PeriodStart} {z : PeriodEnd} {x : Timing} (h : mkPeriod a z = some x) : x = .period a z := by
  unfold mkPeriod at h
  split at h
  · split at h
    · exact (Option.some.inj h).symm
    · cases h
  · exact (Option.some.inj h).symm

theorem tuneOrToll_fits {img : Image} {kind : Kind} {x : Timing} (hk : kind ≠ .feast) (h : imgTiming.tuneOrToll img = some x) :
    TimingFits kind x := by
  unfold imgTiming.tuneOrToll at h
  split at h
  · obtain ⟨-, h⟩ := Option.ite_none_right_eq_some.1 h
    obtain ⟨w, -, rfl⟩ := Option.map_eq_some_iff.1 h
    exact hk
  · obtain ⟨w, -, rfl⟩ := Option.map_eq_some_iff.1 h
    exact hk
  · cases h

theorem imgTiming_fits {img : Image} {kind : Kind} {x : Timing} (h : imgTiming img kind = some x) : TimingFits kind x := by
  cases kind with
  | feast =>
    obtain rfl := Option.some.inj h
    trivial
  | quiet =>
    simp only [imgTiming, Option.bind_eq_bind] at h
    split at h
    · obtain rfl := Option.some.inj h
      exact Or.inl rfl
    · obtain ⟨-, h⟩ := Option.ite_none_right_eq_some.1 h
      simp only [Option.bind_eq_some_iff] at h
      obtain ⟨a, -, z, -, h⟩ := h
      rw [mkPeriod_eq_some h]
      exact Or.inl rfl
  | light =>
    simp only [imgTiming, Option.bind_eq_bind] at h
    split at h
    · obtain rfl := Option.some.inj h
      exact Or.inr rfl
    · simp only [Option.bind_eq_some_iff] at h
      obtain ⟨a, -, z, -, h⟩ := h
      rw [mkPeriod_eq_some h]
      exact Or.inr rfl
  | strike =>
    simp only [imgTiming] at h
    split at h
    · obtain ⟨w, -, rfl⟩ := Option.map_eq_some_iff.1 h
      exact Kind.noConfusion
    · obtain ⟨w, -, rfl⟩ := Option.map_eq_some_iff.1 h
      exact Kind.noConfusion
    · cases h
  | tune => exact tuneOrToll_fits Kind.noConfusion h
  | toll => exact tuneOrToll_fits Kind.noConfusion h
  | peal =>
    obtain ⟨-, h⟩ := Option.ite_none_right_eq_some.1 h
    obtain ⟨w, -, rfl⟩ := Option.map_eq_some_iff.1 h
    exact Kind.noConfusion

theorem liveRecord_fits {x : Slot} (h : liveRecord x = some r) : TimingFits r.kind r.timing :=
  imgTiming_fits (recordOf_fields (liveRecord_eq_some h)).2

/-! ### The expansion of a record by its timing (R59 to R64) -/

section Expand

variable {p : DayPlan} {w x y : Nat} {a : PeriodStart} {z : PeriodEnd}

theorem expand_none (h : r.timing = .none) : expand p F i r = [] := by
  unfold expand
  rw [h]
  cases r.kind <;> rfl

theorem expand_single (h : r.timing = .single w) : expand p F i r = occurrence p F i r 0 w := by
  unfold expand
  rw [h]
  cases r.kind <;> rfl

theorem expand_quarters (h : r.timing = .quarters x y) :
    expand p F i r = (List.range 96).flatMap fun q =>
      if x ≤ q * 900 ∧ q * 900 ≤ y then occurrence p F i r q (q * 900) else [] := by
  unfold expand
  rw [h]
  cases r.kind <;> rfl

theorem expand_hours (h : r.timing = .hours x y) :
    expand p F i r = (List.range 24).flatMap fun n =>
      if x ≤ n * 3600 ∧ n * 3600 ≤ y then occurrence p F i r (4 * n) (n * 3600) else [] := by
  unfold expand
  rw [h]
  cases r.kind <;> rfl

theorem expand_quiet_period (hk : r.kind = .quiet) (h : r.timing = .period a z) :
    expand p F i r = quietEntries p F i r (startInstant p a) (endInstantOf p z) := by
  unfold expand
  rw [h, hk]

theorem expand_light_period (hk : r.kind = .light) (h : r.timing = .period a z) :
    expand p F i r = lightEntries p F i r (startInstant p a) (endInstantOf p z) (z != .endOfDay) := by
  unfold expand
  rw [h, hk]

theorem expand_quiet_wholeDay (hk : r.kind = .quiet) (h : r.timing = .wholeDay) :
    expand p F i r = quietEntries p F i r (some 0) p.length := by
  unfold expand
  rw [h, hk]

theorem expand_light_wholeDay (hk : r.kind = .light) (h : r.timing = .wholeDay) :
    expand p F i r = lightEntries p F i r (some 0) p.length false := by
  unfold expand
  rw [h, hk]

end Expand

/-- What a record gives for its period (R62 to R64). -/
theorem mem_expand_period {a : PeriodStart} {z : PeriodEnd} (hk : r.kind = .quiet ∨ r.kind = .light) (h : r.timing = .period a z) :
    e ∈ expand (dayPlan t tw D) F i r ↔ Bears i r e ∧ Gives t tw D F r e := by
  unfold Gives
  rw [h]
  dsimp only
  cases hstart : tableInstant t D (startSecond t tw D a) with
  | some n =>
    rcases hk with hk | hk
    · rw [expand_quiet_period hk h, startInstant_dayPlan, endInstantOf_dayPlan, hstart, mem_quietEntries hk]
    · rw [expand_light_period hk h, startInstant_dayPlan, endInstantOf_dayPlan, hstart, mem_lightEntries hk]
  | none =>
    have hc := changeInstant_of_passed (tw := tw) hstart
    rcases hk with hk | hk
    · rw [expand_quiet_period hk h, startInstant_dayPlan, endInstantOf_dayPlan, hstart]
      exact mem_quietEntries_passed hk hc
    · rw [expand_light_period hk h, startInstant_dayPlan, endInstantOf_dayPlan, hstart]
      exact mem_lightEntries_passed hk hc

/-- An applying record gives the entries that the rules say, and no others (R59 to R64). -/
theorem mem_expand (hfit : TimingFits r.kind r.timing) :
    e ∈ expand (dayPlan t tw D) F i r ↔ Bears i r e ∧ Gives t tw D F r e := by
  cases h : r.timing with
  | none => simp [expand_none h, Gives, h]
  | single w => simp only [expand_single h, mem_occurrence, Gives, h]
  | quarters x y =>
    simp only [expand_quarters h, List.mem_flatMap, List.mem_range, Gives, h, List.mem_ite_nil_right, mem_occurrence]
    constructor
    · rintro ⟨q, hq, ⟨hx, hy⟩, hbears, rfl, hoccurs⟩
      exact ⟨hbears, hq, hx, hy, hoccurs⟩
    · rintro ⟨hbears, hq, hx, hy, hoccurs⟩
      exact ⟨e.key.sub, hq, ⟨hx, hy⟩, hbears, rfl, hoccurs⟩
  | hours x y =>
    simp only [expand_hours h, List.mem_flatMap, List.mem_range, Gives, h, List.mem_ite_nil_right, mem_occurrence]
    constructor
    · rintro ⟨n, hn, ⟨hx, hy⟩, hbears, hsub, hoccurs⟩
      have hsec : n * 3600 = e.key.sub * 900 := by omega
      rw [hsec] at hx hy hoccurs
      exact ⟨hbears, by omega, by omega, hx, hy, hoccurs⟩
    · rintro ⟨hbears, hsub, hhour, hx, hy, hoccurs⟩
      have hsec : e.key.sub * 900 = e.key.sub / 4 * 3600 := by omega
      rw [hsec] at hx hy hoccurs
      exact ⟨e.key.sub / 4, by omega, ⟨hx, hy⟩, hbears, by omega, hoccurs⟩
  | period a z =>
    rw [h] at hfit
    exact mem_expand_period hfit h
  | wholeDay =>
    rw [h] at hfit
    simp only [Gives, h]
    rcases hfit with hk | hk
    · rw [expand_quiet_wholeDay hk h, mem_quietEntries hk]
      rfl
    · rw [expand_light_wholeDay hk h, mem_lightEntries hk]
      rfl

/-! ### Keys (R65) -/

theorem occurrence_keys (p : DayPlan) (F : Nat) (i : SlotNo) (r : Record) (sub w : Nat) :
    (occurrence p F i r sub w).map Entry.key = [] ∨ (occurrence p F i r sub w).map Entry.key = [⟨i, sub⟩] := by
  unfold occurrence
  split <;> split
  · exact Or.inr rfl
  · exact Or.inl rfl
  · exact Or.inr rfl
  · exact Or.inl rfl

/-- Lists of entries of distinct keys, told apart by what their keys show, have distinct keys together. -/
theorem nodup_flatMap_keys {α β : Type} {xs : List α} {f : α → List Entry} {mark : Key → β} {tag : α → β}
    (hxs : (xs.map tag).Nodup) (hown : ∀ x ∈ xs, ((f x).map Entry.key).Nodup)
    (htag : ∀ x ∈ xs, ∀ e ∈ f x, mark e.key = tag x) : ((xs.flatMap f).map Entry.key).Nodup := by
  rw [List.map_flatMap, List.nodup_flatMap]
  refine ⟨hown, ?_⟩
  have hpair : xs.Pairwise fun x y => tag x ≠ tag y := List.pairwise_map.1 hxs
  refine hpair.imp_of_mem fun {x y} hx hy hne => ?_
  rw [Function.onFun, List.disjoint_left]
  intro k hk hk'
  obtain ⟨e, he, rfl⟩ := List.mem_map.1 hk
  obtain ⟨e', he', hkey⟩ := List.mem_map.1 hk'
  exact hne ((htag x hx e he).symm.trans (hkey ▸ htag y hy e' he'))

theorem nodup_occurrences (p : DayPlan) (F : Nat) (i : SlotNo) (r : Record) (n : Nat) {sub w : Nat → Nat} (c : Nat → Bool)
    (hsub : Function.Injective sub) :
    (((List.range n).flatMap fun q => if c q then occurrence p F i r (sub q) (w q) else []).map Entry.key).Nodup := by
  refine nodup_flatMap_keys (mark := Key.sub) (tag := sub) (List.nodup_range.map hsub) (fun q _ => ?_) fun q _ e he => ?_
  · cases c q with
    | false => exact List.nodup_nil
    | true =>
      rcases occurrence_keys p F i r (sub q) (w q) with h | h
      · exact h ▸ List.nodup_nil
      · exact h ▸ List.nodup_singleton _
  · obtain ⟨-, he⟩ := List.mem_ite_nil_right.1 he
    have hkey := List.mem_map_of_mem (f := Entry.key) he
    rcases occurrence_keys p F i r (sub q) (w q) with h | h
    · rw [h] at hkey; cases hkey
    · rw [h, List.mem_singleton] at hkey
      rw [hkey]

theorem quietEntries_keys (p : DayPlan) (F : Nat) (i : SlotNo) (r : Record) (start : Option Nat) (stop : Nat) :
    ((quietEntries p F i r start stop).map Entry.key).Nodup := by
  unfold quietEntries
  repeat' split
  all_goals simp

theorem lightEntries_keys (p : DayPlan) (F : Nat) (i : SlotNo) (r : Record) (start : Option Nat) (stop : Nat) (hasOff : Bool) :
    ((lightEntries p F i r start stop hasOff).map Entry.key).Nodup := by
  unfold lightEntries
  repeat' split
  all_goals simp [mkEntry]

/-- No key comes twice among the entries of one record (R65). -/
theorem expand_keys (p : DayPlan) (F : Nat) (i : SlotNo) (hfit : TimingFits r.kind r.timing) :
    ((expand p F i r).map Entry.key).Nodup := by
  cases h : r.timing with
  | none =>
    rw [expand_none h]
    exact List.nodup_nil
  | single w =>
    rw [expand_single h]
    rcases occurrence_keys p F i r 0 w with hkeys | hkeys
    · exact hkeys ▸ List.nodup_nil
    · exact hkeys ▸ List.nodup_singleton _
  | quarters x y =>
    rw [expand_quarters h]
    simpa using nodup_occurrences p F i r 96 (fun q => decide (x ≤ q * 900 ∧ q * 900 ≤ y)) Function.injective_id
  | hours x y =>
    rw [expand_hours h]
    simpa using nodup_occurrences p F i r 24 (fun n => decide (x ≤ n * 3600 ∧ n * 3600 ≤ y))
      (fun m n (h : 4 * m = 4 * n) => by omega)
  | period a z =>
    rw [h] at hfit
    rcases hfit with hk | hk
    · rw [expand_quiet_period hk h]
      exact quietEntries_keys ..
    · rw [expand_light_period hk h]
      exact lightEntries_keys ..
  | wholeDay =>
    rw [h] at hfit
    rcases hfit with hk | hk
    · rw [expand_quiet_wholeDay hk h]
      exact quietEntries_keys ..
    · rw [expand_light_wholeDay hk h]
      exact lightEntries_keys ..

/-! ### What a build generates (R52, R59, R65) -/

/-- The entries of a build, before they are put in order. -/
def expandAll (s : State) (D F : Nat) : List Entry :=
  (applyingRecords s.table.slots s.calendar.sundayRank D).flatMap fun p => expand (dayPlan s.time s.calendar.twilight D) F p.1 p.2

theorem generate_eq (s : State) (D F : Nat) :
    generate s.time s.calendar s.table.slots D F = sortBy sheetBefore (expandAll s D F) := rfl

theorem fits_of_applying {slots : Vector Slot 128} {rank : Nat} {q : SlotNo × Record} (h : q ∈ applyingRecords slots rank D) :
    TimingFits q.2.kind q.2.timing :=
  liveRecord_fits (mem_applyingRecords.1 h).1

theorem expandAll_keys (s : State) (D F : Nat) : ((expandAll s D F).map Entry.key).Nodup := by
  have hasc := applyingRecords_ascending s.table.slots s.calendar.sundayRank D
  refine nodup_flatMap_keys (mark := Key.slot) (tag := Prod.fst) (List.pairwise_map.2 (hasc.imp ne_of_lt))
    (fun q hq => expand_keys _ F q.1 (fits_of_applying hq)) fun q hq e he => ?_
  obtain ⟨⟨-, hslot, -⟩, -⟩ := (mem_expand (fits_of_applying hq)).1 he
  exact hslot

/-- A record that gives an entry is no FEAST. -/
theorem not_feast_of_gives (hfit : TimingFits r.kind r.timing) (h : Gives t tw D F r e) : r.kind ≠ .feast := by
  unfold Gives at h
  cases htiming : r.timing with
  | none => rw [htiming] at h; exact h.elim
  | period a z => rw [htiming] at hfit; rcases hfit with hk | hk <;> simp [hk]
  | wholeDay => rw [htiming] at hfit; rcases hfit with hk | hk <;> simp [hk]
  | _ => rw [htiming] at hfit; exact hfit

theorem mem_expandAll :
    e ∈ expandAll s D F ↔ e.carried = false ∧ ∃ r, liveRecord (getSlot s e.key.slot) = some r ∧ r.kind ≠ .feast ∧
      NamesDay r.rule D ∧ r.lowest ≤ governingRank s.table.slots s.calendar.sundayRank D ∧
      governingRank s.table.slots s.calendar.sundayRank D ≤ r.highest ∧ e.kind = r.kind ∧ e.rank = r.rank ∧
      Gives s.time s.calendar.twilight D F r e := by
  rw [expandAll, List.mem_flatMap]
  constructor
  · rintro ⟨⟨i, r⟩, hr, he⟩
    obtain ⟨⟨hcarried, hslot, hkind, hrank⟩, hgives⟩ := (mem_expand (fits_of_applying hr)).1 he
    obtain ⟨hlive, hday, hwindow⟩ := mem_applyingRecords.1 hr
    have hfeast := not_feast_of_gives (liveRecord_fits hlive) hgives
    obtain ⟨hlow, hhigh⟩ := hwindow.resolve_left hfeast
    exact ⟨hcarried, r, hslot ▸ hlive, hfeast, hday, hlow, hhigh, hkind, hrank, hgives⟩
  · rintro ⟨hcarried, r, hlive, -, hday, hlow, hhigh, hkind, hrank, hgives⟩
    exact ⟨(e.key.slot, r), mem_applyingRecords.2 ⟨hlive, hday, Or.inr ⟨hlow, hhigh⟩⟩,
      (mem_expand (liveRecord_fits hlive)).2 ⟨⟨hcarried, rfl, hkind, hrank⟩, hgives⟩⟩

/-- What a build generates is what the rules say, in sheet order and with no key twice. -/
theorem generatedFor_generate (s : State) (D F : Nat) : GeneratedFor s D F (generate s.time s.calendar s.table.slots D F) := by
  have hkeys := expandAll_keys s D F
  rw [generate_eq]
  refine ⟨pairwise_sortBy decidesKeys_sheetBefore hkeys, ?_, fun e => ?_⟩
  · exact ((Time.sortBy_perm _ _).map Entry.key).nodup_iff.2 hkeys
  · rw [mem_sortBy, mem_expandAll]

/-! ### Runs that start (R67) -/

theorem exec_resolverRunStart {kind : RunKind} (hr : running s = true) (h : nextRun s.resolver = some kind) :
    exec .resolverRunStart s = .next (startRun kind s) := by
  change execResolverRunStart s = _
  rw [execResolverRunStart, event_running hr, h]

/-- Settles O31: the first pending kind is what `nextRun` finds, and a build's entries are `generatedFor_generate`. -/
theorem runsStartInOrder : Obligations.RunsStartInOrder := by
  refine fun s hr hfree => ⟨fun htoday => ?_, fun htoday hstandby => ?_, fun D htoday hstandby hquery => ?_⟩
  · have hnext : nextRun s.resolver = some .today := by simp [nextRun, hfree, htoday]
    exact ⟨_, exec_resolverRunStart hr hnext, rfl, rfl, rfl, rfl, generatedFor_generate s s.time.localDate _⟩
  · have hnext : nextRun s.resolver = some .standby := by simp [nextRun, hfree, htoday, hstandby]
    exact ⟨_, exec_resolverRunStart hr hnext, rfl, rfl, rfl, rfl, generatedFor_generate s (s.time.localDate + 1) 0⟩
  · have hnext : nextRun s.resolver = some .query := by simp [nextRun, hfree, htoday, hstandby, hquery]
    refine ⟨_, exec_resolverRunStart hr hnext, rfl, ?_, rfl⟩
    simp [hquery]

end Sys2Proof.Resolution
end

section
/-! PROOFS. Work on today's sheet with requests waiting for load: a stroke that is lost may end an entry, but the sheet keeps its entries
but for their states, none becomes PENDING again, and no flag is cleared (R79 to R91, R188). -/

namespace Sys2Proof.Resolution

open Sys2Proof Sys2Proof.Machine Sys2Proof.Time

variable {r s t : State}

/-- From r on, the entries of today's sheet have kept all but their states, none has become PENDING, and no flag was cleared. -/
structure Worked (r t : State) : Prop where
  entries : ∃ g : Entry → EntryState, entriesOf t = restate g (entriesOf r) ∧ ∀ e, g e = .pending → e.state = .pending
  flags : ∀ f, flagSet r.attn f = true → flagSet t.attn f = true

theorem Worked.refl (s : State) : Worked s s := ⟨⟨Entry.state, (restate_state _).symm, fun _ h => h⟩, fun _ h => h⟩

theorem Worked.trans (h : Worked r s) (h' : Worked s t) : Worked r t where
  flags f hf := h'.flags f (h.flags f hf)
  entries := by
    obtain ⟨g, hg, hpending⟩ := h.entries
    obtain ⟨g', hg', hpending'⟩ := h'.entries
    refine ⟨fun e => g' { e with state := g e }, ?_, fun e he => hpending e (hpending' _ he)⟩
    rw [hg', hg]
    simp [restate, Function.comp_def]

/-- What `Worked` reads of a state. -/
def deskView (s : State) : List Entry × Attn := (entriesOf s, s.attn)

theorem worked_desk (h : Worked r s) (hv : deskView t = deskView s) : Worked r t := by
  simp only [deskView, Prod.mk.injEq] at hv
  obtain ⟨hentries, hattn⟩ := hv
  exact h.trans ⟨⟨Entry.state, hentries.trans (restate_state _).symm, fun _ h => h⟩, fun f hf => hattn ▸ hf⟩

theorem worked_updBell (h : Worked r s) (st : Station) (f : Bell → Bell) : Worked r (updBell st f s) := worked_desk h rfl
theorem worked_updLine (h : Worked r s) (f : Line → Line) : Worked r (updLine f s) := worked_desk h rfl
theorem worked_setLights (h : Worked r s) (l : Lights) : Worked r (setLights l s) := worked_desk h rfl
theorem worked_setPlayer (h : Worked r s) (p : Option Player) : Worked r (setPlayer p s) := worked_desk h rfl
theorem worked_setTollRun (h : Worked r s) (x : Option TollRun) : Worked r (setTollRun x s) := worked_desk h rfl

theorem worked_setLane (h : Worked r s) (lane : Lane) (k : Option Key) : Worked r (setLane lane k s) := by
  cases lane <;> exact worked_desk h rfl

theorem worked_foldl {α : Type} (f : State → α → State) (hf : ∀ s x, Worked r s → Worked r (f s x)) (xs : List α)
    (h : Worked r s) : Worked r (xs.foldl f s) := foldl_keeps (Worked r) f hf xs s h

/-! ### Entries, outcomes, answers -/

theorem worked_setState (h : Worked r s) (k : Key) {st : EntryState} (hst : st ≠ .pending) : Worked r (updToday (setState k st) s) := by
  refine h.trans ⟨⟨_, setState_eq_restate k st _, fun e he => ?_⟩, fun _ hf => hf⟩
  split at he
  · exact absurd he hst
  · exact he

theorem worked_setFlag (h : Worked r s) (g : AttnFlag) : Worked r (setFlag g s) :=
  h.trans ⟨(Worked.refl s).entries, fun _ => flagSet_setFlag _ _⟩

theorem worked_setFlagIf (h : Worked r s) (c : Bool) (g : AttnFlag) : Worked r (setFlagIf c g s) := by
  cases c with
  | false => exact h
  | true => exact worked_setFlag h g

theorem worked_finalise (h : Worked r s) (k : Key) {st : EntryState} (hst : st ≠ .pending) : Worked r (finalise k st s) :=
  h.trans ⟨finalise_entries k st s ▸ (worked_setState (Worked.refl s) k hst).entries, (calm_finalise k st).flags⟩

theorem worked_endLane (h : Worked r s) (lane : Lane) {st : EntryState} (hst : st ≠ .pending) : Worked r (endLane lane st s) := by
  unfold endLane
  split
  · exact h
  · exact worked_finalise (worked_setLane h _ _) _ hst

theorem ended_ne_pending (lost : Bool) : (if lost then EntryState.cutShort else .done) ≠ .pending := by
  cases lost <;> exact EntryState.noConfusion

theorem worked_answerToll (h : Worked r s) (sent : Bool) (x : TollRun) : Worked r (answerToll sent x s) := by
  unfold answerToll
  dsimp only
  split
  · exact worked_setTollRun h _
  · exact worked_endLane (worked_setTollRun h _) _ (ended_ne_pending _)

theorem worked_answerHour (h : Worked r s) (sent : Bool) (p : Player) : Worked r (answerHour sent p s) := by
  unfold answerHour
  dsimp only
  split
  · exact worked_setPlayer h _
  · exact worked_endLane (worked_setPlayer h _) _ (ended_ne_pending _)

theorem worked_answerStroke (h : Worked r s) (who : Requester) (sent : Bool) : Worked r (answerStroke who sent s) := by
  unfold answerStroke
  split
  · split
    · split
      · exact worked_answerToll h _ _
      · exact h
    · exact h
  · split
    · split
      · exact worked_answerHour h _ _
      · exact h
    · exact h
  · exact h

/-! ### Bells and orders -/

theorem worked_strikesLost (h : Worked r s) (os : List Order) : Worked r (strikesLost os s) := by
  refine worked_foldl _ (fun s o h => ?_) os h
  unfold strikeLost
  split
  · exact worked_answerStroke h _ _
  · exact h

theorem worked_withdrawStrikes (h : Worked r s) (st : Station) : Worked r (withdrawStrikes st s) :=
  worked_strikesLost (worked_updLine h _) _

theorem worked_loseDeferred (h : Worked r s) (st : Station) : Worked r (loseDeferred st s) :=
  worked_foldl _ (fun _ _ h => worked_answerStroke h _ _) _ (worked_updBell h _ _)

theorem worked_checkStrikable (h : Worked r s) (st : Station) : Worked r (checkStrikable st s) := by
  unfold checkStrikable
  split
  · exact h
  · exact worked_withdrawStrikes (worked_loseDeferred h st) st

theorem desk_makeOrder (st : Station) (k : SwingOrder) (s : State) : deskView (makeOrder st k s) = deskView s := by
  unfold makeOrder
  repeat' split
  all_goals rfl

theorem desk_firstQuery (st : Station) (s : State) : deskView (firstQuery st s) = deskView s := by
  unfold firstQuery
  split
  · exact desk_makeOrder _ _ _
  · unfold pollNow
    split
    · exact desk_makeOrder _ _ _
    · rfl

theorem desk_startPolling (st : Station) (s : State) : deskView (startPolling st s) = deskView s := by
  unfold startPolling
  split
  · rfl
  · split
    · exact desk_firstQuery _ _
    · dsimp only
      split
      · exact desk_makeOrder _ _ _
      · rfl

theorem worked_startPolling (h : Worked r s) (st : Station) : Worked r (startPolling st s) := worked_desk h (desk_startPolling st s)

theorem worked_enterPosition (h : Worked r s) (st : Station) (pos : Position) : Worked r (enterPosition st pos s) :=
  worked_startPolling (worked_checkStrikable (worked_updBell h _ _) _) _

theorem worked_raiseNow (h : Worked r s) (st : Station) : Worked r (raiseNow st s) :=
  worked_enterPosition (worked_desk h (desk_makeOrder _ _ _)) _ _

/-! ### The supply account and the lit-record set -/

theorem worked_tellAdmitted (h : Worked r s) (st : Station) : Worked r (tellAdmitted st s) := by
  unfold tellAdmitted
  split
  · exact worked_raiseNow (worked_updBell h _ _) _
  · unfold setReserving
    dsimp only
    split
    · exact worked_startPolling (worked_updBell h _ _) _
    · exact worked_updBell h _ _

theorem worked_retryOne (h : Worked r s) (st : Station) (m : Nat) : Worked r (retryOne st m s) := by
  unfold retryOne
  split
  · exact h
  · exact worked_tellAdmitted (worked_setFlagIf (worked_setLights h _) _ _) _

theorem worked_retryWaiting (h : Worked r s) : Worked r (retryWaiting s) := by
  unfold retryWaiting
  split
  · exact worked_foldl _ (fun _ (p : Station × Nat) h => worked_retryOne h p.1 p.2) _ h
  · exact h

theorem worked_restoration (h : Worked r s) : Worked r (restoration s) := by
  unfold restoration
  split
  · exact worked_setLights h _
  · exact h

theorem worked_findWanted (h : Worked r s) : Worked r (findWanted s) := by
  unfold findWanted
  dsimp only
  split
  · exact h
  · split
    · exact worked_restoration (worked_retryWaiting (worked_setLights h _))
    · exact worked_restoration (worked_setLights h _)

theorem worked_setLit (h : Worked r s) (lit : Vector Bool 128) : Worked r (setLit lit s) := by
  unfold setLit
  split
  · exact h
  · have hlit : Worked r { s with lanes := { s.lanes with lit := lit } } := worked_desk h rfl
    exact worked_findWanted hlit

theorem worked_lightEffect (h : Worked r s) (k : Key) : Worked r (lightEffect k s) := by
  unfold lightEffect
  split
  · split
    · exact worked_setLit h _
    · exact h
  · split
    · exact worked_setLit h _
    · exact h

theorem worked_recomputeLit (h : Worked r s) : Worked r (recomputeLit s) := worked_setLit h _

/-! ### Falling due -/

theorem worked_soundingDue (h : Worked r s) (e : Entry) : Worked r (soundingDue e s) := by
  rw [soundingDue_eq]
  split
  · exact h
  · refine worked_finalise h _ fun hst => ?_
    rcases soundingState_cases s e with hcase | hcase | hcase <;> rw [hst] at hcase <;> cases hcase

/-- An entry that falls due is DUE first, and is then worked on. -/
theorem worked_becomeDue_marked (e : Entry) (s : State) : Worked (markedDue e s) (becomeDue e s) := by
  have hrefl := Worked.refl (markedDue e s)
  rcases kind_cases e.kind with hk | hk | hk | hk
  · rw [becomeDue_light hk]
    exact worked_lightEffect (worked_finalise hrefl _ EntryState.noConfusion) _
  · rw [becomeDue_quiet hk]
    split
    · exact worked_finalise hrefl _ EntryState.noConfusion
    · exact worked_setState hrefl _ EntryState.noConfusion
  · rw [becomeDue_sounding hk]
    exact worked_soundingDue hrefl e
  · rw [becomeDue_feast hk]
    exact hrefl

theorem worked_becomeDue (e : Entry) (s : State) : Worked s (becomeDue e s) :=
  (worked_setState (Worked.refl s) e.key EntryState.noConfusion).trans (worked_becomeDue_marked e s)

theorem worked_becomeDueAll (ks : List Key) (s : State) : Worked s (becomeDueAll ks s) := by
  induction ks generalizing s with
  | nil => exact Worked.refl s
  | cons k ks ih =>
    rw [becomeDueAll]
    split
    · exact ih s
    · split
      · exact (worked_becomeDue _ s).trans (ih _)
      · exact ih s

/-- The sheet and the lit-record set after all that is due has fallen due, as an install ends. -/
theorem worked_recomputed (s : State) : Worked s (recomputeLit (fallDueNow s)) := worked_recomputeLit (worked_becomeDueAll _ s)

/-! ### What has fallen due is not PENDING -/

/-- No entry of a key is PENDING. -/
def Settled (k : Key) (s : State) : Prop := ∀ x ∈ entriesOf s, x.key = k → x.state ≠ .pending

theorem Worked.settled (h : Worked s t) {k : Key} (hk : Settled k s) : Settled k t := by
  obtain ⟨g, hg, hpending⟩ := h.entries
  intro x hx hkey hst
  rw [hg] at hx
  obtain ⟨e, he, rfl⟩ := List.mem_map.1 hx
  exact hk e he hkey (hpending e hst)

theorem settled_markedDue (e : Entry) (s : State) : Settled e.key (markedDue e s) := by
  intro x hx hkey
  obtain ⟨y, -, rfl⟩ := List.mem_map.1 hx
  by_cases hy : y.key = e.key
  · rw [if_pos hy]
    exact EntryState.noConfusion
  · rw [if_neg hy] at hkey
    exact absurd hkey hy

/-- An entry that is alone with its key, and whose instant is reached, is not PENDING once its key has had its turn. -/
theorem settled_becomeDueAll {ks : List Key} {e : Entry} (hk : e.key ∈ ks) (hsole : ∀ x ∈ entriesOf s, x.key = e.key → x = e)
    (hreached : e.instant ≤ s.time.instant) : Settled e.key (becomeDueAll ks s) := by
  obtain ⟨l1, l2, rfl⟩ := List.append_of_mem hk
  rw [becomeDueAll_append]
  have hworked := worked_becomeDueAll l1 s
  have htime : (becomeDueAll l1 s).time = s.time := congrArg TowerView.time (tower_becomeDueAll s l1)
  generalize becomeDueAll l1 s = u at *
  obtain ⟨g, hg, -⟩ := hworked.entries
  have hsole' : ∀ x ∈ entriesOf u, x.key = e.key → x = { e with state := g e } := by
    intro x hx hkey
    rw [hg] at hx
    obtain ⟨y, hy, rfl⟩ := List.mem_map.1 hx
    rw [hsole y hy hkey]
  rw [becomeDueAll]
  split
  · next hnone =>
    refine (worked_becomeDueAll l2 u).settled fun x hx hkey => ?_
    exact absurd (beq_iff_eq.2 hkey) (List.find?_eq_none.1 hnone x hx)
  · next y hfind =>
    obtain ⟨hy, hykey⟩ := findEntry_mem hfind
    split
    · refine (worked_becomeDueAll l2 _).settled ?_
      rw [← hykey]
      exact (worked_becomeDue_marked y u).settled (settled_markedDue y u)
    · next hdue =>
      refine (worked_becomeDueAll l2 u).settled fun x hx hkey hst => hdue ?_
      rw [hsole' y hy hykey, ← hsole' x hx hkey, fallsDue, hst, htime, hsole' x hx hkey]
      simpa using hreached

/-- An entry alone with its key whose instant is reached is not PENDING after an install. -/
theorem settled_recomputed {e : Entry} (he : e ∈ entriesOf s) (hsole : ∀ x ∈ entriesOf s, x.key = e.key → x = e)
    (hreached : e.instant ≤ s.time.instant) : Settled e.key (recomputeLit (fallDueNow s)) := by
  refine (worked_recomputeLit (Worked.refl (fallDueNow s))).settled ?_
  by_cases hst : e.state = .pending
  · refine settled_becomeDueAll ?_ hsole hreached
    exact List.mem_map.2 ⟨e, List.mem_filter.2 ⟨he, by simpa [fallsDue, hst] using hreached⟩, rfl⟩
  · exact (worked_becomeDueAll _ s).settled fun x hx hkey => hsole x hx hkey ▸ hst

/-- Where no request waits for load, an entry stays as it is none of whose key falls due. -/
theorem stands_recomputed (hw : s.lights.waiting = []) {e : Entry} (he : e ∈ entriesOf s)
    (hk : ∀ x ∈ entriesOf s, x.key = e.key → fallsDue s x = false) : e ∈ entriesOf (recomputeLit (fallDueNow s)) := by
  have hwait : (fallDueNow s).lights.waiting = [] := (calm_fallDueNow hw).waiting.trans hw
  obtain ⟨hlasts, -⟩ := recomputed_lights hwait
  rw [hlasts.entries]
  refine (touched_becomeDueAll (keysWhere (fallsDue s) s) hw).other he fun hmem => ?_
  obtain ⟨x, hx, hkey, hdue⟩ := of_mem_keysWhere hmem
  rw [hk x hx hkey] at hdue
  cases hdue

end Sys2Proof.Resolution
end

section
/-! PROOFS. What does not fit a sheet: the generated entries split in drop order, and the tallies of those dropped (R66). -/

namespace Sys2Proof.Resolution

open Sys2Proof Sys2Proof.Machine

variable {room : Nat} {es : List Entry} {p : Entry → Bool}

theorem dropTo_append (room : Nat) (es : List Entry) : (dropTo room es).1 ++ (dropTo room es).2 = sortBy dropBefore es :=
  List.take_append_drop _ _

theorem dropTo_perm (room : Nat) (es : List Entry) : ((dropTo room es).1 ++ (dropTo room es).2).Perm es := by
  rw [dropTo_append]
  exact Time.sortBy_perm _ _

theorem mem_dropTo_iff {e : Entry} : e ∈ es ↔ e ∈ (dropTo room es).1 ∨ e ∈ (dropTo room es).2 := by
  rw [← (dropTo_perm room es).mem_iff, List.mem_append]

theorem length_dropped (room : Nat) (es : List Entry) : (dropTo room es).1.length = es.length - room := by
  simp [dropTo]

theorem length_stayed (room : Nat) (es : List Entry) : (dropTo room es).2.length = min room es.length := by
  simp only [dropTo, List.length_drop, length_sortBy]
  omega

/-- No key is both among those dropped and among those that stay. -/
theorem dropTo_apart (hn : (es.map Entry.key).Nodup) {d g : Entry} (hd : d ∈ (dropTo room es).1) (hg : g ∈ (dropTo room es).2) :
    d.key ≠ g.key := by
  have hn' := ((dropTo_perm room es).map Entry.key).nodup_iff.2 hn
  rw [List.map_append, List.nodup_append] at hn'
  exact hn'.2.2 _ (List.mem_map_of_mem hd) _ (List.mem_map_of_mem hg)

/-- Those dropped come before those that stay in drop order (R66). -/
theorem dropTo_order (hn : (es.map Entry.key).Nodup) {d g : Entry} (hd : d ∈ (dropTo room es).1) (hg : g ∈ (dropTo room es).2) :
    dropBefore d g = true := by
  have hsorted := pairwise_sortBy decidesKeys_dropBefore hn
  rw [← dropTo_append room, List.pairwise_append] at hsorted
  exact hsorted.2.2 d hd g hg

/-- A test that tells those dropped from those that stay selects just the dropped ones. -/
theorem filter_perm_dropped (hd : ∀ d ∈ (dropTo room es).1, p d = true) (hg : ∀ g ∈ (dropTo room es).2, p g = false) :
    (es.filter p).Perm (dropTo room es).1 := by
  have hperm := ((dropTo_perm room es).filter p).symm
  have hstay : (dropTo room es).2.filter p = [] := List.filter_eq_nil_iff.2 fun g hg' => by simp [hg g hg']
  rwa [List.filter_append, List.filter_eq_self.2 hd, hstay, List.append_nil] at hperm

theorem tallyOf_get (dropped : List Entry) (i : SlotNo) :
    (tallyOf dropped).get i = min 255 (dropped.countP fun d => d.key.slot == i) := by
  rw [tallyOf, get_ofFn, List.countP_eq_length_filter]

/-- What an install says of the entries it drops: how many, which, their tallies, and SHEET_FULL (R66). -/
structure Drops (room : Nat) (es dropped : List Entry) (tallies : Vector Nat 128) (full : Bool) : Prop where
  count : dropped.length = es.length - room
  mem : ∀ d, d ∈ dropped ↔ d ∈ (dropTo room es).1
  tally : ∀ i, tallies.get i = min 255 (dropped.countP fun d => d.key.slot == i)
  flag : dropped ≠ [] → full = true

theorem drops_of_filter (hd : ∀ d ∈ (dropTo room es).1, p d = true) (hg : ∀ g ∈ (dropTo room es).2, p g = false) :
    Drops room es (es.filter p) (tallyOf (dropTo room es).1) (!(dropTo room es).1.isEmpty) := by
  have hperm := filter_perm_dropped hd hg
  refine ⟨hperm.length_eq.trans (length_dropped room es), fun d => hperm.mem_iff, fun i => ?_, fun hne => ?_⟩
  · rw [tallyOf_get, hperm.countP_eq]
  · have : (dropTo room es).1 ≠ [] := fun h => hne (h ▸ hperm).eq_nil
    simpa using this

end Sys2Proof.Resolution
end

section
/-! PROOFS. The installs of both sheets, and the request for the standby build (R66, R69, R70). -/

namespace Sys2Proof.Resolution

open Sys2Proof Sys2Proof.Machine Sys2Proof.Time

variable {s t : State} {r : Run} {kept es : List Entry} {e g : Entry}

/-- A sheet holds 256 entries (R66). -/
theorem sheetCapacity_eq : Config.sheetCapacity = 256 := rfl

/-! ### The sheet of a today install before its entries fall due (R66, R69) -/

/-- The entries of today's sheet that an install keeps. -/
def keptEntries (s : State) : List Entry := (entriesOf s).filter fun e => e.state != .pending

/-- How an install splits the generated entries that it may gain: those dropped, and those that join. -/
def todaySplit (generated : List Entry) (s : State) : List Entry × List Entry :=
  dropTo (Config.sheetCapacity - (keptEntries s).length) (installable s (keptEntries s) generated)

/-- The sheet with the entries that join, their outcomes, the tallies and the flags, before anything falls due. -/
def todayJoined (generated : List Entry) (s : State) : State :=
  setFlagIf (!(todaySplit generated s).1.isEmpty) .sheetFull
    (setFlag .sheetInstalled
      (replaceTallies (tallyOf (todaySplit generated s).1)
        (writeSkipped (todaySplit generated s).2
          (updToday (fun _ => mergeSheet (keptEntries s) (todaySplit generated s).2) s))))

theorem installToday_eq (generated : List Entry) (s : State) :
    installToday generated s = recomputeLit (fallDueNow (todayJoined generated s)) := rfl

/-- What the outcomes and the tallies of an install leave alone: the sheets, the flags and the zones. -/
theorem writeTally_same (old new : Vector Nat 128) (i : SlotNo) (s : State) :
    ((writeTally old new i s).sheets, (writeTally old new i s).lights) = (s.sheets, s.lights) := by
  unfold writeTally
  repeat' split
  all_goals rfl

theorem replaceTallies_same (new : Vector Nat 128) (s : State) :
    (replaceTallies new s).sheets = { s.sheets with today := { s.sheets.today with tallies := new } } ∧
      (replaceTallies new s).lights = s.lights := by
  have h := foldl_view (fun u : State => (u.sheets, u.lights)) (fun u i => writeTally s.sheets.today.tallies new i u)
    (fun u i => writeTally_same _ _ i u) allSlots
    { s with sheets := { s.sheets with today := { s.sheets.today with tallies := new } } }
  exact ⟨congrArg Prod.fst h, congrArg Prod.snd h⟩

theorem tower_replaceTallies (new : Vector Nat 128) (s : State) :
    towerView (replaceTallies new s) = { towerView s with tallies := new } :=
  foldl_view towerView _ (fun u i => settings_writeTally u _ _ i) _ _

theorem writeSkipped_same (joined : List Entry) (s : State) :
    (writeSkipped joined s).sheets = s.sheets ∧ (writeSkipped joined s).lights = s.lights := by
  have hstep : ∀ (u : State) (e : Entry), ((writeOutcome e.key.slot .skipped (entryDay u e) u).sheets,
      (writeOutcome e.key.slot .skipped (entryDay u e) u).lights) = (u.sheets, u.lights) := by
    intro u e
    unfold writeOutcome
    split <;> rfl
  have h := foldl_view (fun u : State => (u.sheets, u.lights)) _ hstep (joined.filter fun e => e.state == .skipped) s
  exact ⟨congrArg Prod.fst h, congrArg Prod.snd h⟩

theorem todayJoined_today (generated : List Entry) (s : State) :
    (todayJoined generated s).sheets.today
      = ⟨mergeSheet (keptEntries s) (todaySplit generated s).2, tallyOf (todaySplit generated s).1⟩ := by
  rw [todayJoined, setFlagIf_sheets, setFlag_sheets, (replaceTallies_same _ _).1, (writeSkipped_same _ _).1]
  rfl

theorem todayJoined_lights (generated : List Entry) (s : State) : (todayJoined generated s).lights = s.lights := by
  rw [todayJoined, setFlagIf_lights, setFlag_lights, (replaceTallies_same _ _).2, (writeSkipped_same _ _).2]
  rfl

theorem tower_todayJoined (generated : List Entry) (s : State) :
    towerView (todayJoined generated s) = { towerView s with tallies := tallyOf (todaySplit generated s).1 } := by
  rw [todayJoined, tower_setFlagIf, tower_setFlag, tower_replaceTallies, tower_writeSkipped, tower_updToday]

theorem todayJoined_flags (generated : List Entry) (s : State) :
    flagSet (todayJoined generated s).attn .sheetInstalled = true ∧
      ((todaySplit generated s).1.isEmpty = false → flagSet (todayJoined generated s).attn .sheetFull = true) := by
  refine ⟨(calm_setFlagIf _ _).flags _ (flagSet_setFlag_self _), fun h => ?_⟩
  rw [todayJoined, h]
  exact flagSet_setFlag_self _

/-! ### What an install may gain (R2, R69) -/

theorem findEntry_isNone (k : Key) (es : List Entry) : (findEntry k es).isNone = es.all fun e => e.key != k := by
  rw [findEntry, Bool.eq_iff_iff, Option.isNone_iff_eq_none, List.find?_eq_none, List.all_eq_true]
  simp

theorem installable_eq (s : State) (kept generated : List Entry) :
    installable s kept generated
      = generated.filter fun g => (getSlot s g.key.slot).state == .live && kept.all fun e => e.key != g.key := by
  simp only [installable, findEntry_isNone]

theorem installable_new (hg : g ∈ installable s kept es) : ∀ e ∈ kept, e.key ≠ g.key := by
  rw [installable_eq, List.mem_filter, Bool.and_eq_true, List.all_eq_true] at hg
  exact fun e he => by simpa using hg.2.2 e he

theorem installable_keys (s : State) (kept : List Entry) (hn : (es.map Entry.key).Nodup) :
    ((installable s kept es).map Entry.key).Nodup := (List.filter_sublist.map _).nodup hn

theorem keptEntries_state (he : e ∈ keptEntries s) : e.state ≠ .pending := by
  simpa using (List.mem_filter.1 he).2

/-! ### Entries after a today install (R66, R69) -/

section Today

variable {generated : List Entry}

theorem mem_todayJoined :
    e ∈ entriesOf (todayJoined generated s) ↔ e ∈ keptEntries s ∨ e ∈ (todaySplit generated s).2 := by
  rw [entriesOf, todayJoined_today, mergeSheet, mem_sortBy, List.mem_append]

theorem mem_joined (he : e ∈ (todaySplit generated s).2) : e ∈ installable s (keptEntries s) generated :=
  mem_dropTo_iff.2 (Or.inr he)

/-- An entry that joins is alone with its key. -/
theorem joined_sole (hn : (generated.map Entry.key).Nodup) (hg : g ∈ (todaySplit generated s).2) :
    ∀ x ∈ entriesOf (todayJoined generated s), x.key = g.key → x = g := by
  intro x hx hkey
  rcases mem_todayJoined.1 hx with hx | hx
  · exact absurd hkey (installable_new (mem_joined hg) x hx)
  · exact eq_of_key (installable_keys s _ hn) (mem_joined hx) (mem_joined hg) hkey

/-- Nothing of a kept entry's key falls due. -/
theorem kept_not_due (he : e ∈ keptEntries s) :
    ∀ x ∈ entriesOf (todayJoined generated s), x.key = e.key → fallsDue (todayJoined generated s) x = false := by
  intro x hx hkey
  rcases mem_todayJoined.1 hx with hx | hx
  · simp [fallsDue, keptEntries_state hx]
  · exact absurd hkey.symm (installable_new (mem_joined hx) e he)

theorem joined_time (generated : List Entry) (s : State) : (todayJoined generated s).time = s.time :=
  congrArg TowerView.time (tower_todayJoined generated s)

/-- The installed sheet holds the entries of the joined one, in states. -/
theorem installed_restate (ht : installToday generated s = t) :
    ∃ f : Entry → EntryState, entriesOf t = restate f (entriesOf (todayJoined generated s)) := by
  obtain ⟨f, hf, -⟩ := (worked_recomputed (todayJoined generated s)).entries
  rw [← installToday_eq, ht] at hf
  exact ⟨f, hf⟩

theorem installed_tower (ht : installToday generated s = t) :
    towerView t = { towerView s with tallies := tallyOf (todaySplit generated s).1 } := by
  rw [← ht, installToday_eq, tower_recomputeLit, tower_fallDueNow, tower_todayJoined]

theorem installed_flags (ht : installToday generated s = t) :
    flagSet t.attn .sheetInstalled = true ∧ ((!(todaySplit generated s).1.isEmpty) = true → flagSet t.attn .sheetFull = true) := by
  have hkept := (worked_recomputed (todayJoined generated s)).flags
  obtain ⟨hinstalled, hfull⟩ := todayJoined_flags generated s
  rw [← installToday_eq, ht] at hkept
  exact ⟨hkept _ hinstalled, fun h => hkept _ (hfull (by simpa using h))⟩

/-- An entry of the joined sheet is on the installed one, in a state. -/
theorem installed_of_joined (ht : installToday generated s = t) (he : e ∈ entriesOf (todayJoined generated s)) :
    ∃ x ∈ entriesOf t, { x with state := e.state } = e ∧ x.key = e.key := by
  obtain ⟨f, hf⟩ := installed_restate ht
  rw [hf]
  exact ⟨_, List.mem_map_of_mem he, rfl, rfl⟩

/-- Where no request waits for load, an entry of the joined sheet stays as it is on the installed one where none of its key falls due. -/
theorem installed_stands (ht : installToday generated s = t) (hw : s.lights.waiting = []) (he : e ∈ entriesOf (todayJoined generated s))
    (hk : ∀ x ∈ entriesOf (todayJoined generated s), x.key = e.key → fallsDue (todayJoined generated s) x = false) :
    e ∈ entriesOf t := by
  rw [← ht, installToday_eq]
  exact stands_recomputed (by rwa [todayJoined_lights]) he hk

/-- An entry that is alone with its key on the joined sheet and whose instant is reached is not PENDING on the installed one. -/
theorem installed_settled (ht : installToday generated s = t) (he : e ∈ entriesOf (todayJoined generated s))
    (hsole : ∀ x ∈ entriesOf (todayJoined generated s), x.key = e.key → x = e) (hreached : e.instant ≤ s.time.instant) :
    Settled e.key t := by
  rw [← ht, installToday_eq]
  exact settled_recomputed he hsole (by rwa [joined_time])

theorem installed_keys (ht : installToday generated s = t) (k : Key) :
    (∃ x ∈ entriesOf t, x.key = k) ↔ (∃ x ∈ keptEntries s, x.key = k) ∨ ∃ x ∈ (todaySplit generated s).2, x.key = k := by
  obtain ⟨f, hf⟩ := installed_restate ht
  have hkeys : k ∈ (entriesOf t).map Entry.key ↔ k ∈ (entriesOf (todayJoined generated s)).map Entry.key := by
    rw [hf, keys_restate]
  simp only [List.mem_map, mem_todayJoined] at hkeys
  rw [hkeys]
  simp only [or_and_right, exists_or]

theorem installed_length (ht : installToday generated s = t) (hroom : (keptEntries s).length ≤ 256) :
    (entriesOf t).length = min 256 ((keptEntries s).length + (installable s (keptEntries s) generated).length) := by
  obtain ⟨f, hf⟩ := installed_restate ht
  rw [hf, restate, List.length_map, entriesOf, todayJoined_today, mergeSheet, length_sortBy, List.length_append, todaySplit,
    length_stayed, sheetCapacity_eq]
  omega

/-- A kept entry stays on the sheet, and in its state where no request waits for load (R69). -/
theorem installed_kept (ht : installToday generated s = t) (he : e ∈ keptEntries s) :
    ∃ x ∈ entriesOf t, { x with state := e.state } = e ∧ (s.lights.waiting = [] → x = e) := by
  have hjoined : e ∈ entriesOf (todayJoined generated s) := mem_todayJoined.2 (Or.inl he)
  by_cases hw : s.lights.waiting = []
  · exact ⟨e, installed_stands ht hw hjoined (kept_not_due he), rfl, fun _ => rfl⟩
  · obtain ⟨x, hx, hsame, -⟩ := installed_of_joined ht hjoined
    exact ⟨x, hx, hsame, fun h => absurd h hw⟩

/-- An entry that joins is on the sheet, fallen due where its instant is reached (R69). -/
theorem installed_gained (ht : installToday generated s = t) (hn : (generated.map Entry.key).Nodup)
    (hg : g ∈ (todaySplit generated s).2) :
    ∃ x ∈ entriesOf t, { x with state := g.state } = g ∧
      (g.state = .pending → g.instant ≤ s.time.instant → x.state ≠ .pending) ∧
      (s.lights.waiting = [] → g.state ≠ .pending ∨ s.time.instant < g.instant → x = g) := by
  have hjoined : g ∈ entriesOf (todayJoined generated s) := mem_todayJoined.2 (Or.inr hg)
  have hsole := joined_sole hn hg
  by_cases hstand : s.lights.waiting = [] ∧ (g.state ≠ .pending ∨ s.time.instant < g.instant)
  · obtain ⟨hw, hearly⟩ := hstand
    refine ⟨g, installed_stands ht hw hjoined fun x hx hkey => ?_, rfl, fun hst hreached => ?_, fun _ _ => rfl⟩
    · rw [hsole x hx hkey, fallsDue, joined_time]
      rcases hearly with hst | hlate
      · simp [hst]
      · simp [Nat.not_le.2 hlate]
    · rcases hearly with hne | hlate
      · exact absurd hst hne
      · exact absurd hreached (Nat.not_le.2 hlate)
  · obtain ⟨x, hx, hsame, hkey⟩ := installed_of_joined ht hjoined
    exact ⟨x, hx, hsame, fun _ hreached => installed_settled ht hjoined hsole hreached x hx hkey,
      fun hw hearly => absurd ⟨hw, hearly⟩ hstand⟩

variable {gained dropped : List Entry}

/-- The dropped entries are those whose key the installed sheet does not hold. -/
theorem drops_of_today (ht : installToday generated s = t) (hn : (generated.map Entry.key).Nodup)
    (hgained : installable s (keptEntries s) generated = gained)
    (hdropped : dropped = gained.filter fun g => (entriesOf t).all fun x => x.key != g.key) :
    Drops (Config.sheetCapacity - (keptEntries s).length) gained dropped
      (tallyOf (todaySplit generated s).1) (!(todaySplit generated s).1.isEmpty) := by
  subst hgained hdropped
  have hnone : ∀ g : Entry, ((entriesOf t).all fun x => x.key != g.key) = true ↔ ¬∃ x ∈ entriesOf t, x.key = g.key := by
    intro g
    simp
  refine drops_of_filter (fun d hd => ?_) fun g hg => ?_
  · rw [hnone, installed_keys ht]
    rintro (⟨x, hx, hkey⟩ | ⟨x, hx, hkey⟩)
    · exact installable_new (mem_dropTo_iff.2 (Or.inl hd)) x hx hkey
    · exact dropTo_apart (installable_keys s _ hn) hd hx hkey.symm
  · rw [← Bool.not_eq_true, hnone, installed_keys ht, not_not]
    exact Or.inr ⟨g, hg, rfl⟩

/-- What a today install drops, and that it gains the rest (R66, R69). -/
theorem today_dropped_and_gained (ht : installToday generated s = t) (hn : (generated.map Entry.key).Nodup)
    (hgained : installable s (keptEntries s) generated = gained)
    (hdropped : dropped = gained.filter fun g => (entriesOf t).all fun x => x.key != g.key) :
    dropped.length = gained.length - (256 - (keptEntries s).length) ∧
    (∀ d ∈ dropped, ∀ g ∈ gained, g ∉ dropped → dropBefore d g = true) ∧
    (∀ i, t.sheets.today.tallies.get i = min 255 (dropped.countP fun d => d.key.slot == i)) ∧
    (dropped ≠ [] → flagSet t.attn .sheetFull = true) ∧
    (∀ g ∈ gained, g ∉ dropped → ∃ x ∈ entriesOf t, { x with state := g.state } = g ∧
      (g.state = .pending → g.instant ≤ s.time.instant → x.state ≠ .pending) ∧
      (s.lights.waiting = [] → g.state ≠ .pending ∨ s.time.instant < g.instant → x = g)) := by
  have hdrops := drops_of_today ht hn hgained hdropped
  have htallies : t.sheets.today.tallies = tallyOf (todaySplit generated s).1 := congrArg TowerView.tallies (installed_tower ht)
  have hsplit : todaySplit generated s = dropTo (Config.sheetCapacity - (keptEntries s).length) gained := by
    rw [todaySplit, hgained]
  have hkeys : (gained.map Entry.key).Nodup := hgained ▸ installable_keys s (keptEntries s) hn
  have hstays : ∀ g ∈ gained, g ∉ dropped → g ∈ (todaySplit generated s).2 := by
    intro g hg hne
    rw [hsplit]
    exact (mem_dropTo_iff.1 hg).resolve_left fun hd => hne ((hdrops.mem g).2 hd)
  refine ⟨hdrops.count, fun d hd g hg hne => ?_, fun i => ?_, fun hne => ?_, fun g hg hne => ?_⟩
  · have hg' := hstays g hg hne
    rw [hsplit] at hg'
    exact dropTo_order hkeys ((hdrops.mem d).1 hd) hg'
  · rw [htallies]
    exact hdrops.tally i
  · exact (installed_flags ht).2 (hdrops.flag hne)
  · exact installed_gained ht hn (hstays g hg hne)

end Today

/-! ### The standby install (R66, R70) -/

/-- How a standby install splits the generated entries of LIVE records. -/
def standbySplit (generated : List Entry) (s : State) : List Entry × List Entry := dropTo Config.sheetCapacity (installable s [] generated)

/-- The state with the new standby sheet, before the flags are set. -/
def standbyReplaced (generated : List Entry) (triggered : Bool) (s : State) : State :=
  { s with
    sheets :=
      { s.sheets with
        standby := ⟨mergeSheet [] (standbySplit generated s).2, tallyOf (standbySplit generated s).1⟩
        status := if triggered then .stale else .fresh } }

theorem installStandby_eq (generated : List Entry) (triggered : Bool) (s : State) :
    installStandby generated triggered s
      = setFlagIf (!(standbySplit generated s).1.isEmpty) .sheetFull (setFlag .sheetInstalled (standbyReplaced generated triggered s)) :=
  rfl

theorem installStandby_sheets (generated : List Entry) (triggered : Bool) (s : State) :
    (installStandby generated triggered s).sheets = (standbyReplaced generated triggered s).sheets := by
  rw [installStandby_eq, setFlagIf_sheets, setFlag_sheets]

theorem installStandby_flags (generated : List Entry) (triggered : Bool) (s : State) :
    flagSet (installStandby generated triggered s).attn .sheetInstalled = true ∧
      ((!(standbySplit generated s).1.isEmpty) = true → flagSet (installStandby generated triggered s).attn .sheetFull = true) := by
  rw [installStandby_eq]
  refine ⟨(calm_setFlagIf _ _).flags _ (flagSet_setFlag_self _), fun h => ?_⟩
  rw [h]
  exact flagSet_setFlag_self _

theorem setFlagIf_attn_only (c : Bool) (f : AttnFlag) (s : State) : ∃ a, setFlagIf c f s = { s with attn := a } := by
  cases c <;> exact ⟨_, rfl⟩

theorem standbyReplaced_sheets_only (generated : List Entry) (triggered : Bool) (s : State) :
    ∃ x, standbyReplaced generated triggered s = { s with sheets := x } := ⟨_, rfl⟩

/-- A standby install works on the sheets and the flags alone. -/
theorem installStandby_only (generated : List Entry) (triggered : Bool) (s : State) :
    ∃ x a, installStandby generated triggered s = { s with sheets := x, attn := a } := by
  obtain ⟨a, ha⟩ := setFlagIf_attn_only (!(standbySplit generated s).1.isEmpty) .sheetFull
    (setFlag .sheetInstalled (standbyReplaced generated triggered s))
  obtain ⟨x, hx⟩ := standbyReplaced_sheets_only generated triggered s
  exact ⟨x, a, by rw [installStandby_eq, ha, hx]; rfl⟩

theorem mem_standby {generated : List Entry} {triggered : Bool} :
    e ∈ (installStandby generated triggered s).sheets.standby.entries ↔ e ∈ (standbySplit generated s).2 := by
  rw [installStandby_sheets, standbyReplaced, mergeSheet, List.nil_append, mem_sortBy]

section Standby

variable {generated gained dropped : List Entry} {triggered : Bool}

/-- The dropped entries are those that the standby sheet does not hold. -/
theorem drops_of_standby (ht : installStandby generated triggered s = t) (hn : (generated.map Entry.key).Nodup)
    (hgained : installable s [] generated = gained)
    (hdropped : dropped = gained.filter fun g => decide (g ∉ t.sheets.standby.entries)) :
    Drops Config.sheetCapacity gained dropped (tallyOf (standbySplit generated s).1) (!(standbySplit generated s).1.isEmpty) := by
  subst hgained hdropped
  have hmem : ∀ g, g ∈ t.sheets.standby.entries ↔ g ∈ (standbySplit generated s).2 := fun g => ht ▸ mem_standby
  refine drops_of_filter (fun d hd => ?_) fun g hg => ?_
  · rw [decide_eq_true_eq, hmem]
    exact fun hd' => dropTo_apart (installable_keys s [] hn) hd hd' rfl
  · rw [decide_eq_false_iff_not, hmem, not_not]
    exact hg

/-- What a standby install drops (R66, R70). -/
theorem standby_dropped (ht : installStandby generated triggered s = t) (hn : (generated.map Entry.key).Nodup)
    (hgained : installable s [] generated = gained)
    (hdropped : dropped = gained.filter fun g => decide (g ∉ t.sheets.standby.entries)) :
    dropped.length = gained.length - 256 ∧
    (∀ d ∈ dropped, ∀ e ∈ t.sheets.standby.entries, dropBefore d e = true) ∧
    (∀ i, t.sheets.standby.tallies.get i = min 255 (dropped.countP fun d => d.key.slot == i)) ∧
    (dropped ≠ [] → flagSet t.attn .sheetFull = true) := by
  have hdrops := drops_of_standby ht hn hgained hdropped
  have htallies : t.sheets.standby.tallies = tallyOf (standbySplit generated s).1 := by
    rw [← ht, installStandby_sheets]
    rfl
  have hkeys : (gained.map Entry.key).Nodup := hgained ▸ installable_keys s [] hn
  refine ⟨hdrops.count, fun d hd e he => ?_, fun i => ?_, fun hne => ?_⟩
  · rw [← ht, mem_standby, standbySplit, hgained] at he
    exact dropTo_order hkeys ((hdrops.mem d).1 hd) he
  · rw [htallies]
    exact hdrops.tally i
  · rw [← ht]
    exact (installStandby_flags generated triggered s).2 (hdrops.flag hne)

/-- The installed standby sheet holds as many of the gained entries as fit it, and no others. -/
theorem standby_entries (ht : installStandby generated triggered s = t) (hgained : installable s [] generated = gained) :
    t.sheets.standby.entries.length = min 256 gained.length ∧ ∀ e ∈ t.sheets.standby.entries, e ∈ gained := by
  subst ht hgained
  refine ⟨?_, fun e he => mem_dropTo_iff.2 (Or.inr (mem_standby.1 he))⟩
  rw [installStandby_sheets, standbyReplaced, mergeSheet, List.nil_append, length_sortBy, standbySplit, length_stayed]
  rfl

end Standby

/-! ### The events -/

theorem exec_todayRebuildInstall (hr : running s = true) (h : s.resolver.run = some r) (hk : r.kind = .today) :
    exec .todayRebuildInstall s = .next (installToday r.generated (endRun s)) := by
  change execTodayRebuildInstall s = _
  rw [execTodayRebuildInstall, event_running hr, runOf_eq h hk]

theorem exec_standbyBuildInstall (hr : running s = true) (h : s.resolver.run = some r) (hk : r.kind = .standby) :
    exec .standbyBuildInstall s = .next (installStandby r.generated r.triggered (endRun s)) := by
  change execStandbyBuildInstall s = _
  rw [execStandbyBuildInstall, event_running hr, runOf_eq h hk]

/-- A second inside the day marks the minute before the day's end (R70). -/
theorem standbyTime_endSecond (hrange : rangeEnds s.time = false) (hday : dayEnds s.time = false) :
    (endSecond s).sheets.standbyTime = true ↔ s.sheets.standbyTime = true ∨ s.time.instant + 1 + 60 = s.time.dayLength := by
  obtain ⟨ds, n, heq, -⟩ := endSecond_dials hrange hday
  have hmark : (endSecond s).sheets.standbyTime
      = (s.sheets.standbyTime || decide (s.time.instant + 1 + 60 = s.time.dayLength)) := by
    rw [heq]
    rfl
  rw [hmark, Bool.or_eq_true, decide_eq_true_eq]

theorem exec_standbyBuildTime (hr : running s = true) (hmark : s.sheets.standbyTime = true) (hv : s.time.valid = true)
    (hd : s.time.localDate ≠ lastDay) :
    exec .standbyBuildTime s
      = .next
        { s with
          sheets := { s.sheets with standbyTime := false }
          resolver := { s.resolver with standbyReq := true } } := by
  change execStandbyBuildTime s = _
  rw [execStandbyBuildTime, event_running hr, if_pos hmark]
  exact congrArg _ (if_pos ⟨hv, hd⟩)

/-- Settles O32: the installs by their splits, then what falls due; and the mark and the request of the standby build. -/
theorem buildsInstall : Obligations.BuildsInstall := by
  refine fun s hr => ⟨fun r kept gained hrun hk hkept hroom hgained => ?_, fun r gained hrun hk hgained => ?_,
    fun hrange hday => ⟨_, exec_newSecond hr, standbyTime_endSecond hrange hday⟩,
    fun hmark hv hd => exec_standbyBuildTime hr hmark hv hd⟩
  · have hexec := exec_todayRebuildInstall hr hrun hk
    have hsame : keptEntries (endRun s) = kept := hkept.symm
    have hmay : installable (endRun s) (keptEntries (endRun s)) r.generated = gained := by
      rw [installable_eq, hgained, hsame]
      rfl
    generalize ht : installToday r.generated (endRun s) = t at hexec
    have htower := installed_tower ht
    have hlength := installed_length ht (by rwa [hsame])
    rw [hmay, hsame] at hlength
    refine ⟨t, hexec, congrArg TowerView.resolver htower, hlength, fun e he => installed_kept (s := endRun s) ht (by rwa [hsame]),
      fun hn dropped hdropped => ?_, (installed_flags ht).1, congrArg TowerView.standby htower, congrArg TowerView.settings htower,
      congrArg TowerView.time htower, congrArg TowerView.port htower⟩
    obtain ⟨hcount, hrest⟩ := today_dropped_and_gained (s := endRun s) ht hn hmay hdropped
    rw [hsame] at hcount
    exact ⟨by omega, hrest⟩
  · have hexec := exec_standbyBuildInstall hr hrun hk
    have hmay : installable (endRun s) [] r.generated = gained := by
      rw [installable_eq, hgained]
      simp only [List.all_nil, Bool.and_true]
      rfl
    obtain ⟨x, a, honly⟩ := installStandby_only r.generated r.triggered (endRun s)
    have hsheets := installStandby_sheets r.generated r.triggered (endRun s)
    have hflags := installStandby_flags r.generated r.triggered (endRun s)
    generalize ht : installStandby r.generated r.triggered (endRun s) = t at *
    obtain ⟨hlength, hmem⟩ := standby_entries ht hmay
    refine ⟨t, hexec, by rw [honly]; rfl, hlength, hmem, fun hn dropped hdropped => standby_dropped (s := endRun s) ht hn hmay hdropped,
      by rw [hsheets, standbyReplaced], by rw [hsheets, standbyReplaced]; rfl, hflags.1, by rw [honly]; rfl⟩

end Sys2Proof.Resolution
end

section
/-! PROOFS. Strokes that come due: a stroke that its bell and the line can take is placed at the queue's tail (R89, R107, R116, R149). -/

namespace Sys2Proof.Performance

open Sys2Proof Sys2Proof.Machine

variable {s : State} {st : Station} {x : Strength} {who : Requester}

/-! ### A stroke that is placed (R116) -/

/-- The state in which a stroke stands on the line, to be struck within 250 ms, and its bell's hammer is free one recovery on. -/
def strokePlaced (st : Station) (x : Strength) (who : Requester) (s : State) : State :=
  updBell st (fun b => { b with nextFree := s.elapsed + b.recovery })
    (placeOrder ⟨st, .strike (mufflesTo s st x) (s.elapsed + 250) who, 0, 0⟩ s)

theorem strokePlaced_queue :
    (strokePlaced st x who s).line.queue
      = s.line.queue ++ [⟨st, .strike (mufflesTo s st x) (s.elapsed + 250) who, 0, 0⟩] := rfl

theorem strokePlaced_bell :
    getBell (strokePlaced st x who s) st = { getBell s st with nextFree := s.elapsed + (getBell s st).recovery } :=
  getBell_updBell_self _

theorem strokeDue_placed (h : lineAccepts s = true) : strokeDue st x (s.elapsed + 250) who s = strokePlaced st x who s := if_pos h

theorem line_of_accepts (h : lineAccepts s = true) : s.line.state ≠ .faulted := by
  simp only [lineAccepts, Bool.and_eq_true, bne_iff_ne] at h
  exact h.1.2

/-- A request for a bell with no deferred stroke, whose hammer is free, is placed at once. -/
theorem requestStroke_placed (ha : lineAccepts s = true) (hs : strikable (getBell s st) = true)
    (hfree : (getBell s st).nextFree ≤ s.elapsed) (hdef : (getBell s st).deferred = []) :
    requestStroke st x who s = strokePlaced st x who s := by
  have hserved : serveFirst st s = s := by rw [serveFirst, hdef]; rfl
  have hpossible : strokeImpossible s st = false := by
    simp [strokeImpossible, hs, line_of_accepts ha]
  rw [requestStroke, hserved, if_neg (by simp [hpossible]), if_pos hfree]
  exact strokeDue_placed ha

/-- A bell's first deferred stroke, at its next free moment, is placed and no longer deferred. -/
theorem serveDeferred_placed {d : Deferred} {ds : List Deferred} (ha : lineAccepts s = true)
    (hdef : (getBell s st).deferred = d :: ds) (hfree : (getBell s st).nextFree ≤ s.elapsed) :
    serveDeferred 1 st s = strokePlaced st d.strength d.requester (updBell st (fun b => { b with deferred := ds }) s) := by
  rw [serveDeferred, hdef]
  dsimp only
  rw [if_pos hfree]
  exact strokeDue_placed (s := updBell st (fun b => { b with deferred := ds }) s) ha

/-! ### The events -/

theorem exec_tollStrokeRequest {r : TollRun} {m : Nat} (hr : running s = true) (hrun : s.lanes.tollRun = some r)
    (hnext : r.nextAt = some m) (hm : m ≤ s.elapsed) :
    exec .tollStrokeRequest s
      = .next (requestStroke r.bell .normal (.toll r.serial)
          (setTollRun (some { r with requested := r.requested + 1, nextAt := none }) s)) := by
  change execTollStrokeRequest s = _
  rw [execTollStrokeRequest, event_running hr, tollNext, hrun]
  dsimp only
  rw [hnext]
  exact congrArg _ (if_pos hm)

theorem exec_hourStrokeRequest {p : Player} {m : Nat} (hr : running s = true) (hp : s.tunes.player = some p)
    (hat : p.strokeAt = some m) (hm : m ≤ s.elapsed) :
    exec .hourStrokeRequest s
      = .next (requestStroke p.hourBell .full (.hour p.serial)
          (setPlayer
            (some
              { p with
                requested := p.requested + 1
                strokeAt :=
                  if p.requested + 1 < p.strokes then some (s.elapsed + effectiveInterval s p.hourBell p.interval)
                  else none }) s)) := by
  change execHourStrokeRequest s = _
  rw [execHourStrokeRequest, event_running hr, hourStroke, hp]
  dsimp only
  rw [hat]
  exact congrArg _ (if_pos hm)

theorem exec_deferredStrokeDue {d : Deferred} {ds : List Deferred} (hr : running s = true)
    (hdef : (getBell s st).deferred = d :: ds) (hfree : (getBell s st).nextFree ≤ s.elapsed) :
    exec (.deferredStrokeDue st) s = .next (serveDeferred 1 st s) := by
  have hdue : deferredDue s st = true := by simp [deferredDue, hdef, hfree]
  change execDeferredStrokeDue st s = _
  rw [execDeferredStrokeDue, event_running hr, if_pos hdue]

/-- Settles O36: the toll's and the train's requests are placed at once, and so is a deferred stroke at its bell's next free moment. -/
theorem strokesArePlaced : Obligations.StrokesArePlaced := by
  refine fun s hr ha => ⟨fun r m hrun hnext hm hs hfree hdef => ?_, fun p m hp hat hm hs hfree hdef => ?_,
    fun st d ds hdef hfree => ?_⟩
  · have hplaced : ∀ run who, requestStroke r.bell .normal who (setTollRun run s) = strokePlaced r.bell .normal who (setTollRun run s) :=
      fun run who => requestStroke_placed (s := setTollRun run s) ha hs hfree hdef
    rw [exec_tollStrokeRequest hr hrun hnext hm]
    refine ⟨_, rfl, ?_, ?_, ?_, by simp, ?_, ?_⟩ <;> rw [hplaced]
    · rfl
    · rfl
    · exact strokePlaced_bell
    · rfl
    · rfl
  · have hplaced : ∀ q who, requestStroke p.hourBell .full who (setPlayer q s) = strokePlaced p.hourBell .full who (setPlayer q s) :=
      fun q who => requestStroke_placed (s := setPlayer q s) ha hs hfree hdef
    rw [exec_hourStrokeRequest hr hp hat hm]
    refine ⟨_, rfl, ?_, ?_, ?_, by simp, ?_, ?_⟩ <;> rw [hplaced]
    · rfl
    · exact ⟨_, rfl, rfl, rfl⟩
    · exact strokePlaced_bell
    · rfl
    · rfl
  · rw [exec_deferredStrokeDue hr hdef hfree]
    have hbell : getBell (updBell st (fun b => { b with deferred := ds }) s) st = { getBell s st with deferred := ds } :=
      getBell_updBell_self _
    refine ⟨_, rfl, ?_, ?_, by simp, ?_, ?_⟩ <;> rw [serveDeferred_placed ha hdef hfree]
    · rfl
    · rw [strokePlaced_bell, hbell]
      rfl
    · rfl
    · rfl

end Sys2Proof.Performance
end

section
/-! PROOFS. Work for load while no bell waits for a raise: the sheets, the lanes and the peal stand, and every zone's wanted level is the
governing scene's (R83, R84, R185, R188). -/

namespace Sys2Proof.Performance

open Sys2Proof Sys2Proof.Machine Sys2Proof.Time

variable {s t : State}

/-! ### Wanted and present levels under admissions (R185, R187) -/

/-- Zones whose wanted levels are kept and whose present levels are not raised. -/
def NoneRaised (l l' : Lights) : Prop :=
  ∀ z, (l'.zones.get z).wanted = (l.zones.get z).wanted ∧ (l'.zones.get z).present ≤ (l.zones.get z).present

theorem NoneRaised.refl (l : Lights) : NoneRaised l l := fun _ => ⟨rfl, Nat.le_refl _⟩

theorem NoneRaised.trans {l l' l'' : Lights} (h : NoneRaised l l') (h' : NoneRaised l' l'') : NoneRaised l l'' :=
  fun z => ⟨(h' z).1.trans (h z).1, (h' z).2.trans (h z).2⟩

theorem noneRaised_shedStep (l : Lights) : NoneRaised l (shedStep l) := by
  unfold shedStep
  split
  · exact NoneRaised.refl l
  · next z _ =>
    intro y
    simp only [updZone, get_modify]
    split
    · next hzy => subst hzy; exact ⟨rfl, Nat.sub_le _ _⟩
    · exact ⟨rfl, Nat.le_refl _⟩

theorem noneRaised_shedUntil (enough : Lights → Bool) (fuel : Nat) (l : Lights) : NoneRaised l (shedUntil enough fuel l) := by
  induction fuel generalizing l with
  | zero => exact NoneRaised.refl l
  | succ n ih =>
    rw [shedUntil]
    split
    · exact NoneRaised.refl l
    · exact (noneRaised_shedStep l).trans (ih _)

/-- An admission may shed zones, and leaves their wanted levels (R187). -/
theorem noneRaised_admit {mains : MainsState} {st : Station} {m : Nat} {l l' : Lights} {shed : Bool}
    (h : admitLoad mains st m l = some (l', shed)) : NoneRaised l l' := by
  unfold admitLoad at h
  split at h
  · cases h; exact NoneRaised.refl l
  · split at h
    · cases h; exact noneRaised_shedUntil _ _ l
    · cases h

/-- Work on bells leaves the zones. -/
theorem noneRaised_of_bellWork (h : BellWork s t) : NoneRaised s.lights t.lights := by
  have hz : t.lights.zones = s.lights.zones := by
    have := congrArg Lights.zones h.zones
    exact this
  intro z
  rw [hz]
  exact ⟨rfl, Nat.le_refl _⟩

theorem setFlagIf_eq (c : Bool) (g : AttnFlag) (s : State) : ∃ a, setFlagIf c g s = { s with attn := a } := by
  cases c <;> exact ⟨_, rfl⟩

theorem noneRaised_retryOne (st : Station) (m : Nat) (s : State) : NoneRaised s.lights (retryOne st m s).lights := by
  unfold retryOne
  split
  · exact NoneRaised.refl _
  · next l shed h =>
    refine NoneRaised.trans (l' := l) (noneRaised_admit h) ?_
    have hwork := noneRaised_of_bellWork (bellWork_tellAdmitted (s := setFlagIf shed .loadLimited
      (setLights { l with waiting := l.waiting.filter fun p => p.1 != st } s)) st)
    rwa [setFlagIf_lights] at hwork

theorem noneRaised_retryWaiting (s : State) : NoneRaised s.lights (retryWaiting s).lights := by
  unfold retryWaiting
  split
  · exact foldl_keeps (fun u => NoneRaised s.lights u.lights) (fun acc (p : Station × Nat) => retryOne p.1 p.2 acc)
      (fun u p h => h.trans (noneRaised_retryOne p.1 p.2 u)) _ s (NoneRaised.refl _)
  · exact NoneRaised.refl _

/-- Finding the wanted levels makes them the governing scene's, whatever waits (R185). -/
theorem findWanted_wanted (s : State) (z : ZoneNo) :
    ((findWanted s).lights.zones.get z).wanted = wantedLevel s.lights (governingScene s) z := by
  unfold findWanted
  dsimp only
  split
  · next hsame => exact eq_of_beq (List.all_eq_true.1 hsame z (mem_allZones z))
  · have happly : ((applyWanted (governingScene s) s.lights).zones.get z).wanted = wantedLevel s.lights (governingScene s) z := by
      simp [applyWanted]
    have hrestore : ∀ u : State, ((restoration u).lights.zones.get z).wanted = (u.lights.zones.get z).wanted := fun u => by
      obtain ⟨l, hl, -, -, hz⟩ := restoration_lights u
      rw [hl]
      exact hz z
    rw [hrestore]
    split
    · exact ((noneRaised_retryWaiting _ z).1).trans happly
    · exact happly

/-! ### What stands while no bell waits for a raise (R119, R188) -/

/-- The sheets, the table, the lanes, the peal, and which bells wait for a raise. -/
def standView (s : State) : Vector Bool 31 × Sheets × Table × Lanes × Option PealRun :=
  (s.bells.map Bell.waitingRaise, s.sheets, s.table, s.lanes, s.peal)

theorem stand_updBell (st : Station) (f : Bell → Bell) (h : ∀ b, (f b).waitingRaise = b.waitingRaise) :
    standView (updBell st f s) = standView s := by
  have hsame : (modify s.bells st f).map Bell.waitingRaise = s.bells.map Bell.waitingRaise := map_modify _ _ _ _ h
  simp only [standView, updBell_bells, hsame]
  rfl

theorem stand_makeOrder (st : Station) (k : SwingOrder) : standView (makeOrder st k s) = standView s := by
  unfold makeOrder
  repeat' split
  · rfl
  · rfl
  · exact stand_updBell _ _ fun _ => rfl

theorem stand_firstQuery (st : Station) : standView (firstQuery st s) = standView s := by
  unfold firstQuery pollNow
  repeat' split
  · exact stand_makeOrder _ _
  · exact stand_makeOrder _ _
  · rfl

theorem stand_startPolling (st : Station) : standView (startPolling st s) = standView s := by
  unfold startPolling
  split
  · exact stand_updBell _ _ fun _ => rfl
  · split
    · exact (stand_firstQuery st).trans (stand_updBell _ _ fun _ => rfl)
    · dsimp only
      split
      · exact (stand_makeOrder _ _).trans (stand_updBell _ _ fun _ => rfl)
      · exact stand_updBell _ _ fun _ => rfl

theorem stand_setReserving (st : Station) : standView (setReserving st s) = standView s := by
  have hset : standView (updBell st (fun b => { b with reserving := true }) s) = standView s := stand_updBell _ _ fun _ => rfl
  unfold setReserving
  dsimp only
  split
  · exact (stand_startPolling st).trans hset
  · exact hset

theorem raise_of_stand (h : standView t = standView s) (st : Station) :
    (getBell t st).waitingRaise = (getBell s st).waitingRaise := by
  have := congrArg (fun v => v.1.get st) h
  simpa [standView, getBell] using this

/-- A retry begins no raise where none waits: it sets reservations. -/
theorem stand_retryOne (st : Station) (m : Nat) (h : ∀ u, (getBell s u).waitingRaise = false) :
    standView (retryOne st m s) = standView s := by
  unfold retryOne
  split
  · rfl
  · next l shed _ =>
    obtain ⟨a, ha⟩ := setFlagIf_eq shed .loadLimited (setLights { l with waiting := l.waiting.filter fun p => p.1 != st } s)
    have hnone : (getBell { setLights { l with waiting := l.waiting.filter fun p => p.1 != st } s with attn := a } st).waitingRaise
        = false := h st
    rw [ha, tellAdmitted, if_neg (by rw [Bool.not_eq_true]; exact hnone), stand_setReserving]
    rfl

theorem stand_retryWaiting (h : ∀ u, (getBell s u).waitingRaise = false) : standView (retryWaiting s) = standView s := by
  unfold retryWaiting
  split
  · exact foldl_keeps (fun u => standView u = standView s) (fun acc (p : Station × Nat) => retryOne p.1 p.2 acc)
      (fun u p hu => (stand_retryOne p.1 p.2 fun st => (raise_of_stand hu st).trans (h st)).trans hu) _ s rfl
  · rfl

theorem stand_restoration (s : State) : standView (restoration s) = standView s := by
  obtain ⟨l, hl, -⟩ := restoration_lights s
  rw [hl]
  rfl

theorem stand_findWanted (h : ∀ u, (getBell s u).waitingRaise = false) : standView (findWanted s) = standView s := by
  unfold findWanted
  dsimp only
  split
  · rfl
  · rw [stand_restoration]
    split
    · exact stand_retryWaiting (s := setLights (applyWanted (governingScene s) s.lights) s) h
    · rfl

theorem parts_of_stand (h : standView t = standView s) :
    t.sheets = s.sheets ∧ t.table = s.table ∧ t.lanes = s.lanes ∧ t.peal = s.peal := by
  simp only [standView, Prod.mk.injEq] at h
  exact h.2

/-! ### The lit-record set (R83, R84) -/

/-- No work for load begins a raise: no request waits, or there is no peal and no bell waits for a raise. -/
def LoadQuiet (s : State) : Prop :=
  s.lights.waiting = [] ∨ s.peal = none ∧ ∀ st, (getBell s st).waitingRaise = false

theorem loadQuiet_of (h : s.peal = none ∨ s.lights.waiting = [])
    (hraise : ∀ st, (getBell s st).waitingRaise = true → pealHolds s st = true) : LoadQuiet s := by
  rcases h with hpeal | hwaiting
  · refine Or.inr ⟨hpeal, fun st => Bool.eq_false_iff.2 fun hst => ?_⟩
    have := hraise st hst
    rw [pealHolds, hpeal] at this
    cases this
  · exact Or.inl hwaiting

theorem LoadQuiet.congr (h : LoadQuiet s) (hl : t.lights = s.lights) (hp : t.peal = s.peal) (hb : t.bells = s.bells) : LoadQuiet t := by
  unfold LoadQuiet getBell
  rw [hl, hp, hb]
  exact h

theorem settlePeal_congr (h : settlePeal s = s) (hp : t.peal = s.peal) (hb : t.bells = s.bells) : settlePeal t = t := by
  refine settlePeal_stays ?_
  rw [hp, hb]
  exact stays_of_settlePeal h

theorem settlePeal_none (h : s.peal = none) : settlePeal s = s := by rw [settlePeal, h]

/-- What a lit-record set that is handed over changes: the set, and where it is another one, the wanted levels (R84, R185). -/
structure LitHanded (lit : Vector Bool 128) (s t : State) : Prop where
  settled : settlePeal t = t
  sheets : t.sheets = s.sheets
  table : t.table = s.table
  litSet : t.lanes.lit = lit
  same : lit = s.lanes.lit → t = s
  wanted : lit ≠ s.lanes.lit → WantedMet t

theorem setLit_same (s : State) : setLit s.lanes.lit s = s := if_pos rfl

theorem litHanded (h : LoadQuiet s) (hs : settlePeal s = s) (lit : Vector Bool 128) : LitHanded lit s (setLit lit s) := by
  by_cases hlit : lit = s.lanes.lit
  · subst hlit
    rw [setLit_same]
    exact ⟨hs, rfl, rfl, rfl, fun _ => rfl, fun hne => absurd rfl hne⟩
  · have hset : setLit lit s = findWanted { s with lanes := { s.lanes with lit := lit } } := if_neg hlit
    have hstand : standView (setLit lit s) = standView { s with lanes := { s.lanes with lit := lit } } := by
      rcases h with hwaiting | ⟨-, hraise⟩
      · obtain ⟨l, hl, -⟩ := setLit_lights hwaiting lit
        rw [hl]
        rfl
      · rw [hset]
        exact stand_findWanted (s := { s with lanes := { s.lanes with lit := lit } }) hraise
    obtain ⟨hsheets, htable, hlanes, hpeal⟩ := parts_of_stand hstand
    have hlit' : (setLit lit s).lanes.lit = lit := by rw [hlanes]
    refine ⟨?_, hsheets, htable, hlit', fun heq => absurd heq hlit, fun _ z => ?_⟩
    · rcases h with hwaiting | ⟨hnone, -⟩
      · have hcalm := calm_setLit hwaiting lit
        exact settlePeal_congr hs hcalm.peal hcalm.bells
      · exact settlePeal_none (hpeal.trans hnone)
    · have htower : towerView (setLit lit s) = towerView { s with lanes := { s.lanes with lit := lit } } := tower_setLit _ _
      have hscene : governingScene (setLit lit s) = governingScene { s with lanes := { s.lanes with lit := lit } } :=
        governingScene_congr (scene_of_overrides (congrArg TowerView.overrides htower)) hlit' (image_of_tower htower)
      have hscenes : (setLit lit s).lights.scenes = s.lights.scenes := congrArg (fun v : TowerView => v.settings.scenes) htower
      rw [hscene, wantedLevel_congr hscenes, hset]
      exact findWanted_wanted { s with lanes := { s.lanes with lit := lit } } z

/-- The lit-record set after a LIGHT entry's effect (R83). -/
def litAfter (k : Key) (s : State) : Vector Bool 128 :=
  if k.sub = 0 then if liveLight s k.slot then put s.lanes.lit k.slot true else s.lanes.lit
  else if k.sub = 1 then put s.lanes.lit k.slot false
  else s.lanes.lit

theorem lightEffect_eq (k : Key) (s : State) : lightEffect k s = setLit (litAfter k s) s := by
  unfold lightEffect litAfter
  repeat' split
  all_goals first | rfl | exact (setLit_same s).symm

theorem litAfter_other (k : Key) {j : SlotNo} (h : j ≠ k.slot) : (litAfter k s).get j = s.lanes.lit.get j := by
  unfold litAfter
  repeat' split
  all_goals first | rfl | rw [get_put, if_neg (Ne.symm h)]

theorem litAfter_own (k : Key) (s : State) :
    (litAfter k s).get k.slot
      = if k.sub = 0 then s.lanes.lit.get k.slot || liveLight s k.slot
        else if k.sub = 1 then false
        else s.lanes.lit.get k.slot := by
  unfold litAfter
  split
  · split
    · next hlive => simp [hlive]
    · next hlive => simp [hlive]
  · split
    · simp
    · rfl

/-- The effect of a LIGHT entry is that its lit-record set is handed over. -/
theorem litHanded_lightEffect (h : LoadQuiet s) (hs : settlePeal s = s) (k : Key) :
    LitHanded (litAfter k s) s (lightEffect k s) := by
  rw [lightEffect_eq]
  exact litHanded h hs _

end Sys2Proof.Performance
end

section
/-! PROOFS. The first entry of an instant falls due, by its kind and the mains state (R79 to R83, R86). -/

namespace Sys2Proof.Performance

open Sys2Proof Sys2Proof.Machine Sys2Proof.Time

variable {s t : State} {e : Entry}

/-! ### The end of an entry -/

/-- The end of an entry works on the table, today's entries and the flags alone, and on no flag where it is not MISSED (R11, R91). -/
theorem finalise_only (k : Key) (st : EntryState) (s : State) :
    ∃ x es a, finalise k st s = { updToday es s with table := x, attn := a } ∧ (st ≠ .missed → a = s.attn) := by
  unfold finalise
  split
  · exact ⟨s.table, id, s.attn, rfl, fun _ => rfl⟩
  · have hconclude : ∃ x es a, conclude k st s = { updToday es s with table := x, attn := a } ∧ (st ≠ .missed → a = s.attn) := by
      unfold conclude writeOutcome
      split
      · exact ⟨s.table, id, s.attn, rfl, fun _ => rfl⟩
      · by_cases hst : st = .missed
        · subst hst
          split <;> exact ⟨_, _, _, rfl, fun h => absurd rfl h⟩
        · have hflag : (st == .missed) = false := beq_eq_false_iff_ne.2 hst
          rw [hflag]
          split <;> exact ⟨_, _, _, rfl, fun _ => rfl⟩
    obtain ⟨x, es, a, h, ha⟩ := hconclude
    rw [h]
    unfold spentCheck
    split
    · exact ⟨x, es, a, rfl, ha⟩
    · split <;> exact ⟨_, es, a, rfl, ha⟩

theorem finalise_attn (k : Key) {st : EntryState} (h : st ≠ .missed) (s : State) : (finalise k st s).attn = s.attn := by
  obtain ⟨x, es, a, heq, ha⟩ := finalise_only k st s
  rw [heq]
  exact ha h

theorem finalise_lanes (k : Key) (st : EntryState) (s : State) : (finalise k st s).lanes = s.lanes := by
  obtain ⟨x, es, a, heq, -⟩ := finalise_only k st s
  rw [heq]
  rfl

theorem finalise_tunes (k : Key) (st : EntryState) (s : State) : (finalise k st s).tunes = s.tunes := by
  obtain ⟨x, es, a, heq, -⟩ := finalise_only k st s
  rw [heq]
  rfl

/-- Setting the state of a key's entries shows in the entry found under it. -/
theorem state_setState {es : List Entry} {k : Key} (st : EntryState) (h : ∃ x, findEntry k es = some x) :
    (findEntry k (setState k st es)).map Entry.state = some st := by
  obtain ⟨x, hx⟩ := h
  rw [findEntry_setState_self hx]
  rfl

theorem state_finalise {k : Key} (st : EntryState) (h : ∃ x, findEntry k (entriesOf s) = some x) :
    (findEntry k (entriesOf (finalise k st s))).map Entry.state = some st := by
  rw [finalise_entries]
  exact state_setState st h

/-- The record of an entry that ends shows its outcome. -/
theorem outcome_finalise {k : Key} (st : EntryState) (h : ∃ x, findEntry k (entriesOf s) = some x)
    (hi : (getSlot s k.slot).state ≠ .empty) :
    ∃ day, OutcomeShown (getSlot s k.slot) (getSlot (finalise k st s) k.slot) st day := by
  obtain ⟨x, hx⟩ := h
  exact ⟨_, (endsEntry_finalise st).shows k s x hx hi⟩

theorem missed_finalise {k : Key} (h : ∃ x, findEntry k (entriesOf s) = some x) :
    flagSet (finalise k .missed s).attn .entryMissed = true := by
  obtain ⟨x, hx⟩ := h
  exact (endsEntry_finalise .missed).flag k s x hx rfl

/-- Work on the sheets that leaves the bells and the peal lets the peal stand. -/
theorem settlePeal_finalise (h : settlePeal s = s) (k : Key) (st : EntryState) : settlePeal (finalise k st s) = finalise k st s :=
  settlePeal_congr h (calm_finalise k st).peal (calm_finalise k st).bells

/-! ### The event -/

/-- The part runs, the sheet is ready, and the entry is the first that acts at this instant. -/
structure FirstActs (s : State) (e : Entry) : Prop where
  runs : running s = true
  ready : readyToFall s = true
  first : firstWhere (actsNow s) s = some e
  settled : settlePeal s = s

theorem FirstActs.found (h : FirstActs s e) (st : EntryState) : ∃ x, findEntry e.key (setState e.key st (entriesOf s)) = some x := by
  obtain ⟨x, hx⟩ := findEntry_isSome (List.mem_of_find?_eq_some h.first)
  exact ⟨_, findEntry_setState_self hx⟩

theorem exec_entryFallsDue (h : FirstActs s e) :
    exec .entryFallsDue s
      = .next (settlePeal (if fallsDue s e then becomeDue e s else lightEffect e.key (relit e.key s))) := by
  change execEntryFallsDue s = _
  rw [execEntryFallsDue, event_running h.runs, fallOne, if_neg (by simp [h.ready]), h.first]

theorem settled_markedDue (h : FirstActs s e) : settlePeal (markedDue e s) = markedDue e s := settlePeal_congr h.settled rfl rfl

/-- An entry that becomes final as it falls due. -/
theorem exec_finalDue {st : EntryState} (h : FirstActs s e) (hdue : fallsDue s e = true)
    (heq : becomeDue e s = finalise e.key st (markedDue e s)) :
    exec .entryFallsDue s = .next (finalise e.key st (markedDue e s)) := by
  rw [exec_entryFallsDue h, if_pos hdue, heq, settlePeal_finalise (settled_markedDue h)]

/-- An entry that stays open as it falls due. -/
theorem exec_openDue {st : EntryState} (h : FirstActs s e) (hdue : fallsDue s e = true)
    (heq : becomeDue e s = updToday (setState e.key st) s) :
    exec .entryFallsDue s = .next (updToday (setState e.key st) s) := by
  rw [exec_entryFallsDue h, if_pos hdue, heq]
  exact congrArg _ (settlePeal_congr h.settled rfl rfl)

/-! ### Sounding and QUIET entries (R80 to R82, R86) -/

theorem present_ne (h : s.mains = .present) : s.mains ≠ .absent := by rw [h]; exact MainsState.noConfusion

theorem sounding_absent (hk : e.kind.sounding = true) (hm : s.mains = .absent) :
    becomeDue e s = finalise e.key .missed (markedDue e s) :=
  (becomeDue_sounding hk).trans (if_pos hm)

theorem sounding_present (hk : e.kind.sounding = true) (hm : s.mains = .present) :
    becomeDue e s
      = if covered (markedDue e s) e then finalise e.key .withheld (markedDue e s)
        else if graceOver s e then finalise e.key .missed (markedDue e s)
        else markedDue e s :=
  (becomeDue_sounding hk).trans (if_neg (present_ne hm))

theorem updToday_same (f g : List Entry → List Entry) (s : State) (h : f (g (entriesOf s)) = f (entriesOf s)) :
    updToday f (updToday g s) = updToday f s := by
  unfold updToday
  dsimp only
  rw [h]

theorem quiet_present (hk : e.kind = .quiet) (hm : s.mains = .present) :
    becomeDue e s = updToday (setState e.key .active) s := by
  rw [becomeDue_quiet hk, if_neg (present_ne hm)]
  exact updToday_same _ _ s (setState_setState ..)

theorem quiet_absent (hk : e.kind = .quiet) (hm : s.mains = .absent) :
    becomeDue e s = finalise e.key .missed (markedDue e s) :=
  (becomeDue_quiet hk).trans (if_pos hm)

theorem tower_finalDue (e : Entry) (st : EntryState) (s : State) :
    towerView (finalise e.key st (markedDue e s)) = towerView s := by
  rw [tower_finalise, markedDue, tower_updToday]

/-! ### LIGHT entries (R83) -/

theorem relights_of_acts (h : FirstActs s e) (hdue : fallsDue s e = false) : relights s e = true := by
  have hacts : actsNow s e = true := List.find?_some h.first
  rwa [actsNow, hdue, Bool.false_or] at hacts

theorem light_of_relights (h : relights s e = true) : e.kind = .light := by
  simp only [relights, Bool.and_eq_true, beq_iff_eq] at h
  exact h.1.1.2

theorem liveLight_iff (s : State) (i : SlotNo) :
    liveLight s i = true ↔ (getSlot s i).state = .live ∧ imgKind (getSlot s i).image = some .light := by
  simp [liveLight]

theorem liveLight_false (s : State) (i : SlotNo) :
    liveLight s i = false ↔ (getSlot s i).state ≠ .live ∨ imgKind (getSlot s i).image ≠ some .light := by
  rw [← Bool.not_eq_true, liveLight_iff, not_and_or]

theorem liveLight_congr (h : t.table = s.table) (i : SlotNo) : liveLight t i = liveLight s i := by
  rw [liveLight, liveLight, getSlot_of_table h]

/-- A LIGHT entry that acts again: its effect on the lit-record set alone. -/
theorem lightActsAgain (h : FirstActs s e) (hdue : fallsDue s e = false) (hload : LoadQuiet s) :
    exec .entryFallsDue s = .next (lightEffect e.key (relit e.key s)) ∧
      LitHanded (litAfter e.key (relit e.key s)) (relit e.key s) (lightEffect e.key (relit e.key s)) := by
  have hhanded := litHanded_lightEffect (s := relit e.key s) hload (settlePeal_congr h.settled rfl rfl) e.key
  rw [exec_entryFallsDue h, if_neg (by simp [hdue]), hhanded.settled]
  exact ⟨rfl, hhanded⟩

/-- A LIGHT entry that falls due is DONE, and has its effect on the lit-record set. -/
theorem lightFallsDue (h : FirstActs s e) (hdue : fallsDue s e = true) (hk : e.kind = .light) (hload : LoadQuiet s) :
    exec .entryFallsDue s = .next (lightEffect e.key (finalise e.key .done (markedDue e s))) ∧
      LitHanded (litAfter e.key (finalise e.key .done (markedDue e s))) (finalise e.key .done (markedDue e s))
        (lightEffect e.key (finalise e.key .done (markedDue e s))) := by
  obtain ⟨hbells, -, hlights, hpeal, -⟩ := work_parts (work_finalise e.key .done (markedDue e s))
  have hhanded := litHanded_lightEffect (s := finalise e.key .done (markedDue e s))
    (hload.congr hlights hpeal hbells) (settlePeal_finalise (settled_markedDue h) _ _) e.key
  rw [exec_entryFallsDue h, if_pos hdue, becomeDue_light hk, hhanded.settled]
  exact ⟨rfl, hhanded⟩

theorem enables_of_tower (h : towerView t = towerView s) : t.attn.enables = s.attn.enables :=
  congrArg (fun v : TowerView => v.settings.enables.1) h

/-- Settles O33: the first entry by its kind, in the state that its kind and the mains state give it. -/
theorem entriesFallDue : Obligations.EntriesFallDue := by
  intro s e hr hready hfirst hsettled
  have h : FirstActs s e := ⟨hr, hready, hfirst, hsettled⟩
  have hfound := h.found .due
  refine ⟨fun hdue hpeal hraise => ?_, fun hdue => ⟨fun hk hm => ?_, fun hk hm => ?_, fun hk hpeal hraise => ?_,
    fun hk hm => ?_, fun hk hm hcov => ?_, fun hk hm hcov hgrace => ?_, fun hk hm hcov hgrace => ?_⟩⟩
  · obtain ⟨hexec, hhanded⟩ := lightActsAgain h hdue (loadQuiet_of hpeal hraise)
    have htower : towerView (lightEffect e.key (relit e.key s)) = towerView (relit e.key s) := tower_lightEffect _ _
    refine ⟨_, hexec, light_of_relights (relights_of_acts h hdue), by rw [hhanded.sheets]; rfl, hhanded.table, ?_, ?_,
      fun j hj => ?_, fun hsame => ?_, fun hne => hhanded.wanted fun heq => hne (hhanded.litSet.trans heq),
      (enables_of_tower htower).trans rfl⟩
    · rw [hhanded.sheets]
      simp [relit]
    · rw [hhanded.litSet]
      exact litAfter_own e.key (relit e.key s)
    · rw [hhanded.litSet]
      exact litAfter_other e.key hj
    · rw [hhanded.same (hhanded.litSet.symm.trans hsame)]
      exact ⟨rfl, rfl⟩
  · refine ⟨_, exec_openDue h hdue (quiet_present hk hm), ?_, tower_updToday _ _, rfl⟩
    exact state_setState _ (findEntry_isSome (List.mem_of_find?_eq_some hfirst))
  · obtain ⟨hbells, -, hlights, -⟩ := work_parts (work_finalise e.key .missed (markedDue e s))
    exact ⟨_, exec_finalDue h hdue (quiet_absent hk hm), state_finalise _ hfound, missed_finalise hfound, hlights, hbells,
      tower_finalDue _ _ _⟩
  · obtain ⟨hexec, hhanded⟩ := lightFallsDue h hdue hk (loadQuiet_of hpeal hraise)
    have htower : towerView (lightEffect e.key (finalise e.key .done (markedDue e s))) = towerView s :=
      (tower_lightEffect _ _).trans (tower_finalDue _ _ _)
    have hlanes : (finalise e.key .done (markedDue e s)).lanes = s.lanes := finalise_lanes ..
    have hslot : ∀ i, getSlot (lightEffect e.key (finalise e.key .done (markedDue e s))) i
        = getSlot (finalise e.key .done (markedDue e s)) i := getSlot_of_table hhanded.table
    have hlive := liveLight_congr hhanded.table e.key.slot
    have hown := litAfter_own e.key (finalise e.key .done (markedDue e s))
    rw [← hlive, hlanes] at hown
    refine ⟨_, hexec, ?_, fun hi => ?_, fun hsub hst himg => ?_, fun hsub hnot => ?_, fun hsub => ?_, fun j hj => ?_,
      fun hne => hhanded.wanted fun heq => hne (hhanded.litSet.trans (heq.trans (by rw [hlanes]))), fun hsame => ?_,
      enables_of_tower htower, htower⟩
    · rw [hhanded.sheets]
      exact state_finalise _ hfound
    · obtain ⟨day, hlast, hperformed, -⟩ := outcome_finalise (s := markedDue e s) .done hfound hi
      rw [hslot]
      exact ⟨hlast, hperformed⟩
    · rw [hhanded.litSet, hown, if_pos hsub, (liveLight_iff _ _).2 ⟨hst, himg⟩, Bool.or_true]
    · rw [hhanded.litSet, hown, if_pos hsub, (liveLight_false _ _).2 hnot, Bool.or_false]
    · rw [hhanded.litSet, hown, if_neg (by omega), if_pos hsub]
    · rw [hhanded.litSet, litAfter_other e.key hj, hlanes]
    · obtain ⟨hbells, -, hlights, -⟩ := work_parts (work_finalise e.key .done (markedDue e s))
      rw [hhanded.same (hhanded.litSet.symm.trans (hsame.trans (by rw [hlanes])))]
      exact ⟨hlights, hbells⟩
  · exact ⟨_, exec_finalDue h hdue (sounding_absent hk hm), state_finalise _ hfound, missed_finalise hfound, tower_finalDue _ _ _⟩
  · refine ⟨_, exec_finalDue (st := .withheld) h hdue ((sounding_present hk hm).trans (if_pos hcov)), state_finalise _ hfound,
      finalise_attn _ EntryState.noConfusion _, tower_finalDue _ _ _⟩
  · have hopen : becomeDue e s = updToday (setState e.key .due) s := by
      rw [sounding_present hk hm, markedDue, hcov, hgrace]
      rfl
    exact ⟨_, exec_openDue h hdue hopen, state_setState _ (findEntry_isSome (List.mem_of_find?_eq_some hfirst)), rfl⟩
  · have hlate : becomeDue e s = finalise e.key .missed (markedDue e s) := by
      rw [sounding_present hk hm, markedDue, hcov, hgrace]
      rfl
    refine ⟨_, exec_finalDue h hdue hlate, state_finalise _ hfound, fun hi => ?_, missed_finalise hfound, tower_finalDue _ _ _⟩
    obtain ⟨day, hlast, hmissed⟩ := outcome_finalise (s := markedDue e s) .missed hfound hi
    exact ⟨hlast, hmissed⟩

end Sys2Proof.Performance
end

section
/-! PROOFS. Properties that work on bells keeps: those that hang on no bell, on no order and on no account, and that the answer to a stroke
keeps (R115 to R124, R187 to R189). -/

namespace Sys2Proof.Performance

open Sys2Proof Sys2Proof.Machine Sys2Proof.Time

variable {P : State → Prop} {s : State}

/-- A property of the state that bells, orders, loads and flags do not move, and that the answer to a stroke keeps. -/
structure BellProof (P : State → Prop) : Prop where
  bell : ∀ st f s, P s → P (updBell st f s)
  line : ∀ f s, P s → P (updLine f s)
  lights : ∀ l s, P s → P (setLights l s)
  flag : ∀ g s, P s → P (setFlag g s)
  answer : ∀ who sent s, P s → P (answerStroke who sent s)

section Work

variable (hP : BellProof P)
include hP

theorem BellProof.flagIf (c : Bool) (g : AttnFlag) (h : P s) : P (setFlagIf c g s) := by
  cases c with
  | false => exact h
  | true => exact hP.flag g s h

theorem BellProof.strikesLost (os : List Order) (h : P s) : P (strikesLost os s) := by
  refine foldl_keeps P _ (fun u o hu => ?_) os s h
  unfold strikeLost
  split
  · exact hP.answer _ _ _ hu
  · exact hu

theorem BellProof.loseDeferred (st : Station) (h : P s) : P (loseDeferred st s) :=
  foldl_keeps P _ (fun u (d : Deferred) hu => hP.answer d.requester false u hu) _ _ (hP.bell _ _ _ h)

theorem BellProof.checkStrikable (st : Station) (h : P s) : P (checkStrikable st s) := by
  unfold Machine.checkStrikable
  split
  · exact h
  · exact hP.strikesLost _ (hP.line _ _ (hP.loseDeferred st h))

theorem BellProof.makeOrder (st : Station) (k : SwingOrder) (h : P s) : P (makeOrder st k s) := by
  unfold Machine.makeOrder
  repeat' split
  · exact h
  · exact hP.line _ _ h
  · exact hP.bell _ _ _ h

theorem BellProof.offerOwed (st : Station) (h : P s) : P (offerOwed st s) := by
  unfold Machine.offerOwed
  repeat' split
  · exact h
  · exact hP.line _ _ (hP.bell _ _ _ h)
  · exact h

theorem BellProof.queryStation (st : Station) (h : P s) : P (queryStation st s) := by
  unfold Machine.queryStation
  split
  · exact hP.offerOwed st (hP.makeOrder st _ h)
  · exact h

theorem BellProof.queryAll (h : P s) : P (queryAll s) := foldl_keeps P _ (fun _ st hu => hP.queryStation st hu) _ _ h

theorem BellProof.firstQuery (st : Station) (h : P s) : P (firstQuery st s) := by
  unfold Machine.firstQuery pollNow
  repeat' split
  · exact hP.makeOrder _ _ h
  · exact hP.makeOrder _ _ h
  · exact h

theorem BellProof.startPolling (st : Station) (h : P s) : P (startPolling st s) := by
  unfold Machine.startPolling
  split
  · exact hP.bell _ _ _ h
  · split
    · exact hP.firstQuery st (hP.bell _ _ _ h)
    · dsimp only
      split
      · exact hP.makeOrder _ _ (hP.bell _ _ _ h)
      · exact hP.bell _ _ _ h

theorem BellProof.enterPosition (st : Station) (pos : Position) (h : P s) : P (enterPosition st pos s) :=
  hP.startPolling st (hP.checkStrikable st (hP.bell _ _ _ h))

theorem BellProof.orderLower (st : Station) (h : P s) : P (orderLower st s) := hP.enterPosition st _ (hP.makeOrder st _ h)

theorem BellProof.raiseNow (st : Station) (h : P s) : P (raiseNow st s) := hP.enterPosition st _ (hP.makeOrder st _ h)

theorem BellProof.withdrawRequest (st : Station) (h : P s) : P (withdrawRequest st s) := hP.bell _ _ _ (hP.lights _ _ h)

theorem BellProof.putDown (st : Station) (h : P s) : P (putDown st s) := by
  unfold Machine.putDown
  dsimp only
  repeat' split
  · exact hP.orderLower st h
  · exact hP.withdrawRequest st h
  · exact h

/-! ### Loads -/

theorem BellProof.tellAdmitted (st : Station) (h : P s) : P (tellAdmitted st s) := by
  unfold Machine.tellAdmitted setReserving
  dsimp only
  repeat' split
  · exact hP.raiseNow st (hP.bell _ _ _ h)
  · exact hP.startPolling st (hP.bell _ _ _ h)
  · exact hP.bell _ _ _ h

theorem BellProof.retryOne (st : Station) (m : Nat) (h : P s) : P (retryOne st m s) := by
  unfold Machine.retryOne
  split
  · exact h
  · exact hP.tellAdmitted st (hP.flagIf _ _ (hP.lights _ _ h))

theorem BellProof.retryWaiting (h : P s) : P (retryWaiting s) := by
  unfold Machine.retryWaiting
  split
  · exact foldl_keeps P (fun acc (p : Station × Nat) => Machine.retryOne p.1 p.2 acc) (fun u p hu => hP.retryOne p.1 p.2 hu) _ s h
  · exact h

theorem BellProof.restoration (h : P s) : P (restoration s) := by
  unfold Machine.restoration
  split
  · exact hP.lights _ _ h
  · exact h

theorem BellProof.findWanted (h : P s) : P (findWanted s) := by
  unfold Machine.findWanted
  dsimp only
  repeat' split
  · exact h
  · exact hP.restoration (hP.retryWaiting (hP.lights _ _ h))
  · exact hP.restoration (hP.lights _ _ h)

end Work

/-! ### What the answer to a stroke does (R89, R150) -/

/-- The answer to a stroke works on the toll and the player, or ends the entry of their lane. -/
theorem answerStroke_cases (who : Requester) (sent : Bool) (s : State) :
    answerStroke who sent s = s ∨ (∃ r, answerStroke who sent s = setTollRun (some r) s) ∨
      (∃ p, answerStroke who sent s = setPlayer (some p) s) ∨
      (∃ st, answerStroke who sent s = endLane .toll st (setTollRun none s)) ∨
      ∃ st, answerStroke who sent s = endLane .chime st (setPlayer none s) := by
  unfold answerStroke
  split
  · split
    · split
      · unfold answerToll
        dsimp only
        split
        · exact Or.inr (Or.inl ⟨_, rfl⟩)
        · exact Or.inr (Or.inr (Or.inr (Or.inl ⟨_, rfl⟩)))
      · exact Or.inl rfl
    · exact Or.inl rfl
  · split
    · split
      · unfold answerHour
        dsimp only
        split
        · exact Or.inr (Or.inr (Or.inl ⟨_, rfl⟩))
        · exact Or.inr (Or.inr (Or.inr (Or.inr ⟨_, rfl⟩)))
      · exact Or.inl rfl
    · exact Or.inl rfl
  · exact Or.inl rfl

/-- A property that the toll and the player do not move, and the end of a chime or toll entry keeps, the answer to a stroke keeps. -/
theorem answerStroke_keeps (hrun : ∀ r s, P s → P (setTollRun r s)) (hplayer : ∀ p s, P s → P (setPlayer p s))
    (hend : ∀ lane st s, lane ≠ .peal → P s → P (endLane lane st s)) (who : Requester) (sent : Bool) (s : State) (h : P s) :
    P (answerStroke who sent s) := by
  rcases answerStroke_cases who sent s with heq | ⟨r, heq⟩ | ⟨p, heq⟩ | ⟨st, heq⟩ | ⟨st, heq⟩
  · rwa [heq]
  · rw [heq]; exact hrun _ _ h
  · rw [heq]; exact hplayer _ _ h
  · rw [heq]; exact hend _ _ _ Lane.noConfusion (hrun _ _ h)
  · rw [heq]; exact hend _ _ _ Lane.noConfusion (hplayer _ _ h)

end Sys2Proof.Performance
end

section
/-! PROOFS. A free lane takes its first entry: a tune, a strike, a toll (R85, R89, R147, R148, R150). -/

namespace Sys2Proof.Performance

open Sys2Proof Sys2Proof.Machine Sys2Proof.Time

variable {s t : State} {lane : Lane} {k : Key} {e : Entry}

/-! ### The lane looks (R85) -/

/-- A lane that may look, and whose first entry to take is DUE and not covered. -/
structure Takes (s : State) (lane : Lane) (k : Key) (e : Entry) : Prop where
  runs : running s = true
  settled : settlePeal s = s
  looks : mayLook lane s = true
  first : ∃ ks, keysWhere (takeable s lane) s = k :: ks
  found : findEntry k (entriesOf s) = some e
  due : e.state = .due
  uncovered : covered s e = false

/-- The state in which the entry is ACTIVE and the lane's, and its performance begins. -/
def takenBy (lane : Lane) (k : Key) (s : State) : State :=
  { setLane lane (some k) (updToday (setState k .active) s) with
    lanes :=
      { (setLane lane (some k) (updToday (setState k .active) s)).lanes with
        serial := (setLane lane (some k) (updToday (setState k .active) s)).lanes.serial + 1 } }

theorem Takes.key (h : Takes s lane k e) : e.key = k := (findEntry_mem h.found).2

theorem exec_laneTakesEntry (h : Takes s lane k e) :
    exec (.laneTakesEntry lane) s = .next (settlePeal (perform e (takenBy lane k s))) := by
  obtain ⟨ks, hks⟩ := h.first
  change execLaneTakesEntry lane s = _
  rw [execLaneTakesEntry, event_running h.runs, laneTakes, if_pos h.looks, lookFor, hks, examine, h.found]
  dsimp only
  rw [if_neg (by simp [h.due]), if_neg (by simp [h.uncovered]), activate, h.key]
  rfl

/-! ### The entry taken -/

theorem takenBy_same (lane : Lane) (k : Key) (s : State) :
    (takenBy lane k s).bells = s.bells ∧ (takenBy lane k s).peal = s.peal ∧ (takenBy lane k s).line = s.line ∧
      (takenBy lane k s).lights = s.lights ∧ (takenBy lane k s).table = s.table ∧ (takenBy lane k s).attn = s.attn ∧
      (takenBy lane k s).tunes = s.tunes ∧ (takenBy lane k s).elapsed = s.elapsed := by
  cases lane <;> exact ⟨rfl, rfl, rfl, rfl, rfl, rfl, rfl, rfl⟩

theorem takenBy_lane (lane : Lane) (k : Key) (s : State) : laneKey (takenBy lane k s) lane = some k := by
  cases lane <;> rfl

theorem takenBy_entries (lane : Lane) (k : Key) (s : State) : entriesOf (takenBy lane k s) = setState k .active (entriesOf s) := by
  cases lane <;> rfl

theorem tower_takenBy (lane : Lane) (k : Key) (s : State) : towerView (takenBy lane k s) = towerView s := by
  rw [takenBy, tower_lanes, tower_setLane, tower_updToday]

theorem Takes.active (h : Takes s lane k e) :
    (findEntry k (entriesOf (takenBy lane k s))).map Entry.state = some .active := by
  rw [takenBy_entries]
  exact state_setState _ ⟨e, h.found⟩

theorem Takes.found_taken (h : Takes s lane k e) : ∃ x, findEntry k (entriesOf (takenBy lane k s)) = some x := by
  rw [takenBy_entries]
  exact ⟨_, findEntry_setState_self h.found⟩

/-- The record performed is that of the slot. -/
theorem perform_eq (h : Takes s lane k e) {a : Action} (ha : (recordAt s k.slot).map Record.action = some a) :
    (recordAt (takenBy lane k s) e.key.slot).map Record.action = some a := by
  rw [recordAt_of_tower (tower_takenBy lane k s), h.key, ha]

theorem perform_tune (h : Takes s lane k e) {n : TuneNo} {plays : Nat}
    (ha : (recordAt s k.slot).map Record.action = some (.tune n plays)) :
    perform e (takenBy lane k s) = takeTune n plays (takenBy lane k s) := by
  rw [perform, perform_eq h ha]

theorem perform_strike (h : Takes s lane k e) {bell : Station} {interval : Nat} {t15 t30 t45 t00 : Option TuneNo} {hours : Bool}
    (ha : (recordAt s k.slot).map Record.action = some (.strike bell interval t15 t30 t45 t00 hours)) :
    perform e (takenBy lane k s)
      = takeStrike (quarterTune t15 t30 t45 t00 k.sub) bell interval (hourStrokes k.sub hours) (takenBy lane k s) := by
  rw [perform, perform_eq h ha, h.key]

theorem perform_toll (h : Takes s lane k e) {bell : Station} {interval strokes : Nat}
    (ha : (recordAt s k.slot).map Record.action = some (.toll bell interval strokes)) :
    perform e (takenBy lane k s) = takeToll bell interval strokes (takenBy lane k s) := by
  rw [perform, perform_eq h ha]

theorem perform_peal (h : Takes s lane k e) {bells : BellSet} {minutes : Nat}
    (ha : (recordAt s k.slot).map Record.action = some (.peal bells minutes)) :
    perform e (takenBy lane k s) = takePeal bells (pealCovered (takenBy lane k s) e) minutes (takenBy lane k s) := by
  rw [perform, perform_eq h ha]

/-- Work of a performance that leaves the bells and the peal lets the peal stand. -/
theorem exec_takes (h : Takes s lane k e) {u : State} (hu : perform e (takenBy lane k s) = u)
    (hp : u.peal = s.peal) (hb : u.bells = s.bells) : exec (.laneTakesEntry lane) s = .next u := by
  rw [exec_laneTakesEntry h, hu, settlePeal_congr h.settled hp hb]

/-! ### Tunes and strikes (R147, R148, R150) -/

theorem setPlayer_player (p : Option Player) (s : State) : (setPlayer p s).tunes.player = p := rfl

theorem startPlay_skipped (n : TuneNo) (s : State) : (getTune (startPlay n s) n).skipped = 0 := by
  simp [startPlay, getTune]

theorem takeTune_skipped (n : TuneNo) (plays : Nat) (s : State) : (getTune (takeTune n plays s) n).skipped = 0 :=
  startPlay_skipped n _

theorem takeStrike_skipped (n : TuneNo) (bell : Station) (interval strokes : Nat) (s : State) :
    (getTune (takeStrike (some n) bell interval strokes s) n).skipped = 0 :=
  startPlay_skipped n _

theorem exec_tuneTaken (h : Takes s .chime k e) {n : TuneNo} {plays : Nat}
    (ha : (recordAt s k.slot).map Record.action = some (.tune n plays)) :
    exec (.laneTakesEntry .chime) s = .next (takeTune n plays (takenBy .chime k s)) :=
  exec_takes h (perform_tune h ha) rfl rfl

section Strike

variable {bell : Station} {interval : Nat} {t15 t30 t45 t00 : Option TuneNo} {hours : Bool}
  (h : Takes s .chime k e) (ha : (recordAt s k.slot).map Record.action = some (.strike bell interval t15 t30 t45 t00 hours))
include h ha

/-- A STRIKE with a quarter tune. -/
theorem exec_quarterTaken {n : TuneNo} (hq : quarterTune t15 t30 t45 t00 k.sub = some n) :
    exec (.laneTakesEntry .chime) s
      = .next (takeStrike (some n) bell interval (hourStrokes k.sub hours) (takenBy .chime k s)) :=
  exec_takes h (by rw [perform_strike h ha, hq]) rfl rfl

/-- A STRIKE with hour strokes alone. -/
theorem exec_hoursTaken (hq : quarterTune t15 t30 t45 t00 k.sub = none) (hn : 0 < hourStrokes k.sub hours) :
    exec (.laneTakesEntry .chime) s
      = .next
        (setPlayer
          (some
            ⟨(takenBy .chime k s).lanes.serial, true, none, 1, 1, 0, s.elapsed, s.elapsed, bell, interval,
              hourStrokes k.sub hours, 0, 0, false, some s.elapsed⟩)
          (takenBy .chime k s)) := by
  refine exec_takes h ?_ rfl rfl
  rw [perform_strike h ha, hq, takeStrike]
  exact if_neg (by omega)

/-- A STRIKE with neither ends at once. -/
theorem exec_emptyStrike (hq : quarterTune t15 t30 t45 t00 k.sub = none) (hn : hourStrokes k.sub hours = 0) :
    exec (.laneTakesEntry .chime) s = .next (finalise k .done (setLane .chime none (takenBy .chime k s))) := by
  obtain ⟨hbells, -, -, hpeal, -⟩ := work_parts (work_finalise k .done (setLane .chime none (takenBy .chime k s)))
  refine exec_takes h ?_ hpeal hbells
  rw [perform_strike h ha, hq, takeStrike]
  exact if_pos hn

end Strike

/-! ### Tolls (R89) -/

/-- A peal hangs on where its bells are and whether they wait, and on no more. -/
theorem stays_congr {peal : Option PealRun} {bells bells' : Vector Bell 31} (h : PealStays peal bells)
    (hpos : ∀ st, (bells'.get st).pos = (bells.get st).pos)
    (hwait : ∀ st, (bells'.get st).waitingRaise = (bells.get st).waitingRaise) : PealStays peal bells' := by
  intro p hp
  simpa only [atRest, hpos, hwait] using h p hp

theorem stays_strokePlaced {st : Station} {x : Strength} {who : Requester} (h : PealStays s.peal s.bells) :
    settlePeal (strokePlaced st x who s) = strokePlaced st x who s := by
  refine settlePeal_stays (stays_congr (bells := s.bells) h (fun u => ?_) fun u => ?_)
  all_goals
    simp only [strokePlaced, updBell_bells, get_modify]
    split <;> rfl

theorem tower_strokePlaced (st : Station) (x : Strength) (who : Requester) (s : State) :
    towerView (strokePlaced st x who s) = towerView s := by
  rw [strokePlaced, tower_updBell, tower_placeOrder] <;> exact fun _ => rfl

/-- A toll begins with its first stroke on the line. -/
def tollBegun (bell : Station) (interval strokes : Nat) (s : State) : State :=
  strokePlaced bell .normal (.toll s.lanes.serial)
    (setTollRun (some ⟨s.lanes.serial, bell, interval, strokes, 1, false, none⟩) s)

theorem tower_tollBegun (bell : Station) (interval strokes : Nat) (s : State) :
    towerView (tollBegun bell interval strokes s) = towerView s :=
  (tower_strokePlaced ..).trans (tower_setTollRun ..)

theorem tollBegun_bell (bell : Station) (interval strokes : Nat) (s : State) :
    getBell (tollBegun bell interval strokes s) bell
      = { getBell s bell with nextFree := s.elapsed + (getBell s bell).recovery } :=
  strokePlaced_bell

theorem tollBegun_same (bell : Station) (interval strokes : Nat) (s : State) :
    (tollBegun bell interval strokes s).table = s.table ∧ (tollBegun bell interval strokes s).lights = s.lights := ⟨rfl, rfl⟩

/-- A TOLL's first stroke is placed. -/
theorem exec_tollTaken (h : Takes s .toll k e) {bell : Station} {interval strokes : Nat}
    (ha : (recordAt s k.slot).map Record.action = some (.toll bell interval strokes)) (hs : strikable (getBell s bell) = true)
    (hfree : (getBell s bell).nextFree ≤ s.elapsed) (hdef : (getBell s bell).deferred = []) (hline : lineAccepts s = true) :
    exec (.laneTakesEntry .toll) s = .next (tollBegun bell interval strokes (takenBy .toll k s)) := by
  have hplaced := requestStroke_placed (st := bell) (x := .normal) (who := .toll (takenBy .toll k s).lanes.serial)
    (s := setTollRun (some ⟨(takenBy .toll k s).lanes.serial, bell, interval, strokes, 1, false, none⟩) (takenBy .toll k s))
    hline hs hfree hdef
  have hstays : PealStays s.peal s.bells := stays_of_settlePeal h.settled
  rw [exec_laneTakesEntry h, perform_toll h ha, takeToll, hplaced, stays_strokePlaced, tollBegun]
  exact hstays

end Sys2Proof.Performance
end

section
/-! PROOFS. A peal is taken: each of its bells is raised or waits for its load (R90, R119, R127). -/

namespace Sys2Proof.Performance

open Sys2Proof Sys2Proof.Machine Sys2Proof.Time

variable {s t : State} {k : Key} {e : Entry} {st u : Station}

/-! ### The entry of the PEAL lane stands (R85, R87) -/

/-- The PEAL lane alone holds the entry of a key, which is ACTIVE. -/
structure HoldsPeal (k : Key) (s : State) : Prop where
  peal : s.lanes.peal = some k
  chime : s.lanes.chime ≠ some k
  toll : s.lanes.toll ≠ some k
  active : (findEntry k (entriesOf s)).map Entry.state = some .active

theorem findEntry_setState_other {k k' : Key} (st : EntryState) (h : k' ≠ k) (es : List Entry) :
    findEntry k (setState k' st es) = findEntry k es := by
  have hkey : ((fun e : Entry => e.key == k) ∘ fun e : Entry => if e.key = k' then { e with state := st } else e)
      = fun e => e.key == k := by
    funext e
    simp only [Function.comp_apply]
    split <;> rfl
  rw [findEntry, setState, List.find?_map, hkey]
  cases hfind : List.find? (fun e => e.key == k) es with
  | none => rw [findEntry, hfind]; rfl
  | some x =>
    have hx : x.key ≠ k' := fun heq => h (heq.symm.trans (findEntry_mem hfind).2)
    rw [findEntry, hfind]
    exact congrArg some (if_neg hx)

/-- The end of another lane's entry leaves it. -/
theorem HoldsPeal.endLane (h : HoldsPeal k s) {lane : Lane} (hlane : lane ≠ .peal) (st : EntryState) :
    HoldsPeal k (endLane lane st s) := by
  unfold Machine.endLane
  split
  · exact h
  · next k' hk' =>
    have hne : k' ≠ k := by
      rintro rfl
      cases lane with
      | chime => exact h.chime hk'
      | toll => exact h.toll hk'
      | peal => exact hlane rfl
    have hlanes : (finalise k' st (setLane lane none s)).lanes = (setLane lane none s).lanes := finalise_lanes ..
    have hactive : (findEntry k (entriesOf (finalise k' st (setLane lane none s)))).map Entry.state = some .active := by
      rw [finalise_entries, findEntry_setState_other _ hne, entriesOf, setLane_sheets]
      exact h.active
    cases lane with
    | chime => exact ⟨by rw [hlanes]; exact h.peal, by rw [hlanes]; exact nofun, by rw [hlanes]; exact h.toll, hactive⟩
    | toll => exact ⟨by rw [hlanes]; exact h.peal, by rw [hlanes]; exact h.chime, by rw [hlanes]; exact nofun, hactive⟩
    | peal => exact absurd rfl hlane

theorem holdsPeal_bellProof (k : Key) : BellProof (HoldsPeal k) where
  bell _ _ _ h := ⟨h.peal, h.chime, h.toll, h.active⟩
  line _ _ h := ⟨h.peal, h.chime, h.toll, h.active⟩
  lights _ _ h := ⟨h.peal, h.chime, h.toll, h.active⟩
  flag _ _ h := ⟨h.peal, h.chime, h.toll, h.active⟩
  answer := answerStroke_keeps (fun _ _ h => ⟨h.peal, h.chime, h.toll, h.active⟩)
    (fun _ _ h => ⟨h.peal, h.chime, h.toll, h.active⟩) fun _ st _ hlane h => h.endLane hlane st

/-! ### A raise is asked for (R119) -/

theorem admit_waiting {mains : MainsState} {m : Nat} {l l' : Lights} {shed : Bool}
    (h : admitLoad mains st m l = some (l', shed)) : l'.waiting = l.waiting := by
  have hshed : ∀ (enough : Lights → Bool) (fuel : Nat) (x : Lights), (shedUntil enough fuel x).waiting = x.waiting := by
    intro enough fuel
    induction fuel with
    | zero => exact fun _ => rfl
    | succ n ih =>
      intro x
      rw [shedUntil]
      split
      · rfl
      · rw [ih, shedStep]
        split <;> rfl
  unfold admitLoad at h
  split at h
  · cases h; rfl
  · split at h
    · cases h; exact hshed _ _ _
    · cases h

/-- A raise that is asked for: the bell holds a reservation and is raised, or its request waits for load. -/
theorem askRaise_cases (st : Station) (s : State) :
    (∃ a l, l.waiting = s.lights.waiting ∧
      askRaise st s = raiseNow st (updBell st (fun b => { b with reserving := true }) { s with attn := a, lights := l })) ∨
    askRaise st s
      = updBell st (fun b => { b with waitingRaise := true })
          (setLights { s.lights with waiting := s.lights.waiting ++ [(st, (getBell s st).load)] } s) := by
  unfold askRaise
  split
  · next hres =>
    refine Or.inl ⟨s.attn, s.lights, rfl, congrArg _ ?_⟩
    have hsame : modify s.bells st (fun b => { b with reserving := true }) = s.bells := by
      refine vector_ext_get fun i => ?_
      rw [get_modify]
      split
      · next hi => subst hi; rw [← hres]; rfl
      · rfl
    rw [updBell, hsame]
  · unfold askAdmission
    cases h : admitLoad s.mains st (getBell s st).load s.lights with
    | none => exact Or.inr rfl
    | some p =>
      obtain ⟨l, shed⟩ := p
      obtain ⟨a, ha⟩ := setFlagIf_eq shed .loadLimited (setLights l s)
      refine Or.inl ⟨a, l, admit_waiting h, ?_⟩
      dsimp only
      rw [ha]
      rfl

/-- A bell whose raise was asked for: it holds a reservation and is RAISING, or it is DOWN and waits for its load. -/
def RaiseAsked (s : State) (st : Station) : Prop :=
  (getBell s st).reserving = true ∧ (getBell s st).pos = .raising ∨
    (getBell s st).waitingRaise = true ∧ (getBell s st).pos = .down ∧ isWaiting s st = true

theorem only_raiseNow (st : Station) (s : State) : OnlyBell st s (raiseNow st s) :=
  only_enterPosition (only_makeOrder (OnlyBell.refl st s) _) _

/-- An admitted RAISE makes the bell RAISING and leaves its reservation (R119). -/
theorem raiseNow_bell (st : Station) (s : State) :
    (getBell (raiseNow st s) st).pos = .raising ∧ (getBell (raiseNow st s) st).reserving = (getBell s st).reserving := by
  have hmade := bellCore_makeOrder (st := st) (s := s) .raise
  have hraised := bellCore_enterPosition (st := st) (s := makeOrder st .raise s) .raising
  simp only [bellCore, positionFields, Bell.mk.injEq] at hmade hraised
  rw [raiseNow]
  simp [hmade, hraised]

/-- What asking for a bell's raise leaves of the others, and of the waiting list. -/
structure Asked (st : Station) (s t : State) : Prop where
  others : ∀ u, u ≠ st → getBell t u = getBell s u
  waiting : ∀ u, isWaiting s u = true → isWaiting t u = true

theorem getBell_updBell_other {f : Bell → Bell} (h : u ≠ st) : getBell (updBell st f s) u = getBell s u := by
  simp [getBell, Ne.symm h]

theorem asked_askRaise (st : Station) (s : State) : Asked st s (askRaise st s) := by
  rcases askRaise_cases st s with ⟨a, l, hwaiting, heq⟩ | heq
  · have honly := only_raiseNow st (updBell st (fun b => { b with reserving := true }) { s with attn := a, lights := l })
    rw [heq]
    refine ⟨fun u hu => (honly.others u hu).trans (getBell_updBell_other hu), fun u hu => ?_⟩
    rw [isWaiting, honly.lights]
    change l.waiting.any _ = true
    rw [hwaiting]
    exact hu
  · rw [heq]
    refine ⟨fun u hu => getBell_updBell_other hu, fun u hu => ?_⟩
    change (s.lights.waiting ++ _).any _ = true
    rw [List.any_append, Bool.or_eq_true]
    exact Or.inl hu

/-- A DOWN bell whose raise is asked for is RAISING, or waits. -/
theorem raiseAsked_askRaise (hdown : (getBell s st).pos = .down) : RaiseAsked (askRaise st s) st := by
  rcases askRaise_cases st s with ⟨a, l, -, heq⟩ | heq
  · obtain ⟨hpos, hres⟩ := raiseNow_bell st (updBell st (fun b => { b with reserving := true }) { s with attn := a, lights := l })
    rw [getBell_updBell_self] at hres
    rw [heq]
    exact Or.inl ⟨hres, hpos⟩
  · rw [heq]
    refine Or.inr ?_
    rw [getBell_updBell_self]
    refine ⟨rfl, hdown, ?_⟩
    change (s.lights.waiting ++ _).any _ = true
    simp

theorem RaiseAsked.after (h : RaiseAsked s u) (hne : u ≠ st) (ha : Asked st s t) : RaiseAsked t u := by
  unfold RaiseAsked
  rw [ha.others u hne]
  exact h.imp_right fun ⟨hraise, hpos, hwait⟩ => ⟨hraise, hpos, ha.waiting u hwait⟩

/-- The raises of a list of DOWN bells are asked for, one after another. -/
theorem raisesAsked (xs : List Station) (hn : xs.Nodup) (hdown : ∀ st ∈ xs, (getBell s st).pos = .down) :
    (∀ st ∈ xs, RaiseAsked (xs.foldl (fun acc st => askRaise st acc) s) st) ∧
      (∀ st, st ∉ xs → getBell (xs.foldl (fun acc st => askRaise st acc) s) st = getBell s st) ∧
      ∀ st, st ∉ xs → RaiseAsked s st → RaiseAsked (xs.foldl (fun acc st => askRaise st acc) s) st := by
  induction xs generalizing s with
  | nil => exact ⟨nofun, fun _ _ => rfl, fun _ _ h => h⟩
  | cons x xs ih =>
    obtain ⟨hx, hn⟩ := List.nodup_cons.1 hn
    have ha := asked_askRaise x s
    have hneq : ∀ st ∈ xs, st ≠ x := fun st hst heq => hx (heq ▸ hst)
    obtain ⟨hall, hrest, hkeep⟩ := ih (s := askRaise x s) hn fun st hst => by
      rw [ha.others st (hneq st hst)]
      exact hdown st (List.mem_cons_of_mem _ hst)
    refine ⟨fun st hst => ?_, fun st hst => ?_, fun st hst h => ?_⟩
    · rcases List.mem_cons.1 hst with rfl | hst
      · exact hkeep _ hx (raiseAsked_askRaise (hdown _ List.mem_cons_self))
      · exact hall st hst
    · rw [List.mem_cons, not_or] at hst
      exact (hrest st hst.2).trans (ha.others st hst.1)
    · rw [List.mem_cons, not_or] at hst
      exact hkeep st hst.2 (h.after hst.1 ha)

theorem askRaise_keeps {P : State → Prop} (hP : BellProof P) (st : Station) (h : P s) : P (askRaise st s) := by
  unfold askRaise askAdmission
  split
  · exact hP.raiseNow st h
  · cases admitLoad s.mains st (getBell s st).load s.lights with
    | none => exact hP.bell _ _ _ (hP.lights _ _ h)
    | some p => exact hP.raiseNow st (hP.bell _ _ _ (hP.flagIf _ _ (hP.lights _ _ h)))

theorem askRaise_peal (st : Station) (s : State) : (askRaise st s).peal = s.peal := by
  rcases askRaise_cases st s with ⟨a, l, -, heq⟩ | heq
  · rw [heq]
    exact ((bellWork_makeOrder _ _).trans (bellWork_enterPosition _ _)).peal
  · rw [heq]
    rfl

/-! ### The peal begins (R127) -/

theorem eligible_down {cov : BellSet} (h : eligible s cov st = true) : (getBell s st).pos = .down := by
  simp only [eligible, Bool.and_eq_true, beq_iff_eq] at h
  exact h.1.1.2

theorem nodup_bellsOf (set : BellSet) : (bellsOf set).Nodup := stations_nodup.filter _

/-- A peal stays raising while a bell of it is RAISING or DOWN. -/
theorem raising_stays {p : PealRun} (hp : s.peal = some p) (hphase : p.phase = .raising) (hne : p.held ≠ [])
    (hasked : ∀ st ∈ p.held, RaiseAsked s st) : PealStays s.peal s.bells := by
  intro q hq
  obtain rfl : p = q := Option.some.inj (hp.symm.trans hq)
  rw [hphase]
  refine ⟨fun _ => ⟨hne, ?_⟩, nofun, nofun⟩
  obtain ⟨x, xs, hheld⟩ := List.exists_cons_of_ne_nil hne
  have hx : RaiseAsked s x := hasked x (by rw [hheld]; exact List.mem_cons_self)
  have hup : (getBell s x).pos ≠ .up := by
    rcases hx with ⟨-, hpos⟩ | ⟨-, hpos, -⟩ <;> rw [hpos] <;> exact Position.noConfusion
  have hbeq : ((s.bells.get x).pos == .up) = false := beq_eq_false_iff_ne.2 hup
  rw [hheld, List.all_cons, hbeq]
  rfl

/-- The run of a peal at its taking. -/
def newPeal (held : List Station) (bells : BellSet) (minutes : Nat) (s : State) : PealRun :=
  ⟨held, decide (held ≠ bellsOf bells), .raising, some (s.elapsed + 120000), none, minutes⟩

/-- The state in which a taken peal's bells have been asked to rise. -/
def pealTaken (held : List Station) (bells : BellSet) (minutes : Nat) (k : Key) (s : State) : State :=
  held.foldl (fun acc st => askRaise st acc) { takenBy .peal k s with peal := some (newPeal held bells minutes s) }

theorem pealTaken_peal (held : List Station) (bells : BellSet) (minutes : Nat) (k : Key) (s : State) :
    (pealTaken held bells minutes k s).peal = some (newPeal held bells minutes s) :=
  foldl_view State.peal _ (fun u st => askRaise_peal st u) _ _

section Peal

variable {bells : BellSet} {minutes : Nat} {held : List Station}
  (hheld : held = (bellsOf bells).filter (eligible s (pealCovered (updToday (setState k .active) s) e)))
include hheld

theorem pealTaken_bells :
    (∀ st ∈ held, RaiseAsked (pealTaken held bells minutes k s) st) ∧
      ∀ st, st ∉ held → getBell (pealTaken held bells minutes k s) st = getBell s st := by
  have hn : held.Nodup := by rw [hheld]; exact (nodup_bellsOf bells).filter _
  have hdown : ∀ st ∈ held, (getBell { takenBy .peal k s with peal := some (newPeal held bells minutes s) } st).pos = .down :=
    fun st hst => eligible_down (List.mem_filter.1 (hheld ▸ hst)).2
  obtain ⟨hasked, hrest, -⟩ := raisesAsked held hn hdown
  exact ⟨hasked, hrest⟩

theorem pealTaken_settled (hne : held ≠ []) :
    settlePeal (pealTaken held bells minutes k s) = pealTaken held bells minutes k s :=
  settlePeal_stays (raising_stays (pealTaken_peal ..) rfl hne (pealTaken_bells hheld).1)

variable (h : Takes s .peal k e) (ha : (recordAt s k.slot).map Record.action = some (.peal bells minutes))
include h ha

/-- With no bell to hold the entry is WITHHELD. -/
theorem exec_pealWithheld (hempty : held = []) :
    exec (.laneTakesEntry .peal) s = .next (finalise k .withheld (setLane .peal none (takenBy .peal k s))) := by
  obtain ⟨hbells, -, -, hpeal, -⟩ := work_parts (work_finalise k .withheld (setLane .peal none (takenBy .peal k s)))
  refine exec_takes h ?_ hpeal hbells
  rw [perform_peal h ha, takePeal]
  exact if_pos (hheld.symm.trans hempty)

/-- With bells to hold the peal begins. -/
theorem exec_pealTaken (hne : held ≠ []) :
    exec (.laneTakesEntry .peal) s = .next (pealTaken held bells minutes k s) := by
  have hform : perform e (takenBy .peal k s) = settlePeal (pealTaken held bells minutes k s) := by
    rw [perform_peal h ha, takePeal]
    refine (if_neg fun hnil => hne (hheld.trans hnil)).trans ?_
    subst hheld
    rfl
  rw [exec_laneTakesEntry h, hform, pealTaken_settled hheld hne, pealTaken_settled hheld hne]

end Peal

/-- Where no other lane holds the entry, the PEAL lane holds it throughout. -/
theorem holdsPeal_taken (h : Takes s .peal k e) (hchime : laneKey s .chime ≠ some k) (htoll : laneKey s .toll ≠ some k)
    (held : List Station) (bells : BellSet) (minutes : Nat) : HoldsPeal k (pealTaken held bells minutes k s) :=
  foldl_keeps (HoldsPeal k) _ (fun _ st hu => askRaise_keeps (holdsPeal_bellProof k) st hu) _ _
    ⟨rfl, hchime, htoll, h.active⟩

theorem tower_pealTaken (held : List Station) (bells : BellSet) (minutes : Nat) (k : Key) (s : State) :
    towerView (pealTaken held bells minutes k s) = towerView s :=
  (foldl_view towerView _ (fun u st => tower_askRaise u st) _ _).trans ((tower_peal _ _).trans (tower_takenBy ..))

/-- Settles O35: each lane by the record of the entry it takes. -/
theorem lanesTakeEntries : Obligations.LanesTakeEntries := by
  intro s lane k ks e hr hsettled hlook hkeys hfind hdue hcov
  have h : Takes s lane k e := ⟨hr, hsettled, hlook, ⟨ks, hkeys⟩, hfind, hdue, hcov⟩
  refine ⟨fun n plays hlane ha => ?_, fun bell interval t15 t30 t45 t00 hours hlane ha hq hn => ?_,
    fun bell interval t15 t30 t45 t00 hours hlane ha => ⟨fun n hq => ?_, fun hq hn => ?_⟩,
    fun bell interval strokes hlane ha hs hfree hdef hline => ?_,
    fun bells minutes held hlane hnone ha hheld => ⟨fun hempty => ?_, fun hne hchime htoll => ?_⟩⟩ <;> subst hlane
  · obtain ⟨hbells, -, hline, hlights, htable, hattn, -⟩ := takenBy_same .chime k s
    exact ⟨_, exec_tuneTaken h ha, rfl, h.active, ⟨_, rfl, rfl, rfl, rfl, rfl, rfl, rfl⟩, takeTune_skipped ..,
      (tower_takeTune ..).trans (tower_takenBy ..), hbells, hline, htable, hlights, hattn⟩
  · obtain ⟨hbells, -, hline, hlights, htable, -⟩ := takenBy_same .chime k s
    exact ⟨_, exec_hoursTaken h ha hq hn, rfl, h.active, ⟨_, setPlayer_player .., rfl, rfl, rfl, rfl, rfl, rfl, rfl⟩,
      (tower_setPlayer ..).trans (tower_takenBy ..), hbells, hline, htable, hlights⟩
  · obtain ⟨hbells, -, hline, hlights, htable, -⟩ := takenBy_same .chime k s
    exact ⟨_, exec_quarterTaken h ha hq, rfl, h.active,
      ⟨_, rfl, rfl, rfl, rfl, rfl, rfl, rfl, rfl, rfl, rfl, rfl, rfl⟩, takeStrike_skipped ..,
      (tower_takeStrike ..).trans (tower_takenBy ..), hbells, hline, htable, hlights⟩
  · obtain ⟨hbells, hline, hlights, -⟩ := work_parts (work_finalise k .done (setLane .chime none (takenBy .chime k s)))
    have hlanes : (finalise k .done (setLane .chime none (takenBy .chime k s))).lanes.chime = none := by rw [finalise_lanes]; rfl
    refine ⟨_, exec_emptyStrike h ha hq hn, hlanes, state_finalise _ h.found_taken, fun hi => ?_, finalise_tunes .., ?_, hbells,
      hline, hlights, finalise_attn _ EntryState.noConfusion _⟩
    · obtain ⟨day, hlast, hperformed, -⟩ :=
        outcome_finalise (s := setLane .chime none (takenBy .chime k s)) .done h.found_taken hi
      exact ⟨hlast, hperformed⟩
    · rw [tower_finalise, tower_setLane, tower_takenBy]
  · obtain ⟨-, -, -, hlights, htable, -⟩ := takenBy_same .toll k s
    obtain ⟨htable', hlights'⟩ := tollBegun_same bell interval strokes (takenBy .toll k s)
    exact ⟨_, exec_tollTaken h ha hs hfree hdef hline, rfl, h.active, ⟨_, rfl, rfl, rfl, rfl, rfl, strokePlaced_queue⟩,
      tollBegun_bell .., (tower_tollBegun ..).trans (tower_takenBy ..), htable'.trans htable, hlights'.trans hlights⟩
  · obtain ⟨hbells, hline, hlights, hpeal, -⟩ := work_parts (work_finalise k .withheld (setLane .peal none (takenBy .peal k s)))
    have hlanes : (finalise k .withheld (setLane .peal none (takenBy .peal k s))).lanes.peal = none := by rw [finalise_lanes]; rfl
    refine ⟨_, exec_pealWithheld hheld h ha hempty, hlanes, hpeal.trans hnone, state_finalise _ h.found_taken, hbells, hline,
      hlights, ?_⟩
    rw [tower_finalise, tower_setLane, tower_takenBy]
  · obtain ⟨hasked, hrest⟩ := pealTaken_bells (minutes := minutes) hheld
    have hholds := holdsPeal_taken h hchime htoll held bells minutes
    exact ⟨_, exec_pealTaken hheld h ha hne, hholds.peal, hholds.active, pealTaken_peal .., hasked, hrest, tower_pealTaken ..⟩

end Sys2Proof.Performance
end

section
/-! PROOFS. Properties that the work of the lanes keeps as they are cut, and that a peal keeps as it goes on (R88, R94, R128, R129). -/

namespace Sys2Proof.Mains

open Sys2Proof Sys2Proof.Machine Sys2Proof.Time Sys2Proof.Performance

variable {P : State → Prop} {s t : State}

/-- A property that bells, orders, loads, flags, the toll, the player and the peal do not move, and that a freed lane and the end of an
entry keep. -/
structure LaneProof (P : State → Prop) : Prop where
  bell : ∀ st f s, P s → P (updBell st f s)
  line : ∀ f s, P s → P (updLine f s)
  lights : ∀ l s, P s → P (setLights l s)
  flag : ∀ g s, P s → P (setFlag g s)
  run : ∀ r s, P s → P (setTollRun r s)
  player : ∀ p s, P s → P (setPlayer p s)
  peal : ∀ p s, P s → P { s with peal := p }
  free : ∀ lane s, P s → P (setLane lane none s)
  final : ∀ k st s, P s → P (finalise k st s)

section Work

variable (hP : LaneProof P)
include hP

theorem LaneProof.endLane (lane : Lane) (st : EntryState) (h : P s) : P (endLane lane st s) := by
  unfold Machine.endLane
  split
  · exact h
  · exact hP.final _ _ _ (hP.free _ _ h)

theorem LaneProof.bells : BellProof P where
  bell := hP.bell
  line := hP.line
  lights := hP.lights
  flag := hP.flag
  answer := answerStroke_keeps hP.run hP.player fun lane st _ _ h => hP.endLane lane st h

theorem LaneProof.stopLane (lane : Lane) (h : P s) : P (stopLane lane s) := by
  unfold Machine.stopLane
  split
  · exact hP.free _ _ (hP.player _ _ h)
  · exact hP.free _ _ (hP.run _ _ h)
  · refine hP.free _ _ ?_
    unfold cutPeal
    split
    · exact h
    · exact foldl_keeps P _ (fun _ st hu => hP.bells.putDown st hu) _ _ (hP.peal _ _ h)

theorem LaneProof.cutLane (lane : Lane) (h : P s) : P (cutLane lane s) := by
  unfold Machine.cutLane
  split
  · exact h
  · exact hP.final _ _ _ (hP.stopLane lane h)

theorem LaneProof.cutAllLanes (h : P s) : P (cutAllLanes s) := foldl_keeps P _ (fun _ lane hu => hP.cutLane lane hu) _ _ h

theorem LaneProof.endIfLowered (p : PealRun) (h : P s) : P (endIfLowered p s) := by
  unfold Machine.endIfLowered
  split
  · exact hP.endLane _ _ (hP.peal _ _ h)
  · exact h

theorem LaneProof.beginLowering (p : PealRun) (h : P s) : P (beginLowering p s) := by
  refine hP.endIfLowered _ (foldl_keeps P _ (fun u st hu => ?_) _ _ (hP.peal _ _ h))
  split
  · exact hP.bells.orderLower st hu
  · exact hu

theorem LaneProof.settlePeal (h : P s) : P (settlePeal s) := by
  unfold Machine.settlePeal
  repeat' split
  · exact h
  · exact hP.beginLowering _ h
  · exact hP.peal _ _ h
  · exact h
  · exact h
  · exact hP.beginLowering _ h
  · exact hP.endIfLowered _ h

end Work

/-- A flag that is set stays set. -/
theorem flag_laneProof (f : AttnFlag) : LaneProof fun s => flagSet s.attn f = true where
  bell _ _ _ h := h
  line _ _ h := h
  lights _ _ h := h
  flag _ _ h := flagSet_setFlag _ _ h
  run _ _ h := h
  player _ _ h := h
  peal _ _ h := h
  free _ _ h := by rwa [setLane_attn]
  final _ _ _ h := (calm_finalise _ _).flags f h

/-- A lane that is FREE stays FREE. -/
theorem free_laneProof (lane : Lane) : LaneProof fun s => laneKey s lane = none where
  bell _ _ _ h := by cases lane <;> exact h
  line _ _ h := by cases lane <;> exact h
  lights _ _ h := by cases lane <;> exact h
  flag _ _ h := by cases lane <;> exact h
  run _ _ h := by cases lane <;> exact h
  player _ _ h := by cases lane <;> exact h
  peal _ _ h := by cases lane <;> exact h
  free lane' _ h := by
    rw [laneKey_setLane]
    split
    · rfl
    · exact h
  final _ _ _ h := ((calm_finalise _ _).lane lane).trans h

/-- What no work of the lanes and bells moves: the clock, the overrides, the port, the dials, the mains state and the time that has
elapsed. -/
structure Steady (s t : State) : Prop where
  time : t.time = s.time
  overrides : t.overrides = s.overrides
  port : t.port = s.port
  dials : t.dials = s.dials
  mains : t.mains = s.mains
  elapsed : t.elapsed = s.elapsed

theorem Steady.refl (s : State) : Steady s s := ⟨rfl, rfl, rfl, rfl, rfl, rfl⟩

theorem Steady.trans {u : State} (h : Steady s t) (h' : Steady t u) : Steady s u :=
  ⟨h'.time.trans h.time, h'.overrides.trans h.overrides, h'.port.trans h.port, h'.dials.trans h.dials, h'.mains.trans h.mains,
    h'.elapsed.trans h.elapsed⟩

theorem steady_of_tower (h : towerView t = towerView s) : Steady s t :=
  ⟨congrArg TowerView.time h, congrArg TowerView.overrides h, congrArg TowerView.port h, congrArg TowerView.dials h,
    congrArg TowerView.mains h, congrArg TowerView.elapsed h⟩

end Sys2Proof.Mains
end

section
/-! PROOFS. The dials one by one, as they are cut off, sensed and evaluated (R173, R179, R180). -/

namespace Sys2Proof.Mains

open Sys2Proof Sys2Proof.Machine Sys2Proof.Time Sys2Proof.Performance

variable {s : State}

/-- Work on each dial of a list, by a function that hangs on no dial. -/
theorem foldl_dials {f : DialNo → State → State} {g : DialNo → Dial → Dial}
    (hf : ∀ d ds, f d { s with dials := ds } = updDial d (g d) { s with dials := ds }) (xs : List DialNo) (hn : xs.Nodup)
    (ds : Vector Dial 4) :
    xs.foldl (fun acc d => f d acc) { s with dials := ds }
      = { s with dials := Vector.ofFn fun d => if d ∈ xs then g d (ds.get d) else ds.get d } := by
  induction xs generalizing ds with
  | nil =>
    have hsame : (Vector.ofFn fun d => if d ∈ ([] : List DialNo) then g d (ds.get d) else ds.get d) = ds :=
      vector_ext_get fun d => by simp
    rw [hsame]
    rfl
  | cons x xs ih =>
    obtain ⟨hx, hn⟩ := List.nodup_cons.1 hn
    rw [List.foldl_cons, hf]
    have hstep : updDial x (g x) { s with dials := ds } = { s with dials := modify ds x (g x) } := rfl
    rw [hstep, ih hn]
    congr 1
    refine vector_ext_get fun d => ?_
    simp only [get_ofFn, get_modify, List.mem_cons]
    by_cases hdx : x = d
    · subst hdx
      simp [hx]
    · simp [hdx, Ne.symm hdx]

theorem mem_allDials (d : DialNo) : d ∈ allDials := List.mem_finRange d

/-- Work on every dial. -/
theorem getDial_foldl_all {f : DialNo → State → State} {g : DialNo → Dial → Dial}
    (hf : ∀ d ds, f d { s with dials := ds } = updDial d (g d) { s with dials := ds }) (d : DialNo) :
    getDial (allDials.foldl (fun acc d => f d acc) s) d = g d (getDial s d) := by
  have h := foldl_dials hf allDials (List.nodup_finRange 4) s.dials
  change allDials.foldl (fun acc d => f d acc) s = _ at h
  rw [h, getDial, get_ofFn, if_pos (mem_allDials d)]
  rfl

theorem updDial_id {d : DialNo} {f : Dial → Dial} (h : f (getDial s d) = getDial s d) : updDial d f s = s := by
  have hsame : modify s.dials d f = s.dials := by
    refine vector_ext_get fun i => ?_
    rw [get_modify]
    split
    · next hi => subst hi; exact h
    · rfl
  rw [updDial, hsame]

theorem updDial_congr {d : DialNo} {f g : Dial → Dial} (h : f (getDial s d) = g (getDial s d)) : updDial d f s = updDial d g s := by
  have hsame : modify s.dials d f = modify s.dials d g := congrArg (put s.dials d) h
  rw [updDial, hsame]
  rfl

/-- A dial after an evaluation (R173). -/
def evaluatedDial (s : State) (d : DialNo) (x : Dial) : Dial :=
  if x.impulse.isSome then x
  else
    evaluatedFields s.elapsed (lagOf (dialTarget s.time) x.hand)
      (dialStateOf x s.mains s.time.valid (dialHeld s d) (lagOf (dialTarget s.time) x.hand)) x

theorem evaluate_eq (d : DialNo) (s : State) : evaluate d s = updDial d (evaluatedDial s d) s := by
  unfold evaluate
  dsimp only
  split
  · next h =>
    have hsame : evaluatedDial s d (getDial s d) = getDial s d := if_pos h
    exact (updDial_id hsame).symm
  · next h => exact updDial_congr (if_neg h).symm

theorem getDial_evaluateAll (s : State) (d : DialNo) : getDial (evaluateAll s) d = evaluatedDial s d (getDial s d) :=
  getDial_foldl_all (s := { s with lastTarget := dialTarget s.time }) (g := evaluatedDial s) (fun d _ => evaluate_eq d _) d

/-- A dial after a sensing (R179). -/
def sensedDial (s : State) (d : DialNo) (x : Dial) : Dial :=
  if x.present = false then x
  else if x.impulse.isSome then { x with senseAtEnd := true }
  else { x with sensedOpen := s.pins.circuitsOpen.get d }

theorem senseDial_eq (d : DialNo) (s : State) : senseDial d s = updDial d (sensedDial s d) s := by
  unfold senseDial
  dsimp only
  split
  · next h =>
    have hsame : sensedDial s d (getDial s d) = getDial s d := if_pos h
    exact (updDial_id hsame).symm
  · next h =>
    split
    · next h' => exact updDial_congr ((if_neg h).trans (if_pos h')).symm
    · next h' => exact updDial_congr ((if_neg h).trans (if_neg h')).symm

theorem getDial_senseAll (s : State) (d : DialNo) : getDial (senseAll s) d = sensedDial s d (getDial s d) :=
  getDial_foldl_all (g := sensedDial s) (fun d _ => senseDial_eq d _) d

theorem getDial_cutImpulses (s : State) (d : DialNo) : getDial (cutImpulses s) d = cutImpulse (getDial s d) :=
  getDial_foldl_all (f := fun d acc => updDial d cutImpulse acc) (g := fun _ => cutImpulse) (fun _ _ => rfl) d

/-- Cutting off and sensing work on the dials alone. -/
theorem cutImpulses_dials (s : State) : ∃ ds, cutImpulses s = { s with dials := ds } :=
  ⟨_, foldl_dials (f := fun d acc => updDial d cutImpulse acc) (g := fun _ => cutImpulse) (fun _ _ => rfl) allDials
    (List.nodup_finRange 4) s.dials⟩

theorem senseAll_dials (s : State) : ∃ ds, senseAll s = { s with dials := ds } :=
  ⟨_, foldl_dials (g := sensedDial s) (fun d _ => senseDial_eq d _) allDials (List.nodup_finRange 4) s.dials⟩

/-- An evaluation leaves the hands, the polarity, what is sensed and a dial with no impulse without one (R173). -/
theorem evaluatedDial_keeps (s : State) (d : DialNo) (x : Dial) :
    (evaluatedDial s d x).impulse = x.impulse ∧ (evaluatedDial s d x).hand = x.hand ∧
      (evaluatedDial s d x).polarity = x.polarity ∧ (evaluatedDial s d x).sensedOpen = x.sensedOpen := by
  unfold evaluatedDial
  split <;> exact ⟨rfl, rfl, rfl, rfl⟩

/-- While mains is absent no dial needs an impulse (R173, R180). -/
theorem needsImpulse_absent {x : Dial} {valid held : Bool} {lag : Nat} :
    needsImpulse (dialStateOf x .absent valid held lag) lag = false := by
  unfold dialStateOf
  repeat' split
  all_goals first | rfl | contradiction

theorem evaluatedDial_absent (hm : s.mains = .absent) {d : DialNo} {x : Dial} (h : x.impulse = none) :
    (evaluatedDial s d x).due = none := by
  rw [evaluatedDial, if_neg (by simp [h]), evaluatedFields, hm, needsImpulse_absent]
  rfl

end Sys2Proof.Mains
end

section
/-! PROOFS. Mains loss: the lanes are cut, the bells given back, the queue emptied, the impulses cut off and the zones off (R94, R135, R167,
R180, R191). -/

namespace Sys2Proof.Mains

open Sys2Proof Sys2Proof.Machine Sys2Proof.Time Sys2Proof.Performance

variable {s t : State} {st : Station}

/-! ### The account stands (R119, R186, R191) -/

/-- The zones, the reservations, and which bells are marked reserving. -/
def accountView (s : State) : Vector Zone 8 × Vector (Option Nat) 31 × Vector Bool 31 :=
  (s.lights.zones, s.lights.reserv, s.bells.map Bell.reserving)

theorem account_of (hl : ({ t.lights with waiting := [] } : Lights) = { s.lights with waiting := [] })
    (hb : ∀ u, (getBell t u).reserving = (getBell s u).reserving) : accountView t = accountView s := by
  have hbells : t.bells.map Bell.reserving = s.bells.map Bell.reserving := vector_ext_get fun u => by
    rw [get_map, get_map]
    exact hb u
  have hzones : t.lights.zones = s.lights.zones := by
    have := congrArg Lights.zones hl
    exact this
  have hreserv : t.lights.reserv = s.lights.reserv := by
    have := congrArg Lights.reserv hl
    exact this
  rw [accountView, accountView, hbells, hzones, hreserv]

theorem account_updBell (f : Bell → Bell) (h : ∀ b, (f b).reserving = b.reserving) : accountView (updBell st f s) = accountView s :=
  account_of rfl fun u => by
    by_cases hu : u = st
    · subst hu; rw [getBell_updBell_self, h]
    · rw [getBell_updBell_other hu]

theorem account_of_only (h : OnlyBell st s t) (hres : (getBell t st).reserving = (getBell s st).reserving) :
    accountView t = accountView s :=
  account_of (by rw [h.lights]) fun u => by
    by_cases hu : u = st
    · subst hu; exact hres
    · rw [h.others u hu]

theorem account_orderLower (st : Station) (s : State) : accountView (orderLower st s) = accountView s := by
  refine account_of_only (only_orderLower (OnlyBell.refl st s)) ?_
  have := bellCore_orderLower (st := st) (s := s)
  simp only [bellCore, positionFields, Bell.mk.injEq] at this
  simp [this]

theorem account_withdrawRequest (st : Station) (s : State) : accountView (withdrawRequest st s) = accountView s := by
  have hbell := account_updBell (st := st) (s := setLights { s.lights with waiting := s.lights.waiting.filter fun p => p.1 != st } s)
    (fun b => { b with waitingRaise := false }) fun _ => rfl
  rw [withdrawRequest, hbell]
  rfl

theorem account_putDown (st : Station) (s : State) : accountView (putDown st s) = accountView s := by
  unfold putDown
  dsimp only
  repeat' split
  · exact account_orderLower st s
  · exact account_withdrawRequest st s
  · rfl

theorem account_of_work (h : workView t = workView s) : accountView t = accountView s := by
  obtain ⟨hb, -, hl, -⟩ := work_parts h
  rw [accountView, accountView, hb, hl]

theorem account_stopLane (lane : Lane) (s : State) : accountView (stopLane lane s) = accountView s := by
  unfold stopLane
  split
  · rfl
  · rfl
  · unfold cutPeal
    split
    · rfl
    · exact foldl_view accountView _ (fun u st => account_putDown st u) _ _

theorem account_cutLane (lane : Lane) (s : State) : accountView (cutLane lane s) = accountView s := by
  unfold cutLane
  split
  · rfl
  · exact (account_of_work (work_finalise ..)).trans (account_stopLane lane s)

theorem account_cutAllLanes (s : State) : accountView (cutAllLanes s) = accountView s :=
  foldl_view accountView _ (fun u lane => account_cutLane lane u) _ _

theorem account_loseAllDeferred (s : State) : accountView (loseAllDeferred s) = accountView s := by
  refine foldl_view accountView _ (fun u st => account_of_only (only_loseDeferred (OnlyBell.refl st u)) ?_) _ _
  rw [getBell_loseDeferred]

/-! ### The lanes are cut (R94) -/

/-- A lane that is cut is FREE. -/
theorem cutLane_free (lane : Lane) (s : State) : laneKey (cutLane lane s) lane = none := by
  unfold cutLane
  split
  · assumption
  · refine (free_laneProof lane).final _ _ _ ?_
    cases lane <;> rfl

theorem cutAllLanes_free (s : State) (lane : Lane) : laneKey (cutAllLanes s) lane = none := by
  have hform : cutAllLanes s = cutLane .peal (cutLane .toll (cutLane .chime s)) := rfl
  rw [hform]
  cases lane with
  | chime => exact (free_laneProof .chime).cutLane _ ((free_laneProof .chime).cutLane _ (cutLane_free _ _))
  | toll => exact (free_laneProof .toll).cutLane _ (cutLane_free _ _)
  | peal => exact cutLane_free _ _

/-! ### The blocks one by one (R135, R167, R180, R191) -/

theorem LaneProof.loseAllDeferred {P : State → Prop} (hP : LaneProof P) (h : P s) : P (loseAllDeferred s) :=
  foldl_keeps P _ (fun _ st hu => hP.bells.loseDeferred st hu) _ _ h

theorem bell_withdrawRaises (s : State) (st : Station) : getBell (withdrawRaises s) st = getBell s st := rfl

theorem lights_withdrawRaises (s : State) :
    ({ (withdrawRaises s).lights with waiting := [] } : Lights) = { s.lights with waiting := [] } := rfl

theorem reserving_mainsLossFields (b : Bell) : (mainsLossFields b).reserving = b.reserving := rfl

/-- The bells at mains loss: each as R135 leaves it, and beside them the strokes, the waiting raises and the peal. -/
theorem bellsMainsLoss_bell (s : State) (st : Station) :
    getBell (bellsMainsLoss s) st = mainsLossFields (getBell (loseAllDeferred s) st) := by
  have hmapped : (bellsMainsLoss s).bells = (withdrawRaises (loseAllDeferred s)).bells.map mainsLossFields := by
    rw [bellsMainsLoss, setFlagIf_bells, mapBells_bells]
  rw [getBell, hmapped, get_map, ← bell_withdrawRaises (loseAllDeferred s), getBell]

theorem account_bellsMainsLoss (s : State) : accountView (bellsMainsLoss s) = accountView s := by
  refine (account_of (s := loseAllDeferred s) ?_ fun st => ?_).trans (account_loseAllDeferred s)
  · rw [bellsMainsLoss, setFlagIf_lights, mapBells_lights, lights_withdrawRaises]
  · rw [bellsMainsLoss_bell, reserving_mainsLossFields]

/-- What survives the bells' part of a mains loss. -/
theorem LaneProof.bellsMainsLoss {P : State → Prop} (hP : LaneProof P) (hmap : ∀ f s, P s → P (mapBells f s)) (h : P s) :
    P (bellsMainsLoss s) :=
  hP.bells.flagIf _ _ (hP.peal _ _ (hmap _ _ (hP.lights _ _ (hP.loseAllDeferred h))))

theorem steady_laneProof (s : State) : LaneProof (Steady s) where
  bell _ _ _ h := h.trans ⟨rfl, rfl, rfl, rfl, rfl, rfl⟩
  line _ _ h := h.trans ⟨rfl, rfl, rfl, rfl, rfl, rfl⟩
  lights _ _ h := h.trans ⟨rfl, rfl, rfl, rfl, rfl, rfl⟩
  flag _ _ h := h.trans ⟨rfl, rfl, rfl, rfl, rfl, rfl⟩
  run _ _ h := h.trans ⟨rfl, rfl, rfl, rfl, rfl, rfl⟩
  player _ _ h := h.trans ⟨rfl, rfl, rfl, rfl, rfl, rfl⟩
  peal _ _ h := h.trans ⟨rfl, rfl, rfl, rfl, rfl, rfl⟩
  free _ _ h := h.trans (steady_of_tower (tower_setLane ..))
  final _ _ _ h := h.trans (steady_of_tower (tower_finalise ..))

/-- The line at mains loss: its queue is empty, and of the rest its lost strokes move the lanes alone. -/
theorem lineMainsLoss_queue (s : State) : (lineMainsLoss s).line.queue = [] := by
  have hline := (work_parts (work_strikesLost (heldOrders s.line) (clearLine (restState s.line) s))).2.1
  rw [lineMainsLoss, flushLine, hline]
  rfl

theorem lineMainsLoss_bells (s : State) :
    (lineMainsLoss s).bells = s.bells ∧ (lineMainsLoss s).lights = s.lights ∧ (lineMainsLoss s).peal = s.peal := by
  obtain ⟨hbells, -, hlights, hpeal, -⟩ := work_parts (work_strikesLost (heldOrders s.line) (clearLine (restState s.line) s))
  exact ⟨hbells, hlights, hpeal⟩

theorem LaneProof.lineMainsLoss {P : State → Prop} (hP : LaneProof P) (h : P s) : P (lineMainsLoss s) :=
  hP.bells.strikesLost _ (hP.line _ _ h)

theorem dialsMainsLoss_dials (s : State) : ∃ ds n, dialsMainsLoss s = { s with dials := ds, lastTarget := n } := by
  obtain ⟨ds, hcut⟩ := cutImpulses_dials s
  obtain ⟨ds', hall⟩ := evaluateAll_dials (cutImpulses s)
  exact ⟨ds', _, by rw [dialsMainsLoss, hall, hcut]⟩

/-- The dials at mains loss: no impulse is given or due, and the hands and polarities stand (R180). -/
theorem dialsMainsLoss_dial (hm : s.mains = .absent) (d : DialNo) :
    (getDial (dialsMainsLoss s) d).impulse = none ∧ (getDial (dialsMainsLoss s) d).due = none ∧
      (getDial (dialsMainsLoss s) d).hand = (getDial s d).hand ∧
      (getDial (dialsMainsLoss s) d).polarity = (getDial s d).polarity := by
  obtain ⟨himpulse, hhand, hpolarity, -⟩ := evaluatedDial_keeps (cutImpulses s) d (cutImpulse (getDial s d))
  have hm' : (cutImpulses s).mains = .absent := by
    obtain ⟨ds, hcut⟩ := cutImpulses_dials s
    rw [hcut]
    exact hm
  rw [dialsMainsLoss, getDial_evaluateAll, getDial_cutImpulses]
  exact ⟨himpulse, evaluatedDial_absent hm' rfl, hhand, hpolarity⟩

/-- The zones at mains loss: off, and their wanted levels as they were (R191). -/
theorem lightsOut_zone (s : State) (z : ZoneNo) :
    ((lightsOut s).lights.zones.get z).present = 0 ∧ ((lightsOut s).lights.zones.get z).wanted = (s.lights.zones.get z).wanted := by
  have hzone : (lightsOut s).lights.zones.get z = { s.lights.zones.get z with present := 0 } := get_map ..
  rw [hzone]
  exact ⟨rfl, rfl⟩

theorem getDial_lightsOut (s : State) (d : DialNo) : getDial (lightsOut s) d = getDial s d := rfl

/-! ### Mains loss as a whole (R201) -/

/-- The announcement. -/
def lossAnnounced (s : State) : State := setFlag .mainsLost (setMains false .absent s)

/-- The lanes, the bells and the line have been told. -/
def lossInTower (s : State) : State := Machine.lineMainsLoss (Machine.bellsMainsLoss (Machine.cutAllLanes (lossAnnounced s)))

theorem mainsLoss_eq (s : State) : mainsLoss s = lightsOut (dialsMainsLoss (lossInTower s)) := rfl

/-- What the tower's part of a mains loss keeps. -/
theorem LaneProof.lossInTower {P : State → Prop} (hP : LaneProof P) (hmap : ∀ f s, P s → P (mapBells f s))
    (h : P (Machine.cutAllLanes (lossAnnounced s))) : P (Mains.lossInTower s) :=
  hP.lineMainsLoss (hP.bellsMainsLoss hmap h)

theorem lossInTower_steady (s : State) : Steady (lossAnnounced s) (lossInTower s) :=
  (steady_laneProof _).lossInTower (fun _ _ h => h.trans ⟨rfl, rfl, rfl, rfl, rfl, rfl⟩)
    ((steady_laneProof _).cutAllLanes (Steady.refl _))

theorem lossInTower_bell (s : State) (st : Station) :
    ∃ b, getBell (lossInTower s) st = mainsLossFields b ∧ b.reserving = (getBell s st).reserving := by
  have haccount : accountView (loseAllDeferred (cutAllLanes (lossAnnounced s))) = accountView s :=
    (account_loseAllDeferred _).trans (account_cutAllLanes _)
  refine ⟨getBell (loseAllDeferred (cutAllLanes (lossAnnounced s))) st, ?_, ?_⟩
  · rw [lossInTower, getBell, (lineMainsLoss_bells _).1]
    exact bellsMainsLoss_bell _ st
  · have := congrArg (fun v => v.2.2.get st) haccount
    simpa [accountView, getBell] using this

theorem lossInTower_account (s : State) :
    (lossInTower s).lights.zones = s.lights.zones ∧ (lossInTower s).lights.reserv = s.lights.reserv := by
  have haccount : accountView (bellsMainsLoss (cutAllLanes (lossAnnounced s))) = accountView s :=
    (account_bellsMainsLoss _).trans (account_cutAllLanes _)
  simp only [accountView, Prod.mk.injEq] at haccount
  rw [lossInTower, (lineMainsLoss_bells _).2.1]
  exact ⟨haccount.1, haccount.2.1⟩

theorem lossInTower_peal (s : State) : (lossInTower s).peal = none := by
  rw [lossInTower, (lineMainsLoss_bells _).2.2, bellsMainsLoss, setFlagIf_peal]

theorem mainsLossFields_rest (b : Bell) :
    (mainsLossFields b).ctrl = .automatic ∧ isMoving (mainsLossFields b) = false ∧ (mainsLossFields b).owed = none ∧
      (mainsLossFields b).reserving = b.reserving := by
  refine ⟨rfl, ?_, rfl, rfl⟩
  by_cases h : b.ctrl = .console ∨ isMoving b = true
  · have hpos : (mainsLossFields b).pos = .unsure := if_pos h
    rw [isMoving, hpos]
    rfl
  · have hpos : (mainsLossFields b).pos = b.pos := if_neg h
    rw [isMoving, hpos]
    exact Bool.eq_false_iff.2 (not_or.1 h).2

/-- What MAINS_LOST does. -/
theorem mainsLost_acts (hr : running s = true) (hm : s.mains = .present) :
    ∃ t, exec .mainsLost s = .next t ∧ t.mains = .absent ∧ flagSet t.attn .mainsLost = true ∧
      (∀ lane, laneKey t lane = none) ∧ t.peal = none ∧
      (∀ st, (getBell t st).ctrl = .automatic ∧ isMoving (getBell t st) = false ∧ (getBell t st).owed = none ∧
        (getBell t st).reserving = (getBell s st).reserving) ∧
      t.line.queue = [] ∧ (∀ d, (getDial t d).impulse = none ∧ (getDial t d).due = none ∧
        (getDial t d).hand = (getDial s d).hand ∧ (getDial t d).polarity = (getDial s d).polarity) ∧
      (∀ z, (t.lights.zones.get z).present = 0 ∧ (t.lights.zones.get z).wanted = (s.lights.zones.get z).wanted) ∧
      t.lights.reserv = s.lights.reserv ∧ t.time = s.time ∧ t.overrides = s.overrides ∧ t.port = s.port ∧
      settingsView t = settingsView s := by
  have hexec : exec .mainsLost s = .next (mainsLoss s) := by
    change execMainsLost s = _
    rw [execMainsLost, event_running hr, if_pos hm]
  have hsteady := lossInTower_steady s
  have hflag := (flag_laneProof .mainsLost).lossInTower (fun _ _ h => h)
    ((flag_laneProof .mainsLost).cutAllLanes (flagSet_setFlag_self (s := setMains false .absent s) .mainsLost))
  have hfree : ∀ lane, laneKey (lossInTower s) lane = none := fun lane =>
    (free_laneProof lane).lossInTower (fun _ _ h => by cases lane <;> exact h) (cutAllLanes_free _ lane)
  have hbell := lossInTower_bell s
  have hpeal := lossInTower_peal s
  have hqueue : (lossInTower s).line.queue = [] := lineMainsLoss_queue _
  obtain ⟨hzones, hreserv⟩ := lossInTower_account s
  have hdial := dialsMainsLoss_dial (s := lossInTower s) hsteady.mains
  obtain ⟨ds, n, hdials⟩ := dialsMainsLoss_dials (lossInTower s)
  have hgiven : ∀ d, getDial (lossInTower s) d = getDial s d := fun d => by rw [getDial, hsteady.dials]; rfl
  have hsettings : settingsView (mainsLoss s) = settingsView s := settings_mainsLoss s
  refine ⟨mainsLoss s, hexec, ?_⟩
  rw [mainsLoss_eq] at hsettings ⊢
  generalize lossInTower s = u at *
  refine ⟨?_, ?_, fun lane => ?_, ?_, fun st => ?_, ?_, fun d => ?_, fun z => ?_, ?_, ?_, ?_, ?_, hsettings⟩
  · rw [hdials]; exact hsteady.mains
  · rw [hdials]; exact hflag
  · rw [hdials]; exact (laneKey_congr rfl rfl rfl lane).trans (hfree lane)
  · rw [hdials]; exact hpeal
  · obtain ⟨b, hb, hres⟩ := hbell st
    have hsame : getBell (lightsOut (dialsMainsLoss u)) st = mainsLossFields b := by rw [hdials]; exact hb
    rw [hsame, ← hres]
    exact mainsLossFields_rest b
  · rw [hdials]; exact hqueue
  · rw [getDial_lightsOut, ← hgiven]; exact hdial d
  · obtain ⟨hpresent, hwanted⟩ := lightsOut_zone (dialsMainsLoss u) z
    refine ⟨hpresent, hwanted.trans ?_⟩
    rw [hdials]
    exact congrArg Zone.wanted (by rw [← hzones])
  · rw [hdials]; exact hreserv
  · rw [hdials]; exact hsteady.time
  · rw [hdials]; exact hsteady.overrides
  · rw [hdials]; exact hsteady.port

end Sys2Proof.Mains
end

section
/-! PROOFS. Restoration: in restore order, one level at a time, until no zone is shed or the first that is does not fit (R182, R189). -/

namespace Sys2Proof.Mains

open Sys2Proof Sys2Proof.Machine Sys2Proof.Time Sys2Proof.Performance

variable {l l' l'' : Lights} {x y z : ZoneNo}

/-! ### Shed order (R182) -/

theorem shedBefore_iff : shedBefore l y z = true ↔
    (l.zones.get y).priority < (l.zones.get z).priority ∨ (l.zones.get y).priority = (l.zones.get z).priority ∧ z.val < y.val := by
  simp only [shedBefore]
  split
  · next h => simp [h]
  · next h =>
    have heq := not_not.1 h
    rw [decide_eq_true_eq, heq, Fin.lt_def]
    exact ⟨fun hlt => Or.inr ⟨rfl, hlt⟩, fun hor => hor.elim (fun hlt => absurd hlt (Nat.lt_irrefl _)) And.right⟩

theorem shedBefore_trans (h : shedBefore l x y = true) (h' : shedBefore l y z = true) : shedBefore l x z = true := by
  rw [shedBefore_iff] at *
  omega

theorem shedBefore_asymm (h : shedBefore l y z = true) : shedBefore l z y = false := by
  rw [shedBefore_iff] at h
  rw [Bool.eq_false_iff, ne_eq, shedBefore_iff]
  omega

theorem shedBefore_of_not (hne : y ≠ z) (h : ¬ shedBefore l y z = true) : shedBefore l z y = true := by
  have hval : y.val ≠ z.val := Fin.val_ne_of_ne hne
  rw [shedBefore_iff] at *
  omega

theorem pairwise_insert_zone {zs : List ZoneNo} (hz : z ∉ zs) (h : zs.Pairwise fun a b => shedBefore l a b = true) :
    (insertBy (shedBefore l) z zs).Pairwise fun a b => shedBefore l a b = true := by
  induction zs with
  | nil => exact List.pairwise_singleton _ _
  | cons y ys ih =>
    obtain ⟨hy, hys⟩ := List.pairwise_cons.1 h
    obtain ⟨hzy, hzys⟩ := not_or.1 (mt List.mem_cons.2 hz)
    rw [insertBy]
    split
    · next hlt => exact List.pairwise_cons.2 ⟨List.forall_mem_cons.2 ⟨hlt, fun a ha => shedBefore_trans hlt (hy a ha)⟩, h⟩
    · next hlt =>
      refine List.pairwise_cons.2 ⟨fun a ha => ?_, ih hzys hys⟩
      rcases (mem_insertBy _ _ _ _).1 ha with rfl | ha
      · exact shedBefore_of_not hzy hlt
      · exact hy a ha

theorem pairwise_sort_zones {zs : List ZoneNo} (hn : zs.Nodup) :
    (sortBy (shedBefore l) zs).Pairwise fun a b => shedBefore l a b = true := by
  induction zs with
  | nil => exact List.Pairwise.nil
  | cons z zs ih =>
    obtain ⟨hz, hn⟩ := List.nodup_cons.1 hn
    exact pairwise_insert_zone (fun h => hz ((mem_sortBy _ _ _).1 h)) (ih hn)

/-- The zone a restoration step looks at is the shed one that no shed zone comes after in shed order (R189). -/
theorem firstShed_iff :
    ((restoreOrder l).find? fun z => isShed (l.zones.get z)) = some z ↔
      isShed (l.zones.get z) = true ∧ ∀ y, isShed (l.zones.get y) = true → y ≠ z → shedBefore l y z = true := by
  have hsorted : (restoreOrder l).Pairwise fun a b => shedBefore l b a = true :=
    List.pairwise_reverse.2 (pairwise_sort_zones zones_nodup)
  have hmem : ∀ y, y ∈ restoreOrder l := fun y => List.mem_reverse.2 ((mem_sortBy _ _ _).2 (mem_allZones y))
  have hlast : ∀ z, ((restoreOrder l).find? fun z => isShed (l.zones.get z)) = some z →
      ∀ y, isShed (l.zones.get y) = true → y ≠ z → shedBefore l y z = true := fun z hz y hy hne => by
    obtain ⟨-, before, after, hlist, hbefore⟩ := List.find?_eq_some_iff_append.1 hz
    have hyl : y ∈ before ++ z :: after := hlist ▸ hmem y
    rw [hlist] at hsorted
    rcases List.mem_append.1 hyl with hy' | hy'
    · have hnot := hbefore y hy'
      rw [hy] at hnot
      cases hnot
    · rcases List.mem_cons.1 hy' with rfl | hy'
      · exact absurd rfl hne
      · exact (List.pairwise_cons.1 (List.pairwise_append.1 hsorted).2.1).1 y hy'
  refine ⟨fun h => ⟨List.find?_some (p := fun z => isShed (l.zones.get z)) h, hlast z h⟩, fun ⟨hshed, hall⟩ => ?_⟩
  cases hfind : (restoreOrder l).find? fun z => isShed (l.zones.get z) with
  | none => exact absurd hshed (List.find?_eq_none.1 hfind z (hmem z))
  | some w =>
    by_contra hne
    have hwz : w ≠ z := fun h => hne (congrArg some h)
    have hafter := hall w (List.find?_some (p := fun z => isShed (l.zones.get z)) hfind) hwz
    rw [shedBefore_asymm (hlast w hfind z hshed hwz.symm)] at hafter
    cases hafter

/-! ### One step, and all of them (R189) -/

/-- The lights with one zone raised by one level. -/
def raised (z : ZoneNo) (l : Lights) : Lights := updZone z (fun x => { x with present := x.present + 1 }) l

theorem raised_self (l : Lights) (z : ZoneNo) :
    (raised z l).zones.get z = { l.zones.get z with present := (l.zones.get z).present + 1 } := by simp [raised, updZone, get_modify]

theorem raised_other (l : Lights) (h : y ≠ z) : (raised z l).zones.get y = l.zones.get y := by
  simp [raised, updZone, get_modify, Ne.symm h]

/-- A restoration step that is taken raises the zone it looks at by one level. -/
theorem restoreStep_some (h : restoreStep l = some l') :
    ∃ z, isShed (l.zones.get z) = true ∧ (∀ y, isShed (l.zones.get y) = true → y ≠ z → shedBefore l y z = true) ∧
      l' = raised z l := by
  unfold restoreStep at h
  split at h
  · cases h
  · next z hz =>
    obtain ⟨hshed, hlast⟩ := firstShed_iff.1 hz
    dsimp only at h
    split at h
    · cases h
      exact ⟨z, hshed, hlast, rfl⟩
    · cases h

/-- Where no step is taken, the first zone to be restored does not fit. -/
theorem restoreStep_none (h : restoreStep l = none) (hshed : isShed (l.zones.get z) = true)
    (hlast : ∀ y, y ≠ z → isShed (l.zones.get y) = true → shedBefore l y z = true) :
    freeLoad l < zoneLoad (l.zones.get z) ((l.zones.get z).present + 1) - zoneLoad (l.zones.get z) (l.zones.get z).present := by
  have hfirst := firstShed_iff.2 ⟨hshed, fun y hy hne => hlast y hne hy⟩
  rw [restoreStep, hfirst] at h
  dsimp only at h
  split at h
  · cases h
  · next hcost => exact Nat.lt_of_not_le hcost

/-- The levels that are still to be restored. -/
def shortfall (l : Lights) : Nat := (allZones.map fun z => (l.zones.get z).wanted - (l.zones.get z).present).sum

theorem shortfall_step (h : restoreStep l = some l') : shortfall l' + 1 = shortfall l := by
  obtain ⟨z, hshed, -, rfl⟩ := restoreStep_some h
  have hlt : (l.zones.get z).present < (l.zones.get z).wanted := of_decide_eq_true hshed
  have hself := raised_self l z
  have hsum : shortfall (raised z l) + ((l.zones.get z).wanted - (l.zones.get z).present)
      = shortfall l + (((raised z l).zones.get z).wanted - ((raised z l).zones.get z).present) :=
    sum_change allZones z (fun y => (l.zones.get y).wanted - (l.zones.get y).present)
      (fun y => ((raised z l).zones.get y).wanted - ((raised z l).zones.get y).present)
      zones_nodup (mem_allZones z) fun y hy => by rw [raised_other l hy]
  rw [hself] at hsum
  dsimp only at hsum
  omega

theorem restoreSteps_done (fuel : Nat) (h : shortfall l ≤ fuel) : restoreStep (restoreSteps fuel l) = none := by
  induction fuel generalizing l with
  | zero =>
    rw [restoreSteps]
    cases hstep : restoreStep l with
    | none => rfl
    | some l' =>
      have := shortfall_step hstep
      omega
  | succ n ih =>
    rw [restoreSteps]
    split
    · assumption
    · next l' hstep =>
      have := shortfall_step hstep
      exact ih (by omega)

/-- Eight zones of at most three levels are restored within the limit of steps. -/
theorem shortfall_le (h : ∀ z, (l.zones.get z).wanted ≤ 3) : shortfall l ≤ stepLimit := by
  have hsum : ∀ zs : List ZoneNo, (zs.map fun z => (l.zones.get z).wanted - (l.zones.get z).present).sum ≤ 3 * zs.length := fun zs => by
    induction zs with
    | nil => exact Nat.le_refl _
    | cons z zs ih =>
      have := h z
      simp only [List.map_cons, List.sum_cons, List.length_cons]
      omega
  exact hsum allZones

/-! ### What a restoration does to the zones (R182, R189) -/

/-- Restoring keeps the wanted levels and priorities, lowers no zone, lifts none above its wanted level, and does not lift a zone while one
after it in shed order stays shed. -/
structure Restored (l l' : Lights) : Prop where
  wanted : ∀ z, (l'.zones.get z).wanted = (l.zones.get z).wanted
  priority : ∀ z, (l'.zones.get z).priority = (l.zones.get z).priority
  rises : ∀ z, (l.zones.get z).present ≤ (l'.zones.get z).present
  within : ∀ z, (l.zones.get z).present ≤ (l.zones.get z).wanted → (l'.zones.get z).present ≤ (l'.zones.get z).wanted
  order : ∀ z y, isShed (l'.zones.get y) = true → shedBefore l' z y = true → (l'.zones.get z).present = (l.zones.get z).present

theorem Restored.refl (l : Lights) : Restored l l :=
  ⟨fun _ => rfl, fun _ => rfl, fun _ => Nat.le_refl _, fun _ h => h, fun _ _ _ _ => rfl⟩

theorem Restored.shed (h : Restored l l') (hy : isShed (l'.zones.get y) = true) : isShed (l.zones.get y) = true := by
  have hlt : (l'.zones.get y).present < (l'.zones.get y).wanted := of_decide_eq_true hy
  have hrises := h.rises y
  rw [h.wanted] at hlt
  exact decide_eq_true (by omega)

theorem Restored.before (h : Restored l l') (z y : ZoneNo) : shedBefore l' z y = shedBefore l z y := by
  simp only [shedBefore, h.priority]

theorem Restored.trans (h : Restored l l') (h' : Restored l' l'') : Restored l l'' where
  wanted z := (h'.wanted z).trans (h.wanted z)
  priority z := (h'.priority z).trans (h.priority z)
  rises z := (h.rises z).trans (h'.rises z)
  within z hz := h'.within z (h.within z hz)
  order z y hy hzy := (h'.order z y hy hzy).trans (h.order z y (h'.shed hy) (h'.before z y ▸ hzy))

theorem restored_step (h : restoreStep l = some l') : Restored l l' := by
  obtain ⟨w, hshed, hlast, rfl⟩ := restoreStep_some h
  have hlt : (l.zones.get w).present < (l.zones.get w).wanted := of_decide_eq_true hshed
  have hother : ∀ z, z ≠ w → (raised w l).zones.get z = l.zones.get z := fun z hz => raised_other l hz
  have hself := raised_self l w
  generalize raised w l = l' at hother hself
  have hkept : ∀ z, (l'.zones.get z).wanted = (l.zones.get z).wanted ∧ (l'.zones.get z).priority = (l.zones.get z).priority := fun z => by
    by_cases hz : z = w
    · subst hz; rw [hself]; exact ⟨rfl, rfl⟩
    · rw [hother z hz]; exact ⟨rfl, rfl⟩
  refine ⟨fun z => (hkept z).1, fun z => (hkept z).2, fun z => ?_, fun z h => ?_, fun z y hy hzy => ?_⟩
  · by_cases hz : z = w
    · subst hz; rw [hself]; exact Nat.le_succ _
    · rw [hother z hz]
  · by_cases hz : z = w
    · subst hz; rw [hself]; exact hlt
    · rw [hother z hz]; exact h
  · by_cases hz : z = w
    · subst hz
      have hbefore : shedBefore l z y = true := by rw [← hzy]; simp only [shedBefore, (hkept _).2]
      by_cases hyz : y = z
      · subst hyz
        rw [shedBefore_asymm hbefore] at hbefore
        cases hbefore
      · rw [hother y hyz] at hy
        rw [shedBefore_asymm (hlast y hy hyz)] at hbefore
        cases hbefore
    · rw [hother z hz]

theorem restored_steps (fuel : Nat) (l : Lights) : Restored l (restoreSteps fuel l) := by
  induction fuel generalizing l with
  | zero => exact Restored.refl l
  | succ n ih =>
    rw [restoreSteps]
    split
    · exact Restored.refl l
    · next l' hstep => exact (restored_step hstep).trans (ih l')

theorem restored_restoration (s : State) : Restored s.lights (restoration s).lights := by
  unfold restoration
  split
  · exact restored_steps _ _
  · exact Restored.refl _

end Sys2Proof.Mains
end

section
/-! PROOFS. Orders: one that a bell has stays outstanding or owed, and the queries of all present bells (R118, R136, R154). -/

namespace Sys2Proof.Mains

open Sys2Proof Sys2Proof.Machine Sys2Proof.Time Sys2Proof.Performance

variable {s t : State} {st u : Station}

/-! ### A bell that has an order keeps one (R118) -/

/-- The bell has an order outstanding, or owes one. -/
def Ordered (u : Station) (s : State) : Prop := outstanding s u ≠ none ∨ (getBell s u).owed ≠ none

theorem ordered_of (ho : outstanding t u = outstanding s u) (hb : (getBell t u).owed = (getBell s u).owed) (h : Ordered u s) :
    Ordered u t := by
  unfold Ordered
  rwa [ho, hb]

theorem ordered_of_only (h : OnlyBell st s t) (hu : u ≠ st) (ho : Ordered u s) : Ordered u t :=
  ordered_of (h.orders u hu) (congrArg Bell.owed (h.others u hu)) ho

theorem ordered_updBell (f : Bell → Bell) (hf : ∀ b, (f b).owed = b.owed) (h : Ordered u s) : Ordered u (updBell st f s) := by
  by_cases hu : u = st
  · subst hu
    exact ordered_of (s := s) rfl (by rw [getBell_updBell_self, hf]) h
  · exact ordered_of_only (only_updBell (OnlyBell.refl st s) f) hu h

theorem ordered_placeOrder (o : Order) (h : Ordered u s) : Ordered u (placeOrder o s) := by
  refine h.imp (fun ho => ?_) id
  rw [outstanding_placeOrder]
  exact fun hnone => ho (Option.or_eq_none_iff.1 hnone).1

theorem settleOwed_ne_none (owed : Option SwingOrder) (k : SwingOrder) : settleOwed owed k ≠ none := by
  unfold settleOwed
  split <;> exact Option.some_ne_none _

theorem ordered_makeOrder (k : SwingOrder) (h : Ordered u s) : Ordered u (makeOrder st k s) := by
  by_cases hu : u = st
  · subst hu
    unfold makeOrder
    repeat' split
    · exact h
    · exact ordered_placeOrder _ h
    · refine Or.inr ?_
      rw [owe, getBell_updBell_self]
      exact settleOwed_ne_none _ _
  · exact ordered_of_only (only_makeOrder (OnlyBell.refl st s) k) hu h

theorem ordered_offerOwed (h : Ordered u s) : Ordered u (offerOwed st s) := by
  unfold offerOwed
  split
  · exact h
  · next k hk =>
    split
    · next haccept =>
      by_cases hu : u = st
      · subst hu
        have hnone : outstanding (updBell u (fun b => { b with owed := none }) s) u = none := haccept.2
        refine Or.inl ?_
        rw [outstanding_placeOrder, hnone]
        simp [swingOrder, Order.swing?]
      · exact ordered_placeOrder _ (ordered_of_only (only_updBell (OnlyBell.refl st s) _) hu h)
    · exact h

theorem ordered_checkStrikable (h : Ordered u s) : Ordered u (checkStrikable st s) := by
  refine ordered_of (outstanding_checkStrikable u) ?_ h
  by_cases hu : u = st
  · subst hu; exact owed_checkStrikable
  · rw [(only_checkStrikable (OnlyBell.refl st s)).others u hu]

theorem ordered_startPolling (h : Ordered u s) : Ordered u (startPolling st s) := by
  have hpoll : ∀ m, Ordered u (updBell st (fun b => { b with nextPoll := m }) s) := fun m => ordered_updBell _ (fun _ => rfl) h
  unfold startPolling firstQuery pollNow
  dsimp only
  repeat' split
  all_goals first | exact hpoll _ | exact ordered_makeOrder _ (hpoll _)

theorem ordered_enterPosition (pos : Position) (h : Ordered u s) : Ordered u (enterPosition st pos s) :=
  ordered_startPolling (ordered_checkStrikable (ordered_updBell _ (fun _ => rfl) h))

theorem ordered_tellAdmitted (h : Ordered u s) : Ordered u (tellAdmitted st s) := by
  unfold tellAdmitted setReserving raiseNow
  dsimp only
  repeat' split
  · exact ordered_enterPosition _ (ordered_makeOrder _ (ordered_updBell _ (fun _ => rfl) h))
  · exact ordered_startPolling (ordered_updBell _ (fun _ => rfl) h)
  · exact ordered_updBell _ (fun _ => rfl) h

theorem ordered_retryOne (m : Nat) (h : Ordered u s) : Ordered u (retryOne st m s) := by
  unfold retryOne
  split
  · exact h
  · next l shed _ =>
    obtain ⟨a, ha⟩ := setFlagIf_eq shed .loadLimited (setLights { l with waiting := l.waiting.filter fun p => p.1 != st } s)
    rw [ha]
    exact ordered_tellAdmitted (ordered_of (s := s) rfl rfl h)

theorem ordered_retryWaiting (h : Ordered u s) : Ordered u (retryWaiting s) := by
  unfold retryWaiting
  split
  · exact foldl_keeps (Ordered u) (fun acc (p : Station × Nat) => retryOne p.1 p.2 acc) (fun _ p hs => ordered_retryOne p.2 hs) _ s h
  · exact h

theorem ordered_restoration (h : Ordered u s) : Ordered u (restoration s) := by
  obtain ⟨l, hl, -⟩ := restoration_lights s
  rw [hl]
  exact ordered_of (s := s) rfl rfl h

theorem ordered_findWanted (h : Ordered u s) : Ordered u (findWanted s) := by
  have happly : Ordered u (setLights (applyWanted (governingScene s) s.lights) s) := ordered_of (s := s) rfl rfl h
  unfold findWanted
  dsimp only
  repeat' split
  · exact h
  · exact ordered_restoration (ordered_retryWaiting happly)
  · exact ordered_restoration happly

theorem ordered_settlePeal (h : Ordered u s) : Ordered u (settlePeal s) := by
  obtain ⟨hbells, hline, -, -⟩ := rest_settlePeal s
  exact ordered_of (outstanding_line hline u) (by rw [getBell, hbells, getBell]) h

/-! ### The queries of all present bells (R136) -/

theorem ordered_queryStation (h : Ordered u s) : Ordered u (queryStation st s) := by
  unfold queryStation
  split
  · exact ordered_offerOwed (ordered_makeOrder _ h)
  · exact h

theorem ordered_of_query (h : (getBell s st).ctrl = .automatic) : Ordered st (queryStation st s) := by
  rw [queryStation, if_pos h]
  refine ordered_offerOwed ?_
  rcases query_makeOrder (st := st) (s := s) with ho | ho
  · exact Or.inl (by rw [ho]; exact Option.some_ne_none _)
  · exact Or.inr (Option.isSome_iff_ne_none.1 ho)

theorem ctrl_of_tower (h : towerView t = towerView s) (st : Station) : (getBell t st).ctrl = (getBell s st).ctrl := by
  have := congrArg (fun v : TowerView => v.ctrl.get st) h
  simpa [towerView, getBell] using this

theorem ordered_foldl_query (sts : List Station) (hst : st ∈ sts) (h : (getBell s st).ctrl = .automatic) :
    Ordered st (sts.foldl (fun acc x => queryStation x acc) s) := by
  induction sts generalizing s with
  | nil => cases hst
  | cons x sts ih =>
    rw [List.foldl_cons]
    rcases List.mem_cons.1 hst with rfl | hst
    · exact foldl_keeps (Ordered st) _ (fun _ _ hs => ordered_queryStation hs) _ _ (ordered_of_query h)
    · exact ih hst ((ctrl_of_tower (tower_queryStation s x) st).trans h)

theorem mem_presentBells : st ∈ presentBells s ↔ (getBell s st).present = true := by
  simp [presentBells, mem_allStations]

theorem ordered_queryAll (hp : (getBell s st).present = true) (h : (getBell s st).ctrl = .automatic) : Ordered st (queryAll s) :=
  ordered_foldl_query _ (mem_presentBells.2 hp) h

/-- The same state but for the bells and the orders in the queue. -/
def OnOrders (s t : State) : Prop := ∃ bs q, t = { s with bells := bs, line := { s.line with queue := q } }

theorem OnOrders.refl (s : State) : OnOrders s s := ⟨_, _, rfl⟩

theorem onOrders_queryStation (h : OnOrders s t) : OnOrders s (queryStation st t) := by
  obtain ⟨bs, q, rfl⟩ := h
  unfold queryStation makeOrder offerOwed
  repeat' split
  all_goals exact ⟨_, _, rfl⟩

theorem onOrders_queryAll (s : State) : OnOrders s (queryAll s) :=
  foldl_keeps (OnOrders s) _ (fun _ _ h => onOrders_queryStation h) _ _ (OnOrders.refl s)

/-! ### The queries where no bell has an order (R136, R154, R167) -/

/-- The order queue holds the queries of some bells. -/
def withQueries (sts : List Station) (s : State) : State :=
  updLine (fun l => { l with queue := sts.map fun st => swingOrder st .query }) s

theorem outstanding_withQueries (hown : ownOrder s.line = none) {sts : List Station} (h : st ∉ sts) :
    outstanding (withQueries sts s) st = none := by
  have hown' : ownOrder (withQueries sts s).line = none := hown
  rw [outstanding, hown']
  simp only [withQueries, updLine_line, Option.toList_none, List.nil_append, List.findSome?_map, List.findSome?_eq_none_iff]
  intro x hx
  have hne : x ≠ st := fun heq => h (heq ▸ hx)
  exact if_neg hne

/-- A bell that has no order is queried at the tail of the queue. -/
theorem queryStation_placed (hc : (getBell s st).ctrl = .automatic) (hw : (getBell s st).owed = none)
    (ho : outstanding s st = none) (ha : lineAccepts s = true) :
    queryStation st s = placeOrder (swingOrder st .query) s := by
  have hmade : makeOrder st .query s = placeOrder (swingOrder st .query) s := by
    rw [makeOrder, if_neg (by simp [ho]), if_pos ⟨ha, ho, hw⟩]
  have hw' : (getBell (placeOrder (swingOrder st .query) s) st).owed = none := hw
  rw [queryStation, if_pos hc, hmade, offerOwed, hw']

theorem foldl_query_placed (hm : s.mains = .present) (hf : s.line.state ≠ .faulted) (hown : ownOrder s.line = none)
    (hb : ∀ st, (getBell s st).ctrl = .automatic ∧ (getBell s st).owed = none) (xs ys : List Station)
    (hn : (ys ++ xs).Nodup) :
    xs.foldl (fun acc x => queryStation x acc) (withQueries ys s) = withQueries (ys ++ xs) s := by
  induction xs generalizing ys with
  | nil => rw [List.append_nil]; rfl
  | cons x xs ih =>
    rw [List.append_cons] at hn ⊢
    obtain ⟨hyx, -, -⟩ := List.nodup_append.1 hn
    have hx : x ∉ ys := fun h => (List.nodup_append.1 hyx).2.2 x h x (List.mem_singleton_self x) rfl
    have hlength : (ys ++ [x]).length ≤ 31 := by simpa using List.Nodup.length_le_card hyx
    have haccept : lineAccepts (withQueries ys s) = true := by
      rw [List.length_append, List.length_singleton] at hlength
      have hroom : ys.length < Config.queueCapacity := by
        change ys.length < 32
        omega
      simp [lineAccepts, withQueries, hm, hf, hroom]
    have hstep : queryStation x (withQueries ys s) = withQueries (ys ++ [x]) s := by
      rw [queryStation_placed (s := withQueries ys s) (hb x).1 (hb x).2 (outstanding_withQueries hown hx) haccept]
      simp only [withQueries, placeOrder, List.map_append]
      rfl
    rw [List.foldl_cons, hstep, ih _ hn]

/-- Where the line takes orders and no bell has one, the queue holds a query of each present bell, in station order. -/
theorem queue_queryAll (hm : s.mains = .present) (hf : s.line.state ≠ .faulted) (hown : ownOrder s.line = none)
    (hq : s.line.queue = []) (hb : ∀ st, (getBell s st).ctrl = .automatic ∧ (getBell s st).owed = none) :
    (queryAll s).line.queue = (presentBells s).map fun st => swingOrder st .query := by
  have hnone : withQueries [] s = s := by
    have hline : ({ s.line with queue := [] } : Line) = s.line := by rw [← hq]
    simp only [withQueries, List.map_nil, updLine, hline]
  have hall := foldl_query_placed hm hf hown hb (presentBells s) [] (List.Nodup.filter _ stations_nodup)
  rw [hnone, List.nil_append] at hall
  rw [queryAll, hall]
  rfl

/-- On a FAULTED line the query of a bell that owes at most a query is owed. -/
theorem queryStation_owed (hf : s.line.state = .faulted) (hc : (getBell s st).ctrl = .automatic)
    (hw : (getBell s st).owed = none ∨ (getBell s st).owed = some .query) (ho : outstanding s st = none) :
    queryStation st s = updBell st (fun b => { b with owed := some .query }) s := by
  have haccept : lineAccepts s = false := by simp [lineAccepts, hf]
  have hsettle : settleOwed (getBell s st).owed .query = some .query := by rcases hw with hw | hw <;> rw [hw] <;> rfl
  have hmade : makeOrder st .query s = updBell st (fun b => { b with owed := some .query }) s := by
    rw [makeOrder, if_neg (by simp [ho]), if_neg (by simp [haccept]), owe]
    have hsame : modify s.bells st (fun b => { b with owed := settleOwed b.owed .query })
        = modify s.bells st (fun b => { b with owed := some .query }) :=
      congrArg (put s.bells st) (congrArg (fun o => { getBell s st with owed := o }) hsettle)
    rw [updBell, updBell, hsame]
  have haccept' : lineAccepts (updBell st (fun b => { b with owed := some .query }) s) = false := haccept
  rw [queryStation, if_pos hc, hmade, offerOwed, getBell_updBell_self]
  simp [haccept']

/-- Where some bells owe a query on a FAULTED line with an empty queue, and no other bell owes anything. -/
structure QueriesOwed (line : Line) (sts : List Station) (s : State) : Prop where
  line : s.line = line
  ctrl : ∀ st, (getBell s st).ctrl = .automatic
  atMost : ∀ st, (getBell s st).owed = none ∨ (getBell s st).owed = some .query
  owed : ∀ st ∈ sts, (getBell s st).owed = some .query

theorem QueriesOwed.query {line : Line} {sts : List Station} (hf : line.state = .faulted) (hown : ownOrder line = none)
    (hq : line.queue = []) (h : QueriesOwed line sts s) (x : Station) : QueriesOwed line (sts ++ [x]) (queryStation x s) := by
  have ho : outstanding s x = none := by simp [outstanding, h.line, hown, hq]
  rw [queryStation_owed (by rw [h.line]; exact hf) (h.ctrl x) (h.atMost x) ho]
  refine ⟨h.line, fun st => ?_, fun st => ?_, fun st hst => ?_⟩ <;> by_cases hx : st = x
  · subst hx; rw [getBell_updBell_self]; exact h.ctrl st
  · rw [getBell_updBell_other hx]; exact h.ctrl st
  · subst hx; rw [getBell_updBell_self]; exact Or.inr rfl
  · rw [getBell_updBell_other hx]; exact h.atMost st
  · subst hx; rw [getBell_updBell_self]
  · rw [getBell_updBell_other hx]
    exact h.owed st ((List.mem_append.1 hst).resolve_right fun hin => hx (List.mem_singleton.1 hin))

/-- While the line is FAULTED every present bell owes its query. -/
theorem owed_queryAll (hf : s.line.state = .faulted) (hown : ownOrder s.line = none) (hq : s.line.queue = [])
    (hb : ∀ st, (getBell s st).ctrl = .automatic ∧ (getBell s st).owed = none) :
    (queryAll s).line.queue = [] ∧ ∀ st, (getBell s st).present = true → (getBell (queryAll s) st).owed = some .query := by
  have hfold : ∀ (xs ys : List Station) (t : State), QueriesOwed s.line ys t →
      QueriesOwed s.line (ys ++ xs) (xs.foldl (fun acc x => queryStation x acc) t) := fun xs => by
    induction xs with
    | nil => intro ys t h; rwa [List.append_nil]
    | cons x xs ih =>
      intro ys t h
      rw [List.append_cons]
      exact ih _ _ (h.query hf hown hq x)
  have hstart : QueriesOwed s.line [] s :=
    ⟨rfl, fun st => (hb st).1, fun st => Or.inl (hb st).2, fun _ h => (List.not_mem_nil h).elim⟩
  have hall := hfold (presentBells s) [] s hstart
  exact ⟨(congrArg Line.queue hall.line).trans hq, fun st hp => hall.owed st (mem_presentBells.2 hp)⟩

end Sys2Proof.Mains
end

section
/-! PROOFS. Mains return: the line, the bells, the dials, and then the zones from the governing scene (R136, R167, R179, R189, R191, R201). -/

namespace Sys2Proof.Mains

open Sys2Proof Sys2Proof.Machine Sys2Proof.Time Sys2Proof.Performance

variable {s t u : State} {opens : DialSet}

/-! ### Before the lights (R136, R167, R179) -/

/-- The announcement, with the circuits as they are found. -/
def returnAnnounced (opens : DialSet) (s : State) : State := sampleCircuits opens (setFlag .mainsBack (setMains true .present s))

/-- The line, the bells and the dials have been told. -/
def returnToldAll (opens : DialSet) (s : State) : State :=
  dialsWarmStart (bellsWarmStart (lineWarmStart (returnAnnounced opens s)))

theorem mainsBack_eq (opens : DialSet) (s : State) : mainsBack opens s = settlePeal (lightsWarmStart (returnToldAll opens s)) := rfl

/-- The line at mains return keeps its queue and frame, and stays FAULTED where it is; a recovery that was wanted has begun (R167). -/
theorem lineWarmStart_eq (s : State) :
    ∃ l p, lineWarmStart s = { s with line := l, pins := p } ∧ l.queue = s.line.queue ∧ l.frame = s.line.frame ∧
      l.recoveryWanted = false ∧ (l.state = .faulted ↔ s.line.state = .faulted) ∧ p.mainsHigh = s.pins.mainsHigh ∧
      p.circuitsOpen = s.pins.circuitsOpen := by
  by_cases hwanted : s.line.recoveryWanted = true
  · refine ⟨{ s.line with recoveryWanted := false, state := attemptState s.line, attempt := some .restart },
      s.pins.restartClock s.elapsed, ?_, rfl, rfl, rfl, ?_, rfl, rfl⟩
    · rw [lineWarmStart, if_pos (by exact hwanted)]
      rfl
    · by_cases hf : s.line.state = .faulted <;> simp [attemptState, hf]
  · refine ⟨s.line, s.pins.restartClock s.elapsed, ?_, rfl, rfl, Bool.eq_false_iff.2 hwanted, Iff.rfl, rfl, rfl⟩
    rw [lineWarmStart, if_neg (by exact hwanted)]
    rfl

theorem dialsWarmStart_eq (s : State) : ∃ ds n, dialsWarmStart s = { s with dials := ds, lastTarget := n } := by
  obtain ⟨ds, hcut⟩ := cutImpulses_dials s
  obtain ⟨ds', hsense⟩ := senseAll_dials (cutImpulses s)
  obtain ⟨ds'', hall⟩ := evaluateAll_dials (senseAll (cutImpulses s))
  exact ⟨ds'', _, by rw [dialsWarmStart, hall, hsense, hcut]⟩

/-- The dials at warm start: no impulse, and every present one is sensed (R179, R180). -/
theorem dialsWarmStart_dial (s : State) (d : DialNo) :
    (getDial (dialsWarmStart s) d).impulse = none ∧
      ((getDial s d).present = true → (getDial (dialsWarmStart s) d).sensedOpen = s.pins.circuitsOpen.get d) := by
  have hpins : (cutImpulses s).pins = s.pins := by
    obtain ⟨ds, hcut⟩ := cutImpulses_dials s
    rw [hcut]
  have hdial : getDial (dialsWarmStart s) d
      = evaluatedDial (senseAll (cutImpulses s)) d (sensedDial (cutImpulses s) d (cutImpulse (getDial s d))) := by
    rw [dialsWarmStart, getDial_evaluateAll, getDial_senseAll, getDial_cutImpulses]
  obtain ⟨himpulse, -, -, hsensed⟩ := evaluatedDial_keeps (senseAll (cutImpulses s)) d
    (sensedDial (cutImpulses s) d (cutImpulse (getDial s d)))
  rw [hdial, himpulse, hsensed, ← hpins]
  by_cases hp : (getDial s d).present = false
  · have hsame : sensedDial (cutImpulses s) d (cutImpulse (getDial s d)) = cutImpulse (getDial s d) := if_pos hp
    rw [hsame, hp]
    exact ⟨rfl, nofun⟩
  · have hsense : sensedDial (cutImpulses s) d (cutImpulse (getDial s d))
        = { cutImpulse (getDial s d) with sensedOpen := (cutImpulses s).pins.circuitsOpen.get d } :=
      (if_neg hp).trans (if_neg Bool.false_ne_true)
    rw [hsense]
    exact ⟨rfl, fun _ => rfl⟩

/-- What the return settles at once: mains is present and announced, the circuits are as found, no recovery is wanted any more, and the
lights, lanes and records stand. -/
structure Announced (opens : DialSet) (s u : State) : Prop where
  mains : u.mains = .present
  flag : flagSet u.attn .mainsBack = true
  high : u.pins.mainsHigh = true
  circuits : ∀ d, u.pins.circuitsOpen.get d = opens.getLsbD d.val
  time : u.time = s.time
  overrides : u.overrides = s.overrides
  port : u.port = s.port
  lights : u.lights = s.lights
  lanes : u.lanes = s.lanes
  table : u.table = s.table
  recovery : u.line.recoveryWanted = false

theorem Announced.onOrders (h : Announced opens s t) (ho : OnOrders t u) : Announced opens s u := by
  obtain ⟨bs, q, rfl⟩ := ho
  exact ⟨h.mains, h.flag, h.high, h.circuits, h.time, h.overrides, h.port, h.lights, h.lanes, h.table, h.recovery⟩

theorem Announced.dialsTold (h : Announced opens s t) : Announced opens s (dialsWarmStart t) := by
  obtain ⟨ds, n, heq⟩ := dialsWarmStart_eq t
  rw [heq]
  exact ⟨h.mains, h.flag, h.high, h.circuits, h.time, h.overrides, h.port, h.lights, h.lanes, h.table, h.recovery⟩

/-- The line has been told, and the polls begin again. -/
def returnPolled (opens : DialSet) (s : State) : State :=
  mapBells (resumePoll (lineWarmStart (returnAnnounced opens s)).elapsed) (lineWarmStart (returnAnnounced opens s))

theorem returnToldAll_eq (opens : DialSet) (s : State) :
    returnToldAll opens s = dialsWarmStart (queryAll (returnPolled opens s)) := rfl

theorem announced_polled (opens : DialSet) (s : State) : Announced opens s (returnPolled opens s) := by
  obtain ⟨l, p, hline, -, -, hrecovery, -, hhigh, hcircuits⟩ := lineWarmStart_eq (returnAnnounced opens s)
  have hflag : flagSet (returnAnnounced opens s).attn .mainsBack = true :=
    flagSet_setFlag_self (s := setMains true .present s) .mainsBack
  rw [returnPolled, hline]
  refine ⟨rfl, hflag, hhigh, fun d => ?_, rfl, rfl, rfl, rfl, rfl, rfl, hrecovery⟩
  have hget : p.circuitsOpen.get d = opens.getLsbD d.val := by rw [hcircuits]; exact get_ofFn _ d
  exact hget

theorem bell_polled (opens : DialSet) (s : State) (st : Station) :
    ∃ m, getBell (returnPolled opens s) st = { getBell s st with nextPoll := m } := by
  obtain ⟨l, p, hline, -⟩ := lineWarmStart_eq (returnAnnounced opens s)
  rw [returnPolled, getBell, mapBells_bells, get_map, hline]
  exact ⟨_, rfl⟩

theorem line_polled (opens : DialSet) (s : State) :
    (returnPolled opens s).line.queue = s.line.queue ∧ ownOrder (returnPolled opens s).line = ownOrder s.line ∧
      ((returnPolled opens s).line.state = .faulted ↔ s.line.state = .faulted) := by
  obtain ⟨l, p, hline, hqueue, hframe, -, hfaulted, -⟩ := lineWarmStart_eq (returnAnnounced opens s)
  have hown : ownOrder l = ownOrder s.line := by
    have hframe' : l.frame = s.line.frame := hframe
    rw [ownOrder, ownOrder, hframe']
  rw [returnPolled, hline]
  exact ⟨hqueue, hown, hfaulted⟩

theorem announced_toldAll (opens : DialSet) (s : State) : Announced opens s (returnToldAll opens s) :=
  ((announced_polled opens s).onOrders (onOrders_queryAll _)).dialsTold

/-- The dials give no impulse, and the circuit of each present one is as found (R179, R180). -/
theorem dial_toldAll (opens : DialSet) (s : State) (d : DialNo) :
    (getDial (returnToldAll opens s) d).impulse = none ∧
      ((getDial s d).present = true → (getDial (returnToldAll opens s) d).sensedOpen = opens.getLsbD d.val) := by
  have hannounced := (announced_polled opens s).onOrders (onOrders_queryAll _)
  have hdial : getDial (queryAll (returnPolled opens s)) d = getDial s d := by
    obtain ⟨l, p, hline, -⟩ := lineWarmStart_eq (returnAnnounced opens s)
    obtain ⟨bs, q, hq⟩ := onOrders_queryAll (returnPolled opens s)
    rw [hq, returnPolled, hline]
    rfl
  obtain ⟨himpulse, hsensed⟩ := dialsWarmStart_dial (queryAll (returnPolled opens s)) d
  rw [hdial] at hsensed
  exact ⟨himpulse, fun hp => (hsensed hp).trans (hannounced.circuits d)⟩

theorem orders_dialsWarmStart (s : State) : (dialsWarmStart s).bells = s.bells ∧ (dialsWarmStart s).line = s.line := by
  obtain ⟨ds, n, heq⟩ := dialsWarmStart_eq s
  rw [heq]
  exact ⟨rfl, rfl⟩

/-- Every present AUTOMATIC bell has an order (R136, R154). -/
theorem ordered_toldAll {st : Station} (hp : (getBell s st).present = true) (hc : (getBell s st).ctrl = .automatic) :
    Ordered st (returnToldAll opens s) := by
  obtain ⟨m, hbell⟩ := bell_polled opens s st
  obtain ⟨hbells, hline⟩ := orders_dialsWarmStart (queryAll (returnPolled opens s))
  refine ordered_of (outstanding_line hline st) (congrArg (fun v => (v.get st).owed) hbells) (ordered_queryAll ?_ ?_)
  · rw [hbell]; exact hp
  · rw [hbell]; exact hc

section NoneOrdered

variable (hq : s.line.queue = []) (ho : ownOrder s.line = none)
  (hb : ∀ st, (getBell s st).ctrl = .automatic ∧ (getBell s st).owed = none)
include hq ho hb

theorem noneOrdered_polled (opens : DialSet) :
    (returnPolled opens s).line.queue = [] ∧ ownOrder (returnPolled opens s).line = none ∧
      ∀ st, (getBell (returnPolled opens s) st).ctrl = .automatic ∧ (getBell (returnPolled opens s) st).owed = none := by
  obtain ⟨hqueue, hown, -⟩ := line_polled opens s
  refine ⟨hqueue.trans hq, hown.trans ho, fun st => ?_⟩
  obtain ⟨m, hbell⟩ := bell_polled opens s st
  rw [hbell]
  exact hb st

/-- Where no bell has an order, the queue holds the query of each present one (R136). -/
theorem queue_toldAll (hf : s.line.state ≠ .faulted) :
    (returnToldAll opens s).line.queue = (presentBells s).map fun st => swingOrder st .query := by
  obtain ⟨hqueue, hown, hbells⟩ := noneOrdered_polled hq ho hb opens
  have hpresent : presentBells (returnPolled opens s) = presentBells s := List.filter_congr fun st _ => by
    obtain ⟨m, hbell⟩ := bell_polled opens s st
    rw [hbell]
  rw [returnToldAll_eq, (orders_dialsWarmStart _).2, queue_queryAll (announced_polled opens s).mains
    (fun h => hf ((line_polled opens s).2.2.1 h)) hown hqueue hbells, hpresent]

/-- While the line is FAULTED every present bell owes its query (R167). -/
theorem owed_toldAll (hf : s.line.state = .faulted) :
    (returnToldAll opens s).line.queue = [] ∧
      ∀ st, (getBell s st).present = true → (getBell (returnToldAll opens s) st).owed = some .query := by
  obtain ⟨hqueue, hown, hbells⟩ := noneOrdered_polled hq ho hb opens
  obtain ⟨hempty, howed⟩ := owed_queryAll ((line_polled opens s).2.2.2 hf) hown hqueue hbells
  obtain ⟨hsame, hline⟩ := orders_dialsWarmStart (queryAll (returnPolled opens s))
  rw [returnToldAll_eq, hline]
  refine ⟨hempty, fun st hp => ?_⟩
  have hpresent : (getBell (returnPolled opens s) st).present = true := by
    obtain ⟨m, hbell⟩ := bell_polled opens s st
    rw [hbell]
    exact hp
  rw [getBell, hsame]
  exact howed st hpresent

end NoneOrdered

end Sys2Proof.Mains
end

section
/-! PROOFS. The zones at mains return, and O59 (R185, R189, R191, R201). -/

namespace Sys2Proof.Mains

open Sys2Proof Sys2Proof.Machine Sys2Proof.Time Sys2Proof.Performance

variable {s t : State} {opens : DialSet} {z : ZoneNo}

/-! ### Present and wanted levels (R185) -/

/-- No zone stands above its wanted level. -/
def LevelsWithin (l : Lights) : Prop := ∀ z, (l.zones.get z).present ≤ (l.zones.get z).wanted

theorem NoneRaised.levels {l l' : Lights} (h : NoneRaised l l') (hl : LevelsWithin l) : LevelsWithin l' := fun z => by
  obtain ⟨hwanted, hpresent⟩ := h z
  rw [hwanted]
  exact hpresent.trans (hl z)

theorem levels_restoration (h : LevelsWithin s.lights) : LevelsWithin (restoration s).lights :=
  fun z => (restored_restoration s).within z (h z)

theorem applyWanted_zone (scene : Option SceneNo) (l : Lights) (z : ZoneNo) :
    ((applyWanted scene l).zones.get z).wanted = wantedLevel l scene z ∧
      ((applyWanted scene l).zones.get z).present = min (l.zones.get z).present (wantedLevel l scene z) := by
  rw [applyWanted, get_ofFn]
  exact ⟨rfl, rfl⟩

theorem levels_applyWanted (scene : Option SceneNo) (l : Lights) : LevelsWithin (applyWanted scene l) := fun z => by
  obtain ⟨hwanted, hpresent⟩ := applyWanted_zone scene l z
  rw [hwanted, hpresent]
  exact Nat.min_le_right _ _

theorem levels_findWanted (h : LevelsWithin s.lights) : LevelsWithin (findWanted s).lights := by
  have happly : LevelsWithin (setLights (applyWanted (governingScene s) s.lights) s).lights := levels_applyWanted _ _
  unfold findWanted
  dsimp only
  repeat' split
  · exact h
  · exact levels_restoration (NoneRaised.levels (noneRaised_retryWaiting _) happly)
  · exact levels_restoration happly

theorem levels_lightsWarmStart (h : LevelsWithin s.lights) : LevelsWithin (lightsWarmStart s).lights :=
  levels_restoration (NoneRaised.levels (noneRaised_retryWaiting _) (levels_findWanted h))

/-- The wanted levels are the governing scene's (R191). -/
theorem wanted_beforeRestoration (s : State) (z : ZoneNo) :
    ((retryWaiting (findWanted s)).lights.zones.get z).wanted = wantedLevel s.lights (governingScene s) z :=
  (noneRaised_retryWaiting _ z).1.trans (findWanted_wanted s z)

theorem wanted_lightsWarmStart (s : State) (z : ZoneNo) :
    ((lightsWarmStart s).lights.zones.get z).wanted = wantedLevel s.lights (governingScene s) z :=
  ((restored_restoration _).wanted z).trans (wanted_beforeRestoration s z)

theorem wantedLevel_le (h : ∀ sc z, (s.lights.scenes.get sc).get z ≤ 3) (scene : Option SceneNo) (z : ZoneNo) :
    wantedLevel s.lights scene z ≤ 3 := by
  cases scene with
  | none => exact Nat.zero_le _
  | some sc => exact h sc z

theorem lights_restoration (hm : s.mains = .present) : (restoration s).lights = restoreSteps stepLimit s.lights := by
  rw [restoration, if_pos hm]
  rfl

/-- The restoration goes on until no step can be taken (R189). -/
theorem restoreStep_lightsWarmStart (hm : s.mains = .present) (h : ∀ sc z, (s.lights.scenes.get sc).get z ≤ 3) :
    restoreStep (lightsWarmStart s).lights = none := by
  have hmains : (retryWaiting (findWanted s)).mains = .present := by
    have htower : towerView (retryWaiting (findWanted s)) = towerView s := by simp
    exact (congrArg TowerView.mains htower).trans hm
  rw [lightsWarmStart, loadFreed, lights_restoration hmains]
  refine restoreSteps_done stepLimit (shortfall_le fun z => ?_)
  rw [wanted_beforeRestoration]
  exact wantedLevel_le h _ z

/-! ### The zones where no request waits (R189) -/

/-- Wanted levels that are met already change no zone. -/
theorem applyWanted_same {scene : Option SceneNo} {l : Lights} (hl : LevelsWithin l) (h : wantedSame scene l = true) :
    applyWanted scene l = l := by
  have hzones : (applyWanted scene l).zones = l.zones := vector_ext_get fun z => by
    have hwanted : (l.zones.get z).wanted = wantedLevel l scene z := eq_of_beq (List.all_eq_true.1 h z (mem_allZones z))
    have hpresent : min (l.zones.get z).present (l.zones.get z).wanted = (l.zones.get z).present := Nat.min_eq_left (hl z)
    rw [applyWanted, get_ofFn, ← hwanted, hpresent]
  calc applyWanted scene l = { l with zones := (applyWanted scene l).zones } := rfl
    _ = l := by rw [hzones]

theorem waiting_findWanted (hw : s.lights.waiting = []) : (findWanted s).lights.waiting = [] := by
  obtain ⟨l, hl, hwaiting, -⟩ := findWanted_lights hw
  rw [hl]
  exact hwaiting

theorem restored_findWanted (hl : LevelsWithin s.lights) (hw : s.lights.waiting = []) :
    Restored (applyWanted (governingScene s) s.lights) (findWanted s).lights := by
  have hretry : retryWaiting (setLights (applyWanted (governingScene s) s.lights) s)
      = setLights (applyWanted (governingScene s) s.lights) s := retryWaiting_none hw
  unfold findWanted
  dsimp only
  split
  · next hsame =>
    rw [applyWanted_same hl hsame]
    exact Restored.refl _
  · rw [hretry, ite_self]
    exact restored_restoration (setLights (applyWanted (governingScene s) s.lights) s)

/-- Where no request waits, the zones are those of the governing scene, restored. -/
theorem restored_lightsWarmStart (hl : LevelsWithin s.lights) (hw : s.lights.waiting = []) :
    Restored (applyWanted (governingScene s) s.lights) (lightsWarmStart s).lights := by
  refine (restored_findWanted hl hw).trans ?_
  rw [lightsWarmStart, loadFreed, retryWaiting_none (waiting_findWanted hw)]
  exact restored_restoration _

theorem orders_lightsWarmStart (hw : s.lights.waiting = []) :
    (lightsWarmStart s).bells = s.bells ∧ (lightsWarmStart s).line = s.line := by
  obtain ⟨l, hl, hwaiting, -⟩ := findWanted_lights hw
  obtain ⟨l', hl', -⟩ := restoration_lights (setLights l s)
  have hretry : retryWaiting (setLights l s) = setLights l s := retryWaiting_none hwaiting
  rw [lightsWarmStart, loadFreed, hl, hretry, hl']
  exact ⟨rfl, rfl⟩

/-! ### Mains return as a whole (R201) -/

theorem mainsBack_rest (opens : DialSet) (s : State) :
    (mainsBack opens s).bells = (lightsWarmStart (returnToldAll opens s)).bells ∧
      (mainsBack opens s).line = (lightsWarmStart (returnToldAll opens s)).line ∧
      (mainsBack opens s).lights = (lightsWarmStart (returnToldAll opens s)).lights := by
  obtain ⟨hbells, hline, hlights, -⟩ := rest_settlePeal (lightsWarmStart (returnToldAll opens s))
  exact ⟨hbells, hline, hlights⟩

theorem tower_returned (opens : DialSet) (s : State) : towerView (mainsBack opens s) = towerView (returnToldAll opens s) := by
  rw [mainsBack_eq, tower_settlePeal, lightsWarmStart, tower_loadFreed, tower_findWanted]

theorem pins_of_tower (h : towerView t = towerView s) : t.pins = s.pins := congrArg TowerView.pins h

theorem recovery_of_tower (h : towerView t = towerView s) : t.line.recoveryWanted = s.line.recoveryWanted :=
  congrArg (fun v : TowerView => v.line.recoveryWanted) h

theorem settings_tower (s : State) : (towerView s).settings = settingsView s := rfl

theorem flag_lightsWarmStart {f : AttnFlag} (h : flagSet s.attn f = true) : flagSet (lightsWarmStart s).attn f = true := by
  have hP := (flag_laneProof f).bells
  exact hP.restoration (hP.retryWaiting (hP.findWanted h))

theorem flag_mainsBack (opens : DialSet) (s : State) : flagSet (mainsBack opens s).attn .mainsBack = true := by
  rw [mainsBack_eq]
  exact (flag_laneProof .mainsBack).settlePeal (flag_lightsWarmStart (announced_toldAll opens s).flag)

theorem ordered_lightsWarmStart {st : Station} (h : Ordered st s) : Ordered st (lightsWarmStart s) :=
  ordered_restoration (ordered_retryWaiting (ordered_findWanted h))

theorem ordered_mainsBack {st : Station} (hp : (getBell s st).present = true) (hc : (getBell s st).ctrl = .automatic) :
    Ordered st (mainsBack opens s) := by
  rw [mainsBack_eq]
  exact ordered_settlePeal (ordered_lightsWarmStart (ordered_toldAll hp hc))

/-- The queries stand where no request waits for load. -/
theorem orders_mainsBack (opens : DialSet) (hw : s.lights.waiting = []) :
    (mainsBack opens s).bells = (returnToldAll opens s).bells ∧ (mainsBack opens s).line = (returnToldAll opens s).line := by
  have hwaiting : (returnToldAll opens s).lights.waiting = [] := by rw [(announced_toldAll opens s).lights]; exact hw
  obtain ⟨hbells, hline, -⟩ := mainsBack_rest opens s
  obtain ⟨hbells', hline'⟩ := orders_lightsWarmStart hwaiting
  exact ⟨hbells.trans hbells', hline.trans hline'⟩

theorem scene_toldAll (opens : DialSet) (s : State) : governingScene (returnToldAll opens s) = governingScene s := by
  have h := announced_toldAll opens s
  exact governingScene_congr (scene_of_overrides h.overrides) (by rw [h.lanes]) fun i => by rw [getSlot, getSlot, h.table]

theorem wanted_mainsBack (opens : DialSet) (s : State) (z : ZoneNo) :
    ((mainsBack opens s).lights.zones.get z).wanted = wantedLevel s.lights (governingScene s) z := by
  rw [(mainsBack_rest opens s).2.2, wanted_lightsWarmStart, scene_toldAll, (announced_toldAll opens s).lights]

/-- The zones after the return, where no request waits and none is above its wanted level before (R189, R191). -/
theorem restored_mainsBack (opens : DialSet) (hl : LevelsWithin s.lights) (hw : s.lights.waiting = []) :
    Restored (applyWanted (governingScene s) s.lights) (mainsBack opens s).lights := by
  have hlights := (announced_toldAll opens s).lights
  have hrestored := restored_lightsWarmStart (s := returnToldAll opens s) (by rw [hlights]; exact hl) (by rw [hlights]; exact hw)
  rwa [scene_toldAll, hlights, ← (mainsBack_rest opens s).2.2] at hrestored

theorem levels_of_zoneLaw {l : Lights} (h : ∀ z, zoneLaw (l.zones.get z)) : LevelsWithin l := fun z => (h z).1

theorem levels_mainsBack (opens : DialSet) (h : LevelsWithin s.lights) : LevelsWithin (mainsBack opens s).lights := by
  rw [(mainsBack_rest opens s).2.2]
  refine levels_lightsWarmStart ?_
  rw [(announced_toldAll opens s).lights]
  exact h

theorem restoreStep_mainsBack (opens : DialSet) (h : ∀ sc z, (s.lights.scenes.get sc).get z ≤ 3) :
    restoreStep (mainsBack opens s).lights = none := by
  rw [(mainsBack_rest opens s).2.2]
  refine restoreStep_lightsWarmStart (announced_toldAll opens s).mains ?_
  rw [(announced_toldAll opens s).lights]
  exact h

/-- What MAINS_RETURN does to the orders where none was. -/
theorem queries_mainsBack (opens : DialSet) (hw : s.lights.waiting = []) (hq : s.line.queue = []) (ho : ownOrder s.line = none)
    (hb : ∀ st, (getBell s st).ctrl = .automatic ∧ (getBell s st).owed = none) :
    (s.line.state ≠ .faulted →
      (mainsBack opens s).line.queue
        = ((List.finRange 31).filter fun st => (getBell s st).present).map fun st => ⟨st, .swing .query, 0, 0⟩) ∧
    (s.line.state = .faulted →
      (mainsBack opens s).line.queue = [] ∧
        ∀ st, (getBell s st).present = true → (getBell (mainsBack opens s) st).owed = some .query) := by
  obtain ⟨hbells, hline⟩ := orders_mainsBack opens hw
  refine ⟨fun hf => ?_, fun hf => ?_⟩
  · rw [hline]
    exact queue_toldAll hq ho hb hf
  · obtain ⟨hempty, howed⟩ := owed_toldAll (opens := opens) hq ho hb hf
    rw [hline]
    exact ⟨hempty, fun st hp => (congrArg (fun v => (v.get st).owed) hbells).trans (howed st hp)⟩

/-- Settles O59: mains loss cuts what goes on and mains return settles each block in turn; at the return the zones are restored step by
step, so that what holds of each step holds of the end. -/
theorem mainsChanges : Obligations.MainsChanges := by
  intro s hr
  refine ⟨fun hm => mainsLost_acts hr hm, fun opens hm => ?_⟩
  have hexec : exec (.mainsReturn opens) s = .next (mainsBack opens s) := by
    change execMainsReturn opens s = _
    rw [execMainsReturn, event_running hr, if_pos hm]
  have htold := announced_toldAll opens s
  have htower := tower_returned opens s
  have hsteady := steady_of_tower htower
  have hsettings := settings_mainsBack (s := s) opens
  rw [settings_tower, settings_tower] at hsettings
  refine ⟨mainsBack opens s, hexec, hsteady.mains.trans htold.mains, flag_mainsBack opens s, fun d => ?_,
    (congrArg Pins.mainsHigh (pins_of_tower htower)).trans htold.high, hsteady.time.trans htold.time,
    hsteady.overrides.trans htold.overrides, hsteady.port.trans htold.port, (recovery_of_tower htower).trans htold.recovery, hsettings,
    fun st hp hc => ordered_mainsBack hp hc, fun _ hw hq ho hb => queries_mainsBack opens hw hq ho hb,
    wanted_mainsBack opens s, fun hz => levels_mainsBack opens (levels_of_zoneLaw hz),
    fun hs z hshed hlast => restoreStep_none (restoreStep_mainsBack opens hs) hshed hlast, fun hz hw z => ?_⟩
  · rw [getDial, hsteady.dials]
    exact dial_toldAll opens s d
  · have hrestored := restored_mainsBack opens (levels_of_zoneLaw hz) hw
    have hpresent : ((applyWanted (governingScene s) s.lights).zones.get z).present
        = min (s.lights.zones.get z).present ((mainsBack opens s).lights.zones.get z).wanted := by
      rw [wanted_mainsBack, (applyWanted_zone _ _ _).2]
    rw [← hpresent]
    exact ⟨hrestored.rises z, fun y hy hbefore => hrestored.order z y hy hbefore⟩

end Sys2Proof.Mains
end

section
/-! PROOFS. The three bounds (R99, R137, R170): what the operations leave alone of the stack's length, the hand positions and the note
memory. Work in the tower leaves all three alone, which the lemmas of Laws/Tower.lean say; what follows is the rest. -/

namespace Sys2Proof.Bounds

open Sys2Proof Sys2Proof.Machine

variable {r s t : State}

/-! ### What the bounds read -/

/-- What the three bounds read of a tower view. -/
def boundsOf (v : TowerView) : Nat × Vector Nat 4 × Memory :=
  (v.overrides.entries.length, v.dials.map Dial.hand, v.settings.notes)

/-- From r on, the three bounds have been kept. -/
structure Within (r t : State) : Prop where
  stack : stackLaw r → stackLaw t
  hands : handLaw r → handLaw t
  notes : noteLaw r → noteLaw t

theorem Within.refl (s : State) : Within s s := ⟨id, id, id⟩

theorem Within.trans (h : Within r s) (h' : Within s t) : Within r t :=
  ⟨h'.stack ∘ h.stack, h'.hands ∘ h.hands, h'.notes ∘ h.notes⟩

theorem within_of_bounds (h : boundsOf (towerView t) = boundsOf (towerView s)) : Within s t := by
  obtain ⟨hlen, hview⟩ := Prod.mk.inj h
  obtain ⟨hhands, hnotes⟩ := Prod.mk.inj hview
  refine ⟨fun hl => hlen.trans_le hl, fun hl d => ?_, fun hl => ?_⟩
  · have hd := get_of_map_eq hhands d
    exact hd.trans_lt (hl d)
  · exact (congrArg Memory.wf hnotes).trans hl

/-! ### The named updates

The equations below are proved by `(rfl)` and not by `rfl`, so that simp uses them as rewrites where it discharges a hypothesis. -/

variable (s)

@[simp] theorem bounds_updSlot (i : SlotNo) (f : Slot → Slot) :
    boundsOf (towerView (updSlot i f s)) = boundsOf (towerView s) := (rfl)
@[simp] theorem bounds_updBell (st : Station) (f : Bell → Bell) :
    boundsOf (towerView (updBell st f s)) = boundsOf (towerView s) := (rfl)
@[simp] theorem bounds_mapBells (f : Bell → Bell) : boundsOf (towerView (mapBells f s)) = boundsOf (towerView s) := (rfl)
@[simp] theorem bounds_updTune (n : TuneNo) (f : Tune → Tune) :
    boundsOf (towerView (updTune n f s)) = boundsOf (towerView s) := (rfl)
@[simp] theorem bounds_updLine (f : Line → Line) : boundsOf (towerView (updLine f s)) = boundsOf (towerView s) := (rfl)
@[simp] theorem bounds_updTime (f : TimeBase → TimeBase) : boundsOf (towerView (updTime f s)) = boundsOf (towerView s) := (rfl)
@[simp] theorem bounds_updResolver (f : Resolver → Resolver) :
    boundsOf (towerView (updResolver f s)) = boundsOf (towerView s) := (rfl)
@[simp] theorem bounds_updTable (f : Table → Table) : boundsOf (towerView (updTable f s)) = boundsOf (towerView s) := (rfl)
@[simp] theorem bounds_updCalendar (f : Calendar → Calendar) :
    boundsOf (towerView (updCalendar f s)) = boundsOf (towerView s) := (rfl)
@[simp] theorem bounds_updStandby (f : List Entry → List Entry) :
    boundsOf (towerView (updStandby f s)) = boundsOf (towerView s) := (rfl)
@[simp] theorem bounds_setLights (l : Lights) : boundsOf (towerView (setLights l s)) = boundsOf (towerView s) := (rfl)
@[simp] theorem bounds_sampleWires (lck lda : Bool) : boundsOf (towerView (sampleWires lck lda s)) = boundsOf (towerView s) := (rfl)
@[simp] theorem bounds_sampleContact (d : DialNo) (closed : Bool) :
    boundsOf (towerView (sampleContact d closed s)) = boundsOf (towerView s) := (rfl)
@[simp] theorem bounds_sampleCircuit (d : DialNo) (isOpen : Bool) :
    boundsOf (towerView (sampleCircuit d isOpen s)) = boundsOf (towerView s) := (rfl)
@[simp] theorem bounds_sheets (x : Sheets) : boundsOf (towerView { s with sheets := x }) = boundsOf (towerView s) := (rfl)
@[simp] theorem bounds_time (x : TimeBase) : boundsOf (towerView { s with time := x }) = boundsOf (towerView s) := (rfl)
theorem bounds_time_sheets (x : TimeBase) (y : Sheets) :
    boundsOf (towerView { s with time := x, sheets := y }) = boundsOf (towerView s) := (rfl)
@[simp] theorem bounds_port (x : Port) : boundsOf (towerView { s with port := x }) = boundsOf (towerView s) := (rfl)

/-- A change of dials that moves no hand. -/
theorem bounds_updDial (d : DialNo) (f : Dial → Dial) (h : ∀ x, (f x).hand = x.hand) :
    boundsOf (towerView (updDial d f s)) = boundsOf (towerView s) := by
  simp only [boundsOf, towerView, updDial_dials, map_modify _ _ _ _ h]
  rfl

theorem bounds_foldl {α : Type} (f : State → α → State)
    (h : ∀ s x, boundsOf (towerView (f s x)) = boundsOf (towerView s)) (xs : List α) :
    boundsOf (towerView (xs.foldl f s)) = boundsOf (towerView s) :=
  foldl_view (fun s => boundsOf (towerView s)) f h xs s

/-! ### Dials and lights -/

@[simp] theorem bounds_evaluate (d : DialNo) : boundsOf (towerView (evaluate d s)) = boundsOf (towerView s) := by
  unfold evaluate
  dsimp only
  split
  · rfl
  · exact bounds_updDial _ _ _ fun _ => rfl

@[simp] theorem bounds_evaluateAll : boundsOf (towerView (evaluateAll s)) = boundsOf (towerView s) := by
  unfold evaluateAll
  generalize dialTarget s.time = n
  rw [bounds_foldl _ _ fun s d => bounds_evaluate s d]
  rfl

@[simp] theorem bounds_evaluateSet (ds : DialSet) : boundsOf (towerView (evaluateSet ds s)) = boundsOf (towerView s) :=
  bounds_foldl _ _ (fun s d => bounds_evaluate s d) _

@[simp] theorem bounds_senseDial (d : DialNo) : boundsOf (towerView (senseDial d s)) = boundsOf (towerView s) := by
  unfold senseDial
  dsimp only
  split
  · rfl
  · split <;> exact bounds_updDial _ _ _ fun _ => rfl

@[simp] theorem bounds_senseAll : boundsOf (towerView (senseAll s)) = boundsOf (towerView s) :=
  bounds_foldl _ _ (fun s d => bounds_senseDial s d) _

@[simp] theorem bounds_cutImpulses : boundsOf (towerView (cutImpulses s)) = boundsOf (towerView s) :=
  bounds_foldl _ _ (fun s d => bounds_updDial s d cutImpulse fun _ => rfl) _

@[simp] theorem bounds_targetChange : boundsOf (towerView (targetChange s)) = boundsOf (towerView s) := by
  unfold targetChange
  split <;> simp

@[simp] theorem bounds_acceptDial (d : DialNo) (p : Bool) (w i l : Nat) (y o : Bool) :
    boundsOf (towerView (acceptDial d p w i l y o s)) = boundsOf (towerView s) := by
  have h := bounds_updDial s d (configureDial p w i l y) fun _ => rfl
  unfold acceptDial
  dsimp only
  split <;> simp [h]

@[simp] theorem bounds_shedToFit : boundsOf (towerView (shedToFit s)) = boundsOf (towerView s) := by
  unfold shedToFit
  split <;> simp

/-! ### The override stack -/

@[simp] theorem bounds_handOn (old : Effective) : boundsOf (towerView (handOn old s)) = boundsOf (towerView s) := by
  unfold handOn
  dsimp only
  split <;> simp

/-- The stack is replaced by one of another length, and nothing else moves. -/
theorem within_setStack (es : List Override) (h : stackLaw s → es.length ≤ Config.stackCapacity) : Within s (setStack es s) := by
  have hstack : Within s { s with overrides := { s.overrides with entries := es } } := ⟨h, id, id⟩
  exact hstack.trans (within_of_bounds (bounds_handOn _ _))

theorem within_expireOverrides : Within s (expireOverrides s) := by
  unfold expireOverrides
  split
  · exact within_setStack s _ fun hl => (List.length_filter_le _ _).trans hl
  · exact Within.refl s

theorem within_expireEvery : Within s (expireEvery s) := by
  unfold expireEvery
  split
  · exact within_setStack s _ fun hl => (List.length_filter_le _ _).trans hl
  · exact Within.refl s

theorem within_push (body : OverrideBody) (minutes : Nat) (h : s.overrides.entries.length < Config.stackCapacity) :
    Within s (push body minutes s) := by
  have hid : Within s { s with overrides := { s.overrides with lastId := nextId s.overrides } } := ⟨id, id, id⟩
  refine hid.trans (within_setStack _ _ fun _ => ?_)
  rw [List.length_append]
  exact h

/-! ### Requests, steps, seconds and days -/

@[simp] theorem bounds_requestToday (z : Bool) : boundsOf (towerView (requestToday z s)) = boundsOf (towerView s) := by
  unfold requestToday
  split <;> rfl

@[simp] theorem bounds_requestStandby : boundsOf (towerView (requestStandby s)) = boundsOf (towerView s) := by
  unfold requestStandby
  split <;> rfl

@[simp] theorem bounds_markStale : boundsOf (towerView (markStale s)) = boundsOf (towerView s) := (rfl)
@[simp] theorem bounds_trigger : boundsOf (towerView (trigger s)) = boundsOf (towerView s) := by simp [trigger]

@[simp] theorem bounds_abandonBuilds : boundsOf (towerView (abandonBuilds s)) = boundsOf (towerView s) := (rfl)
@[simp] theorem bounds_emptySheets : boundsOf (towerView (emptySheets s)) = boundsOf (towerView s) := (rfl)
@[simp] theorem bounds_dropStandby : boundsOf (towerView (dropStandby s)) = boundsOf (towerView s) := (rfl)
@[simp] theorem bounds_noteInstant : boundsOf (towerView (noteInstant s)) = boundsOf (towerView s) := (rfl)

theorem within_stepTail : Within s (stepTail s) :=
  (within_expireOverrides s).trans (within_of_bounds (by simp [stepTail]))

theorem within_stepToDate (forward : Bool) (new : TimeBase) : Within s (stepToDate forward new s) := by
  refine Within.trans (within_of_bounds ?_) (within_stepTail _)
  simp

theorem within_stepWithin (a : Nat) (new : TimeBase) : Within s (stepWithin a new s) := by
  refine Within.trans (within_of_bounds ?_) (within_stepTail _)
  rw [bounds_trigger, tower_recomputeLit]
  split
  · rw [tower_jumpForward]; rfl
  · rfl

theorem within_endRange : Within s (endRange s) := (within_stepToDate s _ _).trans (within_expireEvery _)

theorem within_takeStep (new : TimeBase) : Within s (takeStep new s) := by
  unfold takeStep
  dsimp only
  split
  · exact Within.trans (within_of_bounds (bounds_updTime _ _)) (within_endRange _)
  · split
    · exact within_stepWithin s _ _
    · exact within_stepToDate s _ _

@[simp] theorem bounds_replaceTallies (new : Vector Nat 128) :
    boundsOf (towerView (replaceTallies new s)) = boundsOf (towerView s) := by
  unfold replaceTallies
  dsimp only
  rw [foldl_view towerView _ fun s i => settings_writeTally s _ _ i]
  rfl

@[simp] theorem bounds_installDay : boundsOf (towerView (installDay s)) = boundsOf (towerView s) := by
  unfold installDay
  dsimp only
  split <;> simp

@[simp] theorem bounds_joinCarried (e : Entry) : boundsOf (towerView (joinCarried e s)) = boundsOf (towerView s) := by
  simp [joinCarried]

@[simp] theorem bounds_dayChange : boundsOf (towerView (dayChange s)) = boundsOf (towerView s) := by
  unfold dayChange
  dsimp only
  rw [tower_spentCheckAll, bounds_requestStandby, bounds_dropStandby, tower_recomputeLit, tower_fallDueNow,
    bounds_foldl _ (fun acc e => joinCarried e acc) bounds_joinCarried, bounds_installDay, bounds_abandonBuilds]
  rw [bounds_time_sheets (finishDay s), tower_finishDay]

theorem within_secondTurns (turns : Bool) : Within s (if turns then evaluateAll s else s) := by
  cases turns
  · exact Within.refl s
  · exact within_of_bounds (bounds_evaluateAll s)

theorem within_endSecond : Within s (endSecond s) := by
  have helapsed : ∀ n, Within s { s with elapsed := n } := fun n => within_of_bounds rfl
  have hcounted : ∀ n u, Within s { s with elapsed := n, time := u } := fun n u => within_of_bounds rfl
  unfold endSecond
  dsimp only
  generalize s.elapsed + (secondLength s.time.slew - s.time.fraction) = n
  split
  · exact (helapsed n).trans (within_endRange _)
  · refine ((hcounted n (advance s.time)).trans ?_).trans (within_secondTurns _ _)
    generalize ({ s with elapsed := n, time := advance s.time } : State) = u
    split
    · exact (within_expireOverrides u).trans (within_of_bounds (bounds_dayChange _))
    · exact within_of_bounds (bounds_noteInstant u)

/-! ### The reference -/

@[simp] theorem bounds_dropWaiting : boundsOf (towerView (dropWaiting s)) = boundsOf (towerView s) := (rfl)
@[simp] theorem bounds_assemble (got : List Byte) : boundsOf (towerView (assemble got s)) = boundsOf (towerView s) := (rfl)

@[simp] theorem bounds_completeMessage (bytes : List Byte) :
    boundsOf (towerView (completeMessage bytes s)) = boundsOf (towerView s) := by
  unfold completeMessage
  split <;> simp

@[simp] theorem bounds_receiveBytes (bytes : List Byte) :
    boundsOf (towerView (receiveBytes bytes s)) = boundsOf (towerView s) := by
  unfold receiveBytes
  dsimp only
  split
  · rfl
  · split
    · simp
    · split
      · simp
      · split <;> simp

@[simp] theorem bounds_abandonMessage : boundsOf (towerView (abandonMessage s)) = boundsOf (towerView s) := by
  unfold abandonMessage
  split <;> rfl

theorem within_pulse : Within s (pulse s) := by
  have hdrop : Within s (dropWaiting s) := within_of_bounds (bounds_dropWaiting s)
  unfold pulse
  split
  · exact Within.refl s
  · split
    · unfold takePair outlyingPair
      dsimp only
      split
      · exact hdrop.trans (within_of_bounds rfl)
      · split
        · exact hdrop.trans (within_takeStep _ _)
        · exact hdrop.trans (within_of_bounds rfl)
    · exact hdrop

/-! ### The resolver, the sheets and the records -/

@[simp] theorem bounds_startRun (kind : RunKind) : boundsOf (towerView (startRun kind s)) = boundsOf (towerView s) := by
  cases kind <;> exact bounds_updResolver _ _

@[simp] theorem bounds_endRun : boundsOf (towerView (endRun s)) = boundsOf (towerView s) := (rfl)

@[simp] theorem bounds_installToday (g : List Entry) : boundsOf (towerView (installToday g s)) = boundsOf (towerView s) := by
  simp [installToday]

@[simp] theorem bounds_installStandby (g : List Entry) (b : Bool) :
    boundsOf (towerView (installStandby g b s)) = boundsOf (towerView s) := by
  simp [installStandby]

@[simp] theorem bounds_completeQuery (D : Nat) : boundsOf (towerView (completeQuery D s)) = boundsOf (towerView s) := by
  simp [completeQuery]

@[simp] theorem bounds_relit (k : Key) : boundsOf (towerView (relit k s)) = boundsOf (towerView s) := (rfl)

@[simp] theorem bounds_fallOne : boundsOf (towerView (fallOne s)) = boundsOf (towerView s) := by
  unfold fallOne
  repeat' split
  all_goals simp

@[simp] theorem bounds_completeCheck (n : TuneNo) : boundsOf (towerView (completeCheck n s)) = boundsOf (towerView s) := by
  unfold completeCheck
  dsimp only
  split <;> simp

@[simp] theorem bounds_forgetGenerated (i : SlotNo) : boundsOf (towerView (forgetGenerated i s)) = boundsOf (towerView s) := (rfl)
@[simp] theorem bounds_removeWaiting (i : SlotNo) : boundsOf (towerView (removeWaiting i s)) = boundsOf (towerView s) := (rfl)
@[simp] theorem bounds_removeAll (i : SlotNo) : boundsOf (towerView (removeAll i s)) = boundsOf (towerView s) := (rfl)
@[simp] theorem bounds_lockSlots (b : Bool) : boundsOf (towerView (lockSlots b s)) = boundsOf (towerView s) := (rfl)
@[simp] theorem bounds_lockTunes (b : Bool) : boundsOf (towerView (lockTunes b s)) = boundsOf (towerView s) := (rfl)

@[simp] theorem bounds_stopSlot (i : SlotNo) : boundsOf (towerView (stopSlot i s)) = boundsOf (towerView s) :=
  bounds_foldl _ _ (fun s lane => congrArg boundsOf (tower_stopLane s lane)) _

@[simp] theorem bounds_withdraw (i : SlotNo) : boundsOf (towerView (withdraw i s)) = boundsOf (towerView s) := by
  simp [withdraw, unlight]

@[simp] theorem bounds_retire (i : SlotNo) : boundsOf (towerView (retire i s)) = boundsOf (towerView s) := by
  simp [retire, unlight]

/-! ### Bells -/

@[simp] theorem bounds_takeBell (st : Station) : boundsOf (towerView (takeBell st s)) = boundsOf (towerView s) := by
  unfold takeBell
  dsimp only
  split <;> simp

@[simp] theorem bounds_grantBell (st : Station) : boundsOf (towerView (grantBell st s).1) = boundsOf (towerView s) := by
  have hask := tower_askAdmission s st false
  unfold grantBell
  dsimp only
  generalize askAdmission st false s = asked at hask ⊢
  obtain ⟨u, admitted⟩ := asked
  repeat' split
  all_goals simp_all

@[simp] theorem bounds_grantAll (sts : List Station) (g : BellSet) :
    boundsOf (towerView (grantAll sts s g).1) = boundsOf (towerView s) := by
  induction sts generalizing s g with
  | nil => rfl
  | cons st rest ih =>
    have hgrant := bounds_grantBell s st
    unfold grantAll
    generalize grantBell st s = granted at hgrant ⊢
    obtain ⟨u, b⟩ := granted
    cases b <;> exact (ih u _).trans hgrant

@[simp] theorem bounds_claimBells (set : BellSet) : boundsOf (towerView (claimBells set s).1) = boundsOf (towerView s) := by
  simp [claimBells]

@[simp] theorem bounds_giveBack (st : Station) : boundsOf (towerView (giveBack st s)) = boundsOf (towerView s) := by
  simp [giveBack]

@[simp] theorem bounds_releaseBells (set : BellSet) : boundsOf (towerView (releaseBells set s)) = boundsOf (towerView s) := by
  unfold releaseBells
  dsimp only
  rw [tower_settlePeal, tower_setFlagIf]
  exact bounds_foldl _ _ (fun s st => bounds_giveBack s st) _

@[simp] theorem bounds_makeAbsent (st : Station) : boundsOf (towerView (makeAbsent st s)) = boundsOf (towerView s) := by
  unfold makeAbsent
  dsimp only
  split <;> simp

@[simp] theorem bounds_acceptBell (st : Station) (c : BellConfig) :
    boundsOf (towerView (acceptBell st c s)) = boundsOf (towerView s) := by
  unfold acceptBell
  dsimp only
  repeat' split
  all_goals simp

@[simp] theorem bounds_bellsMainsLoss : boundsOf (towerView (bellsMainsLoss s)) = boundsOf (towerView s) := by
  unfold bellsMainsLoss
  dsimp only
  rw [tower_setFlagIf, tower_peal, bounds_mapBells]
  simp

@[simp] theorem bounds_bellsWarmStart : boundsOf (towerView (bellsWarmStart s)) = boundsOf (towerView s) := by
  simp [bellsWarmStart]

@[simp] theorem bounds_bellsResetFirst : boundsOf (towerView (bellsResetFirst s)) = boundsOf (towerView s) := by
  unfold bellsResetFirst
  rw [bounds_foldl _ _ fun s st => congrArg boundsOf (tower_startPolling s st)]
  simp

/-! ### The line -/

@[simp] theorem bounds_lineIdle : boundsOf (towerView (lineIdle s)) = boundsOf (towerView s) := (rfl)
@[simp] theorem bounds_frameStopped : boundsOf (towerView (frameStopped s)) = boundsOf (towerView s) := (rfl)
@[simp] theorem bounds_clockSeen : boundsOf (towerView (clockSeen s)) = boundsOf (towerView s) := (rfl)
@[simp] theorem bounds_frameBroken : boundsOf (towerView (frameBroken s)) = boundsOf (towerView s) := (rfl)
@[simp] theorem bounds_clearLine (st : LineState) : boundsOf (towerView (clearLine st s)) = boundsOf (towerView s) := (rfl)
@[simp] theorem bounds_beginRestart : boundsOf (towerView (beginRestart s)) = boundsOf (towerView s) := (rfl)
@[simp] theorem bounds_restartClock : boundsOf (towerView (restartClock s)) = boundsOf (towerView s) := (rfl)
@[simp] theorem bounds_forceAccess : boundsOf (towerView (forceAccess s)) = boundsOf (towerView s) := (rfl)

@[simp] theorem bounds_lineFault (cause : FaultCause) : boundsOf (towerView (lineFault cause s)) = boundsOf (towerView s) := by
  unfold lineFault
  dsimp only
  rw [tower_settlePeal, tower_bellsLineFault, tower_setFlag, foldl_view towerView _ fun s o => tower_orderReturned s o]
  simp

@[simp] theorem bounds_flushLine (st : LineState) : boundsOf (towerView (flushLine st s)) = boundsOf (towerView s) := by
  simp [flushLine]

@[simp] theorem bounds_linePanelReset : boundsOf (towerView (linePanelReset s)) = boundsOf (towerView s) := by
  unfold linePanelReset
  dsimp only
  split <;> simp

@[simp] theorem bounds_lineWarmStart : boundsOf (towerView (lineWarmStart s)) = boundsOf (towerView s) := by
  unfold lineWarmStart
  dsimp only
  split <;> simp

@[simp] theorem bounds_attemptFailed (kind : AttemptKind) (cause : FaultCause) :
    boundsOf (towerView (attemptFailed kind cause s)) = boundsOf (towerView s) := by
  cases kind <;> simp [attemptFailed]

@[simp] theorem bounds_attemptOver (r : AttemptResult) : boundsOf (towerView (attemptOver r s)) = boundsOf (towerView s) := by
  unfold attemptOver
  split
  · rfl
  · cases r <;> simp [attemptFreed]

@[simp] theorem bounds_tryWires (lck lda : Bool) : boundsOf (towerView (tryWires lck lda s)) = boundsOf (towerView s) := by
  unfold tryWires sendHead
  repeat' split
  all_goals simp

@[simp] theorem bounds_frameStart (lck lda : Bool) : boundsOf (towerView (frameStart lck lda s)) = boundsOf (towerView s) := by
  unfold frameStart
  dsimp only
  repeat' split
  all_goals simp

@[simp] theorem bounds_attemptEnd (a : StationAnswer) : boundsOf (towerView (attemptEnd a s)) = boundsOf (towerView s) := by
  unfold attemptEnd orderAnswered orderUnanswered
  dsimp only
  repeat' split
  all_goals simp

@[simp] theorem bounds_loseArbitration (f : FrameHead) :
    boundsOf (towerView (loseArbitration f s)) = boundsOf (towerView s) := by
  unfold loseArbitration
  repeat' split
  all_goals simp

@[simp] theorem bounds_foreignBegins (address : Byte) :
    boundsOf (towerView (foreignBegins address s)) = boundsOf (towerView s) := by
  unfold foreignBegins
  split <;> simp

@[simp] theorem bounds_observedStop (rest : List Byte) (ack : Bool) :
    boundsOf (towerView (observedStop rest ack s)) = boundsOf (towerView s) := by
  unfold observedStop
  repeat' split
  all_goals simp

@[simp] theorem bounds_claimFrame (set : BellSet) : boundsOf (towerView (claimFrame set s)) = boundsOf (towerView s) := by
  unfold claimFrame
  split <;> simp

@[simp] theorem bounds_releaseFrame (order : Byte) (set : BellSet) :
    boundsOf (towerView (releaseFrame order set s)) = boundsOf (towerView s) := by
  unfold releaseFrame
  split <;> simp

@[simp] theorem bounds_addressedStop : boundsOf (towerView (addressedStop s)) = boundsOf (towerView s) := by
  unfold addressedStop
  split <;> simp

@[simp] theorem bounds_busErrorIn : boundsOf (towerView (busErrorIn s)) = boundsOf (towerView s) := by
  unfold busErrorIn
  repeat' split
  all_goals simp

@[simp] theorem bounds_pulsesDone (freed : Bool) : boundsOf (towerView (pulsesDone freed s)) = boundsOf (towerView s) := by
  unfold pulsesDone
  dsimp only
  repeat' split
  all_goals simp

@[simp] theorem bounds_clockFault : boundsOf (towerView (clockFault s)) = boundsOf (towerView s) := by
  unfold clockFault
  split <;> simp

/-! ### Power and mains -/

@[simp] theorem bounds_setMains (high : Bool) (m : MainsState) :
    boundsOf (towerView (setMains high m s)) = boundsOf (towerView s) := (rfl)
@[simp] theorem bounds_sampleCircuits (opens : DialSet) :
    boundsOf (towerView (sampleCircuits opens s)) = boundsOf (towerView s) := (rfl)
@[simp] theorem bounds_timePanelReset : boundsOf (towerView (timePanelReset s)) = boundsOf (towerView s) := (rfl)
@[simp] theorem bounds_clearAllFlags : boundsOf (towerView (clearAllFlags s)) = boundsOf (towerView s) := (rfl)
@[simp] theorem bounds_portReset : boundsOf (towerView (portReset s)) = boundsOf (towerView s) := (rfl)
@[simp] theorem bounds_emptyWaiting : boundsOf (towerView (emptyWaiting s)) = boundsOf (towerView s) := (rfl)
@[simp] theorem bounds_discardAll : boundsOf (towerView (discardAll s)) = boundsOf (towerView s) := (rfl)
@[simp] theorem bounds_setResetPin (high : Bool) : boundsOf (towerView (setResetPin high s)) = boundsOf (towerView s) := (rfl)

@[simp] theorem bounds_dialsPanelReset : boundsOf (towerView (dialsPanelReset s)) = boundsOf (towerView s) := by
  unfold dialsPanelReset
  split <;> simp

@[simp] theorem bounds_mainsLoss : boundsOf (towerView (mainsLoss s)) = boundsOf (towerView s) := by
  simp [mainsLoss, dialsMainsLoss, lineMainsLoss]

@[simp] theorem bounds_mainsBack (opens : DialSet) : boundsOf (towerView (mainsBack opens s)) = boundsOf (towerView s) := by
  simp [mainsBack, lightsWarmStart, dialsWarmStart]

@[simp] theorem bounds_panelReset (opens : DialSet) : boundsOf (towerView (panelReset opens s)) = boundsOf (towerView s) := by
  simp [panelReset]

@[simp] theorem bounds_powerUpMains (high : Bool) (opens : DialSet) :
    boundsOf (towerView (powerUpMains high opens s)) = boundsOf (towerView s) := by
  unfold powerUpMains
  repeat' split
  all_goals simp

theorem within_powerUpHeld (high : Bool) (opens : DialSet) : Within s (powerUpHeld high opens s) := by
  have hreset : Within s (panelReset opens { s with power := .running }) := within_of_bounds (bounds_panelReset _ opens)
  exact (hreset.trans (within_stepToDate _ _ _)).trans (within_of_bounds (bounds_powerUpMains _ _ _))

/-- A cold start holds the bounds whatever came before it. -/
theorem within_coldStarted (high : Bool) : Within s (coldStarted high s) := by
  refine ⟨fun _ => Nat.zero_le _, fun _ d => ?_, fun _ => rfl⟩
  simp [coldStarted, State.cold, Dial.cold, Config.faceSteps]

/-! ### Hands that move (R170, R174, R177, R178) -/

/-- One dial is changed, and its hand stays on the face. -/
theorem within_updDial (d : DialNo) (f : Dial → Dial)
    (h : (getDial s d).hand < Config.faceSteps → (f (getDial s d)).hand < Config.faceSteps) : Within s (updDial d f s) := by
  refine ⟨id, fun hl e => ?_, id⟩
  rw [updDial_dials, get_modify]
  split
  · next heq => subst heq; exact h (hl _)
  · exact hl e

theorem within_takeClosure (d : DialNo) : Within s (takeClosure d s) := by
  unfold takeClosure
  split
  · exact Within.refl s
  · refine (within_updDial s d (fun x => { x with hand := 0, slips := satAdd 255 x.slips 1 }) fun _ => ?_).trans
      (within_of_bounds (congrArg boundsOf (tower_setFlag _ _)))
    exact Nat.zero_lt_of_lt (Nat.lt_succ_self 1439)

theorem within_endImpulse (d : DialNo) (o : Bool) : Within s (endImpulse d o s) := by
  have hends : Within s (updDial d impulseEnds s) := within_updDial s d _ fun _ => Nat.mod_lt _ (by decide)
  have hclosure : Within s (if (getDial s d).closure then takeClosure d (updDial d impulseEnds s) else updDial d impulseEnds s) := by
    split
    · exact hends.trans (within_takeClosure _ d)
    · exact hends
  refine hclosure.trans (within_of_bounds ?_)
  unfold endImpulse
  dsimp only
  rw [bounds_evaluate]
  split <;> simp

theorem within_closureOf (d : DialNo) : Within s (closureOf d s) := by
  unfold closureOf
  repeat' split
  · exact Within.refl s
  · exact within_of_bounds (bounds_updDial _ _ _ fun _ => rfl)
  · exact Within.refl s
  · exact (within_takeClosure s d).trans (within_of_bounds (bounds_evaluate _ _))

end Sys2Proof.Bounds
end

section
/-! PROOFS. The bounds through every command and every step, and O12 (R99, R137, R170). -/

namespace Sys2Proof.Bounds

open Sys2Proof Sys2Proof.Machine

variable {s t : State}

/-! ### The commands of the port -/

/-- A command that its owner carries out keeps the bounds; a refusal changes nothing they read. -/
def Accepted (s : State) (r : Except Code State) : Prop := ∀ u, r = .ok u → Within s u

@[simp] theorem accepted_error (c : Code) : Accepted s (.error c) := fun _ h => nomatch h

theorem accepted_ok (h : Within s t) : Accepted s (.ok t) := fun _ hu => Except.ok.inj hu ▸ h

@[simp] theorem accepted_bounds (h : boundsOf (towerView t) = boundsOf (towerView s)) : Accepted s (.ok t) :=
  accepted_ok (within_of_bounds h)

variable (s)

theorem accepted_withSlot (ops : List Byte) (f : SlotNo → Except Code State) (h : ∀ i, Accepted s (f i)) :
    Accepted s (withSlot ops f) := by
  unfold withSlot
  repeat' split
  all_goals simp [h]

theorem accepted_writeRecord (ops : List Byte) : Accepted s (writeRecord ops s) := by
  unfold writeRecord writeImage
  repeat' split
  all_goals simp

theorem accepted_publish (i : SlotNo) : Accepted s (publish i s) := by
  unfold publish
  dsimp only
  repeat' split
  all_goals simp

theorem accepted_publishRecord (ops : List Byte) : Accepted s (publishRecord ops s) :=
  accepted_withSlot s ops _ fun i => by
    repeat' split
    all_goals simp [accepted_publish]

theorem accepted_withdrawRecord (ops : List Byte) : Accepted s (withdrawRecord ops s) :=
  accepted_withSlot s ops _ fun i => by
    repeat' split
    all_goals simp

theorem accepted_retireRecord (ops : List Byte) : Accepted s (retireRecord ops s) :=
  accepted_withSlot s ops _ fun i => by
    repeat' split
    all_goals simp

theorem accepted_writeProtection (ops : List Byte) (key : KeyLevel) : Accepted s (writeProtection ops key s) := by
  unfold writeProtection
  repeat' split
  all_goals simp

theorem accepted_lockOne (b : Bool) (ops : List Byte) : Accepted s (lockOne b ops s) :=
  accepted_withSlot s ops _ fun i => by simp

theorem accepted_noOperands (ops : List Byte) (h : Within s t) : Accepted s (noOperands ops t) := by
  unfold noOperands
  split
  · exact accepted_ok h
  · simp

theorem accepted_lockTuneCmd (b : Bool) (ops : List Byte) : Accepted s (lockTuneCmd b ops s) := by
  unfold lockTuneCmd
  repeat' split
  all_goals simp

theorem accepted_setTime (ops : List Byte) : Accepted s (setTime ops s) := by
  unfold setTime
  repeat' split
  all_goals simp [accepted_ok (within_takeStep s _)]

theorem accepted_adjustTime (ops : List Byte) : Accepted s (adjustTime ops s) := by
  unfold adjustTime
  repeat' split
  all_goals simp

theorem accepted_writeTimeSettings (ops : List Byte) : Accepted s (writeTimeSettings ops s) := by
  unfold writeTimeSettings
  dsimp only
  split
  · split
    · split
      · simp
      · split
        · simp
        · exact accepted_ok (within_takeStep s _)
    · simp
  · simp

theorem accepted_writeSundayRank (ops : List Byte) : Accepted s (writeSundayRank ops s) := by
  unfold writeSundayRank
  repeat' split
  all_goals simp

theorem accepted_writeTwilight (ops : List Byte) : Accepted s (writeTwilight ops s) := by
  unfold writeTwilight
  repeat' split
  all_goals simp

theorem accepted_queryDay (ops : List Byte) : Accepted s (queryDay ops s) := by
  unfold queryDay
  repeat' split
  all_goals simp

theorem accepted_pushOverride (ops : List Byte) : Accepted s (pushOverride ops s) := by
  unfold pushOverride
  split
  · split
    · simp
    · split
      · simp
      · split
        · simp
        · next hroom => exact accepted_ok (within_push s _ _ (Nat.lt_of_not_le hroom))
  · simp

theorem accepted_popOverride (ops : List Byte) : Accepted s (popOverride ops s) := by
  unfold popOverride
  repeat' split
  · simp
  · refine accepted_ok (within_setStack s _ fun hl => ?_)
    exact (List.dropLast_sublist _).length_le.trans hl
  · simp

theorem accepted_dropOverride (ops : List Byte) : Accepted s (dropOverride ops s) := by
  unfold dropOverride
  repeat' split
  · exact accepted_ok (within_setStack s _ fun hl => (List.length_filter_le _ _).trans hl)
  · simp
  · simp

theorem accepted_writeBell (ops : List Byte) : Accepted s (writeBell ops s) := by
  unfold writeBell
  dsimp only
  repeat' split
  all_goals simp

theorem accepted_freeBell (ops : List Byte) : Accepted s (freeBell ops s) := by
  unfold freeBell
  repeat' split
  all_goals simp

theorem accepted_withTune (n : Nat) (f : TuneNo → Except Code State) (h : ∀ i, Accepted s (f i)) :
    Accepted s (withTune n s f) := by
  unfold withTune
  repeat' split
  all_goals simp [h]

theorem accepted_whileLoading (n : TuneNo) {r : Except Code State} (h : Accepted s r) :
    Accepted s (whileLoading s n r) := by
  unfold whileLoading
  split
  · exact h
  all_goals simp

theorem within_setNotes (n : Nat) (xs : List Note) : Within s (setNotes n xs s) := ⟨id, id, wf_setNotes n xs s⟩

theorem accepted_openTune (ops : List Byte) : Accepted s (openTune ops s) := by
  unfold openTune
  split
  · refine accepted_withTune s _ _ fun n => ?_
    dsimp only
    repeat' split
    · simp
    · simp
    · simp
    · exact accepted_ok (Within.trans (within_of_bounds (bounds_updTune _ _ _)) (within_setNotes _ _ _))
  · simp

theorem accepted_writeNotes (ops : List Byte) : Accepted s (writeNotes ops s) := by
  unfold writeNotes
  split
  · split
    · simp
    · split
      · simp
      · refine accepted_withTune s _ _ fun n => accepted_whileLoading s n ?_
        split
        · exact accepted_ok (within_setNotes _ _ _)
        · simp
  · simp

theorem accepted_closeTune (ops : List Byte) : Accepted s (closeTune ops s) := by
  unfold closeTune
  split
  · exact accepted_withTune s _ _ fun n => accepted_whileLoading s n (by simp)
  · simp

theorem accepted_clearTune (ops : List Byte) : Accepted s (clearTune ops s) := by
  unfold clearTune
  split
  · refine accepted_withTune s _ _ fun n => ?_
    repeat' split
    all_goals simp
  · simp

theorem accepted_clearLineCmd (ops : List Byte) : Accepted s (clearLineCmd ops s) := by
  unfold clearLineCmd
  repeat' split
  all_goals simp

theorem accepted_writeLineSettings (ops : List Byte) : Accepted s (writeLineSettings ops s) := by
  unfold writeLineSettings
  repeat' split
  all_goals simp

theorem accepted_writeDial (ops : List Byte) (circuitOpen : Bool) : Accepted s (writeDial ops circuitOpen s) := by
  unfold writeDial
  repeat' split
  all_goals simp

theorem accepted_setDialHands (ops : List Byte) : Accepted s (setDialHands ops s) := by
  unfold setDialHands
  split
  · split
    · split
      · simp
      · next hface =>
        repeat' split
        · simp
        · simp
        · exact accepted_ok ((within_updDial s _ _ fun _ => Nat.lt_of_not_le hface).trans (within_of_bounds (bounds_evaluate _ _)))
    · simp
  · simp

theorem accepted_writeZone (ops : List Byte) : Accepted s (writeZone ops s) := by
  unfold writeZone acceptZone
  dsimp only
  repeat' split
  all_goals simp

theorem accepted_writeScene (ops : List Byte) : Accepted s (writeScene ops s) := by
  unfold writeScene
  repeat' split
  all_goals simp

theorem accepted_setAllowance (ops : List Byte) : Accepted s (setAllowance ops s) := by
  unfold setAllowance acceptAllowance
  dsimp only
  repeat' split
  all_goals simp

theorem accepted_clearAttention (ops : List Byte) : Accepted s (clearAttention ops s) := by
  unfold clearAttention
  repeat' split
  · simp
  · exact accepted_bounds rfl
  · simp

theorem accepted_writeAttentionEnables (ops : List Byte) : Accepted s (writeAttentionEnables ops s) := by
  unfold writeAttentionEnables
  repeat' split
  · simp
  · exact accepted_bounds rfl
  · simp

/-! ### The outcomes of a command -/

/-- A step's outcome keeps the bounds. -/
def Kept (s : State) (r : Result) : Prop := ∀ t, r = .next t → Within s t

variable {s}

theorem kept_next (h : Within s t) : Kept s (.next t) := fun _ hu => Host.Outcome.next.inj hu ▸ h

theorem kept_change {r : Except Code State} (h : Accepted s r) : Kept s (change r s) := by
  unfold change
  repeat' split
  · exact kept_next ((h _ rfl).trans (within_of_bounds (bounds_port _ _)))
  · exact kept_next (within_of_bounds (bounds_port _ _))
  · exact kept_next (Within.refl s)

theorem kept_answer (r : Except Code (List Byte)) : Kept s (answer r s) := by
  unfold answer
  repeat' split
  · exact kept_next (within_of_bounds (bounds_port _ _))
  · exact kept_next (within_of_bounds (bounds_port _ _))
  · exact kept_next (Within.refl s)

theorem kept_event {f : State → State} (h : Within s (f s)) : Kept s (event f s) := by
  unfold event
  split
  · exact kept_next h
  · exact kept_next (Within.refl s)

theorem within_if {c : Prop} [Decidable c] (h : Within s t) : Within s (if c then t else s) := by
  split
  · exact h
  · exact Within.refl s

variable (s)

theorem kept_readDial (ops : List Byte) (closed : Bool) : Kept s (exec (.readDial ops closed) s) := by
  have hsampled : Within s (sampleReadContact ops closed s) := by
    unfold sampleReadContact
    repeat' split
    all_goals exact within_of_bounds (by simp)
  exact fun t ht => hsampled.trans (kept_answer _ t ht)

theorem within_sampleKey (key : KeyLevel) : Within s (sampleKey key s) := by
  unfold sampleKey
  split
  · exact within_of_bounds rfl
  · exact Within.refl s

theorem kept_readStatus : Kept s (exec .readStatus s) := by
  change Kept s (execReadStatus s)
  unfold execReadStatus
  split
  · exact kept_next (within_of_bounds (bounds_port _ _))
  · exact kept_next (Within.refl s)

theorem kept_resetPin (opens : DialSet) : Kept s (exec (.resetPin opens) s) := by
  have hlow : Within s (setResetPin false s) := within_of_bounds (bounds_setResetPin s false)
  change Kept s (execResetPin opens s)
  unfold execResetPin
  split
  · exact kept_next (hlow.trans (within_of_bounds (bounds_panelReset _ opens)))
  · exact kept_next hlow

theorem kept_coldStart (high : Bool) : Kept s (exec (.coldStart high) s) := by
  change Kept s (execColdStart high s)
  unfold execColdStart
  split
  · exact kept_next (within_coldStarted s high)
  · exact kept_next (Within.refl s)

theorem kept_powerUp (high : Bool) (opens : DialSet) : Kept s (exec (.powerUpBackupHeld high opens) s) := by
  change Kept s (execPowerUpBackupHeld high opens s)
  unfold execPowerUpBackupHeld
  split
  · exact kept_next (within_powerUpHeld s high opens)
  · exact kept_next (Within.refl s)

theorem kept_resolverRunStart : Kept s (exec .resolverRunStart s) := by
  change Kept s (execResolverRunStart s)
  unfold execResolverRunStart
  refine kept_event ?_
  split
  · exact within_of_bounds (bounds_startRun s _)
  · exact Within.refl s

theorem kept_todayRebuildInstall : Kept s (exec .todayRebuildInstall s) := by
  change Kept s (execTodayRebuildInstall s)
  unfold execTodayRebuildInstall
  refine kept_event ?_
  split
  · exact within_of_bounds (by simp)
  · exact Within.refl s

theorem kept_standbyBuildInstall : Kept s (exec .standbyBuildInstall s) := by
  change Kept s (execStandbyBuildInstall s)
  unfold execStandbyBuildInstall
  refine kept_event ?_
  split
  · exact within_of_bounds (by simp)
  · exact Within.refl s

theorem kept_queryRunComplete : Kept s (exec .queryRunComplete s) := by
  change Kept s (execQueryRunComplete s)
  unfold execQueryRunComplete
  refine kept_event ?_
  split
  · exact within_of_bounds (by simp)
  · exact Within.refl s

/-! ### The commands and events, one by one -/

theorem kept_exec (i : Instr) : Kept s (exec i s) := by
  cases i with
  | writeRecord ops => exact kept_change (accepted_writeRecord s ops)
  | publishRecord ops => exact kept_change (accepted_publishRecord s ops)
  | withdrawRecord ops => exact kept_change (accepted_withdrawRecord s ops)
  | retireRecord ops => exact kept_change (accepted_retireRecord s ops)
  | writeProtection ops key =>
    exact fun t ht => (within_sampleKey s key).trans (kept_change (accepted_writeProtection _ ops key) t ht)
  | readProtection key => exact fun t ht => (within_sampleKey s key).trans (kept_answer (.ok (protectionStream s key)) t ht)
  | lockSlot ops => exact kept_change (accepted_lockOne s true ops)
  | unlockSlot ops => exact kept_change (accepted_lockOne s false ops)
  | lockAll ops => exact kept_change (accepted_noOperands s ops (within_of_bounds (bounds_lockSlots s true)))
  | unlockAll ops => exact kept_change (accepted_noOperands s ops (within_of_bounds (bounds_lockSlots s false)))
  | lockTune ops => exact kept_change (accepted_lockTuneCmd s true ops)
  | unlockTune ops => exact kept_change (accepted_lockTuneCmd s false ops)
  | setTime ops => exact kept_change (accepted_setTime s ops)
  | adjustTime ops => exact kept_change (accepted_adjustTime s ops)
  | writeTimeSettings ops => exact kept_change (accepted_writeTimeSettings s ops)
  | writeSundayRank ops => exact kept_change (accepted_writeSundayRank s ops)
  | writeTwilight ops => exact kept_change (accepted_writeTwilight s ops)
  | queryDay ops => exact kept_change (accepted_queryDay s ops)
  | pushOverride ops => exact kept_change (accepted_pushOverride s ops)
  | popOverride ops => exact kept_change (accepted_popOverride s ops)
  | dropOverride ops => exact kept_change (accepted_dropOverride s ops)
  | writeBell ops => exact kept_change (accepted_writeBell s ops)
  | freeBell ops => exact kept_change (accepted_freeBell s ops)
  | openTune ops => exact kept_change (accepted_openTune s ops)
  | writeNotes ops => exact kept_change (accepted_writeNotes s ops)
  | closeTune ops => exact kept_change (accepted_closeTune s ops)
  | clearTune ops => exact kept_change (accepted_clearTune s ops)
  | clearLine ops => exact kept_change (accepted_clearLineCmd s ops)
  | writeLineSettings ops => exact kept_change (accepted_writeLineSettings s ops)
  | writeDial ops circuitOpen => exact kept_change (accepted_writeDial s ops circuitOpen)
  | setDialHands ops => exact kept_change (accepted_setDialHands s ops)
  | readDial ops closed => exact kept_readDial s ops closed
  | writeZone ops => exact kept_change (accepted_writeZone s ops)
  | writeScene ops => exact kept_change (accepted_writeScene s ops)
  | setAllowance ops => exact kept_change (accepted_setAllowance s ops)
  | clearAttention ops => exact kept_change (accepted_clearAttention s ops)
  | writeAttentionEnables ops => exact kept_change (accepted_writeAttentionEnables s ops)
  | reset ops opens => exact kept_change (accepted_noOperands s ops (within_of_bounds (bounds_panelReset s opens)))
  | unknownCommandFrame code ops => exact kept_change (accepted_error _)
  | readRecord _ | findRecords _ | readSheet _ | readBell _ | readTune _ | readNotes _ | readLighting _ => exact kept_answer _
  | readTime | readTimeSettings | readCalendarSettings | readQueryResult | readOverrides | readLine | readIdentity =>
    exact kept_answer (.ok _)
  | readStatus => exact kept_readStatus s
  | resetPin opens => exact kept_resetPin s opens
  | coldStart high => exact kept_coldStart s high
  | powerUpBackupHeld high opens => exact kept_powerUp s high opens
  | newSecond => exact kept_event (within_endSecond s)
  | summerChange => exact kept_event (within_if (within_endSecond s))
  | dayChange => exact kept_event (within_if (within_endSecond s))
  | endOfRange => exact kept_event (within_if (within_endSecond s))
  | referencePulse => exact kept_event (within_pulse s)
  | overrideExpiry => exact kept_event (within_expireOverrides s)
  | impulseEnd d circuitOpen => exact kept_event (within_if (within_endImpulse s d circuitOpen))
  | syncClosure d =>
    exact kept_event (f := fun u => closureOf d (sampleContact d true u))
      (Within.trans (within_of_bounds (bounds_sampleContact s d true)) (within_closureOf _ d))
  | impulseStart d => exact kept_event (within_if (within_of_bounds (bounds_updDial _ _ _ fun _ => rfl)))
  | standbyBuildTime => exact kept_event (within_if (within_of_bounds (by simp)))
  | entryFallsDue => exact kept_event (f := fun u => settlePeal (fallOne u)) (within_of_bounds (by simp))
  | resolverRunStart => exact kept_resolverRunStart s
  | todayRebuildInstall => exact kept_todayRebuildInstall s
  | standbyBuildInstall => exact kept_standbyBuildInstall s
  | queryRunComplete => exact kept_queryRunComplete s
  | referenceMessage _ | referenceMessageAbandoned | quietPeriodEnd | graceExpiry | laneTakesEntry _
  | tollStrokeRequest | tuneNote | tunePlayEnd | hourStrokeRequest | owedOrderOffered
  | waitingRequestAdmitted _ | orderFrameStart _ _ | orderAttemptEnd _ | arbitrationLost _ | foreignStart _
  | observedFrameStop _ _ | claim _ | release _ | releaseAll | busError | recoveryPulsesDone _ | clockStuck
  | recoveryAttemptEnd _ | targetChange | addressedFrameStop =>
    refine kept_event (within_of_bounds ?_)
    simp
  | waitingMessageExpiry | referenceLost | holdoverExpiry | mainsLost | mainsReturn _ | deferredStrokeDue _
  | tuneCheckComplete _ | raiseTimeout _ | lowerTimeout _ | bellPoll _ | ringingLimit _ | pealRaisingTimeout | pealRingingEnd
  | forcedAccess =>
    refine kept_event (within_if (within_of_bounds ?_))
    simp
  | resetPinReleased => exact kept_next (within_of_bounds (bounds_setResetPin s true))
  | partUnpowered | backupRetentionLost => exact kept_next (within_of_bounds rfl)

theorem kept_step : Kept s (Machine.step s) := by
  unfold Machine.step
  split
  · next c rest _ =>
    have hrest : Within s { s with pending := rest } := within_of_bounds rfl
    exact fun t ht => hrest.trans (kept_exec _ c t ht)
  · split
    · exact kept_exec s _
    · refine kept_next (within_of_bounds ?_)
      unfold tick
      split <;> rfl

/-- Settles O12: each command and each event keeps the three bounds, and so does a millisecond that passes. -/
theorem stepKeepsBounds : Obligations.StepKeepsBounds := by
  intro s t hstep
  have hkept : Within s t := kept_step s t hstep
  exact ⟨hkept.stack, hkept.hands, hkept.notes⟩

end Sys2Proof.Bounds
end

section
/-! PROOFS. What a change of the override stack hands on: the wanted levels and the held dials, and what it leaves alone (R103, R107, R173,
R185). -/

namespace Sys2Proof.Stack

open Sys2Proof Sys2Proof.Machine Sys2Proof.Time Sys2Proof.Performance Sys2Proof.Mains

variable {s t : State}

/-! ### A silence that gains leaves the zones and the lit-record set (R104, R105) -/

theorem account_pealLeave (st : Station) (s : State) : accountView (pealLeave st s) = accountView s := by
  unfold pealLeave
  repeat' split
  all_goals rfl

theorem account_settlePeal (s : State) : accountView (settlePeal s) = accountView s := by
  obtain ⟨hbells, -, hlights, -⟩ := rest_settlePeal s
  rw [accountView, accountView, hbells, hlights]

theorem account_taken (sts : List Station) (s : State) :
    accountView (sts.foldl (fun acc st => putDown st (pealLeave st acc)) s) = accountView s :=
  foldl_view accountView _ (fun u st => (account_putDown st _).trans (account_pealLeave st u)) _ _

theorem account_silencePeal (bells : BellSet) (s : State) : accountView (silencePeal bells s) = accountView s := by
  unfold silencePeal
  dsimp only
  repeat' split
  · rfl
  · rfl
  · exact account_taken _ s
  · exact (account_of_work (work_endLane ..)).trans (account_taken _ s)
  · exact (account_settlePeal _).trans (account_taken _ s)

theorem account_cutSilenced (lane : Lane) (s : State) : accountView (cutSilenced lane s) = accountView s := by
  unfold cutSilenced
  repeat' split
  · rfl
  · rfl
  · exact account_cutLane lane s
  · rfl

theorem account_handSilence (old : Effective) (s : State) : accountView (handSilence old s) = accountView s := by
  have hwithheld : accountView (withholdSilenced s) = accountView s := account_of_work (work_finaliseAll ..)
  have hcut : accountView (cutSilenced .toll (cutSilenced .chime (withholdSilenced s))) = accountView s := by
    rw [account_cutSilenced, account_cutSilenced, hwithheld]
  unfold handSilence
  dsimp only
  repeat' split
  · rw [account_silencePeal, hcut]
  · rw [account_silencePeal]
  · exact hcut
  · rfl

/-! ### What the work of a silence keeps (R104, R105, R129) -/

theorem lowerUps_none {held : List Station} (h : ∀ st ∈ held, (getBell s st).pos ≠ .up) :
    held.foldl (fun acc st => if (getBell acc st).pos = .up then orderLower st acc else acc) s = s :=
  List.foldlRecOn held _ (motive := fun u => u = s) rfl fun u hu st hst => by rw [hu, if_neg (h st hst)]

theorem endIfLowered_cases (p : PealRun) (s : State) :
    endIfLowered p s = s ∨ ∃ st, st.isOpen = false ∧ endIfLowered p s = finishPeal st s := by
  unfold endIfLowered
  split
  · refine Or.inr ⟨_, ?_, rfl⟩
    cases p.shortened <;> rfl
  · exact Or.inl rfl

/-- A peal none of whose bells is UP begins its lowering phase with no order. -/
theorem beginLowering_cases {p : PealRun} (hup : ∀ st ∈ p.held, (getBell s st).pos ≠ .up) :
    (∃ q : PealRun, q.held = p.held ∧ q.shortened = p.shortened ∧ beginLowering p s = { s with peal := some q }) ∨
      ∃ st, st.isOpen = false ∧ beginLowering p s = finishPeal st s := by
  let q : PealRun := { p with phase := .lowering, raiseBy := none, ringEnd := none }
  have heq : beginLowering p s = endIfLowered q { s with peal := some q } :=
    congrArg (endIfLowered q) (lowerUps_none (s := { s with peal := some q }) hup)
  rw [heq]
  exact (endIfLowered_cases q { s with peal := some q }).imp_left fun h => ⟨q, rfl, rfl, h⟩

/-- The running peal goes on as it is, in another phase with its bells, or to its end. -/
theorem settlePeal_cases (s : State) :
    settlePeal s = s ∨
      (∃ p q : PealRun, s.peal = some p ∧ q.held = p.held ∧ q.shortened = p.shortened ∧ settlePeal s = { s with peal := some q }) ∨
      ∃ st, st.isOpen = false ∧ settlePeal s = finishPeal st s := by
  cases hp : s.peal with
  | none => exact Or.inl (by rw [settlePeal, hp])
  | some p =>
    unfold settlePeal
    simp only [hp]
    split
    · split
      · next hnone =>
        exact Or.inr ((beginLowering_cases (by simp [hnone])).imp_left fun ⟨q, h⟩ => ⟨p, q, rfl, h⟩)
      · split
        · exact Or.inr (Or.inl ⟨p, { p with phase := .ringing, raiseBy := none, ringEnd := some (s.elapsed + p.minutes * 60000) },
            rfl, rfl, rfl, rfl⟩)
        · exact Or.inl rfl
    · split
      · exact Or.inl rfl
      · next hnone =>
        exact Or.inr ((beginLowering_cases (by simpa using hnone)).imp_left fun ⟨q, h⟩ => ⟨p, q, rfl, h⟩)
    · exact (endIfLowered_cases p s).imp_right Or.inr

/-- A property that work on bells keeps, and that the end of the peal and the cut of another lane keep. -/
structure SilenceProof (P : State → Prop) : Prop extends BellProof P where
  peal : ∀ p s, P s → P { s with peal := p }
  finish : ∀ st s, st.isOpen = false → P s → P (endLane .peal st s)
  cut : ∀ lane s, lane ≠ .peal → P s → P (cutLane lane s)

theorem silenceProof_of_laneProof {P : State → Prop} (hP : LaneProof P) : SilenceProof P where
  toBellProof := hP.bells
  peal := hP.peal
  finish _ _ _ := hP.endLane _ _
  cut _ _ _ := hP.cutLane _

section Silence

variable {P : State → Prop} (hP : SilenceProof P)
include hP

theorem SilenceProof.pealLeave (st : Station) (h : P s) : P (pealLeave st s) := by
  unfold Machine.pealLeave
  repeat' split
  · exact hP.peal _ _ h
  · exact h
  · exact h

theorem SilenceProof.taken (sts : List Station) (h : P s) : P (sts.foldl (fun acc st => putDown st (Machine.pealLeave st acc)) s) :=
  foldl_keeps P _ (fun _ st hu => hP.putDown st (hP.pealLeave st hu)) _ _ h

theorem SilenceProof.finishPeal {st : EntryState} (hst : st.isOpen = false) (h : P s) : P (finishPeal st s) :=
  hP.finish _ _ hst (hP.peal _ _ h)

theorem SilenceProof.settlePeal (h : P s) : P (settlePeal s) := by
  rcases settlePeal_cases s with heq | ⟨-, q, -, -, -, heq⟩ | ⟨st, hst, heq⟩
  · rwa [heq]
  · rw [heq]; exact hP.peal _ _ h
  · rw [heq]; exact hP.finishPeal hst h

theorem SilenceProof.silencePeal (bells : BellSet) (h : P s) : P (silencePeal bells s) := by
  unfold Machine.silencePeal
  dsimp only
  repeat' split
  · exact h
  · exact h
  · exact hP.taken _ h
  · exact hP.finishPeal rfl (hP.taken _ h)
  · exact hP.settlePeal (hP.taken _ h)

theorem SilenceProof.cutSilenced {lane : Lane} (hlane : lane ≠ .peal) (h : P s) : P (cutSilenced lane s) := by
  unfold Machine.cutSilenced
  repeat' split
  · exact h
  · exact h
  · exact hP.cut _ _ hlane h
  · exact h

/-- What is kept from the withholding of the silenced entries on is kept by all that a gain of the silence does. -/
theorem SilenceProof.handSilence (old : Effective) (h : P s) (hw : P (withholdSilenced s)) : P (handSilence old s) := by
  have hcut : P (Machine.cutSilenced .toll (Machine.cutSilenced .chime (withholdSilenced s))) :=
    hP.cutSilenced Lane.noConfusion (hP.cutSilenced Lane.noConfusion hw)
  unfold Machine.handSilence
  dsimp only
  repeat' split
  · exact hP.silencePeal _ hcut
  · exact hP.silencePeal _ h
  · exact hcut
  · exact h

end Silence

theorem withholdSilenced_lanes (s : State) : (withholdSilenced s).lanes = s.lanes :=
  foldl_view State.lanes _ (fun u k => finalise_lanes k .withheld u) _ _

theorem lit_laneProof (lit : Vector Bool 128) : LaneProof fun s => s.lanes.lit = lit where
  bell _ _ _ h := h
  line _ _ h := h
  lights _ _ h := h
  flag _ _ h := h
  run _ _ h := h
  player _ _ h := h
  peal _ _ h := h
  free lane _ h := by cases lane <;> exact h
  final _ _ _ h := by rwa [finalise_lanes]

theorem lit_handSilence (old : Effective) (s : State) : (handSilence old s).lanes.lit = s.lanes.lit :=
  (silenceProof_of_laneProof (lit_laneProof s.lanes.lit)).handSilence old rfl (congrArg Lanes.lit (withholdSilenced_lanes s))

/-! ### The governing lit record (R185) -/

/-- One look at a slot in the search for the governing lit record. -/
def governs (s : State) (best : Option SlotNo) (i : SlotNo) : Option SlotNo :=
  match best with
  | none => some i
  | some b => if slotRank s b < slotRank s i then some i else some b

theorem governingLit_eq (s : State) : governingLit s = (allSlots.filter fun i => s.lanes.lit.get i).foldl (governs s) none := rfl

/-- A record that no later one outranks goes on governing. -/
theorem governs_stays {i : SlotNo} (xs : List SlotNo) (h : ∀ j ∈ xs, slotRank s j ≤ slotRank s i) :
    xs.foldl (governs s) (some i) = some i := by
  induction xs with
  | nil => rfl
  | cons x xs ih =>
    have hx : governs s (some i) x = some i := if_neg (Nat.not_lt.2 (h x (List.mem_cons_self ..)))
    rw [List.foldl_cons, hx]
    exact ih fun j hj => h j (List.mem_cons_of_mem _ hj)

/-- Of slots in ascending order, the first of the highest rank governs. -/
theorem governs_first {i : SlotNo} (xs : List SlotNo) (hsorted : xs.Pairwise (· < ·)) (hi : i ∈ xs)
    (hmax : ∀ j ∈ xs, slotRank s j < slotRank s i ∨ slotRank s j = slotRank s i ∧ i ≤ j) (best : Option SlotNo)
    (hbest : ∀ b, best = some b → slotRank s b < slotRank s i) : xs.foldl (governs s) best = some i := by
  induction xs generalizing best with
  | nil => cases hi
  | cons x xs ih =>
    obtain ⟨hx, hsorted⟩ := List.pairwise_cons.1 hsorted
    rw [List.foldl_cons]
    rcases List.mem_cons.1 hi with rfl | hi
    · have htaken : governs s best i = some i := by
        cases best with
        | none => rfl
        | some b => exact if_pos (hbest b rfl)
      rw [htaken]
      exact governs_stays xs fun j hj => (hmax j (List.mem_cons_of_mem _ hj)).elim Nat.le_of_lt fun h => h.1.le
    · have hlower : slotRank s x < slotRank s i :=
        (hmax x (List.mem_cons_self ..)).resolve_right fun h => absurd (hx i hi) (not_lt.2 h.2)
      refine ih hsorted hi (fun j hj => hmax j (List.mem_cons_of_mem _ hj)) _ fun b hb => ?_
      cases best with
      | none => cases hb; exact hlower
      | some a =>
        unfold governs at hb
        dsimp only at hb
        split at hb
        · cases hb; exact hlower
        · exact hbest b hb

theorem governingLit_first {i : SlotNo} (hi : s.lanes.lit.get i = true)
    (hmax : ∀ j, s.lanes.lit.get j = true → slotRank s j < slotRank s i ∨ slotRank s j = slotRank s i ∧ i ≤ j) :
    governingLit s = some i := by
  rw [governingLit_eq]
  refine governs_first _ ((List.pairwise_lt_finRange 128).filter _) ?_ (fun j hj => ?_) none fun b hb => nomatch hb
  · exact List.mem_filter.2 ⟨List.mem_finRange i, hi⟩
  · exact hmax j (List.mem_filter.1 hj).2

theorem governingLit_none (h : ∀ i, s.lanes.lit.get i = false) : governingLit s = none := by
  have hempty : (allSlots.filter fun i => s.lanes.lit.get i) = [] := List.filter_eq_nil_iff.2 fun i _ => by simp [h i]
  rw [governingLit_eq, hempty]
  rfl

/-! ### The stages of handing on (R103, R107) -/

/-- The stack replaced, and the change of effective state handed on. -/
def handed (o : Overrides) (s : State) : State := handOn (effective s) { s with overrides := o }

/-- The wanted levels after a change of the stack: found anew where the forced scene changed. -/
def zonesHanded (old : Effective) (s : State) : State :=
  if old.scene = (effective s).scene then handSilence old s else findWanted (handSilence old s)

theorem handOn_eq (old : Effective) (s : State) :
    handOn old s = settlePeal (evaluateSet (heldChange old (effective s)) (zonesHanded old s)) := rfl

theorem tower_zonesHanded (old : Effective) (s : State) : towerView (zonesHanded old s) = towerView s := by
  unfold zonesHanded
  split <;> simp

theorem wanted_handSilence (old : Effective) (s : State) (z : ZoneNo) :
    ((handSilence old s).lights.zones.get z).wanted = (s.lights.zones.get z).wanted := by
  have hzones : (handSilence old s).lights.zones = s.lights.zones := congrArg Prod.fst (account_handSilence old s)
  rw [hzones]

theorem wanted_zonesHanded_same {old : Effective} (h : old.scene = (effective s).scene) (z : ZoneNo) :
    ((zonesHanded old s).lights.zones.get z).wanted = (s.lights.zones.get z).wanted := by
  rw [zonesHanded, if_pos h, wanted_handSilence]

theorem scenes_of_tower (h : towerView t = towerView s) : t.lights.scenes = s.lights.scenes :=
  congrArg (fun v : TowerView => v.settings.scenes) h

theorem wanted_zonesHanded_changed {old : Effective} (h : old.scene ≠ (effective s).scene) (z : ZoneNo) :
    ((zonesHanded old s).lights.zones.get z).wanted = wantedLevel s.lights (governingScene s) z := by
  have htower : towerView (handSilence old s) = towerView s := tower_handSilence s old
  have hscene : governingScene (handSilence old s) = governingScene s :=
    governingScene_congr (scene_of_overrides (congrArg TowerView.overrides htower)) (lit_handSilence old s) (image_of_tower htower)
  rw [zonesHanded, if_neg h, findWanted_wanted, hscene]
  exact wantedLevel_congr (scenes_of_tower htower) _ _

theorem settlePeal_lights (s : State) : (settlePeal s).lights = s.lights := (rest_settlePeal s).2.2.1

theorem handOn_lights (old : Effective) (s : State) : (handOn old s).lights = (zonesHanded old s).lights := by
  obtain ⟨ds, hds⟩ := evaluateSet_dials (zonesHanded old s) (heldChange old (effective s))
  rw [handOn_eq, settlePeal_lights, hds]

/-! ### The dials whose hold changed (R103, R173) -/

theorem evaluatedDial_congr (h : Steady s t) (d : DialNo) (x : Dial) : evaluatedDial t d x = evaluatedDial s d x := by
  unfold evaluatedDial dialHeld effective
  rw [h.elapsed, h.time, h.mains, h.overrides]

theorem getDial_evaluateSet (set : DialSet) (s : State) (d : DialNo) :
    getDial (evaluateSet set s) d = if set.getLsbD d.val = true then evaluatedDial s d (getDial s d) else getDial s d := by
  have h := foldl_dials (g := evaluatedDial s) (fun d _ => evaluate_eq d _) (allDials.filter fun d => set.getLsbD d.val)
    ((List.nodup_finRange 4).filter _) s.dials
  change evaluateSet set s = _ at h
  rw [h, getDial, get_ofFn]
  simp only [List.mem_filter, mem_allDials, true_and]
  rfl

theorem heldChange_bit (s t : State) (d : DialNo) :
    (heldChange (effective s) (effective t)).getLsbD d.val = true ↔ dialHeld t d ≠ dialHeld s d := by
  rw [heldChange, BitVec.getLsbD_xor, dialHeld, dialHeld]
  cases (effective s).dials.getLsbD d.val <;> cases (effective t).dials.getLsbD d.val <;> decide

theorem steady_settlePeal (s : State) : Steady s (settlePeal s) := steady_of_tower (tower_settlePeal s)

theorem getDial_handOn (u s : State) (d : DialNo) :
    getDial (handOn (effective u) s) d
      = if dialHeld s d ≠ dialHeld u d then evaluatedDial s d (getDial s d) else getDial s d := by
  have hsteady : Steady s (zonesHanded (effective u) s) := steady_of_tower (tower_zonesHanded _ s)
  have hdial : getDial (zonesHanded (effective u) s) d = getDial s d := congrArg (fun v => v.get d) hsteady.dials
  have hsettled : getDial (handOn (effective u) s) d
      = getDial (evaluateSet (heldChange (effective u) (effective s)) (zonesHanded (effective u) s)) d :=
    congrArg (fun v => v.get d) (steady_settlePeal _).dials
  rw [hsettled, getDial_evaluateSet, hdial, evaluatedDial_congr hsteady]
  simp only [heldChange_bit]

/-! ### The stack handed on -/

variable (o : Overrides) (s)

theorem handed_frame : frameView (handed o s) = frameView { s with overrides := o } := frame_handOn _ _

theorem handed_overrides : (handed o s).overrides = o := congrArg TowerView.overrides (handed_frame s o)
theorem handed_time : (handed o s).time = s.time := congrArg TowerView.time (handed_frame s o)
theorem handed_mains : (handed o s).mains = s.mains := congrArg TowerView.mains (handed_frame s o)
theorem handed_elapsed : (handed o s).elapsed = s.elapsed := congrArg TowerView.elapsed (handed_frame s o)
theorem handed_pins : (handed o s).pins = s.pins := congrArg TowerView.pins (handed_frame s o)
theorem handed_port : (handed o s).port = s.port := congrArg TowerView.port (handed_frame s o)
theorem handed_settings : settingsView (handed o s) = settingsView s := congrArg TowerView.settings (handed_frame s o)

theorem handed_effective : effective (handed o s) = effective { s with overrides := o } := by
  rw [effective, effective, handed_overrides]

theorem handed_dial (d : DialNo) :
    getDial (handed o s) d
      = if dialHeld (handed o s) d ≠ dialHeld s d then evaluatedDial { s with overrides := o } d (getDial s d) else getDial s d := by
  have hheld : dialHeld (handed o s) d = dialHeld { s with overrides := o } d := by rw [dialHeld, dialHeld, handed_effective]
  rw [hheld]
  exact getDial_handOn s { s with overrides := o } d

theorem handed_wanted_same (h : (effective (handed o s)).scene = (effective s).scene) (z : ZoneNo) :
    ((handed o s).lights.zones.get z).wanted = (s.lights.zones.get z).wanted := by
  rw [handed_effective] at h
  rw [handed, handOn_lights]
  exact wanted_zonesHanded_same h.symm z

theorem handed_wanted_changed (h : (effective (handed o s)).scene ≠ (effective s).scene) (z : ZoneNo) :
    ((handed o s).lights.zones.get z).wanted = wantedLevel s.lights (governingScene { s with overrides := o }) z := by
  rw [handed_effective] at h
  rw [handed, handOn_lights]
  exact wanted_zonesHanded_changed h.symm z

theorem governingScene_forced {sc : SceneNo} (h : (effective s).scene = some sc) : governingScene s = some sc := by
  rw [governingScene, h]

theorem governingScene_lit (h : (effective s).scene = none) :
    governingScene s = (governingLit s).bind fun i => sceneOf (imgNat (getSlot s i).image 22) := by
  rw [governingScene, h]
  cases governingLit s <;> rfl

/-- A change of the stack hands on what it changes of the effective state. -/
theorem handsOn_handed : HandsOn s (handed o s) := by
  refine ⟨handed_wanted_same s o, fun sc hsc hold z => ?_, fun hnone hold => ?_, fun d hsame => ?_, fun d hdiff himp => ?_⟩
  · have hscene : (effective { s with overrides := o }).scene = some sc := by rw [← handed_effective, hsc]
    rw [handed_wanted_changed s o (hsc.trans_ne hold.symm) z, governingScene_forced _ hscene]
    rfl
  · have hscene : (effective { s with overrides := o }).scene = none := by rw [← handed_effective, hnone]
    have hwanted := handed_wanted_changed s o (hnone.trans_ne hold.symm)
    rw [governingScene_lit _ hscene] at hwanted
    refine ⟨fun hdark z => ?_, fun i sc hi hsc hmax z => ?_⟩
    · have hlit : governingLit { s with overrides := o } = none := governingLit_none hdark
      rw [hwanted, hlit]
      rfl
    · have hlit : governingLit { s with overrides := o } = some i := governingLit_first hi hmax
      have hslot : sceneOf (imgNat (getSlot { s with overrides := o } i).image 22) = some sc := hsc
      rw [hwanted, hlit, Option.bind_some, hslot]
      rfl
  · rw [handed_dial]
    split
    · next hdiff => exact if_pos (hsame.resolve_left hdiff)
    · rfl
  · have hheld : dialHeld { s with overrides := o } d = dialHeld (handed o s) d := by rw [dialHeld, dialHeld, handed_effective]
    rw [handed_dial, if_pos hdiff, evaluatedDial, if_neg (by simp [himp]), hheld]

theorem evaluateSet_zero (s : State) : evaluateSet 0 s = s := by simp [evaluateSet]

theorem quieter_refl (e : Effective) : Quieter e e := ⟨atMost_refl _, atMost_refl _, atMost_refl _, atMost_refl _⟩

/-- With no peal running, a stack of the same effective state is all that changes. -/
theorem handed_same (hp : s.peal = none) (h : effective (handed o s) = effective s) : handed o s = { s with overrides := o } := by
  rw [handed_effective] at h
  have hheld : heldChange (effective s) (effective { s with overrides := o }) = 0 := by rw [h]; exact BitVec.xor_self
  have hzones : zonesHanded (effective s) { s with overrides := o } = { s with overrides := o } := by
    rw [zonesHanded, if_pos (congrArg Effective.scene h.symm), handSilence_quieter]
    rw [h]
    exact quieter_refl _
  rw [handed, handOn_eq, hheld, evaluateSet_zero, hzones]
  exact settlePeal_none (s := { s with overrides := o }) hp

end Sys2Proof.Stack
end

section
/-! PROOFS. PUSH OVERRIDE, POP OVERRIDE, DROP OVERRIDE and the expiry of overrides: O37 and O39 (R100, R101, R108, R109). -/

namespace Sys2Proof.Stack

open Sys2Proof Sys2Proof.Machine Sys2Proof.Time Sys2Proof.Performance Sys2Proof.Mains

variable {s t : State}

/-! ### The next id (R101) -/

/-- The id that comes a number of places after another. -/
def idAfter (n : Nat) (last : Nat) : Nat := Nat.repeat succId n last

theorem idAfter_succ (n last : Nat) : idAfter (n + 1) last = succId (idAfter n last) := rfl

/-- Within eight places an id that is in range wraps once at most, and any other does not wrap. -/
theorem idAfter_eq (last : Nat) {n : Nat} (h : n ≤ 8) :
    idAfter n last = if last ≤ 255 ∧ 255 < last + n then last + n - 255 else last + n := by
  induction n with
  | zero => rw [if_neg (by omega)]; rfl
  | succ n ih =>
    rw [idAfter_succ, ih (by omega), succId]
    split_ifs <;> omega

theorem idAfter_injective (last : Nat) {m n : Nat} (hm : m ≤ 8) (hn : n ≤ 8) (h : idAfter m last = idAfter n last) : m = n := by
  rw [idAfter_eq last hm, idAfter_eq last hn] at h
  split_ifs at h <;> omega

theorem idAfter_range {last n : Nat} (hlast : last ≤ 255) (hn : n < 8) : 1 ≤ idAfter (n + 1) last ∧ idAfter (n + 1) last ≤ 255 := by
  rw [idAfter_eq last (by omega)]
  split_ifs <;> omega

/-- The search finds the first free id of those that follow, where one of as many as it tries is free. -/
theorem freshId_first (fuel : Nat) (used : List Nat) (i last : Nat) :
    (∃ k < fuel, freshId fuel used (idAfter (i + 1) last) = idAfter (i + k + 1) last ∧ idAfter (i + k + 1) last ∉ used ∧
      ∀ j < k, idAfter (i + j + 1) last ∈ used) ∨
    ∀ j < fuel, idAfter (i + j + 1) last ∈ used := by
  induction fuel generalizing i with
  | zero => exact Or.inr fun j hj => absurd hj (Nat.not_lt_zero j)
  | succ fuel ih =>
    rw [freshId]
    by_cases hused : idAfter (i + 1) last ∈ used
    · have hcons : ∀ k, (∀ j < k, idAfter (i + 1 + j + 1) last ∈ used) → ∀ j < k + 1, idAfter (i + j + 1) last ∈ used := by
        intro k hk j hj
        cases j with
        | zero => exact hused
        | succ j =>
          have := hk j (by omega)
          rwa [show i + (j + 1) + 1 = i + 1 + j + 1 by omega]
      rw [if_pos (List.contains_iff_mem.2 hused), ← idAfter_succ]
      rcases ih (i + 1) with ⟨k, hk, hfound, hfree, hbefore⟩ | hall
      · rw [show i + 1 + k + 1 = i + (k + 1) + 1 by omega] at hfound hfree
        exact Or.inl ⟨k + 1, by omega, hfound, hfree, hcons k hbefore⟩
      · exact Or.inr (hcons fuel hall)
    · refine Or.inl ⟨0, by omega, ?_, hused, fun j hj => absurd hj (Nat.not_lt_zero j)⟩
      rw [if_neg (by rwa [List.contains_iff_mem])]

/-- Eight ids that follow one another do not all stand on a stack that has room. -/
theorem some_id_free (used : List Nat) (last : Nat) (h : used.length < 8) : ¬ ∀ j < 8, idAfter (j + 1) last ∈ used := by
  intro hall
  have hnodup : ((List.range 8).map fun j => idAfter (j + 1) last).Nodup := by
    refine List.Nodup.map_on (fun a ha b hb hab => ?_) List.nodup_range
    rw [List.mem_range] at ha hb
    have := idAfter_injective last (by omega) (by omega) hab
    omega
  have hsubset : ((List.range 8).map fun j => idAfter (j + 1) last) ⊆ used := fun x hx => by
    obtain ⟨j, hj, rfl⟩ := List.mem_map.1 hx
    exact hall j (List.mem_range.1 hj)
  have hlength := (hnodup.subperm hsubset).length_le
  rw [List.length_map, List.length_range] at hlength
  omega

/-- The next id of a stack that has room is the first free one of the eight that follow the last assigned (R101). -/
theorem nextId_first (o : Overrides) (h : o.entries.length < 8) :
    ∃ tries < 8, nextId o = idAfter (tries + 1) o.lastId ∧ (∀ x ∈ o.entries, x.id ≠ nextId o) ∧
      ∀ j < tries, ∃ x ∈ o.entries, x.id = idAfter (j + 1) o.lastId := by
  rcases freshId_first 8 (o.entries.map Override.id) 0 o.lastId with ⟨k, hk, hfound, hfree, hbefore⟩ | hall
  · simp only [Nat.zero_add] at hfound hfree
    have hnext : nextId o = idAfter (k + 1) o.lastId := hfound
    refine ⟨k, hk, hnext, fun x hx hid => ?_, fun j hj => ?_⟩
    · rw [← hnext, ← hid] at hfree
      exact hfree (List.mem_map.2 ⟨x, hx, rfl⟩)
    · have hused := hbefore j hj
      rw [Nat.zero_add] at hused
      exact List.mem_map.1 hused
  · simp only [Nat.zero_add] at hall
    exact absurd hall (some_id_free _ _ (by rwa [List.length_map]))

/-! ### PUSH OVERRIDE (R100, R101) -/

/-- The stack that a push leaves. -/
def pushed (body : OverrideBody) (minutes : Nat) (s : State) : Overrides :=
  ⟨s.overrides.entries ++ [⟨nextId s.overrides, body, expiryOf (stdMoment s.time) minutes⟩], nextId s.overrides⟩

theorem push_eq (body : OverrideBody) (minutes : Nat) (s : State) : push body minutes s = handed (pushed body minutes s) s := rfl

section Push

variable {k ks b3 b2 b1 b0 m3 m2 m1 m0 sc ds d1 d0 : Byte} {body : OverrideBody}

theorem exec_push (hp : portServed s = true)
    (hbody : pushBody k ks (bellSet b3 b2 b1 b0) (bellSet m3 m2 m1 m0) sc ds = some body) (hmin : u16 d1 d0 ≤ 1440)
    (hroom : s.overrides.entries.length < 8) :
    exec (.pushOverride [k, ks, b3, b2, b1, b0, m3, m2, m1, m0, sc, ds, d1, d0]) s
      = .next { handed (pushed body (u16 d1 d0) s) s with port := ⟨.none, []⟩ } := by
  change change (pushOverride _ s) s = _
  have hok : pushOverride [k, ks, b3, b2, b1, b0, m3, m2, m1, m0, sc, ds, d1, d0] s = .ok (push body (u16 d1 d0) s) := by
    simp only [pushOverride, hbody]
    rw [if_neg (Nat.not_lt.2 hmin), if_neg (show ¬ Config.stackCapacity ≤ s.overrides.entries.length from Nat.not_le.2 hroom)]
  rw [hok, change_ok hp, push_eq]

theorem exec_push_full (hp : portServed s = true)
    (hbody : pushBody k ks (bellSet b3 b2 b1 b0) (bellSet m3 m2 m1 m0) sc ds = some body) (hmin : u16 d1 d0 ≤ 1440)
    (hfull : 8 ≤ s.overrides.entries.length) :
    exec (.pushOverride [k, ks, b3, b2, b1, b0, m3, m2, m1, m0, sc, ds, d1, d0]) s = .next { s with port := ⟨.full, []⟩ } := by
  change change (pushOverride _ s) s = _
  have hfail : pushOverride [k, ks, b3, b2, b1, b0, m3, m2, m1, m0, sc, ds, d1, d0] s = .error .full := by
    simp only [pushOverride, hbody]
    rw [if_neg (Nat.not_lt.2 hmin), if_pos (show Config.stackCapacity ≤ s.overrides.entries.length from hfull)]
  rw [hfail, change_error hp]

theorem exec_push_badValue (hp : portServed s = true)
    (hbad : pushBody k ks (bellSet b3 b2 b1 b0) (bellSet m3 m2 m1 m0) sc ds = none ∨ 1440 < u16 d1 d0) :
    exec (.pushOverride [k, ks, b3, b2, b1, b0, m3, m2, m1, m0, sc, ds, d1, d0]) s = .next { s with port := ⟨.badValue, []⟩ } := by
  change change (pushOverride _ s) s = _
  have hfail : pushOverride [k, ks, b3, b2, b1, b0, m3, m2, m1, m0, sc, ds, d1, d0] s = .error .badValue := by
    simp only [pushOverride]
    split
    · rfl
    · next b hbody => exact if_pos (hbad.resolve_left (by rw [hbody]; exact Option.some_ne_none b))
  rw [hfail, change_error hp]

end Push

/-- Settles O37: the search of `nextId` by `nextId_first`, and what the push hands on by `handsOn_handed`. -/
theorem pushAssignsFreshId : Obligations.PushAssignsFreshId := by
  refine ⟨rfl, fun s k ks b3 b2 b1 b0 m3 m2 m1 m0 sc ds d1 d0 body hp hbody hmin hroom => ?_⟩
  obtain ⟨tries, htries, hnext, hfresh, hbefore⟩ := nextId_first s.overrides hroom
  refine ⟨_, tries, nextId s.overrides, exec_push hp hbody hmin hroom, htries, hnext, hfresh, hbefore,
    fun hlast => hnext ▸ idAfter_range hlast htries, ?_⟩
  exact ⟨handed_overrides s _, handsOn_handed s _, handed_settings s _, handed_time s _, handed_mains s _, handed_elapsed s _,
    handed_pins s _, rfl⟩

/-! ### POP and DROP OVERRIDE (R108), and expiry (R109) -/

/-- The stack with its entries replaced, and the last assigned id as it was. -/
def withEntries (es : List Override) (s : State) : Overrides := ⟨es, s.overrides.lastId⟩

theorem setStack_eq (es : List Override) (s : State) : setStack es s = handed (withEntries es s) s := rfl

theorem exec_pop (hp : portServed s = true) (h : s.overrides.entries ≠ []) :
    exec (.popOverride []) s = .next { setStack s.overrides.entries.dropLast s with port := ⟨.none, []⟩ } := by
  change change (popOverride [] s) s = _
  rw [popOverride, if_neg h, change_ok hp]

theorem exec_pop_empty (hp : portServed s = true) (h : s.overrides.entries = []) :
    exec (.popOverride []) s = .next { s with port := ⟨.empty, []⟩ } := by
  change change (popOverride [] s) s = _
  rw [popOverride, if_pos h, change_error hp]

theorem exec_drop (n : Byte) {o : Override} (hp : portServed s = true) (ho : o ∈ s.overrides.entries) (hid : o.id = n.toNat) :
    exec (.dropOverride [n]) s
      = .next { setStack (s.overrides.entries.filter fun x => x.id != n.toNat) s with port := ⟨.none, []⟩ } := by
  have hany : (s.overrides.entries.any fun o => o.id == n.toNat) = true := List.any_eq_true.2 ⟨o, ho, beq_iff_eq.2 hid⟩
  change change (dropOverride [n] s) s = _
  rw [dropOverride, if_pos hany, change_ok hp]

theorem exec_drop_absent (n : Byte) (hp : portServed s = true) (h : ∀ o ∈ s.overrides.entries, o.id ≠ n.toNat) :
    exec (.dropOverride [n]) s = .next { s with port := ⟨.badValue, []⟩ } := by
  have hnone : ¬ (s.overrides.entries.any fun o => o.id == n.toNat) = true := by
    rw [List.any_eq_true]
    rintro ⟨o, ho, hid⟩
    exact h o ho (beq_iff_eq.1 hid)
  change change (dropOverride [n] s) s = _
  rw [dropOverride, if_neg hnone, change_error hp]

theorem expired_eq (moment : Nat) (o : Override) : expired moment o = o.expiry.any fun m => decide (m ≤ moment) := by
  unfold expired
  split <;> simp [*]

/-- A state that stays as it is hands nothing on. -/
theorem handsOn_refl (s : State) : HandsOn s s :=
  ⟨fun _ _ => rfl, fun _ h h' => absurd h h', fun h h' => absurd h h', fun _ _ => rfl, fun _ h => absurd rfl h⟩

theorem expireOverrides_entries (s : State) :
    (expireOverrides s).overrides = withEntries (unexpired (stdMoment s.time) s.overrides.entries) s :=
  congrArg TowerView.overrides (frame_expireOverrides s)

theorem expireOverrides_cases (s : State) : expireOverrides s = s ∨ ∃ o, expireOverrides s = handed o s := by
  unfold expireOverrides
  split
  · exact Or.inr ⟨_, setStack_eq _ s⟩
  · exact Or.inl rfl

/-- The expiry of overrides hands on what it changes, and leaves the settings, the clock and the port (R109). -/
theorem expireOverrides_hands (s : State) :
    HandsOn s (expireOverrides s) ∧ settingsView (expireOverrides s) = settingsView s ∧ (expireOverrides s).time = s.time ∧
      (expireOverrides s).port = s.port ∧
      (s.peal = none → effective (expireOverrides s) = effective s → { expireOverrides s with overrides := s.overrides } = s) := by
  rcases expireOverrides_cases s with h | ⟨o, h⟩
  · rw [h]
    exact ⟨handsOn_refl s, rfl, rfl, rfl, fun _ _ => rfl⟩
  · rw [h]
    exact ⟨handsOn_handed s o, handed_settings s o, handed_time s o, handed_port s o, fun hp he => by rw [handed_same s o hp he]⟩

theorem exec_expiry (hr : running s = true) : exec .overrideExpiry s = .next (expireOverrides s) := event_running hr

/-- What a POP or a DROP leaves, but for the port, is the stack with its entries replaced and handed on. -/
theorem removal_hands (es : List Override) (s : State) (p : Port) :
    let t := { setStack es s with port := p }
    t.overrides = ⟨es, s.overrides.lastId⟩ ∧ HandsOn s t ∧ settingsView t = settingsView s ∧ t.time = s.time ∧ t.port = p ∧
      (s.peal = none → effective t = effective s → { t with overrides := s.overrides, port := s.port } = s) := by
  rw [setStack_eq]
  refine ⟨handed_overrides s _, handsOn_handed s _, handed_settings s _, handed_time s _, rfl, fun hp he => ?_⟩
  dsimp only
  rw [handed_same s _ hp he]

/-- Settles O39: each removal hands on the stack that it leaves, and the refusals are those of the two commands. -/
theorem overridesLeave : Obligations.OverridesLeave := by
  intro s
  refine ⟨fun hp hne => ⟨_, exec_pop hp hne, removal_hands _ s _⟩, fun n o hp ho hid => ⟨_, exec_drop n hp ho hid, removal_hands _ s _⟩,
    fun hr => ⟨_, exec_expiry hr, ?_, expireOverrides_hands s⟩, fun hp h => exec_pop_empty hp h, fun n hp h => exec_drop_absent n hp h⟩
  rw [expireOverrides_entries, withEntries, unexpired]
  simp only [expired_eq]

end Sys2Proof.Stack
end

section
/-! PROOFS. What a gain of the effective silence does to the sheet and the lanes: entries withheld, entries cut short, and what the lanes
may do after (R104, R105). -/

namespace Sys2Proof.Stack

open Sys2Proof Sys2Proof.Machine Sys2Proof.Time Sys2Proof.Performance Sys2Proof.Mains

variable {r s t u w : State} {e : Entry} {lane : Lane}

/-! ### A push by which the silence gains (R100, R102, R103) -/

theorem silenceGained_self (x : Effective) : silenceGained x x = false := by
  obtain ⟨hstrike, htune, htoll, hpeal⟩ := quieter_refl x
  unfold AtMost at hstrike htune htoll hpeal
  simp [silenceGained, hstrike, htune, htoll, hpeal]

theorem silenceGained_of_peal {old new : Effective} (h : old.peal.gained new.peal = true) : silenceGained old new = true := by
  simp [silenceGained, h]

theorem effectiveOf_append (es : List Override) (o : Override) : effectiveOf (es ++ [o]) = foldOverride (effectiveOf es) o := by
  simp [effectiveOf]

/-- An entry by which the silence gains is a SILENCE, and leaves the forced scene and the held dials. -/
theorem kept_of_gained {x : Effective} {o : Override} (h : silenceGained x (foldOverride x o) = true) :
    (foldOverride x o).scene = x.scene ∧ (foldOverride x o).dials = x.dials := by
  unfold foldOverride at h ⊢
  split
  · exact ⟨rfl, rfl⟩
  all_goals
    next hbody =>
      simp only [hbody] at h
      exact absurd (h.symm.trans (silenceGained_self x)) Bool.noConfusion

/-- What a gain of the silence hands on: nothing but the silence. -/
def silenced (o : Overrides) (s : State) : State := settlePeal (handSilence (effective s) { s with overrides := o })

theorem handed_silenced {o : Overrides} (hscene : (effective { s with overrides := o }).scene = (effective s).scene)
    (hdials : (effective { s with overrides := o }).dials = (effective s).dials) : handed o s = silenced o s := by
  have hheld : heldChange (effective s) (effective { s with overrides := o }) = 0 := by
    rw [heldChange, hdials]
    exact BitVec.xor_self
  rw [handed, handOn_eq, hheld, evaluateSet_zero, zonesHanded, if_pos hscene.symm]
  rfl

/-- A push by which the effective silence gains was accepted, and handed on the silence alone. -/
theorem push_gained {k ks b3 b2 b1 b0 m3 m2 m1 m0 sc ds d1 d0 : Byte} (hp : portServed s = true)
    (h : exec (.pushOverride [k, ks, b3, b2, b1, b0, m3, m2, m1, m0, sc, ds, d1, d0]) s = .next t)
    (hgain : silenceGained (effective s) (effective t) = true) :
    ∃ o p, t = { silenced o s with port := p } ∧ effective t = effective { s with overrides := o } := by
  have hrefused : ∀ p : Port, exec (.pushOverride [k, ks, b3, b2, b1, b0, m3, m2, m1, m0, sc, ds, d1, d0]) s
      ≠ .next { s with port := p } := by
    intro p hs
    rw [h] at hs
    injection hs with hs
    subst hs
    exact absurd (hgain.symm.trans (silenceGained_self (effective s))) Bool.noConfusion
  rcases hbody : pushBody k ks (bellSet b3 b2 b1 b0) (bellSet m3 m2 m1 m0) sc ds with _ | body
  · exact absurd (exec_push_badValue hp (Or.inl hbody)) (hrefused _)
  rcases Nat.lt_or_ge 1440 (u16 d1 d0) with hmin | hmin
  · exact absurd (exec_push_badValue hp (Or.inr hmin)) (hrefused _)
  rcases Nat.lt_or_ge s.overrides.entries.length 8 with hroom | hfull
  · rw [exec_push hp hbody hmin hroom] at h
    injection h with h
    subst h
    have heff := handed_effective s (pushed body (u16 d1 d0) s)
    have hfold : effective { s with overrides := pushed body (u16 d1 d0) s } = foldOverride (effective s) _ := effectiveOf_append _ _
    obtain ⟨hscene, hdials⟩ := kept_of_gained (x := effective s) (by rw [← hfold, ← heff]; exact hgain)
    rw [← hfold] at hscene hdials
    exact ⟨_, _, by rw [handed_silenced hscene hdials], heff⟩
  · exact absurd (exec_push_full hp hbody hmin hfull) (hrefused _)

/-- What a property keeps from the cuts on, it keeps to the end. -/
theorem silenced_keeps {P : State → Prop} (hP : SilenceProof P) {o : Overrides}
    (hgain : silenceGained (effective s) (effective { s with overrides := o }) = true)
    (h : P (cutSilenced .toll (cutSilenced .chime (withholdSilenced { s with overrides := o })))) : P (silenced o s) := by
  refine hP.settlePeal ?_
  unfold handSilence
  simp only [if_pos hgain]
  split
  · exact hP.silencePeal _ h
  · exact h

/-! ### Lanes end their entries -/

/-- From r on, lanes have ended some of their entries: a lane is FREE or holds what it held, what was done to the sheet and to the records
was done to the entries of lanes that are FREE now, no entry has become DUE, and no work has begun. -/
structure LanesEnd (r t : State) : Prop where
  lane : ∀ lane, laneKey t lane = none ∨ laneKey t lane = laneKey r lane
  touched : ∃ ks, (∀ k ∈ ks, ∃ lane, laneKey r lane = some k ∧ laneKey t lane = none) ∧ Touched ks r t
  due : ∀ x ∈ entriesOf t, x.state = .due → x ∈ entriesOf r
  player : r.tunes.player = none → t.tunes.player = none
  run : r.lanes.tollRun = none → t.lanes.tollRun = none

theorem LanesEnd.of_same (hlane : ∀ lane, laneKey t lane = laneKey s lane) (hsheets : t.sheets = s.sheets) (htable : t.table = s.table)
    (hplayer : s.tunes.player = none → t.tunes.player = none) (hrun : s.lanes.tollRun = none → t.lanes.tollRun = none) :
    LanesEnd s t where
  lane l := Or.inr (hlane l)
  touched := ⟨[], fun _ hk => absurd hk List.not_mem_nil,
    Touched.of_same [] (congrArg (fun x : Sheets => x.today.entries) hsheets) fun i => by rw [getSlot_of_table htable]⟩
  due x hx _ := by rwa [entriesOf, hsheets] at hx
  player := hplayer
  run := hrun

theorem LanesEnd.refl (s : State) : LanesEnd s s := .of_same (fun _ => rfl) rfl rfl id id

theorem LanesEnd.key (h : LanesEnd r t) {lane : Lane} {k : Key} (hk : laneKey t lane = some k) : laneKey r lane = some k := by
  rcases h.lane lane with hfree | hsame
  · rw [hk] at hfree; cases hfree
  · exact hsame.symm.trans hk

theorem LanesEnd.free (h : LanesEnd r t) {lane : Lane} (hk : laneKey r lane = none) : laneKey t lane = none :=
  (h.lane lane).elim id fun hsame => hsame.trans hk

theorem LanesEnd.trans (h : LanesEnd r s) (h' : LanesEnd s t) : LanesEnd r t where
  lane l := (h'.lane l).elim Or.inl fun hsame => hsame ▸ h.lane l
  touched := by
    obtain ⟨ks, hks, ht⟩ := h.touched
    obtain ⟨ks', hks', ht'⟩ := h'.touched
    refine ⟨ks ++ ks', fun k hk => ?_, ht.trans ht'⟩
    rcases List.mem_append.1 hk with hk | hk
    · obtain ⟨l, hl, hfree⟩ := hks k hk
      exact ⟨l, hl, h'.free hfree⟩
    · obtain ⟨l, hl, hfree⟩ := hks' k hk
      exact ⟨l, h.key hl, hfree⟩
  due x hx hst := h.due x (h'.due x hx hst) hst
  player hp := h'.player (h.player hp)
  run hr := h'.run (h.run hr)

/-- An entry that no lane has ended stays as it was. -/
theorem LanesEnd.other (h : LanesEnd r t) (he : e ∈ entriesOf r)
    (hk : ∀ lane, laneKey r lane = some e.key → laneKey t lane ≠ none) : e ∈ entriesOf t := by
  obtain ⟨ks, hks, ht⟩ := h.touched
  refine ht.other he fun hmem => ?_
  obtain ⟨l, hl, hfree⟩ := hks _ hmem
  exact hk l hl hfree

/-- So does the outcome of a record none of whose entries a lane has ended. -/
theorem LanesEnd.slot (h : LanesEnd r t) {i : SlotNo}
    (hk : ∀ lane key, laneKey r lane = some key → laneKey t lane = none → key.slot ≠ i) :
    slotView (getSlot t i) = slotView (getSlot r i) := by
  obtain ⟨ks, hks, ht⟩ := h.touched
  refine ht.slots i fun k hmem => ?_
  obtain ⟨l, hl, hfree⟩ := hks _ hmem
  exact hk l k hl hfree

theorem lanesEnd_setPlayer {p : Option Player} (h : s.tunes.player = none → p = none) : LanesEnd s (setPlayer p s) :=
  .of_same (fun l => by cases l <;> rfl) rfl rfl h id

theorem lanesEnd_setTollRun {x : Option TollRun} (h : s.lanes.tollRun = none → x = none) : LanesEnd s (setTollRun x s) :=
  .of_same (fun l => by cases l <;> rfl) rfl rfl id h

theorem setLane_rest (lane : Lane) (k : Option Key) (s : State) :
    (setLane lane k s).sheets = s.sheets ∧ (setLane lane k s).table = s.table ∧ (setLane lane k s).tunes = s.tunes ∧
      (setLane lane k s).lanes.tollRun = s.lanes.tollRun := by
  cases lane <;> exact ⟨rfl, rfl, rfl, rfl⟩

theorem due_setState {k : Key} {st : EntryState} {es : List Entry} (hst : st.isOpen = false) {x : Entry} (hx : x ∈ setState k st es)
    (hdue : x.state = .due) : x ∈ es := by
  obtain ⟨y, hy, rfl⟩ := List.mem_map.1 hx
  by_cases hk : y.key = k
  · rw [if_pos hk] at hdue
    dsimp only at hdue
    rw [hdue] at hst
    cases hst
  · rwa [if_neg hk]

theorem lanesEnd_endLane (lane : Lane) {st : EntryState} (hst : st.isOpen = false) (s : State) : LanesEnd s (endLane lane st s) := by
  unfold endLane
  split
  · exact .refl s
  · next k hk =>
    obtain ⟨hsheets, htable, htunes, hrun⟩ := setLane_rest lane none s
    have hentries : entriesOf (setLane lane none s) = entriesOf s := congrArg (fun x : Sheets => x.today.entries) hsheets
    have hlane : ∀ l, laneKey (finalise k st (setLane lane none s)) l = if lane = l then none else laneKey s l := fun l =>
      ((calm_finalise k st).lane l).trans (laneKey_setLane ..)
    have htouched := (Touched.of_same [] hentries fun i => by rw [getSlot_of_table htable]).trans
      ((endsEntry_finalise st).touched k (setLane lane none s))
    refine ⟨fun l => ?_, ⟨_, fun x hx => ?_, htouched⟩, fun x hx => ?_, fun hp => ?_, fun hr => ?_⟩
    · rw [hlane]
      split
      · exact Or.inl rfl
      · exact Or.inr rfl
    · obtain rfl : x = k := by simpa using hx
      exact ⟨lane, hk, by rw [hlane, if_pos rfl]⟩
    · rw [finalise_entries, hentries] at hx
      exact due_setState hst hx
    · rwa [finalise_tunes, htunes]
    · rwa [finalise_lanes, hrun]

theorem ended_closed (lost : Bool) : (if lost then EntryState.cutShort else .done).isOpen = false := by cases lost <;> rfl

/-- The answer to a stroke ends an entry of a lane, or lets its work go on (R89, R150). -/
theorem lanesEnd_answerStroke (who : Requester) (sent : Bool) (s : State) : LanesEnd s (answerStroke who sent s) := by
  unfold answerStroke
  split
  · split
    · next hrun =>
      split
      · unfold answerToll
        dsimp only
        split
        · exact lanesEnd_setTollRun fun h => by rw [hrun] at h; cases h
        · exact (lanesEnd_setTollRun fun _ => rfl).trans (lanesEnd_endLane .toll (ended_closed _) _)
      · exact .refl s
    · exact .refl s
  · split
    · next hplayer =>
      split
      · unfold answerHour
        dsimp only
        split
        · exact lanesEnd_setPlayer fun h => by rw [hplayer] at h; cases h
        · exact (lanesEnd_setPlayer fun _ => rfl).trans (lanesEnd_endLane .chime (ended_closed _) _)
      · exact .refl s
    · exact .refl s
  · exact .refl s

theorem cutLane_eq {k : Key} (hk : laneKey s lane = some k) : cutLane lane s = finalise k .cutShort (stopLane lane s) := by
  rw [cutLane, hk]

theorem lanesEnd_cutLane (hlane : lane ≠ .peal) (s : State) : LanesEnd s (cutLane lane s) := by
  rcases hk : laneKey s lane with _ | k
  · rw [cutLane, hk]
    exact .refl s
  · rw [cutLane_eq hk]
    cases lane with
    | chime =>
      have heq : finalise k .cutShort (stopLane .chime s) = endLane .chime .cutShort (setPlayer none s) := by
        rw [endLane, show laneKey (setPlayer none s) .chime = some k from hk]
        rfl
      rw [heq]
      exact (lanesEnd_setPlayer fun _ => rfl).trans (lanesEnd_endLane .chime rfl _)
    | toll =>
      have heq : finalise k .cutShort (stopLane .toll s) = endLane .toll .cutShort (setTollRun none s) := by
        rw [endLane, show laneKey (setTollRun none s) .toll = some k from hk]
        rfl
      rw [heq]
      exact (lanesEnd_setTollRun fun _ => rfl).trans (lanesEnd_endLane .toll rfl _)
    | peal => exact absurd rfl hlane

theorem silenceProof_lanesEnd (r : State) : SilenceProof (LanesEnd r) where
  bell _ _ _ h := h.trans (.of_same (fun l => by cases l <;> rfl) rfl rfl id id)
  line _ _ h := h.trans (.of_same (fun l => by cases l <;> rfl) rfl rfl id id)
  lights _ _ h := h.trans (.of_same (fun l => by cases l <;> rfl) rfl rfl id id)
  flag _ _ h := h.trans (.of_same (fun l => by cases l <;> rfl) rfl rfl id id)
  answer _ _ _ h := h.trans (lanesEnd_answerStroke ..)
  peal _ _ h := h.trans (.of_same (fun l => by cases l <;> rfl) rfl rfl id id)
  finish _ _ hst h := h.trans (lanesEnd_endLane _ hst _)
  cut _ _ hlane h := h.trans (lanesEnd_cutLane hlane _)

theorem lanesEnd_cutSilenced (hlane : lane ≠ .peal) (s : State) : LanesEnd s (cutSilenced lane s) :=
  (silenceProof_lanesEnd s).cutSilenced hlane (.refl s)

/-! ### DUE entries are withheld (R104, part 1) -/

/-- Whether an entry is one that `withholdSilenced` withholds. -/
def hushed (s : State) (e : Entry) : Bool := e.state == .due && e.kind.sounding && silenceCovers s e

theorem hushed_iff : hushed s e = true ↔ e.state = .due ∧ e.kind.sounding = true ∧ silenceCovers s e = true := by
  simp [hushed, and_assoc]

theorem withholdSilenced_eq (s : State) : withholdSilenced s = finaliseAll (keysWhere (hushed s) s) .withheld s := rfl

theorem finaliseAll_entries (ks : List Key) (st : EntryState) (s : State) :
    entriesOf (finaliseAll ks st s) = restate (fun e => if e.key ∈ ks then st else e.state) (entriesOf s) := by
  induction ks generalizing s with
  | nil => simpa [finaliseAll] using (restate_state _).symm
  | cons k ks ih =>
    have hstep : finaliseAll (k :: ks) st s = finaliseAll ks st (finalise k st s) := rfl
    rw [hstep, ih, finalise_entries, setState_eq_restate, restate, restate, restate, List.map_map]
    refine List.map_congr_left fun e _ => ?_
    by_cases hk : e.key = k <;> simp [hk]

/-- No covered sounding entry is DUE any more. -/
theorem withholdSilenced_quells (he : e ∈ entriesOf (withholdSilenced s)) (hdue : e.state = .due) (hsound : e.kind.sounding = true) :
    silenceCovers s e = false := by
  rw [withholdSilenced_eq, finaliseAll_entries] at he
  obtain ⟨x, hx, rfl⟩ := List.mem_map.1 he
  dsimp only at hdue hsound ⊢
  by_cases hk : x.key ∈ keysWhere (hushed s) s
  · rw [if_pos hk] at hdue
    cases hdue
  · rw [if_neg hk] at hdue ⊢
    rw [← Bool.not_eq_true]
    exact fun hcov => hk (List.mem_map.2 ⟨x, List.mem_filter.2 ⟨hx, hushed_iff.2 ⟨hdue, hsound, hcov⟩⟩, rfl⟩)

theorem touched_withholdSilenced (s : State) : Touched (keysWhere (hushed s) s) s (withholdSilenced s) := touched_finaliseAll _ _ _

theorem calm_withholdSilenced (s : State) : Calm s (withholdSilenced s) := calm_finaliseAll _ _ _

theorem withholdSilenced_other (hn : ((entriesOf s).map Entry.key).Nodup) (he : e ∈ entriesOf s) (h : hushed s e = false) :
    e ∈ entriesOf (withholdSilenced s) := by
  refine (touched_withholdSilenced s).other he fun hk => ?_
  rw [mem_keysWhere hn he, h] at hk
  cases hk

theorem mem_keysWhere_of_mem {test : Entry → Bool} (he : e ∈ entriesOf s) (h : test e = true) : e.key ∈ keysWhere test s :=
  List.mem_map.2 ⟨e, List.mem_filter.2 ⟨he, h⟩, rfl⟩

theorem withholdSilenced_withholds (he : e ∈ entriesOf s) (h : hushed s e = true) :
    { e with state := .withheld } ∈ entriesOf (withholdSilenced s) :=
  ((endsEntry_finalise .withheld).ended he (mem_keysWhere_of_mem he h)).1

/-- Withholding counts no performance, and leaves a record that shows it. -/
structure Withholds (i : SlotNo) (s t : State) : Prop where
  performed : (getSlot t i).performed = (getSlot s i).performed
  last : (getSlot s i).last = .withheld → (getSlot t i).last = .withheld

theorem withholds_of_view {i : SlotNo} (h : slotView (getSlot t i) = slotView (getSlot s i)) : Withholds i s t := by
  obtain ⟨hlast, hperformed, -⟩ := fields_of_view h
  exact ⟨hperformed, hlast.trans⟩

theorem Withholds.trans {i : SlotNo} (h : Withholds i r s) (h' : Withholds i s t) : Withholds i r t :=
  ⟨h'.performed.trans h.performed, fun hr => h'.last (h.last hr)⟩

theorem withholds_writeOutcome (i j : SlotNo) (day : Nat) (s : State) : Withholds j s (writeOutcome i .withheld day s) := by
  unfold writeOutcome
  split
  · exact ⟨rfl, id⟩
  · by_cases hij : i = j
    · subst hij
      exact ⟨by simp [getSlot, outcomeFields], fun _ => by simp [getSlot, outcomeFields]⟩
    · exact withholds_of_view (by simp [getSlot, hij])

theorem withholds_finalise (k : Key) (i : SlotNo) (s : State) : Withholds i s (finalise k .withheld s) := by
  refine Withholds.trans ?_ (withholds_of_view (finalise_view k .withheld s i))
  cases h : findEntry k (entriesOf s) with
  | none => rw [conclude, h]; exact ⟨rfl, id⟩
  | some e =>
    have hslot := conclude_slot .withheld h i
    have hwritten := withholds_writeOutcome k.slot i (entryDay s e) (updToday (setState k .withheld) s)
    exact ⟨by rw [hslot]; exact hwritten.performed, fun hl => by rw [hslot]; exact hwritten.last hl⟩

theorem withholds_finaliseAll (ks : List Key) (i : SlotNo) (s : State) : Withholds i s (finaliseAll ks .withheld s) := by
  induction ks generalizing s with
  | nil => exact ⟨rfl, id⟩
  | cons k ks ih => exact (withholds_finalise k i s).trans (ih (finalise k .withheld s))

theorem findEntry_isSome_of_key {es : List Entry} {k : Key} : (findEntry k es).isSome ↔ k ∈ es.map Entry.key := by
  rw [findEntry, List.find?_isSome, List.mem_map]
  simp

theorem found_of_touched {ks : List Key} (h : Touched ks s t) {k : Key} (hk : ∃ x, findEntry k (entriesOf s) = some x) :
    ∃ x, findEntry k (entriesOf t) = some x := by
  rw [← Option.isSome_iff_exists, findEntry_isSome_of_key] at hk ⊢
  rwa [h.keys]

/-- A record one of whose entries is withheld shows it. -/
theorem last_finaliseAll_withheld {ks : List Key} (he : e ∈ entriesOf s) (hk : e.key ∈ ks) (hi : (getSlot s e.key.slot).state ≠ .empty) :
    (getSlot (finaliseAll ks .withheld s) e.key.slot).last = .withheld := by
  obtain ⟨l1, l2, rfl⟩ := List.append_of_mem hk
  have hsplit : finaliseAll (l1 ++ e.key :: l2) .withheld s
      = finaliseAll l2 .withheld (finalise e.key .withheld (finaliseAll l1 .withheld s)) := by
    simp [finaliseAll]
  have ht := touched_finaliseAll l1 .withheld s
  obtain ⟨day, hshown⟩ := outcome_finalise .withheld (found_of_touched ht (findEntry_isSome he)) (ht.held _ hi)
  rw [hsplit]
  exact (withholds_finaliseAll l2 _ _).last hshown

/-! ### Lanes are cut (R104, part 2) -/

/-- A lane that has not been cut holds no covered entry. -/
theorem cutSilenced_uncovered {k : Key} (hk : laneKey (cutSilenced lane s) lane = some k) (he : findEntry k (entriesOf s) = some e)
    (hs : laneKey s lane = some k) : silenceCovers s e = false := by
  rw [← Bool.not_eq_true]
  intro hcov
  have hcut : cutSilenced lane s = cutLane lane s := by
    unfold cutSilenced
    simp only [hs, he]
    exact if_pos hcov
  rw [hcut, cutLane_free] at hk
  cases hk

theorem laneKey_cutSilenced {other : Lane} (hlane : lane ≠ .peal) (h : other ≠ lane) (s : State) :
    laneKey (cutSilenced lane s) other = laneKey s other := by
  have hstop : laneKey (stopLane lane s) other = laneKey s other := by
    cases lane with
    | chime => exact (laneKey_setLane ..).trans ((if_neg (Ne.symm h)).trans (by cases other <;> rfl))
    | toll => exact (laneKey_setLane ..).trans ((if_neg (Ne.symm h)).trans (by cases other <;> rfl))
    | peal => exact absurd rfl hlane
  have hcut : laneKey (cutLane lane s) other = laneKey s other := by
    unfold cutLane
    split
    · rfl
    · exact ((calm_finalise ..).lane other).trans hstop
  unfold cutSilenced
  repeat' split
  · rfl
  · rfl
  · exact hcut
  · rfl

theorem stopLane_rest (hlane : lane ≠ .peal) (s : State) :
    (stopLane lane s).sheets = s.sheets ∧ (stopLane lane s).table = s.table ∧ (stopLane lane s).time = s.time ∧
      workView (stopLane lane s) = workView s ∧ (lane = .chime → (stopLane lane s).tunes.player = none) ∧
      (lane = .toll → (stopLane lane s).lanes.tollRun = none) := by
  cases lane with
  | chime => exact ⟨rfl, rfl, rfl, rfl, fun _ => rfl, Lane.noConfusion⟩
  | toll => exact ⟨rfl, rfl, rfl, rfl, Lane.noConfusion, fun _ => rfl⟩
  | peal => exact absurd rfl hlane

theorem work_cutSilenced (hlane : lane ≠ .peal) (s : State) : workView (cutSilenced lane s) = workView s := by
  unfold cutSilenced cutLane
  obtain ⟨-, -, -, hwork, -⟩ := stopLane_rest hlane s
  repeat' split
  · rfl
  · rfl
  · rfl
  · exact (work_finalise ..).trans hwork
  · rfl

/-- The lane's covered entry is CUT_SHORT, and stays so with its outcome as lanes that hold no entry of its record end theirs. -/
theorem cut_lasts (hlane : lane ≠ .peal) (hkey : laneKey w lane = some e.key) (hfind : findEntry e.key (entriesOf w) = some e)
    (hcov : silenceCovers w e = true)
    (hother : ∀ other key, other ≠ lane → laneKey w other = some key → key.slot ≠ e.key.slot) (hend : LanesEnd (cutSilenced lane w) t) :
    { e with state := .cutShort } ∈ entriesOf t ∧ laneKey t lane = none ∧ (lane = .chime → t.tunes.player = none) ∧
      (lane = .toll → t.lanes.tollRun = none) ∧
      ((getSlot w e.key.slot).state ≠ .empty →
        OutcomeShown (getSlot w e.key.slot) (getSlot t e.key.slot) .cutShort (entryDay w e)) := by
  have hcut : cutSilenced lane w = finalise e.key .cutShort (stopLane lane w) := by
    rw [← cutLane_eq hkey, cutSilenced]
    simp only [hkey, hfind]
    exact if_pos hcov
  obtain ⟨hsheets, htable, htime, -, hplayer, hrun⟩ := stopLane_rest hlane w
  have hentries : entriesOf (stopLane lane w) = entriesOf w := congrArg (fun x : Sheets => x.today.entries) hsheets
  have hfree : laneKey (cutSilenced lane w) lane = none := by
    rw [hcut, ← cutLane_eq hkey]
    exact cutLane_free lane w
  have hspared : ∀ l key, laneKey (cutSilenced lane w) l = some key → key.slot ≠ e.key.slot := fun l key hl => by
    by_cases hll : l = lane
    · rw [hll, hfree] at hl
      cases hl
    · rw [laneKey_cutSilenced hlane hll] at hl
      exact hother l key hll hl
  have hmem : { e with state := .cutShort } ∈ entriesOf (cutSilenced lane w) := by
    rw [hcut, finalise_entries, hentries]
    exact mem_setState_self (findEntry_mem hfind).1
  refine ⟨hend.other hmem fun l hl => absurd rfl (hspared l _ hl), hend.free hfree, fun hc => hend.player ?_, fun ht => hend.run ?_, ?_⟩
  · rw [hcut, finalise_tunes]
    exact hplayer hc
  · rw [hcut, finalise_lanes]
    exact hrun ht
  · intro hi
    have hslot : getSlot (stopLane lane w) e.key.slot = getSlot w e.key.slot := getSlot_of_table htable _
    have hshown := (endsEntry_finalise .cutShort).shows e.key (stopLane lane w) e (by rw [hentries, hfind]) (by rw [hslot]; exact hi)
    have hday : entryDay (stopLane lane w) e = entryDay w e := by rw [entryDay, htime]; rfl
    rw [hday] at hshown
    refine outcomeShown_congr hshown (by rw [hslot]) ?_
    rw [hend.slot fun l key hl _ => hspared l key hl, hcut]

end Sys2Proof.Stack
end

section
/-! PROOFS. The entries of the sheet, and the records, after a push by which the effective silence gains: the first part of O38 (R105). -/

namespace Sys2Proof.Stack

open Sys2Proof Sys2Proof.Machine Sys2Proof.Time Sys2Proof.Performance Sys2Proof.Mains

variable {s t w : State} {e : Entry} {lane : Lane} {o : Overrides}

theorem findEntry_restate (k : Key) (g : Entry → EntryState) (es : List Entry) :
    findEntry k (restate g es) = (findEntry k es).map fun e => { e with state := g e } := by
  rw [findEntry, restate, List.find?_map]
  rfl

/-- An entry found afterwards was found before, in a state. -/
theorem find_before {ks : List Key} (h : Touched ks s t) {k : Key} (he : findEntry k (entriesOf t) = some e) :
    ∃ x st, findEntry k (entriesOf s) = some x ∧ e = { x with state := st } := by
  obtain ⟨g, hg, -⟩ := h.entries
  rw [hg, findEntry_restate, Option.map_eq_some_iff] at he
  obtain ⟨x, hx, rfl⟩ := he
  exact ⟨x, g x, hx, rfl⟩

theorem skeleton_of_touched {ks : List Key} (h : Touched ks s t) :
    (entriesOf t).map (fun e => { e with state := .pending }) = (entriesOf s).map (fun e => { e with state := .pending }) := by
  obtain ⟨g, hg, -⟩ := h.entries
  rw [hg, restate_skeleton]

theorem tower_silenced (o : Overrides) (s : State) : towerView (silenced o s) = towerView { s with overrides := o } := by
  rw [silenced, tower_settlePeal, tower_handSilence]

/-- The state in which the new silence has withheld its entries, and no lane is cut yet. -/
def withheld (o : Overrides) (s : State) : State := withholdSilenced { s with overrides := o }

theorem laneKey_withheld (o : Overrides) (s : State) (lane : Lane) : laneKey (withheld o s) lane = laneKey s lane :=
  (calm_withholdSilenced _).lane lane

theorem tower_withheld (o : Overrides) (s : State) : towerView (withheld o s) = towerView { s with overrides := o } :=
  (calm_withholdSilenced _).tower

theorem touched_withheld (o : Overrides) (s : State) :
    Touched (keysWhere (hushed { s with overrides := o }) s) s (withheld o s) :=
  have h := touched_withholdSilenced { s with overrides := o }
  ⟨h.entries, h.slots, h.held⟩

section Gained

variable (hgain : silenceGained (effective s) (effective { s with overrides := o }) = true)
include hgain

/-- The CHIME and the TOLL lane are looked at one after the other, each with its entry as the withholding left it; after that lanes end
entries alone. -/
theorem cut_stage (hlane : lane ≠ .peal) :
    ∃ w, LanesEnd (withheld o s) w ∧ laneKey w lane = laneKey (withheld o s) lane ∧
      towerView w = towerView { s with overrides := o } ∧ LanesEnd (cutSilenced lane w) (silenced o s) := by
  have hend : LanesEnd (cutSilenced .toll (cutSilenced .chime (withheld o s))) (silenced o s) :=
    silenced_keeps (silenceProof_lanesEnd _) hgain (.refl _)
  cases lane with
  | chime =>
    exact ⟨_, .refl _, rfl, tower_withheld o s, (lanesEnd_cutSilenced Lane.noConfusion _).trans hend⟩
  | toll =>
    exact ⟨_, lanesEnd_cutSilenced (lane := .chime) Lane.noConfusion _, laneKey_cutSilenced Lane.noConfusion Lane.noConfusion _,
      (tower_cutSilenced _ _).trans (tower_withheld o s), hend⟩
  | peal => exact absurd rfl hlane

theorem lanesEnd_silenced : LanesEnd (withheld o s) (silenced o s) := by
  obtain ⟨w, hw, -, -, hend⟩ := cut_stage hgain (lane := .toll) Lane.noConfusion
  exact (hw.trans (lanesEnd_cutSilenced Lane.noConfusion w)).trans hend

theorem touched_silenced : ∃ ks, Touched ks s (silenced o s) := by
  obtain ⟨ks, -, ht⟩ := (lanesEnd_silenced hgain).touched
  exact ⟨_, (touched_withheld o s).trans ht⟩

/-- No covered sounding entry is DUE afterwards. -/
theorem silenced_quells (he : e ∈ entriesOf (silenced o s)) (hdue : e.state = .due) (hsound : e.kind.sounding = true) :
    silenceCovers (silenced o s) e = false := by
  rw [silenceCovers_of_tower (tower_silenced o s)]
  exact withholdSilenced_quells ((lanesEnd_silenced hgain).due e he hdue) hdue hsound

/-- The CHIME and the TOLL lane hold no covered entry afterwards. -/
theorem silenced_lane {k : Key} (hlane : lane ≠ .peal) (hk : laneKey (silenced o s) lane = some k)
    (he : findEntry k (entriesOf (silenced o s)) = some e) : silenceCovers (silenced o s) e = false := by
  obtain ⟨w, -, -, htower, hend⟩ := cut_stage hgain hlane
  have hcut := lanesEnd_cutSilenced hlane w
  obtain ⟨ks, -, ht⟩ := (hcut.trans hend).touched
  obtain ⟨x, st, hx, rfl⟩ := find_before ht he
  have huncovered : silenceCovers w x = false := cutSilenced_uncovered (hend.key hk) hx (hcut.key (hend.key hk))
  rw [silenceCovers_of_tower ((tower_silenced o s).trans htower.symm)]
  exact huncovered

/-- A DUE sounding entry that is covered is WITHHELD, and its record shows it. -/
theorem silenced_withholds (he : e ∈ entriesOf s) (hushes : hushed { s with overrides := o } e = true)
    (hk : ∀ lane key, laneKey s lane = some key → key.slot ≠ e.key.slot) :
    { e with state := .withheld } ∈ entriesOf (silenced o s) ∧
      ((getSlot s e.key.slot).state ≠ .empty → (getSlot (silenced o s) e.key.slot).last = .withheld) := by
  have hend := lanesEnd_silenced hgain
  have hlanes : ∀ lane key, laneKey (withheld o s) lane = some key → key.slot ≠ e.key.slot := fun l key hl =>
    hk l key ((laneKey_withheld o s l).symm.trans hl)
  have hmem : { e with state := .withheld } ∈ entriesOf (withheld o s) :=
    withholdSilenced_withholds (s := { s with overrides := o }) he hushes
  refine ⟨hend.other hmem fun l hl => absurd rfl (hlanes l _ hl), fun hi => ?_⟩
  have hlast : (getSlot (withheld o s) e.key.slot).last = .withheld :=
    last_finaliseAll_withheld (s := { s with overrides := o }) he (mem_keysWhere_of_mem he hushes) hi
  obtain ⟨hsame, -⟩ := fields_of_view (hend.slot fun l key hl _ => hlanes l key hl)
  exact hsame.trans hlast

/-- An entry that is not withheld, and that no lane holds, stays as it was. -/
theorem silenced_other (hn : ((entriesOf s).map Entry.key).Nodup) (he : e ∈ entriesOf s)
    (hspared : hushed { s with overrides := o } e = false) (hk : ∀ lane, laneKey s lane ≠ some e.key) : e ∈ entriesOf (silenced o s) :=
  (lanesEnd_silenced hgain).other (withholdSilenced_other (s := { s with overrides := o }) hn he hspared)
    fun l hl => absurd ((laneKey_withheld o s l).symm.trans hl) (hk l)

/-- An ACTIVE entry of the CHIME or the TOLL lane that is covered is CUT_SHORT, its lane is FREE, and its record shows it. -/
theorem silenced_cuts (hn : ((entriesOf s).map Entry.key).Nodup) (he : e ∈ entriesOf s) (hlane : lane ≠ .peal)
    (hkey : laneKey s lane = some e.key) (hactive : e.state = .active) (hcov : silenceCovers (silenced o s) e = true)
    (hother : ∀ other key, other ≠ lane → laneKey s other = some key → key.slot ≠ e.key.slot) :
    { e with state := .cutShort } ∈ entriesOf (silenced o s) ∧ laneKey (silenced o s) lane = none ∧
      (lane = .chime → (silenced o s).tunes.player = none) ∧ (lane = .toll → (silenced o s).lanes.tollRun = none) ∧
      ((getSlot s e.key.slot).state ≠ .empty →
        OutcomeShown (getSlot s e.key.slot) (getSlot (silenced o s) e.key.slot) .cutShort (entryDay s e)) := by
  obtain ⟨w, hw, hsame, htower, hend⟩ := cut_stage hgain hlane
  have hwkey : laneKey w lane = some e.key := hsame.trans ((laneKey_withheld o s lane).trans hkey)
  have hspared : ∀ l key, laneKey (withheld o s) l = some key → laneKey w l = none → key.slot ≠ e.key.slot := fun l key hl hfree => by
    by_cases hll : l = lane
    · rw [hll, hwkey] at hfree
      cases hfree
    · exact hother l key hll ((laneKey_withheld o s l).symm.trans hl)
  have hunhushed : hushed { s with overrides := o } e = false := by simp [hushed, hactive]
  have hmem : e ∈ entriesOf w :=
    hw.other (withholdSilenced_other (s := { s with overrides := o }) hn he hunhushed) fun l hl hfree => hspared l _ hl hfree rfl
  have hwn : ((entriesOf w).map Entry.key).Nodup := by
    obtain ⟨ks, -, ht⟩ := hw.touched
    exact ht.nodup ((touched_withheld o s).nodup hn)
  obtain ⟨hcut, hfree, hplayer, hrun, hshown⟩ := cut_lasts hlane hwkey (findEntry_self hwn hmem)
    (by rwa [silenceCovers_of_tower ((tower_silenced o s).trans htower.symm)] at hcov)
    (fun other key hne hl => hother other key hne ((laneKey_withheld o s other).symm.trans (hw.key hl))) hend
  refine ⟨hcut, hfree, hplayer, hrun, fun hi => ?_⟩
  have hview := hw.slot hspared
  have hheld : (getSlot w e.key.slot).state ≠ .empty := nonempty_of_view hview ((touched_withheld o s).held _ hi)
  have hcount : (getSlot w e.key.slot).performed = (getSlot s e.key.slot).performed := by
    obtain ⟨-, hperformed, -⟩ := fields_of_view hview
    exact hperformed.trans (withholds_finaliseAll _ _ { s with overrides := o }).performed
  have hday : entryDay w e = entryDay s e := by
    have htime : w.time = s.time := congrArg TowerView.time htower
    rw [entryDay, htime]
    rfl
  have hfinal := hshown hheld
  rw [hday] at hfinal
  simpa only [OutcomeShown, hcount] using hfinal

end Gained

end Sys2Proof.Stack
end

section
/-! PROOFS. The bells that a silence takes from the running peal, what becomes of the peal, and the rest of O38 (R104, R105, R130). -/

namespace Sys2Proof.Stack

open Sys2Proof Sys2Proof.Machine Sys2Proof.Time Sys2Proof.Performance Sys2Proof.Mains

variable {s t : State} {st u : Station} {b : Bell} {p : PealRun} {o : Overrides} {bells : BellSet}

/-! ### A bell is put down (R130) -/

/-- A bell with its order and its place on the waiting list. -/
def bellSide (s : State) (st : Station) : Bell × Option SwingOrder × Bool := (getBell s st, outstanding s st, isWaiting s st)

theorem side_parts (h : bellSide t st = bellSide s st) :
    getBell t st = getBell s st ∧ outstanding t st = outstanding s st ∧ isWaiting t st = isWaiting s st := by
  simpa [bellSide] using h

theorem side_of_parts (hbells : t.bells = s.bells) (hline : t.line = s.line) (hlights : t.lights = s.lights) (st : Station) :
    bellSide t st = bellSide s st := by
  rw [bellSide, getBell, hbells, outstanding_line hline, isWaiting, hlights]
  rfl

theorem side_pealLeave (u st : Station) (s : State) : bellSide (pealLeave u s) st = bellSide s st := by
  unfold pealLeave
  repeat' split
  all_goals rfl

theorem isWaiting_withdrawRequest (u st : Station) (s : State) :
    isWaiting (withdrawRequest u s) st = (isWaiting s st && st != u) := by
  rw [Bool.eq_iff_iff]
  simp [isWaiting, withdrawRequest]

theorem side_putDown (h : u ≠ st) (s : State) : bellSide (putDown st s) u = bellSide s u := by
  unfold putDown
  dsimp only
  split
  · have honly := only_orderLower (OnlyBell.refl st s)
    rw [bellSide, honly.others u h, honly.orders u h, isWaiting, honly.lights]
    rfl
  · split
    · have hwaits : isWaiting (withdrawRequest st s) u = isWaiting s u := by rw [isWaiting_withdrawRequest]; simp [h]
      rw [bellSide, hwaits, withdrawRequest, (only_updBell (OnlyBell.refl st _) _).others u h]
      rfl
    · rfl

/-- What a bell b that is taken from the peal has become: lowered, or waiting no more, or what it was (R130). -/
def PutDownAs (b : Bell) (st : Station) (t : State) : Prop :=
  (b.pos = .raising ∨ b.pos = .up → (getBell t st).pos = .lowering ∧ hasOrder t st .lower) ∧
  (b.pos ≠ .raising → b.pos ≠ .up →
    (b.waitingRaise = true → (getBell t st).waitingRaise = false ∧ isWaiting t st = false ∧ (getBell t st).pos = b.pos) ∧
    (b.waitingRaise = false → getBell t st = b))

theorem PutDownAs.congr (h : PutDownAs b st s) (hside : bellSide t st = bellSide s st) : PutDownAs b st t := by
  obtain ⟨hbell, horder, hwaits⟩ := side_parts hside
  unfold PutDownAs hasOrder
  rw [hbell, horder, hwaits]
  exact h

theorem getBell_withdrawRequest (st : Station) (s : State) :
    getBell (withdrawRequest st s) st = { getBell s st with waitingRaise := false } := getBell_updBell_self _

theorem pos_orderLower (st : Station) (s : State) : (getBell (orderLower st s) st).pos = .lowering := by
  have h := congrArg Bell.pos (bellCore_orderLower (st := st) (s := s))
  simpa only [bellCore, positionFields] using h

theorem putDown_rises (h : (getBell s st).pos = .raising ∨ (getBell s st).pos = .up) : putDown st s = orderLower st s := if_pos h

theorem putDown_waits (h : ¬ ((getBell s st).pos = .raising ∨ (getBell s st).pos = .up)) (hw : (getBell s st).waitingRaise = true) :
    putDown st s = withdrawRequest st s := (if_neg h).trans (if_pos hw)

theorem putDown_other (h : ¬ ((getBell s st).pos = .raising ∨ (getBell s st).pos = .up)) (hw : (getBell s st).waitingRaise = false) :
    putDown st s = s := (if_neg h).trans (if_neg (by simp [hw]))

theorem putDownAs_putDown (st : Station) (s : State) : PutDownAs (getBell s st) st (putDown st s) := by
  refine ⟨fun hrise => ?_, fun hraising hup => ⟨fun hw => ?_, fun hw => ?_⟩⟩
  · rw [putDown_rises hrise]
    exact ⟨pos_orderLower st s, hasOrder_orderLower⟩
  · rw [putDown_waits (not_or.2 ⟨hraising, hup⟩) hw, getBell_withdrawRequest, isWaiting_withdrawRequest]
    exact ⟨rfl, by simp, rfl⟩
  · rw [putDown_other (not_or.2 ⟨hraising, hup⟩) hw]

/-- A bell that is put down once more stays so. -/
theorem PutDownAs.again (h : PutDownAs b st s) : PutDownAs b st (putDown st s) := by
  obtain ⟨hrises, hrests⟩ := h
  refine ⟨fun hrise => ?_, fun hraising hup => ⟨fun hw => ?_, fun hw => ?_⟩⟩
  · obtain ⟨hpos, horder⟩ := hrises hrise
    have hstill : ¬ ((getBell s st).pos = .raising ∨ (getBell s st).pos = .up) := by simp [hpos]
    cases hw : (getBell s st).waitingRaise with
    | true =>
      rw [putDown_waits hstill hw, hasOrder, getBell_withdrawRequest]
      exact ⟨hpos, horder⟩
    | false =>
      rw [putDown_other hstill hw]
      exact ⟨hpos, horder⟩
  · obtain ⟨hwaits, hlist, hpos⟩ := (hrests hraising hup).1 hw
    rw [putDown_other (by simp [hpos, hraising, hup]) hwaits]
    exact ⟨hwaits, hlist, hpos⟩
  · have hsame := (hrests hraising hup).2 hw
    rw [putDown_other (by simp [hsame, hraising, hup]) (by rw [hsame, hw])]
    exact hsame

/-! ### Bells are taken from the peal (R105) -/

/-- Each of a list of bells leaves the running peal and is put down. -/
def takenFrom (sts : List Station) (s : State) : State := sts.foldl (fun acc st => putDown st (pealLeave st acc)) s

theorem takenFrom_cons (x : Station) (xs : List Station) (s : State) :
    takenFrom (x :: xs) s = takenFrom xs (putDown x (pealLeave x s)) := rfl

theorem side_taken {sts : List Station} (h : st ∉ sts) (s : State) : bellSide (takenFrom sts s) st = bellSide s st := by
  induction sts generalizing s with
  | nil => rfl
  | cons x xs ih =>
    rw [List.mem_cons, not_or] at h
    rw [takenFrom_cons, ih h.2, side_putDown h.1, side_pealLeave]

theorem putDownAs_taken {sts : List Station} (h : st ∈ sts ∧ getBell s st = b ∨ PutDownAs b st s) : PutDownAs b st (takenFrom sts s) := by
  induction sts generalizing s with
  | nil => exact h.resolve_left fun hmem => absurd hmem.1 List.not_mem_nil
  | cons x xs ih =>
    have hleft := side_pealLeave x st s
    refine ih ?_
    by_cases hx : st = x
    · subst hx
      refine Or.inr ?_
      rcases h with ⟨-, rfl⟩ | hdone
      · rw [← (side_parts hleft).1]
        exact putDownAs_putDown st _
      · exact (hdone.congr hleft).again
    · have hside : bellSide (putDown x (pealLeave x s)) st = bellSide s st := (side_putDown hx _).trans hleft
      rcases h with ⟨hmem, hb⟩ | hdone
      · exact Or.inl ⟨(List.mem_cons.1 hmem).resolve_left hx, (side_parts hside).1.trans hb⟩
      · exact Or.inr (hdone.congr hside)

/-- The peal without some bells: it is shortened if it held one of them. -/
def pealWithout (sts : List Station) (p : PealRun) : PealRun :=
  { p with held := p.held.filter (fun h => h ∉ sts), shortened := p.shortened || p.held.any (fun h => h ∈ sts) }

theorem pealWithout_apart {sts : List Station} (h : ∀ st ∈ p.held, st ∉ sts) : pealWithout sts p = p := by
  have hheld : p.held.filter (fun h => h ∉ sts) = p.held := List.filter_eq_self.2 fun st hst => by simpa using h st hst
  have hshort : p.held.any (fun h => h ∈ sts) = false := List.any_eq_false.2 fun st hst => by simpa using h st hst
  rw [pealWithout, hheld, hshort, Bool.or_false]

theorem pealWithout_cons (x : Station) (xs : List Station) (p : PealRun) :
    pealWithout (x :: xs) p = pealWithout xs (pealWithout [x] p) := by
  have hheld : p.held.filter (fun h => h ∉ x :: xs) = (p.held.filter fun h => h ∉ [x]).filter fun h => h ∉ xs := by
    rw [List.filter_filter]
    exact List.filter_congr fun h _ => by simp [Bool.and_comm]
  have hshort : p.held.any (fun h => h ∈ x :: xs)
      = (p.held.any (fun h => h ∈ [x]) || (p.held.filter fun h => h ∉ [x]).any fun h => h ∈ xs) := by
    rw [Bool.eq_iff_iff]
    simp only [List.any_eq_true, Bool.or_eq_true, List.mem_filter, decide_eq_true_eq, List.mem_cons, List.not_mem_nil, or_false]
    grind
  simp only [pealWithout, hheld, hshort, Bool.or_assoc]

theorem peal_pealLeave (x : Station) (s : State) : (pealLeave x s).peal = s.peal.map (pealWithout [x]) := by
  unfold pealLeave
  cases hp : s.peal with
  | none => simp [hp]
  | some p =>
    dsimp only
    by_cases hx : p.held.contains x = true
    · have hmem : x ∈ p.held := List.contains_iff_mem.1 hx
      have hheld : p.held.filter (fun h => h ∉ [x]) = p.held.filter fun h => h != x := List.filter_congr fun h _ => by
        rw [Bool.eq_iff_iff]
        simp
      have hshort : p.held.any (fun h => h ∈ [x]) = true := List.any_eq_true.2 ⟨x, hmem, by simp⟩
      rw [if_pos hx, Option.map_some, pealWithout, hheld, hshort, Bool.or_true]
    · have hapart : pealWithout [x] p = p := pealWithout_apart fun st hst hmem => by
        rw [List.mem_singleton] at hmem
        exact hx (List.contains_iff_mem.2 (hmem ▸ hst))
      rw [if_neg hx, hp, Option.map_some, hapart]

theorem peal_taken (sts : List Station) (s : State) : (takenFrom sts s).peal = s.peal.map (pealWithout sts) := by
  induction sts generalizing s with
  | nil =>
    rw [show pealWithout [] = id from funext fun p => pealWithout_apart fun _ _ => List.not_mem_nil, Option.map_id]
    rfl
  | cons x xs ih =>
    have hput : (putDown x (pealLeave x s)).peal = (pealLeave x s).peal := (bellWork_putDown x).peal
    rw [takenFrom_cons, ih, hput, peal_pealLeave, Option.map_map]
    exact congrArg (fun f => Option.map f s.peal) (funext fun p => (pealWithout_cons x xs p).symm)

/-- The bells of a peal that a silence takes. -/
def takenBells (bells : BellSet) (p : PealRun) : List Station := p.held.filter (inSet bells)

/-- The bells of a peal that a silence leaves. -/
def leftBells (bells : BellSet) (p : PealRun) : List Station := p.held.filter fun st => !inSet bells st

/-- The peal as a silence that takes bells of it leaves it. -/
def pealLeft (bells : BellSet) (p : PealRun) : PealRun := { p with held := leftBells bells p, shortened := true }

theorem mem_takenBells : st ∈ takenBells bells p ↔ st ∈ p.held ∧ inSet bells st = true := List.mem_filter

theorem not_taken_of_left (h : st ∈ leftBells bells p) : st ∉ takenBells bells p := by
  have hout := (List.mem_filter.1 h).2
  rw [mem_takenBells]
  rintro ⟨-, hin⟩
  rw [hin] at hout
  cases hout

theorem takenBells_ne_nil (h : leftBells bells p ≠ p.held) : takenBells bells p ≠ [] := fun hnone =>
  h (List.filter_eq_self.2 fun st hst => by simpa using List.filter_eq_nil_iff.1 hnone st hst)

theorem pealWithout_taken (h : takenBells bells p ≠ []) : pealWithout (takenBells bells p) p = pealLeft bells p := by
  have hheld : p.held.filter (fun st => st ∉ takenBells bells p) = leftBells bells p :=
    List.filter_congr fun st hst => by simp [mem_takenBells, hst]
  have hshort : p.held.any (fun st => st ∈ takenBells bells p) = true := by
    obtain ⟨st, hst⟩ := List.exists_mem_of_ne_nil _ h
    exact List.any_eq_true.2 ⟨st, (mem_takenBells.1 hst).1, by simpa using hst⟩
  rw [pealWithout, hheld, hshort, Bool.or_true, pealLeft]

/-- A silence that takes bells of the running peal: with none left the peal ends, else it goes on with the rest. -/
theorem silencePeal_eq (hp : s.peal = some p) (h : takenBells bells p ≠ []) :
    silencePeal bells s =
      if leftBells bells p = [] then finishPeal .cutShort (takenFrom (takenBells bells p) s)
      else settlePeal (takenFrom (takenBells bells p) s) := by
  have hpeal := peal_taken (takenBells bells p) s
  rw [hp, Option.map_some, pealWithout_taken h] at hpeal
  unfold takenFrom takenBells at hpeal ⊢
  unfold takenBells at h
  unfold silencePeal
  rw [hp]
  dsimp only
  rw [if_neg h, hpeal]
  rfl

theorem silencePeal_none (hp : s.peal = some p) (h : takenBells bells p = []) : silencePeal bells s = s := by
  unfold silencePeal
  rw [hp]
  exact if_pos h

theorem finishPeal_rest (x : EntryState) (s : State) :
    (finishPeal x s).bells = s.bells ∧ (finishPeal x s).line = s.line ∧ (finishPeal x s).lights = s.lights := by
  obtain ⟨hbells, hline, hlights, -⟩ := work_parts (work_endLane .peal x { s with peal := none })
  exact ⟨hbells, hline, hlights⟩

/-- Every bell is as the taking left it. -/
theorem side_silencePeal (hp : s.peal = some p) (st : Station) :
    bellSide (silencePeal bells s) st = bellSide (takenFrom (takenBells bells p) s) st := by
  by_cases h : takenBells bells p = []
  · rw [silencePeal_none hp h, h]
    rfl
  · rw [silencePeal_eq hp h]
    split
    · obtain ⟨hbells, hline, hlights⟩ := finishPeal_rest .cutShort (takenFrom (takenBells bells p) s)
      exact side_of_parts hbells hline hlights st
    · obtain ⟨hbells, hline, hlights, -⟩ := rest_settlePeal (takenFrom (takenBells bells p) s)
      exact side_of_parts hbells hline hlights st

end Sys2Proof.Stack
end

section
/-! PROOFS. The running peal after a push by which the silence gains for peals, and O38 as a whole (R100, R104, R105, R130). -/

namespace Sys2Proof.Stack

open Sys2Proof Sys2Proof.Machine Sys2Proof.Time Sys2Proof.Performance Sys2Proof.Mains

variable {s t : State} {st : Station} {e : Entry} {k : Key} {p : PealRun} {o : Overrides} {bells : BellSet}

/-! ### The PEAL lane while bells are taken (R105) -/

theorem laneKey_endLane (lane other : Lane) (x : EntryState) (s : State) :
    laneKey (endLane lane x s) other = if lane = other then none else laneKey s other := by
  unfold endLane
  split
  · next hk =>
    split
    · next h => rwa [← h]
    · rfl
  · next k hk => exact ((calm_finalise k x).lane other).trans (laneKey_setLane ..)

/-- Work on bells ends no entry of the PEAL lane. -/
theorem bellProof_pealLane (x : Option Key) : BellProof fun s => laneKey s .peal = x where
  bell _ _ _ h := h
  line _ _ h := h
  lights _ _ h := h
  flag _ _ h := h
  answer := answerStroke_keeps (fun _ _ h => h) (fun _ _ h => h) fun lane st s hlane h => by
    rw [laneKey_endLane, if_neg hlane]
    exact h

theorem pealLane_taken (sts : List Station) (s : State) : laneKey (takenFrom sts s) .peal = laneKey s .peal := by
  refine foldl_keeps (fun u => laneKey u .peal = laneKey s .peal) _ (fun u st hu => ?_) sts s rfl
  refine (bellProof_pealLane _).putDown st ?_
  unfold pealLeave
  repeat' split
  all_goals exact hu

/-- The peal with other bells than those it holds stands as it does with these. -/
theorem pealStays_congr {bs bs' : Vector Bell 31} (h : PealStays (some p) bs) (heq : ∀ st ∈ p.held, bs'.get st = bs.get st) :
    PealStays (some p) bs' := by
  intro q hq
  obtain rfl : p = q := Option.some.inj hq
  obtain ⟨hraise, hring, hlower⟩ := h p rfl
  have hmap : p.held.map bs'.get = p.held.map bs.get := List.map_congr_left heq
  have hall (f : Bell → Bool) : p.held.all (fun st => f (bs'.get st)) = p.held.all fun st => f (bs.get st) := by
    simpa [List.all_map, Function.comp_def] using congrArg (fun l => l.all f) hmap
  have hany (f : Bell → Bool) : p.held.any (fun st => f (bs'.get st)) = p.held.any fun st => f (bs.get st) := by
    simpa [List.any_map, Function.comp_def] using congrArg (fun l => l.any f) hmap
  exact ⟨fun hphase => ⟨(hraise hphase).1, (hall fun b => b.pos == .up && !b.waitingRaise).trans (hraise hphase).2⟩,
    fun hphase => (hany fun b => b.pos == .up).trans (hring hphase), fun hphase => (hall atRest).trans (hlower hphase)⟩

/-- A peal of given bells that is no longer whole, or none. -/
def ShortOf (held : List Station) (s : State) : Prop := s.peal = none ∨ ∃ q, s.peal = some q ∧ q.held = held ∧ q.shortened = true

theorem shortOf_settlePeal {held : List Station} (h : ShortOf held s) : ShortOf held (settlePeal s) := by
  rcases settlePeal_cases s with heq | ⟨x, q, hx, hheld, hshort, heq⟩ | ⟨y, -, heq⟩
  · rwa [heq]
  · rcases h with hnone | ⟨z, hz, hzheld, hzshort⟩
    · rw [hnone] at hx; cases hx
    · obtain rfl : x = z := Option.some.inj (hx.symm.trans hz)
      rw [heq]
      exact Or.inr ⟨q, rfl, hheld.trans hzheld, hshort.trans hzshort⟩
  · rw [heq]
    exact Or.inl (finishPeal_peal y s)

/-! ### The state in which the peal is silenced -/

/-- The state in which the new silence has withheld its entries and cut the CHIME and the TOLL lane, and the peal is as it was. -/
def lanesCut (o : Overrides) (s : State) : State := cutSilenced .toll (cutSilenced .chime (withheld o s))

theorem lanesEnd_lanesCut (o : Overrides) (s : State) : LanesEnd (withheld o s) (lanesCut o s) :=
  (lanesEnd_cutSilenced Lane.noConfusion _).trans (lanesEnd_cutSilenced Lane.noConfusion _)

theorem work_lanesCut (o : Overrides) (s : State) : workView (lanesCut o s) = workView { s with overrides := o } := by
  rw [lanesCut, work_cutSilenced Lane.noConfusion, work_cutSilenced Lane.noConfusion]
  exact work_finaliseAll ..

theorem peal_lanesCut (o : Overrides) (s : State) : (lanesCut o s).peal = s.peal := by
  obtain ⟨-, -, -, hpeal, -⟩ := work_parts (work_lanesCut o s)
  exact hpeal

theorem side_lanesCut (o : Overrides) (s : State) (st : Station) : bellSide (lanesCut o s) st = bellSide s st := by
  obtain ⟨hbells, hline, hlights, -⟩ := work_parts (work_lanesCut o s)
  exact side_of_parts hbells hline hlights st

theorem pealLane_lanesCut (o : Overrides) (s : State) : laneKey (lanesCut o s) .peal = laneKey s .peal := by
  rw [lanesCut, laneKey_cutSilenced Lane.noConfusion Lane.noConfusion, laneKey_cutSilenced Lane.noConfusion Lane.noConfusion,
    laneKey_withheld]

/-- The bells that a stack silences for peals. -/
def pealBells (o : Overrides) : BellSet := pealSilenced (effectiveOf o.entries)

/-- The state in which the silenced bells have left the peal. -/
def bellsTaken (p : PealRun) (o : Overrides) (s : State) : State := takenFrom (takenBells (pealBells o) p) (lanesCut o s)

theorem lanesEnd_bellsTaken (p : PealRun) (o : Overrides) (s : State) : LanesEnd (withheld o s) (bellsTaken p o s) :=
  (silenceProof_lanesEnd _).taken _ (lanesEnd_lanesCut o s)

theorem pealLane_bellsTaken (p : PealRun) (o : Overrides) (s : State) : laneKey (bellsTaken p o s) .peal = laneKey s .peal :=
  (pealLane_taken _ _).trans (pealLane_lanesCut o s)

theorem reserv_silenced (o : Overrides) (s : State) : (silenced o s).lights.reserv = s.lights.reserv :=
  congrArg (fun v => v.2.1) ((account_settlePeal _).trans (account_handSilence (effective s) { s with overrides := o }))

section Gained

variable (hgain : (effective s).peal.gained (effective { s with overrides := o }).peal = true)
include hgain

theorem silenced_peal : silenced o s = settlePeal (silencePeal (pealBells o) (lanesCut o s)) := by
  unfold silenced handSilence
  simp only [if_pos hgain, if_pos (silenceGained_of_peal hgain)]
  rfl

theorem side_silenced (hp : s.peal = some p) (st : Station) : bellSide (silenced o s) st = bellSide (bellsTaken p o s) st := by
  obtain ⟨hbells, hline, hlights, -⟩ := rest_settlePeal (silencePeal (pealBells o) (lanesCut o s))
  rw [silenced_peal hgain, side_of_parts hbells hline hlights, side_silencePeal ((peal_lanesCut o s).trans hp)]
  rfl

/-- The silenced bells of the peal are put down. -/
theorem silenced_putDown (hp : s.peal = some p) (hmem : st ∈ p.held) (hset : inSet (pealBells o) st = true) :
    PutDownAs (getBell s st) st (silenced o s) :=
  PutDownAs.congr
    (putDownAs_taken (Or.inl ⟨List.mem_filter.2 ⟨hmem, hset⟩, (side_parts (side_lanesCut o s st)).1⟩))
    (side_silenced hgain hp st)

theorem silenced_bell_other (hp : s.peal = some p) (h : st ∉ takenBells (pealBells o) p) :
    getBell (silenced o s) st = getBell s st :=
  (side_parts ((side_silenced hgain hp st).trans ((side_taken h _).trans (side_lanesCut o s st)))).1

section Taken

variable (hp : s.peal = some p) (htaken : takenBells (pealBells o) p ≠ [])
include hp htaken

/-- With no bell left the peal is finished as cut short. -/
theorem silenced_last (hrest : leftBells (pealBells o) p = []) : silenced o s = finishPeal .cutShort (bellsTaken p o s) := by
  rw [silenced_peal hgain, silencePeal_eq ((peal_lanesCut o s).trans hp) htaken, if_pos hrest]
  exact settlePeal_none (finishPeal_peal _ _)

theorem silenced_rest (hrest : leftBells (pealBells o) p ≠ []) : silenced o s = settlePeal (settlePeal (bellsTaken p o s)) := by
  rw [silenced_peal hgain, silencePeal_eq ((peal_lanesCut o s).trans hp) htaken, if_neg hrest]
  rfl

omit hgain in
theorem peal_bellsTaken : (bellsTaken p o s).peal = some (pealLeft (pealBells o) p) := by
  rw [bellsTaken, peal_taken, peal_lanesCut, hp, Option.map_some, pealWithout_taken htaken]

theorem shortOf_silenced (hrest : leftBells (pealBells o) p ≠ []) : ShortOf (leftBells (pealBells o) p) (silenced o s) := by
  rw [silenced_rest hgain hp htaken hrest]
  exact shortOf_settlePeal (shortOf_settlePeal (Or.inr ⟨_, peal_bellsTaken hp htaken, rfl, rfl⟩))

/-- The entry of a peal with no bell left is CUT_SHORT, and its record shows it. -/
theorem silenced_ends (hrest : leftBells (pealBells o) p = []) (hkey : laneKey s .peal = some k)
    (hfind : findEntry k (entriesOf s) = some e) :
    (findEntry k (entriesOf (silenced o s))).map Entry.state = some .cutShort ∧
      ((getSlot s k.slot).state ≠ .empty → (getSlot (silenced o s) k.slot).last = .cutShort ∧
        ((∀ lane other, lane ≠ .peal → laneKey s lane = some other → other.slot ≠ k.slot) →
          (getSlot (silenced o s) k.slot).performed = min 65535 ((getSlot s k.slot).performed + 1))) := by
  have hlane := (pealLane_bellsTaken p o s).trans hkey
  have hends : silenced o s = finalise k .cutShort (setLane .peal none { bellsTaken p o s with peal := none }) := by
    rw [silenced_last hgain hp htaken hrest, finishPeal, endLane,
      show laneKey { bellsTaken p o s with peal := none } .peal = some k from hlane]
  have hend := lanesEnd_bellsTaken p o s
  obtain ⟨ks, -, ht⟩ := hend.touched
  have htouched := (touched_withheld o s).trans ht
  have hfound : ∃ x, findEntry k (entriesOf (setLane .peal none { bellsTaken p o s with peal := none })) = some x :=
    found_of_touched htouched ⟨e, hfind⟩
  rw [hends]
  refine ⟨state_finalise .cutShort hfound, fun hi => ?_⟩
  obtain ⟨day, hlast, hcount, -⟩ := outcome_finalise .cutShort hfound (htouched.held _ hi)
  refine ⟨hlast, fun honly => hcount.trans ?_⟩
  have hview : slotView (getSlot (bellsTaken p o s) k.slot) = slotView (getSlot (withheld o s) k.slot) :=
    hend.slot fun l other hl hfree => by
      by_cases hll : l = .peal
      · rw [hll, hlane] at hfree
        cases hfree
      · exact honly l other hll ((laneKey_withheld o s l).symm.trans hl)
  obtain ⟨-, hperformed, -⟩ := fields_of_view hview
  have hsame : (getSlot (bellsTaken p o s) k.slot).performed = (getSlot s k.slot).performed :=
    hperformed.trans (withholds_finaliseAll _ _ { s with overrides := o }).performed
  exact congrArg (fun n => min 65535 (n + 1)) hsame

/-- Where the rest of the peal has nothing to go on to, it stands as the taking left it. -/
theorem silenced_stands (hrest : leftBells (pealBells o) p ≠ []) (hstays : PealStays (some (pealLeft (pealBells o) p)) s.bells) :
    silenced o s = bellsTaken p o s := by
  have hbells : PealStays (bellsTaken p o s).peal (bellsTaken p o s).bells := by
    rw [peal_bellsTaken hp htaken]
    exact pealStays_congr hstays fun st hst => (side_parts ((side_taken (not_taken_of_left hst) _).trans (side_lanesCut o s st))).1
  have hsettled := settlePeal_stays hbells
  rw [silenced_rest hgain hp htaken hrest, hsettled, hsettled]

end Taken

end Gained

/-! ### O38 -/

/-- Settles O38: its first part by the lemmas `silenced_…` on the sheet and the lanes, its second by those on the peal, and the refusals by
`exec_push_full` and `exec_push_badValue`. -/
theorem silenceWithholds : Obligations.SilenceWithholds := by
  intro s k ks b3 b2 b1 b0 m3 m2 m1 m0 sc ds d1 d0 hp
  refine ⟨fun t ht hgain => ?_, fun t p rest ht hgain hpeal hrest => ?_, fun body => exec_push_full hp, exec_push_badValue hp⟩
  · obtain ⟨o, port, rfl, heff⟩ := push_gained hp ht hgain
    rw [heff] at hgain
    obtain ⟨_, htouched⟩ := touched_silenced hgain
    refine ⟨fun e => silenced_quells hgain, fun lane key e hlane => silenced_lane hgain hlane,
      skeleton_of_touched (t := silenced o s) htouched, fun hn e he =>
      ⟨fun hdue hsound hcov => ?_, fun lane hlane hkey hactive hcov hother => ?_, fun hspared => ?_⟩⟩
    · have hcovers : silenceCovers { s with overrides := o } e = true := (silenceCovers_of_tower (tower_silenced o s) e).symm.trans hcov
      exact silenced_withholds hgain he (hushed_iff.2 ⟨hdue, hsound, hcovers⟩)
    · exact silenced_cuts hgain hn he hlane hkey hactive hcov hother
    · have hcovers : silenceCovers { silenced o s with port := port } e = silenceCovers { s with overrides := o } e :=
        silenceCovers_of_tower (tower_silenced o s) e
      refine silenced_other hgain hn he ?_
      rw [← Bool.not_eq_true, hushed_iff]
      rintro ⟨hdue, hsound, hcov⟩
      rcases hspared with h | h | h
      · exact h hdue
      · rw [hsound] at h; cases h
      · rw [hcovers, hcov] at h; cases h
  · obtain ⟨o, port, rfl, heff⟩ := push_gained hp ht (silenceGained_of_peal hgain)
    rw [heff] at hgain hrest
    obtain rfl : rest = leftBells (pealBells o) p := hrest
    rw [heff]
    refine ⟨fun st hst hset => silenced_putDown hgain hpeal hst hset,
      fun st hst => silenced_bell_other hgain hpeal fun hmem => hst (mem_takenBells.1 hmem).1, reserv_silenced o s, fun hne => ?_⟩
    have htaken := takenBells_ne_nil hne
    refine ⟨fun hlast => ?_, fun hleft => ⟨?_, fun u hu hsettled => ?_⟩⟩
    · have hends := silenced_last hgain hpeal htaken hlast
      refine ⟨?_, ?_, fun key e => silenced_ends hgain hpeal htaken hlast⟩
      · exact hends ▸ finishPeal_peal _ _
      · exact hends ▸ laneKey_endLane .peal .peal _ _
    · exact shortOf_silenced hgain hpeal htaken hleft
    · subst hu
      have hstands := silenced_stands hgain hpeal htaken hleft (stays_of_settlePeal hsettled)
      exact ⟨hstands ▸ peal_bellsTaken hpeal htaken, hstands ▸ pealLane_bellsTaken p o s,
        fun st hst => silenced_bell_other hgain hpeal (not_taken_of_left hst)⟩

end Sys2Proof.Stack
end

section
/-! PROOFS. The account stays true to the bells through every command and every step: O10 (R119, R186). The lemmas of Laws/Keeps.lean and
Laws/KeepsAll.lean say it of the operations; what follows is the commands of the record table, which make and empty slots, a cold start, and
the outcomes of all commands. -/

namespace Sys2Proof.Account

open Sys2Proof Sys2Proof.Machine

variable {s t : State}

/-! ### What the law reads -/

/-- From s on, the account has stayed true to the bells. -/
def Recorded (s t : State) : Prop := reservLaw s → reservLaw t

theorem recorded_of_keeps (h : Keeps s t) : Recorded s t := h.reserv

/-- Work that the laws of the account follow, on a state that reads the same to the law of the reservations. -/
theorem Recorded.then {u : State} (h : Recorded s t) (h' : Keeps t u) : Recorded s u := h'.reserv ∘ h

/-! The law reads neither the record table, the tunes, the line and the clock nor the resolver. -/

@[simp] theorem recorded_refl (s : State) : Recorded s s := id
@[simp] theorem recorded_updSlot (i : SlotNo) (f : Slot → Slot) : Recorded s (updSlot i f s) := id
@[simp] theorem recorded_updTable (f : Table → Table) : Recorded s (updTable f s) := id
@[simp] theorem recorded_updTune (n : TuneNo) (f : Tune → Tune) : Recorded s (updTune n f s) := id
@[simp] theorem recorded_lockTunes (b : Bool) : Recorded s (lockTunes b s) := id
@[simp] theorem recorded_openedTune (n : TuneNo) (f : Tune → Tune) (k : Nat) (xs : List Note) :
    Recorded s (setNotes k xs (updTune n f s)) := id
@[simp] theorem recorded_setNotes (k : Nat) (xs : List Note) : Recorded s (setNotes k xs s) := id
@[simp] theorem recorded_updLine (f : Line → Line) : Recorded s (updLine f s) := id
@[simp] theorem recorded_updTime (f : TimeBase → TimeBase) : Recorded s (updTime f s) := id
@[simp] theorem recorded_updResolver (f : Resolver → Resolver) : Recorded s (updResolver f s) := id
@[simp] theorem recorded_clearFlags (mask : BitVec 15) : Recorded s (clearFlags mask s) := id
@[simp] theorem recorded_attn (a : Attn) : Recorded s { s with attn := a } := id

/-- A cold start leaves no bell reserving and no reservation. -/
theorem reservLaw_coldStarted (high : Bool) (s : State) : reservLaw (coldStarted high s) := by
  intro st
  simp [coldStarted, State.cold, getBell, Bell.cold, Lights.cold]

/-! ### The outcomes of a command -/

/-- A command that its owner carries out keeps the account true; a refusal changes nothing of it. -/
def Accepted (s : State) (r : Except Code State) : Prop := ∀ u, r = .ok u → Recorded s u

/-- The outcome of a command or an event keeps the account true. -/
def Kept (s : State) (r : Result) : Prop := ∀ t, r = .next t → Recorded s t

@[simp] theorem accepted_error (c : Code) : Accepted s (.error c) := fun _ h => nomatch h

@[simp] theorem accepted_ok : Accepted s (.ok t) ↔ Recorded s t :=
  ⟨fun h => h t rfl, fun h _ hu => Except.ok.inj hu ▸ h⟩

theorem kept_next (h : Recorded s t) : Kept s (.next t) := fun _ hu => Host.Outcome.next.inj hu ▸ h

theorem kept_change {r : Except Code State} (h : Accepted s r) : Kept s (change r s) := by
  unfold change
  repeat' split
  · next u => exact kept_next fun hs => h u rfl hs
  · exact kept_next id
  · exact kept_next id

theorem kept_answer (r : Except Code (List Byte)) : Kept s (answer r s) := by
  unfold answer
  repeat' split
  all_goals exact kept_next id

theorem kept_event {f : State → State} (h : Keeps s (f s)) : Kept s (event f s) := by
  unfold event
  split
  · exact kept_next h.reserv
  · exact kept_next id

theorem keeps_if {c : Prop} [Decidable c] (h : Keeps s t) : Keeps s (if c then t else s) := by
  split
  · exact h
  · exact Keeps.refl s

/-! ### The observance table (chapter 1) -/

variable (s)

theorem accepted_withSlot (ops : List Byte) (f : SlotNo → Except Code State) (h : ∀ i, Accepted s (f i)) :
    Accepted s (withSlot ops f) := by
  unfold withSlot
  repeat' split
  all_goals simp [h]

theorem accepted_writeRecord (ops : List Byte) : Accepted s (writeRecord ops s) := by
  unfold writeRecord writeImage
  repeat' split
  all_goals simp

theorem accepted_publish (i : SlotNo) : Accepted s (publish i s) := by
  have hlive : Recorded s (updSlot i (fun x => { x with state := .live }) s) := id
  unfold publish
  dsimp only
  repeat' split
  all_goals simp [hlive.then (keeps_trigger (Keeps.refl _))]

theorem accepted_publishRecord (ops : List Byte) : Accepted s (publishRecord ops s) :=
  accepted_withSlot s ops _ fun i => by
    repeat' split
    all_goals simp [accepted_publish]

theorem keeps_stopSlot (i : SlotNo) : Keeps s (stopSlot i s) :=
  keeps_foldl _ (fun _ lane h => keeps_stopLane h lane) _ (Keeps.refl s)

theorem recorded_withdraw (i : SlotNo) : Recorded s (withdraw i s) := by
  have hremoved : Recorded s (removeWaiting i s) := id
  have hstopped := (hremoved.then (keeps_stopSlot _ i)).then
    (keeps_finaliseAll (Keeps.refl _) (activeOf i (removeWaiting i s)) .cutShort rfl)
  have hdraft : ∀ u, Recorded s u → Recorded s (forgetGenerated i (updSlot i (fun x => { x with state := .draft }) u)) :=
    fun _ h => h
  exact (hdraft _ (hstopped.then (keeps_setLit (Keeps.refl _) _))).then (keeps_trigger (Keeps.refl _))

theorem accepted_withdrawRecord (ops : List Byte) : Accepted s (withdrawRecord ops s) :=
  accepted_withSlot s ops _ fun i => by
    repeat' split
    all_goals simp [recorded_withdraw]

theorem recorded_retire (i : SlotNo) : Recorded s (retire i s) := by
  have hemptied : ∀ u, Recorded s u → Recorded s (removeAll i u) := fun _ h => h
  have hempty := hemptied _ (recorded_of_keeps (keeps_stopSlot s i))
  have hcold : ∀ u, Recorded s u →
      Recorded s (forgetGenerated i (updSlot i (fun x => { Slot.cold with locked := x.locked }) u)) := fun _ h => h
  exact (hcold _ (hempty.then (keeps_setLit (Keeps.refl _) _))).then (keeps_trigger (Keeps.refl _))

theorem accepted_retireRecord (ops : List Byte) : Accepted s (retireRecord ops s) :=
  accepted_withSlot s ops _ fun i => by
    repeat' split
    all_goals simp [recorded_retire]

theorem accepted_writeProtection (ops : List Byte) (key : KeyLevel) : Accepted s (writeProtection ops key s) := by
  unfold writeProtection
  repeat' split
  all_goals simp

theorem accepted_lockOne (b : Bool) (ops : List Byte) : Accepted s (lockOne b ops s) :=
  accepted_withSlot s ops _ fun _ => accepted_ok.2 id

theorem accepted_noOperands (ops : List Byte) (h : Keeps s t) : Accepted s (noOperands ops t) := by
  unfold noOperands
  split
  · exact accepted_ok.2 h.reserv
  · simp

theorem accepted_lockTuneCmd (b : Bool) (ops : List Byte) : Accepted s (lockTuneCmd b ops s) := by
  unfold lockTuneCmd
  repeat' split
  all_goals simp

/-! ### The other commands of the port -/

theorem recorded_takeStep (new : TimeBase) : Recorded s (takeStep new s) := (keeps_takeStep (Keeps.refl s) new).reserv

theorem accepted_setTime (ops : List Byte) : Accepted s (setTime ops s) := by
  unfold setTime
  repeat' split
  all_goals simp [recorded_takeStep]

theorem accepted_adjustTime (ops : List Byte) : Accepted s (adjustTime ops s) := by
  unfold adjustTime
  repeat' split
  all_goals simp

theorem accepted_writeTimeSettings (ops : List Byte) : Accepted s (writeTimeSettings ops s) := by
  unfold writeTimeSettings
  dsimp only
  repeat' split
  all_goals simp [recorded_takeStep]

theorem accepted_writeSundayRank (ops : List Byte) : Accepted s (writeSundayRank ops s) := by
  unfold writeSundayRank
  repeat' split
  all_goals simp [recorded_of_keeps (keeps_trigger (keeps_updCalendar (Keeps.refl s) _))]

theorem accepted_writeTwilight (ops : List Byte) : Accepted s (writeTwilight ops s) := by
  unfold writeTwilight
  repeat' split
  all_goals simp [recorded_of_keeps (keeps_trigger (keeps_updCalendar (Keeps.refl s) _))]

theorem accepted_queryDay (ops : List Byte) : Accepted s (queryDay ops s) := by
  unfold queryDay
  repeat' split
  all_goals simp

theorem accepted_pushOverride (ops : List Byte) : Accepted s (pushOverride ops s) := by
  unfold pushOverride
  repeat' split
  all_goals simp [recorded_of_keeps (keeps_push (Keeps.refl s) _ _)]

theorem accepted_popOverride (ops : List Byte) : Accepted s (popOverride ops s) := by
  unfold popOverride
  repeat' split
  all_goals simp [recorded_of_keeps (keeps_setStack (Keeps.refl s) _)]

theorem accepted_dropOverride (ops : List Byte) : Accepted s (dropOverride ops s) := by
  unfold dropOverride
  repeat' split
  all_goals simp [recorded_of_keeps (keeps_setStack (Keeps.refl s) _)]

theorem accepted_writeBell (ops : List Byte) : Accepted s (writeBell ops s) := by
  unfold writeBell
  dsimp only
  repeat' split
  all_goals simp [recorded_of_keeps (keeps_acceptBell (Keeps.refl s) _ _)]

theorem accepted_freeBell (ops : List Byte) : Accepted s (freeBell ops s) := by
  have hfreed : ∀ st, Keeps s (settlePeal (becomeUnsure st (updBell st (fun b => { b with noAnswer := 0 }) s))) := fun st =>
    keeps_settlePeal (keeps_becomeUnsure (keeps_updBell (Keeps.refl s) st _ (by intro _; rfl)) st)
  unfold freeBell
  repeat' split
  all_goals simp [recorded_of_keeps (hfreed _)]

theorem accepted_withTune (n : Nat) (f : TuneNo → Except Code State) (h : ∀ i, Accepted s (f i)) :
    Accepted s (withTune n s f) := by
  unfold withTune
  repeat' split
  all_goals simp [h]

theorem accepted_whileLoading (n : TuneNo) {r : Except Code State} (h : Accepted s r) :
    Accepted s (whileLoading s n r) := by
  unfold whileLoading
  split
  · exact h
  all_goals simp

theorem accepted_openTune (ops : List Byte) : Accepted s (openTune ops s) := by
  unfold openTune
  split
  · refine accepted_withTune s _ _ fun n => ?_
    dsimp only
    repeat' split
    all_goals simp
  · simp

theorem accepted_writeNotes (ops : List Byte) : Accepted s (writeNotes ops s) := by
  unfold writeNotes
  repeat' split
  · simp
  · simp
  · refine accepted_withTune s _ _ fun n => accepted_whileLoading s n ?_
    split <;> simp
  · simp

theorem accepted_closeTune (ops : List Byte) : Accepted s (closeTune ops s) := by
  unfold closeTune
  split
  · exact accepted_withTune s _ _ fun n => accepted_whileLoading s n (by simp)
  · simp

theorem accepted_clearTune (ops : List Byte) : Accepted s (clearTune ops s) := by
  unfold clearTune
  split
  · refine accepted_withTune s _ _ fun n => ?_
    repeat' split
    all_goals simp
  · simp

theorem accepted_clearLineCmd (ops : List Byte) : Accepted s (clearLineCmd ops s) := by
  unfold clearLineCmd
  repeat' split
  all_goals simp

theorem accepted_writeLineSettings (ops : List Byte) : Accepted s (writeLineSettings ops s) := by
  unfold writeLineSettings
  repeat' split
  all_goals simp

theorem accepted_writeDial (ops : List Byte) (circuitOpen : Bool) : Accepted s (writeDial ops circuitOpen s) := by
  unfold writeDial
  repeat' split
  all_goals simp [recorded_of_keeps (keeps_acceptDial (Keeps.refl s) _ _ _ _ _ _ _)]

theorem accepted_setDialHands (ops : List Byte) : Accepted s (setDialHands ops s) := by
  unfold setDialHands
  repeat' split
  all_goals simp [recorded_of_keeps (keeps_evaluate (keeps_updDial (Keeps.refl s) _ _) _)]

theorem accepted_writeZone (ops : List Byte) : Accepted s (writeZone ops s) := by
  unfold writeZone
  split
  · split
    · split
      · next hok => exact accepted_ok.2 (keeps_acceptZone (Keeps.refl s) _ _ _ _ _ hok.2.2.1 hok.2.2.2).reserv
      · simp
    · simp
  · simp

theorem accepted_writeScene (ops : List Byte) : Accepted s (writeScene ops s) := by
  have hscenes : ∀ x, Recorded s (setLights { s.lights with scenes := x } s) := fun _ => id
  unfold writeScene
  repeat' split
  all_goals simp [(hscenes _).then (keeps_settlePeal (keeps_findWanted (Keeps.refl _)))]

theorem accepted_setAllowance (ops : List Byte) : Accepted s (setAllowance ops s) := by
  unfold setAllowance
  split
  · split
    · simp
    · split
      · simp
      · next hroom => exact accepted_ok.2 (keeps_acceptAllowance (Keeps.refl s) _ (Nat.le_of_not_lt hroom)).reserv
  · simp

theorem accepted_clearAttention (ops : List Byte) : Accepted s (clearAttention ops s) := by
  unfold clearAttention
  repeat' split
  all_goals simp

theorem accepted_writeAttentionEnables (ops : List Byte) : Accepted s (writeAttentionEnables ops s) := by
  unfold writeAttentionEnables
  repeat' split
  all_goals simp

/-! ### Levels sampled, and power -/

theorem recorded_sampleKey (key : KeyLevel) : Recorded s (sampleKey key s) := by
  unfold sampleKey
  split <;> exact id

theorem recorded_sampleReadContact (ops : List Byte) (closed : Bool) : Recorded s (sampleReadContact ops closed s) := by
  unfold sampleReadContact
  repeat' split
  all_goals exact id

theorem kept_readStatus : Kept s (exec .readStatus s) := by
  change Kept s (execReadStatus s)
  unfold execReadStatus
  split <;> exact kept_next id

theorem kept_resetPin (opens : DialSet) : Kept s (exec (.resetPin opens) s) := by
  have hlow : Recorded s (setResetPin false s) := id
  change Kept s (execResetPin opens s)
  unfold execResetPin
  split
  · exact kept_next (hlow.then (keeps_panelReset (Keeps.refl _) opens))
  · exact kept_next hlow

theorem kept_coldStart (high : Bool) : Kept s (exec (.coldStart high) s) := by
  change Kept s (execColdStart high s)
  unfold execColdStart
  split
  · exact kept_next fun _ => reservLaw_coldStarted high s
  · exact kept_next id

theorem kept_powerUp (high : Bool) (opens : DialSet) : Kept s (exec (.powerUpBackupHeld high opens) s) := by
  change Kept s (execPowerUpBackupHeld high opens s)
  unfold execPowerUpBackupHeld
  split
  · exact kept_next (keeps_powerUpHeld (Keeps.refl s) high opens).reserv
  · exact kept_next id

/-! ### Runs of the resolver -/

theorem kept_resolverRunStart : Kept s (exec .resolverRunStart s) := by
  change Kept s (execResolverRunStart s)
  unfold execResolverRunStart
  refine kept_event ?_
  split
  · exact keeps_startRun (Keeps.refl s) _
  · exact Keeps.refl s

theorem kept_todayRebuildInstall : Kept s (exec .todayRebuildInstall s) := by
  change Kept s (execTodayRebuildInstall s)
  unfold execTodayRebuildInstall
  refine kept_event ?_
  split
  · exact keeps_installToday (keeps_endRun (Keeps.refl s)) _
  · exact Keeps.refl s

theorem kept_standbyBuildInstall : Kept s (exec .standbyBuildInstall s) := by
  change Kept s (execStandbyBuildInstall s)
  unfold execStandbyBuildInstall
  refine kept_event ?_
  split
  · exact keeps_installStandby (keeps_endRun (Keeps.refl s)) _ _
  · exact Keeps.refl s

theorem kept_queryRunComplete : Kept s (exec .queryRunComplete s) := by
  change Kept s (execQueryRunComplete s)
  unfold execQueryRunComplete
  refine kept_event ?_
  split
  · exact keeps_setFlag (keeps_updResolver (keeps_endRun (Keeps.refl s)) _) _
  · exact Keeps.refl s

/-! ### The commands and events, one by one -/

theorem kept_exec (i : Instr) : Kept s (exec i s) := by
  have hs := Keeps.refl s
  cases i with
  | writeRecord ops => exact kept_change (accepted_writeRecord s ops)
  | publishRecord ops => exact kept_change (accepted_publishRecord s ops)
  | withdrawRecord ops => exact kept_change (accepted_withdrawRecord s ops)
  | retireRecord ops => exact kept_change (accepted_retireRecord s ops)
  | writeProtection ops key =>
    exact fun t ht => kept_change (accepted_writeProtection _ ops key) t ht ∘ recorded_sampleKey s key
  | readProtection key => exact fun t ht => kept_answer (.ok (protectionStream s key)) t ht ∘ recorded_sampleKey s key
  | lockSlot ops => exact kept_change (accepted_lockOne s true ops)
  | unlockSlot ops => exact kept_change (accepted_lockOne s false ops)
  | lockAll ops => exact kept_change (accepted_noOperands s ops (keeps_lockSlots hs true))
  | unlockAll ops => exact kept_change (accepted_noOperands s ops (keeps_lockSlots hs false))
  | lockTune ops => exact kept_change (accepted_lockTuneCmd s true ops)
  | unlockTune ops => exact kept_change (accepted_lockTuneCmd s false ops)
  | setTime ops => exact kept_change (accepted_setTime s ops)
  | adjustTime ops => exact kept_change (accepted_adjustTime s ops)
  | writeTimeSettings ops => exact kept_change (accepted_writeTimeSettings s ops)
  | writeSundayRank ops => exact kept_change (accepted_writeSundayRank s ops)
  | writeTwilight ops => exact kept_change (accepted_writeTwilight s ops)
  | queryDay ops => exact kept_change (accepted_queryDay s ops)
  | pushOverride ops => exact kept_change (accepted_pushOverride s ops)
  | popOverride ops => exact kept_change (accepted_popOverride s ops)
  | dropOverride ops => exact kept_change (accepted_dropOverride s ops)
  | writeBell ops => exact kept_change (accepted_writeBell s ops)
  | freeBell ops => exact kept_change (accepted_freeBell s ops)
  | openTune ops => exact kept_change (accepted_openTune s ops)
  | writeNotes ops => exact kept_change (accepted_writeNotes s ops)
  | closeTune ops => exact kept_change (accepted_closeTune s ops)
  | clearTune ops => exact kept_change (accepted_clearTune s ops)
  | clearLine ops => exact kept_change (accepted_clearLineCmd s ops)
  | writeLineSettings ops => exact kept_change (accepted_writeLineSettings s ops)
  | writeDial ops circuitOpen => exact kept_change (accepted_writeDial s ops circuitOpen)
  | setDialHands ops => exact kept_change (accepted_setDialHands s ops)
  | readDial ops closed => exact fun t ht => kept_answer _ t ht ∘ recorded_sampleReadContact s ops closed
  | writeZone ops => exact kept_change (accepted_writeZone s ops)
  | writeScene ops => exact kept_change (accepted_writeScene s ops)
  | setAllowance ops => exact kept_change (accepted_setAllowance s ops)
  | clearAttention ops => exact kept_change (accepted_clearAttention s ops)
  | writeAttentionEnables ops => exact kept_change (accepted_writeAttentionEnables s ops)
  | reset ops opens => exact kept_change (accepted_noOperands s ops (keeps_panelReset hs opens))
  | unknownCommandFrame code ops => exact kept_change (accepted_error _)
  | readRecord _ | findRecords _ | readSheet _ | readBell _ | readTune _ | readNotes _ | readLighting _ => exact kept_answer _
  | readTime | readTimeSettings | readCalendarSettings | readQueryResult | readOverrides | readLine | readIdentity =>
    exact kept_answer (.ok _)
  | readStatus => exact kept_readStatus s
  | resetPin opens => exact kept_resetPin s opens
  | coldStart high => exact kept_coldStart s high
  | powerUpBackupHeld high opens => exact kept_powerUp s high opens
  | mainsLost => exact kept_event (keeps_if (keeps_mainsLoss hs))
  | mainsReturn opens => exact kept_event (keeps_if (keeps_mainsBack hs opens))
  | newSecond => exact kept_event (keeps_endSecond hs)
  | summerChange => exact kept_event (keeps_if (keeps_endSecond hs))
  | dayChange => exact kept_event (keeps_if (keeps_endSecond hs))
  | endOfRange => exact kept_event (keeps_if (keeps_endSecond hs))
  | standbyBuildTime =>
    have hmark : Keeps s { s with sheets := { s.sheets with standbyTime := false } } := keeps_view hs rfl
    exact kept_event (keeps_if (keeps_requestStandby hmark))
  | referenceMessage bytes => exact kept_event (keeps_receiveBytes hs bytes)
  | waitingMessageExpiry => exact kept_event (keeps_if (keeps_updTime hs _))
  | referencePulse => exact kept_event (keeps_pulse hs)
  | referenceLost => exact kept_event (keeps_if (keeps_setFlag (keeps_updTime hs _) _))
  | holdoverExpiry => exact kept_event (keeps_if (keeps_updTime hs _))
  | resolverRunStart => exact kept_resolverRunStart s
  | todayRebuildInstall => exact kept_todayRebuildInstall s
  | standbyBuildInstall => exact kept_standbyBuildInstall s
  | queryRunComplete => exact kept_queryRunComplete s
  | entryFallsDue => exact kept_event (f := fun u => settlePeal (fallOne u)) (keeps_settlePeal (keeps_fallOne hs))
  | quietPeriodEnd => exact kept_event (keeps_endQuiet hs)
  | graceExpiry => exact kept_event (keeps_expireGrace hs)
  | laneTakesEntry lane => exact kept_event (keeps_laneTakes hs lane)
  | tollStrokeRequest => exact kept_event (keeps_tollNext hs)
  | tuneNote => exact kept_event (keeps_noteStarts hs)
  | tunePlayEnd => exact kept_event (keeps_playEnds hs)
  | hourStrokeRequest => exact kept_event (keeps_hourStroke hs)
  | deferredStrokeDue st => exact kept_event (keeps_if (keeps_serveDeferred hs 1 st))
  | tuneCheckComplete n => exact kept_event (keeps_if (keeps_completeCheck hs n))
  | overrideExpiry => exact kept_event (keeps_expireOverrides hs)
  | raiseTimeout st => exact kept_event (keeps_if (keeps_settlePeal (keeps_raiseFailed hs st)))
  | lowerTimeout st => exact kept_event (keeps_if (keeps_settlePeal (keeps_becomeFault (keeps_makeOrder hs st _) st)))
  | bellPoll st => exact kept_event (keeps_if (keeps_takePoll hs st))
  | ringingLimit st => exact kept_event (keeps_if (keeps_settlePeal (keeps_orderLower (keeps_pealLeave hs st) st)))
  | pealRaisingTimeout => exact kept_event (keeps_if (keeps_excludeWaiting hs))
  | pealRingingEnd => exact kept_event (keeps_if (keeps_endRinging hs))
  | owedOrderOffered => exact kept_event (keeps_offerFirst hs)
  | waitingRequestAdmitted st => exact kept_event (keeps_admitWaiting hs st)
  | orderFrameStart lck lda => exact kept_event (keeps_frameStart hs lck lda)
  | orderAttemptEnd a => exact kept_event (keeps_attemptEnd hs a)
  | arbitrationLost f => exact kept_event (keeps_loseArbitration hs f)
  | foreignStart address => exact kept_event (keeps_foreignBegins hs address)
  | observedFrameStop rest ack => exact kept_event (keeps_observedStop hs rest ack)
  | claim set => exact kept_event (keeps_claimFrame hs set)
  | release set => exact kept_event (keeps_releaseFrame hs _ set)
  | releaseAll => exact kept_event (keeps_releaseFrame hs _ _)
  | busError => exact kept_event (keeps_busErrorIn hs)
  | forcedAccess => exact kept_event (keeps_if (keeps_forceAccess hs))
  | recoveryPulsesDone freed => exact kept_event (keeps_pulsesDone hs freed)
  | clockStuck => exact kept_event (keeps_clockFault hs)
  | recoveryAttemptEnd x => exact kept_event (keeps_attemptOver hs x)
  | targetChange => exact kept_event (keeps_targetChange hs)
  | impulseStart d => exact kept_event (keeps_if (keeps_updDial hs d _))
  | impulseEnd d circuitOpen => exact kept_event (keeps_if (keeps_endImpulse hs d circuitOpen))
  | syncClosure d => exact kept_event (f := fun u => closureOf d (sampleContact d true u)) (keeps_closureOf (keeps_pins hs _) d)
  | referenceMessageAbandoned => exact kept_event (keeps_abandonMessage hs)
  | addressedFrameStop => exact kept_event (keeps_addressedStop hs)
  | resetPinReleased | partUnpowered | backupRetentionLost => exact kept_next id

theorem kept_step : Kept s (Machine.step s) := by
  unfold Machine.step
  split
  · next c rest _ =>
    have hrest : Recorded s { s with pending := rest } := id
    exact fun t ht => kept_exec _ c t ht ∘ hrest
  · split
    · exact kept_exec s _
    · refine kept_next ?_
      unfold tick
      split <;> exact id

/-- Settles O10: each command and each event keeps the account true to the bells, and so does a millisecond that passes. -/
theorem stepKeepsReservations : Obligations.StepKeepsReservations := fun s t hlaw hstep => kept_step s t hstep hlaw

end Sys2Proof.Account
end

section
/-! PROOFS. What the operations on one bell leave, as the statements about the bell table use it: the flags, the running peal, room in the
queue, the query of a bell that becomes UNSURE, and the bell's own fields (R115, R118, R122, R124, R154). -/

namespace Sys2Proof.BellTable

open Sys2Proof Sys2Proof.Machine Sys2Proof.Time Sys2Proof.Performance Sys2Proof.Mains Sys2Proof.Stack

variable {s t : State} {st : Station}

/-! ### The flags: no stroke that is answered and no order sets one -/

theorem attn_endLane (lane : Lane) {x : EntryState} (h : x ≠ .missed) (s : State) : (endLane lane x s).attn = s.attn := by
  unfold endLane
  split
  · rfl
  · exact (finalise_attn _ h _).trans (setLane_attn ..)

theorem attn_answerToll (sent : Bool) (r : TollRun) (s : State) : (answerToll sent r s).attn = s.attn := by
  unfold answerToll
  dsimp only
  split
  · rfl
  · exact attn_endLane _ (by split <;> simp) _

theorem attn_answerHour (sent : Bool) (p : Player) (s : State) : (answerHour sent p s).attn = s.attn := by
  unfold answerHour
  dsimp only
  split
  · rfl
  · exact attn_endLane _ (by split <;> simp) _

theorem attn_answerStroke (who : Requester) (sent : Bool) (s : State) : (answerStroke who sent s).attn = s.attn := by
  unfold answerStroke
  repeat' split
  · exact attn_answerToll ..
  · rfl
  · rfl
  · exact attn_answerHour ..
  · rfl
  · rfl
  · rfl

theorem attn_checkStrikable (st : Station) (s : State) : (checkStrikable st s).attn = s.attn := by
  have hlost : ∀ (o : Order) (u : State), (strikeLost o u).attn = u.attn := fun o u => by
    unfold strikeLost
    split
    · exact attn_answerStroke ..
    · rfl
  have hdeferred : (loseDeferred st s).attn = s.attn :=
    foldl_view State.attn _ (fun u (d : Deferred) => attn_answerStroke d.requester false u) _ _
  unfold checkStrikable
  split
  · rfl
  · exact (foldl_view State.attn _ (fun u o => hlost o u) _ _).trans hdeferred

theorem attn_makeOrder (st : Station) (k : SwingOrder) (s : State) : (makeOrder st k s).attn = s.attn := by
  unfold makeOrder
  repeat' split
  all_goals rfl

theorem attn_startPolling (st : Station) (s : State) : (startPolling st s).attn = s.attn := by
  have hpoll : ∀ u, (firstQuery st u).attn = u.attn := fun u => by
    unfold firstQuery pollNow
    repeat' split
    · exact attn_makeOrder ..
    · exact attn_makeOrder ..
    · rfl
  unfold startPolling
  dsimp only
  repeat' split
  · rfl
  · exact hpoll _
  · exact attn_makeOrder ..
  · rfl

theorem attn_enterPosition (st : Station) (pos : Position) (s : State) : (enterPosition st pos s).attn = s.attn :=
  (attn_startPolling ..).trans (attn_checkStrikable ..)

theorem attn_orderLower (st : Station) (s : State) : (orderLower st s).attn = s.attn :=
  (attn_enterPosition ..).trans (attn_makeOrder ..)

theorem attn_pealLeave (st : Station) (s : State) : (pealLeave st s).attn = s.attn := by
  unfold pealLeave
  repeat' split
  all_goals rfl

theorem attn_endIfLowered (p : PealRun) (s : State) : (endIfLowered p s).attn = s.attn := by
  unfold endIfLowered
  split
  · exact attn_endLane _ (by split <;> simp) _
  · rfl

theorem attn_beginLowering (p : PealRun) (s : State) : (beginLowering p s).attn = s.attn := by
  refine (attn_endIfLowered ..).trans (foldl_view State.attn _ (fun u st => ?_) _ _)
  split
  · exact attn_orderLower ..
  · rfl

theorem attn_settlePeal (s : State) : (settlePeal s).attn = s.attn := by
  unfold settlePeal
  repeat' split
  · rfl
  · exact attn_beginLowering ..
  · rfl
  · rfl
  · rfl
  · exact attn_beginLowering ..
  · exact attn_endIfLowered ..

/-! ### The running peal -/

theorem bellWork_enterPosition (st : Station) (pos : Position) (s : State) : BellWork s (enterPosition st pos s) :=
  (bellWork_updBell _ _).trans ((bellWork_checkStrikable st).trans (bellWork_startPolling st))

theorem pealHolds_congr (h : t.peal = s.peal) (st : Station) : pealHolds t st = pealHolds s st := by
  rw [pealHolds, pealHolds, h]

theorem pealHolds_pealLeave (st : Station) (s : State) : pealHolds (pealLeave st s) st = false := by
  unfold pealHolds
  rw [peal_pealLeave]
  cases s.peal with
  | none => rfl
  | some p => simp [pealWithout]

/-- Going on, the peal holds no bell that it did not hold. -/
theorem pealHolds_settlePeal (h : pealHolds s st = false) : pealHolds (settlePeal s) st = false := by
  rcases settlePeal_cases s with heq | ⟨p, q, hp, hheld, -, heq⟩ | ⟨x, -, heq⟩
  · rwa [heq]
  · rw [pealHolds, hp] at h
    rw [heq, pealHolds]
    dsimp only at h ⊢
    rwa [hheld]
  · rw [heq, pealHolds, finishPeal_peal]

theorem side_settlePeal (s : State) (u : Station) : bellSide (settlePeal s) u = bellSide s u := by
  obtain ⟨hbells, hline, hlights, -⟩ := rest_settlePeal s
  exact side_of_parts hbells hline hlights u

theorem getBell_settlePeal (s : State) (u : Station) : getBell (settlePeal s) u = getBell s u := (side_parts (side_settlePeal s u)).1

theorem getBell_pealLeave (x : Station) (s : State) (u : Station) : getBell (pealLeave x s) u = getBell s u :=
  (side_parts (side_pealLeave x u s)).1

theorem only_settlePeal (h : OnlyBell st s t) : OnlyBell st s (settlePeal t) := by
  obtain ⟨hbells, hline, hlights, hover⟩ := rest_settlePeal t
  obtain ⟨-, -, -, -, hmains, helapsed⟩ := steady_settlePeal t
  exact h.trans ⟨fun u _ => getBell_settlePeal t u, fun u _ => outstanding_line hline u, hlights, by rw [hline], helapsed, hmains, hover⟩

theorem hasOrder_settlePeal {k : SwingOrder} (h : hasOrder s st k) : hasOrder (settlePeal s) st k := by
  obtain ⟨hbell, horder, -⟩ := side_parts (side_settlePeal s st)
  rwa [hasOrder, hbell, horder]

/-! ### A bell that enters a position state -/

/-- The fields of the bell of which the core tells. -/
theorem core_parts {b c : Bell} (h : bellCore b = bellCore c) :
    b.pos = c.pos ∧ b.moveStart = c.moveStart ∧ b.faults = c.faults ∧ b.noAnswer = c.noAnswer ∧ b.reserving = c.reserving ∧
      b.strokes = c.strokes ∧ b.nextFree = c.nextFree ∧ b.lastReply = c.lastReply ∧ b.ctrl = c.ctrl ∧ b.present = c.present ∧
      b.waitingRaise = c.waitingRaise := by
  simp only [bellCore, Bell.mk.injEq] at h
  simp [h]

/-- A bell that is no longer strikable takes no room in the queue. -/
theorem queue_checkStrikable (st : Station) (s : State) :
    (checkStrikable st s).line.queue.length ≤ s.line.queue.length := by
  unfold checkStrikable
  split
  · exact le_refl _
  · have hlost : (loseDeferred st s).line = s.line :=
      (work_parts (foldl_view workView _ (fun u (d : Deferred) => work_answerStroke d.requester false u) _ _)).2.1
    unfold withdrawStrikes
    dsimp only
    rw [(work_parts (work_strikesLost _ _)).2.1, ← hlost]
    exact List.length_filter_le _ _

theorem lineAccepts_iff :
    lineAccepts s = true ↔ s.mains = .present ∧ s.line.state ≠ .faulted ∧ s.line.queue.length < Config.queueCapacity := by
  simp [lineAccepts, and_assoc]

theorem lineAccepts_checkStrikable (h : lineAccepts s = true) : lineAccepts (checkStrikable st s) = true := by
  have honly := only_checkStrikable (OnlyBell.refl st s)
  obtain ⟨hmains, hline, hroom⟩ := lineAccepts_iff.1 h
  have hstate : (checkStrikable st s).line.state = s.line.state := by
    have h := congrArg Line.state honly.line
    exact h
  exact lineAccepts_iff.2
    ⟨honly.mains.trans hmains, by rwa [hstate], lt_of_le_of_lt (queue_checkStrikable st s) hroom⟩

/-- A QUERY that the line takes and nothing stands before is placed. -/
theorem query_placed (ha : lineAccepts s = true) (ho : outstanding s st = none) (hw : (getBell s st).owed = none) :
    outstanding (makeOrder st .query s) st = some .query := by
  unfold makeOrder
  rw [if_neg (by simp [ho]), if_pos ⟨ha, ho, hw⟩, outstanding_placeOrder, ho]
  simp [swingOrder, Order.swing?]

/-- A present AUTOMATIC bell that becomes UNSURE and has no order is queried at once, where the line takes the QUERY. -/
theorem query_placed_becomeUnsure (hp : (getBell s st).present = true) (hc : (getBell s st).ctrl = .automatic)
    (ha : lineAccepts s = true) (ho : outstanding s st = none) (hw : (getBell s st).owed = none) :
    outstanding (becomeUnsure st s) st = some .query := by
  let u := checkStrikable st (updBell st (positionFields .unsure s.elapsed) s)
  have hcore : bellCore (getBell u st) = bellCore (positionFields .unsure s.elapsed (getBell s st)) := by
    rw [bellCore_checkStrikable, getBell_updBell_self]
  obtain ⟨hpos, -, -, -, -, -, -, -, hctrl, hpresent, -⟩ := core_parts hcore
  have hunsure : (getBell u st).pos = .unsure := hpos
  have hpoll : pollInterval (getBell u st) = some 10000 := by
    have h1 := hctrl.trans hc
    have h2 := hpresent.trans hp
    simp [pollInterval, hunsure, h1, h2]
  have haccepts : lineAccepts u = true := lineAccepts_checkStrikable (s := updBell st (positionFields .unsure s.elapsed) s) ha
  have hnone : outstanding u st = none := (outstanding_checkStrikable st).trans ho
  have howed : (getBell u st).owed = none := by
    rw [owed_checkStrikable, getBell_updBell_self]
    exact hw
  change outstanding (startPolling st u) st = _
  unfold startPolling
  rw [hpoll]
  dsimp only
  rw [if_pos (lineAccepts_iff.1 haccepts).1, firstQuery, getBell_updBell_self, if_pos hunsure]
  exact query_placed haccepts hnone (by rw [getBell_updBell_self]; exact howed)

/-! ### FREE BELL (R125) -/

/-- The state in which a FAULT bell has been freed. -/
def freed (st : Station) (s : State) : State := settlePeal (becomeUnsure st (updBell st (fun b => { b with noAnswer := 0 }) s))

theorem only_freed (st : Station) (s : State) : OnlyBell st s (freed st s) :=
  only_settlePeal (only_becomeUnsure (only_updBell (OnlyBell.refl st s) _))

theorem tower_freed (st : Station) (s : State) : towerView (freed st s) = towerView s := by
  rw [freed, tower_settlePeal, tower_becomeUnsure]
  exact tower_updBell _ _ _ (fun _ => rfl) fun _ => rfl

theorem core_freed (st : Station) (s : State) :
    bellCore (getBell (freed st s) st) = bellCore (positionFields .unsure s.elapsed { getBell s st with noAnswer := 0 }) := by
  rw [freed, getBell_settlePeal, becomeUnsure, bellCore_enterPosition, getBell_updBell_self]
  rfl

theorem query_freed (hp : (getBell s st).present = true) (hc : (getBell s st).ctrl = .automatic) :
    (outstanding (freed st s) st = some .query ∨ (getBell (freed st s) st).owed.isSome = true) ∧
      (lineAccepts s = true → outstanding s st = none → (getBell s st).owed = none →
        outstanding (freed st s) st = some .query) := by
  have hbell := getBell_updBell_self (s := s) (st := st) fun b => { b with noAnswer := 0 }
  have hp' : (getBell (updBell st (fun b => { b with noAnswer := 0 }) s) st).present = true := by rw [hbell]; exact hp
  have hc' : (getBell (updBell st (fun b => { b with noAnswer := 0 }) s) st).ctrl = .automatic := by rw [hbell]; exact hc
  obtain ⟨hside, horder, -⟩ := side_parts (side_settlePeal (becomeUnsure st (updBell st (fun b => { b with noAnswer := 0 }) s)) st)
  rw [freed, hside, horder]
  exact ⟨query_becomeUnsure hp' hc', fun ha ho hw => query_placed_becomeUnsure hp' hc' ha ho (by rw [hbell]; exact hw)⟩

theorem exec_freeBell (s : State) (n : Byte) : exec (.freeBell [n]) s = change (freeBell [n] s) s := rfl

/-- Settles O40, by what FREE BELL answers for the station and its bell. -/
theorem freeBellQueries : Obligations.FreeBellQueries := by
  refine fun s n hserved => ⟨fun hn => ?_, fun st hst hpos => ?_, fun st hst hpos => ?_⟩
  · rw [exec_freeBell, freeBell, hn]
    exact change_error hserved
  · rw [exec_freeBell, freeBell, hst]
    dsimp only
    rw [if_neg hpos]
    exact change_error hserved
  · have hexec : exec (.freeBell [n]) s = .next { freed st s with port := ⟨.none, []⟩ } := by
      rw [exec_freeBell, freeBell, hst]
      dsimp only
      rw [if_pos hpos]
      exact change_ok hserved
    obtain ⟨hposition, -, hfaults, hanswer, hres, -⟩ := core_parts (core_freed st s)
    have honly := only_freed st s
    have htower := tower_freed st s
    have hsettings : settingsView (freed st s) = settingsView s := settings_of_tower htower
    have hquery := fun hp hc => query_freed (s := s) (st := st) hp hc
    generalize freed st s = t at *
    obtain ⟨htime, hover, -, hdials, -⟩ := steady_of_tower htower
    exact ⟨_, hexec, hposition, hanswer, hquery, hres, honly.lights, hfaults, honly.others, hsettings, htime, hover,
      hdials, rfl⟩

end Sys2Proof.BellTable
end

section
/-! PROOFS. The ends of a raise, a lowering, a ringing limit and of a peal's two timers (R120, R121, R126, R128, R129). -/

namespace Sys2Proof.BellTable

open Sys2Proof Sys2Proof.Machine Sys2Proof.Time Sys2Proof.Performance Sys2Proof.Mains Sys2Proof.Stack

variable {s t : State} {st : Station}

/-! ### One bell's timers (R120, R121, R126) -/

/-- A moving bell that is past its time is AUTOMATIC. -/
theorem movedTooLong_automatic {b : Bell} {pos : Position} {n : Nat} (h : movedTooLong s b pos n = true) : b.ctrl = .automatic := by
  unfold movedTooLong at h
  split at h
  · simp only [Bool.and_eq_true, beq_iff_eq] at h
    exact h.1.1.2
  · cases h

/-- A fault event raises the bell's fault count and no more of it. -/
theorem getBell_faultEvent (st : Station) (s : State) :
    getBell (faultEvent st s) st = { getBell s st with faults := satAdd 255 (getBell s st).faults 1 } := getBell_updBell_self _

theorem hasOrder_pealLeave {k : SwingOrder} (x : Station) (h : hasOrder s st k) : hasOrder (pealLeave x s) st k := by
  obtain ⟨hbell, horder, -⟩ := side_parts (side_pealLeave x st s)
  rwa [hasOrder, hbell, horder]

theorem hasOrder_faultEvent {k : SwingOrder} (h : hasOrder s st k) : hasOrder (faultEvent st s) st k := by
  rw [hasOrder, getBell_faultEvent]
  exact h

theorem flag_faultEvent (st : Station) (s : State) : flagSet (faultEvent st s).attn .bellFault = true := flagSet_setFlag_self _

theorem flag_pealLeave {f : AttnFlag} (x : Station) (h : flagSet s.attn f = true) : flagSet (pealLeave x s).attn f = true := by
  rwa [attn_pealLeave]

theorem flag_enterPosition {f : AttnFlag} (pos : Position) (h : flagSet s.attn f = true) :
    flagSet (enterPosition st pos s).attn f = true := by
  rwa [attn_enterPosition]

theorem flag_settlePeal {f : AttnFlag} (h : flagSet s.attn f = true) : flagSet (settlePeal s).attn f = true := by
  rwa [attn_settlePeal]

/-- What every timer of a bell leaves: the bell has left the peal, the others and the account stand. -/
structure TimerRan (st : Station) (k : SwingOrder) (s t : State) : Prop where
  order : hasOrder t st k
  holds : pealHolds t st = false
  only : OnlyBell st s t
  tower : towerView t = towerView s

theorem timerRan_raiseFailed (st : Station) (s : State) : TimerRan st .lower s (settlePeal (raiseFailed st s)) where
  order := hasOrder_settlePeal hasOrder_orderLower
  holds := pealHolds_settlePeal ((pealHolds_congr (bellWork_orderLower st).peal st).trans (pealHolds_pealLeave _ _))
  only := only_settlePeal (only_raiseFailed (OnlyBell.refl st s))
  tower := by simp

theorem timerRan_lowerFailed (st : Station) (s : State) : TimerRan st .halt s (settlePeal (lowerFailed st s)) where
  order := hasOrder_settlePeal (hasOrder_enterPosition _ (by simp) _
    (hasOrder_pealLeave st (hasOrder_faultEvent (hasOrder_makeOrder .halt (by simp)))))
  holds := pealHolds_settlePeal ((pealHolds_congr (bellWork_enterPosition st _ _).peal st).trans (pealHolds_pealLeave _ _))
  only := only_settlePeal (only_becomeFault (only_makeOrder (OnlyBell.refl st s) _))
  tower := by simp [lowerFailed]

theorem timerRan_ringingLimit (st : Station) (s : State) : TimerRan st .lower s (settlePeal (orderLower st (pealLeave st s))) where
  order := hasOrder_settlePeal hasOrder_orderLower
  holds := pealHolds_settlePeal ((pealHolds_congr (bellWork_orderLower st).peal st).trans (pealHolds_pealLeave _ _))
  only := only_settlePeal (only_orderLower (only_pealLeave (OnlyBell.refl st s) _))
  tower := by simp

theorem core_raiseFailed (st : Station) (s : State) :
    bellCore (getBell (settlePeal (raiseFailed st s)) st)
      = bellCore (positionFields .lowering s.elapsed { getBell s st with faults := satAdd 255 (getBell s st).faults 1 }) := by
  rw [getBell_settlePeal, raiseFailed, bellCore_orderLower, getBell_pealLeave, getBell_faultEvent,
    (only_pealLeave (only_faultEvent (OnlyBell.refl st s)) st).elapsed]

theorem core_lowerFailed (st : Station) (s : State) :
    bellCore (getBell (settlePeal (lowerFailed st s)) st)
      = bellCore (positionFields .fault s.elapsed { getBell s st with faults := satAdd 255 (getBell s st).faults 1 }) := by
  have honly := only_makeOrder (OnlyBell.refl st s) .halt
  have hcore := bellCore_makeOrder (st := st) (s := s) .halt
  rw [getBell_settlePeal, lowerFailed, becomeFault, bellCore_enterPosition, getBell_pealLeave, getBell_faultEvent,
    (only_pealLeave (only_faultEvent honly) st).elapsed]
  simp only [bellCore, Bell.mk.injEq] at hcore
  simp [bellCore, positionFields, hcore]

theorem core_ringingLimit (st : Station) (s : State) :
    bellCore (getBell (settlePeal (orderLower st (pealLeave st s))) st)
      = bellCore (positionFields .lowering s.elapsed (getBell s st)) := by
  rw [getBell_settlePeal, bellCore_orderLower, getBell_pealLeave, (only_pealLeave (OnlyBell.refl st s) st).elapsed]

theorem attn_ringingLimit (st : Station) (s : State) : (settlePeal (orderLower st (pealLeave st s))).attn = s.attn := by
  rw [attn_settlePeal, attn_orderLower, attn_pealLeave]

theorem exec_raiseTimeout (hr : running s = true) (h : raiseOver s st = true) :
    exec (.raiseTimeout st) s = .next (settlePeal (raiseFailed st s)) := by
  change execRaiseTimeout st s = _
  rw [execRaiseTimeout, event_running hr, if_pos h]

theorem exec_lowerTimeout (hr : running s = true) (h : lowerOver s st = true) :
    exec (.lowerTimeout st) s = .next (settlePeal (lowerFailed st s)) := by
  change execLowerTimeout st s = _
  rw [execLowerTimeout, event_running hr, if_pos h]

theorem exec_ringingLimit (hr : running s = true) (h : limitReached s st = true) :
    exec (.ringingLimit st) s = .next (settlePeal (orderLower st (pealLeave st s))) := by
  change execRingingLimit st s = _
  rw [execRingingLimit, event_running hr, if_pos h]

theorem movement_started {pos : Position} (hpos : pos = .raising ∨ pos = .lowering) {b : Bell} (hc : b.ctrl = .automatic) (now : Nat) :
    (positionFields pos now b).moveStart = some now := if_pos ⟨hpos, hc⟩

theorem limitReached_automatic (h : limitReached s st = true) : (getBell s st).ctrl = .automatic := by
  simp only [limitReached, Bool.and_eq_true, beq_iff_eq] at h
  exact h.1.1.2

/-- Settles O42, one timer after another. -/
theorem bellTimersRunOut : Obligations.BellTimersRunOut := by
  refine fun s st hr => ⟨fun hover => ?_, fun hover => ?_, fun hover => ?_⟩
  · obtain ⟨hpos, hmove, hfaults, -, hres, -⟩ := core_parts (core_raiseFailed st s)
    obtain ⟨horder, hholds, honly, htower⟩ := timerRan_raiseFailed st s
    exact ⟨_, exec_raiseTimeout hr hover, hpos,
      hmove.trans (movement_started (.inr rfl) (b := { getBell s st with faults := _ }) (movedTooLong_automatic hover) _), hfaults,
      horder, flag_settlePeal (flag_enterPosition _ (by rw [attn_makeOrder]; exact flag_pealLeave st (flag_faultEvent st s))), hres,
      honly.lights, hholds, honly.others, htower⟩
  · obtain ⟨hpos, -, hfaults, -, hres, -⟩ := core_parts (core_lowerFailed st s)
    obtain ⟨horder, hholds, honly, htower⟩ := timerRan_lowerFailed st s
    exact ⟨_, exec_lowerTimeout hr hover, hpos, hfaults, horder,
      flag_settlePeal (flag_enterPosition _ (flag_pealLeave st (flag_faultEvent st _))), hres, honly.lights, hholds, honly.others, htower⟩
  · obtain ⟨hpos, hmove, hfaults, -, hres, -⟩ := core_parts (core_ringingLimit st s)
    obtain ⟨horder, hholds, honly, htower⟩ := timerRan_ringingLimit st s
    exact ⟨_, exec_ringingLimit hr hover, hpos, hmove.trans (movement_started (.inr rfl) (limitReached_automatic hover) _), hfaults,
      horder, attn_ringingLimit st s, hres, honly.lights, hholds, honly.others, htower⟩

/-! ### The peal's raising timer (R128) -/

/-- A bell excluded from the peal as its raise waits. -/
def excludeOne (st : Station) (s : State) : State := pealLeave st (withdrawRequest st s)

theorem getBell_excludeOne_self (st : Station) (s : State) :
    getBell (excludeOne st s) st = { getBell s st with waitingRaise := false } := by
  rw [excludeOne, getBell_pealLeave, getBell_withdrawRequest]

theorem getBell_excludeOne_other {u : Station} (h : u ≠ st) (s : State) : getBell (excludeOne st s) u = getBell s u := by
  rw [excludeOne, getBell_pealLeave, withdrawRequest, getBell_updBell_other h]
  rfl

theorem isWaiting_excludeOne (u st : Station) (s : State) : isWaiting (excludeOne st s) u = (isWaiting s u && u != st) := by
  rw [excludeOne, (side_parts (side_pealLeave st u _)).2.2, isWaiting_withdrawRequest]

theorem line_excludeOne (st : Station) (s : State) : (excludeOne st s).line = s.line := by
  unfold excludeOne pealLeave
  repeat' split
  all_goals rfl

/-- A bell that is excluded, or that was before: it waits no more and the peal does not hold it. -/
def Excluded (st : Station) (s : State) : Prop :=
  (getBell s st).waitingRaise = false ∧ isWaiting s st = false ∧ pealHolds s st = false

theorem excluded_excludeOne (st : Station) (s : State) : Excluded st (excludeOne st s) :=
  ⟨by rw [getBell_excludeOne_self], by rw [isWaiting_excludeOne]; simp, pealHolds_pealLeave st _⟩

/-- The peal that a bell leaves holds no bell that it did not hold. -/
theorem pealHolds_pealLeave_other {x : Station} (h : pealHolds s st = false) : pealHolds (pealLeave x s) st = false := by
  unfold pealHolds at h ⊢
  rw [peal_pealLeave]
  cases hp : s.peal with
  | none => rfl
  | some p =>
    rw [hp] at h
    simp only [Option.map_some, pealWithout]
    rw [← Bool.not_eq_true, List.contains_iff_mem] at h ⊢
    exact fun hmem => h (List.mem_filter.1 hmem).1

theorem Excluded.excludeOne {x : Station} (h : Excluded st s) : Excluded st (excludeOne x s) := by
  obtain ⟨hraise, hwait, hhold⟩ := h
  refine ⟨?_, by rw [isWaiting_excludeOne, hwait]; rfl, pealHolds_pealLeave_other hhold⟩
  by_cases hx : st = x
  · subst hx
    rw [getBell_excludeOne_self]
  · rwa [getBell_excludeOne_other hx]

/-- Each bell of the list is excluded in turn. -/
theorem excluded_foldl {sts : List Station} (h : st ∈ sts ∨ Excluded st s) :
    Excluded st (sts.foldl (fun acc x => excludeOne x acc) s) := by
  induction sts generalizing s with
  | nil => exact h.resolve_left List.not_mem_nil
  | cons x xs ih =>
    refine ih ?_
    rcases h with h | h
    · rcases List.mem_cons.1 h with rfl | h
      · exact .inr (excluded_excludeOne st s)
      · exact .inl h
    · exact .inr h.excludeOne

/-- Exclusions move no bell, and leave its reservation. -/
theorem still_excludeOne (x : Station) (s : State) :
    ((getBell (excludeOne x s) st).pos, (getBell (excludeOne x s) st).reserving) = ((getBell s st).pos, (getBell s st).reserving) := by
  by_cases hx : st = x
  · subst hx
    rw [getBell_excludeOne_self]
  · rw [getBell_excludeOne_other hx]

/-- The peal with its raising timer stopped, as the exclusions begin. -/
def timerStopped (p : PealRun) (s : State) : State := { s with peal := some { p with raiseBy := none } }

/-- The state in which the held bells that wait are excluded. -/
def waitersExcluded (p : PealRun) (s : State) : State :=
  (p.held.filter fun st => (getBell s st).waitingRaise).foldl (fun acc st => excludeOne st acc) (timerStopped p s)

theorem exec_pealRaisingTimeout {p : PealRun} (hr : running s = true) (hp : s.peal = some p) (hphase : p.phase = .raising)
    (hover : ∃ m, p.raiseBy = some m ∧ m ≤ s.elapsed) :
    exec .pealRaisingTimeout s = .next (settlePeal (waitersExcluded p s)) := by
  obtain ⟨m, hm, hle⟩ := hover
  have hdue : raisingOver s = true := by simp [raisingOver, hp, hm, hle, hphase]
  change execPealRaisingTimeout s = _
  rw [execPealRaisingTimeout, event_running hr, if_pos hdue, excludeWaiting, hp]
  rfl

/-- The peal's raising timer runs out: the waiting bells are excluded, and no bell moves (R128). -/
theorem raisingTimer_runs_out {p : PealRun} (s : State) (t : State) (ht : t = settlePeal (waitersExcluded p s)) :
    (∀ st ∈ p.held, (getBell s st).waitingRaise = true → Excluded st t) ∧
      (∀ st, (getBell t st).pos = (getBell s st).pos ∧ (getBell t st).reserving = (getBell s st).reserving) ∧
      (∀ st, st ∉ p.held → getBell t st = getBell s st) ∧ t.line = s.line ∧ towerView t = towerView s := by
  subst ht
  obtain ⟨-, hline, -⟩ := rest_settlePeal (waitersExcluded p s)
  refine ⟨fun st hst hw => ?_, fun st => ?_, fun st hst => ?_, hline.trans ?_, (tower_settlePeal _).trans ?_⟩
  · obtain ⟨hraise, hwait, hhold⟩ : Excluded st (waitersExcluded p s) := excluded_foldl (.inl (List.mem_filter.2 ⟨hst, hw⟩))
    obtain ⟨hbell, -, hwaits⟩ := side_parts (side_settlePeal (waitersExcluded p s) st)
    exact ⟨by rwa [hbell], by rwa [hwaits], pealHolds_settlePeal hhold⟩
  · rw [getBell_settlePeal]
    have h := foldl_view (fun u => ((getBell u st).pos, (getBell u st).reserving)) (fun acc x => excludeOne x acc)
      (fun u x => still_excludeOne x u) (p.held.filter fun st => (getBell s st).waitingRaise) (timerStopped p s)
    exact Prod.mk.inj h
  · rw [getBell_settlePeal]
    refine List.foldlRecOn (motive := fun u => getBell u st = getBell s st) _ _ rfl fun u hu x hx => ?_
    have hne : st ≠ x := fun heq => hst (heq ▸ (List.mem_filter.1 hx).1)
    exact (getBell_excludeOne_other hne u).trans hu
  · exact foldl_view State.line _ (fun u x => line_excludeOne x u) _ _
  · exact foldl_view towerView _ (fun u x => (tower_pealLeave _ x).trans (tower_withdrawRequest u x)) _ _

/-! ### The peal's ringing timer (R129) -/

/-- Every bell of a list that is UP is lowered, one after another. -/
def lowerUps (sts : List Station) (s : State) : State :=
  sts.foldl (fun acc st => if (getBell acc st).pos = .up then orderLower st acc else acc) s

theorem lowerUps_cons (x : Station) (xs : List Station) (s : State) :
    lowerUps (x :: xs) s = lowerUps xs (if (getBell s x).pos = .up then orderLower x s else s) := rfl

/-- A bell that is not in the list, or not UP, stays as it is, with its orders. -/
theorem side_lowerUps {sts : List Station} (h : st ∉ sts ∨ (getBell s st).pos ≠ .up) :
    bellSide (lowerUps sts s) st = bellSide s st := by
  induction sts generalizing s with
  | nil => rfl
  | cons x xs ih =>
    have hstep : bellSide (if (getBell s x).pos = .up then orderLower x s else s) st = bellSide s st := by
      split
      · next hup =>
        have hne : st ≠ x := by
          rintro rfl
          exact h.elim (fun hx => hx (List.mem_cons_self ..)) fun hpos => hpos hup
        have honly := only_orderLower (OnlyBell.refl x s)
        rw [bellSide, honly.others st hne, honly.orders st hne, isWaiting, honly.lights]
        rfl
      · rfl
    rw [lowerUps_cons]
    refine (ih ?_).trans hstep
    rcases h with h | h
    · exact .inl fun hmem => h (List.mem_cons_of_mem _ hmem)
    · exact .inr (by rw [(side_parts hstep).1]; exact h)

/-- Each bell of the list that is UP is LOWERING afterwards, with its order. -/
theorem lowered_lowerUps {sts : List Station} (hst : st ∈ sts) (hup : (getBell s st).pos = .up) :
    (getBell (lowerUps sts s) st).pos = .lowering ∧ hasOrder (lowerUps sts s) st .lower := by
  induction sts generalizing s with
  | nil => exact absurd hst List.not_mem_nil
  | cons x xs ih =>
    rw [lowerUps_cons]
    by_cases hx : st = x
    · subst hx
      rw [if_pos hup]
      have hpos := pos_orderLower st s
      obtain ⟨hbell, horder, -⟩ := side_parts (side_lowerUps (sts := xs) (s := orderLower st s) (st := st)
        (.inr (by rw [hpos]; exact Position.noConfusion)))
      rw [hasOrder, hbell, horder]
      exact ⟨hpos, hasOrder_orderLower⟩
    · refine ih ((List.mem_cons.1 hst).resolve_left hx) ?_
      split
      · rw [(only_orderLower (OnlyBell.refl x s)).others st hx, hup]
      · exact hup

theorem lights_lowerUps (sts : List Station) (s : State) : (lowerUps sts s).lights = s.lights := by
  refine foldl_view State.lights _ (fun u x => ?_) _ _
  split
  · exact (only_orderLower (OnlyBell.refl x u)).lights
  · rfl

theorem peal_lowerUps (sts : List Station) (s : State) : (lowerUps sts s).peal = s.peal := by
  refine foldl_view State.peal _ (fun u x => ?_) _ _
  split
  · exact (bellWork_orderLower x).peal
  · rfl

/-- The peal in its lowering phase. -/
def loweringRun (p : PealRun) : PealRun := { p with phase := .lowering, raiseBy := none, ringEnd := none }

theorem beginLowering_eq (p : PealRun) (s : State) :
    beginLowering p s = endIfLowered (loweringRun p) (lowerUps p.held { s with peal := some (loweringRun p) }) := rfl

/-- The end of the peal, where it comes, leaves the bells, the orders and the account. -/
theorem rest_endIfLowered (p : PealRun) (s : State) :
    (∀ u, bellSide (endIfLowered p s) u = bellSide s u) ∧ (endIfLowered p s).lights = s.lights := by
  rcases endIfLowered_cases p s with heq | ⟨x, -, heq⟩
  · rw [heq]
    exact ⟨fun _ => rfl, rfl⟩
  · obtain ⟨hbells, hline, hlights⟩ := finishPeal_rest x s
    rw [heq]
    exact ⟨fun u => side_of_parts hbells hline hlights u, hlights⟩

theorem exec_pealRingingEnd {p : PealRun} (hr : running s = true) (hp : s.peal = some p) (hphase : p.phase = .ringing)
    (hover : ∃ m, p.ringEnd = some m ∧ m ≤ s.elapsed) : exec .pealRingingEnd s = .next (beginLowering p s) := by
  obtain ⟨m, hm, hle⟩ := hover
  have hdue : ringingOver s = true := by simp [ringingOver, hp, hm, hle, hphase]
  change execPealRingingEnd s = _
  rw [execPealRingingEnd, event_running hr, if_pos hdue, endRinging, hp]

/-- Settles O44: the raising timer, and the ringing timer. -/
theorem pealTimersRunOut : Obligations.PealTimersRunOut := by
  refine fun s p hr hp => ⟨fun hphase hover => ?_, fun hphase hover => ?_⟩
  · exact ⟨_, exec_pealRaisingTimeout hr hp hphase hover, raisingTimer_runs_out s _ rfl⟩
  · refine ⟨_, exec_pealRingingEnd hr hp hphase hover, ?_⟩
    let u := lowerUps p.held { s with peal := some (loweringRun p) }
    obtain ⟨hside, hlights⟩ := rest_endIfLowered (loweringRun p) u
    have hlowered (st : Station) (hst : st ∈ p.held) (hup : (getBell s st).pos = .up) :
        (getBell u st).pos = .lowering ∧ hasOrder u st .lower :=
      lowered_lowerUps (s := { s with peal := some (loweringRun p) }) hst hup
    refine ⟨fun st hst hup => ?_, fun st hst => ?_, fun hup => ?_, hlights.trans (lights_lowerUps _ _), tower_beginLowering s p⟩
    · obtain ⟨hbell, horder, -⟩ := side_parts (hside st)
      rw [beginLowering_eq, hbell, horder]
      exact hlowered st hst hup
    · rw [beginLowering_eq, (side_parts (hside st)).1]
      exact (side_parts (side_lowerUps (s := { s with peal := some (loweringRun p) }) hst)).1
    · obtain ⟨st, hst, hup⟩ := hup
      have hmoves : ¬ (loweringRun p).held.all (fun x => atRest (getBell u x)) = true := fun hall => by
        have hrest := List.all_eq_true.1 hall st hst
        simp [atRest, (hlowered st hst hup).1] at hrest
      rw [beginLowering_eq, endIfLowered, if_neg hmoves]
      exact peal_lowerUps _ _

end Sys2Proof.BellTable
end

section
/-! PROOFS. Polls, owed orders that are offered, and waiting requests that are admitted (R118, R122, R188). -/

namespace Sys2Proof.BellTable

open Sys2Proof Sys2Proof.Machine Sys2Proof.Time Sys2Proof.Performance Sys2Proof.Mains Sys2Proof.Stack

variable {s t : State} {st : Station}

/-! ### Polls (R122) -/

/-- The state in which a bell's next poll is an interval later. -/
def polled (st : Station) (m i : Nat) (s : State) : State :=
  { s with bells := put s.bells st { getBell s st with nextPoll := some (m + i) } }

theorem updBell_congr {f g : Bell → Bell} (h : f (getBell s st) = g (getBell s st)) : updBell st f s = updBell st g s := by
  have hsame : Machine.modify s.bells st f = Machine.modify s.bells st g := congrArg (put s.bells st) h
  rw [updBell, hsame]
  rfl

theorem takePoll_eq {m i : Nat} (hm : (getBell s st).nextPoll = some m) (hi : pollInterval (getBell s st) = some i) :
    takePoll st s = pollNow st (polled st m i s) := by
  refine congrArg (pollNow st) (updBell_congr (g := fun b => { b with nextPoll := some (m + i) }) ?_)
  simp only [hi, hm]

theorem exec_bellPoll {m i : Nat} (hr : running s = true) (hdue : pollDue s st = true) (hm : (getBell s st).nextPoll = some m)
    (hi : pollInterval (getBell s st) = some i) : exec (.bellPoll st) s = .next (pollNow st (polled st m i s)) := by
  change execBellPoll st s = _
  rw [execBellPoll, event_running hr, if_pos hdue, takePoll_eq hm hi]

theorem owed_polled (st : Station) (m i : Nat) (s : State) : (getBell (polled st m i s) st).owed = (getBell s st).owed := by
  rw [getBell, polled, get_put, if_pos rfl]

theorem pollNow_placed {m i : Nat} (ho : outstanding s st = none) (hw : (getBell s st).owed = none) (ha : lineAccepts s = true) :
    pollNow st (polled st m i s) = placeOrder (swingOrder st .query) (polled st m i s) := by
  have ho' : outstanding (polled st m i s) st = none := ho
  have hw' : (getBell (polled st m i s) st).owed = none := (owed_polled st m i s).trans hw
  have ha' : lineAccepts (polled st m i s) = true := ha
  rw [pollNow, if_pos ⟨ho', hw'⟩, makeOrder, if_neg (by simp [ho']), if_pos ⟨ha', ho', hw'⟩]

theorem pollNow_waits {m i : Nat} (h : (outstanding s st).isSome = true ∨ (getBell s st).owed.isSome = true) :
    pollNow st (polled st m i s) = polled st m i s := by
  refine if_neg fun hnone => ?_
  rw [owed_polled] at hnone
  obtain ⟨ho, hw⟩ := hnone
  have ho' : outstanding s st = none := ho
  rw [ho', hw] at h
  simp at h

/-! ### Owed orders (R118) -/

/-- The first of a rising list that passes a test is the one before which none does. -/
theorem find_first {α : Type} [LinearOrder α] {p : α → Bool} {x : α} {xs : List α} (hsorted : xs.Pairwise (· < ·)) (hmem : x ∈ xs)
    (hx : p x = true) (hbefore : ∀ y, y < x → p y = false) : xs.find? p = some x := by
  induction xs with
  | nil => exact absurd hmem List.not_mem_nil
  | cons y ys ih =>
    obtain ⟨hy, hys⟩ := List.pairwise_cons.1 hsorted
    rcases List.mem_cons.1 hmem with rfl | hmem
    · exact List.find?_cons_of_pos hx
    · rw [List.find?_cons_of_neg (by simp [hbefore y (hy x hmem)])]
      exact ih hys hmem

theorem firstOwing_eq (hw : (getBell s st).owed.isSome = true) (ho : outstanding s st = none)
    (hfirst : ∀ u, u < st → (getBell s u).owed = none ∨ (outstanding s u).isSome = true) : firstOwing s = some st := by
  refine find_first (List.pairwise_lt_finRange 31) (List.mem_finRange st) (by simp [hw, ho]) fun u hu => ?_
  rcases hfirst u hu with h | h <;> simp [h]

theorem offerFirst_eq {k : SwingOrder} (ha : lineAccepts s = true) (hw : (getBell s st).owed = some k) (ho : outstanding s st = none)
    (hfirst : ∀ u, u < st → (getBell s u).owed = none ∨ (outstanding s u).isSome = true) :
    offerFirst s = placeOrder (swingOrder st k) (updBell st (fun b => { b with owed := none }) s) := by
  rw [offerFirst, firstOwing_eq (by rw [hw]; rfl) ho hfirst]
  dsimp only
  rw [offerOwed, hw]
  exact if_pos ⟨ha, ho⟩

/-! ### Waiting requests (R188) -/

/-- The account with a request admitted out of the waiting list. -/
def admittedLights (st : Station) (m : Nat) (l : Lights) : Lights :=
  { l with reserv := put l.reserv st (some m), waiting := l.waiting.filter fun p => p.1 != st }

theorem admitWaiting_eq {m : Nat} (hm : s.mains = .present) (hfind : s.lights.waiting.find? (fun p => p.1 == st) = some (st, m))
    (hroom : m ≤ freeLoad s.lights) :
    admitWaiting st s = settlePeal (tellAdmitted st (setLights (admittedLights st m s.lights) s)) := by
  have hadmit : admitLoad s.mains st m s.lights = some (reserve st m s.lights, false) := if_pos hroom
  rw [admitWaiting, if_neg (by simp [hm]), hfind]
  dsimp only
  rw [retryOne, hadmit]
  rfl

theorem only_setReserving (st : Station) (s : State) : OnlyBell st s (setReserving st s) := by
  have hset := only_updBell (OnlyBell.refl st s) fun b => { b with reserving := true }
  unfold setReserving
  dsimp only
  split
  · exact only_startPolling hset
  · exact hset

theorem core_setReserving (st : Station) (s : State) :
    bellCore (getBell (setReserving st s) st) = bellCore { getBell s st with reserving := true } := by
  unfold setReserving
  dsimp only
  split
  · rw [bellCore_startPolling, getBell_updBell_self]
  · rw [getBell_updBell_self]

theorem nextPoll_makeOrder (k : SwingOrder) : (getBell (makeOrder st k s) st).nextPoll = (getBell s st).nextPoll := by
  unfold makeOrder
  repeat' split
  · rfl
  · rfl
  · rw [owe, getBell_updBell_self]

theorem nextPoll_firstQuery : (getBell (firstQuery st s) st).nextPoll = (getBell s st).nextPoll := by
  unfold firstQuery pollNow
  repeat' split
  · exact nextPoll_makeOrder _
  · exact nextPoll_makeOrder _
  · rfl

/-- A bell that begins to be polled with mains present is polled again an interval from now (R122). -/
theorem nextPoll_startPolling {i : Nat} (hm : s.mains = .present) (hi : pollInterval (getBell s st) = some i) :
    (getBell (startPolling st s) st).nextPoll = some (s.elapsed + i) := by
  unfold startPolling
  rw [hi]
  dsimp only
  rw [if_pos hm, nextPoll_firstQuery, getBell_updBell_self]

/-- A FAULT bell whose reservation is set is polled from then on (R122). -/
theorem nextPoll_setReserving (hm : s.mains = .present) (hpos : (getBell s st).pos = .fault) (hp : (getBell s st).present = true)
    (hc : (getBell s st).ctrl = .automatic) : (getBell (setReserving st s) st).nextPoll = some (s.elapsed + 10000) := by
  unfold setReserving
  dsimp only
  rw [if_pos hpos]
  refine nextPoll_startPolling (s := updBell st (fun b => { b with reserving := true }) s) hm ?_
  rw [getBell_updBell_self]
  simp [pollInterval, hpos, hp, hc]

theorem only_tellAdmitted (st : Station) (s : State) : OnlyBell st s (tellAdmitted st s) := by
  unfold tellAdmitted
  split
  · exact (only_updBell (OnlyBell.refl st s) _).trans (only_raiseNow st _)
  · exact only_setReserving st s

/-- A bell that is told of its admission has its reservation; a waiting raise goes on (R188). -/
theorem bell_tellAdmitted (st : Station) (s : State) :
    (getBell (tellAdmitted st s) st).reserving = true ∧ (getBell (tellAdmitted st s) st).waitingRaise = false ∧
      (getBell (tellAdmitted st s) st).pos = if (getBell s st).waitingRaise then .raising else (getBell s st).pos := by
  unfold tellAdmitted
  split
  · have hmade := bellCore_makeOrder (st := st)
      (s := updBell st (fun b => { b with reserving := true, waitingRaise := false }) s) .raise
    obtain ⟨-, -, -, -, hres', -, -, -, -, -, hraise'⟩ := core_parts hmade
    obtain ⟨hpos, -, -, -, hres, -, -, -, -, -, hraise⟩ := core_parts (bellCore_enterPosition (st := st)
      (s := makeOrder st .raise (updBell st (fun b => { b with reserving := true, waitingRaise := false }) s)) .raising)
    rw [getBell_updBell_self] at hres' hraise'
    exact ⟨hres.trans hres', hraise.trans hraise', hpos⟩
  · next hraise =>
    obtain ⟨hpos, -, -, -, hres, -, -, -, -, -, hraise'⟩ := core_parts (core_setReserving st s)
    exact ⟨hres, hraise'.trans (by simpa using hraise), hpos⟩

theorem exec_waitingRequestAdmitted (hr : running s = true) (st : Station) :
    exec (.waitingRequestAdmitted st) s = .next (admitWaiting st s) := event_running hr

/-- Settles O43: a poll that is placed or not, the first owed order, and a waiting request that fits. -/
theorem pollsAndOffers : Obligations.PollsAndOffers := by
  refine fun s hr => ⟨fun st m i hdue hm hi => ⟨fun ho hw ha => ?_, fun h => ?_⟩, fun st k ha hw ho hfirst => ?_,
    fun st m hm hfind hroom => ?_⟩
  · rw [exec_bellPoll hr hdue hm hi, pollNow_placed ho hw ha]
    rfl
  · rw [exec_bellPoll hr hdue hm hi, pollNow_waits h]
    rfl
  · have hexec : exec .owedOrderOffered s = .next (offerFirst s) := event_running hr
    rw [hexec, offerFirst_eq ha hw ho hfirst]
    rfl
  · have htower := tower_admitWaiting s st
    have hexec := exec_waitingRequestAdmitted hr st
    let u := setLights (admittedLights st m s.lights) s
    obtain ⟨hres, hraise, hpos⟩ := bell_tellAdmitted st u
    have honly := only_settlePeal (only_tellAdmitted st u)
    rw [admitWaiting_eq hm hfind hroom] at htower hexec
    refine ⟨_, hexec, ?_, ?_, ?_, fun hfault hw hp hc => ?_, honly.lights, honly.others, htower⟩
    · rwa [getBell_settlePeal]
    · rwa [getBell_settlePeal]
    · rwa [getBell_settlePeal]
    · rw [getBell_settlePeal, tellAdmitted, if_neg (by simpa [getBell] using hw)]
      exact nextPoll_setReserving (s := u) hm hfault hp hc

end Sys2Proof.BellTable
end

section
/-! PROOFS. The notes of a tune are played, skipped, lost or rested, and a play's end goes on to what follows (R117, R146 to R150). -/

namespace Sys2Proof.Tunes

open Sys2Proof Sys2Proof.Machine Sys2Proof.Time Sys2Proof.Performance Sys2Proof.Mains Sys2Proof.Stack

variable {s t : State} {st : Station} {p : Player} {n : TuneNo} {x : Note}

/-! ### Notes (R117, R146) -/

/-- The player past a note: its next note starts when this one's duration ends. -/
def pastNote (s : State) (n : TuneNo) (x : Note) (p : Player) : Player :=
  { p with notePos := p.notePos + 1, noteAt := p.noteAt + noteTicks x * (getTune s n).tick }

/-- The state in which the player has moved on past a note. -/
def movedOn (n : TuneNo) (x : Note) (p : Player) (s : State) : State := setPlayer (some (pastNote s n x p)) s

theorem exec_tuneNote (hr : running s = true) (hp : s.tunes.player = some p) (hn : p.tune = some n) (hdue : p.noteAt ≤ s.elapsed)
    (hpos : p.notePos < (getTune s n).length) (hx : readNote s.tunes.notes ((getTune s n).first + p.notePos) = x) :
    exec .tuneNote s = .next (playNote n x p s) := by
  have hpresent : presentNote s p = some (n, x) := by
    rw [presentNote, hn]
    dsimp only
    rw [if_pos hpos, hx]
  have hexec : exec .tuneNote s = .next (noteStarts s) := event_running hr
  rw [hexec, noteStarts, hp]
  dsimp only
  rw [hpresent]
  dsimp only
  rw [if_pos hdue]

theorem playNote_rest (h : noteStation x = 0) : playNote n x p s = movedOn n x p s := by
  unfold playNote
  rw [h]
  rfl

theorem playNote_sounded (h : stationOf (noteStation x) = some st) :
    playNote n x p s
      = soundNote n st (strengthOf (noteStrength x)) (p.noteAt + 250) p.serial (movedOn n x p s) := by
  unfold playNote
  rw [h]
  rfl

/-- With no deferred stroke, a note's bell decides it as it stands (R116, R117). -/
theorem soundNote_eq {y : Strength} {deadline serial : Nat} (hdef : (getBell s st).deferred = []) :
    soundNote n st y deadline serial s
      = if noteSkipped s st then updTune n (fun y => { y with skipped := min 512 (y.skipped + 1) }) s
        else strokeDue st y deadline (.note serial) s := by
  have hserved : serveFirst st s = s := by rw [serveFirst, hdef]; rfl
  rw [soundNote, hserved]

theorem noteSkipped_iff :
    noteSkipped s st = true ↔ strikable (getBell s st) = false ∨ s.elapsed < (getBell s st).nextFree := by
  simp [noteSkipped]

/-- A stroke for a note that the line does not take is lost, and nothing else changes (R146). -/
theorem strokeDue_note_lost {y : Strength} {deadline serial : Nat} (h : lineAccepts s = false) :
    strokeDue st y deadline (.note serial) s = s := by
  rw [strokeDue, h]
  rfl

/-- A stroke that the line takes is a STRIKE at the queue's tail, and the bell is free again after its recovery (R116). -/
theorem strokeDue_accepted {y : Strength} {deadline : Nat} {who : Requester} (h : lineAccepts s = true) :
    strokeDue st y deadline who s
      = updBell st (fun b => { b with nextFree := s.elapsed + b.recovery })
          (placeOrder ⟨st, .strike (mufflesTo s st y) deadline who, 0, 0⟩ s) := if_pos h

/-! ### A play's end (R146 to R148, R150) -/

/-- The state in which a play more is counted. -/
def playCounted (n : TuneNo) (s : State) : State := updTune n (fun x => { x with plays := satAdd 65535 x.plays 1 }) s

theorem exec_tunePlayEnd (hr : running s = true) (hp : s.tunes.player = some p) (hn : p.tune = some n)
    (hend : (getTune s n).length ≤ p.notePos) (hdue : p.noteAt ≤ s.elapsed) :
    exec .tunePlayEnd s = .next (afterPlay n p (playCounted n s)) := by
  have hexec : exec .tunePlayEnd s = .next (playEnds s) := event_running hr
  rw [hexec, playEnds, hp]
  dsimp only
  rw [hn]
  dsimp only
  rw [if_pos ⟨hend, hdue⟩]
  rfl

theorem getTune_updTune (f : Tune → Tune) (s : State) : getTune (updTune n f s) n = f (getTune s n) := by
  simp [getTune]

theorem plays_counted (n : TuneNo) (s : State) : (getTune (playCounted n s) n).plays = min 65535 ((getTune s n).plays + 1) := by
  rw [playCounted, getTune_updTune]
  rfl

theorem endLane_tunes (lane : Lane) (x : EntryState) (s : State) : (endLane lane x s).tunes = s.tunes := by
  unfold endLane
  split
  · rfl
  · exact (finalise_tunes ..).trans (setLane_tunes ..)

/-- Whatever follows, the play is counted. -/
theorem plays_afterPlay (p : Player) (s : State) : (getTune (afterPlay n p s) n).plays = (getTune s n).plays := by
  unfold afterPlay
  split
  · rw [startPlay, getTune_updTune]
    rfl
  · split
    · rfl
    · rw [getTune, endLane_tunes]
      rfl

theorem afterPlay_again (h : p.playNo < p.playsAsked) :
    afterPlay n p s = startPlay n (setPlayer (some { p with playNo := p.playNo + 1, notePos := 0, playStart := p.noteAt }) s) := if_pos h

theorem afterPlay_hours (h : p.playsAsked ≤ p.playNo) (htrain : p.train = true) (hstrokes : 0 < p.strokes) :
    afterPlay n p s
      = setPlayer (some { p with tune := none, strokeAt := some (p.noteAt + effectiveInterval s p.hourBell p.interval) }) s := by
  rw [afterPlay, if_neg (by omega), if_pos ⟨htrain, hstrokes⟩]

theorem afterPlay_done (h : p.playsAsked ≤ p.playNo) (hlast : p.train = false ∨ p.strokes = 0) :
    afterPlay n p s = endLane .chime .done (setPlayer none s) := by
  rw [afterPlay, if_neg (by omega), if_neg]
  rintro ⟨htrain, hstrokes⟩
  rcases hlast with h | h
  · rw [htrain] at h; cases h
  · omega

/-- The entry that a lane holds is in the state it ended in. -/
theorem state_endLane {lane : Lane} {k : Key} {e : Entry} (y : EntryState) (hk : laneKey s lane = some k)
    (he : findEntry k s.sheets.today.entries = some e) :
    (findEntry k (endLane lane y s).sheets.today.entries).map Entry.state = some y := by
  have hfound : ∃ z, findEntry k (entriesOf (setLane lane none s)) = some z := by
    refine ⟨e, ?_⟩
    rw [entriesOf, setLane_sheets]
    exact he
  unfold endLane
  rw [hk]
  exact state_finalise y hfound

theorem tower_playCounted (n : TuneNo) (s : State) : towerView (playCounted n s) = towerView s := tower_updTune _ _ _ fun _ => rfl

/-- Settles O47: the note's four cases, then the three that follow a play's end. -/
theorem tuneNotesPlay : Obligations.TuneNotesPlay := by
  refine fun s p n hr hp hn hdue => ⟨fun x hpos hx => ⟨fun hrest => ?_, fun st hst hdef => ?_⟩, fun hend => ?_⟩
  · rw [exec_tuneNote hr hp hn hdue hpos hx, playNote_rest hrest]
    rfl
  · have hdef' : (getBell (movedOn n x p s) st).deferred = [] := hdef
    rw [exec_tuneNote hr hp hn hdue hpos hx, playNote_sounded hst, soundNote_eq hdef']
    have hsounds (hs : strikable (getBell s st) = true) (hfree : (getBell s st).nextFree ≤ s.elapsed) :
        ¬ noteSkipped (movedOn n x p s) st = true := fun h => by
      rcases noteSkipped_iff.1 h with h | h
      · exact absurd (hs.symm.trans h) (by simp)
      · exact absurd hfree (Nat.not_le.2 h)
    refine ⟨fun hs hfree ha => ?_, fun hs hfree ha => ?_, fun hskip => ?_⟩
    · rw [if_neg (hsounds hs hfree), strokeDue_accepted (s := movedOn n x p s) ha]
      rfl
    · rw [if_neg (hsounds hs hfree), strokeDue_note_lost (s := movedOn n x p s) ha]
      rfl
    · rw [if_pos ((noteSkipped_iff (s := movedOn n x p s)).2 hskip)]
      rfl
  · refine ⟨_, exec_tunePlayEnd hr hp hn hend hdue, (plays_afterPlay ..).trans (plays_counted n s), fun hagain => ?_,
      fun hlast htrain hstrokes => ?_, fun hlast hdone => ?_, (tower_afterPlay ..).trans (tower_playCounted n s)⟩
    · rw [afterPlay_again hagain]
      exact ⟨rfl, by rw [startPlay, getTune_updTune], rfl⟩
    · rw [afterPlay_hours hlast htrain hstrokes]
      exact ⟨rfl, rfl⟩
    · rw [afterPlay_done hlast hdone]
      let u := setPlayer none (playCounted n s)
      obtain ⟨hbells, hline, hlights, -⟩ := work_parts (work_endLane .chime .done u)
      refine ⟨by rw [endLane_tunes]; rfl, by rw [laneKey_endLane, if_pos rfl], fun k e hk he => state_endLane .done hk he, hbells,
        hline, hlights⟩

end Sys2Proof.Tunes
end

section
/-! PROOFS. WRITE BELL: what it refuses, and what the change of presence makes of the bell (R113). -/

namespace Sys2Proof.BellTable

open Sys2Proof Sys2Proof.Machine Sys2Proof.Time Sys2Proof.Performance Sys2Proof.Mains Sys2Proof.Stack

variable {s t : State} {st : Station} {c : BellConfig}

/-! ### Orders withdrawn and strokes lost (R115, R154) -/

theorem work_withdrawOrders (st : Station) (s : State) :
    workView (withdrawOrders st s)
      = workView (updLine (fun l => { l with queue := l.queue.filter fun o => !(o.station == st) }) s) := work_strikesLost ..

theorem getBell_withdrawOrders (x : Station) (s : State) (u : Station) : getBell (withdrawOrders x s) u = getBell s u := by
  rw [getBell, (work_parts (work_withdrawOrders x s)).1]
  rfl

theorem queue_withdrawOrders (st : Station) (s : State) : ∀ o ∈ (withdrawOrders st s).line.queue, o.station ≠ st := by
  rw [(work_parts (work_withdrawOrders st s)).2.1]
  intro o ho
  have h := (List.mem_filter.1 ho).2
  simpa using h

/-- Polling and the orders it makes leave a bell's deferred strokes. -/
theorem deferred_makeOrder (k : SwingOrder) : (getBell (makeOrder st k s) st).deferred = (getBell s st).deferred := by
  unfold makeOrder
  repeat' split
  · rfl
  · rfl
  · rw [owe, getBell_updBell_self]

theorem deferred_startPolling : (getBell (startPolling st s) st).deferred = (getBell s st).deferred := by
  have hquery : ∀ u, (getBell (firstQuery st u) st).deferred = (getBell u st).deferred := fun u => by
    unfold firstQuery pollNow
    repeat' split
    · exact deferred_makeOrder _
    · exact deferred_makeOrder _
    · rfl
  unfold startPolling
  dsimp only
  repeat' split
  · rw [getBell_updBell_self]
  · rw [hquery, getBell_updBell_self]
  · rw [deferred_makeOrder, getBell_updBell_self]
  · rw [getBell_updBell_self]

/-- A bell that is not strikable in its new position has no deferred stroke (R115). -/
theorem deferred_enterPosition {pos : Position} (h : strikable (positionFields pos s.elapsed (getBell s st)) = false) :
    (getBell (enterPosition st pos s) st).deferred = [] := by
  rw [enterPosition, deferred_startPolling, checkStrikable, getBell_updBell_self, h, if_neg (by simp), getBell_withdrawStrikes,
    getBell_loseDeferred]

/-! ### The bell with its new configuration -/

/-- The state in which the bell's configuration is replaced. -/
def configured (st : Station) (c : BellConfig) (s : State) : State := updBell st (configureBell c) s

theorem getBell_configured (st : Station) (c : BellConfig) (s : State) :
    getBell (configured st c s) st = configureBell c (getBell s st) := getBell_updBell_self _

theorem settings_configured (st : Station) (c : BellConfig) (s : State) :
    settingsView (configured st c s) = { settingsView s with bells := put (settingsView s).bells st c } := by
  have hbells : (Machine.modify s.bells st (configureBell c)).map bellConfigOf = put (s.bells.map bellConfigOf) st c := by
    refine vector_ext_get fun i => ?_
    rw [get_map, get_modify, get_put]
    split
    · rfl
    · rw [get_map]
  exact congrArg (fun b => { settingsView s with bells := b }) hbells

/-- A state in which the bell follows from its new presence, before the peal goes on. -/
def presenceChanged (st : Station) (c : BellConfig) (s : State) : State :=
  if c.present = false then
    if (getBell s st).present then makeAbsent st (configured st c s)
    else updBell st (fun b => { b with pos := .absent }) (configured st c s)
  else if (getBell s st).present then checkStrikable st (configured st c s)
  else becomeUnsure st (updBell st (fun b => { b with noAnswer := 0, lastReply := none }) (configured st c s))

theorem acceptBell_eq (st : Station) (c : BellConfig) (s : State) : acceptBell st c s = settlePeal (presenceChanged st c s) := rfl

theorem tower_makeAbsent (st : Station) (s : State) : towerView (makeAbsent st s) = towerView s := by
  have hcleared : ∀ u, towerView (updBell st (fun b => { b with owed := none, noAnswer := 0 }) u) = towerView u := fun u =>
    tower_updBell u _ _ (fun _ => rfl) fun _ => rfl
  unfold makeAbsent
  dsimp only
  rw [tower_withdrawOrders, hcleared, tower_enterPosition, tower_pealLeave]
  split
  · exact tower_withdrawRequest ..
  · rfl

theorem tower_presenceChanged (st : Station) (c : BellConfig) (s : State) :
    towerView (presenceChanged st c s) = towerView (configured st c s) := by
  unfold presenceChanged
  repeat' split
  · exact tower_makeAbsent ..
  · exact tower_updBell _ _ _ (fun _ => rfl) fun _ => rfl
  · exact tower_checkStrikable ..
  · rw [tower_becomeUnsure]
    exact tower_updBell _ _ _ (fun _ => rfl) fun _ => rfl

theorem steady_acceptBell (st : Station) (c : BellConfig) (s : State) : Steady s (acceptBell st c s) :=
  have hsame : Steady s (configured st c s) := ⟨rfl, rfl, rfl, rfl, rfl, rfl⟩
  (hsame.trans (steady_of_tower (tower_presenceChanged st c s))).trans (steady_settlePeal _)

theorem settings_acceptBell (st : Station) (c : BellConfig) (s : State) :
    settingsView (acceptBell st c s) = { settingsView s with bells := put (settingsView s).bells st c } := by
  have htower : towerView (acceptBell st c s) = towerView (configured st c s) :=
    (tower_settlePeal _).trans (tower_presenceChanged st c s)
  exact (settings_of_tower htower).trans (settings_configured st c s)

/-! ### A bell made ABSENT -/

/-- The state in which a bell that is made ABSENT has left the peal and the waiting list. -/
def detached (st : Station) (s : State) : State := pealLeave st (if isWaiting s st then withdrawRequest st s else s)

theorem getBell_detached (st : Station) (s : State) :
    getBell (detached st s) st = getBell s st ∨ getBell (detached st s) st = { getBell s st with waitingRaise := false } := by
  rw [detached, getBell_pealLeave]
  split
  · exact .inr (getBell_withdrawRequest st s)
  · exact .inl rfl

theorem bell_makeAbsent (st : Station) (s : State) :
    getBell (makeAbsent st s) st = { getBell (enterPosition st .absent (detached st s)) st with owed := none, noAnswer := 0 } := by
  unfold makeAbsent
  dsimp only
  rw [getBell_withdrawOrders, getBell_updBell_self]
  rfl

/-- A bell made ABSENT: its counts of strokes and faults and its next free moment are kept, and what it owed and would strike is gone. -/
theorem absent_makeAbsent (st : Station) (s : State) (b : Bell) (hb : b = getBell (makeAbsent st s) st) :
    b.pos = .absent ∧ b.strokes = (getBell s st).strokes ∧ b.faults = (getBell s st).faults ∧ b.nextFree = (getBell s st).nextFree ∧
      b.noAnswer = 0 ∧ b.owed = none ∧ b.deferred = [] := by
  subst hb
  have hkept : (getBell (detached st s) st).strokes = (getBell s st).strokes ∧
      (getBell (detached st s) st).faults = (getBell s st).faults ∧ (getBell (detached st s) st).nextFree = (getBell s st).nextFree := by
    rcases getBell_detached st s with h | h <;> rw [h] <;> exact ⟨rfl, rfl, rfl⟩
  have hsilent : strikable (positionFields .absent (detached st s).elapsed (getBell (detached st s) st)) = false := by
    simp [strikable, positionFields]
  obtain ⟨hpos, -, hfaults, -, -, hstrokes, hfree, -⟩ := core_parts (bellCore_enterPosition (st := st) (s := detached st s) .absent)
  rw [bell_makeAbsent]
  exact ⟨hpos, hstrokes.trans hkept.1, hfaults.trans hkept.2.1, hfree.trans hkept.2.2, rfl, rfl, deferred_enterPosition hsilent⟩

/-! ### What each row of R113 makes of the bell -/

/-- What an accepted WRITE BELL leaves of the bell, whatever its row: the position that follows, its counts and its next free moment. -/
theorem bell_acceptBell (st : Station) (c : BellConfig) (s : State) (b : Bell) (hb : b = getBell (acceptBell st c s) st) :
    b.pos = (if c.present = false then .absent else if (getBell s st).present then (getBell s st).pos else .unsure) ∧
      b.strokes = (getBell s st).strokes ∧ b.faults = (getBell s st).faults ∧ b.nextFree = (getBell s st).nextFree := by
  rw [acceptBell_eq, getBell_settlePeal, presenceChanged] at hb
  have hconf := getBell_configured st c s
  split at hb
  · next hgone =>
    rw [if_pos hgone]
    split at hb
    · obtain ⟨hpos, hstrokes, hfaults, hfree, -⟩ := absent_makeAbsent st (configured st c s) b hb
      rw [hconf] at hstrokes hfaults hfree
      exact ⟨hpos, hstrokes, hfaults, hfree⟩
    · rw [getBell_updBell_self, hconf] at hb
      subst hb
      exact ⟨rfl, rfl, rfl, rfl⟩
  · next hfitted =>
    rw [if_neg hfitted]
    split at hb
    · next hbefore =>
      obtain ⟨hpos, -, hfaults, -, -, hstrokes, hfree, -⟩ := core_parts (bellCore_checkStrikable (st := st) (s := configured st c s))
      rw [hconf] at hpos hfaults hstrokes hfree
      rw [if_pos hbefore, hb]
      exact ⟨hpos, hstrokes, hfaults, hfree⟩
    · next hbefore =>
      obtain ⟨hpos, -, hfaults, -, -, hstrokes, hfree, -⟩ := core_parts (bellCore_enterPosition (st := st)
        (s := updBell st (fun b => { b with noAnswer := 0, lastReply := none }) (configured st c s)) .unsure)
      rw [getBell_updBell_self, hconf] at hfaults hstrokes hfree
      rw [if_neg hbefore, hb]
      exact ⟨hpos, hstrokes, hfaults, hfree⟩

/-- A bell made present is known afresh, and queried. -/
theorem fitted_acceptBell (hc : (getBell s st).ctrl = .automatic) (hbefore : (getBell s st).present = false) (hp : c.present = true) :
    (getBell (acceptBell st c s) st).noAnswer = 0 ∧ (getBell (acceptBell st c s) st).lastReply = none ∧
      (outstanding (acceptBell st c s) st = some .query ∨ (getBell (acceptBell st c s) st).owed.isSome = true) := by
  let u := updBell st (fun b => { b with noAnswer := 0, lastReply := none }) (configured st c s)
  have hu : getBell u st = { configureBell c (getBell s st) with noAnswer := 0, lastReply := none } := by
    rw [getBell_updBell_self, getBell_configured]
  have heq : presenceChanged st c s = becomeUnsure st u := by
    rw [presenceChanged, if_neg (by simp [hp]), if_neg (by simp [hbefore])]
  obtain ⟨-, -, -, hanswer, -, -, -, hreply, -⟩ := core_parts (bellCore_enterPosition (st := st) (s := u) .unsure)
  obtain ⟨hbell, horder, -⟩ := side_parts (side_settlePeal (becomeUnsure st u) st)
  rw [acceptBell_eq, heq, hbell, horder]
  rw [hu] at hanswer hreply
  exact ⟨hanswer, hreply, query_becomeUnsure (by rw [hu]; exact hp) (by rw [hu]; exact hc)⟩

/-- A bell made not present owes nothing, has nothing to strike, and has no order in the queue. -/
theorem removed_acceptBell (hbefore : (getBell s st).present = true) (hp : c.present = false) :
    (getBell (acceptBell st c s) st).noAnswer = 0 ∧ (getBell (acceptBell st c s) st).owed = none ∧
      (getBell (acceptBell st c s) st).deferred = [] ∧ ∀ o ∈ (acceptBell st c s).line.queue, o.station ≠ st := by
  have heq : presenceChanged st c s = makeAbsent st (configured st c s) := by rw [presenceChanged, if_pos hp, if_pos hbefore]
  obtain ⟨-, -, -, -, hanswer, howed, hdeferred⟩ := absent_makeAbsent st (configured st c s) _ rfl
  rw [acceptBell_eq, getBell_settlePeal, heq, (rest_settlePeal _).2.1]
  exact ⟨hanswer, howed, hdeferred, queue_withdrawOrders st _⟩

/-! ### The command -/

section Command

variable {n f r1 r0 u1 u0 d1 d0 load limit : Byte} {p h w : Bool}

theorem writeBell_outOfRange (hbad : stationOf n.toNat = none ∨ fittedOf f = none ∨
    ∃ p h w, fittedOf f = some (p, h, w) ∧
      bellConfigOk ⟨p, h, w, u16 r1 r0, u16 u1 u0, u16 d1 d0, load.toNat, limit.toNat⟩ = false) :
    writeBell [n, f, r1, r0, u1, u0, d1, d0, load, limit] s = .error .badValue := by
  unfold writeBell
  dsimp only
  cases hst : stationOf n.toNat with
  | none => rfl
  | some st =>
    cases hf : fittedOf f with
    | none => rfl
    | some fitted =>
      rw [hst, hf] at hbad
      obtain ⟨p, h, w⟩ := fitted
      obtain ⟨p', h', w', hsame, hbad⟩ := (hbad.resolve_left (by simp)).resolve_left (by simp)
      cases hsame
      exact if_pos hbad

theorem writeBell_inRange (hst : stationOf n.toNat = some st) (hf : fittedOf f = some (p, h, w))
    (hok : bellConfigOk ⟨p, h, w, u16 r1 r0, u16 u1 u0, u16 d1 d0, load.toNat, limit.toNat⟩ = true) :
    writeBell [n, f, r1, r0, u1, u0, d1, d0, load, limit] s
      = if bellBusy (getBell s st) then .error .wrongState
        else .ok (acceptBell st ⟨p, h, w, u16 r1 r0, u16 u1 u0, u16 d1 d0, load.toNat, limit.toNat⟩ s) := by
  unfold writeBell
  dsimp only
  rw [hst, hf]
  dsimp only
  rw [if_neg (by simp [hok])]

end Command

/-- A bell that WRITE BELL may configure is AUTOMATIC. -/
theorem automatic_of_idle {b : Bell} (h : bellBusy b = false) : b.ctrl = .automatic := by
  cases hc : b.ctrl with
  | automatic => rfl
  | console => simp [bellBusy, hc] at h

/-- Settles O41: the two refusals, then the acceptance by its rows. -/
theorem writeBellReplaces : Obligations.WriteBellReplaces := by
  refine fun s n f r1 r0 u1 u0 d1 d0 load limit hserved => ⟨fun hbad => ?_, fun st p h w hst hf hok => ⟨fun hbusy => ?_, fun hidle => ?_⟩⟩
  · have hexec : exec (.writeBell [n, f, r1, r0, u1, u0, d1, d0, load, limit]) s
        = change (writeBell [n, f, r1, r0, u1, u0, d1, d0, load, limit] s) s := rfl
    rw [hexec, writeBell_outOfRange hbad]
    exact change_error hserved
  · have hexec : exec (.writeBell [n, f, r1, r0, u1, u0, d1, d0, load, limit]) s
        = change (writeBell [n, f, r1, r0, u1, u0, d1, d0, load, limit] s) s := rfl
    rw [hexec, writeBell_inRange hst hf hok, if_pos hbusy]
    exact change_error hserved
  · let c : BellConfig := ⟨p, h, w, u16 r1 r0, u16 u1 u0, u16 d1 d0, load.toNat, limit.toNat⟩
    have hexec : exec (.writeBell [n, f, r1, r0, u1, u0, d1, d0, load, limit]) s
        = .next { acceptBell st c s with port := ⟨.none, []⟩ } := by
      change change (writeBell [n, f, r1, r0, u1, u0, d1, d0, load, limit] s) s = _
      rw [writeBell_inRange hst hf hok, if_neg (by simp [hidle])]
      exact change_ok hserved
    obtain ⟨htime, hover, -, hdials, -⟩ := steady_acceptBell st c s
    have hsettings := settings_acceptBell st c s
    obtain ⟨hpos, hstrokes, hfaults, hfree⟩ := bell_acceptBell st c s _ rfl
    have hfitted := fun hbefore hp => fitted_acceptBell (c := c) (automatic_of_idle hidle) hbefore hp
    have hremoved := fun hbefore hp => removed_acceptBell (s := s) (st := st) (c := c) hbefore hp
    generalize acceptBell st c s = t at *
    exact ⟨_, hexec, hsettings, hpos, hstrokes, hfaults, hfree, hfitted, hremoved, htime, hover, hdials, rfl⟩

end Sys2Proof.BellTable
end

section
/-! PROOFS. A bell that is known DOWN hands its load back, and other bells' waiting requests that are then retried leave it (R119, R122,
R124, R188); what frames leave of the line controller. -/

namespace Sys2Proof.BellTable

open Sys2Proof Sys2Proof.Machine Sys2Proof.Time Sys2Proof.Performance Sys2Proof.Mains Sys2Proof.Stack

variable {s t : State} {st u : Station}

/-! ### Retries of the waiting requests -/

/-- A retry leaves the bells that it is not for, and adds nothing to the waiting list (R188). -/
theorem others_retryOne (m : Nat) (h : u ≠ st) :
    getBell (retryOne st m s) u = getBell s u ∧ (isWaiting s u = false → isWaiting (retryOne st m s) u = false) := by
  unfold retryOne
  split
  · exact ⟨rfl, id⟩
  · next l shed hadmit =>
    obtain ⟨a, ha⟩ := setFlagIf_eq shed .loadLimited (setLights { l with waiting := l.waiting.filter fun p => p.1 != st } s)
    have honly := only_tellAdmitted st (setFlagIf shed .loadLimited (setLights { l with waiting := l.waiting.filter fun p => p.1 != st } s))
    refine ⟨by rw [honly.others u h, ha]; rfl, fun hw => ?_⟩
    rw [isWaiting, honly.lights, ha]
    change (l.waiting.filter fun p => p.1 != st).any (fun p => p.1 == u) = false
    rw [admit_waiting hadmit, List.any_filter, List.any_eq_false]
    intro p hp hboth
    exact List.any_eq_false.1 hw p hp (Bool.and_eq_true_iff.1 hboth).2

/-- A bell that does not wait stays as it is when load is freed, and does not wait then (R188). -/
theorem still_loadFreed (h : isWaiting s u = false) :
    getBell (loadFreed s) u = getBell s u ∧ isWaiting (loadFreed s) u = false := by
  have hretried : getBell (retryWaiting s) u = getBell s u ∧ isWaiting (retryWaiting s) u = false := by
    unfold retryWaiting
    split
    · refine List.foldlRecOn (motive := fun r => getBell r u = getBell s u ∧ isWaiting r u = false) _ _ ⟨rfl, h⟩ fun r hr p hp => ?_
      have hne : u ≠ p.1 := fun heq => List.any_eq_false.1 h p hp (by rw [heq]; exact beq_self_eq_true _)
      obtain ⟨hbell, hwait⟩ := others_retryOne (s := r) p.2 hne
      exact ⟨hbell.trans hr.1, hwait hr.2⟩
    · exact ⟨rfl, h⟩
  obtain ⟨l, hl, hwaiting, -⟩ := restoration_lights (retryWaiting s)
  rw [loadFreed, hl]
  refine ⟨hretried.1, ?_⟩
  change l.waiting.any _ = false
  rw [hwaiting]
  exact hretried.2

/-! ### A bell that is known DOWN -/

/-- A bell that does not wait gives its reservation back and stays as it is otherwise (R119). -/
theorem released_releaseLoad (h : isWaiting s st = false) :
    getBell (releaseLoad st s) st = { getBell s st with reserving := false } ∧ isWaiting (releaseLoad st s) st = false := by
  unfold releaseLoad
  split
  · obtain ⟨hbell, hwait⟩ := still_loadFreed (s := setLights { s.lights with reserv := put s.lights.reserv st none }
      (updBell st (fun b => { b with reserving := false }) s)) (u := st) h
    exact ⟨hbell.trans (getBell_updBell_self _), hwait⟩
  · next hres =>
    have hsame : ({ getBell s st with reserving := false } : Bell) = getBell s st := by
      rw [← Bool.eq_false_iff.2 hres]
    exact ⟨hsame.symm, h⟩

/-- A bell with no waiting raise that becomes DOWN: it reserves nothing and waits for nothing (R122, R124). -/
theorem released_becomeDown (h : (getBell s st).waitingRaise = false) :
    getBell (becomeDown st s) st = { getBell (enterPosition st .down s) st with reserving := false } ∧
      isWaiting (becomeDown st s) st = false := by
  have hraise : (getBell (enterPosition st .down s) st).waitingRaise = false :=
    (core_parts (bellCore_enterPosition (st := st) (s := s) .down)).2.2.2.2.2.2.2.2.2.2.trans h
  unfold becomeDown knownDown
  generalize enterPosition st .down s = r at hraise
  split
  · obtain ⟨hbell, hwait⟩ := released_releaseLoad (s := withdrawRequest st r) (st := st)
      (by rw [isWaiting_withdrawRequest]; simp)
    refine ⟨hbell.trans ?_, hwait⟩
    rw [getBell_withdrawRequest, ← hraise]
  · next hnot => exact released_releaseLoad (by simpa [hraise] using hnot)

/-- The position, the last reply and the reservation of a bell that becomes DOWN. -/
theorem down_becomeDown (h : (getBell s st).waitingRaise = false) :
    (getBell (becomeDown st s) st).pos = .down ∧ (getBell (becomeDown st s) st).reserving = false ∧
      (getBell (becomeDown st s) st).lastReply = (getBell s st).lastReply := by
  obtain ⟨hpos, -, -, -, -, -, -, hreply, -⟩ := core_parts (bellCore_enterPosition (st := st) (s := s) .down)
  rw [(released_becomeDown h).1]
  exact ⟨hpos, rfl, hreply⟩

/-! ### The line controller, but for its queue -/

/-- Work in the tower leaves the line's state and frame. -/
theorem line_of_tower (h : towerView t = towerView s) : t.line.state = s.line.state ∧ t.line.frame = s.line.frame :=
  ⟨congrArg (fun v => v.line.state) h, congrArg (fun v => v.line.frame) h⟩

/-- After a frame and the work in the tower that follows it the line is IDLE. -/
theorem idle_of_tower (h : towerView t = towerView (frameStopped s)) : t.line.state = .idle ∧ t.line.frame = .none := line_of_tower h

theorem line_settlePeal (s : State) : (settlePeal s).line = s.line := (rest_settlePeal s).2.1

theorem pins_settlePeal (s : State) : (settlePeal s).pins = s.pins := congrArg TowerView.pins (tower_settlePeal s)

theorem settings_settlePeal (s : State) : settingsView (settlePeal s) = settingsView s := settings_of_tower (tower_settlePeal s)

theorem settingsView_frameStopped (s : State) : settingsView (frameStopped s) = settingsView s := settings_frameStopped s

theorem settings_after_frame (h : towerView t = towerView (frameStopped s)) : settingsView t = settingsView s :=
  (settings_of_tower h).trans (settings_frameStopped s)

end Sys2Proof.BellTable
end
section
/-! PROOFS. Frames of the part's own: their start, the answers of the stations, and arbitration (R116, R122, R155 to R157, R164, R167). -/

namespace Sys2Proof.BellTable

open Sys2Proof Sys2Proof.Machine Sys2Proof.Time Sys2Proof.Performance Sys2Proof.Mains Sys2Proof.Stack

variable {s t : State} {st : Station} {o : Order} {started : Nat} {lck lda : Bool}

/-! ### The start of a frame (R155) -/

theorem exec_orderFrameStart (hr : running s = true) (lck lda : Bool) :
    exec (.orderFrameStart lck lda) s = .next (frameStart lck lda s) := event_running hr

/-- While mains is absent, and while the line is FAULTED, the wires are not read (R164, R167). -/
theorem frameStart_unread (h : s.mains = .absent ∨ s.line.state = .faulted) : frameStart lck lda s = s := by
  refine if_neg fun hreads => ?_
  simp only [readsLine, Bool.and_eq_true, beq_iff_eq, bne_iff_ne] at hreads
  rcases h with h | h
  · rw [h] at hreads; exact MainsState.noConfusion hreads.1
  · exact hreads.2 h

/-- The wires are read, and where no frame may begin that is all. -/
theorem frameStart_waits (hm : s.mains = .present) (hf : s.line.state ≠ .faulted) (h : s.line.state ≠ .idle ∨ s.line.queue = []) :
    frameStart lck lda s = sampleWires lck lda s := by
  have hreads : readsLine s = true := by simp [readsLine, hm, hf]
  have hmay : ¬ maySend s = true := by
    simp only [maySend, Bool.and_eq_true, beq_iff_eq, Bool.not_eq_true', List.isEmpty_eq_false_iff]
    rintro ⟨⟨hidle, -⟩, hqueue⟩
    exact h.elim (fun h => h hidle) hqueue
  rw [frameStart, if_pos hreads]
  exact if_neg hmay

/-- A head order that is in time is tried on the wires at once. -/
theorem frameStart_tries {rest : List Order} (hidle : s.line.state = .idle) (hm : s.mains = .present) (hq : s.line.queue = o :: rest)
    (htime : inTime s o = true) : frameStart lck lda s = settlePeal (tryWires lck lda (sampleWires lck lda s)) := by
  have hreads : readsLine s = true := by simp [readsLine, hm, hidle]
  have hmay : maySend s = true := by simp [maySend, hm, hidle, hq]
  have hhead : discardLate s.line.queue.length (sampleWires lck lda s) = sampleWires lck lda s := by
    rw [hq, List.length_cons, discardLate]
    have hq' : (sampleWires lck lda s).line.queue = o :: rest := hq
    rw [hq']
    exact if_pos htime
  rw [frameStart, if_pos hreads]
  dsimp only
  rw [if_pos hmay, hhead]

/-- The line as the wires let the head order go. -/
def triedLine (lck lda : Bool) (o : Order) (rest : List Order) (s : State) : Line :=
  if lda = false then { s.line with state := .recovering }
  else if lck = false then s.line
  else { s.line with state := .sending, frame := .own o s.elapsed, queue := rest }

theorem tryWires_eq {rest : List Order} (hq : s.line.queue = o :: rest) :
    tryWires lck lda s = { s with line := triedLine lck lda o rest s } := by
  unfold tryWires triedLine
  rw [if_neg (by simp [hq])]
  cases lda
  · rfl
  · cases lck
    · rfl
    · rw [if_neg (by simp), if_neg (by simp), sendHead, hq]
      rfl

/-! ### Unanswered orders (R118, R123, R156) -/

theorem ownOrder_own (hframe : s.line.frame = .own o started) : ownOrder s.line = some o := by rw [ownOrder, hframe]

theorem exec_unanswered (hr : running s = true) (hframe : s.line.frame = .own o started) :
    exec (.orderAttemptEnd .unanswered) s = .next (settlePeal (orderUnanswered o (frameStopped s))) := by
  have hexec : exec (.orderAttemptEnd .unanswered) s = .next (attemptEnd .unanswered s) := event_running hr
  rw [hexec, attemptEnd, ownOrder_own hframe]

theorem exec_acknowledged (hr : running s = true) (hframe : s.line.frame = .own o started) (reply : Byte) :
    exec (.orderAttemptEnd (.acknowledged reply)) s = .next (settlePeal (orderAnswered o reply (frameStopped s))) := by
  have hexec : exec (.orderAttemptEnd (.acknowledged reply)) s = .next (attemptEnd (.acknowledged reply) s) := event_running hr
  rw [hexec, attemptEnd, ownOrder_own hframe]

theorem orderUnanswered_again (h : o.unanswered < 2) :
    orderUnanswered o s = putBack { o with unanswered := o.unanswered + 1 } s := if_pos (Nat.succ_lt_succ h)

theorem orderUnanswered_third (h : 2 ≤ o.unanswered) : orderUnanswered o s = reportUnanswered o.station (strikeLost o s) :=
  if_neg (Nat.not_lt.2 (Nat.succ_le_succ h))

/-- The state in which a bell's no-answer count has risen. -/
def unansweredCounted (st : Station) (s : State) : State :=
  updBell st (fun b => { b with noAnswer := min Config.noAnswerLimit (b.noAnswer + 1) }) s

/-- The state in which a bell that is about to be FAULT has dropped a raise that waits and what it owes. -/
def dropped (st : Station) (s : State) : State :=
  updBell st (fun b => { b with owed := none }) (if (getBell s st).waitingRaise then withdrawRequest st s else s)

theorem others_dropped {u : Station} (h : u ≠ st) (s : State) : getBell (dropped st s) u = getBell s u := by
  rw [dropped, getBell_updBell_other h]
  split
  · rw [withdrawRequest, getBell_updBell_other h]
    rfl
  · rfl

theorem noAnswer_dropped (st : Station) (s : State) : (getBell (dropped st s) st).noAnswer = (getBell s st).noAnswer := by
  rw [dropped, getBell_updBell_self]
  split
  · rw [getBell_withdrawRequest]
  · rfl

theorem reportUnanswered_eq (h : (getBell s st).pos ≠ .absent) :
    reportUnanswered st s
      = if (getBell (unansweredCounted st s) st).noAnswer = Config.noAnswerLimit ∧ (getBell (unansweredCounted st s) st).pos ≠ .fault
        then becomeFault st (dropped st (unansweredCounted st s))
        else unansweredCounted st s := if_neg h

theorem counted_bell (st : Station) (s : State) :
    getBell (unansweredCounted st s) st = { getBell s st with noAnswer := min 3 ((getBell s st).noAnswer + 1) } := getBell_updBell_self _

theorem core_becomeFault (st : Station) (s : State) :
    (getBell (becomeFault st s) st).pos = .fault ∧ (getBell (becomeFault st s) st).noAnswer = (getBell s st).noAnswer := by
  obtain ⟨hpos, -, -, hanswer, -⟩ := core_parts (bellCore_enterPosition (st := st) (s := pealLeave st (faultEvent st s)) .fault)
  refine ⟨hpos, hanswer.trans ?_⟩
  change (getBell (pealLeave st (faultEvent st s)) st).noAnswer = _
  rw [getBell_pealLeave, getBell_faultEvent]

/-- An unanswered order counts against its bell, and the third in a row makes it FAULT (R118, R123). -/
theorem bell_reportUnanswered (h : (getBell s st).pos ≠ .absent) :
    (getBell (reportUnanswered st s) st).noAnswer = min 3 ((getBell s st).noAnswer + 1) ∧
      (getBell (reportUnanswered st s) st).pos = (if 2 ≤ (getBell s st).noAnswer then .fault else (getBell s st).pos) ∧
      ∀ u, u ≠ st → getBell (reportUnanswered st s) u = getBell s u := by
  have hcounted := counted_bell st s
  rw [reportUnanswered_eq h]
  split
  · next hthird =>
    rw [hcounted] at hthird
    obtain ⟨hpos, hanswer⟩ := core_becomeFault st (dropped st (unansweredCounted st s))
    have hmany : 2 ≤ (getBell s st).noAnswer := by
      have h3 : min 3 ((getBell s st).noAnswer + 1) = 3 := hthird.1
      omega
    refine ⟨by rw [hanswer, noAnswer_dropped, hcounted], by rw [hpos, if_pos hmany], fun u hu => ?_⟩
    rw [(only_becomeFault (OnlyBell.refl st _)).others u hu, others_dropped hu]
    exact getBell_updBell_other hu
  · next hnot =>
    rw [hcounted] at hnot
    refine ⟨by rw [hcounted], ?_, fun u hu => getBell_updBell_other hu⟩
    rw [hcounted]
    split
    · next hmany =>
      have h3 : min 3 ((getBell s st).noAnswer + 1) = 3 := by omega
      by_contra hpos
      exact hnot ⟨h3, hpos⟩
    · rfl

theorem getBell_strikeLost (o : Order) (s : State) (u : Station) : getBell (strikeLost o s) u = getBell s u := by
  rw [getBell, (work_parts (work_strikeLost o s)).1]
  rfl

/-! ### Answered orders (R116, R122, R156) -/

/-- A bell whose stroke was acknowledged. -/
def struck (b : Bell) : Bell := { b with noAnswer := 0, strokes := min 65535 (b.strokes + 1) }

/-- A stroke that is acknowledged counts, and leaves the line and the account (R116). -/
theorem strike_answered {x : Strength} {d : Nat} {who : Requester} (reply : Byte) (hbody : o.body = .strike x d who)
    (hpos : (getBell s o.station).pos ≠ .absent) :
    workView (orderAnswered o reply s)
      = workView { s with bells := put s.bells o.station (struck (getBell s o.station)) } := by
  let u := updBell o.station (fun b => { b with noAnswer := 0 }) s
  have hu : getBell u o.station = { getBell s o.station with noAnswer := 0 } := getBell_updBell_self _
  have hack : reportAcknowledged o.station s = u := if_neg hpos
  have hpos' : (getBell u o.station).pos ≠ .absent := by rw [hu]; exact hpos
  have hbells : (updBell o.station (fun b => { b with strokes := satAdd 65535 b.strokes 1 }) u).bells
      = put s.bells o.station (struck (getBell s o.station)) := by
    refine vector_ext_get fun i => ?_
    rw [updBell_bells, get_modify, get_put]
    split
    · next hi =>
      subst hi
      change ({ getBell u o.station with strokes := satAdd 65535 (getBell u o.station).strokes 1 } : Bell) = _
      rw [hu]
      rfl
    · next hi => exact getBell_updBell_other (Ne.symm hi)
  unfold orderAnswered
  dsimp only
  rw [hack, hbody]
  dsimp only
  rw [strikeSent, work_answerStroke, if_neg hpos']
  unfold workView
  rw [hbells]
  rfl

theorem settings_orderAnswered (o : Order) (reply : Byte) (s : State) : towerView (orderAnswered o reply s) = towerView s := by
  unfold orderAnswered
  dsimp only
  split <;> simp

/-- The state to which the bell table applies a reply: it is the last reply, and a new flag of it is a fault event (R122). -/
def replyNoted (st : Station) (r : Reply) (s : State) : State :=
  let noted := updBell st (fun x => { x with lastReply := some r }) s
  if newFlag (getBell s st).lastReply r then faultEvent st noted else noted

theorem applyReply_eq (r : Reply) (hpos : (getBell s st).pos ≠ .absent) (hc : (getBell s st).ctrl = .automatic) :
    applyReply st r s = replyByState st r (replyNoted st r s) := by
  have hheard : ¬ ((getBell s st).pos = .absent ∨ (getBell s st).ctrl = .console) := by
    rw [hc]
    exact fun h => h.elim hpos Controller.noConfusion
  exact if_neg hheard

theorem bell_replyNoted (r : Reply) (s : State) :
    (getBell (replyNoted st r s) st).pos = (getBell s st).pos ∧
      (getBell (replyNoted st r s) st).waitingRaise = (getBell s st).waitingRaise ∧
      (getBell (replyNoted st r s) st).lastReply = some r := by
  unfold replyNoted
  dsimp only
  split
  · rw [getBell_faultEvent, getBell_updBell_self]
    exact ⟨rfl, rfl, rfl⟩
  · rw [getBell_updBell_self]
    exact ⟨rfl, rfl, rfl⟩

theorem replyOf_down {b : Byte} (h : b.toNat % 4 = 0) : (replyOf b).position = .down := by
  simp only [replyOf, h]

/-- A QUERY's DOWN reply brings a LOWERING bell DOWN and hands its load back (R122). -/
theorem query_answered {reply : Byte} (hbody : o.body = .swing .query) (hdown : reply.toNat % 4 = 0)
    (hpos : (getBell s o.station).pos = .lowering) (hc : (getBell s o.station).ctrl = .automatic)
    (hw : (getBell s o.station).waitingRaise = false) :
    (getBell (orderAnswered o reply s) o.station).pos = .down ∧ (getBell (orderAnswered o reply s) o.station).reserving = false ∧
      (getBell (orderAnswered o reply s) o.station).lastReply = some (replyOf reply) := by
  let u := updBell o.station (fun b => { b with noAnswer := 0 }) s
  have hu : getBell u o.station = { getBell s o.station with noAnswer := 0 } := getBell_updBell_self _
  have hack : reportAcknowledged o.station s = u := if_neg (by rw [hpos]; exact Position.noConfusion)
  obtain ⟨hpos', hw', hreply⟩ := bell_replyNoted (st := o.station) (replyOf reply) u
  rw [hu] at hpos' hw'
  have hdone : orderAnswered o reply s = becomeDown o.station (replyNoted o.station (replyOf reply) u) := by
    unfold orderAnswered
    dsimp only
    rw [hack, hbody]
    dsimp only
    rw [applyReply_eq _ (by rw [hu]; change (getBell s o.station).pos ≠ _; rw [hpos]; exact Position.noConfusion) (by rw [hu]; exact hc),
      replyByState, hpos'.trans hpos]
    exact if_pos (replyOf_down hdown)
  obtain ⟨h1, h2, h3⟩ := down_becomeDown (hw'.trans hw)
  rw [hdone]
  exact ⟨h1, h2, h3.trans hreply⟩

/-! ### Arbitration (R157) -/

/-- The number that the part's own address byte sends. -/
def ownNumber (o : Order) : Nat := 4 * stationNo o.station + (if o.body = .swing .query then 1 else 0)

theorem reads_iff (o : Order) : o.reads = decide (o.body = .swing .query) := by
  unfold Order.reads
  cases o.body with
  | strike => rfl
  | swing k => cases k <;> rfl

theorem addressByte_toNat (o : Order) : o.addressByte.toNat = ownNumber o := by
  have hst : stationNo o.station ≤ 31 := by
    have := o.station.isLt
    unfold stationNo
    omega
  have hread : o.reads.toNat = if o.body = .swing .query then 1 else 0 := by
    rw [reads_iff]
    by_cases h : o.body = .swing .query <;> simp [h]
  unfold Order.addressByte Machine.addressByte ownNumber
  rw [BitVec.toNat_ofNat, hread]
  split <;> omega

theorem winsOver_iff (f : FrameHead) (o : Order) :
    winsOver f o = true ↔
      f.address.toNat < ownNumber o ∨ f.address.toNat = ownNumber o ∧ f.order.toNat < o.orderByte.toNat := by
  simp only [winsOver, Bool.or_eq_true, Bool.and_eq_true, decide_eq_true_eq, beq_iff_eq, ← BitVec.toNat_inj, addressByte_toNat]

theorem exec_arbitrationLost (hr : running s = true) (hframe : s.line.frame = .own o started) (f : FrameHead) :
    exec (.arbitrationLost f) s
      = .next (if winsOver f o then updLine (yieldLine f.address o started) (clockSeen s) else s) := by
  have hexec : exec (.arbitrationLost f) s = .next (loseArbitration f s) := event_running hr
  rw [hexec, loseArbitration, hframe]

/-- Settles O48: where no frame begins, where one does, and the ways in which the part's own ends. -/
theorem ownFramesRun : Obligations.OwnFramesRun := by
  refine fun s o hr => ⟨fun lck lda h => ?_, fun lck lda hm hf h => ?_, fun rest lck lda hidle hm hq htime => ?_,
    fun started hframe => ⟨fun hfew => ?_, fun hmany hpos => ?_, fun x d who reply hbody hpos => ?_,
      fun reply hbody hdown hpos hc hw => ?_, fun f own hown => ?_⟩⟩
  · rw [exec_orderFrameStart hr, frameStart_unread h]
  · rw [exec_orderFrameStart hr, frameStart_waits hm hf h]
    rfl
  · refine ⟨_, exec_orderFrameStart hr lck lda, ?_⟩
    rw [frameStart_tries hidle hm hq htime, tryWires_eq (s := sampleWires lck lda s) hq]
    obtain ⟨hbells, hline, hlights, -⟩ := rest_settlePeal
      { sampleWires lck lda s with line := triedLine lck lda o rest (sampleWires lck lda s) }
    obtain ⟨htime', -⟩ := steady_settlePeal { sampleWires lck lda s with line := triedLine lck lda o rest (sampleWires lck lda s) }
    refine ⟨hline.trans rfl, (pins_settlePeal _).trans rfl, hbells, hlights, htime', (settings_settlePeal _).trans ?_⟩
    have hconsole : (triedLine lck lda o rest (sampleWires lck lda s)).answerConsole = s.line.answerConsole := by
      unfold triedLine
      split
      · rfl
      · split <;> rfl
    simp only [settingsView, hconsole]
    rfl
  · refine ⟨_, exec_unanswered hr hframe, ?_⟩
    rw [orderUnanswered_again hfew]
    obtain ⟨hbells, hline, hlights, -⟩ := rest_settlePeal (putBack { o with unanswered := o.unanswered + 1 } (frameStopped s))
    exact ⟨hline, pins_settlePeal _, hbells, hlights,
      settings_after_frame ((tower_settlePeal _).trans (tower_putBack _ _))⟩
  · refine ⟨_, exec_unanswered hr hframe, ?_⟩
    rw [orderUnanswered_third hmany]
    have htower : towerView (settlePeal (reportUnanswered o.station (strikeLost o (frameStopped s)))) = towerView (frameStopped s) := by
      simp
    have hpos' : (getBell (strikeLost o (frameStopped s)) o.station).pos ≠ .absent := by rwa [getBell_strikeLost]
    obtain ⟨hanswer, hposition, hothers⟩ := bell_reportUnanswered hpos'
    simp only [getBell_strikeLost] at hanswer hposition hothers
    obtain ⟨hidle, hnone⟩ := idle_of_tower htower
    refine ⟨hidle, hnone, ?_, ?_, fun u hu => ?_, settings_after_frame htower⟩
    · rw [getBell_settlePeal]
      exact hanswer
    · rw [getBell_settlePeal]
      exact hposition
    · rw [getBell_settlePeal]
      exact hothers u hu
  · refine ⟨_, exec_acknowledged hr hframe reply, ?_⟩
    obtain ⟨hbells, hline, hlights, -⟩ := work_parts (strike_answered (s := frameStopped s) reply hbody hpos)
    obtain ⟨hbells', hline', hlights', -⟩ := rest_settlePeal (orderAnswered o reply (frameStopped s))
    exact ⟨hline'.trans hline, hbells'.trans hbells, hlights'.trans hlights,
      settings_after_frame ((tower_settlePeal _).trans (settings_orderAnswered ..))⟩
  · refine ⟨_, exec_acknowledged hr hframe reply, ?_⟩
    have htower := (tower_settlePeal _).trans (settings_orderAnswered o reply (frameStopped s))
    obtain ⟨hidle, hnone⟩ := idle_of_tower htower
    rw [getBell_settlePeal]
    obtain ⟨h1, h2, h3⟩ := query_answered (s := frameStopped s) hbody hdown hpos hc hw
    exact ⟨hidle, hnone, h1, h2, h3, settings_after_frame htower⟩
  · change own = ownNumber o at hown
    rw [exec_arbitrationLost hr hframe, hown]
    refine ⟨fun hwins => ?_, fun hloses => ?_⟩
    · rw [if_pos ((winsOver_iff f o).2 hwins)]
      rfl
    · rw [if_neg fun hwins => ?_]
      rcases (winsOver_iff f o).1 hwins with h | ⟨h, h'⟩ <;> rcases hloses with g | ⟨g, g'⟩ <;> omega

end Sys2Proof.BellTable
end

section
/-! PROOFS. Frames of other parties: how they begin and end, and what the bells that the console holds make of the orders observed (R133,
R158, R159). -/

namespace Sys2Proof.BellTable

open Sys2Proof Sys2Proof.Machine Sys2Proof.Time Sys2Proof.Performance Sys2Proof.Mains Sys2Proof.Stack

variable {s t : State} {st u : Station} {address : Byte} {started : Nat} {g : Option BellSet} {rest : List Byte}

/-! ### The ends of frames (R158, R159) -/

theorem exec_foreignStart (hr : running s = true) (address : Byte) :
    exec (.foreignStart address) s = .next (foreignBegins address s) := event_running hr

/-- The STOP of an observed frame of which the address byte had been seen: handed on where it was acknowledged. -/
theorem exec_observedFrameStop (hr : running s = true) (hstate : s.line.state = .observing)
    (hframe : s.line.frame = .foreign [address] started g) (rest : List Byte) (ack : Bool) :
    exec (.observedFrameStop rest ack) s
      = .next (settlePeal (if ack then handObserved address rest (frameStopped s) else frameStopped s)) := by
  have hexec : exec (.observedFrameStop rest ack) s = .next (observedStop rest ack s) := event_running hr
  have hin : foreignIn .observing s.line = some ([address], g) := by
    rw [foreignIn, hframe]
    exact if_pos hstate
  rw [hexec, observedStop, hin]
  rfl

theorem exec_addressedFrameStop {bytes : List Byte} (hr : running s = true) (hstate : s.line.state = .addressed)
    (hframe : s.line.frame = .foreign bytes started g) : exec .addressedFrameStop s = .next (frameStopped s) := by
  have hexec : exec .addressedFrameStop s = .next (addressedStop s) := event_running hr
  have hin : foreignIn .addressed s.line = some (bytes, g) := by
    rw [foreignIn, hframe]
    exact if_pos hstate
  rw [hexec, addressedStop, hin]

/-- A frame that ends with nothing handed on leaves the bells and the account (R158). -/
theorem frame_unheard (s : State) :
    (settlePeal (frameStopped s)).line = { s.line with state := .idle, frame := .none } ∧
      (settlePeal (frameStopped s)).bells = s.bells ∧ (settlePeal (frameStopped s)).lights = s.lights ∧
      settingsView (settlePeal (frameStopped s)) = settingsView s := by
  obtain ⟨hbells, hline, hlights, -⟩ := rest_settlePeal (frameStopped s)
  exact ⟨hline, hbells, hlights, settings_after_frame (tower_settlePeal _)⟩

/-! ### What an observed frame orders (R158, R210) -/

/-- Only a HALT order byte, with the read flag clear, is a HALT. -/
theorem halt_of_consoleOrder {read : Bool} (h : consoleOrderOf read rest = some .halt) : rest.head? = some 0x12 ∧ read = false := by
  cases rest with
  | nil => cases h
  | cons o more =>
    unfold consoleOrderOf at h
    dsimp only at h
    cases read with
    | true =>
      rw [if_pos rfl] at h
      split at h
      · split at h <;> cases h
      · cases h
    | false =>
      rw [if_neg (by simp)] at h
      split at h
      · cases h
      · split at h
        · cases h
        · split at h
          · next ho => exact ⟨congrArg some ho, rfl⟩
          · cases h

/-- Nothing is handed to a bell that the console does not hold, or to no bell (R133, R158). -/
theorem handObserved_ignored (hauto : ∀ st, stationOf (address.toNat / 4) = some st → (getBell s st).ctrl = .automatic)
    (hall : address.toNat / 4 = 0 → rest.head? ≠ some 0x12 ∨ readFlag address = true) : handObserved address rest s = s := by
  unfold handObserved
  split
  · rfl
  · next o ho =>
    split
    · next hzero =>
      refine if_neg ?_
      rintro rfl
      obtain ⟨hhead, hread⟩ := halt_of_consoleOrder ho
      rcases hall hzero with h | h
      · exact h hhead
      · rw [hread] at h; cases h
    · split
      · next st hst => exact if_neg (by rw [hauto st hst]; exact Controller.noConfusion)
      · rfl

/-- An order to the station of a bell that the console holds is handed to that bell (R133, R158). -/
theorem handObserved_station {o : ConsoleOrder} (hst : stationOf (address.toNat / 4) = some st) (hc : (getBell s st).ctrl = .console)
    (ho : consoleOrderOf (readFlag address) rest = some o) : handObserved address rest s = observeOrder st o s := by
  have hsome : addressOf address ≠ 0 := by
    intro h
    have h' : address.toNat / 4 = 0 := h
    rw [h'] at hst
    cases hst
  have hst' : stationOf (addressOf address) = some st := hst
  rw [handObserved, ho]
  dsimp only
  rw [if_neg hsome, hst']
  exact if_pos hc

/-! ### A bell found moving (R133) -/

/-- Admission asked for a bell that moves leaves the others, and all of the bell but its reservation. -/
theorem asked_askMoving (st : Station) (s : State) :
    (∀ u, u ≠ st → getBell (askMoving st s) u = getBell s u) ∧
      (getBell (askMoving st s) st).pos = (getBell s st).pos ∧ (getBell (askMoving st s) st).upSince = (getBell s st).upSince ∧
      ((getBell (askMoving st s) st).reserving = true ∨ isWaiting (askMoving st s) st = true) := by
  unfold askMoving
  split
  · next h => exact ⟨fun _ _ => rfl, rfl, rfl, h⟩
  · unfold askAdmission
    split
    · next l shed _ =>
      obtain ⟨a, ha⟩ := setFlagIf_eq shed .loadLimited (setLights l s)
      dsimp only
      rw [ha, getBell_updBell_self]
      exact ⟨fun u hu => getBell_updBell_other hu, rfl, rfl, .inl rfl⟩
    · refine ⟨fun _ _ => rfl, rfl, rfl, .inr ?_⟩
      dsimp only
      rw [if_pos rfl]
      simp [isWaiting, setLights]

/-- The moment since which a bell is UP, after it enters a position state (R112). -/
theorem upSince_enterPosition (pos : Position) (s : State) :
    (getBell (enterPosition st pos s) st).upSince = if pos = .up then s.elapsed else (getBell s st).upSince := by
  have h := congrArg Bell.upSince (bellCore_enterPosition (st := st) (s := s) pos)
  exact h

theorem pos_enterPosition (pos : Position) (s : State) : (getBell (enterPosition st pos s) st).pos = pos :=
  (core_parts (bellCore_enterPosition (st := st) (s := s) pos)).1

/-- A bell that the console moves is in that position, with its reservation or waiting for it (R133). -/
theorem moved_consoleMoves (st : Station) (pos : Position) (s : State) :
    (∀ u, u ≠ st → getBell (consoleMoves st pos s) u = getBell s u) ∧ (getBell (consoleMoves st pos s) st).pos = pos ∧
      (getBell (consoleMoves st pos s) st).upSince
        = (if pos = .up ∧ (getBell s st).pos ≠ .up then s.elapsed else (getBell s st).upSince) ∧
      ((getBell (consoleMoves st pos s) st).reserving = true ∨ isWaiting (consoleMoves st pos s) st = true) := by
  unfold consoleMoves
  by_cases hsame : (getBell s st).pos = pos
  · rw [if_pos hsame]
    obtain ⟨hothers, hpos, hup, hload⟩ := asked_askMoving st s
    refine ⟨hothers, hpos.trans hsame, hup.trans ?_, hload⟩
    rw [if_neg]
    rintro ⟨rfl, hne⟩
    exact hne hsame
  · rw [if_neg hsame]
    obtain ⟨hothers, hpos, hup, hload⟩ := asked_askMoving st (enterPosition st pos s)
    refine ⟨fun u hu => (hothers u hu).trans ((only_enterPosition (OnlyBell.refl st s) pos).others u hu),
      hpos.trans (pos_enterPosition pos s), ?_, hload⟩
    rw [hup, upSince_enterPosition]
    by_cases hpos' : pos = .up
    · subst hpos'
      rw [if_pos rfl, if_pos ⟨rfl, hsame⟩]
    · rw [if_neg hpos', if_neg fun h => hpos' h.1]

/-! ### Observed replies and orders (R133) -/

/-- The position that a moving reply shows. -/
def shownBy (reply : Byte) : Position :=
  if reply.toNat % 4 = 1 then .raising else if reply.toNat % 4 = 2 then .up else .lowering

theorem shownBy_up {reply : Byte} : shownBy reply = .up ↔ reply.toNat % 4 = 2 := by
  unfold shownBy
  split
  · next h => simp [h]
  · split
    · next h => simp [h]
    · next h => simp [h]

theorem consoleReply_moving {reply : Byte} (h : reply.toNat % 4 ≠ 0) :
    consoleReply st (replyOf reply) s = consoleMoves st (shownBy reply) s := by
  have hfour : reply.toNat % 4 = 1 ∨ reply.toNat % 4 = 2 ∨ reply.toNat % 4 = 3 := by omega
  rcases hfour with h | h | h <;> simp only [consoleReply, replyOf, shownBy, h] <;> rfl

theorem consoleReply_down {reply : Byte} (h : reply.toNat % 4 = 0) : consoleReply st (replyOf reply) s = becomeDown st s := by
  rw [consoleReply, replyOf_down h]

/-- The position to which an observed swing order brings a bell. -/
def orderedTo (order : Byte) : Position := if order = 0x10 then .raising else if order = 0x11 then .lowering else .unsure

/-- An observed RAISE, LOWER or HALT is handed to its bell, which it moves alone (R133). -/
theorem moved_observeOrder {order : Byte} (horder : order = 0x10 ∨ order = 0x11 ∨ order = 0x12) :
    ∃ o, consoleOrderOf false (order :: rest) = some o ∧ (getBell (observeOrder st o s) st).pos = orderedTo order ∧
      ∀ u, u ≠ st → getBell (observeOrder st o s) u = getBell s u := by
  rcases horder with rfl | rfl | rfl
  · obtain ⟨hothers, hpos, -⟩ := moved_consoleMoves st .raising s
    exact ⟨.raise, rfl, hpos, hothers⟩
  · exact ⟨.lower, rfl, pos_enterPosition .lowering s, (only_enterPosition (OnlyBell.refl st s) .lowering).others⟩
  · exact ⟨.halt, rfl, pos_enterPosition .unsure s, (only_enterPosition (OnlyBell.refl st s) .unsure).others⟩

/-! ### Work on the bells of a list, one after another -/

theorem side_of_only (h : OnlyBell st s t) (hu : u ≠ st) : bellSide t u = bellSide s u := by
  rw [bellSide, h.others u hu, h.orders u hu, isWaiting, h.lights]
  rfl

section Each

variable {f : State → Station → State} (hothers : ∀ r x u, u ≠ x → bellSide (f r x) u = bellSide r u) {xs : List Station}
include hothers

/-- A bell that is not in the list stays as it is, where the work on one bell leaves the others. -/
theorem side_foldl_other (h : st ∉ xs) (s : State) : bellSide (xs.foldl f s) st = bellSide s st := by
  induction xs generalizing s with
  | nil => rfl
  | cons x xs ih =>
    rw [List.mem_cons, not_or] at h
    exact (ih h.2 (f s x)).trans (hothers s x st h.1)

/-- A bell of the list is as the work on it leaves it, which finds it as it was. -/
theorem side_foldl_self (hn : xs.Nodup) (h : st ∈ xs) (s : State) :
    ∃ r, bellSide r st = bellSide s st ∧ bellSide (xs.foldl f s) st = bellSide (f r st) st := by
  induction xs generalizing s with
  | nil => exact absurd h List.not_mem_nil
  | cons x xs ih =>
    obtain ⟨hx, hxs⟩ := List.nodup_cons.1 hn
    rcases List.mem_cons.1 h with rfl | h
    · exact ⟨s, rfl, side_foldl_other hothers hx (f s st)⟩
    · obtain ⟨r, hr, hdone⟩ := ih hxs h (f s x)
      exact ⟨r, hr.trans (hothers s x st fun heq => hx (heq ▸ h)), hdone⟩

end Each

/-! ### A HALT to every bell (R133, R158) -/

theorem mem_consoleBells : st ∈ consoleBells s ↔ (getBell s st).ctrl = .console := by
  simp [consoleBells, mem_allStations]

theorem nodup_consoleBells (s : State) : (consoleBells s).Nodup := (List.nodup_finRange 31).filter _

theorem bellSide_observeHalt (r : State) (x u : Station) (h : u ≠ x) : bellSide (observeOrder x .halt r) u = bellSide r u :=
  side_of_only (only_enterPosition (OnlyBell.refl x r) .unsure) h

theorem handObserved_all (s : State) :
    handObserved 0 (0x12 :: rest) s = (consoleBells s).foldl (fun acc st => observeOrder st .halt acc) s := rfl

/-- Settles O49: how a frame begins, what its STOP hands on by address and order, and the end of a frame to the part. -/
theorem foreignFramesAreFollowed : Obligations.ForeignFramesAreFollowed := by
  refine fun s hr => ⟨fun address hidle hm => ?_, fun address started g hstate hframe => ⟨fun rest => ?_, fun rest hauto hall => ?_,
    fun reply rest st hst hread hc => ?_, fun order rest st hst hread hc horder => ?_, fun rest hzero => ?_⟩,
    fun bytes started g hstate hframe => exec_addressedFrameStop hr hstate hframe⟩
  · rw [exec_foreignStart hr, foreignBegins, if_pos ⟨hidle, hm⟩]
    rfl
  · exact ⟨_, exec_observedFrameStop hr hstate hframe rest false, frame_unheard s⟩
  · refine ⟨_, exec_observedFrameStop hr hstate hframe rest true, ?_⟩
    rw [if_pos rfl, handObserved_ignored (s := frameStopped s) hauto hall]
    exact frame_unheard s
  · refine ⟨_, exec_observedFrameStop hr hstate hframe (0x20 :: reply :: rest) true, ?_⟩
    have htower : towerView (settlePeal (handObserved address (0x20 :: reply :: rest) (frameStopped s))) = towerView (frameStopped s) := by
      simp
    have horder : consoleOrderOf (readFlag address) (0x20 :: reply :: rest) = some (.reply (replyOf reply)) := by
      rw [hread]
      rfl
    have hdone : handObserved address (0x20 :: reply :: rest) (frameStopped s) = consoleReply st (replyOf reply) (frameStopped s) :=
      handObserved_station (s := frameStopped s) hst hc horder
    obtain ⟨hidle, hnone⟩ := idle_of_tower htower
    rw [if_pos rfl]
    refine ⟨hidle, hnone, (ctrl_of_tower htower st).trans hc, settings_after_frame htower, fun hmoves => ?_, fun hdown hw => ?_⟩
    · obtain ⟨hothers, hpos, hup, hload⟩ := moved_consoleMoves st (shownBy reply) (frameStopped s)
      obtain ⟨hbell, -, hwaits⟩ := side_parts (side_settlePeal (consoleMoves st (shownBy reply) (frameStopped s)) st)
      rw [hdone, consoleReply_moving hmoves, hbell, hwaits]
      refine ⟨hpos, hload, ?_, fun u hu => (getBell_settlePeal _ u).trans (hothers u hu)⟩
      simp only [shownBy_up] at hup
      exact hup
    · obtain ⟨hbell, -, hwaits⟩ := side_parts (side_settlePeal (becomeDown st (frameStopped s)) st)
      obtain ⟨hpos, hres, -⟩ := down_becomeDown (s := frameStopped s) (st := st) hw
      rw [hdone, consoleReply_down hdown, hbell, hwaits]
      exact ⟨hpos, hres, (released_becomeDown (s := frameStopped s) hw).2⟩
  · refine ⟨_, exec_observedFrameStop hr hstate hframe (order :: rest) true, ?_⟩
    have htower : towerView (settlePeal (handObserved address (order :: rest) (frameStopped s))) = towerView (frameStopped s) := by simp
    obtain ⟨o, ho, hpos, hothers⟩ := moved_observeOrder (s := frameStopped s) (st := st) (rest := rest) horder
    have hdone : handObserved address (order :: rest) (frameStopped s) = observeOrder st o (frameStopped s) :=
      handObserved_station (s := frameStopped s) hst hc (by rw [hread]; exact ho)
    obtain ⟨hidle, hnone⟩ := idle_of_tower htower
    rw [if_pos rfl]
    refine ⟨hidle, hnone, ?_, (ctrl_of_tower htower st).trans hc, fun u hu => ?_, settings_after_frame htower⟩
    · rw [getBell_settlePeal, hdone]
      exact hpos
    · rw [getBell_settlePeal, hdone]
      exact hothers u hu
  · refine ⟨_, exec_observedFrameStop hr hstate hframe (0x12 :: rest) true, ?_⟩
    have htower : towerView (settlePeal (handObserved address (0x12 :: rest) (frameStopped s))) = towerView (frameStopped s) := by simp
    obtain ⟨hidle, hnone⟩ := idle_of_tower htower
    have hnodup := nodup_consoleBells (frameStopped s)
    rw [if_pos rfl]
    refine ⟨hidle, hnone, fun st hc => ⟨?_, (ctrl_of_tower htower st).trans hc⟩, fun st hc => ?_, settings_after_frame htower⟩
    · obtain ⟨r, -, hdone⟩ := side_foldl_self (f := fun acc st => observeOrder st .halt acc) bellSide_observeHalt hnodup
        (mem_consoleBells.2 hc) (frameStopped s)
      rw [getBell_settlePeal, hzero, handObserved_all, (side_parts hdone).1]
      exact pos_enterPosition .unsure r
    · have hout : st ∉ consoleBells (frameStopped s) := fun hmem => by
        have hconsole : (getBell s st).ctrl = .console := mem_consoleBells.1 hmem
        rw [hc] at hconsole
        cases hconsole
      rw [getBell_settlePeal, hzero, handObserved_all]
      exact (side_parts (side_foldl_other (f := fun acc st => observeOrder st .halt acc) bellSide_observeHalt hout _)).1

end Sys2Proof.BellTable
end

section
/-! PROOFS. The line becomes FAULTED: what becomes of the orders and of the bells (R118, R134, R164). -/

namespace Sys2Proof.BellTable

open Sys2Proof Sys2Proof.Machine Sys2Proof.Time Sys2Proof.Performance Sys2Proof.Mains Sys2Proof.Stack

variable {s t u : State} {st : Station} {o : Order} {cause : FaultCause}

/-! ### What every step of a fault keeps -/

/-- What the steps of a line fault keep: reservations, owed orders once there are such, the line, the account and which bells are
present. -/
structure FaultKeeps (s t : State) : Prop where
  reserving : ∀ st, (getBell t st).reserving = (getBell s st).reserving
  owed : ∀ st, (getBell s st).owed.isSome = true → (getBell t st).owed.isSome = true
  line : t.line = s.line
  lights : t.lights = s.lights

theorem FaultKeeps.refl (s : State) : FaultKeeps s s := ⟨fun _ => rfl, fun _ h => h, rfl, rfl⟩

theorem FaultKeeps.trans (h : FaultKeeps s t) (h' : FaultKeeps t u) : FaultKeeps s u :=
  ⟨fun st => (h'.reserving st).trans (h.reserving st), fun st ho => h'.owed st (h.owed st ho), h'.line.trans h.line,
    h'.lights.trans h.lights⟩

theorem faultKeeps_of_parts (hbells : t.bells = s.bells) (hline : t.line = s.line) (hlights : t.lights = s.lights) : FaultKeeps s t :=
  have hsame (st : Station) : getBell t st = getBell s st := by rw [getBell, hbells]; rfl
  ⟨fun st => by rw [hsame], fun st h => by rwa [hsame], hline, hlights⟩

/-! ### The orders that come back (R118, R164) -/

theorem settleOwed_isSome (x : Option SwingOrder) (k : SwingOrder) : (settleOwed x k).isSome = true := by
  cases x with
  | none => rfl
  | some y => cases y <;> cases k <;> rfl

/-- An order that comes back to a bell is owed (R118). -/
theorem owed_owe (st : Station) (k : SwingOrder) (s : State) : (getBell (owe st k s) st).owed.isSome = true := by
  rw [owe, getBell_updBell_self]
  exact settleOwed_isSome _ k

/-- Owing an order changes what the bell owes alone. -/
theorem getBell_owe (st : Station) (k : SwingOrder) (s : State) (u : Station) :
    ∃ x, getBell (owe st k s) u = { getBell s u with owed := x } ∧ ((getBell s u).owed.isSome = true → x.isSome = true) := by
  by_cases h : u = st
  · subst h
    exact ⟨_, getBell_updBell_self _, fun _ => settleOwed_isSome _ k⟩
  · exact ⟨_, getBell_updBell_other h, id⟩

theorem orderReturned_keeps (o : Order) (s : State) :
    FaultKeeps s (orderReturned o s) ∧
      ∀ st, (getBell (orderReturned o s) st).pos = (getBell s st).pos ∧ (getBell (orderReturned o s) st).present = (getBell s st).present := by
  unfold orderReturned
  split
  · next who _ =>
    obtain ⟨hbells, hline, hlights, -⟩ := work_parts (work_answerStroke who false s)
    refine ⟨faultKeeps_of_parts hbells hline hlights, fun st => ?_⟩
    rw [getBell, hbells]
    exact ⟨rfl, rfl⟩
  · next k _ =>
    split
    · exact ⟨FaultKeeps.refl s, fun _ => ⟨rfl, rfl⟩⟩
    · refine ⟨⟨fun st => ?_, fun st h => ?_, rfl, rfl⟩, fun st => ?_⟩ <;>
        obtain ⟨x, hx, hsome⟩ := getBell_owe o.station k s st <;> rw [hx]
      · exact hsome h
      · exact ⟨rfl, rfl⟩

/-- The state in which orders have come back, one after another. -/
def returnedAll (os : List Order) (s : State) : State := os.foldl (fun acc o => orderReturned o acc) s

theorem returnedAll_keeps (os : List Order) (s : State) :
    FaultKeeps s (returnedAll os s) ∧
      ∀ st, (getBell (returnedAll os s) st).pos = (getBell s st).pos ∧ (getBell (returnedAll os s) st).present = (getBell s st).present := by
  refine List.foldlRecOn (motive := fun r => FaultKeeps s r ∧ ∀ st, (getBell r st).pos = (getBell s st).pos ∧
    (getBell r st).present = (getBell s st).present) os _ ⟨FaultKeeps.refl s, fun _ => ⟨rfl, rfl⟩⟩ fun r hr o _ => ?_
  obtain ⟨hkeeps, hsame⟩ := orderReturned_keeps o r
  exact ⟨hr.1.trans hkeeps, fun st => ⟨(hsame st).1.trans (hr.2 st).1, (hsame st).2.trans (hr.2 st).2⟩⟩

/-- A swing order among those that come back is owed by its bell, unless that is ABSENT (R118). -/
theorem owed_returnedAll {os : List Order} {k : SwingOrder} (ho : o ∈ os) (hbody : o.body = .swing k)
    (hpos : (getBell s o.station).pos ≠ .absent) : (getBell (returnedAll os s) o.station).owed.isSome = true := by
  induction os generalizing s with
  | nil => exact absurd ho List.not_mem_nil
  | cons x xs ih =>
    rcases List.mem_cons.1 ho with rfl | ho
    · refine (returnedAll_keeps xs (orderReturned o s)).1.owed o.station ?_
      rw [orderReturned, hbody]
      dsimp only
      rw [if_neg hpos]
      exact owed_owe _ k s
    · exact ih ho (by rw [((orderReturned_keeps x s).2 o.station).1]; exact hpos)

/-! ### Bells that become UNSURE on a FAULTED line (R134) -/

/-- The line is FAULTED with an empty queue. -/
def Silent (s : State) : Prop := s.line.state = .faulted ∧ s.line.queue = []

theorem silent_of_line (h : t.line = s.line) (hs : Silent s) : Silent t := by rwa [Silent, h]

theorem Silent.accepts (h : Silent s) : lineAccepts s = false := by simp [lineAccepts, h.1]

theorem makeOrder_owed (k : SwingOrder) (h : Silent s) (st : Station) :
    (makeOrder st k s).line = s.line ∧ ((getBell s st).owed.isSome = true → (getBell (makeOrder st k s) st).owed.isSome = true) := by
  unfold makeOrder
  split
  · exact ⟨rfl, id⟩
  · rw [if_neg (by simp [h.accepts])]
    exact ⟨rfl, fun _ => owed_owe st k s⟩

theorem line_checkStrikable (h : Silent s) (st : Station) : (checkStrikable st s).line = s.line := by
  unfold checkStrikable
  split
  · rfl
  · have hlost : (loseDeferred st s).line = s.line :=
      (work_parts (foldl_view workView _ (fun r (d : Deferred) => work_answerStroke d.requester false r) _ _)).2.1
    unfold withdrawStrikes
    dsimp only
    rw [(work_parts (work_strikesLost _ _)).2.1, updLine_line, hlost, h.2, List.filter_nil, ← h.2]

theorem startPolling_owed (h : Silent s) (st : Station) :
    (startPolling st s).line = s.line ∧ ((getBell s st).owed.isSome = true → (getBell (startPolling st s) st).owed.isSome = true) := by
  have hpolled (x : Option Nat) (hx : (getBell s st).owed.isSome = true) :
      (getBell (updBell st (fun b => { b with nextPoll := x }) s) st).owed.isSome = true := by rwa [getBell_updBell_self]
  have hmade (x : Option Nat) := makeOrder_owed (s := updBell st (fun b => { b with nextPoll := x }) s) .query h st
  unfold startPolling
  split
  · exact ⟨rfl, hpolled none⟩
  · next i _ =>
    split
    · unfold firstQuery pollNow
      repeat' split
      · exact ⟨(hmade _).1, fun ho => (hmade _).2 (hpolled _ ho)⟩
      · exact ⟨(hmade _).1, fun ho => (hmade _).2 (hpolled _ ho)⟩
      · exact ⟨rfl, hpolled _⟩
    · dsimp only
      split
      · exact ⟨(hmade _).1, fun ho => (hmade _).2 (hpolled _ ho)⟩
      · exact ⟨rfl, hpolled _⟩

theorem becomeUnsure_keeps (h : Silent s) (st : Station) : FaultKeeps s (becomeUnsure st s) := by
  have honly := only_becomeUnsure (OnlyBell.refl st s)
  have hchecked := line_checkStrikable (s := updBell st (positionFields .unsure s.elapsed) s) h st
  obtain ⟨hline, howed⟩ := startPolling_owed (silent_of_line hchecked h) st
  refine ⟨fun x => ?_, fun x hx => ?_, hline.trans hchecked, honly.lights⟩
  · by_cases hne : x = st
    · subst hne
      exact (core_parts (bellCore_enterPosition (st := x) (s := s) .unsure)).2.2.2.2.1
    · rw [honly.others x hne]
  · by_cases hne : x = st
    · subst hne
      refine howed ?_
      rw [owed_checkStrikable, getBell_updBell_self]
      exact hx
    · rwa [honly.others x hne]

theorem pealLeave_keeps (st : Station) (s : State) : FaultKeeps s (pealLeave st s) := by
  unfold pealLeave
  repeat' split
  all_goals exact faultKeeps_of_parts rfl rfl rfl

/-- A moving bell leaves the peal and becomes UNSURE. -/
def strandOne (s : State) (st : Station) : State := becomeUnsure st (pealLeave st s)

theorem strandOne_keeps (h : Silent s) (st : Station) : FaultKeeps s (strandOne s st) :=
  (pealLeave_keeps st s).trans (becomeUnsure_keeps (silent_of_line (pealLeave_keeps st s).line h) st)

theorem side_strandOne (r : State) (x y : Station) (h : y ≠ x) : bellSide (strandOne r x) y = bellSide r y :=
  side_of_only (only_becomeUnsure (only_pealLeave (OnlyBell.refl x r) x)) h

/-- The bells that a line fault makes UNSURE, in ascending station order. -/
def movingBells (s : State) : List Station := (presentBells s).filter fun st => isMoving (getBell s st)

theorem bellsLineFault_eq (s : State) : bellsLineFault s = (movingBells s).foldl strandOne s := rfl

theorem bellsLineFault_keeps (h : Silent s) : FaultKeeps s (bellsLineFault s) :=
  List.foldlRecOn (motive := FaultKeeps s) (movingBells s) strandOne (FaultKeeps.refl s) fun _ hr _ _ =>
    hr.trans (strandOne_keeps (silent_of_line hr.line h) _)

/-- A present bell that moves is UNSURE after the fault (R134). -/
theorem unsure_bellsLineFault (hp : (getBell s st).present = true) (hm : isMoving (getBell s st) = true) :
    (getBell (bellsLineFault s) st).pos = .unsure := by
  have hn : (movingBells s).Nodup := ((List.nodup_finRange 31).filter _).filter _
  obtain ⟨r, -, hdone⟩ := side_foldl_self side_strandOne hn (List.mem_filter.2 ⟨mem_presentBells.2 hp, hm⟩) s
  rw [bellsLineFault_eq, (side_parts hdone).1]
  exact pos_enterPosition .unsure _

theorem attn_bellsLineFault (s : State) : (bellsLineFault s).attn = s.attn :=
  foldl_view State.attn strandOne (fun r x => (attn_enterPosition x .unsure _).trans (attn_pealLeave x r)) _ _

/-! ### The whole fault (R164) -/

/-- The line as a fault leaves it. -/
def faultedLine (cause : FaultCause) (l : Line) : Line :=
  { l with
    state := .faulted, cause := cause, faults := min 255 (l.faults + 1), queue := [], frame := .none, attempt := none }

/-- The state in which the line is FAULTED and its orders have come back. -/
def flushed (cause : FaultCause) (s : State) : State :=
  setFlag .lineFault (returnedAll (heldOrders s.line) { s with line := faultedLine cause s.line })

theorem lineFault_eq (cause : FaultCause) (s : State) : lineFault cause s = settlePeal (bellsLineFault (flushed cause s)) := rfl

theorem flushed_keeps (cause : FaultCause) (s : State) : FaultKeeps { s with line := faultedLine cause s.line } (flushed cause s) :=
  (returnedAll_keeps (heldOrders s.line) { s with line := faultedLine cause s.line }).1.trans (faultKeeps_of_parts rfl rfl rfl)

theorem lineFault_keeps (cause : FaultCause) (s : State) :
    FaultKeeps { s with line := faultedLine cause s.line } (lineFault cause s) := by
  have hsilent : Silent (flushed cause s) := silent_of_line (flushed_keeps cause s).line ⟨rfl, rfl⟩
  obtain ⟨hbells, hline, hlights, -⟩ := rest_settlePeal (bellsLineFault (flushed cause s))
  exact ((flushed_keeps cause s).trans (bellsLineFault_keeps hsilent)).trans (faultKeeps_of_parts hbells hline hlights)

/-- A moving bell is UNSURE when the line has become FAULTED. -/
theorem unsure_lineFault (hp : (getBell s st).present = true) (hm : isMoving (getBell s st) = true) :
    (getBell (lineFault cause s) st).pos = .unsure := by
  obtain ⟨hpos, hpresent⟩ := (returnedAll_keeps (heldOrders s.line) { s with line := faultedLine cause s.line }).2 st
  rw [lineFault_eq, getBell_settlePeal]
  refine unsure_bellsLineFault (s := flushed cause s) (hpresent.trans hp) ?_
  change isMoving (getBell (returnedAll _ _) st) = true
  rw [isMoving, hpos]
  exact hm

/-- The swing orders that the queue held are owed when the line has become FAULTED. -/
theorem owed_lineFault {k : SwingOrder} (ho : o ∈ s.line.queue) (hbody : o.body = .swing k)
    (hpos : (getBell s o.station).pos ≠ .absent) : (getBell (lineFault cause s) o.station).owed.isSome = true := by
  have howed : (getBell (flushed cause s) o.station).owed.isSome = true :=
    owed_returnedAll (os := heldOrders s.line) (s := { s with line := faultedLine cause s.line }) (List.mem_append_right _ ho) hbody hpos
  have hsilent : Silent (flushed cause s) := silent_of_line (flushed_keeps cause s).line ⟨rfl, rfl⟩
  rw [lineFault_eq, getBell_settlePeal]
  exact (bellsLineFault_keeps hsilent).owed o.station howed

theorem flag_lineFault (cause : FaultCause) (s : State) : flagSet (lineFault cause s).attn .lineFault = true := by
  rw [lineFault_eq, attn_settlePeal, attn_bellsLineFault]
  exact flagSet_setFlag_self _

end Sys2Proof.BellTable
end
section
/-! PROOFS. Bus errors, forced access, the clock rule, recovery attempts and the line's commands (R160 to R168). -/

namespace Sys2Proof.BellTable

open Sys2Proof Sys2Proof.Machine Sys2Proof.Time Sys2Proof.Performance Sys2Proof.Mains Sys2Proof.Stack

variable {s t u : State} {st : Station} {o : Order} {cause : FaultCause} {started : Nat}

/-! ### Errors (R160 to R163) -/

/-- A bus error in a frame of the part's own, the first for its order: the order goes back for its one retry (R160). -/
theorem exec_busError_own (hr : running s = true) (hstate : s.line.state = .sending) (hframe : s.line.frame = .own o started)
    (hfirst : o.abandoned = 0) (htime : inTime s o = true) :
    exec .busError s
      = .next (settlePeal (putBack { o with abandoned := 1 } (updLine countBusError (frameBroken s)))) := by
  have hexec : exec .busError s = .next (busErrorIn s) := event_running hr
  have hown : ownOrder s.line = some o := by rw [ownOrder, hframe]
  have hback : orderBroken o (updLine countBusError (frameBroken s))
      = putBack { o with abandoned := 1 } (updLine countBusError (frameBroken s)) := by
    unfold orderBroken
    dsimp only
    rw [hfirst]
    exact if_pos ⟨rfl, htime⟩
  rw [hexec, busErrorIn, hstate]
  dsimp only
  rw [hown]
  dsimp only
  rw [hback]

theorem exec_busError_addressed (hr : running s = true) (hstate : s.line.state = .addressed) :
    exec .busError s = .next (updLine countBusError (frameBroken s)) := by
  have hexec : exec .busError s = .next (busErrorIn s) := event_running hr
  rw [hexec, busErrorIn, hstate]

theorem exec_busError_observing (hr : running s = true) (hstate : s.line.state = .observing) :
    exec .busError s = .next (frameBroken s) := by
  have hexec : exec .busError s = .next (busErrorIn s) := event_running hr
  rw [hexec, busErrorIn, hstate]

theorem exec_forcedAccess {bytes : List Byte} {g : Option BellSet} (hr : running s = true)
    (hframe : s.line.frame = .foreign bytes started g) (hstate : s.line.state = .observing ∨ s.line.state = .addressed)
    (hlong : started + 100 ≤ s.elapsed) : exec .forcedAccess s = .next (forceAccess s) := by
  have hhung : hung s = true := by
    rw [hung, hframe]
    dsimp only
    rw [Bool.and_eq_true, Bool.or_eq_true, beq_iff_eq, beq_iff_eq, decide_eq_true_eq]
    exact ⟨hstate, hlong⟩
  change execForcedAccess s = _
  rw [execForcedAccess, event_running hr, if_pos hhung]

theorem exec_recoveryPulsesDone (hr : running s = true) (hstate : s.line.state = .recovering) (ha : s.line.attempt = none) (freed : Bool) :
    exec (.recoveryPulsesDone freed) s
      = .next (if freed then lineIdle (sampleWires true freed s) else lineFault .dataStuck (sampleWires true freed s)) := by
  have hexec : exec (.recoveryPulsesDone freed) s = .next (pulsesDone freed s) := event_running hr
  rw [hexec, pulsesDone, if_pos ⟨hstate, ha⟩]

theorem exec_clockStuck (hr : running s = true) : exec .clockStuck s = .next (clockFault s) := event_running hr

/-- Whether LCK can have been low for more than 25 ms (R163). -/
theorem clockHeld_iff :
    clockHeld s = true ↔ s.pins.lckHighAt + 25 < s.elapsed ∨ ∃ m, s.pins.lckLowSince = some m ∧ m + 25 < s.elapsed := by
  unfold clockHeld clockLow
  rw [Bool.or_eq_true, Option.any_eq_true, decide_eq_true_eq, or_comm]
  refine or_congr_right (exists_congr fun m => and_congr_right fun _ => ?_)
  exact decide_eq_true_iff

theorem clockFault_idle (h : s.line.state = .faulted ∨ s.mains = .absent ∨
    s.elapsed ≤ s.pins.lckHighAt + 25 ∧ ∀ m, s.pins.lckLowSince = some m → s.elapsed ≤ m + 25) : clockFault s = s := by
  refine if_neg ?_
  rintro ⟨hruns, hheld⟩
  simp only [clockRuns, Bool.and_eq_true, bne_iff_ne, beq_iff_eq] at hruns
  rcases h with h | h | ⟨hhigh, hlow⟩
  · exact hruns.1 h
  · rw [h] at hruns; exact MainsState.noConfusion hruns.2
  · rcases clockHeld_iff.1 hheld with h | ⟨m, hm, h⟩
    · omega
    · have := hlow m hm
      omega

theorem clockFault_acts (hstate : s.line.state ≠ .faulted) (hm : s.mains = .present)
    (hheld : s.pins.lckHighAt + 25 < s.elapsed ∨ ∃ m, s.pins.lckLowSince = some m ∧ m + 25 < s.elapsed) :
    clockFault s = lineFault .clockStuck (sampleWires false s.pins.ldaHigh s) :=
  if_pos ⟨by simp [clockRuns, hstate, hm], clockHeld_iff.2 hheld⟩

/-! ### Recovery attempts (R165, R168) -/

theorem exec_recoveryAttemptEnd (hr : running s = true) (r : AttemptResult) :
    exec (.recoveryAttemptEnd r) s = .next (attemptOver r s) := event_running hr

/-- The commands and events by which the line becomes FAULTED read the wires, and take every step of R164. -/
theorem exec_faults {c : Instr} (hr : running s = true)
    (h : (c = .recoveryPulsesDone false ∧ cause = .dataStuck ∧ s.line.state = .recovering ∧ s.line.attempt = none) ∨
      c = .clockStuck ∧ cause = .clockStuck ∧ s.line.state ≠ .faulted ∧ s.mains = .present ∧
        (s.pins.lckHighAt + 25 < s.elapsed ∨ ∃ m, s.pins.lckLowSince = some m ∧ m + 25 < s.elapsed) ∨
      s.line.attempt = some .restart ∧
        (c = .recoveryAttemptEnd .clockStuck ∧ cause = .clockStuck ∨ c = .recoveryAttemptEnd .dataStuck ∧ cause = .dataStuck)) :
    ∃ lck lda, exec c s = .next (lineFault cause (sampleWires lck lda s)) := by
  rcases h with ⟨rfl, rfl, hstate, ha⟩ | ⟨rfl, rfl, hstate, hm, hheld⟩ | ⟨ha, ⟨rfl, rfl⟩ | ⟨rfl, rfl⟩⟩
  · exact ⟨true, false, exec_recoveryPulsesDone hr hstate ha false⟩
  · exact ⟨false, s.pins.ldaHigh, (exec_clockStuck hr).trans (congrArg _ (clockFault_acts hstate hm hheld))⟩
  · refine ⟨false, s.pins.ldaHigh, (exec_recoveryAttemptEnd hr _).trans ?_⟩
    rw [attemptOver, ha]
    rfl
  · refine ⟨true, false, (exec_recoveryAttemptEnd hr _).trans ?_⟩
    rw [attemptOver, ha]
    rfl

/-- The state in which a recovery attempt has freed the line, before the queries. -/
def lineFreed (s : State) : State :=
  sampleWires true true (updLine (fun l => { l with attempt := none, state := .idle, frame := .none }) s)

theorem attemptFreed_eq (s : State) : attemptFreed s = queryAll (lineFreed s) := rfl

/-- Making an order places at most that one. -/
theorem queue_makeOrder (st : Station) (k : SwingOrder) (s : State) :
    (makeOrder st k s).line.queue = s.line.queue ∨
      makeOrder st k s = placeOrder (swingOrder st k) s ∧ (getBell s st).owed = none := by
  unfold makeOrder
  split
  · exact .inl rfl
  · split
    · next h => exact .inr ⟨rfl, h.2.2⟩
    · exact .inl rfl

theorem queue_offerOwed (st : Station) (s : State) :
    (offerOwed st s).line.queue = s.line.queue ∨ ∃ o : Order, o.station = st ∧ (offerOwed st s).line.queue = s.line.queue ++ [o] := by
  unfold offerOwed
  split
  · exact .inl rfl
  · next k _ =>
    split
    · exact .inr ⟨swingOrder st k, rfl, rfl⟩
    · exact .inl rfl

/-- The query of a station places one order at most, for that station. -/
theorem queue_queryStation (st : Station) (s : State) :
    (queryStation st s).line.queue = s.line.queue ∨
      ∃ o : Order, o.station = st ∧ (queryStation st s).line.queue = s.line.queue ++ [o] := by
  unfold queryStation
  split
  · rcases queue_makeOrder st .query s with hsame | ⟨hplaced, hnone⟩
    · rw [← hsame]
      exact queue_offerOwed st (makeOrder st .query s)
    · have hoffer : offerOwed st (makeOrder st .query s) = makeOrder st .query s := by
        have hnone' : (getBell (makeOrder st .query s) st).owed = none := by
          rw [hplaced]
          exact hnone
        rw [offerOwed, hnone']
      rw [hoffer, hplaced]
      exact .inr ⟨swingOrder st .query, rfl, rfl⟩
  · exact .inl rfl

/-- The queries of stations add orders at the tail, in the order of the stations. -/
theorem queue_foldl_query (sts : List Station) (s : State) :
    ∃ added, (sts.foldl (fun acc st => queryStation st acc) s).line.queue = s.line.queue ++ added ∧
      (added.map Order.station).Sublist sts := by
  induction sts generalizing s with
  | nil => exact ⟨[], by simp, List.nil_sublist _⟩
  | cons x xs ih =>
    obtain ⟨added, hqueue, hsub⟩ := ih (queryStation x s)
    rcases queue_queryStation x s with hsame | ⟨o, rfl, hone⟩
    · exact ⟨added, by rw [List.foldl_cons, hqueue, hsame], hsub.cons x⟩
    · exact ⟨o :: added, by rw [List.foldl_cons, hqueue, hone, List.append_assoc]; rfl, by simpa using hsub.cons_cons o.station⟩

theorem sorted_presentBells (s : State) : (presentBells s).Pairwise (· < ·) := (List.pairwise_lt_finRange 31).filter _

/-- A freed line: IDLE, with a query for every present AUTOMATIC bell, in ascending station order (R165). -/
theorem freed_attempt (s : State) :
    (attemptFreed s).line.state = .idle ∧ (attemptFreed s).line.attempt = none ∧ (attemptFreed s).line.cause = s.line.cause ∧
      (∀ st, (getBell s st).present = true → (getBell s st).ctrl = .automatic →
        (outstanding (attemptFreed s) st).isSome = true ∨ (getBell (attemptFreed s) st).owed.isSome = true) ∧
      (∃ added, (attemptFreed s).line.queue = s.line.queue ++ added ∧ (added.map Order.station).Pairwise (· < ·)) ∧
      (attemptFreed s).lights = s.lights := by
  rw [attemptFreed_eq]
  obtain ⟨bs, q, hon⟩ := onOrders_queryAll (lineFreed s)
  obtain ⟨added, hqueue, hsub⟩ := queue_foldl_query (presentBells (lineFreed s)) (lineFreed s)
  have hordered (st : Station) (hp : (getBell s st).present = true) (hc : (getBell s st).ctrl = .automatic) :=
    ordered_queryAll (s := lineFreed s) hp hc
  refine ⟨by rw [hon]; rfl, by rw [hon]; rfl, by rw [hon]; rfl, fun st hp hc => ?_, ⟨added, hqueue, ?_⟩, by rw [hon]; rfl⟩
  · exact (hordered st hp hc).imp Option.isSome_iff_ne_none.2 Option.isSome_iff_ne_none.2
  · exact (sorted_presentBells (lineFreed s)).sublist hsub

theorem tower_attemptFreed (s : State) :
    towerView (attemptFreed s)
      = { towerView s with
          line := (towerView (attemptFreed s)).line
          pins := { s.pins with lckHighAt := s.elapsed, lckLowSince := none, ldaHigh := true } } := by
  rw [attemptFreed_eq, tower_queryAll]
  rfl

/-! ### The line's commands (R165, R166) -/

theorem exec_clearLine (s : State) : exec (.clearLine []) s = change (clearLineCmd [] s) s := rfl

theorem exec_writeLineSettings (s : State) (b : Byte) : exec (.writeLineSettings [b]) s = change (writeLineSettings [b] s) s := rfl

theorem flagOf_large {b : Byte} (h : 1 < b.toNat) : flagOf b = none := by
  unfold flagOf
  rw [if_neg, if_neg]
  · rintro rfl; exact absurd h (by decide)
  · rintro rfl; exact absurd h (by decide)

/-- Settles O51: errors and forced access, the ways to a fault, the ends of an attempt, then the two commands. -/
theorem lineErrorsAndRecovery : Obligations.LineErrorsAndRecovery := by
  refine fun s => ⟨fun hr => ⟨fun o started hstate hframe hfirst htime => ?_, fun hstate => exec_busError_addressed hr hstate,
    fun hstate => exec_busError_observing hr hstate, fun bytes started g hframe hstate hlong =>
      exec_forcedAccess hr hframe hstate hlong, fun hstate ha => exec_recoveryPulsesDone hr hstate ha true, fun h => ?_,
    fun c cause h => ?_, fun kind ha => ?_, fun cause r ha h => ?_⟩,
    fun hserved => ⟨fun hstate hm => ?_, fun h => ?_, change_ok hserved, change_ok hserved, fun b hb => ?_⟩⟩
  · have htower : towerView (settlePeal (putBack { o with abandoned := 1 } (updLine countBusError (frameBroken s))))
        = towerView (updLine countBusError (frameBroken s)) := (tower_settlePeal _).trans (tower_putBack _ _)
    obtain ⟨hbells, hline, -⟩ := rest_settlePeal (putBack { o with abandoned := 1 } (updLine countBusError (frameBroken s)))
    refine ⟨_, exec_busError_own hr hstate hframe hfirst htime, hline, hbells, (settings_of_tower htower).trans ?_⟩
    exact (settings_updLine (frameBroken s) countBusError rfl).trans (settings_frameBroken s)
  · rw [exec_clockStuck hr, clockFault_idle h]
  · obtain ⟨lck, lda, hexec⟩ := exec_faults hr h
    have hkeeps := lineFault_keeps cause (sampleWires lck lda s)
    exact ⟨_, hexec, hkeeps.line, flag_lineFault _ _, fun st hp hm => unsure_lineFault (s := sampleWires lck lda s) hp hm,
      hkeeps.reserving, fun o k ho hbody hpos => owed_lineFault (s := sampleWires lck lda s) ho hbody hpos, hkeeps.lights,
      (settings_lineFault _ _).trans (settings_sampleWires s lck lda)⟩
  · have hexec : exec (.recoveryAttemptEnd .freed) s = .next (attemptFreed s) := by
      rw [exec_recoveryAttemptEnd hr, attemptOver, ha]
    obtain ⟨hstate, hattempt, hcause, hordered, hqueue, hlights⟩ := freed_attempt s
    exact ⟨_, hexec, hstate, hattempt, hcause, hordered, hqueue, hlights, tower_attemptFreed s⟩
  · rw [exec_recoveryAttemptEnd hr, attemptOver, ha]
    rcases h with ⟨rfl, rfl⟩ | ⟨rfl, rfl⟩ <;> rfl
  · rw [exec_clearLine, clearLineCmd, if_neg (by simp [hstate, hm])]
    split
    · exact change_ok hserved
    · exact change_ok hserved
  · rw [exec_clearLine, clearLineCmd, if_pos h]
    exact change_error hserved
  · rw [exec_writeLineSettings, writeLineSettings, flagOf_large hb]
    exact change_error hserved

end Sys2Proof.BellTable
end

section
/-! PROOFS. Sets of bells as the lists that they stand for (R203). -/

namespace Sys2Proof.BellTable

open Sys2Proof Sys2Proof.Machine Sys2Proof.Time Sys2Proof.Performance Sys2Proof.Mains Sys2Proof.Stack

variable {st u : Station} {set g : BellSet}

theorem inSet_everyBell (st : Station) : inSet everyBell st = true := by
  revert st
  decide

theorem inSet_realBells (set : BellSet) (st : Station) : inSet (realBells set) st = inSet set st := by
  have h := inSet_everyBell st
  unfold inSet at h ⊢
  rw [realBells, BitVec.getLsbD_and, h, Bool.and_true]

theorem inSet_none (st : Station) : inSet 0 st = false := by simp [inSet]

theorem inSet_add (g : BellSet) (st u : Station) : inSet (g ||| oneBell st) u = (inSet g u || decide (u = st)) := by
  have hin : u.val + 1 < 32 := by have := u.isLt; omega
  have hone : (oneBell st).getLsbD (u.val + 1) = decide (u = st) := by
    rw [oneBell, BitVec.getLsbD_twoPow, Bool.eq_iff_iff]
    simp only [Bool.and_eq_true, decide_eq_true_eq, Fin.ext_iff]
    omega
  rw [inSet, BitVec.getLsbD_or, hone]
  rfl

/-- The part of a set that lies below a station. -/
def below (st : Station) (set : BellSet) : BellSet := set &&& BitVec.ofNat 32 (2 ^ stationNo st - 1)

theorem inSet_below (st u : Station) (set : BellSet) : inSet (below st set) u = (inSet set u && decide (u < st)) := by
  have hin : u.val + 1 < 32 := by have := u.isLt; omega
  have hmask : (BitVec.ofNat 32 (2 ^ stationNo st - 1)).getLsbD (u.val + 1) = decide (u < st) := by
    have hlt : u.val + 1 < stationNo st ↔ u < st := Nat.add_lt_add_iff_right
    rw [BitVec.getLsbD_ofNat, Nat.testBit_two_pow_sub_one, decide_eq_true hin, Bool.true_and]
    exact decide_eq_decide.2 hlt
  rw [inSet, below, BitVec.getLsbD_and, hmask]
  rfl

theorem mem_bellsOf : st ∈ bellsOf set ↔ inSet set st = true := by simp [bellsOf, mem_allStations]

/-- A rising list that is filtered divides at each of its members into what is below and what is above. -/
theorem filter_divides {α : Type} [LinearOrder α] {p : α → Bool} {x : α} {xs : List α} (hsorted : xs.Pairwise (· < ·)) (hmem : x ∈ xs)
    (hx : p x = true) :
    xs.filter p = xs.filter (fun y => p y && decide (y < x)) ++ x :: xs.filter (fun y => p y && decide (x < y)) := by
  induction xs with
  | nil => exact absurd hmem List.not_mem_nil
  | cons y ys ih =>
    obtain ⟨hy, hys⟩ := List.pairwise_cons.1 hsorted
    rcases List.mem_cons.1 hmem with rfl | hmem
    · have hlow : ys.filter (fun z => p z && decide (z < x)) = [] :=
        List.filter_eq_nil_iff.2 fun z hz => by simp [(hy z hz).le]
      have hhigh : ys.filter (fun z => p z && decide (x < z)) = ys.filter p :=
        List.filter_congr fun z hz => by simp [hy z hz]
      simp [hx, hlow, hhigh]
    · have hyx : y < x := hy x hmem
      have hup : ¬ x < y := hyx.asymm
      by_cases hp : p y = true
      · simp [hp, hyx, hup, ih hys hmem]
      · simp [hp, ih hys hmem]

/-- A claimed set divides at each of its stations into the lower ones and the higher ones. -/
theorem bellsOf_divides (h : inSet set st = true) :
    ∃ above, bellsOf (realBells set) = bellsOf (realBells (below st set)) ++ st :: above := by
  have hx : inSet (realBells set) st = true := (inSet_realBells set st).trans h
  have hlow : allStations.filter (fun y => inSet (realBells set) y && decide (y < st)) = bellsOf (realBells (below st set)) :=
    List.filter_congr fun y _ => by rw [inSet_realBells, inSet_realBells, inSet_below]
  refine ⟨allStations.filter fun y => inSet (realBells set) y && decide (st < y), ?_⟩
  rw [← hlow]
  exact filter_divides (List.pairwise_lt_finRange 31) (mem_allStations st) hx

end Sys2Proof.BellTable
end
section
/-! PROOFS. CLAIM, RELEASE and RELEASE ALL: which bells a claim grants, and what a release gives back (R131, R132, R159). -/

namespace Sys2Proof.BellTable

open Sys2Proof Sys2Proof.Machine Sys2Proof.Time Sys2Proof.Performance Sys2Proof.Mains Sys2Proof.Stack

variable {s t : State} {st u : Station} {set g : BellSet} {address : Byte} {started : Nat}

/-! ### A bell that the console takes (R131) -/

/-- Who controls the bells is all that a change of controller changes of what tower work leaves alone. -/
def CtrlOnly (s t : State) : Prop := ∃ c, towerView t = { towerView s with ctrl := c }

theorem CtrlOnly.refl (s : State) : CtrlOnly s s := ⟨_, rfl⟩

theorem CtrlOnly.trans {r : State} (h : CtrlOnly r s) (h' : CtrlOnly s t) : CtrlOnly r t := by
  obtain ⟨c, hc⟩ := h
  obtain ⟨d, hd⟩ := h'
  exact ⟨d, hd.trans (by rw [hc])⟩

theorem ctrlOnly_of_tower (h : towerView t = towerView s) : CtrlOnly s t := ⟨_, h⟩

theorem CtrlOnly.parts (h : CtrlOnly s t) :
    t.mains = s.mains ∧ t.line.state = s.line.state ∧ t.line.frame = s.line.frame ∧ settingsView t = settingsView s := by
  obtain ⟨c, hc⟩ := h
  exact ⟨congrArg TowerView.mains hc, congrArg (fun v => v.line.state) hc, congrArg (fun v => v.line.frame) hc,
    congrArg TowerView.settings hc⟩

theorem ctrlOnly_updBell (st : Station) (f : Bell → Bell) (h : ∀ b, bellConfigOf (f b) = bellConfigOf b) (s : State) :
    CtrlOnly s (updBell st f s) := by
  refine ⟨(updBell st f s).bells.map Bell.ctrl, ?_⟩
  simp [towerView, settingsView, map_modify, h]

/-- A bell as the console takes it. -/
def takenFields (b : Bell) : Bell := { b with ctrl := .console, owed := none, moveStart := none, nextPoll := none }

theorem ctrlOnly_takeBell (st : Station) (s : State) : CtrlOnly s (takeBell st s) := by
  have htaken : CtrlOnly s (pealLeave st (updBell st takenFields s)) :=
    (ctrlOnly_updBell st takenFields (fun _ => rfl) s).trans (ctrlOnly_of_tower (tower_pealLeave ..))
  refine htaken.trans (ctrlOnly_of_tower ?_)
  unfold takeBell
  dsimp only
  rw [tower_withdrawOrders, tower_loseDeferred]
  split
  · exact tower_withdrawRequest ..
  · rfl

/-- Strokes that are lost change no other bell. -/
theorem getBell_loseDeferred_other (h : u ≠ st) (s : State) : getBell (loseDeferred st s) u = getBell s u :=
  (only_loseDeferred (OnlyBell.refl st s)).others u h

theorem others_takeBell (h : u ≠ st) (s : State) : getBell (takeBell st s) u = getBell s u := by
  unfold takeBell
  dsimp only
  rw [getBell_withdrawOrders, getBell_loseDeferred_other h]
  split
  · rw [withdrawRequest, getBell_updBell_other h]
    change getBell (pealLeave _ _) u = _
    rw [getBell_pealLeave, getBell_updBell_other h]
  · rw [getBell_pealLeave, getBell_updBell_other h]

/-- A bell that is taken is the console's, in its position and with its reservation (R131). -/
theorem bell_takeBell (st : Station) (s : State) :
    (getBell (takeBell st s) st).ctrl = .console ∧ (getBell (takeBell st s) st).pos = (getBell s st).pos ∧
      (getBell (takeBell st s) st).reserving = (getBell s st).reserving := by
  unfold takeBell
  dsimp only
  rw [getBell_withdrawOrders, getBell_loseDeferred]
  split
  · rw [getBell_withdrawRequest, getBell_pealLeave, getBell_updBell_self]
    exact ⟨rfl, rfl, rfl⟩
  · rw [getBell_pealLeave, getBell_updBell_self]
    exact ⟨rfl, rfl, rfl⟩

/-! ### One bell of a claim (R131) -/

/-- Whether a bell's load fits the account at once: the free load, or with mains present the free and the sheddable load (R187). -/
def Fits (s : State) (st : Station) (l : Lights) : Prop :=
  (getBell s st).load ≤ freeLoad l ∨ s.mains = .present ∧ (getBell s st).load ≤ freeLoad l + zoneTotal l

theorem admitLoad_isSome (mains : MainsState) (st : Station) (m : Nat) (l : Lights) :
    (admitLoad mains st m l).isSome = true ↔ m ≤ freeLoad l ∨ mains = .present ∧ m ≤ freeLoad l + zoneTotal l := by
  unfold admitLoad
  split
  · next h => simp [h]
  · next h =>
    split
    · next h' => simp [h']
    · next h' => simpa [h] using h'

/-- What the decision of one bell of a claim comes to. -/
structure Decides (st : Station) (s : State) (r : State × Bool) : Prop where
  others : ∀ u, u ≠ st → getBell r.1 u = getBell s u
  view : CtrlOnly s r.1
  pos : (getBell r.1 st).pos = (getBell s st).pos
  granted : r.2 = true ↔ (getBell s st).present = true ∧ (getBell s st).pos ≠ .fault ∧
    ((getBell s st).ctrl = .console ∨ (getBell s st).reserving = true ∨ Fits s st s.lights)
  taken : r.2 = true →
    (getBell r.1 st).ctrl = .console ∧ ((getBell s st).ctrl = .automatic → (getBell r.1 st).reserving = true)
  refused : r.2 = false → getBell r.1 st = getBell s st

theorem decides_refused (h : ¬ ((getBell s st).present = true ∧ (getBell s st).pos ≠ .fault ∧
    ((getBell s st).ctrl = .console ∨ (getBell s st).reserving = true ∨ Fits s st s.lights))) : Decides st s (s, false) :=
  ⟨fun _ _ => rfl, CtrlOnly.refl s, rfl, iff_of_false Bool.false_ne_true h, fun h => absurd h Bool.false_ne_true, fun _ => rfl⟩

/-- A bell that reserves in a state with the same bells else, and is taken there. -/
theorem decides_taken {r : State} (hothers : ∀ u, u ≠ st → getBell r u = getBell s u) (hview : CtrlOnly s r)
    (hpos : (getBell r st).pos = (getBell s st).pos) (hres : (getBell r st).reserving = true)
    (h : (getBell s st).present = true ∧ (getBell s st).pos ≠ .fault ∧
      ((getBell s st).ctrl = .console ∨ (getBell s st).reserving = true ∨ Fits s st s.lights)) :
    Decides st s (takeBell st r, true) := by
  obtain ⟨hctrl, hsame, hkept⟩ := bell_takeBell st r
  exact ⟨fun u hu => (others_takeBell hu r).trans (hothers u hu), hview.trans (ctrlOnly_takeBell st r), hsame.trans hpos,
    iff_of_true rfl h, fun _ => ⟨hctrl, fun _ => hkept.trans hres⟩, fun h => absurd h.symm Bool.false_ne_true⟩

theorem decides_grantBell (st : Station) (s : State) : Decides st s (grantBell st s) := by
  unfold grantBell
  dsimp only
  split
  · next hout =>
    refine decides_refused ?_
    rintro ⟨hp, hpos, -⟩
    exact hout.elim (fun h => Bool.false_ne_true (h.symm.trans hp)) hpos
  · next hin =>
    rw [not_or, Bool.not_eq_false] at hin
    split
    · next hc =>
      exact ⟨fun _ _ => rfl, CtrlOnly.refl s, rfl, iff_of_true rfl ⟨hin.1, hin.2, .inl hc⟩,
        fun _ => ⟨hc, fun ha => absurd (ha.symm.trans hc) Controller.noConfusion⟩, fun h => absurd h.symm Bool.false_ne_true⟩
    · next hc =>
      split
      · next hres => exact decides_taken (fun _ _ => rfl) (CtrlOnly.refl s) rfl hres ⟨hin.1, hin.2, .inr (.inl hres)⟩
      · next hres =>
        have hview := tower_askAdmission s st false
        have hadmit := admitLoad_isSome s.mains st (getBell s st).load s.lights
        unfold askAdmission at hview ⊢
        cases had : admitLoad s.mains st (getBell s st).load s.lights with
        | none =>
          rw [had] at hadmit
          refine decides_refused ?_
          rintro ⟨-, -, h | h | h⟩
          · exact hc h
          · exact hres h
          · exact Bool.false_ne_true (hadmit.2 h)
        | some p =>
          obtain ⟨l, shed⟩ := p
          rw [had] at hadmit hview
          obtain ⟨a, ha⟩ := setFlagIf_eq shed .loadLimited (setLights l s)
          dsimp only at hview ⊢
          rw [ha] at hview ⊢
          refine decides_taken (fun u hu => getBell_updBell_other hu) (ctrlOnly_of_tower hview) ?_ ?_
            ⟨hin.1, hin.2, .inr (.inr (hadmit.1 rfl))⟩
          · rw [getBell_updBell_self]
            rfl
          · rw [getBell_updBell_self]

/-! ### The bells of a claim, one after another (R131) -/

theorem grantAll_cons (x : Station) (xs : List Station) (s : State) (g : BellSet) :
    grantAll (x :: xs) s g = grantAll xs (grantBell x s).1 (if (grantBell x s).2 then g ||| oneBell x else g) := by
  rw [grantAll]
  generalize grantBell x s = r
  obtain ⟨s1, b⟩ := r
  cases b <;> rfl

theorem grantAll_append (xs ys : List Station) (s : State) (g : BellSet) :
    grantAll (xs ++ ys) s g = grantAll ys (grantAll xs s g).1 (grantAll xs s g).2 := by
  induction xs generalizing s g with
  | nil => rfl
  | cons x xs ih => rw [List.cons_append, grantAll_cons, grantAll_cons, ih]

theorem ctrlOnly_grantAll (xs : List Station) (s : State) (g : BellSet) : CtrlOnly s (grantAll xs s g).1 := by
  induction xs generalizing s g with
  | nil => exact CtrlOnly.refl s
  | cons x xs ih =>
    rw [grantAll_cons]
    exact (decides_grantBell x s).view.trans (ih _ _)

/-- A bell that is not claimed is as it was, and not granted. -/
theorem grantAll_other {xs : List Station} (h : st ∉ xs) (s : State) (g : BellSet) :
    getBell (grantAll xs s g).1 st = getBell s st ∧ inSet (grantAll xs s g).2 st = inSet g st := by
  induction xs generalizing s g with
  | nil => exact ⟨rfl, rfl⟩
  | cons x xs ih =>
    rw [List.mem_cons, not_or] at h
    obtain ⟨hbell, hset⟩ := ih h.2 (grantBell x s).1 (if (grantBell x s).2 then g ||| oneBell x else g)
    rw [grantAll_cons]
    refine ⟨hbell.trans ((decides_grantBell x s).others st h.1), hset.trans ?_⟩
    split
    · rw [inSet_add, decide_eq_false h.1, Bool.or_false]
    · rfl

/-- A claimed bell is decided in the state that the lower ones leave, in which it is as it was. -/
theorem grantAll_member {xs ys : List Station} (hn : (xs ++ st :: ys).Nodup) (s : State) :
    ∃ r, r = (grantAll xs s 0).1 ∧ getBell r st = getBell s st ∧ r.mains = s.mains ∧
      getBell (grantAll (xs ++ st :: ys) s 0).1 st = getBell (grantBell st r).1 st ∧
      inSet (grantAll (xs ++ st :: ys) s 0).2 st = (grantBell st r).2 := by
  obtain ⟨-, htail, hapart⟩ := List.nodup_append.1 hn
  have hxs : st ∉ xs := fun h => hapart st h st (List.mem_cons_self ..) rfl
  have hys : st ∉ ys := (List.nodup_cons.1 htail).1
  obtain ⟨hbell, hset⟩ := grantAll_other hxs s 0
  refine ⟨_, rfl, hbell, (ctrlOnly_grantAll xs s 0).parts.1, ?_⟩
  rw [grantAll_append, grantAll_cons]
  obtain ⟨hafter, hgranted⟩ := grantAll_other hys (grantBell st (grantAll xs s 0).1).1
    (if (grantBell st (grantAll xs s 0).1).2 then (grantAll xs s 0).2 ||| oneBell st else (grantAll xs s 0).2)
  refine ⟨hafter, hgranted.trans ?_⟩
  rw [inSet_none] at hset
  split
  · next h => rw [h, inSet_add]; simp
  · next h => rw [hset, Bool.eq_false_iff.2 h]

/-! ### The CLAIM frame (R131, R159) -/

/-- What a claim comes to in the bell table: the state after it, and the granted set. -/
def claimed (set : BellSet) (s : State) : State × BellSet := grantAll (bellsOf (realBells set)) (clockSeen s) 0

/-- A claimed bell is decided as the lower stations of the set leave the account. -/
theorem claimed_member (h : inSet set st = true) (s : State) :
    ∃ r, r = (claimed (below st set) s).1 ∧ getBell r st = getBell s st ∧ r.mains = s.mains ∧
      getBell (claimed set s).1 st = getBell (grantBell st r).1 st ∧ inSet (claimed set s).2 st = (grantBell st r).2 := by
  obtain ⟨above, habove⟩ := bellsOf_divides h
  have hn := nodup_bellsOf (realBells set)
  rw [habove] at hn
  simp only [claimed]
  rw [habove]
  exact grantAll_member hn (clockSeen s)

theorem claimed_other (h : inSet set st = false) (s : State) :
    getBell (claimed set s).1 st = getBell s st ∧ inSet (claimed set s).2 st = false := by
  have hout : st ∉ bellsOf (realBells set) := by
    rw [mem_bellsOf, inSet_realBells, h]
    exact Bool.false_ne_true
  obtain ⟨hbell, hset⟩ := grantAll_other hout (clockSeen s) 0
  exact ⟨hbell, hset.trans (inSet_none st)⟩

/-- The state after a CLAIM frame. -/
def claimTaken (set : BellSet) (s : State) : State :=
  updLine (fun l => { l with frame := extendFrame (claimBytes set (claimed set s).2) (claimed set s).2 l.frame })
    (settlePeal (setFlagIf (consoleBells s != consoleBells (claimed set s).1) .consoleChange (claimed set s).1))

theorem foreignIn_addressed (hstate : s.line.state = .addressed) (hframe : s.line.frame = .foreign [address] started none) :
    foreignIn .addressed s.line = some ([address], none) := by
  rw [foreignIn, hframe]
  exact if_pos hstate

theorem exec_claim (hr : running s = true) (hstate : s.line.state = .addressed)
    (hframe : s.line.frame = .foreign [address] started none) (hread : readFlag address = true) (set : BellSet) :
    exec (.claim set) s = .next (claimTaken set s) := by
  have hexec : exec (.claim set) s = .next (claimFrame set s) := event_running hr
  have hwith : addressedWith claimByte s = true := by
    rw [addressedWith, foreignIn_addressed hstate hframe]
    dsimp only
    rw [hread]
    rfl
  rw [hexec, claimFrame, if_pos hwith]
  rfl

theorem getBell_claimTaken (set : BellSet) (s : State) (st : Station) :
    getBell (claimTaken set s) st = getBell (claimed set s).1 st := by
  obtain ⟨a, ha⟩ := setFlagIf_eq (consoleBells s != consoleBells (claimed set s).1) .consoleChange (claimed set s).1
  change getBell (settlePeal _) st = _
  rw [getBell_settlePeal, ha]
  rfl

theorem lights_claimTaken (set : BellSet) (s : State) : (claimTaken set s).lights = (claimed set s).1.lights := by
  obtain ⟨a, ha⟩ := setFlagIf_eq (consoleBells s != consoleBells (claimed set s).1) .consoleChange (claimed set s).1
  change (settlePeal _).lights = _
  rw [settlePeal_lights, ha]

theorem ctrlOnly_claimed (set : BellSet) (s : State) : CtrlOnly (clockSeen s) (claimed set s).1 := ctrlOnly_grantAll ..

/-- The line after a CLAIM frame: the part goes on sending the granted set, and the settings stand (R159). -/
theorem line_claimTaken (hstate : s.line.state = .addressed) (hframe : s.line.frame = .foreign [address] started none) (set : BellSet) :
    (claimTaken set s).line.state = .addressed ∧
      (claimTaken set s).line.frame
        = .foreign (address :: 0x40 :: (bellSetBytes set ++ bellSetBytes (claimed set s).2)) started (some (claimed set s).2) ∧
      settingsView (claimTaken set s) = settingsView s := by
  have hview : CtrlOnly (clockSeen s)
      (settlePeal (setFlagIf (consoleBells s != consoleBells (claimed set s).1) .consoleChange (claimed set s).1)) :=
    (ctrlOnly_claimed set s).trans (ctrlOnly_of_tower ((tower_settlePeal _).trans (tower_setFlagIf ..)))
  obtain ⟨-, hstate', hframe', hsettings⟩ := hview.parts
  refine ⟨hstate'.trans hstate, ?_, (settings_updLine _ _ rfl).trans hsettings⟩
  have hextended := congrArg (extendFrame (claimBytes set (claimed set s).2) (claimed set s).2) (hframe'.trans hframe)
  exact hextended

theorem controller_ext {a b : Controller} (h : a = .console ↔ b = .console) : a = b := by
  cases a with
  | console => exact (h.1 rfl).symm
  | automatic =>
    cases b with
    | console => exact h.2 rfl
    | automatic => rfl

/-- CONSOLE_CHANGE is set where a bell has changed its controller (R131). -/
theorem flag_claimTaken (h : (getBell (claimTaken set s) st).ctrl ≠ (getBell s st).ctrl) :
    flagSet (claimTaken set s).attn .consoleChange = true := by
  have hchanged : (consoleBells s != consoleBells (claimed set s).1) = true := by
    rw [bne_iff_ne]
    intro hsame
    have hmem : (getBell s st).ctrl = .console ↔ (getBell (claimed set s).1 st).ctrl = .console := by
      rw [← mem_consoleBells, ← mem_consoleBells, hsame]
    rw [getBell_claimTaken] at h
    exact h (controller_ext hmem).symm
  change flagSet (settlePeal _).attn _ = true
  rw [attn_settlePeal, hchanged]
  exact flagSet_setFlag_self _

/-! ### What is granted (R131) -/

theorem granted_iff (h : inSet set st = true) (s : State) :
    inSet (claimed set s).2 st = true ↔
      (getBell s st).present = true ∧ (getBell s st).pos ≠ .fault ∧
        ((getBell s st).ctrl = .console ∨ (getBell s st).reserving = true ∨ Fits s st (claimed (below st set) s).1.lights) := by
  obtain ⟨r, hr, hbell, hmains, -, hgranted⟩ := claimed_member h s
  have hdecides := (decides_grantBell st r).granted
  unfold Fits at hdecides ⊢
  rw [hgranted, hdecides, hbell, hmains, hr]

/-- A granted bell is the console's, and reserves where it was taken. -/
theorem granted_taken (h : inSet (claimed set s).2 st = true) :
    (getBell (claimed set s).1 st).ctrl = .console ∧
      ((getBell s st).ctrl = .automatic → (getBell (claimed set s).1 st).reserving = true) := by
  cases hin : inSet set st with
  | false =>
    rw [(claimed_other hin s).2] at h
    cases h
  | true =>
    obtain ⟨r, -, hbell, -, hafter, hgranted⟩ := claimed_member hin s
    rw [hafter, ← hbell]
    exact (decides_grantBell st r).taken (hgranted.symm.trans h)

/-- A bell that is not granted is as it was. -/
theorem refused_same (h : inSet (claimed set s).2 st = false) : getBell (claimed set s).1 st = getBell s st := by
  cases hin : inSet set st with
  | false => exact (claimed_other hin s).1
  | true =>
    obtain ⟨r, -, hbell, -, hafter, hgranted⟩ := claimed_member hin s
    rw [hafter, (decides_grantBell st r).refused (hgranted.symm.trans h), hbell]

theorem pos_claimed (set : BellSet) (s : State) (st : Station) : (getBell (claimed set s).1 st).pos = (getBell s st).pos := by
  cases hin : inSet set st with
  | false => rw [(claimed_other hin s).1]
  | true =>
    obtain ⟨r, -, hbell, -, hafter, -⟩ := claimed_member hin s
    rw [hafter, (decides_grantBell st r).pos, hbell]

/-- The granted bells are those named, present and not in FAULT that the console then holds. -/
theorem granted_eq (set : BellSet) (s : State) (st : Station) :
    inSet (claimed set s).2 st
      = (inSet set st && (getBell s st).present && (getBell s st).pos != .fault &&
          (getBell (claimed set s).1 st).ctrl == .console) := by
  rw [Bool.eq_iff_iff]
  simp only [Bool.and_eq_true, bne_iff_ne, beq_iff_eq]
  constructor
  · intro h
    cases hin : inSet set st with
    | false =>
      rw [(claimed_other hin s).2] at h
      cases h
    | true =>
      obtain ⟨hp, hpos, -⟩ := (granted_iff hin s).1 h
      exact ⟨⟨⟨rfl, hp⟩, hpos⟩, (granted_taken h).1⟩
  · rintro ⟨⟨⟨hin, hp⟩, hpos⟩, hc⟩
    cases h : inSet (claimed set s).2 st with
    | true => rfl
    | false =>
      rw [refused_same h] at hc
      exact (h.symm.trans ((granted_iff hin s).2 ⟨hp, hpos, .inl hc⟩))

/-! ### Bells given back (R132) -/

/-- A bell that is given back. -/
structure GivenBack (st : Station) (s t : State) : Prop where
  ctrl : (getBell t st).ctrl = .automatic
  pos : (getBell t st).pos = .unsure
  reserving : (getBell t st).reserving = (getBell s st).reserving
  query : (getBell s st).present = true → outstanding t st = some .query ∨ (getBell t st).owed.isSome = true

theorem only_giveBack (st : Station) (s : State) : OnlyBell st s (giveBack st s) :=
  only_becomeUnsure (only_updBell (OnlyBell.refl st s) _)

theorem givenBack_giveBack (st : Station) (s : State) : GivenBack st s (giveBack st s) := by
  let r := updBell st (fun b => { b with ctrl := .automatic }) s
  have hbell : getBell r st = { getBell s st with ctrl := .automatic } := getBell_updBell_self _
  obtain ⟨hpos, -, -, -, hres, -, -, -, hctrl, -⟩ := core_parts (bellCore_enterPosition (st := st) (s := r) .unsure)
  rw [hbell] at hres hctrl
  exact ⟨hctrl, hpos, hres, fun hp => query_becomeUnsure (s := r) (by rw [hbell]; exact hp) (by rw [hbell])⟩

theorem GivenBack.congr {r q : State} (h : GivenBack st s t) (hbefore : bellSide s st = bellSide r st)
    (hafter : bellSide q st = bellSide t st) : GivenBack st r q := by
  obtain ⟨hbell, -⟩ := side_parts hbefore
  obtain ⟨hbell', horder, -⟩ := side_parts hafter
  obtain ⟨h1, h2, h3, h4⟩ := h
  rw [hbell] at h3 h4
  exact ⟨by rw [hbell', h1], by rw [hbell', h2], by rw [hbell', h3], by rw [hbell', horder]; exact h4⟩

/-- The bells that a release names and the console holds. -/
def releasedBells (set : BellSet) (s : State) : List Station := (consoleBells s).filter (inSet set)

theorem mem_releasedBells : st ∈ releasedBells set s ↔ (getBell s st).ctrl = .console ∧ inSet set st = true := by
  rw [releasedBells, List.mem_filter, mem_consoleBells]

/-- The state in which the bells of a release have been given back, one after another. -/
def allGivenBack (set : BellSet) (s : State) : State := (releasedBells set s).foldl (fun acc st => giveBack st acc) s

theorem releaseBells_eq (set : BellSet) (s : State) :
    releaseBells set s
      = settlePeal (setFlagIf (!(releasedBells set s).isEmpty) .consoleChange (allGivenBack set s)) := rfl

theorem line_of_only (h : OnlyBell st s t) : (t.line.state, t.line.frame) = (s.line.state, s.line.frame) := by
  have hstate := congrArg Line.state h.line
  have hframe := congrArg Line.frame h.line
  exact Prod.ext hstate hframe

theorem side_releaseBells (set : BellSet) (s : State) (st : Station) :
    bellSide (releaseBells set s) st = bellSide (allGivenBack set s) st := by
  obtain ⟨a, ha⟩ := setFlagIf_eq (!(releasedBells set s).isEmpty) .consoleChange (allGivenBack set s)
  rw [releaseBells_eq, side_settlePeal, ha]
  rfl

/-- What a release makes of the bells (R132). -/
structure Released (set : BellSet) (s t : State) : Prop where
  given : ∀ st, inSet set st = true → (getBell s st).ctrl = .console →
    (getBell t st).ctrl = .automatic ∧ (getBell t st).pos = .unsure ∧ (getBell t st).reserving = (getBell s st).reserving ∧
      ((getBell s st).present = true → outstanding t st = some .query ∨ (getBell t st).owed.isSome = true) ∧
      flagSet t.attn .consoleChange = true
  others : ∀ st, inSet set st = false ∨ (getBell s st).ctrl = .automatic → getBell t st = getBell s st
  lights : t.lights = s.lights
  line : t.line.state = s.line.state ∧ t.line.frame = s.line.frame
  settings : settingsView t = settingsView s

theorem released_releaseBells (set : BellSet) (s : State) : Released set s (releaseBells set s) := by
  have hothers (r : State) (x y : Station) (h : y ≠ x) : bellSide (giveBack x r) y = bellSide r y := side_of_only (only_giveBack x r) h
  have hn : (releasedBells set s).Nodup := (nodup_consoleBells s).filter _
  refine ⟨fun st hin hc => ?_, fun st hout => ?_, ?_, ?_, settings_releaseBells s set⟩
  · have hmem : st ∈ releasedBells set s := mem_releasedBells.2 ⟨hc, hin⟩
    obtain ⟨r, hr, hdone⟩ := side_foldl_self (f := fun acc st => giveBack st acc) hothers hn hmem s
    obtain ⟨hctrl, hpos, hres, hquery⟩ := (givenBack_giveBack st r).congr hr ((side_releaseBells set s st).trans hdone)
    have hnamed : (!(releasedBells set s).isEmpty) = true := by
      rw [Bool.not_eq_true', List.isEmpty_eq_false_iff]
      exact List.ne_nil_of_mem hmem
    refine ⟨hctrl, hpos, hres, hquery, ?_⟩
    rw [releaseBells_eq, attn_settlePeal, hnamed]
    exact flagSet_setFlag_self _
  · have hmem : st ∉ releasedBells set s := by
      rw [mem_releasedBells]
      rintro ⟨hc, hin⟩
      rcases hout with h | h
      · exact Bool.false_ne_true (h.symm.trans hin)
      · exact Controller.noConfusion (h.symm.trans hc)
    exact (side_parts ((side_releaseBells set s st).trans
      (side_foldl_other (f := fun acc st => giveBack st acc) hothers hmem s))).1
  · obtain ⟨a, ha⟩ := setFlagIf_eq (!(releasedBells set s).isEmpty) .consoleChange (allGivenBack set s)
    rw [releaseBells_eq, settlePeal_lights, ha]
    exact foldl_view State.lights _ (fun r x => (only_giveBack x r).lights) _ _
  · obtain ⟨a, ha⟩ := setFlagIf_eq (!(releasedBells set s).isEmpty) .consoleChange (allGivenBack set s)
    have hline : ((allGivenBack set s).line.state, (allGivenBack set s).line.frame) = (s.line.state, s.line.frame) :=
      foldl_view (fun r : State => (r.line.state, r.line.frame)) (fun acc x => giveBack x acc)
        (fun r x => line_of_only (only_giveBack x r)) _ _
    rw [releaseBells_eq, line_settlePeal, ha]
    exact Prod.mk.inj hline

theorem exec_release (hr : running s = true) (hstate : s.line.state = .addressed)
    (hframe : s.line.frame = .foreign [address] started none) (hread : readFlag address = false) (set : BellSet) :
    exec (.release set) s = .next (releaseBells set (frameStopped s)) := by
  have hexec : exec (.release set) s = .next (releaseFrame releaseByte set s) := event_running hr
  have hwith : addressedWith releaseByte s = true := by
    rw [addressedWith, foreignIn_addressed hstate hframe]
    dsimp only
    rw [hread]
    rfl
  rw [hexec, releaseFrame, if_pos hwith]

theorem exec_releaseAll (hr : running s = true) (hstate : s.line.state = .addressed)
    (hframe : s.line.frame = .foreign [address] started none) (hread : readFlag address = false) :
    exec .releaseAll s = .next (releaseBells everyBell (frameStopped s)) := by
  have hexec : exec .releaseAll s = .next (releaseFrame releaseAllByte everyBell s) := event_running hr
  have hwith : addressedWith releaseAllByte s = true := by
    rw [addressedWith, foreignIn_addressed hstate hframe]
    dsimp only
    rw [hread]
    rfl
  rw [hexec, releaseFrame, if_pos hwith]

/-- Settles O50: what a claim grants, and what the two releases give back. -/
theorem claimsAndReleases : Obligations.ClaimsAndReleases := by
  refine fun s address started hr hstate hframe => ⟨fun set hread => ?_, fun hread => ⟨fun set => ?_, ?_⟩⟩
  · obtain ⟨hstate', hframe', hsettings⟩ := line_claimTaken hstate hframe set
    refine ⟨claimTaken set s, (claimed set s).2, exec_claim hr hstate hframe hread set, hstate', hframe', fun st => ?_,
      fun st hin hp hpos hheld => ?_, fun st hin hp hpos hres hc => ⟨_, exec_claim hr hstate hframe hread (below st set), ?_⟩,
      fun st hgranted hc => ?_, fun st => ?_, fun st hout => ?_, fun ⟨st, h⟩ => flag_claimTaken h, hsettings⟩
    · rw [getBell_claimTaken]
      exact granted_eq set s st
    · rw [getBell_claimTaken]
      exact (granted_taken ((granted_iff hin s).2 ⟨hp, hpos, hheld.symm.imp_right .inl⟩)).1
    · rw [granted_iff hin s, lights_claimTaken]
      constructor
      · rintro ⟨-, -, h | h | h⟩
        · exact absurd (hc.symm.trans h) Controller.noConfusion
        · exact absurd (hres.symm.trans h) Bool.false_ne_true
        · exact h
      · exact fun h => ⟨hp, hpos, .inr (.inr h)⟩
    · rw [getBell_claimTaken]
      exact (granted_taken hgranted).2 hc
    · rw [getBell_claimTaken]
      exact pos_claimed set s st
    · rw [getBell_claimTaken]
      exact (claimed_other hout s).1
  · obtain ⟨hgiven, hothers, hlights, ⟨hidle, hnone⟩, hsettings⟩ := released_releaseBells set (frameStopped s)
    exact ⟨_, exec_release hr hstate hframe hread set, hidle, hnone, hgiven, hothers, hlights,
      hsettings.trans (settingsView_frameStopped s)⟩
  · obtain ⟨hgiven, hothers, hlights, ⟨hidle, hnone⟩, hsettings⟩ := released_releaseBells everyBell (frameStopped s)
    exact ⟨_, exec_releaseAll hr hstate hframe hread, hidle, hnone, fun st hc => hgiven st (inSet_everyBell st) hc,
      fun st hc => hothers st (.inr hc), hlights, hsettings.trans (settingsView_frameStopped s)⟩

end Sys2Proof.BellTable
end
